-- ==== Sys2Proof/Word.lean ====
section
/-! DEFINITION. The word and byte types of the machine and their plainest arithmetic (spec/00, R3 and R5). -/

namespace Sys2Proof

/-- A 64-bit word: a general register, an address while it is computed. -/
abbrev Word := BitVec 64

/-- A byte of memory. -/
abbrev Byte := BitVec 8

/-- A sparse table: the entries that differ from what an unlisted key reads as, by rising key. -/
abbrev Tab (α : Type) := List (Nat × α)

/-- The word of a Boolean: 1 or 0. -/
def Word.ofBool (b : Bool) : Word := if b then 1#64 else 0#64

end Sys2Proof
end

