-- ==== Sys2Proof/Config.lean ====
section
/-! DEFINITION. What an implementation fixes and the spec leaves open: the free values. Each is an opaque constant with
no body, applied to the counter that a step reads and advances (State.tick) or to what it depends on: no proof can see
what it is, and a claim is true whatever it is (notes/assumptions/4.md, 7.md, 10.md, 13.md, 20.md, 27.md,
41.md, 45.md, 50.md, 84.md). -/

namespace Sys2Proof

/-- The nanoseconds of global time that pass before the k-th step that reads the clock (R284). -/
opaque Config.elapsed : Nat → Nat

/-- Whether the k-th fetch of a word that was rewritten since it was captured returns the old word (R30). -/
opaque Config.fetchesOld : Nat → Bool

/-- Whether a loop of a die, of number 1 to 23, visits a stop (R271: a fixed subset that the spec does not give). -/
opaque Config.loopStop : Nat → Nat → Bool

/-- The k-th value that the spec leaves without a value. -/
opaque Config.freeWord : Nat → Word

/-- The i-th value that the spec leaves open for an operation on these operands: equal operands give equal values (R183). -/
opaque Config.freeFor : List Nat → Nat → Word

/-- The k-th byte that the spec leaves without a value: the bytes of an attestation key or a signature (R431, R432). -/
opaque Config.freeByte : Nat → Byte

/-- Whether infinity times zero plus a quiet NaN sets the invalid flag, which IEEE 754-2019 leaves to the implementation
(R193). -/
opaque Config.fmaNanInvalid : Bool

/-- The set of an L2 slice that a line falls into, which the spec does not give (R150, R219). -/
opaque Config.l2Set : Nat → Nat

/-- The serial number of the device (R431). -/
opaque Config.serial : Word

/-- Where in HBM the boot ROM puts the firmware image (R430). -/
opaque Config.imageBase : Nat
/-- The version that the header of an image gives; the header's layout is not given (R430). -/
opaque Config.imageVersion : List Byte → BitVec 32
/-- The length in bytes of an image whose header gives a body length: header, body and signature (R430). -/
opaque Config.imageLength : List Byte → Nat
/-- Whether the signature of an image is valid under the fused firmware key (R430). -/
opaque Config.imageValid : List Byte → Bool
/-- The bytes of the digest of an image (R432). -/
opaque Config.imageDigest : List Byte → Nat → Byte
/-- The bytes of the identity public key, made at manufacture (R431). -/
opaque Config.identityKey : Nat → Byte

end Sys2Proof
end

