-- ==== Sys2Proof/Syntax.lean ====
section
/-! DEFINITION. The instructions of the Numond Q4: one constructor for each row of the
opcode table. The encoded instructions carry the fields of their words under the names of the table (spec/02, R17);
the EVENTS of the table (spec/95), which have no word, carry what they name: a core, a die, a line. -/

namespace Sys2Proof

/-- The ONE syntax of the machine (R17, R24 and the table of spec/). -/
inductive Instr where
  /-- ADD (R41): Adds two general registers, wrapping modulo 2^64. -/
  | add (d : BitVec 5) (a : BitVec 5) (b : BitVec 5)
  /-- SUB (R41): Subtracts g[b] from g[a], wrapping modulo 2^64. -/
  | sub (d : BitVec 5) (a : BitVec 5) (b : BitVec 5)
  /-- MUL (R41): Writes the low 64 bits of the product. -/
  | mul (d : BitVec 5) (a : BitVec 5) (b : BitVec 5)
  /-- MULH (R41): Writes the high half of the signed 128-bit product. -/
  | mulh (d : BitVec 5) (a : BitVec 5) (b : BitVec 5)
  /-- MULHZ (R41): Writes the high half of the unsigned 128-bit product. -/
  | mulhz (d : BitVec 5) (a : BitVec 5) (b : BitVec 5)
  /-- DIV (R41): Signed division truncating toward zero; a zero divisor raises 0x3A. -/
  | div (d : BitVec 5) (a : BitVec 5) (b : BitVec 5)
  /-- DIVZ (R41): Unsigned division; a zero divisor raises 0x3A. -/
  | divz (d : BitVec 5) (a : BitVec 5) (b : BitVec 5)
  /-- REM (R41): Signed remainder with the sign of the dividend; a zero divisor raises 0x3A. -/
  | rem (d : BitVec 5) (a : BitVec 5) (b : BitVec 5)
  /-- REMZ (R41): Unsigned remainder; a zero divisor raises 0x3A. -/
  | remz (d : BitVec 5) (a : BitVec 5) (b : BitVec 5)
  /-- AND (R41): Bitwise AND of two registers. -/
  | and (d : BitVec 5) (a : BitVec 5) (b : BitVec 5)
  /-- OR (R41): Bitwise OR of two registers. -/
  | or (d : BitVec 5) (a : BitVec 5) (b : BitVec 5)
  /-- XOR (R41): Bitwise XOR of two registers. -/
  | xor (d : BitVec 5) (a : BitVec 5) (b : BitVec 5)
  /-- ANDN (R41): x AND NOT y. -/
  | andn (d : BitVec 5) (a : BitVec 5) (b : BitVec 5)
  /-- ORN (R41): x OR NOT y. -/
  | orn (d : BitVec 5) (a : BitVec 5) (b : BitVec 5)
  /-- SHL (R42): Shifts left by g[b][5:0]. -/
  | shl (d : BitVec 5) (a : BitVec 5) (b : BitVec 5)
  /-- SHR (R42): Logical right shift by g[b][5:0]. -/
  | shr (d : BitVec 5) (a : BitVec 5) (b : BitVec 5)
  /-- SHA (R42): Arithmetic right shift by g[b][5:0]. -/
  | sha (d : BitVec 5) (a : BitVec 5) (b : BitVec 5)
  /-- ROL (R42): Rotates left by g[b][5:0]. -/
  | rol (d : BitVec 5) (a : BitVec 5) (b : BitVec 5)
  /-- ROR (R42): Rotates right by g[b][5:0]. -/
  | ror (d : BitVec 5) (a : BitVec 5) (b : BitVec 5)
  /-- SLT (R41): Writes 1 if signed x < y, else 0. -/
  | slt (d : BitVec 5) (a : BitVec 5) (b : BitVec 5)
  /-- SLTZ (R41): Writes 1 if unsigned x < y, else 0. -/
  | sltz (d : BitVec 5) (a : BitVec 5) (b : BitVec 5)
  /-- SEQ (R41): Writes 1 if x equals y, else 0. -/
  | seq (d : BitVec 5) (a : BitVec 5) (b : BitVec 5)
  /-- MIN (R41): Signed minimum. -/
  | min (d : BitVec 5) (a : BitVec 5) (b : BitVec 5)
  /-- MAX (R41): Signed maximum. -/
  | max (d : BitVec 5) (a : BitVec 5) (b : BitVec 5)
  /-- MINZ (R41): Unsigned minimum. -/
  | minz (d : BitVec 5) (a : BitVec 5) (b : BitVec 5)
  /-- MAXZ (R41): Unsigned maximum. -/
  | maxz (d : BitVec 5) (a : BitVec 5) (b : BitVec 5)
  /-- CLZ (R41): Counts leading zero bits of g[a]. -/
  | clz (d : BitVec 5) (a : BitVec 5)
  /-- CTZ (R41): Counts trailing zero bits of g[a]. -/
  | ctz (d : BitVec 5) (a : BitVec 5)
  /-- POPC (R41): Counts one bits of g[a]. -/
  | popc (d : BitVec 5) (a : BitVec 5)
  /-- BSWAP (R41): Reverses the byte order of g[a]. -/
  | bswap (d : BitVec 5) (a : BitVec 5)
  /-- ADDI (R46): Adds a sign-extended 16-bit immediate. -/
  | addi (d : BitVec 5) (a : BitVec 5) (i : BitVec 16)
  /-- ANDI (R46): ANDs with a zero-extended immediate. -/
  | andi (d : BitVec 5) (a : BitVec 5) (i : BitVec 16)
  /-- ORI (R46): ORs with a zero-extended immediate. -/
  | ori (d : BitVec 5) (a : BitVec 5) (i : BitVec 16)
  /-- XORI (R46): XORs with a zero-extended immediate. -/
  | xori (d : BitVec 5) (a : BitVec 5) (i : BitVec 16)
  /-- SLTI (R46): Signed compare with a sign-extended immediate. -/
  | slti (d : BitVec 5) (a : BitVec 5) (i : BitVec 16)
  /-- SLTIZ (R46): Unsigned compare with a zero-extended immediate. -/
  | sltiz (d : BitVec 5) (a : BitVec 5) (i : BitVec 16)
  /-- SHLI (R47): Shifts left by an immediate amount. -/
  | shli (d : BitVec 5) (a : BitVec 5) (n : BitVec 6)
  /-- SHRI (R47): Logical right shift by an immediate amount. -/
  | shri (d : BitVec 5) (a : BitVec 5) (n : BitVec 6)
  /-- SHAI (R47): Arithmetic right shift by an immediate amount. -/
  | shai (d : BitVec 5) (a : BitVec 5) (n : BitVec 6)
  /-- ROLI (R47): Rotates left by an immediate amount. -/
  | roli (d : BitVec 5) (a : BitVec 5) (n : BitVec 6)
  /-- LHI (R48): Loads a sign-extended 21-bit immediate shifted left 16. -/
  | lhi (d : BitVec 5) (i : BitVec 21)
  /-- LDL (R49): Loads a 64-bit literal at a PC-relative address as a data load. -/
  | ldl (d : BitVec 5) (o : BitVec 21)
  /-- EXT (R51): Extracts a sign-extended bit field. -/
  | ext (d : BitVec 5) (a : BitVec 5) (p : BitVec 5) (q : BitVec 1) (l : BitVec 6)
  /-- EXTZ (R51): Extracts a zero-extended bit field. -/
  | extz (d : BitVec 5) (a : BitVec 5) (p : BitVec 5) (q : BitVec 1) (l : BitVec 6)
  /-- INS (R51): Inserts the low bits of g[a] into a field of g[d]. -/
  | ins (d : BitVec 5) (a : BitVec 5) (p : BitVec 5) (q : BitVec 1) (l : BitVec 6)
  /-- BEQ (R62): Branches if two registers are equal. -/
  | beq (a : BitVec 5) (b : BitVec 5) (o : BitVec 16)
  /-- BNE (R62): Branches if two registers differ. -/
  | bne (a : BitVec 5) (b : BitVec 5) (o : BitVec 16)
  /-- BLT (R62): Branches if g[a] is signed less than g[b]. -/
  | blt (a : BitVec 5) (b : BitVec 5) (o : BitVec 16)
  /-- BGE (R62): Branches if g[a] is signed greater or equal to g[b]. -/
  | bge (a : BitVec 5) (b : BitVec 5) (o : BitVec 16)
  /-- BLTZ (R62): Branches if g[a] is negative. -/
  | bltz (a : BitVec 5) (o : BitVec 16)
  /-- BGEZ (R62): Branches if g[a] is not negative. -/
  | bgez (a : BitVec 5) (o : BitVec 16)
  /-- J (R63): Jumps to a PC-relative target. -/
  | j (o : BitVec 26)
  /-- CALL (R63): Writes p + 4 to g31 and jumps to a PC-relative target. -/
  | call (o : BitVec 26)
  /-- JR (R64): Jumps to g[a], optionally linking p + 4 into g[d]. -/
  | jr (d : BitVec 5) (a : BitVec 5)
  /-- LOOP (R66): Starts a hardware loop of g[a] passes, or skips the body when the count is 0. -/
  | loop (a : BitVec 5) (i : BitVec 16)
  /-- FRAME (R69): Checks and captures a body of 1 to 32 arithmetic instructions and replays it N times with stagger and register rotation. -/
  | frame (len : BitVec 5) (ra : BitVec 5) (stg : BitVec 4) (cnt : BitVec 16) (rot : BitVec 5)
  /-- QGET (R60): Pops a value from a queue register into g[a], waiting while it is empty. -/
  | qget (a : BitVec 5) (q : BitVec 3)
  /-- QSET (R60): Pushes g[a] into a queue register, waiting while it is full. -/
  | qset (a : BitVec 5) (q : BitVec 3)
  /-- QLEN (R60): Writes the number of entries a queue register holds. -/
  | qlen (a : BitVec 5) (q : BitVec 3)
  /-- BQP (R60): Pushes a branch outcome into bq. -/
  | bqp (a : BitVec 5)
  /-- BQB (R60): Pops a branch outcome from bq and branches if it is 1. -/
  | bqb (o : BitVec 16)
  /-- SPLIT (R57): Starts the A sequencer at a target with a copy of bank 0's registers. -/
  | split (i : BitVec 21)
  /-- AEND (R57): On A ends the A sequencer; on E waits until A is inactive. -/
  | aend
  /-- SPAWN (R93): Reads a task record and pushes it onto the deque, parking if the deque is full. -/
  | spawn (a : BitVec 5)
  /-- FORK (R95): Increments the join counter and pushes a copy of the task record with a new entry onto the deque. -/
  | fork (a : BitVec 5) (o : BitVec 16)
  /-- JOIN (R95): Decrements the join counter; the arrival reaching zero continues, others end. -/
  | join (a : BitVec 5) (o : BitVec 16)
  /-- DONE (R96): Ends the task and frees its stack slice. -/
  | done
  /-- YIELD (R97): Parks the task behind other ready tasks of its level if possible. -/
  | yield
  /-- LEE (R89): Opens a sheltered window of n instructions against urgent pre-emption. -/
  | lee (n : BitVec 6)
  /-- AREG (R98): Registers or clears actor entry k from a descriptor. -/
  | areg (a : BitVec 5) (k : BitVec 3)
  /-- LNCH (R100): Reads a launch record and enters it into a launch queue of the capability's partition. -/
  | lnch (a : BitVec 5) (k : BitVec 4) (q : BitVec 6)
  /-- LD (R114): Loads 1 to 8 bytes from local or virtual space with base plus scaled offset. -/
  | ld (d : BitVec 5) (a : BitVec 5) (s : BitVec 3) (o : BitVec 13)
  /-- ST (R114): Enters a store of 1 to 8 bytes into the store buffer after translation and checks. -/
  | st (d : BitVec 5) (a : BitVec 5) (s : BitVec 3) (o : BitVec 13)
  /-- LDX (R114): Loads with base plus optionally scaled index register. -/
  | ldx (d : BitVec 5) (a : BitVec 5) (b : BitVec 5) (c : BitVec 1) (s : BitVec 3)
  /-- STX (R114): Stores with base plus optionally scaled index register. -/
  | stx (d : BitVec 5) (a : BitVec 5) (b : BitVec 5) (c : BitVec 1) (s : BitVec 3)
  /-- CARVE (R116): Waits for buffers and engine commands to drain, then resizes the scratchpad and L1. -/
  | carve (k : BitVec 4)
  /-- POOL (R117): Sets the victim-pool mask and recomputes partnerships. -/
  | pool (a : BitVec 5)
  /-- PREF (R118): Hints that a line be brought into L1 or L2; never traps. -/
  | pref (a : BitVec 5) (l : BitVec 1) (o : BitVec 6)
  /-- L1FL (R119): Invalidates the line holding g[a] in the L1 and in victim copies. -/
  | l1fl (a : BitVec 5)
  /-- L1FL_ALL (R119): Invalidates the whole L1 and every victim copy held for this core. -/
  | l1flAll
  /-- TLBW (R144): Writes a checked entry into the cove TLB, replacing overlapping entries. -/
  | tlbw (a : BitVec 5) (b : BitVec 5) (c : BitVec 5)
  /-- TLBI_VA (R145): Removes entries mapping one address under an ASID across the partition and waits for their accesses. -/
  | tlbiVa (a : BitVec 5) (b : BitVec 5)
  /-- TLBI_ASID (R145): Removes every entry of one ASID across the partition. -/
  | tlbiAsid (b : BitVec 5)
  /-- TLBI_ALL (R145): Removes every TLB entry of the partition. -/
  | tlbiAll
  /-- WRET (R146): Answers a walk slot with one of five outcomes and frees the slot. -/
  | wret (a : BitVec 5) (b : BitVec 5) (c : BitVec 5) (k : BitVec 3)
  /-- REGDONE (R147): Ends a ticket with a result, clearing or replacing the causes of its parked tasks. -/
  | regdone (a : BitVec 5) (b : BitVec 5) (c : BitVec 5)
  /-- AMO_ADD (R164): Atomic add at the line's home slice, returning the old value. -/
  | amoAdd (d : BitVec 5) (a : BitVec 5) (b : BitVec 5) (r : BitVec 1) (q : BitVec 1) (w : BitVec 1)
  /-- AMO_MIN (R164): Atomic signed minimum. -/
  | amoMin (d : BitVec 5) (a : BitVec 5) (b : BitVec 5) (r : BitVec 1) (q : BitVec 1) (w : BitVec 1)
  /-- AMO_MAX (R164): Atomic signed maximum. -/
  | amoMax (d : BitVec 5) (a : BitVec 5) (b : BitVec 5) (r : BitVec 1) (q : BitVec 1) (w : BitVec 1)
  /-- AMO_MINZ (R164): Atomic unsigned minimum. -/
  | amoMinz (d : BitVec 5) (a : BitVec 5) (b : BitVec 5) (r : BitVec 1) (q : BitVec 1) (w : BitVec 1)
  /-- AMO_MAXZ (R164): Atomic unsigned maximum. -/
  | amoMaxz (d : BitVec 5) (a : BitVec 5) (b : BitVec 5) (r : BitVec 1) (q : BitVec 1) (w : BitVec 1)
  /-- AMO_AND (R164): Atomic AND. -/
  | amoAnd (d : BitVec 5) (a : BitVec 5) (b : BitVec 5) (r : BitVec 1) (q : BitVec 1) (w : BitVec 1)
  /-- AMO_OR (R164): Atomic OR. -/
  | amoOr (d : BitVec 5) (a : BitVec 5) (b : BitVec 5) (r : BitVec 1) (q : BitVec 1) (w : BitVec 1)
  /-- AMO_XOR (R164): Atomic XOR. -/
  | amoXor (d : BitVec 5) (a : BitVec 5) (b : BitVec 5) (r : BitVec 1) (q : BitVec 1) (w : BitVec 1)
  /-- AMO_SWAP (R164): Atomic swap. -/
  | amoSwap (d : BitVec 5) (a : BitVec 5) (b : BitVec 5) (r : BitVec 1) (q : BitVec 1) (w : BitVec 1)
  /-- AMO_CAS (R164): Atomic compare-and-swap against g[d]. -/
  | amoCas (d : BitVec 5) (a : BitVec 5) (b : BitVec 5) (r : BitVec 1) (q : BitVec 1) (w : BitVec 1)
  /-- AMO_FADD (R164): Atomic FP32 add rounded to nearest even. -/
  | amoFadd (d : BitVec 5) (a : BitVec 5) (b : BitVec 5) (r : BitVec 1) (q : BitVec 1) (w : BitVec 1)
  /-- L2FL (R166): Writes back dirty data of a line or region on this die without invalidating. -/
  | l2fl (a : BitVec 5) (r : BitVec 1)
  /-- L2INV (R166): Writes back and then invalidates a line or region on this die. -/
  | l2inv (a : BitVec 5) (r : BitVec 1)
  /-- RGREL (R167): Moves a region's lines home and frees its region entry. -/
  | rgrel (a : BitVec 5)
  /-- HOME (R167): Hints a region's slice to the one nearest a named core. -/
  | home (a : BitVec 5) (b : BitVec 5)
  /-- FENCE (R304): Orders every earlier access before every later one at a scope. -/
  | fence (s : BitVec 3)
  /-- FENCE_ACKS (R305): Waits until every injected message-class packet is acknowledged, then acts as fence.sys. -/
  | fenceAcks
  /-- LDA (R304): Acquiring load at a scope. -/
  | lda (a : BitVec 5) (c : BitVec 5) (p : BitVec 3) (z : BitVec 3)
  /-- STL (R304): Releasing, cumulative store at a scope. -/
  | stl (a : BitVec 5) (b : BitVec 5) (p : BitVec 3) (z : BitVec 3)
  /-- WATCH (R297): Arms the task's watch on the 128-byte line holding g[a]. -/
  | watch (a : BitVec 5)
  /-- WATCH_OFF (R299): Disarms the task's watch. -/
  | watchOff
  /-- DOZE (R298): Parks the task until its watch is written, a phase completes, a message arrives or a timeout passes. -/
  | doze (a : BitVec 5) (c : BitVec 5) (m : BitVec 1) (g : BitVec 1) (t : BitVec 1)
  /-- DOZE_TIMEOUT (R298): The doze timeout count expires, waking the task with result 4 or raising 0x4E. -/
  | dozeTimeout (core : Nat)
  /-- GARR (R296): Releases and arrives at the group's current member phase, then runs the completion test. -/
  | garr (a : BitVec 5) (c : BitVec 5)
  /-- GWAIT (R296): Waits until phase t is complete, then acquires. -/
  | gwait (a : BitVec 5) (b : BitVec 5)
  /-- GQUERY (R296): Returns a snapshot of a group's state. -/
  | gquery (a : BitVec 5) (c : BitVec 5)
  /-- GWDOG (R296): Sets the group's watchdog limit and restarts its measurement. -/
  | gwdog (a : BitVec 5) (b : BitVec 5)
  /-- SEND (R249): Sends a message of k dwords under a send capability, waiting for allowance. -/
  | send (a : BitVec 5) (c : BitVec 4) (u : BitVec 1) (k : BitVec 4)
  /-- SEND_G (R249): Sends a message that also moves a capability entry as a grant. -/
  | sendG (a : BitVec 5) (b : BitVec 5) (c : BitVec 4) (u : BitVec 1) (k : BitVec 4)
  /-- SENDN (R249): Sends if allowance permits, otherwise returns 1 without sending. -/
  | sendn (a : BitVec 5) (b : BitVec 5) (c : BitVec 4) (u : BitVec 1) (k : BitVec 4)
  /-- SENDO (R249): Sends an ordered message carrying per-path counts. -/
  | sendo (a : BitVec 5) (c : BitVec 4) (u : BitVec 1) (k : BitVec 4)
  /-- SENDO_G (R249): Sends an ordered message with a capability grant. -/
  | sendoG (a : BitVec 5) (b : BitVec 5) (c : BitVec 4) (u : BitVec 1) (k : BitVec 4)
  /-- RECV (R250): Takes the oldest selected inbox entry, stores it, frees it and returns its credit. -/
  | recv (a : BitVec 5) (b : BitVec 5) (n : BitVec 1) (y : BitVec 1) (c : BitVec 3)
  /-- PEEK (R250): Returns the header of the selected inbox entry without removing it. -/
  | peek (b : BitVec 5) (y : BitVec 1) (c : BitVec 3)
  /-- CMASK (R251): Holds a message class from producing task records. -/
  | cmask (c : BitVec 3)
  /-- CUNMASK (R251): Releases a held class, letting its entries produce records in arrival order. -/
  | cunmask (c : BitVec 3)
  /-- PST (R252): Sends a posted store into a remote window, taking a journal entry. -/
  | pst (a : BitVec 5) (b : BitVec 5) (c : BitVec 4) (s : BitVec 3)
  /-- PST4 (R253): Sends a posted store of 1 to 16 nibbles into a remote window. -/
  | pst4 (a : BitVec 5) (b : BitVec 5) (c : BitVec 4) (n : BitVec 4)
  /-- CAPLD (R257): Copies a template entry into an empty capability entry. -/
  | capld (c : BitVec 4) (k : BitVec 4)
  /-- CAPLD_G (R257): Takes the pending grant into an empty capability entry. -/
  | capldG (c : BitVec 4)
  /-- CAPRS (R258): Derives a narrower entry from a source entry, moving allowance. -/
  | caprs (a : BitVec 5) (b : BitVec 4) (c : BitVec 4)
  /-- CAPRV (R259): Revokes an entry and its descendants, waiting for outstanding credits. -/
  | caprv (c : BitVec 4)
  /-- CAPMINT (R260): Writes a checked capability entry from two words. -/
  | capmint (a : BitVec 5) (b : BitVec 5) (c : BitVec 4)
  /-- CAPQ (R261): Reads one word of a capability entry. -/
  | capq (a : BitVec 5) (c : BitVec 4) (w : BitVec 1)
  /-- CPY (R264): Queues a copy of up to 2^24 - 1 bytes on the copy engine. -/
  | cpy (a : BitVec 5) (b : BitVec 5) (c : BitVec 5) (n : BitVec 1)
  /-- CPY2 (R264): Queues a strided row copy described by a descriptor. -/
  | cpy2 (a : BitVec 5) (n : BitVec 1)
  /-- CPUT (R265): Queues a copy into a remote window. -/
  | cput (a : BitVec 5) (b : BitVec 5) (c : BitVec 5) (o : BitVec 1) (n : BitVec 1) (k : BitVec 4)
  /-- CGET (R265): Queues a copy from a remote window into local memory. -/
  | cget (a : BitVec 5) (b : BitVec 5) (c : BitVec 5) (n : BitVec 1) (k : BitVec 4)
  /-- CBIND_IN (R266): Binds q4 to q7 to an inbound element stream. -/
  | cbindIn (a : BitVec 5) (b : BitVec 5) (q : BitVec 3)
  /-- CBIND_OUT (R266): Binds q4 to q7 to an outbound element stream. -/
  | cbindOut (a : BitVec 5) (b : BitVec 5) (q : BitVec 3)
  /-- CBIND_OFF (R266): Unbinds a stream, discarding unpopped input or waiting for output to be stored. -/
  | cbindOff (q : BitVec 3)
  /-- VADD (R193): Element-wise add. -/
  | vadd (d : BitVec 5) (a : BitVec 5) (b : BitVec 5) (m : BitVec 3) (e : BitVec 3)
  /-- VSUB (R193): Element-wise subtract. -/
  | vsub (d : BitVec 5) (a : BitVec 5) (b : BitVec 5) (m : BitVec 3) (e : BitVec 3)
  /-- VMUL (R193): Element-wise multiply. -/
  | vmul (d : BitVec 5) (a : BitVec 5) (b : BitVec 5) (m : BitVec 3) (e : BitVec 3)
  /-- VFMA (R193): Fused multiply-add into vd. -/
  | vfma (d : BitVec 5) (a : BitVec 5) (b : BitVec 5) (m : BitVec 3) (e : BitVec 3)
  /-- VFMS (R193): Fused z - x × y into vd. -/
  | vfms (d : BitVec 5) (a : BitVec 5) (b : BitVec 5) (m : BitVec 3) (e : BitVec 3)
  /-- VMIN (R193): Element-wise minimum. -/
  | vmin (d : BitVec 5) (a : BitVec 5) (b : BitVec 5) (m : BitVec 3) (e : BitVec 3)
  /-- VMAX (R193): Element-wise maximum. -/
  | vmax (d : BitVec 5) (a : BitVec 5) (b : BitVec 5) (m : BitVec 3) (e : BitVec 3)
  /-- VABS (R193): Element-wise absolute value. -/
  | vabs (d : BitVec 5) (a : BitVec 5) (m : BitVec 3) (e : BitVec 3)
  /-- VNEG (R193): Element-wise negation. -/
  | vneg (d : BitVec 5) (a : BitVec 5) (m : BitVec 3) (e : BitVec 3)
  /-- VDIV (R193): FP32 correctly rounded division. -/
  | vdiv (d : BitVec 5) (a : BitVec 5) (b : BitVec 5) (m : BitVec 3)
  /-- VSQRT (R193): FP32 square root. -/
  | vsqrt (d : BitVec 5) (a : BitVec 5) (m : BitVec 3)
  /-- VRSQ (R193): FP32 reciprocal square root. -/
  | vrsq (d : BitVec 5) (a : BitVec 5) (m : BitVec 3)
  /-- VEXP2 (R193): FP32 2^x. -/
  | vexp2 (d : BitVec 5) (a : BitVec 5) (m : BitVec 3)
  /-- VLOG2 (R193): FP32 log2 x. -/
  | vlog2 (d : BitVec 5) (a : BitVec 5) (m : BitVec 3)
  /-- VCMP_EQ (R195): Writes a mask of elements where x equals y. -/
  | vcmpEq (d : BitVec 3) (a : BitVec 5) (b : BitVec 5) (m : BitVec 3) (e : BitVec 3)
  /-- VCMP_NE (R195): Writes a mask of elements where x differs from y. -/
  | vcmpNe (d : BitVec 3) (a : BitVec 5) (b : BitVec 5) (m : BitVec 3) (e : BitVec 3)
  /-- VCMP_LT (R195): Writes a mask of elements where x < y. -/
  | vcmpLt (d : BitVec 3) (a : BitVec 5) (b : BitVec 5) (m : BitVec 3) (e : BitVec 3)
  /-- VCMP_LE (R195): Writes a mask of elements where x <= y. -/
  | vcmpLe (d : BitVec 3) (a : BitVec 5) (b : BitVec 5) (m : BitVec 3) (e : BitVec 3)
  /-- VSEL (R195): Selects each element from va or vb by a mask. -/
  | vsel (d : BitVec 5) (a : BitVec 5) (b : BitVec 5) (m : BitVec 3) (e : BitVec 3)
  /-- VAND (R192): Element-wise bitwise AND. -/
  | vand (d : BitVec 5) (a : BitVec 5) (b : BitVec 5) (m : BitVec 3) (e : BitVec 3)
  /-- VOR (R192): Element-wise bitwise OR. -/
  | vor (d : BitVec 5) (a : BitVec 5) (b : BitVec 5) (m : BitVec 3) (e : BitVec 3)
  /-- VXOR (R192): Element-wise bitwise XOR. -/
  | vxor (d : BitVec 5) (a : BitVec 5) (b : BitVec 5) (m : BitVec 3) (e : BitVec 3)
  /-- VSHL (R194): Element-wise left shift by vb mod w. -/
  | vshl (d : BitVec 5) (a : BitVec 5) (b : BitVec 5) (m : BitVec 3) (e : BitVec 3)
  /-- VSHR (R194): Element-wise logical right shift by vb mod w. -/
  | vshr (d : BitVec 5) (a : BitVec 5) (b : BitVec 5) (m : BitVec 3) (e : BitVec 3)
  /-- VPERM (R196): Permutes elements of va by indexes in vb. -/
  | vperm (d : BitVec 5) (a : BitVec 5) (b : BitVec 5) (m : BitVec 3) (e : BitVec 3)
  /-- VBCAST (R196): Broadcasts the low bits of g[a] into active elements. -/
  | vbcast (d : BitVec 5) (a : BitVec 5) (m : BitVec 3) (e : BitVec 3)
  /-- VMOV (R196): Copies active elements with their poison. -/
  | vmov (d : BitVec 5) (a : BitVec 5) (m : BitVec 3) (e : BitVec 3)
  /-- VMOV_TO_G (R196): Waits and moves element k of va into a general register. -/
  | vmovToG (d : BitVec 5) (a : BitVec 5) (k : BitVec 5) (e : BitVec 3)
  /-- VLD (R198): Queues a contiguous vector load. -/
  | vld (d : BitVec 5) (a : BitVec 5) (b : BitVec 5) (m : BitVec 3) (n : BitVec 1) (e : BitVec 3)
  /-- VST (R198): Queues a contiguous vector store. -/
  | vst (d : BitVec 5) (a : BitVec 5) (b : BitVec 5) (m : BitVec 3) (n : BitVec 1) (e : BitVec 3)
  /-- VLDS (R198): Queues a strided vector load. -/
  | vlds (d : BitVec 5) (a : BitVec 5) (b : BitVec 5) (m : BitVec 3) (n : BitVec 1) (e : BitVec 3)
  /-- VGAT (R198): Queues a gather load with vector offsets. -/
  | vgat (d : BitVec 5) (a : BitVec 5) (b : BitVec 5) (m : BitVec 3) (n : BitVec 1) (e : BitVec 3)
  /-- VSCA (R198): Queues a scatter store with vector offsets. -/
  | vsca (d : BitVec 5) (a : BitVec 5) (b : BitVec 5) (m : BitVec 3) (n : BitVec 1) (e : BitVec 3)
  /-- VCVT (R200): Converts elements to the destination format with part selection. -/
  | vcvt (d : BitVec 5) (a : BitVec 5) (p : BitVec 3) (m : BitVec 3) (t : BitVec 5) (e : BitVec 3)
  /-- VCVT_FROM_FP4 (R200): Converts FP4 elements to the el format. -/
  | vcvtFromFp4 (d : BitVec 5) (a : BitVec 5) (p : BitVec 3) (m : BitVec 3) (e : BitVec 3)
  /-- VQUANT_FP4 (R201): Quantises 32 FP32 values into FP4 blocks with block scales. -/
  | vquantFp4 (d : BitVec 5) (a : BitVec 5) (b : BitVec 5) (q : BitVec 5)
  /-- VQUANT_INT4X (R201): Quantises 32 FP32 values into one INT4X block with outliers. -/
  | vquantInt4x (d : BitVec 5) (a : BitVec 5) (b : BitVec 5)
  /-- VDEQ_FP4 (R202): Decodes an FP4 block image into FP32 or BF16 elements. -/
  | vdeqFp4 (d : BitVec 5) (a : BitVec 5) (h : BitVec 1) (m : BitVec 3) (q : BitVec 5) (e : BitVec 3)
  /-- VDEQ_INT4X (R202): Decodes an INT4X block image into FP32 or BF16 elements. -/
  | vdeqInt4x (d : BitVec 5) (a : BitVec 5) (h : BitVec 1) (m : BitVec 3) (e : BitVec 3)
  /-- VRED_SUM (R204): Sums elements in a fixed pairwise tree into element 0. -/
  | vredSum (d : BitVec 5) (a : BitVec 5) (m : BitVec 3) (e : BitVec 3)
  /-- VRED_MAX (R204): Maximum over elements into element 0. -/
  | vredMax (d : BitVec 5) (a : BitVec 5) (m : BitVec 3) (e : BitVec 3)
  /-- VRED_MIN (R204): Minimum over elements into element 0. -/
  | vredMin (d : BitVec 5) (a : BitVec 5) (m : BitVec 3) (e : BitVec 3)
  /-- VTOPK (R205): Writes the k greatest elements and their indexes into a register pair. -/
  | vtopk (d : BitVec 4) (a : BitVec 5) (k : BitVec 4) (m : BitVec 3) (e : BitVec 3)
  /-- VARGMAX (R205): Waits and writes the index of the greatest active element to g[d]. -/
  | vargmax (d : BitVec 5) (a : BitVec 5) (m : BitVec 3) (e : BitVec 3)
  /-- VOPT (R207): Queues a fused optimizer update over groups of 16 elements from a descriptor. -/
  | vopt (a : BitVec 5)
  /-- VECTOR_COMMAND_PERFORM (R187): The vector engine performs its next accepted command in acceptance order. -/
  | vectorCommandPerform (core : Nat)
  /-- ENGINE_COMPLETION_DELIVERY (R188): A completion message waiting in an engine enters the issuing core's inbox in class 7 once there is room. -/
  | engineCompletionDelivery (core : Nat)
  /-- MCTX (R222): Checks and queues a new format context. -/
  | mctx (a : BitVec 5) (b : BitVec 5)
  /-- MFETCH (R223): Checks, translates and queues a tile fetch into one of the core's operand slots. -/
  | mfetch (a : BitVec 5) (b : BitVec 5) (c : BitVec 5) (o : BitVec 1) (r : BitVec 1) (s : BitVec 4)
  /-- MMA (R225): Queues a tile multiply-accumulate from two named slots into an accumulator tile. -/
  | mma (p : BitVec 7) (q : BitVec 7) (n : BitVec 1) (r : BitVec 1) (l : BitVec 1)
  /-- MZERO (R226): Queues setting a tile to the mzero state. -/
  | mzero (t : BitVec 1)
  /-- MRD (R227): Queues a readout of a tile to memory in FP32, BF16 or raw form. -/
  | mrd (a : BitVec 5) (b : BitVec 5) (t : BitVec 1) (z : BitVec 1) (f : BitVec 2)
  /-- MWR (R227): Queues loading a tile from a raw image. -/
  | mwr (a : BitVec 5) (t : BitVec 1)
  /-- MREL (R228): Drops the pins of one own slot and empties it. -/
  | mrel (i : BitVec 4)
  /-- MREL_ALL (R228): Drops the pins of all 16 own slots and empties them. -/
  | mrelAll
  /-- MSTAT (R228): Waits for earlier MAT commands to retire and returns tile and slot status. -/
  | mstat (a : BitVec 5)
  /-- ARRAY_GRANT (R212): The array arbiter grants one ready mma, mzero, mrd or mwr round-robin among cores. -/
  | arrayGrant (cove : Nat)
  /-- TILE_FETCH_GRANT (R223): The tile fetch arbiter grants an mfetch, which reads and pins its lines into the slot. -/
  | tileFetchGrant (cove : Nat)
  /-- MAT_RETIRE (R225): A matrix command retires in acceptance order, raising its lowest enabled cause. -/
  | matRetire (core : Nat)
  /-- XDEF (R346): Defines an expert name from a descriptor, or undefines it. -/
  | xdef (a : BitVec 5) (b : BitVec 5) (c : BitVec 5)
  /-- XSEND (R347): Releases and sends one token to the name's selector. -/
  | xsend (a : BitVec 5) (b : BitVec 5) (p : BitVec 1) (bk : BitVec 1)
  /-- XREP (R348): Creates one replica of a name from the pool. -/
  | xrep (a : BitVec 5) (c : BitVec 5)
  /-- XRET (R349): Retires a replica index, making a LIVE one DRAINING. -/
  | xret (a : BitVec 5) (b : BitVec 5) (c : BitVec 5)
  /-- XOWN (R350): Moves the owner mark to a LIVE index with a new vopt descriptor. -/
  | xown (a : BitVec 5) (b : BitVec 5) (c : BitVec 5) (q : BitVec 3)
  /-- XJOIN (R351): Releases and hands one slice's partial gradient to the join. -/
  | xjoin (a : BitVec 5) (b : BitVec 5) (n : BitVec 1) (p : BitVec 1)
  /-- XUPD (R352): Advances the name's version and starts update copies to LIVE replicas. -/
  | xupd (a : BitVec 5) (b : BitVec 5) (c : BitVec 5)
  /-- XCNT (R353): Snapshots and clears the routing counters of a range of names. -/
  | xcnt (a : BitVec 5) (b : BitVec 5)
  /-- XQ (R354): Reads replica or name state from the mirror. -/
  | xq (a : BitVec 5) (c : BitVec 5) (k : BitVec 4)
  /-- SELECTOR_TOKEN (R332): The selector pins or looks up the token's slice and forwards it to a replica. -/
  | selectorToken (die : Nat)
  /-- SELECTOR_TOKEN_RELEASE (R332): A held token is forwarded once its replica has room and the right version. -/
  | selectorTokenRelease (name : Nat) (replica : Nat)
  /-- SELECTOR_STEP_CLOSE (R331): A close request clears the old pin bank, sends close messages, fixes the slice set and advances the step. -/
  | selectorStepClose (name : Nat)
  /-- REPLICA_FILL_COMPLETE (R336): A fill copy finishes; the replica goes LIVE or the fill repeats. -/
  | replicaFillComplete (name : Nat)
  /-- JOIN_ENTRY_ARRIVAL (R351): The selector accepts or refuses a join entry and holds it in the join buffer or spill area. -/
  | joinEntryArrival (die : Nat)
  /-- JOIN_ADD (R339): The join adds the next slice's partial in ascending slice order and sends kind 1 when done. -/
  | joinAdd (name : Nat)
  /-- UPDATE_COPY_COMPLETE (R341): An update copy to a replica finishes and its version is set to v + 1. -/
  | updateCopyComplete (name : Nat) (replica : Nat)
  /-- REPLICA_GONE (R338): A DRAINING replica whose tokens and slices are all done becomes GONE. -/
  | replicaGone (name : Nat) (replica : Nat)
  /-- EXPERT_WALK_RETRY (R448): Every 100 µs the expert unit walks again for a held faulting access. -/
  | expertWalkRetry (name : Nat)
  /-- GPUSH (R361): Checks and appends a gate entry to a die's gate queue, waiting while it is full. -/
  | gpush (a : BitVec 5) (b : BitVec 5)
  /-- GPOP (R362): Takes the oldest gate queue entry and acquires. -/
  | gpop (a : BitVec 5) (c : BitVec 5) (w : BitVec 1)
  /-- REMIT (R364): Builds a routing record from a gate entry, confirming or squashing tentative routes. -/
  | remit (a : BitVec 5) (c : BitVec 5)
  /-- RSORT (R368): Queues a sort of routing records into a dispatch list and return map. -/
  | rsort (a : BitVec 5)
  /-- RMAP (R369): Queues a row gather through a return map or dispatch list. -/
  | rmap (a : BitVec 5) (d : BitVec 1)
  /-- RCLOSE (R370): Sends step-close requests for a name range, optionally clearing the routing records. -/
  | rclose (a : BitVec 5) (u : BitVec 1)
  /-- SORT_ENGINE_PERFORM (R367): The sort engine performs its next rsort or rmap command and sends a completion. -/
  | sortEnginePerform (die : Nat)
  /-- RPUT (R393): Checks and hands a gradient bucket contribution to the die's reduce engine. -/
  | rput (a : BitVec 5) (n : BitVec 1)
  /-- RCFG (R394): Writes or clears a ring entry. -/
  | rcfg (a : BitVec 5) (c : BitVec 5) (r : BitVec 4)
  /-- RSTAT (R395): Reports the state of one bucket on this die. -/
  | rstat (a : BitVec 5) (c : BitVec 5) (r : BitVec 4)
  /-- RSTAT_SUM (R395): Reports the number of buckets held on the die. -/
  | rstatSum (c : BitVec 5)
  /-- RPUT_ARRIVAL (R390): The engine finishes reading an rput's source and residual, thins it and takes or holds the contribution. -/
  | rputArrival (die : Nat)
  /-- REDUCE_CHUNK_ARRIVAL (R385): An incoming partial chunk is added to the position's contribution, rescaled if needed and sent on. -/
  | reduceChunkArrival (die : Nat)
  /-- REDUCE_DEADLINE (R390): A bucket's deadline passes, taking the backup or reporting a missing contribution. -/
  | reduceDeadline (die : Nat) (bucket : Nat)
  /-- TRAP (R410): Raises software trap cause 0x07. -/
  | trap (k : BitVec 6)
  /-- SYS (R410): Raises supervisor call cause 0x08. -/
  | sys (k : BitVec 6)
  /-- BRK (R410): Raises breakpoint cause 0x06. -/
  | brk (k : BitVec 6)
  /-- RDSR (R411): Reads a system register into g[a]. -/
  | rdsr (a : BitVec 5) (n : BitVec 16)
  /-- WRSR (R411): Writes a system register from g[a]. -/
  | wrsr (a : BitVec 5) (n : BitVec 16)
  /-- REGISTER_WRITE (R4): A write to a register without behaviour of its own sets its RW fields and clears W1C bits. -/
  | registerWrite (management : Bool) (core : Nat) (number : Nat) (value : BitVec 64)
  /-- STORE_BUFFER_DRAIN (R110): The oldest store-buffer entry leaves, writing the scratchpad or being accepted by L2. -/
  | storeBufferDrain (core : Nat)
  /-- BLOCK_PLACEMENT (R79): The die's scheduler places the next eligible block on a cove and puts root task records in its cores' run queues. -/
  | blockPlacement (die : Nat)
  /-- BLOCK_END (R80): A block whose cores hold no work ends, its cores leave their groups and the launch status may become 3. -/
  | blockEnd (block : Nat)
  /-- TASK_START (R86): A free bank starts the first available work: a cleared parked task, a run queue record, a deque entry or a steal. -/
  | taskStart (core : Nat)
  /-- URGENT_PREEMPT (R87): An urgent start stops the normal task at a boundary and begins in bank 1 four cycles later. -/
  | urgentPreempt (core : Nat)
  /-- URGENT_HOLD_EXPIRY (R87): 8,192 cycles after urgent starts were held back, the streak count returns to zero. -/
  | urgentHoldExpiry (core : Nat)
  /-- LEE_WINDOW_EXPIRY (R89): A sheltered window closes after n instructions or 512 cycles. -/
  | leeWindowExpiry (core : Nat)
  /-- ACTOR_FIRE (R99): An actor whose inputs, allowances and queue room suffice fires, putting a record in the run queue. -/
  | actorFire (core : Nat)
  /-- SLACK_WATER_PARK (R73): A spin counter reaching 64 parks the task on a watch and raises 0x4F. -/
  | slackWaterPark (core : Nat)
  /-- SHIP_CONTEXT_ARRIVAL (R132): A shipped task context enters the landing core's run queue, waiting while it is full. -/
  | shipContextArrival (core : Nat)
  /-- EBB (R139): A block meeting an ebb trigger is stopped and saved to an ebb frame, freeing its cores. -/
  | ebb (block : Nat)
  /-- FLOOD (R142): An eligible ebbed block is restored onto a cove before any task issues. -/
  | flood (block : Nat)
  /-- DIR_RDS (R155): The home directory handles a shared read request. -/
  | dirRds (die : Nat) (line : Nat)
  /-- DIR_RDX (R155): The home directory handles an exclusive read or upgrade request. -/
  | dirRdx (die : Nat) (line : Nat) (upgrade : Bool)
  /-- DIR_WB (R155): The home directory takes a writeback and writes HBM. -/
  | dirWb (die : Nat) (line : Nat)
  /-- DIR_CE (R155): The home directory takes a clean evict. -/
  | dirCe (die : Nat) (line : Nat)
  /-- DIR_INVACK (R155): An InvAck arrives; when all have come the pending exclusive grant is sent. -/
  | dirInvack (die : Nat) (line : Nat)
  /-- DIR_OWNER_REPLY (R156): An owner's data, Ack or Gone completes a pending forward or recall. -/
  | dirOwnerReply (die : Nat) (line : Nat)
  /-- OWNER_FWDS (R155): An owner answers a FwdS by sending data and going S. -/
  | ownerFwds (die : Nat) (line : Nat)
  /-- OWNER_FWDX (R155): An owner answers a FwdX by sending data and going I. -/
  | ownerFwdx (die : Nat) (line : Nat)
  /-- OWNER_RECALL (R155): An owner answers a recall with WB or Ack and goes I. -/
  | ownerRecall (die : Nat) (line : Nat)
  /-- INV (R155): A die receiving Inv invalidates the line and replies InvAck. -/
  | inv (die : Nat) (line : Nat)
  /-- RECALL_SLOW (R157): A recall exceeding 20,000 ns advances the slow count and reports 0x1D once. -/
  | recallSlow (line : Nat)
  /-- HOST_MEM_REQUEST (R154): A host CXL.mem request to device HBM is handled as coherence agent 4. -/
  | hostMemRequest (line : Nat) (exclusive : Bool)
  /-- COPY_COMMAND_PERFORM (R262): The copy engine performs its next command, writing sectors in ascending order. -/
  | copyCommandPerform (core : Nat)
  /-- STREAM_ELEMENT (R266): The copy engine loads or stores one element of a bound stream. -/
  | streamElement (core : Nat) (queue : Nat)
  /-- MESSAGE_ARRIVAL (R244): A message enters the inbox and produces a handler task record, feeds an actor or waits for recv. -/
  | messageArrival (die : Nat) (index : Nat)
  /-- BOUNCE (R246): A packet for an endpoint with no live block returns to its sender as a class 7 bounce. -/
  | bounce (die : Nat) (index : Nat)
  /-- CREDIT_ARRIVAL (R241): A credit decrements the used field of the sender's capability entry. -/
  | creditArrival (die : Nat) (index : Nat)
  /-- POSTED_STORE_ARRIVAL (R252): A posted store is written into the target scratchpad or refused, and acknowledged. -/
  | postedStoreArrival (die : Nat) (index : Nat)
  /-- NIBBLE_STORE_ARRIVAL (R253): A nibble store is applied as an indivisible read-modify-write of one word. -/
  | nibbleStoreArrival (die : Nat) (index : Nat)
  /-- CGET_REQUEST (R265): The target scratchpad port serves a cget request and returns the data. -/
  | cgetRequest (die : Nat) (index : Nat)
  /-- JOURNAL_ACK (R254): An acknowledgement frees its journal entry. -/
  | journalAck (die : Nat) (index : Nat)
  /-- JOURNAL_REFUSAL (R254): A refusal keeps the journal entry and raises 0x24 or 0x25 against the issuer. -/
  | journalRefusal (die : Nat) (index : Nat)
  /-- ACK_TIMEOUT (R254): A journal entry unacknowledged for sr.acktmo reports 0x2B once. -/
  | ackTimeout (core : Nat) (index : Nat)
  /-- SPILL_RETRY (R274): A refused packet is offered again when a spill store entry frees. -/
  | spillRetry (die : Nat) (stop : Nat)
  /-- LINLOS_ARRIVAL (R277): A stamped packet arriving at a die is delivered, pooled, held or discarded by epoch. -/
  | linlosArrival (source : Nat) (die : Nat)
  /-- FLIT_CRC_FAIL (R275): A flit failing its CRC is replayed from the retry buffer. -/
  | flitCrcFail (link : Nat)
  /-- LINK_RETRAIN (R275): After 16 failed replays of one flit the link retrains and reports 0x48. -/
  | linkRetrain (link : Nat)
  /-- TIDE_POOL_HOLD_EXPIRY (R281): A packet pooled longer than sr.tpage reports 0x41 once. -/
  | tidePoolHoldExpiry (die : Nat) (packet : Nat)
  /-- LNKCTL_FENCE (R282): Setting or clearing a fence bit stops or restores a die's message-class traffic. -/
  | lnkctlFence (mask : BitVec 4)
  /-- LNKCTL_QUIESCE (R283): Holds the message class of the selected partition at its sources. -/
  | lnkctlQuiesce (part : Nat) (value : Bool)
  /-- LNKCTL_DRAIN (R283): Delivers what is deliverable and discards the partition's pooled or held packets as bounces. -/
  | lnkctlDrain (part : Nat)
  /-- LNKCTL_CLEAR (R283): Zeroes the partition's causal counters on every die. -/
  | lnkctlClear (part : Nat)
  /-- LNKCTL_EPADV (R283): Advances the partition's epoch on every die. -/
  | lnkctlEpadv (part : Nat)
  /-- TIME_SYNC_LOSS (R284): A die out of time agreement sets its tsl bit and reports 0x49. -/
  | timeSyncLoss (die : Nat)
  /-- TIDE_TRANSIT (R286): A transit device forwards a packet on path k of its route entry or bounces it. -/
  | tideTransit (port : Nat)
  /-- PATH_DOWN (R287): A tide path goes down and reports 0x46 once. -/
  | pathDown (peer : Nat) (path : Nat)
  /-- PEER_DOWN (R287): A peer device is declared down; held packets bounce or become kept entries. -/
  | peerDown (peer : Nat)
  /-- PEER_UP (R287): A peer acknowledges again and both devices zero their per-path counts. -/
  | peerUp (peer : Nat)
  /-- ORDERED_FLAG_ARRIVAL (R288): An ordered packet arrives and is held until the per-path got counts reach its counts. -/
  | orderedFlagArrival (die : Nat) (index : Nat)
  /-- ORDERED_FLAG_RELEASE (R288): A held ordered packet whose counts are met is performed. -/
  | orderedFlagRelease (die : Nat)
  /-- GOWN_WRITE (R290): Giving or taking a group resets it and frees its members' slots. -/
  | gownWrite (part : Nat) (index : Nat) (value : BitVec 64)
  /-- GJOIN_JOIN (R291): Adds a core to a group at the current phase. -/
  | gjoinJoin (group : Nat) (core : Nat)
  /-- GJOIN_LEAVE (R291): Removes a core from a group and re-tests phase completion. -/
  | gjoinLeave (group : Nat) (core : Nat)
  /-- GROUP_WATCHDOG_EXPIRY (R293): A phase incomplete beyond the watchdog limit raises 0x4B against waiters or reports it. -/
  | groupWatchdogExpiry (group : Nat)
  /-- GATE_APPEND (R361): A gate entry packet is appended to the gate queue once it has room. -/
  | gateAppend (die : Nat)
  /-- TRAP_ACTION (R402): The scheduler builds a trap record and applies the partition's action entry for the cause. -/
  | trapAction (core : Nat) (bank : Nat)
  /-- TRAP_RECORD_DELIVERY (R405): A waiting trap record is delivered to the supervisor inbox or forward target when room allows. -/
  | trapRecordDelivery (die : Nat)
  /-- TSEL_WRITE (R406): Selects a task by core and place, raising 0x29 for a core outside the partition. -/
  | tselWrite (core : Nat) (value : BitVec 64)
  /-- TCTL_RESUME (R406): Clears the pending cause and resumes the selected task. -/
  | tctlResume (core : Nat)
  /-- TCTL_SKIP (R406): Advances the saved PC past the faulting instruction and resumes. -/
  | tctlSkip (core : Nat)
  /-- TCTL_KILL (R406): Kills the selected task under R403. -/
  | tctlKill (core : Nat)
  /-- TCTL_HALT (R406): Stops the selected task at its next boundary and parks it halted. -/
  | tctlHalt (core : Nat)
  /-- TCTL_STEP (R406): Resumes the task for one instruction, then raises 0x0D. -/
  | tctlStep (core : Nat)
  /-- TCTL_ICACHE (R406): Empties the instruction cache of the selected core. -/
  | tctlIcache (core : Nat)
  /-- CORE_WATCHDOG (R408): A task running beyond lim × 1,024 cycles raises 0x5E. -/
  | coreWatchdog (core : Nat)
  /-- PMAP_WRITE (R413): Moves coves to or from a partition, emptying TLBs and releasing region entries of moved coves. -/
  | pmapWrite (part : Nat) (die : Nat) (value : BitVec 64)
  /-- PASID_WRITE (R413): Sets a partition's ASID range unless it overlaps another. -/
  | pasidWrite (part : Nat) (value : BitVec 64)
  /-- RCORE_RUN (R358): Starts the routing core's root task and fills its capability table from a template. -/
  | rcoreRun (die : Nat)
  /-- GANG_SWITCH (R416): At sr.switch_at every core of the partition stops, the gang is saved and another is loaded. -/
  | gangSwitch (part : Nat)
  /-- GANG_SWITCH_OVERRUN (R416): A partition not stopped by T + sr.swlim sets ovr and reports 0x5D. -/
  | gangSwitchOverrun (part : Nat)
  /-- DEVICE_RESET (R426): PERST# or CXL Reset resets the whole device and restarts the boot ROM. -/
  | deviceReset
  /-- HOST_RESET (R161): A hot reset drops host-space translations and clean lines and discards dirty host lines. -/
  | hostReset
  /-- HOST_LINK_LOSS (R161): Link loss removes host-space translations, invalidates clean host lines and completes host tickets with 0x27. -/
  | hostLinkLoss
  /-- PRG_RESPONSE (R135): The host's page request response reaches the walk firmware as a message. -/
  | prgResponse (cove : Nat) (ticket : Nat) (success : Bool)
  /-- FIRMWARE_GO (R430): Starts loading, verifying and starting the firmware image. -/
  | firmwareGo
  /-- ATTEST_GO (R432): Asks for an attestation report over the written nonce. -/
  | attestGo
  /-- ATTEST_REPORT_READY (R432): The signed report is written and ast becomes 2. -/
  | attestReportReady
  /-- LAUNCH_WINDOW_WRITE (R428): A 64-byte host write enters a launch record into a queue or is discarded and counted. -/
  | launchWindowWrite (offset : Nat) (size : Nat) (record : BitVec 512)
  /-- HOUR_BOUNDARY (R427): At each hour of global time the per-hour error counts return to zero. -/
  | hourBoundary
  /-- MEMORY_ERROR (R433): An ECC or parity error is corrected and counted, or marks its sector poisoned. -/
  | memoryError (kind : Nat) (place : Nat) (address : Nat) (correctable : Bool)
  /-- THROTTLE_START (R436): Power above cap or temperature at the limit starts throttling of matrix grants. -/
  | throttleStart
  /-- THROTTLE_END (R436): After the condition has been clear for 1 ms throttling ends. -/
  | throttleEnd
  /-- HOST_LINK_RETURN (R161): The host link comes back without a host reset, and the dirty host-space lines kept in L2 are written back. -/
  | hostLinkReturn
  /-- PATH_UP (R287): A tide path whose egress port trains and whose next hop acknowledges again becomes up and is once more a candidate for adaptive path choice. -/
  | pathUp (peer : Nat) (path : Nat)
  /-- CXL_CACHE_INVALIDATION (R297): A host snoop or write over CXL.cache invalidates a host-space line held in a die's L2, which sets the written bit of any watch on it. -/
  | cxlCacheInvalidation (line : Nat) (shared : Bool)
  /-- BRING_UP_COMPLETE (R430): Image loading, signature verification and die training finish, and the boot state reaches 4 (running) or 5 (recovery), with MSI-X vector 1 signalled. -/
  | bringUpComplete (why : Nat)
  deriving DecidableEq, Repr

end Sys2Proof
end

