-- ==== Sys2Proof/Machine/State.lean ====
section
/-! DEFINITION. The state of one Numond Q4 package: four dies, their cores, engines, units, fabric and memory, as plain
data. Every field names the rule of spec/ that gives it, or says that it is the model's own. The tables `Tab` are sparse:
an unlisted key holds the reset value of its entry. -/

namespace Sys2Proof.Machine

/-- The kinds of a cause (R399): precise, after the instruction, asynchronous, report only. -/
inductive Kind where
  | p | n | a | r
  deriving DecidableEq, Repr

/-- A cause raised or pending (R400), with what its trap record says of it (R404), and the ticket its park waits on (R130). `sub` is
the underlying cause; of 0x50 it holds the slot of the mfetch above it, as sr.mflt does (R224). `line` is the line that a slack-water
park watches (R73); `cleared` says that what the cause waits for came while its record still waited for room (R405). -/
structure Cause where
  code : Nat
  kind : Kind
  addr : Word := 0
  sub : Nat := 0
  detail : Word := 0
  jix : Option Nat := none
  aSeq : Bool := false
  ticket : Option Nat := none
  line : Option (Bool × Nat) := none
  cleared : Bool := false
  deriving DecidableEq, Repr

/-- A task record (R81). -/
structure TaskRecord where
  entry : Word := 0
  urg : Bool := false
  src : Nat := 0
  jhome : Nat := 0
  crew : Nat := 0
  argc : Nat := 0
  ctab : BitVec 10 := 0
  args : List Word := []
  deriving DecidableEq, Repr

/-- The context that a shipped task carries (R132), with the asynchronous causes that it has not taken yet. -/
structure Shipped where
  tid : Nat
  pc : Word
  g : Vector Word 32
  lc : Word
  ls : Word
  le : Word
  pending : List Cause := []
  deriving DecidableEq, Repr

/-- A record in a run queue or deque, with what its start brings along: payload dwords 6 and 7 of a message and its
inbox entry (R244), an actor's entry (R99), a shipped context (R132), a pilot's walk slot (R83). -/
structure Job where
  record : TaskRecord
  more : List Word := []
  message : Option Nat := none
  actor : Option (Nat × List Nat) := none
  shipped : Option Shipped := none
  walk : Option Nat := none
  deriving DecidableEq, Repr

/-- The frame state of a bank (R72), with the captured words of its body. -/
structure Frame where
  act : Bool := false
  base : Word := 0
  idx : Nat := 0
  len : Nat := 0
  stg : Nat := 0
  rot : Nat := 0
  k : Nat := 0
  left : Word := 0
  body : List (BitVec 32) := []
  recheck : Bool := false
  deriving DecidableEq, Repr

/-- The A sequencer of a task (R54). -/
structure ASeq where
  active : Bool := false
  pc : Word := 0
  via : Option Word := none
  g : Vector Word 32 := Vector.replicate 32 0
  lc : Word := 0
  ls : Word := 0
  le : Word := 0
  lcNext : Option Word := none
  deriving DecidableEq, Repr

/-- The binding of one of q4 to q7 to a stream (R266). -/
structure Stream where
  inward : Bool
  base : Word
  stride : Nat
  count : Nat
  pos : Nat := 0
  queue : List Word := []
  handed : Nat := 0
  closing : Bool := false
  fault : Bool := false
  deriving DecidableEq, Repr

/-- A task's watch (R297): the 128-byte line of L2 (by physical line number) or of the core's own scratchpad. -/
structure Watch where
  isLocal : Bool
  line : Nat
  nc : Bool := false
  written : Bool := false
  deriving DecidableEq, Repr

/-- The spin detector of a task (R73): the tracked branch, the count, what the running iteration has done, and what the
previous one left. -/
structure Spin where
  branch : Option Word := none
  count : Nat := 0
  allowed : Bool := true
  lastLoad : Option (Word × Word) := none
  line : Option (Bool × Nat) := none
  prevLoad : Option (Word × Word) := none
  prevRegs : Option (Vector Word 32) := none
  deriving DecidableEq, Repr

/-- What a bank holds (R84): nothing, a running, pre-empted or held task, or one that waits at its boundary for room for
its trap record (R405). -/
inductive BankStatus where
  | empty | running | preempted | held | waitsRecord
  deriving DecidableEq, Repr

/-- Why a task is parked (R85): a cause of the action table, a regeneration ticket (R130), doze, a full deque, yield, a
halt by the supervisor. -/
inductive ParkWhy where
  | cause (code : Nat) (kind : Kind)
  | regeneration
  | doze
  | deque
  | yield
  | halt
  deriving DecidableEq, Repr

/-- One reason a task is parked for, with its ticket (cove, number), the sequencer that met it, the line whose store clears it
(R74), whether it has cleared, and in which turn (R86, R136); since when the task has waited for it (R138). -/
structure ParkCause where
  why : ParkWhy
  addr : Word := 0
  sub : Nat := 0
  ticket : Option Nat := none
  aSeq : Bool := false
  line : Option (Bool × Nat) := none
  cleared : Bool := false
  clearedAt : Nat := 0
  since : Nat := 0
  deriving DecidableEq, Repr

/-- What a doze waits for beside its watch (R298): a phase of a group, a message, the end of its count from its issue on; whether that
raises 0x4E; the register of its result, and the result once it has one. -/
structure Doze where
  group : Bool := false
  message : Bool := false
  trap : Bool := false
  dest : Nat := 0
  limit : Word := 0
  since : Nat := 0
  result : Option Nat := none
  deriving DecidableEq, Repr

/-- A task in a bank, or in a park slot: everything of it that another task could change (R85). `raising` holds the causes whose
records wait for room, one of each sequencer (R405, R136); `heldFor` what a held task will be parked for (R84); `joined` the open
tickets that a replayed access waits on (R136); `shipTo` the landing core that a walk has answered, with the address walked and the
one to record, while the store buffer drains (R132); `shipNoted` the accesses of the instruction that sr.pgstat has counted
(R148), `loadNoted` the loads of the instruction of E or of A that sr.lstat has counted (R120). `begun` and, for A, `begunA` are not 0 once
an instruction that waits has been issued: an ebb, a gang switch or a pre-emption comes after it (R121, R165, R169); it is 2 once an l2inv has given up its lines (R166). What waits for an answer once
it has been sent has 3 or more there, and nothing comes after it: 3 a request at a selector (R345), 4 an xupd whose copies run
(R341), 5 and the number of the next command an rclose whose requests have been accepted (R370). `halting`
says that the supervisor's halt takes it at its next boundary, `wide` that a FRAME stood at its PC when it parked (R406). -/
structure Task where
  status : BankStatus := .empty
  tid : Nat := 0
  job : Job := { record := {} }
  slice : Nat := 0
  priv : Bool := false
  pc : Word := 0
  via : Option Word := none
  g : Vector Word 32 := Vector.replicate 32 0
  lc : Word := 0
  ls : Word := 0
  le : Word := 0
  lcNext : Option Word := none
  frame : Frame := {}
  a : ASeq := {}
  q : Vector (List Word) 4 := Vector.replicate 4 []
  bq : List Bool := []
  streams : Tab Stream := []
  lee : Nat := 0
  watch : Option Watch := none
  grant : Option (Word × Word) := none
  mhead : Word := 0
  spin : Spin := {}
  stepping : Bool := false
  pending : List Cause := []
  forked : Bool := false
  doze : Option Doze := none
  raising : List Cause := []
  heldFor : List ParkCause := []
  joined : List ParkCause := []
  shipTo : Option (Nat × Word × Word) := none
  shipNoted : List Word := []
  loadNoted : List (Bool × Nat) := []
  begun : Nat := 0
  begunA : Nat := 0
  halting : Bool := false
  wide : Bool := false
  sendWait : Option (Word × List Nat × Bool) := none
  gwait : Option (Word × Nat × Nat) := none
  deriving DecidableEq, Repr

/-- The vector and mask registers of a core. -/
structure Vectors where
  v : Vector (BitVec 512) 32
  vPoison : Vector (BitVec 16) 32
  m : Vector Word 8
  deriving DecidableEq, Repr

/-- A park slot (R85): the task, its vector and mask registers, its causes, its place in the order of parking, when it parked, and how many ready records a task that yielded stands behind (R97). -/
structure Parked where
  task : Task
  v : Vector (BitVec 512) 32
  vPoison : Vector (BitVec 16) 32
  m : Vector Word 8
  causes : List ParkCause
  order : Nat := 0
  since : Nat := 0
  debug : Bool := false
  behindRun : Nat := 0
  behindDeque : Nat := 0
  deriving DecidableEq, Repr

/-- An inbox entry (R243): claimed by a handler record or an actor firing (R244, R99), the handler its arrival found, whether
the record has entered the run queue; whether its sender awaits a credit, and the sending core where that core has no block;
the task a completion is for; whether it is a close message, and for how many messages an actor's input counts it (R334). -/
structure InboxEntry where
  id : Nat
  h0 : Word
  h1 : Word
  payload : List Word
  claimed : Bool := false
  forActor : Option (Nat × Nat) := none
  handler : Word := 0
  queued : Bool := false
  credit : Bool := true
  home : Option Nat := none
  owner : Option Nat := none
  token : Option (Nat × Nat) := none
  close : Bool := false
  weight : Nat := 1
  deriving DecidableEq, Repr

/-- An actor entry (R98, R99). -/
structure Actor where
  entry : Word
  urg : Bool
  ins : List (Option (Nat × Nat))
  outs : List (Option (Nat × Nat))
  args : List Word
  counts : List Nat := [0, 0, 0, 0]
  firing : Nat := 0
  deriving DecidableEq, Repr

/-- An entry of the posted-store journal (R254); `id` is the number that its packets and their answers carry; `answered` says that
its packet has been refused or returned. -/
structure JournalEntry where
  id : Nat := 0
  ep : BitVec 29
  cls : Nat
  cap : Nat
  nibble : Bool
  off : Nat
  size : Nat
  data : Word
  tid : Nat
  kept : Bool := false
  late : Bool := false
  answered : Bool := false
  since : Nat := 0
  deriving DecidableEq, Repr

/-- A store that has entered the store buffer (R110): a local offset, or a physical address with its page's NC and SQ;
whether an stl made it (R304). -/
structure SbEntry where
  isLocal : Bool
  addr : Nat
  bytes : List Byte
  nc : Bool := false
  sq : Bool := false
  release : Bool := false
  deriving DecidableEq, Repr

/-- A line of the L1 data cache or victim pool (R106, R109): the data are the L2's. `victim` is the rank of the core whose
victim copy it is. -/
structure L1Line where
  line : Nat
  victim : Option Nat := none
  deriving DecidableEq, Repr

/-- A TLB entry (R125). -/
structure TlbEntry where
  w0 : Word
  w1 : Word
  deriving DecidableEq, Repr

/-- A completion of an engine command on its way to the inbox (R188). -/
structure Completion where
  core : Nat
  tid : Nat
  payload : List Word
  deriving DecidableEq, Repr

/-- A command accepted by the vector engine (R187): its number in the core's order of acceptance, the instruction, its vector registers after renaming (R71), the words of
the general registers it names, the task it acts for, and of a vopt the descriptor, the groups done and withheld, its fault. -/
structure VecCommand where
  id : Nat := 0
  instr : Instr
  vd : Nat := 0
  va : Nat := 0
  vb : Nat := 0
  x : Word := 0
  y : Word := 0
  notify : Bool := false
  tid : Nat := 0
  pc : Word := 0
  asid : Nat := 0
  priv : Bool := false
  desc : List Byte := []
  pos : Nat := 0
  withheld : Nat := 0
  bitmap : Nat := 0
  fault : Option (Nat × Word) := none
  deriving DecidableEq, Repr

/-- What a copy command does (R263). -/
inductive CopyKind where
  | copy
  | put (ep : BitVec 29) (cls cap : Nat) (ordered : Bool)
  | get (ep : BitVec 29) (cls cap : Nat)
  deriving DecidableEq, Repr

/-- A command of the copy engine (R262): its number in the core's order of acceptance, its progress (row, bytes of the row
done, packets sent and answered, bytes written, data that a get brought), and how it ends. -/
structure CopyCommand where
  id : Nat
  kind : CopyKind
  dst : Word
  src : Word
  rowBytes : Nat
  rows : Nat
  dstStride : Int
  srcStride : Int
  notify : Bool
  tid : Nat
  pc : Word
  asid : Nat
  priv : Bool
  row : Nat := 0
  done : Nat := 0
  acked : Nat := 0
  sent : Nat := 0
  written : Nat := 0
  data : List Byte := []
  status : Nat := 0
  cause : Nat := 0
  fault : Word := 0
  revoked : Bool := false
  deriving DecidableEq, Repr

/-- A command of the matrix port (R211): its number in the unit's order of acceptance, the instruction, the words of its
registers, the format context and sr.fpmode that it carries, the task it acts for, the TLB entries that translated it at issue,
its progress, the lines it read without a pin, the flags and the cause of its retirement, and whether a filling slot delayed it. -/
structure MatCommand where
  id : Nat := 0
  instr : Instr
  x : Word := 0
  y : Word := 0
  z : Word := 0
  w0 : Word := 0
  w1 : Word := 0
  mode : Word := 0
  tid : Nat := 0
  pc : Word := 0
  asid : Nat := 0
  priv : Bool := false
  tlb : List TlbEntry := []
  granted : Bool := false
  pos : Nat := 0
  data : List Byte := []
  unpinned : List Nat := []
  flags : Nat := 0
  delayed : Bool := false
  cause : Option (Nat × Word) := none
  deriving DecidableEq, Repr

/-- A cell of an accumulator tile (R176): the 128-bit value and its class. -/
structure AccCell where
  value : BitVec 128 := 0
  cls : Nat := 0
  ovf : Bool := false
  deriving DecidableEq, Repr

/-- An accumulator tile (R220): 32 by 32 cells, its inexact flag, its mode. -/
structure AccTile where
  cells : Tab AccCell := []
  inx : Bool := false
  float : Bool := false
  deriving DecidableEq, Repr

/-- An operand slot (R217): its state (0 empty, 1 filling, 2 full), its role, the format, scale format, block shape and depth of
the context, the fetch (data base, strides, scale base, orientation), its data and scale bytes in the order of the memory
lines, its poisoned elements by line and position, the units of L2 that it pins (R219). -/
structure OperandSlot where
  state : Nat := 0
  roleB : Bool := false
  fmt : Nat := 0
  scale : Nat := 0
  shape : Nat := 0
  depth : Nat := 0
  fetch : List Word := []
  col : Bool := false
  data : List Byte := []
  scales : List Byte := []
  poison : List Nat := []
  pins : List Nat := []
  deriving DecidableEq, Repr

/-- The state of one core (R9, R83). `aside` holds the vector registers of a normal task that was resumed into bank 0 while an urgent
task runs: they come back when it continues (R85, R86). The instruction cache is newest first, and was last emptied at `icacheFrom`
of State.stores (R30). `passed` holds the lines that l1fl has sent past the pool (R119). -/
structure Core where
  b0 : Task := {}
  b1 : Task := {}
  runN : List Job := []
  runU : List Job := []
  deque : List Job := []
  parks : Tab Parked := []
  parkOrder : Nat := 0
  streak : Nat := 0
  slackCount : BitVec 32 := 0
  slackOn : Bool := true
  inbox : List InboxEntry := []
  inboxNext : Nat := 0
  mask : BitVec 7 := 0
  hovf : Bool := false
  iovf : Bool := false
  maskedBy : Option Nat := none
  hand : Vector Word 7 := Vector.replicate 7 0
  actors : Tab Actor := []
  aregNext : Tab (Option Actor) := []
  outTide : Nat := 0
  revoking : List Nat := []
  journal : Tab JournalEntry := []
  utlb : List TlbEntry := []
  aside : Option Vectors := none
  icache : List (Nat × BitVec 32) := []
  icacheFrom : Nat := 0
  icacheBad : List Nat := []
  spm : List Host.Cell := []
  spmPoison : List Nat := []
  l1 : List L1Line := []
  lastVictim : Nat := 0
  passed : List Nat := []
  sb : List SbEntry := []
  carveSize : Nat := 8
  carveBase : Nat := 8
  carveLimit : Nat := 8
  poolMask : BitVec 8 := 0
  poolPart : BitVec 8 := 0
  lstat : Word := 0
  v : Vector (BitVec 512) 32 := Vector.replicate 32 0
  vPoison : Vector (BitVec 16) 32 := Vector.replicate 32 0
  m : Vector Word 8 := Vector.replicate 8 0
  vq : List VecCommand := []
  cq : List CopyCommand := []
  mq : List MatCommand := []
  mret : List MatCommand := []
  completions : List Completion := []
  mctx0 : Word := 0
  mctx1 : Word := 0
  mctxVal : Bool := false
  acc0 : AccTile := {}
  acc1 : AccTile := {}
  slots : Tab OperandSlot := []
  fpmode : Word := 0xA0
  seed : Word := 1
  vstat : Word := 0
  vflt : Word := 0
  mflt : Word := 0
  mxstat : Word := 0
  cflt : Word := 0
  rflt : Word := 0
  pgstat : Word := 0
  gslots : List (Option Nat) := [none, none, none, none]
  block : Option (Nat × Nat) := none
  xsends : Nat := 0
  rputs : List Nat := []
  deriving DecidableEq, Repr

/-- Who waits for a walk: an access of a task (`what` is 0 for data, 1 for a fetch, 2 + i for the check of an mfetch into slot i) at its address,
or an engine access under its tag (R128, R130, R449, R223). -/
inductive Requester where
  | task (core : Nat) (tid : Nat) (aSeq : Bool) (what : Nat) (pc va : Word)
  | engine (tag : Nat)
  deriving DecidableEq, Repr

/-- An active walk slot (R128, R129); `order` is its record's place among the pilot's inbox numbers (R88). -/
structure Walk where
  va : Word
  asid : Nat
  kind : Nat
  priv : Bool
  rg : Bool
  rix : Nat
  core : Nat
  waiters : List Requester
  order : Nat := 0
  started : Bool := false
  deriving DecidableEq, Repr

/-- An open ticket (R131): its kind, its granule, the engine accesses it holds, and, in a saved gang, whether the host has
answered its page request. -/
structure Ticket where
  host : Bool
  va : Word
  asid : Nat
  engines : List Nat
  answered : Bool := false
  deriving DecidableEq, Repr

/-- The state of one cove (R10). -/
structure Cove where
  tlb : List TlbEntry := []
  walks : Tab Walk := []
  walkQueue : List Nat := []
  tickets : Tab Ticket := []
  late : BitVec 8 := 0
  arrayNext : Nat := 0
  fetchNext : Nat := 0
  deriving DecidableEq, Repr

/-- The states of a line in a die's L2 (R154). -/
inductive LineState where
  | m | e | s
  deriving DecidableEq, Repr

/-- The access that a request to a home directory was made for: the core, the task at its instruction, the oldest memory command of
the core's engines. -/
structure Asker where
  core : Nat
  tid : Nat
  pc : Word
  first : Option Nat
  deriving DecidableEq, Repr

/-- A line of a die's L2 (R150 to R159): its state, its slice, the count of consecutive accesses of one cove and the turn of the last,
its last use; for an
NC line its own bytes and dirty marks. `owed` is the access it was granted for, until that access is made (R156). -/
structure L2Line where
  state : LineState
  slice : Nat
  cove : Nat := 0
  count : Nat := 0
  turn : Nat := 0
  used : Nat := 0
  nc : Bool := false
  sq : Bool := false
  data : Tab Byte := []
  dirty : List Nat := []
  owed : Option Asker := none
  deriving DecidableEq, Repr

/-- The states of a directory entry (R154); U has no entry. `p` keeps the transaction in progress: requester, whether it
asks for ownership, and the agents whose answers are outstanding. -/
inductive DirState where
  | s (mask : BitVec 5)
  | x (owner : Nat)
  | p (requester : Nat) (own upgrade : Bool) (mask : BitVec 5) (wait : List Nat)
  | r (wait : List Nat) (since : Nat) (slow : Bool)
  deriving DecidableEq, Repr

/-- A request to a home directory (R154): from an agent, for a line or the square sector that begins there (R159), with ownership,
as an upgrade. -/
structure CohRequest where
  agent : Nat
  line : Nat
  own : Bool
  upgrade : Bool
  sq : Bool := false
  asker : Option Asker := none
  deriving DecidableEq, Repr

/-- A directory entry: its state and the requests that wait for it, or for its recall to free its set, in order; the access that the
transaction in progress is for. -/
structure DirEntry where
  state : DirState
  used : Nat := 0
  waiting : List CohRequest := []
  sq : Bool := false
  asker : Option Asker := none
  deriving DecidableEq, Repr

/-- The coherence messages of R154 and R155. -/
inductive CohKind where
  | rds | rdx (upgrade : Bool) | wb | ce | ack
  | invAck | ownerAck | ownerWb | gone
  | inv | fwds (dest : Nat) | fwdx (dest : Nat) | recall
  deriving DecidableEq, Repr

/-- A coherence message between two agents (0 to 3 the dies, 4 the host); each pair is FIFO. A request says whether it is for a square
sector (R159), and for which access. -/
structure CohMessage where
  src : Nat
  dst : Nat
  line : Nat
  kind : CohKind
  sq : Bool := false
  asker : Option Asker := none
  deriving DecidableEq, Repr

/-- A causal stamp (R276): twelve counters and the epoch. -/
structure Stamp where
  cnt : List Nat
  epoch : Nat
  deriving DecidableEq, Repr

/-- What a message-class packet does at its destination. -/
inductive PacketKind where
  | message (h0 h1 : Word) (payload : List Word) (credit : Bool)
  | pst (journal off size : Nat) (data : Word)
  | pst4 (journal nibble count : Nat) (data : Word)
  | put (command off : Nat) (bytes : List Byte) (poison : List Nat) (last : Bool)
  | getRequest (command off len : Nat)
  | getData (command : Nat) (bytes : List Byte) (poison : List Nat) (status cause fault : Nat)
  | credit (cap : Nat)
  | ack (journal : Nat)
  | refusal (journal cause : Nat)
  | putAck (command bytes : Nat) (status cause fault : Nat)
  | bounceBack (h0 h1 : Word) (payload : List Word) (code : Nat) (detail : Word) (credit : Bool) (journal : Option Nat)
  | gate (words : List Word) (die : Nat)
  | performed (path : Nat)
  deriving DecidableEq, Repr

/-- What a packet to or from another device carries (R286, R288); `seq` is its place among the packets of its path in this device. -/
structure TideInfo where
  device : Nat
  path : Nat
  ordered : Option (List Nat) := none
  seq : Nat := 0
  deriving DecidableEq, Repr

/-- A packet of the message class (R272). `src` is the sender's endpoint, `core` and `tid` the sending core and task; `home`
names the destination core where that core has no block, and so no endpoint of its own; `token` the name and replica of an
expert token, `notice` the name of a close (true) or control message (R333, R334, R337). `stop` is the stop at which it entered the die
it is on (R271); `forwarded` says that the die of its endpoint's origin has passed it on (R246); `flag` is the number of the ordered
message to another device that it is or that it answers (R288, R289). -/
structure Packet where
  kind : PacketKind
  ep : BitVec 29
  home : Option Nat := none
  src : BitVec 29
  core : Nat := 0
  tid : Nat := 0
  part : Nat := 0
  cls : Nat := 0
  stamp : Option Stamp := none
  tide : Option TideInfo := none
  since : Nat := 0
  paged : Bool := false
  token : Option (Nat × Nat) := none
  notice : Option (Nat × Bool) := none
  stop : Nat := 91
  forwarded : Bool := false
  flag : Option Nat := none
  deriving DecidableEq, Repr

/-- A packet on a loop of a die (R271 to R273). -/
structure Flight where
  loop : Nat
  packet : Packet
  deriving DecidableEq, Repr

/-- The causal state of a die for one partition (R277). -/
structure Causal where
  m : List Nat := [0, 0, 0, 0, 0, 0, 0, 0, 0, 0, 0, 0]
  d : List Nat := [0, 0, 0, 0]
  epoch : Nat := 0
  deriving DecidableEq, Repr

/-- A copy of a trap record that waits for delivery (R405): to the supervisor inbox, or under a capability of a core. -/
structure RecordCopy where
  part : Nat
  core : Nat
  words : List Word
  src : BitVec 29 := 0
  forward : Option Nat := none
  deriving DecidableEq, Repr

/-- A request on its way to an expert selector (R345). `seen` is the causal state of its sender's die, which its forwarding preserves
(R333). -/
inductive ExpertRequest where
  | token (name step slice : Nat) (word row : Word) (core tid : Nat) (src : BitVec 29) (seen : List Nat)
  | join (name step slice : Nat) (addr : Word) (notify : Bool) (core tid : Nat) (pc : Word) (src : BitVec 29) (seen : List Nat)
  deriving DecidableEq, Repr

/-- What works for an expert name and may wait on a held access (R448): a request that has arrived, the release of a held token, a step
close, a copy, the end of a replica, the join, a growth, an instruction of a task. -/
inductive NameWork where
  | request (r : ExpertRequest)
  | release (q : Nat)
  | close
  | copy (q : Nat)
  | gone (q : Nat)
  | join
  | growth
  | instr (core tid : Nat)
  deriving DecidableEq, Repr

/-- A command of the sort engine (R367): its number in the order of acceptance, the instruction, its descriptor, the task it acts for, its progress; of an rsort the
pairs kept and the number left out; of an rmap the source of the row it is in, once known, and none for a row of zeros. -/
structure SortCommand where
  id : Nat := 0
  instr : Instr
  words : List Word
  core : Nat
  tid : Nat
  pc : Word
  asid : Nat
  priv : Bool
  pos : Nat := 0
  pairs : List Word := []
  left : Nat := 0
  source : Option (Option Word) := none
  deriving DecidableEq, Repr

/-- A chunk in transit (R384). -/
structure Chunk where
  codes : List Byte
  scale : Nat
  rescaled : Bool := false
  nan : Bool := false
  poisoned : Bool := false
  deriving DecidableEq, Repr

/-- An rput that a bucket holds (R393): its number in the order of acceptance, its descriptor, the task it acts for, and what
the engine has read: the chunks done, the thinned contribution and the new residual by chunk, the poisoned chunks, the
agreed scales. -/
structure ReducePut where
  id : Nat
  backup : Bool
  src : Word
  dst : Word
  res : Word
  scl : Word
  notify : Bool
  core : Nat
  tid : Nat
  pc : Word
  asid : Nat
  priv : Bool
  pos : Nat := 0
  values : List (List Nat) := []
  residual : List (List Nat) := []
  poison : List Nat := []
  scales : List Byte := []
  arrived : Bool := false
  deriving DecidableEq, Repr

/-- A chunk packet of the reduce class (R383): to the device and die, of the ring and bucket; the final chunk or a partial; the
positions whose backup was taken, and the lowest of them; the path it takes to another device, and whether it comes from one. -/
structure ChunkPacket where
  device : Nat
  die : Nat
  part : Nat
  ring : Nat
  bid : Nat
  index : Nat
  final : Bool
  backups : Nat
  lowest : Option Nat
  chunk : Chunk
  path : Nat := 0
  transit : Bool := false
  deriving DecidableEq, Repr

/-- A bucket of a die's reduce engine (R391): what its first rput fixed (with its core and task), its rputs, the roles that have arrived or completed, the
contribution taken, the partials that wait, the chunks finished here, the final chunks, the time of the result while it is
being written, and what has been reported. -/
structure Bucket where
  part : Nat
  ring : Nat
  bid : Nat
  nch : Nat
  fmt : Nat
  tk : Nat
  bk : Bool
  deadline : Nat
  core : Nat
  tid : Nat
  puts : List ReducePut := []
  roles : List Bool := []
  seen : List Bool := []
  taken : Option ReducePut := none
  partials : List ChunkPacket := []
  sent : List Nat := []
  finals : Tab ChunkPacket := []
  writing : Option Nat := none
  written : Bool := false
  deadlineMissed : Bool := false
  downReported : Bool := false
  rescaledHere : Bool := false
  deriving DecidableEq, Repr

/-- The state of one die (R11). `l2Clock` orders the uses of its lines (R150); `unplaced` holds the regions whose first access found
the region table full (R152); `flags` the ordered packets held, of which those beyond 256 stand in the switch area (R288); `fenceTold`
the fences that the die has reported (R282); `quiet` what its sources hold of quiesced partitions (R283); `strays` the freed buckets of which an rput still reads (R391). -/
structure Die where
  l2 : Tab L2Line := []
  l2Clock : Nat := 0
  region : Tab Nat := []
  unplaced : List Nat := []
  forward : List (Nat × Nat) := []
  dir : Tab DirEntry := []
  dirClock : Nat := 0
  l2stat : Word := 0
  causal : Tab Causal := []
  pool : List (Nat × Packet) := []
  ring : List Flight := []
  spill : Tab (List Flight) := []
  lnkcnt : Word := 0
  fenceTold : BitVec 4 := 0
  quiet : List Packet := []
  xstat : Word := 0
  redstat : Word := 0
  rbuf : Word := 0
  rstep : Word := 0
  rcore : Word := 0
  rcq : Word := 0
  gate : List (List Word) := []
  gateCount : Tab (BitVec 96) := []
  sort : List SortCommand := []
  buckets : List Bucket := []
  strays : List Bucket := []
  rings : Tab Word := []
  records : List RecordCopy := []
  flags : List Packet := []
  requests : List ExpertRequest := []
  eh : List Nat := [0, 0, 0, 0, 0, 0]
  et : List Nat := [0, 0, 0]
  lastServed : Tab Nat := []
  deriving DecidableEq, Repr

/-- A launch record that has entered a queue (R76, R77), and, once its first block is placed, its number. The record keeps its place
until its last block is placed. -/
structure Launch where
  words : List Word
  started : Option Nat := none
  deriving DecidableEq, Repr

/-- A launch queue of a partition (R75, R414, R428). -/
structure LaunchQueue where
  cfg : Word := 0
  tmpl : Word := 0
  held : List Launch := []
  refused : Nat := 0
  deriving DecidableEq, Repr

/-- The state of one partition (R401 to R416). -/
structure Part where
  act : List Word := List.replicate 12 0x0505050505050505
  supep : Word := 0
  made : Nat := 0
  lost : Nat := 0
  terr : Bool := false
  seqno : Word := 0
  walkent : Word := 0
  land : Word := 0
  ebbCount : Word := 4
  ebbAge : Word := 200000
  ebbarea : Word := 0
  acktmo : Word := 1000
  loopmap : Word := 0
  tpage : Word := 100
  tsel : Word := 0
  tidx : Word := 0
  lqsel : Word := 0
  cwdog : Word := 0
  queues : Tab LaunchQueue := []
  pmap : List Word := [0, 0, 0, 0]
  pasid : Word := 0
  gown : List Word := [0, 0, 0, 0]
  xrange : Word := 0
  swout : Word := 0
  swin : Word := 0
  switchAt : Word := 0
  switchedAt : Nat := 0
  swState : Nat := 0
  swDone : Bool := false
  swOver : Bool := false
  swNoted : Bool := false
  swlim : Word := 20000
  quiesce : Bool := false
  drained : Bool := false
  cleared : Bool := false
  deriving DecidableEq, Repr

/-- A launch in service (R77): its queue, its record, the next block to place and how many have ended. -/
structure Service where
  part : Nat
  queue : Nat
  words : List Word
  next : Nat := 0
  ended : Nat := 0
  deriving DecidableEq, Repr

/-- A block (R78, R239): its launch, its index, its origin, its cores by rank, and, while it is absent, its saved cores, with the
order of its ebb and its frame, or the image area of its gang (R139, R416), and the shipped contexts on their way to it, by rank
(R149); whether the trigger it meets with no frame free has been counted (R138). -/
structure Block where
  launch : Nat
  index : Nat
  part : Nat
  queue : Nat
  asid : Nat
  priv : Bool
  carve : Nat
  slice : Nat
  dies : Nat
  originDie : Nat
  originCrew : Nat
  originCores : List Nat
  die : Nat
  crew : Nat
  cores : List Nat
  absent : Bool := false
  ebbOrder : Nat := 0
  frame : Option Nat := none
  gang : Option Nat := none
  saved : List Core := []
  ships : List (Nat × Job) := []
  ebbNoted : Bool := false
  deriving DecidableEq, Repr

/-- A member of a group: a core, or a rank of an absent block, or a lone core of the gang that an area holds, and its arrival count
(R292). -/
structure Member where
  core : Nat
  block : Option (Nat × Nat) := none
  gang : Option Nat := none
  count : Nat
  absent : Bool := false
  deriving DecidableEq, Repr

/-- A group (R290 to R293). `since` is where the measured time of the phase begins, moved on by every pause; `pausedAt` when the
pause began that stands now (R293). -/
structure Group where
  phase : Nat := 0
  members : List Member := []
  limit : Nat := 0
  raised : Bool := false
  since : Option Nat := none
  pausedAt : Option Nat := none
  deriving DecidableEq, Repr

/-- The states of a replica (R330). -/
inductive ReplicaState where
  | gone | filling | live | draining
  deriving DecidableEq, Repr

/-- A replica of an expert name (R329, R330): its state, record and version, its pending tokens, the tokens of the open step
forwarded to it, its slices pinned in each bank, the tokens held for it. -/
structure Replica where
  state : ReplicaState := .gone
  record : List Word := [0, 0, 0, 0]
  poolIndex : Option Nat := none
  version : Nat := 0
  pending : Nat := 0
  forwarded : Nat := 0
  pins : List Nat := [0, 0]
  held : List ExpertRequest := []
  deriving DecidableEq, Repr

/-- A fill or update copy that the expert unit makes (R336, R341): the replica, the version it brings, the bytes done, and of an
update the map of withheld groups. -/
structure ExpertCopy where
  replica : Nat
  version : Nat
  fill : Bool
  refills : Nat := 0
  pos : Nat := 0
  withheld : List Byte := []
  deriving DecidableEq, Repr

/-- A partial that waits in a name's join (R340, R351). -/
structure JoinEntry where
  step : Nat
  slice : Nat
  replica : Nat
  addr : Word
  notify : Bool
  core : Nat
  tid : Nat
  pc : Word
  spilled : Bool := false
  deriving DecidableEq, Repr

/-- An expert name (R327 to R343): whether it is defined (or being defined, while its pin banks are zeroed), its descriptor, the
address space and partition of its xdef; its version, step, owner and vopt descriptor; its replicas; the close requests
accepted; the join of the last step closed (its slices, how many are added, the bytes of the next one done, zeroing first), the
partials that wait; the copies in progress; a deferred growth; what was noted this step; a reported fault of its accesses, and whose access waits. -/
structure Name where
  defined : Bool := false
  words : List Word := []
  asid : Nat := 0
  part : Nat := 0
  priv : Bool := false
  version : Nat := 0
  step : Nat := 0
  owner : Nat := 0
  optd : Word := 0
  replicas : Tab Replica := []
  closes : Nat := 0
  joinStep : Nat := 0
  joinDone : Bool := true
  joinZeroed : Bool := true
  joinSet : List Nat := []
  joinNext : Nat := 0
  joinPos : Nat := 0
  entries : List JoinEntry := []
  copies : List ExpertCopy := []
  deferred : Bool := false
  poolNoted : Bool := false
  growNoted : Bool := false
  spillNoted : List Nat := []
  walkFault : Bool := false
  faultNoted : Bool := false
  faultSince : Nat := 0
  holder : Option NameWork := none
  deriving DecidableEq, Repr

/-- What the device keeps of another device (R287, R288): per path its up state, and the packets sent, got, acknowledged; since when it
has waited for an acknowledgement; the ordered messages sent that none has come for. -/
structure Peer where
  up : List Bool := [true, true, true, true]
  down : Bool := false
  sent : List Nat := [0, 0, 0, 0]
  got : List Nat := [0, 0, 0, 0]
  acked : List Nat := [0, 0, 0, 0]
  ackedAt : Nat := 0
  flags : List Packet := []
  deriving DecidableEq, Repr

/-- A gang saved by a gang switch (R416): the registers and queues of its partition, the cores of its pilots and routing core, its
walks and tickets, what the units of each die hold of it, its expert names, its packets on ports and links; when it stopped. Its
blocks stay among the blocks, marked with the area. -/
structure Gang where
  part : Part
  savedAt : Nat := 0
  cores : Tab Core := []
  coves : Tab Cove := []
  dies : Tab Die := []
  names : Tab Name := []
  ports : Tab (List Packet) := []
  links : Tab (List Packet) := []
  unacked : Tab Nat := []
  chunks : List ChunkPacket := []
  deriving DecidableEq, Repr

/-- The agent that issues: a core, and whether its A sequencer. -/
structure Agent where
  core : Nat := 0
  a : Bool := false
  deriving DecidableEq, Repr

/-- What the schedule names for one step (the model's own, notes/assumptions/3.md): the issue of an agent, an event, a
packet or chunk that arrives from another device at a tide port, one that leaves one, or a write of the power sensors. -/
inductive Turn where
  | issue (core : Nat) (a : Bool)
  | event (i : Instr)
  | tideIn (port : Nat) (packet : Packet)
  | tideSent (port : Nat)
  | chunkIn (packet : ChunkPacket)
  | chunkSent (port : Nat)
  | sensors (power temperature : Nat)
  deriving DecidableEq, Repr

/-- The host-facing registers and units of the device (R427 to R436): boot state, reason and version; image address and length;
leaves remaining; attestation state; replacement reasons and thresholds; power, temperature and limits. `floor` is the fused
version floor, `leaves` the identity leaves that are left (fused; mg.keys shows them as `idl` from the end of a bring-up on), `image` the
image that is loaded, `hdm` whether the HDM decoder is committed, `buffer` the attestation buffers, `hour` the hour that mg.eh counts, `hotAt` the last time the condition of R436
was seen to hold, `msix0` and `msix1` count the vectors signalled, `pageRequests` holds the tickets whose page request the host
has not answered, `hostDirty` the lines of host space held modified. -/
structure HostUnit where
  boot : Nat := 0
  why : Nat := 0
  ver : BitVec 32 := 0
  floor : BitVec 32 := 0
  fwaddr : Word := 0
  fwlen : BitVec 32 := 0
  leaves : Nat := 1048576
  image : List Byte := []
  hdm : Bool := false
  idl : Nat := 0
  bcnt : Nat := 0
  atl : Nat := 0
  ast : Nat := 0
  repl : BitVec 8 := 0
  thr : Word := 0x0001080A03E82710
  power : Nat := 0
  temp : Nat := 0
  cap : Nat := 0
  tlim : Nat := 105
  throttled : Bool := false
  hotAt : Nat := 0
  hour : Nat := 0
  buffer : Tab Byte := []
  linkUp : Bool := true
  msix0 : Nat := 0
  msix1 : Nat := 0
  pageRequests : List (Nat × Nat) := []
  hostDirty : List Nat := []
  deriving DecidableEq, Repr

/-- Why a step stops with a fault. No instruction of the spec ends so (NOTES.md, Stops); the one fault is a physical
address of the reserved range of R123, which no TLB entry may hold (R144): a state that names one is none the device
reaches. -/
inductive Fault where
  /-- Raised by a memory access in a state whose TLB entry names the reserved physical range [576 GiB, 2^51) of R123, an
  address the spec says does not exist. Safe: the machine stops where the device has no address. -/
  | noSuchAddress (pa : Nat)
  deriving DecidableEq, Repr

/-- Why a step is refused. -/
inductive Refusal where
  /-- Raised by an arm of the dispatch whose instruction has no meaning yet. Safe: the machine stops. -/
  | notModelled (mnemonic : String)
  deriving DecidableEq, Repr

/-- The whole package. `replays` counts, by link, the checks that one flit has failed (R275); `stores` counts the writes of lines, and `rewritten` holds, of each word that one has changed, the count and
the word before it: what an instruction fetch may still return (R30; the model's own). `hbmMet` holds the sectors whose uncorrectable
data an L2 has taken from HBM, for the access that brings them (R433). `stranded` holds, by their die, the packets that go to a device
without a valid path and have no sender to return to (R2, R286). `turns` counts the steps: what clears in one
step clears in one cycle (R86, R137; the model's own). -/
structure State where
  mem : List Host.Cell := []
  stores : Nat := 0
  rewritten : Tab (Nat × BitVec 32) := []
  stale : Tab Byte := []
  poison : List Nat := []
  hbmBad : List Nat := []
  hbmMet : List Nat := []
  cores : Tab Core := []
  coves : Tab Cove := []
  dies : Tab Die := []
  parts : Tab Part := []
  coh : List CohMessage := []
  hostLines : Tab Bool := []
  ports : Tab (List Packet) := []
  links : Tab (List Packet) := []
  unacked : Tab Nat := []
  tideIn : Tab (List Packet) := []
  tideOut : Tab (List Packet) := []
  stranded : List (Nat × Packet) := []
  replays : Tab Nat := []
  chunks : List ChunkPacket := []
  chunksOut : List ChunkPacket := []
  chunkPorts : Tab (List ChunkPacket) := []
  ships : List (Nat × Job) := []
  blocks : Tab Block := []
  services : Tab Service := []
  groups : Tab Group := []
  names : Tab Name := []
  peers : Tab Peer := []
  gangs : Tab Gang := []
  frames : List (Nat × Nat) := []
  answers : Tab Cause := []
  heldTags : List Nat := []
  killed : List Nat := []
  psel : Word := 0
  fence : BitVec 4 := 0
  lnkSel : Nat := 0
  lnkErr : Bool := false
  tsl : BitVec 4 := 0
  tidecfg : Word := 0
  rtbase : Word := 0
  peerSel : Nat := 0
  host : HostUnit := {}
  now : Nat := 0
  turns : Nat := 0
  tick : Nat := 0
  nextTid : Nat := 1
  nextUid : Nat := 1
  cur : Agent := {}
  sched : List Turn := []
  deriving DecidableEq, Repr

/-- Partition 0 after reset: it holds every cove, every ASID and every name (R413, R327). -/
def rootPart : Part :=
  { pmap := [0xFFFFFFFF, 0xFFFFFFFF, 0xFFFFFFFF, 0xFFFFFFFF], pasid := 0x1000000, xrange := 0x1000000 }

/-- The machine right after a device reset (R426, R430, and the reset column of every register): the boot ROM waits for the
firmware image, no task runs, every cache, queue and table is empty. -/
def State.reset : State := { parts := [(0, rootPart)] }

end Sys2Proof.Machine
end

