-- ==== Sys2Proof/Machine/Tab.lean ====
section
/-! DEFINITION. The operations of the sparse tables and of the byte memories: one canonical form (keys strictly rising; in
a memory no entry equal to what an unlisted address reads as). -/

namespace Sys2Proof.Machine

variable {α : Type}

/-- The entry of a key, if listed. -/
def tabFind : Tab α → Nat → Option α
  | [], _ => none
  | (i, a) :: r, k => if i = k then some a else tabFind r k

/-- The entry of a key, or what an unlisted key holds. -/
def tabGet (t : Tab α) (k : Nat) (dflt : α) : α := (tabFind t k).getD dflt

/-- Write an entry in its place. -/
def tabPut : Tab α → Nat → α → Tab α
  | [], k, a => [(k, a)]
  | (i, b) :: r, k, a =>
    if k < i then (k, a) :: (i, b) :: r
    else if k = i then (k, a) :: r
    else (i, b) :: tabPut r k a

/-- Remove an entry. -/
def tabDel : Tab α → Nat → Tab α
  | [], _ => []
  | (i, b) :: r, k => if i = k then r else (i, b) :: tabDel r k

/-- The least key from `lo` on, of `fuel` keys, that is not listed. -/
def tabFree (t : Tab α) : Nat → Nat → Option Nat
  | 0, _ => none
  | fuel + 1, lo => if (tabFind t lo).isNone then some lo else tabFree t fuel (lo + 1)

/-- What a byte that nothing has written reads as (notes/assumptions/1.md). -/
def blankByte : Byte := 0

/-- Read one byte of a memory. -/
def cellGet (m : List Host.Cell) (a : Nat) : Byte := tabGet m a blankByte

/-- Write one byte of a memory, keeping the canonical form: a byte equal to the blank is not listed. -/
def cellSet (m : List Host.Cell) (a : Nat) (b : Byte) : List Host.Cell :=
  if b = blankByte then tabDel m a else tabPut m a b

/-- Write consecutive bytes. -/
def cellsSet (m : List Host.Cell) (a : Nat) : List Byte → List Host.Cell
  | [] => m
  | b :: r => cellsSet (cellSet m a b) (a + 1) r

/-- Read consecutive bytes. -/
def cellsGet (m : List Host.Cell) (a n : Nat) : List Byte := (List.range n).map fun i => cellGet m (a + i)

/-- Keys strictly rising from above `lo`, and no entry equal to the blank. -/
def cellsRising : Option Nat → List Host.Cell → Bool
  | _, [] => true
  | lo, (a, b) :: r => (match lo with | none => true | some l => decide (l < a)) && b != blankByte && cellsRising (some a) r

/-- The canonical form of a memory. -/
def Memory.wf (m : List Host.Cell) : Bool := cellsRising none m

/-- Set insertion and removal in a sorted list of numbers: the poison marks. -/
def markPut : List Nat → Nat → List Nat
  | [], k => [k]
  | i :: r, k => if k < i then k :: i :: r else if k = i then i :: r else i :: markPut r k

/-- Remove a mark. -/
def markDel (l : List Nat) (k : Nat) : List Nat := l.filter (· ≠ k)

/-- The number of a little-endian list of bytes. -/
def natOfBytes : List Byte → Nat
  | [] => 0
  | b :: r => b.toNat + 256 * natOfBytes r

/-- The `n` bytes of a number, little-endian (R3). -/
def bytesOfNat : Nat → Nat → List Byte
  | 0, _ => []
  | n + 1, w => BitVec.ofNat 8 w :: bytesOfNat n (w / 256)

/-- A word from a little-endian list of bytes. -/
def wordOfList (l : List Byte) : Word := BitVec.ofNat 64 (natOfBytes l)

/-- The eight bytes of a word. -/
def bytesOf (w : Word) : List Byte := bytesOfNat 8 w.toNat

/-- The words of a list of bytes, eight bytes each. -/
def wordsOfBytes (l : List Byte) (n : Nat) : List Word :=
  (List.range n).map fun i => wordOfList ((l.drop (8 * i)).take 8)

/-- Bits hi down to lo of a word, as a number. -/
def fieldOf (w : Word) (hi lo : Nat) : Nat := (w.toNat / 2 ^ lo) % 2 ^ (hi + 1 - lo)

/-- One bit of a word. -/
def bitOf (w : Word) (i : Nat) : Bool := w.getLsbD i

/-- A word with the bits hi down to lo replaced. -/
def withField (w : Word) (hi lo v : Nat) : Word :=
  BitVec.ofNat 64 (w.toNat - fieldOf w hi lo * 2 ^ lo + (v % 2 ^ (hi + 1 - lo)) * 2 ^ lo)

/-- A word with the field hi down to lo advanced by `n`, modulo its size. -/
def bumpField (w : Word) (hi lo n : Nat) : Word := withField w hi lo (fieldOf w hi lo + n)

/-- A number written at a bit position. -/
def atBit (v lo : Nat) : Word := BitVec.ofNat 64 (v * 2 ^ lo)

/-- Sign extension of the low `n` bits of a number. -/
def sextNat (v n : Nat) : Int := if v % 2 ^ n < 2 ^ (n - 1) then (v % 2 ^ n : Nat) else ((v % 2 ^ n : Nat) : Int) - (2 ^ n : Nat)

/-- The word of an integer, modulo 2^64. -/
def wordOfInt (i : Int) : Word := BitVec.ofInt 64 i

/-- The i-th entry of a list, or a default. -/
def nth (l : List α) (i : Nat) (d : α) : α := (l[i]?).getD d

/-- A list with its i-th entry replaced. -/
def setNth (l : List α) (i : Nat) (a : α) : List α := l.set i a

end Sys2Proof.Machine
end

