-- ==== Sys2Proof/Machine/Numbers.lean ====
section
/-! DEFINITION. Number formats (spec/09): exact values, the element formats, rounding by mode with its flags, and the exact
operations of IEEE 754-2019 that the vector engine, the matrix unit, the atomics, the joins and the reduce engine share. -/

namespace Sys2Proof.Machine

/-- A value of a format, or an exact result before it is rounded: NaN (signalling or quiet), an infinity, or
± num ÷ den × 2^exp. A zero keeps its sign (R5). -/
inductive Num where
  | nan (signalling : Bool)
  | inf (neg : Bool)
  | fin (neg : Bool) (num den : Nat) (exp : Int)
  deriving DecidableEq, Repr

/-- Zero of a sign. -/
def Num.zero (neg : Bool) : Num := .fin neg 0 1 0
/-- An integer. -/
def Num.ofInt (i : Int) : Num := .fin (i < 0) i.natAbs 1 0
/-- Is it NaN? -/
def Num.isNan : Num → Bool | .nan _ => true | _ => false
/-- Is it an infinity? -/
def Num.isInf : Num → Bool | .inf _ => true | _ => false
/-- Is it zero? -/
def Num.isZero : Num → Bool | .fin _ 0 _ _ => true | _ => false
/-- Its sign. -/
def Num.neg : Num → Bool | .nan _ => false | .inf n => n | .fin n _ _ _ => n
/-- Is it a signalling NaN? -/
def Num.signals : Num → Bool | .nan s => s | _ => false
/-- The opposite value. -/
def Num.negate : Num → Num | .nan s => .nan s | .inf n => .inf !n | .fin n a d e => .fin (!n) a d e
/-- The magnitude. -/
def Num.abs : Num → Num | .nan s => .nan s | .inf _ => .inf false | .fin _ a d e => .fin false a d e
/-- The value times 2^k. -/
def Num.scale (k : Int) : Num → Num | .fin n a d e => .fin n a d (e + k) | x => x

/-- n × 2^k for k ≥ 0, n for k < 0: the two sides of an exact comparison. -/
def upBy (n : Nat) (k : Int) : Nat := n * 2 ^ k.toNat

/-- Compare two finite values exactly. -/
def finLt (n1 : Bool) (a1 d1 : Nat) (e1 : Int) (n2 : Bool) (a2 d2 : Nat) (e2 : Int) : Bool :=
  let x := upBy (a1 * d2) (e1 - e2)
  let y := upBy (a2 * d1) (e2 - e1)
  match n1, n2 with
  | false, false => x < y
  | true, true => y < x
  | true, false => a1 ≠ 0 || a2 ≠ 0
  | false, true => false

/-- x < y among numbers that are not NaN; −0 equals +0. -/
def Num.lt : Num → Num → Bool
  | .inf true, .inf true => false
  | .inf true, .nan _ => false
  | .inf true, _ => true
  | .fin _ _ _ _, .inf n => !n
  | .fin n1 a1 d1 e1, .fin n2 a2 d2 e2 => finLt n1 a1 d1 e1 n2 a2 d2 e2
  | _, _ => false
/-- x = y among numbers that are not NaN. -/
def Num.eq (x y : Num) : Bool := !x.isNan && !y.isNan && !x.lt y && !y.lt x

/-- The flags of sr.fpmode in the order of ven (R180), and oor. -/
def flInvalid : Nat := 1
/-- Divide by zero. -/
def flDivZero : Nat := 2
/-- Overflow. -/
def flOverflow : Nat := 4
/-- Underflow. -/
def flUnderflow : Nat := 8
/-- Inexact. -/
def flInexact : Nat := 16
/-- A conversion saturated or met NaN. -/
def flOor : Nat := 32

/-- A value with the flags its computation sets. -/
abbrev Flagged := Num × Nat

/-- The quiet NaN of an operation on operands, with invalid for a signalling one (R172). -/
def nanOf (l : List Num) : Flagged := (.nan false, if l.any (·.signals) then flInvalid else 0)
/-- An invalid operation. -/
def invalid : Flagged := (.nan false, flInvalid)

/-- The exact sum of two finite values; `rdn` gives the sign of an exact zero of unlike operands (R5). -/
def finAdd (rdn : Bool) (n1 : Bool) (a1 d1 : Nat) (e1 : Int) (n2 : Bool) (a2 d2 : Nat) (e2 : Int) : Num :=
  let e := min e1 e2
  let x : Int := (if n1 then -1 else 1) * (upBy (a1 * d2) (e1 - e) : Nat)
  let y : Int := (if n2 then -1 else 1) * (upBy (a2 * d1) (e2 - e) : Nat)
  let t := x + y
  if t = 0 then .zero (if a1 = 0 && a2 = 0 && n1 == n2 then n1 else rdn)
  else .fin (t < 0) t.natAbs (d1 * d2) e

/-- x + y. -/
def Num.add (rdn : Bool) (x y : Num) : Flagged :=
  match x, y with
  | .fin n1 a1 d1 e1, .fin n2 a2 d2 e2 => (finAdd rdn n1 a1 d1 e1 n2 a2 d2 e2, 0)
  | .inf a, .inf b => if a = b then (.inf a, 0) else invalid
  | .inf a, .fin .. => (.inf a, 0)
  | .fin .., .inf b => (.inf b, 0)
  | x, y => nanOf [x, y]

/-- x × y. -/
def Num.mul (x y : Num) : Flagged :=
  match x, y with
  | .fin n1 a1 d1 e1, .fin n2 a2 d2 e2 => (.fin (n1 != n2) (a1 * a2) (d1 * d2) (e1 + e2), 0)
  | .nan _, _ => nanOf [x, y]
  | _, .nan _ => nanOf [x, y]
  | x, y => if x.isZero || y.isZero then invalid else (.inf (x.neg != y.neg), 0)

/-- x ÷ y. -/
def Num.div (x y : Num) : Flagged :=
  match x, y with
  | .nan _, _ => nanOf [x, y]
  | _, .nan _ => nanOf [x, y]
  | .inf _, .inf _ => invalid
  | .inf a, y => (.inf (a != y.neg), 0)
  | x, .inf b => (.zero (x.neg != b), 0)
  | .fin n1 a1 d1 e1, .fin n2 a2 d2 e2 =>
    if a2 = 0 then (if a1 = 0 then invalid else (.inf (n1 != n2), flDivZero))
    else (.fin (n1 != n2) (a1 * d2) (d1 * a2) (e1 - e2), 0)

/-- x × y + z, the product exact (R193). An infinity times zero with a quiet NaN z sets invalid or not, as IEEE 754-2019
leaves it. -/
def Num.fma (rdn : Bool) (x y z : Num) : Flagged :=
  if x.isNan || y.isNan then nanOf [x, y, z]
  else
    match x.mul y, z with
    | (_, 1), .nan s => (.nan false, if s || Config.fmaNanInvalid then flInvalid else 0)
    | (_, 1), _ => invalid
    | (_, _), .nan s => nanOf [.nan s]
    | (p, _), z => p.add rdn z

/-- The integer square root, by bits from 2^n down. -/
def isqrtBits (x : Nat) : Nat → Nat → Nat
  | 0, r => r
  | n + 1, r => if (r + 2 ^ n) * (r + 2 ^ n) ≤ x then isqrtBits x n (r + 2 ^ n) else isqrtBits x n r
/-- The integer square root. -/
def isqrt (x : Nat) : Nat := isqrtBits x (Nat.log2 x / 2 + 1) 0

/-- The square root of ± a ÷ d × 2^e to at least `bits` significant bits: exact, or a value strictly between two neighbours at
that precision, which rounds as the exact one does. -/
def finSqrt (bits : Nat) (a d : Nat) (e : Int) : Num :=
  let e' := if e % 2 = 0 then e else e - 1
  let a := if e % 2 = 0 then a else 2 * a
  let k := bits + Nat.log2 d + 2
  let q := a * 2 ^ (2 * k) / d
  let r := isqrt q
  if r * r * d = a * 2 ^ (2 * k) then .fin false r 1 (e' / 2 - k) else .fin false (2 * r + 1) 1 (e' / 2 - k - 1)

/-- The square root. -/
def Num.sqrt (x : Num) : Flagged :=
  match x with
  | .nan _ => nanOf [x]
  | .inf n => if n then invalid else (.inf false, 0)
  | .fin n a d e => if a = 0 then (x, 0) else if n then invalid else (finSqrt 200 a d e, 0)

/-- 1 ÷ square root (R193). -/
def Num.rsqrt (x : Num) : Flagged :=
  match x with
  | .nan _ => nanOf [x]
  | .inf n => if n then invalid else (.zero false, 0)
  | .fin n a d e =>
    if a = 0 then (.inf n, flDivZero)
    else if n then invalid
    else (finSqrt 200 d a (-e), 0)

/-- Successive square roots of 2, in units of 2^-320, that a fraction's bits select: their product approximates 2^f. -/
def powBits (f : Nat) : Nat → Nat → Nat → Nat
  | 0, _, acc => acc
  | n + 1, root, acc =>
    let root := isqrt (root * 2 ^ 320)
    powBits f n root (if f / 2 ^ n % 2 = 1 then acc * root / 2 ^ 320 else acc)

/-- 2^x (R193): exact for an integer, else a value whose rounding to 24 bits is that of the exact one. -/
def Num.exp2 (x : Num) : Flagged :=
  match x with
  | .nan _ => nanOf [x]
  | .inf n => (if n then .zero false else .inf false, 0)
  | .fin n a d e =>
    let t : Int := (if n then -1 else 1) * ((a * 2 ^ (e + 160).toNat / d : Nat) : Int)
    let i := t / 2 ^ 160
    let f := (t % 2 ^ 160).toNat
    if f = 0 then (.fin false 1 1 (max (min i 1000) (-1000)), 0)
    else (.fin false (2 * powBits f 160 (2 ^ 321) (2 ^ 320) + 1) 1 (max (min i 1000) (-1000) - 321), 0)

/-- The next `n` fraction bits of log2 of a value from 1 to 2 in units of 2^-320, by repeated squaring. -/
def logBits : Nat → Nat → Nat → Nat
  | 0, _, acc => acc
  | n + 1, y, acc =>
    let y := y * y / 2 ^ 320
    if y ≥ 2 ^ 321 then logBits n (y / 2) (2 * acc + 1) else logBits n y (2 * acc)

/-- log2 x (R193): exact for a power of two, else a value whose rounding to 24 bits is that of the exact one. -/
def Num.log2 (x : Num) : Flagged :=
  match x with
  | .nan _ => nanOf [x]
  | .inf n => if n then invalid else (.inf false, 0)
  | .fin n a _ e =>
    if a = 0 then (.inf true, flDivZero)
    else if n then invalid
    else
      let k := Nat.log2 a
      let i : Int := e + k
      if a = 2 ^ k then ((if i = 0 then .zero false else .ofInt i), 0)
      else
        let f := logBits 120 (a * 2 ^ 320 / 2 ^ k) 0
        let t : Int := 2 * (i * 2 ^ 120 + f) + 1
        (.fin (t < 0) t.natAbs 1 (-121), 0)

/-- The minimum of IEEE 754-2019: NaN for a NaN, −0 below +0 (R193). -/
def Num.minimum (x y : Num) : Flagged :=
  if x.isNan || y.isNan then nanOf [x, y]
  else if x.lt y then (x, 0) else if y.lt x then (y, 0) else if x.neg then (x, 0) else (y, 0)
/-- The maximum. -/
def Num.maximum (x y : Num) : Flagged :=
  if x.isNan || y.isNan then nanOf [x, y]
  else if x.lt y then (y, 0) else if y.lt x then (x, 0) else if x.neg then (y, 0) else (x, 0)

/-- A floating-point format: exponent and mantissa bits, bias, largest finite value as an integer times a power of two, whether
it has Inf, the NaN the device writes, whether ftz applies (R170 to R172). -/
structure Format where
  ebits : Nat
  mbits : Nat
  bias : Int
  maxInt : Nat
  maxExp : Int
  hasInf : Bool
  nanCode : Nat
  flushes : Bool
  deriving DecidableEq, Repr

/-- FP32. -/
def fp32 : Format := ⟨8, 23, 127, 2 ^ 24 - 1, 104, true, 0x7FC00000, true⟩
/-- BF16. -/
def bf16 : Format := ⟨8, 7, 127, 255, 120, true, 0x7FC0, true⟩
/-- FP16. -/
def fp16 : Format := ⟨5, 10, 15, 2047, 5, true, 0x7E00, true⟩
/-- FP8 E4M3: no Inf; 448 is the largest finite value (R171). -/
def e4m3 : Format := ⟨4, 3, 7, 14, 5, false, 0x7F, false⟩
/-- FP8 E5M2. -/
def e5m2 : Format := ⟨5, 2, 15, 7, 13, true, 0x7E, false⟩
/-- FP4 E2M1: neither Inf nor NaN (R170). -/
def fp4 : Format := ⟨2, 1, 1, 3, 1, false, 0, false⟩

/-- The width of a format. -/
def Format.width (f : Format) : Nat := 1 + f.ebits + f.mbits

/-- Decode a code of a format (R170 to R172): NaN where the format has one, an input subnormal under ftz as zero. -/
def Format.decode (f : Format) (ftz : Bool) (code : Nat) : Num :=
  let m := code % 2 ^ f.mbits
  let e := code / 2 ^ f.mbits % 2 ^ f.ebits
  let n := code / 2 ^ (f.mbits + f.ebits) % 2 == 1
  let top := e == 2 ^ f.ebits - 1
  if f.hasInf && top then (if m = 0 then .inf n else .nan (f.ebits ≠ 5 && m < 2 ^ (f.mbits - 1) || f.mbits == 10 && m < 512))
  else if f.ebits == 4 && top && m == 7 then .nan false
  else if e = 0 then (if ftz && f.flushes then .zero n else .fin n m 1 (1 - f.bias - f.mbits))
  else .fin n (2 ^ f.mbits + m) 1 (e - f.bias - f.mbits)

/-- The code of a sign and an integer times 2^q within the format. -/
def Format.encode (f : Format) (neg : Bool) (ip : Nat) (q : Int) : Nat :=
  let s := if neg then 2 ^ (f.ebits + f.mbits) else 0
  if ip < 2 ^ f.mbits then s + ip else s + (q + f.mbits + f.bias).toNat * 2 ^ f.mbits + (ip - 2 ^ f.mbits)

/-- The code of an infinity. -/
def Format.infCode (f : Format) (neg : Bool) : Nat :=
  (if neg then 2 ^ (f.ebits + f.mbits) else 0) + (2 ^ f.ebits - 1) * 2 ^ f.mbits

/-- Does a magnitude with a nonzero remainder r ÷ d above the integer ip round up (R181, R182)? Mode 4 takes the draw u. -/
def roundsUp (mode : Nat) (neg : Bool) (ip r d u : Nat) : Bool :=
  match mode with
  | 0 => 2 * r > d || (2 * r == d && ip % 2 == 1)
  | 1 => false
  | 2 => neg
  | 3 => !neg
  | _ =>
    let f := if neg then d - r else r
    (u * d < f * 2 ^ 32) != neg

/-- The floor of log2 of num ÷ den. -/
def ratioLog2 (num den : Nat) : Int :=
  let k : Int := (Nat.log2 num : Int) - Nat.log2 den
  if upBy num (-k) < upBy den k then k - 1 else k

/-- num ÷ den × 2^k as an integer part, a remainder and its divisor. -/
def splitAt (num den : Nat) (k : Int) : Nat × Nat × Nat :=
  let n := upBy num k
  let d := upBy den (-k)
  (n / d, n % d, d)

/-- Round a finite value to a format (R181, R193: tininess before rounding; R172: ftz). `u` is the draw of mode 4; without one
mode 4 acts as RNE. -/
def roundFin (f : Format) (mode : Nat) (ftz : Bool) (u : Option Nat) (neg : Bool) (num den : Nat) (exp : Int) : Nat × Nat :=
  let flush := ftz && f.flushes
  if num = 0 then (f.encode neg 0 0, if flush then flUnderflow else 0)
  else
    let tooBig := upBy num (exp - f.maxExp) > upBy (den * f.maxInt) (f.maxExp - exp)
    if tooBig && !f.hasInf then (f.encode neg f.maxInt f.maxExp, flOor + flInexact)
    else
      let mode := if mode = 4 && (tooBig || u.isNone) then 0 else mode
      let e := exp + ratioLog2 num den
      let emin := 1 - f.bias
      let tiny := e < emin
      if tiny && flush then (f.encode neg 0 0, flUnderflow + flInexact)
      else
        let q := max e emin - f.mbits
        let (ip, r, d) := splitAt num den (exp - q)
        let ip := if r ≠ 0 && roundsUp mode neg ip r d (u.getD 0) then ip + 1 else ip
        let fl := (if r ≠ 0 then flInexact else 0) + (if r ≠ 0 && tiny then flUnderflow else 0)
        let (ip, q) := if ip = 2 ^ (f.mbits + 1) then (ip / 2, q + 1) else (ip, q)
        if q > f.maxExp || (q == f.maxExp && ip > f.maxInt) then
          let toInf := mode == 0 || (mode == 2 && neg) || (mode == 3 && !neg)
          (if toInf then f.infCode neg else f.encode neg f.maxInt f.maxExp, flOverflow + flInexact)
        else (f.encode neg ip q, fl)

/-- round_M_F (R181): the code and the flags. -/
def Format.round (f : Format) (mode : Nat) (ftz : Bool) (u : Option Nat) (x : Num) : Nat × Nat :=
  match x with
  | .nan s => (f.nanCode, (if f.hasInf then 0 else flOor) + (if s then flInvalid else 0))
  | .inf n => if f.hasInf then (f.infCode n, 0) else (f.encode n f.maxInt f.maxExp, flOor + flInexact)
  | .fin n a d e => roundFin f mode ftz u n a d e

/-- round_RNE to FP32, flushing nothing. -/
def rne32 (x : Num) : Nat := (fp32.round 0 false none x).1

/-- Round to an integer by mode, then clamp (R181, R200): the integer, whether rounding changed it, whether it was clamped. -/
def roundInt (lo hi : Int) (mode : Nat) (u : Option Nat) (neg : Bool) (num den : Nat) (exp : Int) : Int × Bool × Bool :=
  let mode := if mode = 4 && u.isNone then 0 else mode
  let (ip, r, d) := splitAt num den exp
  let ip := if r ≠ 0 && roundsUp mode neg ip r d (u.getD 0) then ip + 1 else ip
  let x : Int := if neg then -(ip : Int) else ip
  if x < lo then (lo, r ≠ 0, true) else if hi < x then (hi, r ≠ 0, true) else (x, r ≠ 0, false)

/-- The INT8 and INT4X rows of R181 (lo = −128 or −7). -/
def roundNarrow (lo hi : Int) (mode : Nat) (u : Option Nat) (x : Num) : Int × Nat :=
  match x with
  | .nan s => (0, flOor + (if s then flInvalid else 0))
  | .inf n => (if n then lo else hi, flOor + flInexact)
  | .fin n a d e =>
    let (i, chg, clamp) := roundInt lo hi mode u n a d e
    (i, if clamp then flOor + flInexact else if chg then flInexact else 0)

/-- The .s32 and .s16 targets of vcvt (R200): a clamp or NaN sets oor and invalid. -/
def roundWide (lo hi : Int) (mode : Nat) (x : Num) : Int × Nat :=
  match x with
  | .nan _ => (0, flOor + flInvalid)
  | .inf n => (if n then lo else hi, flOor + flInvalid)
  | .fin n a d e =>
    let (i, chg, clamp) := roundInt lo hi mode none n a d e
    (i, if clamp then flOor + flInvalid else if chg then flInexact else 0)

/-- One step of the LFSR (R182). -/
def lfsrStep (s : Nat) : Nat := if s % 2 = 1 then (s / 2) ^^^ 0x80200003 else s / 2

/-- A block scale of code e in E8M0 (R174). -/
def e8m0 (code : Nat) : Num := if code = 255 then .nan false else .fin false 1 1 ((code : Int) - 127)

/-- The contribution of an element product under the block scales (R175), flags aside: element × element × σ. -/
def scaledProduct (a b sa sb : Num) : Num :=
  let p := (a.mul b).1
  let g := (sa.mul sb).1
  if a.isNan || b.isNan || sa.isNan || sb.isNan then .nan false
  else if (sa.isInf && sb.isZero) || (sb.isInf && sa.isZero) then .nan false
  else if (a.isInf && b.isZero) || (b.isInf && a.isZero) then .nan false
  else if (p.isInf && g.isZero) || (p.isZero && g.isInf) then .nan false
  else (p.mul g).1

/-- The elements of an INT4X block image (R173): their values, whether a scale was NaN, whether the block is bad. -/
def int4xAux (codes : List Nat) (outliers : List Nat) (scale : Num) : List Num × Bool :=
  match codes with
  | [] => ([], false)
  | c :: r =>
    if c = 8 then
      match outliers with
      | o :: os =>
        let (l, bad) := int4xAux r os scale
        (((e4m3.decode false o).mul scale).1 :: l, bad)
      | [] => let (l, _) := int4xAux r [] scale; (.nan false :: l, true)
    else
      let (l, bad) := int4xAux r outliers scale
      (((Num.ofInt (if c < 8 then c else (c : Int) - 16)).mul scale).1 :: l, bad)

/-- The 4-bit codes of a list of bytes, low nibble first. -/
def nibbles (l : List Byte) : List Nat := l.flatMap fun b => [b.toNat % 16, b.toNat / 16]

/-- Decode an INT4X block of 20 bytes (R173): its values, a NaN scale, a bad block. -/
def int4xDecode (b : List Byte) : List Num × Bool × Bool :=
  let byte (i : Nat) : Nat := (nth b i 0).toNat
  let (l, bad) := int4xAux (nibbles (b.take 16)) [byte 17, byte 18] (e8m0 (byte 16))
  if byte 19 ≠ 0 then (List.replicate 32 (.nan false), byte 16 == 255, true) else (l, byte 16 == 255, bad)

end Sys2Proof.Machine
end

