-- ==== Sys2Proof/Machine/Flags.lean ====
section
/-! DEFINITION. The floating-point flags and enables of sr.fpmode (R180, R189): flags are the numbers flInvalid to flOor. -/

namespace Sys2Proof.Machine

/-- The rounding mode of a core. -/
def rmOf (fpmode : Word) : Nat := fieldOf fpmode 2 0
/-- The rounding mode for results that are not narrow conversions: stochastic reads as RNE (R180). -/
def rmPlain (fpmode : Word) : Nat := if rmOf fpmode = 4 then 0 else rmOf fpmode
/-- Are subnormals flushed? -/
def ftzOf (fpmode : Word) : Bool := bitOf fpmode 3
/-- Is the mode RDN, which gives an exact zero sum its sign (R5)? -/
def rdnOf (fpmode : Word) : Bool := rmOf fpmode == 2

/-- Set flags, whatever the enables hold (R180). -/
def setFlags (fpmode : Word) (fl : Nat) : Word := fpmode ||| atBit (fl % 64) 16

/-- The lowest cause that flags raise under ven: 0x35 to 0x39 (R180, R189). -/
def flagCause (fpmode : Word) (fl : Nat) : Option Nat :=
  ((List.range 5).find? fun i => fl / 2 ^ i % 2 == 1 && bitOf fpmode (8 + i)).map (0x35 + ·)

/-- The lowest of the causes that a command produced. -/
def lowest (l : List Nat) : Option Nat := l.foldl (fun b c => match b with | none => some c | some x => some (min x c)) none

/-- Or the flags of a list. -/
def orFlags (l : List Nat) : Nat := l.foldl (· ||| ·) 0

end Sys2Proof.Machine
end

