-- ==== Sys2Proof/WellFormed.lean ====
section
/-! DEFINITION. Which instructions are well formed: the operand values the encoding tables assign (the others are
undefined encodings, cause 0x00), and the reserved fields whose condition depends on another field (cause 0x01). -/

namespace Sys2Proof

/-- The bits of one element of a vector element type (R20). -/
def elBits (e : Nat) : Nat :=
  match e with
  | 0 | 5 => 32
  | 1 | 2 | 6 => 16
  | 3 | 4 | 7 => 8
  | _ => 4

/-- How many parts a conversion between two formats has (R200). -/
def partsOf (t e : Nat) : Nat := max (elBits t) (elBits e) / min (elBits t) (elBits e)

/-- The element types 0 to 2, F of R192. -/
def elFloat (e : BitVec 3) : Bool := e.toNat ≤ 2

/-- The element types 0 to 2 and 5 to 7, F and I of R192. -/
def elArith (e : BitVec 3) : Bool := e.toNat ≤ 2 || 5 ≤ e.toNat

/-- The element types 5 to 7, I of R192. -/
def elInt (e : BitVec 3) : Bool := 5 ≤ e.toNat

/-- The element types .f32 and .s32. -/
def el32 (e : BitVec 3) : Bool := e.toNat == 0 || e.toNat == 5

/-- Is the number one that R412 assigns to a system register? -/
def assignedRegister (n : BitVec 16) : Bool :=
  n.toNat ≤ 0x23 || (0x100 ≤ n.toNat && n.toNat ≤ 0x127) || (0x200 ≤ n.toNat && n.toNat ≤ 0x216)

/-- Are the operand values of an encoded instruction assigned? Where not, its word is an undefined encoding (R25),
cause 0x00: R19, R66, R91, R115, R143, R192, R197, R199, R200, R203, R221, R248, R299, R345, R411. -/
def Instr.defined : Instr → Bool
  | .loop _ i => 2 ≤ i.toNat
  | .lee n => 1 ≤ n.toNat && n.toNat ≤ 32
  | .ld _ _ s _ => s.toNat != 7
  | .st _ _ s _ => s.toNat != 7
  | .ldx _ _ _ _ s => s.toNat != 7
  | .stx _ _ _ _ s => s.toNat != 7
  | .carve k => 1 ≤ k.toNat && k.toNat ≤ 8
  | .wret _ _ _ k => k.toNat ≤ 4
  | .fence s => s.toNat ≤ 4
  | .lda _ _ p z => p.toNat ≤ 4 && z.toNat != 7
  | .stl _ _ p z => p.toNat ≤ 4 && z.toNat != 7
  | .send _ _ _ k => k.toNat ≤ 8
  | .sendG _ _ _ _ k => k.toNat ≤ 6
  | .sendn _ _ _ _ k => k.toNat ≤ 8
  | .sendo _ _ _ k => k.toNat ≤ 8
  | .sendoG _ _ _ _ k => k.toNat ≤ 6
  | .pst _ _ _ s => s.toNat != 7
  | .vadd _ _ _ _ e => elArith e
  | .vsub _ _ _ _ e => elArith e
  | .vmul _ _ _ _ e => elArith e
  | .vfma _ _ _ _ e => elArith e
  | .vfms _ _ _ _ e => elArith e
  | .vmin _ _ _ _ e => elArith e
  | .vmax _ _ _ _ e => elArith e
  | .vabs _ _ _ e => elArith e
  | .vneg _ _ _ e => elArith e
  | .vcmpEq _ _ _ _ e => elArith e
  | .vcmpNe _ _ _ _ e => elArith e
  | .vcmpLt _ _ _ _ e => elArith e
  | .vcmpLe _ _ _ _ e => elArith e
  | .vshl _ _ _ _ e => elInt e
  | .vshr _ _ _ _ e => elInt e
  | .vmovToG _ _ k e => k.toNat < 512 / elBits e.toNat
  | .vgat _ _ _ _ _ e => el32 e
  | .vsca _ _ _ _ _ e => el32 e
  | .vcvt _ _ p _ t e =>
    t.toNat ≤ 8 && t.toNat != e.toNat &&
      p.toNat < partsOf t.toNat e.toNat
  | .vcvtFromFp4 _ _ p _ e => p.toNat < elBits e.toNat / 4
  | .vquantFp4 _ _ _ q => 10 ≤ q.toNat && q.toNat ≤ 15
  | .vdeqFp4 _ _ _ _ q e => 17 ≤ q.toNat && q.toNat ≤ 22 && e.toNat ≤ 1
  | .vdeqInt4x _ _ _ _ e => e.toNat ≤ 1
  | .vredSum _ _ _ e => elArith e
  | .vredMax _ _ _ e => elArith e
  | .vredMin _ _ _ e => elArith e
  | .vtopk _ _ _ _ e => el32 e
  | .vargmax _ _ _ e => elArith e
  | .mrd _ _ _ z f => f.toNat ≤ 1 || (f.toNat == 2 && z == 0)
  | .xsend _ _ p bk => !(p == 1 && bk == 0)
  | .xq _ _ k => k.toNat ≤ 8
  | .rdsr _ n => assignedRegister n
  | .wrsr _ n => assignedRegister n
  | _ => true

/-- The reserved fields that depend on another field: FRAME's count with a count register (R21), the half of a .bf16
vdeq (R202), the row stride of mrd .raw (R221). -/
def Instr.reservedZero : Instr → Bool
  | .frame _ ra _ cnt _ => ra == 0 || cnt == 0
  | .vdeqFp4 _ _ h _ _ e => e.toNat == 0 || h == 0
  | .vdeqInt4x _ _ h _ e => e.toNat == 0 || h == 0
  | .mrd _ b _ _ f => f.toNat != 2 || b == 0
  | _ => true

/-- Has the instruction a word? The events of the opcode table have none. -/
def Instr.encoded : Instr → Bool
  | .dozeTimeout .. => false
  | .vectorCommandPerform .. => false
  | .engineCompletionDelivery .. => false
  | .arrayGrant .. => false
  | .tileFetchGrant .. => false
  | .matRetire .. => false
  | .selectorToken .. => false
  | .selectorTokenRelease .. => false
  | .selectorStepClose .. => false
  | .replicaFillComplete .. => false
  | .joinEntryArrival .. => false
  | .joinAdd .. => false
  | .updateCopyComplete .. => false
  | .replicaGone .. => false
  | .expertWalkRetry .. => false
  | .sortEnginePerform .. => false
  | .rputArrival .. => false
  | .reduceChunkArrival .. => false
  | .reduceDeadline .. => false
  | .registerWrite .. => false
  | .storeBufferDrain .. => false
  | .blockPlacement .. => false
  | .blockEnd .. => false
  | .taskStart .. => false
  | .urgentPreempt .. => false
  | .urgentHoldExpiry .. => false
  | .leeWindowExpiry .. => false
  | .actorFire .. => false
  | .slackWaterPark .. => false
  | .shipContextArrival .. => false
  | .ebb .. => false
  | .flood .. => false
  | .dirRds .. => false
  | .dirRdx .. => false
  | .dirWb .. => false
  | .dirCe .. => false
  | .dirInvack .. => false
  | .dirOwnerReply .. => false
  | .ownerFwds .. => false
  | .ownerFwdx .. => false
  | .ownerRecall .. => false
  | .inv .. => false
  | .recallSlow .. => false
  | .hostMemRequest .. => false
  | .copyCommandPerform .. => false
  | .streamElement .. => false
  | .messageArrival .. => false
  | .bounce .. => false
  | .creditArrival .. => false
  | .postedStoreArrival .. => false
  | .nibbleStoreArrival .. => false
  | .cgetRequest .. => false
  | .journalAck .. => false
  | .journalRefusal .. => false
  | .ackTimeout .. => false
  | .spillRetry .. => false
  | .linlosArrival .. => false
  | .flitCrcFail .. => false
  | .linkRetrain .. => false
  | .tidePoolHoldExpiry .. => false
  | .lnkctlFence .. => false
  | .lnkctlQuiesce .. => false
  | .lnkctlDrain .. => false
  | .lnkctlClear .. => false
  | .lnkctlEpadv .. => false
  | .timeSyncLoss .. => false
  | .tideTransit .. => false
  | .pathDown .. => false
  | .peerDown .. => false
  | .peerUp .. => false
  | .orderedFlagArrival .. => false
  | .orderedFlagRelease .. => false
  | .gownWrite .. => false
  | .gjoinJoin .. => false
  | .gjoinLeave .. => false
  | .groupWatchdogExpiry .. => false
  | .gateAppend .. => false
  | .trapAction .. => false
  | .trapRecordDelivery .. => false
  | .tselWrite .. => false
  | .tctlResume .. => false
  | .tctlSkip .. => false
  | .tctlKill .. => false
  | .tctlHalt .. => false
  | .tctlStep .. => false
  | .tctlIcache .. => false
  | .coreWatchdog .. => false
  | .pmapWrite .. => false
  | .pasidWrite .. => false
  | .rcoreRun .. => false
  | .gangSwitch .. => false
  | .gangSwitchOverrun .. => false
  | .deviceReset => false
  | .hostReset => false
  | .hostLinkLoss => false
  | .prgResponse .. => false
  | .firmwareGo => false
  | .attestGo => false
  | .attestReportReady => false
  | .launchWindowWrite .. => false
  | .hourBoundary => false
  | .memoryError .. => false
  | .throttleStart => false
  | .throttleEnd => false
  | .hostLinkReturn => false
  | .pathUp .. => false
  | .cxlCacheInvalidation .. => false
  | .bringUpComplete .. => false
  | _ => true

/-- An instruction whose word the device accepts. -/
def WellFormed (i : Instr) : Bool := i.encoded && i.defined && i.reservedZero

end Sys2Proof
end

