-- ==== Sys2Proof/Decode.lean ====
section
/-! DEFINITION. The decoder and the encoder of the instruction words (spec/02, R15 to R27, and the encoding tables of
each chapter). A word decodes in two stages, as R27 orders them: first which instruction it names (none: the
undefined encoding of step 5, cause 0x00), then whether its reserved fields are zero (step 6, cause 0x01). -/

namespace Sys2Proof

/-- What the first word of an instruction names, and whether its reserved fields are zero. -/
abbrev Decoded := Option (Instr × Bool)

/-- Major 0x00 (R24), by bits [25:21]. -/
def decodeSys (k : Nat) (w : BitVec 32) : Decoded :=
  match k with
  | 1 => some (.trap (w.extractLsb' 0 6), w.extractLsb' 6 15 == 0)
  | 2 => some (.sys (w.extractLsb' 0 6), w.extractLsb' 6 15 == 0)
  | 3 => some (.brk (w.extractLsb' 0 6), w.extractLsb' 6 15 == 0)
  | 4 => some (.rdsr (w.extractLsb' 16 5) (w.extractLsb' 0 16), true)
  | 5 => some (.wrsr (w.extractLsb' 16 5) (w.extractLsb' 0 16), true)
  | _ => none

/-- Major 0x01 (R24), by bits [10:6]. -/
def decodeAlu (k : Nat) (w : BitVec 32) : Decoded :=
  match k with
  | 0 => some (.add (w.extractLsb' 21 5) (w.extractLsb' 16 5) (w.extractLsb' 11 5), w.extractLsb' 0 6 == 0)
  | 1 => some (.sub (w.extractLsb' 21 5) (w.extractLsb' 16 5) (w.extractLsb' 11 5), w.extractLsb' 0 6 == 0)
  | 2 => some (.mul (w.extractLsb' 21 5) (w.extractLsb' 16 5) (w.extractLsb' 11 5), w.extractLsb' 0 6 == 0)
  | 3 => some (.mulh (w.extractLsb' 21 5) (w.extractLsb' 16 5) (w.extractLsb' 11 5), w.extractLsb' 0 6 == 0)
  | 4 => some (.mulhz (w.extractLsb' 21 5) (w.extractLsb' 16 5) (w.extractLsb' 11 5), w.extractLsb' 0 6 == 0)
  | 5 => some (.div (w.extractLsb' 21 5) (w.extractLsb' 16 5) (w.extractLsb' 11 5), w.extractLsb' 0 6 == 0)
  | 6 => some (.divz (w.extractLsb' 21 5) (w.extractLsb' 16 5) (w.extractLsb' 11 5), w.extractLsb' 0 6 == 0)
  | 7 => some (.rem (w.extractLsb' 21 5) (w.extractLsb' 16 5) (w.extractLsb' 11 5), w.extractLsb' 0 6 == 0)
  | 8 => some (.remz (w.extractLsb' 21 5) (w.extractLsb' 16 5) (w.extractLsb' 11 5), w.extractLsb' 0 6 == 0)
  | 9 => some (.and (w.extractLsb' 21 5) (w.extractLsb' 16 5) (w.extractLsb' 11 5), w.extractLsb' 0 6 == 0)
  | 10 => some (.or (w.extractLsb' 21 5) (w.extractLsb' 16 5) (w.extractLsb' 11 5), w.extractLsb' 0 6 == 0)
  | 11 => some (.xor (w.extractLsb' 21 5) (w.extractLsb' 16 5) (w.extractLsb' 11 5), w.extractLsb' 0 6 == 0)
  | 12 => some (.andn (w.extractLsb' 21 5) (w.extractLsb' 16 5) (w.extractLsb' 11 5), w.extractLsb' 0 6 == 0)
  | 13 => some (.orn (w.extractLsb' 21 5) (w.extractLsb' 16 5) (w.extractLsb' 11 5), w.extractLsb' 0 6 == 0)
  | 14 => some (.shl (w.extractLsb' 21 5) (w.extractLsb' 16 5) (w.extractLsb' 11 5), w.extractLsb' 0 6 == 0)
  | 15 => some (.shr (w.extractLsb' 21 5) (w.extractLsb' 16 5) (w.extractLsb' 11 5), w.extractLsb' 0 6 == 0)
  | 16 => some (.sha (w.extractLsb' 21 5) (w.extractLsb' 16 5) (w.extractLsb' 11 5), w.extractLsb' 0 6 == 0)
  | 17 => some (.rol (w.extractLsb' 21 5) (w.extractLsb' 16 5) (w.extractLsb' 11 5), w.extractLsb' 0 6 == 0)
  | 18 => some (.ror (w.extractLsb' 21 5) (w.extractLsb' 16 5) (w.extractLsb' 11 5), w.extractLsb' 0 6 == 0)
  | 19 => some (.slt (w.extractLsb' 21 5) (w.extractLsb' 16 5) (w.extractLsb' 11 5), w.extractLsb' 0 6 == 0)
  | 20 => some (.sltz (w.extractLsb' 21 5) (w.extractLsb' 16 5) (w.extractLsb' 11 5), w.extractLsb' 0 6 == 0)
  | 21 => some (.seq (w.extractLsb' 21 5) (w.extractLsb' 16 5) (w.extractLsb' 11 5), w.extractLsb' 0 6 == 0)
  | 22 => some (.min (w.extractLsb' 21 5) (w.extractLsb' 16 5) (w.extractLsb' 11 5), w.extractLsb' 0 6 == 0)
  | 23 => some (.max (w.extractLsb' 21 5) (w.extractLsb' 16 5) (w.extractLsb' 11 5), w.extractLsb' 0 6 == 0)
  | 24 => some (.minz (w.extractLsb' 21 5) (w.extractLsb' 16 5) (w.extractLsb' 11 5), w.extractLsb' 0 6 == 0)
  | 25 => some (.maxz (w.extractLsb' 21 5) (w.extractLsb' 16 5) (w.extractLsb' 11 5), w.extractLsb' 0 6 == 0)
  | 26 => some (.clz (w.extractLsb' 21 5) (w.extractLsb' 16 5), w.extractLsb' 11 5 == 0 && w.extractLsb' 0 6 == 0)
  | 27 => some (.ctz (w.extractLsb' 21 5) (w.extractLsb' 16 5), w.extractLsb' 11 5 == 0 && w.extractLsb' 0 6 == 0)
  | 28 => some (.popc (w.extractLsb' 21 5) (w.extractLsb' 16 5), w.extractLsb' 11 5 == 0 && w.extractLsb' 0 6 == 0)
  | 29 => some (.bswap (w.extractLsb' 21 5) (w.extractLsb' 16 5), w.extractLsb' 11 5 == 0 && w.extractLsb' 0 6 == 0)
  | _ => none

/-- Major 0x08 (R24), by bits [7:6]. -/
def decodeShi (k : Nat) (w : BitVec 32) : Decoded :=
  match k with
  | 0 => some (.shli (w.extractLsb' 21 5) (w.extractLsb' 16 5) (w.extractLsb' 0 6), w.extractLsb' 8 8 == 0)
  | 1 => some (.shri (w.extractLsb' 21 5) (w.extractLsb' 16 5) (w.extractLsb' 0 6), w.extractLsb' 8 8 == 0)
  | 2 => some (.shai (w.extractLsb' 21 5) (w.extractLsb' 16 5) (w.extractLsb' 0 6), w.extractLsb' 8 8 == 0)
  | 3 => some (.roli (w.extractLsb' 21 5) (w.extractLsb' 16 5) (w.extractLsb' 0 6), w.extractLsb' 8 8 == 0)
  | _ => none

/-- Major 0x0B (R24), by bits [10:7]. -/
def decodeBitf (k : Nat) (w : BitVec 32) : Decoded :=
  match k with
  | 0 => some (.ext (w.extractLsb' 21 5) (w.extractLsb' 16 5) (w.extractLsb' 11 5) (w.extractLsb' 6 1) (w.extractLsb' 0 6), true)
  | 1 => some (.extz (w.extractLsb' 21 5) (w.extractLsb' 16 5) (w.extractLsb' 11 5) (w.extractLsb' 6 1) (w.extractLsb' 0 6), true)
  | 2 => some (.ins (w.extractLsb' 21 5) (w.extractLsb' 16 5) (w.extractLsb' 11 5) (w.extractLsb' 6 1) (w.extractLsb' 0 6), true)
  | _ => none

/-- Major 0x14 (R24), by bits [10:6]. -/
def decodeJr (k : Nat) (w : BitVec 32) : Decoded :=
  match k with
  | 0 => some (.jr (w.extractLsb' 21 5) (w.extractLsb' 16 5), w.extractLsb' 11 5 == 0 && w.extractLsb' 0 6 == 0)
  | _ => none

/-- Major 0x17 (R24), by bits [25:21]. -/
def decodeQop (k : Nat) (w : BitVec 32) : Decoded :=
  match k with
  | 0 => some (.qget (w.extractLsb' 16 5) (w.extractLsb' 11 3), w.extractLsb' 14 2 == 0 && w.extractLsb' 0 11 == 0)
  | 1 => some (.qset (w.extractLsb' 16 5) (w.extractLsb' 11 3), w.extractLsb' 14 2 == 0 && w.extractLsb' 0 11 == 0)
  | 2 => some (.qlen (w.extractLsb' 16 5) (w.extractLsb' 11 3), w.extractLsb' 14 2 == 0 && w.extractLsb' 0 11 == 0)
  | 3 => some (.bqp (w.extractLsb' 16 5), w.extractLsb' 0 16 == 0)
  | 4 => some (.bqb (w.extractLsb' 0 16), w.extractLsb' 16 5 == 0)
  | _ => none

/-- Major 0x18 (R24), by bits [25:21]. -/
def decodeSplit (k : Nat) (w : BitVec 32) : Decoded :=
  match k with
  | 0 => some (.split (w.extractLsb' 0 21), true)
  | 1 => some (.aend, w.extractLsb' 0 21 == 0)
  | _ => none

/-- Major 0x19 (R24), by bits [25:21]. -/
def decodeTask (k : Nat) (w : BitVec 32) : Decoded :=
  match k with
  | 0 => some (.spawn (w.extractLsb' 16 5), w.extractLsb' 0 16 == 0)
  | 1 => some (.fork (w.extractLsb' 16 5) (w.extractLsb' 0 16), true)
  | 2 => some (.join (w.extractLsb' 16 5) (w.extractLsb' 0 16), true)
  | 3 => some (.done, w.extractLsb' 0 21 == 0)
  | 4 => some (.yield, w.extractLsb' 0 21 == 0)
  | 5 => some (.lee (w.extractLsb' 0 6), w.extractLsb' 6 15 == 0)
  | 6 => some (.areg (w.extractLsb' 16 5) (w.extractLsb' 0 3), w.extractLsb' 3 13 == 0)
  | 7 => some (.lnch (w.extractLsb' 16 5) (w.extractLsb' 6 4) (w.extractLsb' 0 6), w.extractLsb' 10 6 == 0)
  | _ => none

/-- Major 0x1E (R24), by bits [6:6]. -/
def decodeLsc3 (k : Nat) (w : BitVec 32) : Decoded :=
  match k with
  | 0 => some (.l1fl (w.extractLsb' 16 5), w.extractLsb' 7 9 == 0 && w.extractLsb' 0 6 == 0)
  | 1 => some (.l1flAll, w.extractLsb' 7 14 == 0 && w.extractLsb' 0 6 == 0)
  | _ => none

/-- Major 0x1E (R24), by bits [25:21]. -/
def decodeLsc (k : Nat) (w : BitVec 32) : Decoded :=
  match k with
  | 0 => some (.carve (w.extractLsb' 0 4), w.extractLsb' 4 17 == 0)
  | 1 => some (.pool (w.extractLsb' 16 5), w.extractLsb' 0 16 == 0)
  | 2 => some (.pref (w.extractLsb' 16 5) (w.extractLsb' 6 1) (w.extractLsb' 0 6), w.extractLsb' 7 9 == 0)
  | 3 => decodeLsc3 (w.extractLsb' 6 1).toNat w
  | _ => none

/-- Major 0x1F (R24), by bits [1:0]. -/
def decodePage1 (k : Nat) (w : BitVec 32) : Decoded :=
  match k with
  | 0 => some (.tlbiVa (w.extractLsb' 16 5) (w.extractLsb' 11 5), w.extractLsb' 2 9 == 0)
  | 1 => some (.tlbiAsid (w.extractLsb' 11 5), w.extractLsb' 16 5 == 0 && w.extractLsb' 2 9 == 0)
  | 2 => some (.tlbiAll, w.extractLsb' 2 19 == 0)
  | _ => none

/-- Major 0x1F (R24), by bits [25:21]. -/
def decodePage (k : Nat) (w : BitVec 32) : Decoded :=
  match k with
  | 0 => some (.tlbw (w.extractLsb' 16 5) (w.extractLsb' 11 5) (w.extractLsb' 6 5), w.extractLsb' 0 6 == 0)
  | 1 => decodePage1 (w.extractLsb' 0 2).toNat w
  | 2 => some (.wret (w.extractLsb' 16 5) (w.extractLsb' 11 5) (w.extractLsb' 6 5) (w.extractLsb' 0 3), w.extractLsb' 3 3 == 0)
  | 3 => some (.regdone (w.extractLsb' 16 5) (w.extractLsb' 11 5) (w.extractLsb' 6 5), w.extractLsb' 0 6 == 0)
  | _ => none

/-- Major 0x20 (R24), by bits [10:6]. -/
def decodeAmo (k : Nat) (w : BitVec 32) : Decoded :=
  match k with
  | 0 => some (.amoAdd (w.extractLsb' 21 5) (w.extractLsb' 16 5) (w.extractLsb' 11 5) (w.extractLsb' 2 1) (w.extractLsb' 1 1) (w.extractLsb' 0 1), w.extractLsb' 3 3 == 0)
  | 1 => some (.amoMin (w.extractLsb' 21 5) (w.extractLsb' 16 5) (w.extractLsb' 11 5) (w.extractLsb' 2 1) (w.extractLsb' 1 1) (w.extractLsb' 0 1), w.extractLsb' 3 3 == 0)
  | 2 => some (.amoMax (w.extractLsb' 21 5) (w.extractLsb' 16 5) (w.extractLsb' 11 5) (w.extractLsb' 2 1) (w.extractLsb' 1 1) (w.extractLsb' 0 1), w.extractLsb' 3 3 == 0)
  | 3 => some (.amoMinz (w.extractLsb' 21 5) (w.extractLsb' 16 5) (w.extractLsb' 11 5) (w.extractLsb' 2 1) (w.extractLsb' 1 1) (w.extractLsb' 0 1), w.extractLsb' 3 3 == 0)
  | 4 => some (.amoMaxz (w.extractLsb' 21 5) (w.extractLsb' 16 5) (w.extractLsb' 11 5) (w.extractLsb' 2 1) (w.extractLsb' 1 1) (w.extractLsb' 0 1), w.extractLsb' 3 3 == 0)
  | 5 => some (.amoAnd (w.extractLsb' 21 5) (w.extractLsb' 16 5) (w.extractLsb' 11 5) (w.extractLsb' 2 1) (w.extractLsb' 1 1) (w.extractLsb' 0 1), w.extractLsb' 3 3 == 0)
  | 6 => some (.amoOr (w.extractLsb' 21 5) (w.extractLsb' 16 5) (w.extractLsb' 11 5) (w.extractLsb' 2 1) (w.extractLsb' 1 1) (w.extractLsb' 0 1), w.extractLsb' 3 3 == 0)
  | 7 => some (.amoXor (w.extractLsb' 21 5) (w.extractLsb' 16 5) (w.extractLsb' 11 5) (w.extractLsb' 2 1) (w.extractLsb' 1 1) (w.extractLsb' 0 1), w.extractLsb' 3 3 == 0)
  | 8 => some (.amoSwap (w.extractLsb' 21 5) (w.extractLsb' 16 5) (w.extractLsb' 11 5) (w.extractLsb' 2 1) (w.extractLsb' 1 1) (w.extractLsb' 0 1), w.extractLsb' 3 3 == 0)
  | 9 => some (.amoCas (w.extractLsb' 21 5) (w.extractLsb' 16 5) (w.extractLsb' 11 5) (w.extractLsb' 2 1) (w.extractLsb' 1 1) (w.extractLsb' 0 1), w.extractLsb' 3 3 == 0)
  | 10 => some (.amoFadd (w.extractLsb' 21 5) (w.extractLsb' 16 5) (w.extractLsb' 11 5) (w.extractLsb' 2 1) (w.extractLsb' 1 1) (w.extractLsb' 0 1), w.extractLsb' 3 3 == 0)
  | _ => none

/-- Major 0x21 (R24), by bits [25:21]. -/
def decodeL2c (k : Nat) (w : BitVec 32) : Decoded :=
  match k with
  | 0 => some (.l2fl (w.extractLsb' 16 5) (w.extractLsb' 0 1), w.extractLsb' 1 15 == 0)
  | 1 => some (.l2inv (w.extractLsb' 16 5) (w.extractLsb' 0 1), w.extractLsb' 1 15 == 0)
  | 2 => some (.rgrel (w.extractLsb' 16 5), w.extractLsb' 0 16 == 0)
  | 3 => some (.home (w.extractLsb' 16 5) (w.extractLsb' 11 5), w.extractLsb' 0 11 == 0)
  | _ => none

/-- Major 0x22 (R24), by bits [0:0]. -/
def decodeSync4 (k : Nat) (w : BitVec 32) : Decoded :=
  match k with
  | 0 => some (.watch (w.extractLsb' 16 5), w.extractLsb' 1 15 == 0)
  | 1 => some (.watchOff, w.extractLsb' 1 20 == 0)
  | _ => none

/-- Major 0x22 (R24), by bits [25:21]. -/
def decodeSync (k : Nat) (w : BitVec 32) : Decoded :=
  match k with
  | 0 => some (.fence (w.extractLsb' 0 3), w.extractLsb' 3 18 == 0)
  | 1 => some (.fenceAcks, w.extractLsb' 0 21 == 0)
  | 2 => some (.lda (w.extractLsb' 16 5) (w.extractLsb' 6 5) (w.extractLsb' 3 3) (w.extractLsb' 0 3), w.extractLsb' 11 5 == 0)
  | 3 => some (.stl (w.extractLsb' 16 5) (w.extractLsb' 11 5) (w.extractLsb' 3 3) (w.extractLsb' 0 3), w.extractLsb' 6 5 == 0)
  | 4 => decodeSync4 (w.extractLsb' 0 1).toNat w
  | 5 => some (.doze (w.extractLsb' 16 5) (w.extractLsb' 6 5) (w.extractLsb' 2 1) (w.extractLsb' 1 1) (w.extractLsb' 0 1), w.extractLsb' 11 5 == 0 && w.extractLsb' 3 3 == 0)
  | _ => none

/-- Major 0x23 (R24), by bits [25:21]. -/
def decodeGrp (k : Nat) (w : BitVec 32) : Decoded :=
  match k with
  | 0 => some (.garr (w.extractLsb' 16 5) (w.extractLsb' 6 5), w.extractLsb' 11 5 == 0 && w.extractLsb' 0 6 == 0)
  | 1 => some (.gwait (w.extractLsb' 16 5) (w.extractLsb' 11 5), w.extractLsb' 0 11 == 0)
  | 2 => some (.gquery (w.extractLsb' 16 5) (w.extractLsb' 6 5), w.extractLsb' 11 5 == 0 && w.extractLsb' 0 6 == 0)
  | 3 => some (.gwdog (w.extractLsb' 16 5) (w.extractLsb' 11 5), w.extractLsb' 0 11 == 0)
  | _ => none

/-- Major 0x24 (R24), by bits [5:5]. -/
def decodeMsg0 (k : Nat) (w : BitVec 32) : Decoded :=
  match k with
  | 0 => some (.send (w.extractLsb' 16 5) (w.extractLsb' 6 4) (w.extractLsb' 4 1) (w.extractLsb' 0 4), w.extractLsb' 10 6 == 0)
  | 1 => some (.sendG (w.extractLsb' 16 5) (w.extractLsb' 11 5) (w.extractLsb' 6 4) (w.extractLsb' 4 1) (w.extractLsb' 0 4), w.extractLsb' 10 1 == 0)
  | _ => none

/-- Major 0x24 (R24), by bits [5:5]. -/
def decodeMsg2 (k : Nat) (w : BitVec 32) : Decoded :=
  match k with
  | 0 => some (.sendo (w.extractLsb' 16 5) (w.extractLsb' 6 4) (w.extractLsb' 4 1) (w.extractLsb' 0 4), w.extractLsb' 10 6 == 0)
  | 1 => some (.sendoG (w.extractLsb' 16 5) (w.extractLsb' 11 5) (w.extractLsb' 6 4) (w.extractLsb' 4 1) (w.extractLsb' 0 4), w.extractLsb' 10 1 == 0)
  | _ => none

/-- Major 0x24 (R24), by bits [25:21]. -/
def decodeMsg (k : Nat) (w : BitVec 32) : Decoded :=
  match k with
  | 0 => decodeMsg0 (w.extractLsb' 5 1).toNat w
  | 1 => some (.sendn (w.extractLsb' 16 5) (w.extractLsb' 11 5) (w.extractLsb' 6 4) (w.extractLsb' 4 1) (w.extractLsb' 0 4), w.extractLsb' 10 1 == 0 && w.extractLsb' 5 1 == 0)
  | 2 => decodeMsg2 (w.extractLsb' 5 1).toNat w
  | 3 => some (.recv (w.extractLsb' 16 5) (w.extractLsb' 11 5) (w.extractLsb' 4 1) (w.extractLsb' 3 1) (w.extractLsb' 0 3), w.extractLsb' 5 6 == 0)
  | 4 => some (.peek (w.extractLsb' 11 5) (w.extractLsb' 3 1) (w.extractLsb' 0 3), w.extractLsb' 16 5 == 0 && w.extractLsb' 4 7 == 0)
  | 5 => some (.cmask (w.extractLsb' 0 3), w.extractLsb' 3 18 == 0)
  | 6 => some (.cunmask (w.extractLsb' 0 3), w.extractLsb' 3 18 == 0)
  | 7 => some (.pst (w.extractLsb' 16 5) (w.extractLsb' 11 5) (w.extractLsb' 6 4) (w.extractLsb' 0 3), w.extractLsb' 10 1 == 0 && w.extractLsb' 3 3 == 0)
  | 8 => some (.pst4 (w.extractLsb' 16 5) (w.extractLsb' 11 5) (w.extractLsb' 6 4) (w.extractLsb' 0 4), w.extractLsb' 10 1 == 0 && w.extractLsb' 4 2 == 0)
  | _ => none

/-- Major 0x25 (R24), by bits [4:4]. -/
def decodeCap0 (k : Nat) (w : BitVec 32) : Decoded :=
  match k with
  | 0 => some (.capld (w.extractLsb' 6 4) (w.extractLsb' 0 4), w.extractLsb' 10 11 == 0 && w.extractLsb' 5 1 == 0)
  | 1 => some (.capldG (w.extractLsb' 6 4), w.extractLsb' 10 11 == 0 && w.extractLsb' 5 1 == 0 && w.extractLsb' 0 4 == 0)
  | _ => none

/-- Major 0x25 (R24), by bits [25:21]. -/
def decodeCap (k : Nat) (w : BitVec 32) : Decoded :=
  match k with
  | 0 => decodeCap0 (w.extractLsb' 4 1).toNat w
  | 1 => some (.caprs (w.extractLsb' 16 5) (w.extractLsb' 11 4) (w.extractLsb' 6 4), w.extractLsb' 15 1 == 0 && w.extractLsb' 10 1 == 0 && w.extractLsb' 0 6 == 0)
  | 2 => some (.caprv (w.extractLsb' 6 4), w.extractLsb' 10 11 == 0 && w.extractLsb' 0 6 == 0)
  | 3 => some (.capmint (w.extractLsb' 16 5) (w.extractLsb' 11 5) (w.extractLsb' 6 4), w.extractLsb' 10 1 == 0 && w.extractLsb' 0 6 == 0)
  | 4 => some (.capq (w.extractLsb' 16 5) (w.extractLsb' 6 4) (w.extractLsb' 0 1), w.extractLsb' 10 6 == 0 && w.extractLsb' 1 5 == 0)
  | _ => none

/-- Major 0x26 (R24), by bits [1:0]. -/
def decodeCpy4 (k : Nat) (w : BitVec 32) : Decoded :=
  match k with
  | 1 => some (.cbindIn (w.extractLsb' 16 5) (w.extractLsb' 11 5) (w.extractLsb' 6 3), w.extractLsb' 9 2 == 0 && w.extractLsb' 2 4 == 0)
  | 2 => some (.cbindOut (w.extractLsb' 16 5) (w.extractLsb' 11 5) (w.extractLsb' 6 3), w.extractLsb' 9 2 == 0 && w.extractLsb' 2 4 == 0)
  | 0 => some (.cbindOff (w.extractLsb' 6 3), w.extractLsb' 9 12 == 0 && w.extractLsb' 2 4 == 0)
  | _ => none

/-- Major 0x26 (R24), by bits [25:21]. -/
def decodeCpy (k : Nat) (w : BitVec 32) : Decoded :=
  match k with
  | 0 => some (.cpy (w.extractLsb' 16 5) (w.extractLsb' 11 5) (w.extractLsb' 6 5) (w.extractLsb' 0 1), w.extractLsb' 1 5 == 0)
  | 1 => some (.cpy2 (w.extractLsb' 16 5) (w.extractLsb' 0 1), w.extractLsb' 1 15 == 0)
  | 2 => some (.cput (w.extractLsb' 16 5) (w.extractLsb' 11 5) (w.extractLsb' 6 5) (w.extractLsb' 5 1) (w.extractLsb' 4 1) (w.extractLsb' 0 4), true)
  | 3 => some (.cget (w.extractLsb' 16 5) (w.extractLsb' 11 5) (w.extractLsb' 6 5) (w.extractLsb' 4 1) (w.extractLsb' 0 4), w.extractLsb' 5 1 == 0)
  | 4 => decodeCpy4 (w.extractLsb' 0 2).toNat w
  | _ => none

/-- Major 0x27 (R24), by bits [2:0]. -/
def decodeVec9 (k : Nat) (w : BitVec 32) : Decoded :=
  match k with
  | 0 => some (.vdiv (w.extractLsb' 21 5) (w.extractLsb' 16 5) (w.extractLsb' 11 5) (w.extractLsb' 8 3), true)
  | _ => none

/-- Major 0x27 (R24), by bits [2:0]. -/
def decodeVec10 (k : Nat) (w : BitVec 32) : Decoded :=
  match k with
  | 0 => some (.vsqrt (w.extractLsb' 21 5) (w.extractLsb' 16 5) (w.extractLsb' 8 3), w.extractLsb' 11 5 == 0)
  | _ => none

/-- Major 0x27 (R24), by bits [2:0]. -/
def decodeVec11 (k : Nat) (w : BitVec 32) : Decoded :=
  match k with
  | 0 => some (.vrsq (w.extractLsb' 21 5) (w.extractLsb' 16 5) (w.extractLsb' 8 3), w.extractLsb' 11 5 == 0)
  | _ => none

/-- Major 0x27 (R24), by bits [2:0]. -/
def decodeVec12 (k : Nat) (w : BitVec 32) : Decoded :=
  match k with
  | 0 => some (.vexp2 (w.extractLsb' 21 5) (w.extractLsb' 16 5) (w.extractLsb' 8 3), w.extractLsb' 11 5 == 0)
  | _ => none

/-- Major 0x27 (R24), by bits [2:0]. -/
def decodeVec13 (k : Nat) (w : BitVec 32) : Decoded :=
  match k with
  | 0 => some (.vlog2 (w.extractLsb' 21 5) (w.extractLsb' 16 5) (w.extractLsb' 8 3), w.extractLsb' 11 5 == 0)
  | _ => none

/-- Major 0x27 (R24), by bits [7:3]. -/
def decodeVec (k : Nat) (w : BitVec 32) : Decoded :=
  match k with
  | 0 => some (.vadd (w.extractLsb' 21 5) (w.extractLsb' 16 5) (w.extractLsb' 11 5) (w.extractLsb' 8 3) (w.extractLsb' 0 3), true)
  | 1 => some (.vsub (w.extractLsb' 21 5) (w.extractLsb' 16 5) (w.extractLsb' 11 5) (w.extractLsb' 8 3) (w.extractLsb' 0 3), true)
  | 2 => some (.vmul (w.extractLsb' 21 5) (w.extractLsb' 16 5) (w.extractLsb' 11 5) (w.extractLsb' 8 3) (w.extractLsb' 0 3), true)
  | 3 => some (.vfma (w.extractLsb' 21 5) (w.extractLsb' 16 5) (w.extractLsb' 11 5) (w.extractLsb' 8 3) (w.extractLsb' 0 3), true)
  | 4 => some (.vfms (w.extractLsb' 21 5) (w.extractLsb' 16 5) (w.extractLsb' 11 5) (w.extractLsb' 8 3) (w.extractLsb' 0 3), true)
  | 5 => some (.vmin (w.extractLsb' 21 5) (w.extractLsb' 16 5) (w.extractLsb' 11 5) (w.extractLsb' 8 3) (w.extractLsb' 0 3), true)
  | 6 => some (.vmax (w.extractLsb' 21 5) (w.extractLsb' 16 5) (w.extractLsb' 11 5) (w.extractLsb' 8 3) (w.extractLsb' 0 3), true)
  | 7 => some (.vabs (w.extractLsb' 21 5) (w.extractLsb' 16 5) (w.extractLsb' 8 3) (w.extractLsb' 0 3), w.extractLsb' 11 5 == 0)
  | 8 => some (.vneg (w.extractLsb' 21 5) (w.extractLsb' 16 5) (w.extractLsb' 8 3) (w.extractLsb' 0 3), w.extractLsb' 11 5 == 0)
  | 9 => decodeVec9 (w.extractLsb' 0 3).toNat w
  | 10 => decodeVec10 (w.extractLsb' 0 3).toNat w
  | 11 => decodeVec11 (w.extractLsb' 0 3).toNat w
  | 12 => decodeVec12 (w.extractLsb' 0 3).toNat w
  | 13 => decodeVec13 (w.extractLsb' 0 3).toNat w
  | 14 => some (.vcmpEq (w.extractLsb' 21 3) (w.extractLsb' 16 5) (w.extractLsb' 11 5) (w.extractLsb' 8 3) (w.extractLsb' 0 3), w.extractLsb' 24 2 == 0)
  | 15 => some (.vcmpNe (w.extractLsb' 21 3) (w.extractLsb' 16 5) (w.extractLsb' 11 5) (w.extractLsb' 8 3) (w.extractLsb' 0 3), w.extractLsb' 24 2 == 0)
  | 16 => some (.vcmpLt (w.extractLsb' 21 3) (w.extractLsb' 16 5) (w.extractLsb' 11 5) (w.extractLsb' 8 3) (w.extractLsb' 0 3), w.extractLsb' 24 2 == 0)
  | 17 => some (.vcmpLe (w.extractLsb' 21 3) (w.extractLsb' 16 5) (w.extractLsb' 11 5) (w.extractLsb' 8 3) (w.extractLsb' 0 3), w.extractLsb' 24 2 == 0)
  | 18 => some (.vsel (w.extractLsb' 21 5) (w.extractLsb' 16 5) (w.extractLsb' 11 5) (w.extractLsb' 8 3) (w.extractLsb' 0 3), true)
  | 19 => some (.vand (w.extractLsb' 21 5) (w.extractLsb' 16 5) (w.extractLsb' 11 5) (w.extractLsb' 8 3) (w.extractLsb' 0 3), true)
  | 20 => some (.vor (w.extractLsb' 21 5) (w.extractLsb' 16 5) (w.extractLsb' 11 5) (w.extractLsb' 8 3) (w.extractLsb' 0 3), true)
  | 21 => some (.vxor (w.extractLsb' 21 5) (w.extractLsb' 16 5) (w.extractLsb' 11 5) (w.extractLsb' 8 3) (w.extractLsb' 0 3), true)
  | 22 => some (.vshl (w.extractLsb' 21 5) (w.extractLsb' 16 5) (w.extractLsb' 11 5) (w.extractLsb' 8 3) (w.extractLsb' 0 3), true)
  | 23 => some (.vshr (w.extractLsb' 21 5) (w.extractLsb' 16 5) (w.extractLsb' 11 5) (w.extractLsb' 8 3) (w.extractLsb' 0 3), true)
  | 24 => some (.vperm (w.extractLsb' 21 5) (w.extractLsb' 16 5) (w.extractLsb' 11 5) (w.extractLsb' 8 3) (w.extractLsb' 0 3), true)
  | 25 => some (.vbcast (w.extractLsb' 21 5) (w.extractLsb' 16 5) (w.extractLsb' 8 3) (w.extractLsb' 0 3), w.extractLsb' 11 5 == 0)
  | 26 => some (.vmov (w.extractLsb' 21 5) (w.extractLsb' 16 5) (w.extractLsb' 8 3) (w.extractLsb' 0 3), w.extractLsb' 11 5 == 0)
  | 27 => some (.vmovToG (w.extractLsb' 21 5) (w.extractLsb' 16 5) (w.extractLsb' 11 5) (w.extractLsb' 0 3), w.extractLsb' 8 3 == 0)
  | _ => none

/-- Major 0x28 (R24), by bits [7:7]. -/
def decodeVmem0 (k : Nat) (w : BitVec 32) : Decoded :=
  match k with
  | 0 => some (.vld (w.extractLsb' 21 5) (w.extractLsb' 16 5) (w.extractLsb' 11 5) (w.extractLsb' 8 3) (w.extractLsb' 6 1) (w.extractLsb' 0 3), true)
  | _ => none

/-- Major 0x28 (R24), by bits [7:7]. -/
def decodeVmem1 (k : Nat) (w : BitVec 32) : Decoded :=
  match k with
  | 0 => some (.vst (w.extractLsb' 21 5) (w.extractLsb' 16 5) (w.extractLsb' 11 5) (w.extractLsb' 8 3) (w.extractLsb' 6 1) (w.extractLsb' 0 3), true)
  | _ => none

/-- Major 0x28 (R24), by bits [7:7]. -/
def decodeVmem2 (k : Nat) (w : BitVec 32) : Decoded :=
  match k with
  | 0 => some (.vlds (w.extractLsb' 21 5) (w.extractLsb' 16 5) (w.extractLsb' 11 5) (w.extractLsb' 8 3) (w.extractLsb' 6 1) (w.extractLsb' 0 3), true)
  | _ => none

/-- Major 0x28 (R24), by bits [7:7]. -/
def decodeVmem3 (k : Nat) (w : BitVec 32) : Decoded :=
  match k with
  | 0 => some (.vgat (w.extractLsb' 21 5) (w.extractLsb' 16 5) (w.extractLsb' 11 5) (w.extractLsb' 8 3) (w.extractLsb' 6 1) (w.extractLsb' 0 3), true)
  | _ => none

/-- Major 0x28 (R24), by bits [7:7]. -/
def decodeVmem4 (k : Nat) (w : BitVec 32) : Decoded :=
  match k with
  | 0 => some (.vsca (w.extractLsb' 21 5) (w.extractLsb' 16 5) (w.extractLsb' 11 5) (w.extractLsb' 8 3) (w.extractLsb' 6 1) (w.extractLsb' 0 3), true)
  | _ => none

/-- Major 0x28 (R24), by bits [5:3]. -/
def decodeVmem (k : Nat) (w : BitVec 32) : Decoded :=
  match k with
  | 0 => decodeVmem0 (w.extractLsb' 7 1).toNat w
  | 1 => decodeVmem1 (w.extractLsb' 7 1).toNat w
  | 2 => decodeVmem2 (w.extractLsb' 7 1).toNat w
  | 3 => decodeVmem3 (w.extractLsb' 7 1).toNat w
  | 4 => decodeVmem4 (w.extractLsb' 7 1).toNat w
  | _ => none

/-- Major 0x29 (R24, R199), by its sub. -/
def decodeVcvt (t : Nat) (w : BitVec 32) : Decoded :=
  if t ≤ 8 then some (.vcvt (w.extractLsb' 21 5) (w.extractLsb' 16 5) (w.extractLsb' 11 3) (w.extractLsb' 8 3) (w.extractLsb' 3 5) (w.extractLsb' 0 3), w.extractLsb' 14 2 == 0)
  else if t = 9 then some (.vcvtFromFp4 (w.extractLsb' 21 5) (w.extractLsb' 16 5) (w.extractLsb' 11 3) (w.extractLsb' 8 3) (w.extractLsb' 0 3), w.extractLsb' 14 2 == 0)
  else if t ≤ 15 then (if (w.extractLsb' 0 3) == 0 then some (.vquantFp4 (w.extractLsb' 21 5) (w.extractLsb' 16 5) (w.extractLsb' 11 5) (w.extractLsb' 3 5), w.extractLsb' 8 3 == 0) else none)
  else if t = 16 then (if (w.extractLsb' 0 3) == 0 then some (.vquantInt4x (w.extractLsb' 21 5) (w.extractLsb' 16 5) (w.extractLsb' 11 5), w.extractLsb' 8 3 == 0) else none)
  else if t ≤ 22 then some (.vdeqFp4 (w.extractLsb' 21 5) (w.extractLsb' 16 5) (w.extractLsb' 11 1) (w.extractLsb' 8 3) (w.extractLsb' 3 5) (w.extractLsb' 0 3), w.extractLsb' 12 4 == 0)
  else if t = 23 then some (.vdeqInt4x (w.extractLsb' 21 5) (w.extractLsb' 16 5) (w.extractLsb' 11 1) (w.extractLsb' 8 3) (w.extractLsb' 0 3), w.extractLsb' 12 4 == 0)
  else none

/-- Major 0x2A (R24), by bits [2:0]. -/
def decodeVred5 (k : Nat) (w : BitVec 32) : Decoded :=
  match k with
  | 0 => some (.vopt (w.extractLsb' 16 5), w.extractLsb' 21 5 == 0 && w.extractLsb' 8 8 == 0)
  | _ => none

/-- Major 0x2A (R24), by bits [7:3]. -/
def decodeVred (k : Nat) (w : BitVec 32) : Decoded :=
  match k with
  | 0 => some (.vredSum (w.extractLsb' 21 5) (w.extractLsb' 16 5) (w.extractLsb' 8 3) (w.extractLsb' 0 3), w.extractLsb' 11 5 == 0)
  | 1 => some (.vredMax (w.extractLsb' 21 5) (w.extractLsb' 16 5) (w.extractLsb' 8 3) (w.extractLsb' 0 3), w.extractLsb' 11 5 == 0)
  | 2 => some (.vredMin (w.extractLsb' 21 5) (w.extractLsb' 16 5) (w.extractLsb' 8 3) (w.extractLsb' 0 3), w.extractLsb' 11 5 == 0)
  | 3 => some (.vtopk (w.extractLsb' 22 4) (w.extractLsb' 16 5) (w.extractLsb' 11 4) (w.extractLsb' 8 3) (w.extractLsb' 0 3), w.extractLsb' 21 1 == 0 && w.extractLsb' 15 1 == 0)
  | 4 => some (.vargmax (w.extractLsb' 21 5) (w.extractLsb' 16 5) (w.extractLsb' 8 3) (w.extractLsb' 0 3), w.extractLsb' 11 5 == 0)
  | 5 => decodeVred5 (w.extractLsb' 0 3).toNat w
  | _ => none

/-- Major 0x2B (R24), by bits [4:4]. -/
def decodeMat6 (k : Nat) (w : BitVec 32) : Decoded :=
  match k with
  | 0 => some (.mrel (w.extractLsb' 0 4), w.extractLsb' 5 16 == 0)
  | 1 => some (.mrelAll, w.extractLsb' 5 16 == 0 && w.extractLsb' 0 4 == 0)
  | _ => none

/-- Major 0x2B (R24), by bits [25:21]. -/
def decodeMat (k : Nat) (w : BitVec 32) : Decoded :=
  match k with
  | 0 => some (.mctx (w.extractLsb' 16 5) (w.extractLsb' 11 5), w.extractLsb' 0 11 == 0)
  | 1 => some (.mfetch (w.extractLsb' 16 5) (w.extractLsb' 11 5) (w.extractLsb' 6 5) (w.extractLsb' 5 1) (w.extractLsb' 4 1) (w.extractLsb' 0 4), true)
  | 2 => some (.mma (w.extractLsb' 14 7) (w.extractLsb' 7 7) (w.extractLsb' 6 1) (w.extractLsb' 5 1) (w.extractLsb' 4 1), w.extractLsb' 0 4 == 0)
  | 3 => some (.mzero (w.extractLsb' 16 1), w.extractLsb' 17 4 == 0 && w.extractLsb' 0 16 == 0)
  | 4 => some (.mrd (w.extractLsb' 16 5) (w.extractLsb' 11 5) (w.extractLsb' 6 1) (w.extractLsb' 2 1) (w.extractLsb' 0 2), w.extractLsb' 7 4 == 0 && w.extractLsb' 3 3 == 0)
  | 5 => some (.mwr (w.extractLsb' 16 5) (w.extractLsb' 6 1), w.extractLsb' 7 9 == 0 && w.extractLsb' 0 6 == 0)
  | 6 => decodeMat6 (w.extractLsb' 4 1).toNat w
  | 7 => some (.mstat (w.extractLsb' 16 5), w.extractLsb' 0 16 == 0)
  | _ => none

/-- Major 0x2C (R24), by bits [25:21]. -/
def decodeExp (k : Nat) (w : BitVec 32) : Decoded :=
  match k with
  | 0 => some (.xdef (w.extractLsb' 16 5) (w.extractLsb' 11 5) (w.extractLsb' 6 5), w.extractLsb' 0 6 == 0)
  | 1 => some (.xsend (w.extractLsb' 16 5) (w.extractLsb' 11 5) (w.extractLsb' 1 1) (w.extractLsb' 0 1), w.extractLsb' 2 9 == 0)
  | 2 => some (.xrep (w.extractLsb' 16 5) (w.extractLsb' 6 5), w.extractLsb' 11 5 == 0 && w.extractLsb' 0 6 == 0)
  | 3 => some (.xret (w.extractLsb' 16 5) (w.extractLsb' 11 5) (w.extractLsb' 6 5), w.extractLsb' 0 6 == 0)
  | 4 => some (.xown (w.extractLsb' 16 5) (w.extractLsb' 11 5) (w.extractLsb' 6 5) (w.extractLsb' 0 3), w.extractLsb' 3 3 == 0)
  | 5 => some (.xjoin (w.extractLsb' 16 5) (w.extractLsb' 11 5) (w.extractLsb' 1 1) (w.extractLsb' 0 1), w.extractLsb' 2 9 == 0)
  | 6 => some (.xupd (w.extractLsb' 16 5) (w.extractLsb' 11 5) (w.extractLsb' 6 5), w.extractLsb' 0 6 == 0)
  | 7 => some (.xcnt (w.extractLsb' 16 5) (w.extractLsb' 11 5), w.extractLsb' 0 11 == 0)
  | 8 => some (.xq (w.extractLsb' 16 5) (w.extractLsb' 6 5) (w.extractLsb' 0 4), w.extractLsb' 11 5 == 0 && w.extractLsb' 4 2 == 0)
  | _ => none

/-- Major 0x2D (R24), by bits [25:21]. -/
def decodeRte (k : Nat) (w : BitVec 32) : Decoded :=
  match k with
  | 0 => some (.gpush (w.extractLsb' 16 5) (w.extractLsb' 11 5), w.extractLsb' 0 11 == 0)
  | 1 => some (.gpop (w.extractLsb' 16 5) (w.extractLsb' 6 5) (w.extractLsb' 0 1), w.extractLsb' 11 5 == 0 && w.extractLsb' 1 5 == 0)
  | 2 => some (.remit (w.extractLsb' 16 5) (w.extractLsb' 6 5), w.extractLsb' 11 5 == 0 && w.extractLsb' 0 6 == 0)
  | 3 => some (.rsort (w.extractLsb' 16 5), w.extractLsb' 0 16 == 0)
  | 4 => some (.rmap (w.extractLsb' 16 5) (w.extractLsb' 0 1), w.extractLsb' 1 15 == 0)
  | 5 => some (.rclose (w.extractLsb' 16 5) (w.extractLsb' 0 1), w.extractLsb' 1 15 == 0)
  | _ => none

/-- Major 0x2E (R24), by bits [4:4]. -/
def decodeRed2 (k : Nat) (w : BitVec 32) : Decoded :=
  match k with
  | 0 => some (.rstat (w.extractLsb' 16 5) (w.extractLsb' 6 5) (w.extractLsb' 0 4), w.extractLsb' 11 5 == 0 && w.extractLsb' 5 1 == 0)
  | 1 => some (.rstatSum (w.extractLsb' 6 5), w.extractLsb' 11 10 == 0 && w.extractLsb' 5 1 == 0 && w.extractLsb' 0 4 == 0)
  | _ => none

/-- Major 0x2E (R24), by bits [25:21]. -/
def decodeRed (k : Nat) (w : BitVec 32) : Decoded :=
  match k with
  | 0 => some (.rput (w.extractLsb' 16 5) (w.extractLsb' 0 1), w.extractLsb' 1 15 == 0)
  | 1 => some (.rcfg (w.extractLsb' 16 5) (w.extractLsb' 6 5) (w.extractLsb' 0 4), w.extractLsb' 11 5 == 0 && w.extractLsb' 4 2 == 0)
  | 2 => decodeRed2 (w.extractLsb' 4 1).toNat w
  | _ => none

/-- FRAME (R21): two words; `v` is the second. Without its mark the word is an undefined encoding. -/
def decodeFrame (w v : BitVec 32) : Decoded :=
  if v.extractLsb' 26 6 == 0x3F#6 then
    some (.frame (w.extractLsb' 21 5) (w.extractLsb' 16 5) (w.extractLsb' 12 4) (v.extractLsb' 10 16)
      (v.extractLsb' 5 5), w.extractLsb' 0 12 == 0 && v.extractLsb' 0 5 == 0)
  else none

/-- The instruction that the words at p and p + 4 name, by the major opcode map of R24. -/
def decodeMajor (k : Nat) (w v : BitVec 32) : Decoded :=
  match k with
  | 0x00 => decodeSys (w.extractLsb' 21 5).toNat w
  | 0x01 => decodeAlu (w.extractLsb' 6 5).toNat w
  | 0x02 => some (.addi (w.extractLsb' 21 5) (w.extractLsb' 16 5) (w.extractLsb' 0 16), true)
  | 0x03 => some (.andi (w.extractLsb' 21 5) (w.extractLsb' 16 5) (w.extractLsb' 0 16), true)
  | 0x04 => some (.ori (w.extractLsb' 21 5) (w.extractLsb' 16 5) (w.extractLsb' 0 16), true)
  | 0x05 => some (.xori (w.extractLsb' 21 5) (w.extractLsb' 16 5) (w.extractLsb' 0 16), true)
  | 0x06 => some (.slti (w.extractLsb' 21 5) (w.extractLsb' 16 5) (w.extractLsb' 0 16), true)
  | 0x07 => some (.sltiz (w.extractLsb' 21 5) (w.extractLsb' 16 5) (w.extractLsb' 0 16), true)
  | 0x08 => decodeShi (w.extractLsb' 6 2).toNat w
  | 0x09 => some (.lhi (w.extractLsb' 21 5) (w.extractLsb' 0 21), true)
  | 0x0A => some (.ldl (w.extractLsb' 21 5) (w.extractLsb' 0 21), true)
  | 0x0B => decodeBitf (w.extractLsb' 7 4).toNat w
  | 0x0C => some (.beq (w.extractLsb' 21 5) (w.extractLsb' 16 5) (w.extractLsb' 0 16), true)
  | 0x0D => some (.bne (w.extractLsb' 21 5) (w.extractLsb' 16 5) (w.extractLsb' 0 16), true)
  | 0x0E => some (.blt (w.extractLsb' 21 5) (w.extractLsb' 16 5) (w.extractLsb' 0 16), true)
  | 0x0F => some (.bge (w.extractLsb' 21 5) (w.extractLsb' 16 5) (w.extractLsb' 0 16), true)
  | 0x10 => some (.bltz (w.extractLsb' 21 5) (w.extractLsb' 0 16), w.extractLsb' 16 5 == 0)
  | 0x11 => some (.bgez (w.extractLsb' 21 5) (w.extractLsb' 0 16), w.extractLsb' 16 5 == 0)
  | 0x12 => some (.j (w.extractLsb' 0 26), true)
  | 0x13 => some (.call (w.extractLsb' 0 26), true)
  | 0x14 => decodeJr (w.extractLsb' 6 5).toNat w
  | 0x15 => some (.loop (w.extractLsb' 16 5) (w.extractLsb' 0 16), w.extractLsb' 21 5 == 0)
  | 0x16 => decodeFrame w v
  | 0x17 => decodeQop (w.extractLsb' 21 5).toNat w
  | 0x18 => decodeSplit (w.extractLsb' 21 5).toNat w
  | 0x19 => decodeTask (w.extractLsb' 21 5).toNat w
  | 0x1A => some (.ld (w.extractLsb' 21 5) (w.extractLsb' 16 5) (w.extractLsb' 13 3) (w.extractLsb' 0 13), true)
  | 0x1B => some (.st (w.extractLsb' 21 5) (w.extractLsb' 16 5) (w.extractLsb' 13 3) (w.extractLsb' 0 13), true)
  | 0x1C => some (.ldx (w.extractLsb' 21 5) (w.extractLsb' 16 5) (w.extractLsb' 11 5) (w.extractLsb' 9 1) (w.extractLsb' 6 3), w.extractLsb' 10 1 == 0 && w.extractLsb' 0 6 == 0)
  | 0x1D => some (.stx (w.extractLsb' 21 5) (w.extractLsb' 16 5) (w.extractLsb' 11 5) (w.extractLsb' 9 1) (w.extractLsb' 6 3), w.extractLsb' 10 1 == 0 && w.extractLsb' 0 6 == 0)
  | 0x1E => decodeLsc (w.extractLsb' 21 5).toNat w
  | 0x1F => decodePage (w.extractLsb' 21 5).toNat w
  | 0x20 => decodeAmo (w.extractLsb' 6 5).toNat w
  | 0x21 => decodeL2c (w.extractLsb' 21 5).toNat w
  | 0x22 => decodeSync (w.extractLsb' 21 5).toNat w
  | 0x23 => decodeGrp (w.extractLsb' 21 5).toNat w
  | 0x24 => decodeMsg (w.extractLsb' 21 5).toNat w
  | 0x25 => decodeCap (w.extractLsb' 21 5).toNat w
  | 0x26 => decodeCpy (w.extractLsb' 21 5).toNat w
  | 0x27 => decodeVec (w.extractLsb' 3 5).toNat w
  | 0x28 => decodeVmem (w.extractLsb' 3 3).toNat w
  | 0x29 => decodeVcvt (w.extractLsb' 3 5).toNat w
  | 0x2A => decodeVred (w.extractLsb' 3 5).toNat w
  | 0x2B => decodeMat (w.extractLsb' 21 5).toNat w
  | 0x2C => decodeExp (w.extractLsb' 21 5).toNat w
  | 0x2D => decodeRte (w.extractLsb' 21 5).toNat w
  | 0x2E => decodeRed (w.extractLsb' 21 5).toNat w
  | _ => none

/-- Steps 5 and 6 of R27 on the words at p and p + 4: none for an undefined encoding (0x00); else the instruction and
whether its reserved fields are all zero (0x01 otherwise). -/
def decodeWords (w v : BitVec 32) : Decoded :=
  match decodeMajor (w.extractLsb' 26 6).toNat w v with
  | some (i, ok) => if i.defined then some (i, ok && i.reservedZero) else none
  | none => none

/-- Why bytes are no instruction. -/
inductive DecodeError where
  /-- There are fewer bytes than the instruction has. -/
  | short
  /-- An undefined encoding (R25), cause 0x00. -/
  | undefinedEncoding
  /-- A reserved field that is not zero (R25), cause 0x01. -/
  | reservedField
  deriving DecidableEq, Repr

/-- A 32-bit word from four bytes, little-endian (R15). -/
def wordOfBytes (b0 b1 b2 b3 : BitVec 8) : BitVec 32 := b3 ++ b2 ++ b1 ++ b0

/-- The length of an instruction in bytes: 8 for FRAME, 4 for every other (R15). -/
def Instr.length : Instr → Nat
  | .frame .. => 8
  | _ => 4

/-- The decoder over bytes: an instruction and the bytes after it, or the reason there is none. -/
def decode : List (BitVec 8) → Except DecodeError (Instr × List (BitVec 8))
  | b0 :: b1 :: b2 :: b3 :: rest =>
    let w := wordOfBytes b0 b1 b2 b3
    if w.extractLsb' 26 6 == 0x16#6 then
      match rest with
      | c0 :: c1 :: c2 :: c3 :: rest' =>
        match decodeWords w (wordOfBytes c0 c1 c2 c3) with
        | some (i, true) => .ok (i, rest')
        | some (_, false) => .error .reservedField
        | none => .error .undefinedEncoding
      | _ => .error .short
    else
      match decodeWords w 0 with
      | some (i, true) => .ok (i, rest)
      | some (_, false) => .error .reservedField
      | none => .error .undefinedEncoding
  | _ => .error .short

/-- The bytes of a word, little-endian (R15). -/
def bytesOfWord (w : BitVec 32) : List (BitVec 8) :=
  [w.extractLsb' 0 8, w.extractLsb' 8 8, w.extractLsb' 16 8, w.extractLsb' 24 8]

/-- The bits of `x` written below those of `hi`: fields are put from the most significant down. -/
def put (hi : Nat) {n : Nat} (x : BitVec n) : Nat := hi * 2 ^ n + x.toNat

/-- The 32-bit word of a number. -/
def word (n : Nat) : BitVec 32 := BitVec.ofNat 32 n

/-- The words of an instruction, from the encoding tables of the spec; an event has none. -/
def encode : Instr → List (BitVec 32)
  | .add d a b => [word (put (put (put (put (put 1 d) a) b) 0#5) 0#6)]
  | .sub d a b => [word (put (put (put (put (put 1 d) a) b) 1#5) 0#6)]
  | .mul d a b => [word (put (put (put (put (put 1 d) a) b) 2#5) 0#6)]
  | .mulh d a b => [word (put (put (put (put (put 1 d) a) b) 3#5) 0#6)]
  | .mulhz d a b => [word (put (put (put (put (put 1 d) a) b) 4#5) 0#6)]
  | .div d a b => [word (put (put (put (put (put 1 d) a) b) 5#5) 0#6)]
  | .divz d a b => [word (put (put (put (put (put 1 d) a) b) 6#5) 0#6)]
  | .rem d a b => [word (put (put (put (put (put 1 d) a) b) 7#5) 0#6)]
  | .remz d a b => [word (put (put (put (put (put 1 d) a) b) 8#5) 0#6)]
  | .and d a b => [word (put (put (put (put (put 1 d) a) b) 9#5) 0#6)]
  | .or d a b => [word (put (put (put (put (put 1 d) a) b) 10#5) 0#6)]
  | .xor d a b => [word (put (put (put (put (put 1 d) a) b) 11#5) 0#6)]
  | .andn d a b => [word (put (put (put (put (put 1 d) a) b) 12#5) 0#6)]
  | .orn d a b => [word (put (put (put (put (put 1 d) a) b) 13#5) 0#6)]
  | .shl d a b => [word (put (put (put (put (put 1 d) a) b) 14#5) 0#6)]
  | .shr d a b => [word (put (put (put (put (put 1 d) a) b) 15#5) 0#6)]
  | .sha d a b => [word (put (put (put (put (put 1 d) a) b) 16#5) 0#6)]
  | .rol d a b => [word (put (put (put (put (put 1 d) a) b) 17#5) 0#6)]
  | .ror d a b => [word (put (put (put (put (put 1 d) a) b) 18#5) 0#6)]
  | .slt d a b => [word (put (put (put (put (put 1 d) a) b) 19#5) 0#6)]
  | .sltz d a b => [word (put (put (put (put (put 1 d) a) b) 20#5) 0#6)]
  | .seq d a b => [word (put (put (put (put (put 1 d) a) b) 21#5) 0#6)]
  | .min d a b => [word (put (put (put (put (put 1 d) a) b) 22#5) 0#6)]
  | .max d a b => [word (put (put (put (put (put 1 d) a) b) 23#5) 0#6)]
  | .minz d a b => [word (put (put (put (put (put 1 d) a) b) 24#5) 0#6)]
  | .maxz d a b => [word (put (put (put (put (put 1 d) a) b) 25#5) 0#6)]
  | .clz d a => [word (put (put (put (put (put 1 d) a) 0#5) 26#5) 0#6)]
  | .ctz d a => [word (put (put (put (put (put 1 d) a) 0#5) 27#5) 0#6)]
  | .popc d a => [word (put (put (put (put (put 1 d) a) 0#5) 28#5) 0#6)]
  | .bswap d a => [word (put (put (put (put (put 1 d) a) 0#5) 29#5) 0#6)]
  | .addi d a i => [word (put (put (put 2 d) a) i)]
  | .andi d a i => [word (put (put (put 3 d) a) i)]
  | .ori d a i => [word (put (put (put 4 d) a) i)]
  | .xori d a i => [word (put (put (put 5 d) a) i)]
  | .slti d a i => [word (put (put (put 6 d) a) i)]
  | .sltiz d a i => [word (put (put (put 7 d) a) i)]
  | .shli d a n => [word (put (put (put (put (put 8 d) a) 0#8) 0#2) n)]
  | .shri d a n => [word (put (put (put (put (put 8 d) a) 0#8) 1#2) n)]
  | .shai d a n => [word (put (put (put (put (put 8 d) a) 0#8) 2#2) n)]
  | .roli d a n => [word (put (put (put (put (put 8 d) a) 0#8) 3#2) n)]
  | .lhi d i => [word (put (put 9 d) i)]
  | .ldl d o => [word (put (put 10 d) o)]
  | .ext d a p q l => [word (put (put (put (put (put (put 11 d) a) p) 0#4) q) l)]
  | .extz d a p q l => [word (put (put (put (put (put (put 11 d) a) p) 1#4) q) l)]
  | .ins d a p q l => [word (put (put (put (put (put (put 11 d) a) p) 2#4) q) l)]
  | .beq a b o => [word (put (put (put 12 a) b) o)]
  | .bne a b o => [word (put (put (put 13 a) b) o)]
  | .blt a b o => [word (put (put (put 14 a) b) o)]
  | .bge a b o => [word (put (put (put 15 a) b) o)]
  | .bltz a o => [word (put (put (put 16 a) 0#5) o)]
  | .bgez a o => [word (put (put (put 17 a) 0#5) o)]
  | .j o => [word (put 18 o)]
  | .call o => [word (put 19 o)]
  | .jr d a => [word (put (put (put (put (put 20 d) a) 0#5) 0#5) 0#6)]
  | .loop a i => [word (put (put (put 21 0#5) a) i)]
  | .frame len ra stg cnt rot => [word (put (put (put (put 0x16 len) ra) stg) 0#12), word (put (put (put 0x3F cnt) rot) 0#5)]
  | .qget a q => [word (put (put (put (put (put 23 0#5) a) 0#2) q) 0#11)]
  | .qset a q => [word (put (put (put (put (put 23 1#5) a) 0#2) q) 0#11)]
  | .qlen a q => [word (put (put (put (put (put 23 2#5) a) 0#2) q) 0#11)]
  | .bqp a => [word (put (put (put 23 3#5) a) 0#16)]
  | .bqb o => [word (put (put (put 23 4#5) 0#5) o)]
  | .split i => [word (put (put 24 0#5) i)]
  | .aend => [word (put (put 24 1#5) 0#21)]
  | .spawn a => [word (put (put (put 25 0#5) a) 0#16)]
  | .fork a o => [word (put (put (put 25 1#5) a) o)]
  | .join a o => [word (put (put (put 25 2#5) a) o)]
  | .done => [word (put (put 25 3#5) 0#21)]
  | .yield => [word (put (put 25 4#5) 0#21)]
  | .lee n => [word (put (put (put 25 5#5) 0#15) n)]
  | .areg a k => [word (put (put (put (put 25 6#5) a) 0#13) k)]
  | .lnch a k q => [word (put (put (put (put (put 25 7#5) a) 0#6) k) q)]
  | .ld d a s o => [word (put (put (put (put 26 d) a) s) o)]
  | .st d a s o => [word (put (put (put (put 27 d) a) s) o)]
  | .ldx d a b c s => [word (put (put (put (put (put (put (put 28 d) a) b) 0#1) c) s) 0#6)]
  | .stx d a b c s => [word (put (put (put (put (put (put (put 29 d) a) b) 0#1) c) s) 0#6)]
  | .carve k => [word (put (put (put 30 0#5) 0#17) k)]
  | .pool a => [word (put (put (put 30 1#5) a) 0#16)]
  | .pref a l o => [word (put (put (put (put (put 30 2#5) a) 0#9) l) o)]
  | .l1fl a => [word (put (put (put (put (put 30 3#5) a) 0#9) 0#1) 0#6)]
  | .l1flAll => [word (put (put (put (put 30 3#5) 0#14) 1#1) 0#6)]
  | .tlbw a b c => [word (put (put (put (put (put 31 0#5) a) b) c) 0#6)]
  | .tlbiVa a b => [word (put (put (put (put (put 31 1#5) a) b) 0#9) 0#2)]
  | .tlbiAsid b => [word (put (put (put (put (put 31 1#5) 0#5) b) 0#9) 1#2)]
  | .tlbiAll => [word (put (put (put 31 1#5) 0#19) 2#2)]
  | .wret a b c k => [word (put (put (put (put (put (put 31 2#5) a) b) c) 0#3) k)]
  | .regdone a b c => [word (put (put (put (put (put 31 3#5) a) b) c) 0#6)]
  | .amoAdd d a b r q w => [word (put (put (put (put (put (put (put (put 32 d) a) b) 0#5) 0#3) r) q) w)]
  | .amoMin d a b r q w => [word (put (put (put (put (put (put (put (put 32 d) a) b) 1#5) 0#3) r) q) w)]
  | .amoMax d a b r q w => [word (put (put (put (put (put (put (put (put 32 d) a) b) 2#5) 0#3) r) q) w)]
  | .amoMinz d a b r q w => [word (put (put (put (put (put (put (put (put 32 d) a) b) 3#5) 0#3) r) q) w)]
  | .amoMaxz d a b r q w => [word (put (put (put (put (put (put (put (put 32 d) a) b) 4#5) 0#3) r) q) w)]
  | .amoAnd d a b r q w => [word (put (put (put (put (put (put (put (put 32 d) a) b) 5#5) 0#3) r) q) w)]
  | .amoOr d a b r q w => [word (put (put (put (put (put (put (put (put 32 d) a) b) 6#5) 0#3) r) q) w)]
  | .amoXor d a b r q w => [word (put (put (put (put (put (put (put (put 32 d) a) b) 7#5) 0#3) r) q) w)]
  | .amoSwap d a b r q w => [word (put (put (put (put (put (put (put (put 32 d) a) b) 8#5) 0#3) r) q) w)]
  | .amoCas d a b r q w => [word (put (put (put (put (put (put (put (put 32 d) a) b) 9#5) 0#3) r) q) w)]
  | .amoFadd d a b r q w => [word (put (put (put (put (put (put (put (put 32 d) a) b) 10#5) 0#3) r) q) w)]
  | .l2fl a r => [word (put (put (put (put 33 0#5) a) 0#15) r)]
  | .l2inv a r => [word (put (put (put (put 33 1#5) a) 0#15) r)]
  | .rgrel a => [word (put (put (put 33 2#5) a) 0#16)]
  | .home a b => [word (put (put (put (put 33 3#5) a) b) 0#11)]
  | .fence s => [word (put (put (put 34 0#5) 0#18) s)]
  | .fenceAcks => [word (put (put 34 1#5) 0#21)]
  | .lda a c p z => [word (put (put (put (put (put (put 34 2#5) a) 0#5) c) p) z)]
  | .stl a b p z => [word (put (put (put (put (put (put 34 3#5) a) b) 0#5) p) z)]
  | .watch a => [word (put (put (put (put 34 4#5) a) 0#15) 0#1)]
  | .watchOff => [word (put (put (put 34 4#5) 0#20) 1#1)]
  | .doze a c m g t => [word (put (put (put (put (put (put (put (put 34 5#5) a) 0#5) c) 0#3) m) g) t)]
  | .garr a c => [word (put (put (put (put (put 35 0#5) a) 0#5) c) 0#6)]
  | .gwait a b => [word (put (put (put (put 35 1#5) a) b) 0#11)]
  | .gquery a c => [word (put (put (put (put (put 35 2#5) a) 0#5) c) 0#6)]
  | .gwdog a b => [word (put (put (put (put 35 3#5) a) b) 0#11)]
  | .send a c u k => [word (put (put (put (put (put (put (put 36 0#5) a) 0#6) c) 0#1) u) k)]
  | .sendG a b c u k => [word (put (put (put (put (put (put (put (put 36 0#5) a) b) 0#1) c) 1#1) u) k)]
  | .sendn a b c u k => [word (put (put (put (put (put (put (put (put 36 1#5) a) b) 0#1) c) 0#1) u) k)]
  | .sendo a c u k => [word (put (put (put (put (put (put (put 36 2#5) a) 0#6) c) 0#1) u) k)]
  | .sendoG a b c u k => [word (put (put (put (put (put (put (put (put 36 2#5) a) b) 0#1) c) 1#1) u) k)]
  | .recv a b n y c => [word (put (put (put (put (put (put (put 36 3#5) a) b) 0#6) n) y) c)]
  | .peek b y c => [word (put (put (put (put (put (put 36 4#5) 0#5) b) 0#7) y) c)]
  | .cmask c => [word (put (put (put 36 5#5) 0#18) c)]
  | .cunmask c => [word (put (put (put 36 6#5) 0#18) c)]
  | .pst a b c s => [word (put (put (put (put (put (put (put 36 7#5) a) b) 0#1) c) 0#3) s)]
  | .pst4 a b c n => [word (put (put (put (put (put (put (put 36 8#5) a) b) 0#1) c) 0#2) n)]
  | .capld c k => [word (put (put (put (put (put (put 37 0#5) 0#11) c) 0#1) 0#1) k)]
  | .capldG c => [word (put (put (put (put (put (put 37 0#5) 0#11) c) 0#1) 1#1) 0#4)]
  | .caprs a b c => [word (put (put (put (put (put (put (put 37 1#5) a) 0#1) b) 0#1) c) 0#6)]
  | .caprv c => [word (put (put (put (put 37 2#5) 0#11) c) 0#6)]
  | .capmint a b c => [word (put (put (put (put (put (put 37 3#5) a) b) 0#1) c) 0#6)]
  | .capq a c w => [word (put (put (put (put (put (put 37 4#5) a) 0#6) c) 0#5) w)]
  | .cpy a b c n => [word (put (put (put (put (put (put 38 0#5) a) b) c) 0#5) n)]
  | .cpy2 a n => [word (put (put (put (put 38 1#5) a) 0#15) n)]
  | .cput a b c o n k => [word (put (put (put (put (put (put (put 38 2#5) a) b) c) o) n) k)]
  | .cget a b c n k => [word (put (put (put (put (put (put (put 38 3#5) a) b) c) 0#1) n) k)]
  | .cbindIn a b q => [word (put (put (put (put (put (put (put 38 4#5) a) b) 0#2) q) 0#4) 1#2)]
  | .cbindOut a b q => [word (put (put (put (put (put (put (put 38 4#5) a) b) 0#2) q) 0#4) 2#2)]
  | .cbindOff q => [word (put (put (put (put (put 38 4#5) 0#12) q) 0#4) 0#2)]
  | .vadd d a b m e => [word (put (put (put (put (put (put 39 d) a) b) m) 0#5) e)]
  | .vsub d a b m e => [word (put (put (put (put (put (put 39 d) a) b) m) 1#5) e)]
  | .vmul d a b m e => [word (put (put (put (put (put (put 39 d) a) b) m) 2#5) e)]
  | .vfma d a b m e => [word (put (put (put (put (put (put 39 d) a) b) m) 3#5) e)]
  | .vfms d a b m e => [word (put (put (put (put (put (put 39 d) a) b) m) 4#5) e)]
  | .vmin d a b m e => [word (put (put (put (put (put (put 39 d) a) b) m) 5#5) e)]
  | .vmax d a b m e => [word (put (put (put (put (put (put 39 d) a) b) m) 6#5) e)]
  | .vabs d a m e => [word (put (put (put (put (put (put 39 d) a) 0#5) m) 7#5) e)]
  | .vneg d a m e => [word (put (put (put (put (put (put 39 d) a) 0#5) m) 8#5) e)]
  | .vdiv d a b m => [word (put (put (put (put (put (put 39 d) a) b) m) 9#5) 0#3)]
  | .vsqrt d a m => [word (put (put (put (put (put (put 39 d) a) 0#5) m) 10#5) 0#3)]
  | .vrsq d a m => [word (put (put (put (put (put (put 39 d) a) 0#5) m) 11#5) 0#3)]
  | .vexp2 d a m => [word (put (put (put (put (put (put 39 d) a) 0#5) m) 12#5) 0#3)]
  | .vlog2 d a m => [word (put (put (put (put (put (put 39 d) a) 0#5) m) 13#5) 0#3)]
  | .vcmpEq d a b m e => [word (put (put (put (put (put (put (put 39 0#2) d) a) b) m) 14#5) e)]
  | .vcmpNe d a b m e => [word (put (put (put (put (put (put (put 39 0#2) d) a) b) m) 15#5) e)]
  | .vcmpLt d a b m e => [word (put (put (put (put (put (put (put 39 0#2) d) a) b) m) 16#5) e)]
  | .vcmpLe d a b m e => [word (put (put (put (put (put (put (put 39 0#2) d) a) b) m) 17#5) e)]
  | .vsel d a b m e => [word (put (put (put (put (put (put 39 d) a) b) m) 18#5) e)]
  | .vand d a b m e => [word (put (put (put (put (put (put 39 d) a) b) m) 19#5) e)]
  | .vor d a b m e => [word (put (put (put (put (put (put 39 d) a) b) m) 20#5) e)]
  | .vxor d a b m e => [word (put (put (put (put (put (put 39 d) a) b) m) 21#5) e)]
  | .vshl d a b m e => [word (put (put (put (put (put (put 39 d) a) b) m) 22#5) e)]
  | .vshr d a b m e => [word (put (put (put (put (put (put 39 d) a) b) m) 23#5) e)]
  | .vperm d a b m e => [word (put (put (put (put (put (put 39 d) a) b) m) 24#5) e)]
  | .vbcast d a m e => [word (put (put (put (put (put (put 39 d) a) 0#5) m) 25#5) e)]
  | .vmov d a m e => [word (put (put (put (put (put (put 39 d) a) 0#5) m) 26#5) e)]
  | .vmovToG d a k e => [word (put (put (put (put (put (put 39 d) a) k) 0#3) 27#5) e)]
  | .vld d a b m n e => [word (put (put (put (put (put (put (put (put 40 d) a) b) m) 0#1) n) 0#3) e)]
  | .vst d a b m n e => [word (put (put (put (put (put (put (put (put 40 d) a) b) m) 0#1) n) 1#3) e)]
  | .vlds d a b m n e => [word (put (put (put (put (put (put (put (put 40 d) a) b) m) 0#1) n) 2#3) e)]
  | .vgat d a b m n e => [word (put (put (put (put (put (put (put (put 40 d) a) b) m) 0#1) n) 3#3) e)]
  | .vsca d a b m n e => [word (put (put (put (put (put (put (put (put 40 d) a) b) m) 0#1) n) 4#3) e)]
  | .vcvt d a p m t e => [word (put (put (put (put (put (put (put 41 d) a) 0#2) p) m) t) e)]
  | .vcvtFromFp4 d a p m e => [word (put (put (put (put (put (put (put 41 d) a) 0#2) p) m) 9#5) e)]
  | .vquantFp4 d a b q => [word (put (put (put (put (put (put 41 d) a) b) 0#3) q) 0#3)]
  | .vquantInt4x d a b => [word (put (put (put (put (put (put 41 d) a) b) 0#3) 16#5) 0#3)]
  | .vdeqFp4 d a h m q e => [word (put (put (put (put (put (put (put 41 d) a) 0#4) h) m) q) e)]
  | .vdeqInt4x d a h m e => [word (put (put (put (put (put (put (put 41 d) a) 0#4) h) m) 23#5) e)]
  | .vredSum d a m e => [word (put (put (put (put (put (put 42 d) a) 0#5) m) 0#5) e)]
  | .vredMax d a m e => [word (put (put (put (put (put (put 42 d) a) 0#5) m) 1#5) e)]
  | .vredMin d a m e => [word (put (put (put (put (put (put 42 d) a) 0#5) m) 2#5) e)]
  | .vtopk d a k m e => [word (put (put (put (put (put (put (put (put 42 d) 0#1) a) 0#1) k) m) 3#5) e)]
  | .vargmax d a m e => [word (put (put (put (put (put (put 42 d) a) 0#5) m) 4#5) e)]
  | .vopt a => [word (put (put (put (put (put 42 0#5) a) 0#8) 5#5) 0#3)]
  | .mctx a b => [word (put (put (put (put 43 0#5) a) b) 0#11)]
  | .mfetch a b c o r s => [word (put (put (put (put (put (put (put 43 1#5) a) b) c) o) r) s)]
  | .mma p q n r l => [word (put (put (put (put (put (put (put 43 2#5) p) q) n) r) l) 0#4)]
  | .mzero t => [word (put (put (put (put 43 3#5) 0#4) t) 0#16)]
  | .mrd a b t z f => [word (put (put (put (put (put (put (put (put 43 4#5) a) b) 0#4) t) 0#3) z) f)]
  | .mwr a t => [word (put (put (put (put (put 43 5#5) a) 0#9) t) 0#6)]
  | .mrel i => [word (put (put (put (put 43 6#5) 0#16) 0#1) i)]
  | .mrelAll => [word (put (put (put (put 43 6#5) 0#16) 1#1) 0#4)]
  | .mstat a => [word (put (put (put 43 7#5) a) 0#16)]
  | .xdef a b c => [word (put (put (put (put (put 44 0#5) a) b) c) 0#6)]
  | .xsend a b p bk => [word (put (put (put (put (put (put 44 1#5) a) b) 0#9) p) bk)]
  | .xrep a c => [word (put (put (put (put (put 44 2#5) a) 0#5) c) 0#6)]
  | .xret a b c => [word (put (put (put (put (put 44 3#5) a) b) c) 0#6)]
  | .xown a b c q => [word (put (put (put (put (put (put 44 4#5) a) b) c) 0#3) q)]
  | .xjoin a b n p => [word (put (put (put (put (put (put 44 5#5) a) b) 0#9) n) p)]
  | .xupd a b c => [word (put (put (put (put (put 44 6#5) a) b) c) 0#6)]
  | .xcnt a b => [word (put (put (put (put 44 7#5) a) b) 0#11)]
  | .xq a c k => [word (put (put (put (put (put (put 44 8#5) a) 0#5) c) 0#2) k)]
  | .gpush a b => [word (put (put (put (put 45 0#5) a) b) 0#11)]
  | .gpop a c w => [word (put (put (put (put (put (put 45 1#5) a) 0#5) c) 0#5) w)]
  | .remit a c => [word (put (put (put (put (put 45 2#5) a) 0#5) c) 0#6)]
  | .rsort a => [word (put (put (put 45 3#5) a) 0#16)]
  | .rmap a d => [word (put (put (put (put 45 4#5) a) 0#15) d)]
  | .rclose a u => [word (put (put (put (put 45 5#5) a) 0#15) u)]
  | .rput a n => [word (put (put (put (put 46 0#5) a) 0#15) n)]
  | .rcfg a c r => [word (put (put (put (put (put (put 46 1#5) a) 0#5) c) 0#2) r)]
  | .rstat a c r => [word (put (put (put (put (put (put (put 46 2#5) a) 0#5) c) 0#1) 0#1) r)]
  | .rstatSum c => [word (put (put (put (put (put (put 46 2#5) 0#10) c) 0#1) 1#1) 0#4)]
  | .trap k => [word (put (put (put 0 1#5) 0#15) k)]
  | .sys k => [word (put (put (put 0 2#5) 0#15) k)]
  | .brk k => [word (put (put (put 0 3#5) 0#15) k)]
  | .rdsr a n => [word (put (put (put 0 4#5) a) n)]
  | .wrsr a n => [word (put (put (put 0 5#5) a) n)]
  | _ => []

/-- The bytes of an instruction as memory holds them. -/
def encodeBytes (i : Instr) : List (BitVec 8) := (encode i).flatMap bytesOfWord

/-- `k` bytes of the number `w`, the least significant first. -/
def numberBytes : Nat → Nat → List (BitVec 8)
  | 0, _ => []
  | k + 1, w => BitVec.ofNat 8 w :: numberBytes k (w / 256)

/-- The instruction the decoder reads from an instruction whose bits are `w` as the opcode table numbers them, the
bits above `nbits` being zero: the words are laid out little-endian, the first at the lowest address. -/
def decodeTableWord (nbits w : Nat) : Option Instr :=
  match decode (numberBytes 8 (w % 2 ^ nbits)) with
  | .ok (i, _) => some i
  | .error _ => none

end Sys2Proof
end

