-- ==== Sys2Proof/Machine/Access.lean ====
section
/-! DEFINITION. The accessors of the state: cores, coves, dies, partitions and blocks by their numbers, the current agent's
task and registers, and the monad in which the meanings are written. -/

namespace Sys2Proof.Machine

/-- How a meaning stops short: a cause to be taken, a wait that leaves the state as it was, a wait that keeps what it has
done (a walk started), a task that ships to a landing core (R132; none: no landing core is valid), an event that is not enabled, a fault. -/
inductive Stop where
  | trap (c : Cause)
  | wait
  | stall
  | ship (landing : Option Nat) (addr : Word)
  | no
  | fault (f : Fault)
  deriving DecidableEq, Repr

/-- Computations over the state that may stop. -/
abbrev M := EStateM Stop State

/-- How an instruction that has taken effect goes on: to the next word, to a target (a branch or jump that R68 counts, or
one that keeps a loop), nowhere (its task has left the bank), or with a cause of kind N. -/
inductive Ctl where
  | seq
  | jump (target : Word)
  | branch (target : Word)
  | leave (target : Word)
  | gone
  | raiseN (c : Cause)
  deriving DecidableEq, Repr

/-- The die, the cove of the device (0 to 127) and the slot of a core id (R8). -/
def dieOf (core : Nat) : Nat := core / 512
/-- The cove of the device, 0 to 127. -/
def coveOf (core : Nat) : Nat := core / 16
/-- The slot within the cove. -/
def slotOf (core : Nat) : Nat := core % 16
/-- A work core: slots 0 to 7 (R7). -/
def isWork (core : Nat) : Bool := slotOf core < 8 && core < 2048
/-- A pilot core: slot 8. -/
def isPilot (core : Nat) : Bool := slotOf core == 8 && core < 2048
/-- The routing core of a die: slot 9 of its cove 0. -/
def isRouting (core : Nat) : Bool := core % 512 == 9 && core < 2048
/-- Does the id name a core (R8)? -/
def isCore (core : Nat) : Bool := isWork core || isPilot core || isRouting core

/-- A core by its id. -/
def State.coreAt (s : State) (c : Nat) : Core := tabGet s.cores c {}
/-- The state with a core replaced. -/
def State.setCore (s : State) (c : Nat) (k : Core) : State := { s with cores := tabPut s.cores c k }
/-- The state with a core changed. -/
def State.modCore (s : State) (c : Nat) (f : Core → Core) : State := s.setCore c (f (s.coreAt c))
/-- A cove by its number. -/
def State.coveAt (s : State) (v : Nat) : Cove := tabGet s.coves v {}
/-- The state with a cove changed. -/
def State.modCove (s : State) (v : Nat) (f : Cove → Cove) : State := { s with coves := tabPut s.coves v (f (s.coveAt v)) }
/-- A die by its number. -/
def State.dieAt (s : State) (d : Nat) : Die := tabGet s.dies d {}
/-- The state with a die changed. -/
def State.modDie (s : State) (d : Nat) (f : Die → Die) : State := { s with dies := tabPut s.dies d (f (s.dieAt d)) }
/-- A partition by its number. -/
def State.partAt (s : State) (p : Nat) : Part := tabGet s.parts p {}
/-- The state with a partition changed. -/
def State.modPart (s : State) (p : Nat) (f : Part → Part) : State := { s with parts := tabPut s.parts p (f (s.partAt p)) }
/-- A launch queue of a partition. -/
def State.queueAt (s : State) (p q : Nat) : LaunchQueue := tabGet (s.partAt p).queues q {}
/-- The state with a launch queue changed. -/
def State.modQueue (s : State) (p q : Nat) (f : LaunchQueue → LaunchQueue) : State :=
  s.modPart p fun pt => { pt with queues := tabPut pt.queues q (f (tabGet pt.queues q {})) }
/-- The state with a block changed. -/
def State.modBlock (s : State) (u : Nat) (f : Block → Block) : State :=
  match tabFind s.blocks u with
  | some b => { s with blocks := tabPut s.blocks u (f b) }
  | none => s

/-- Does partition `p` hold the cove of core `c` (R413)? -/
def State.partHolds (s : State) (p c : Nat) : Bool :=
  bitOf (nth (s.partAt p).pmap (dieOf c) 0) (coveOf c % 32)
/-- The partition of a core's cove; 8 when none holds it. -/
def State.partOf (s : State) (c : Nat) : Nat := ((List.range 8).find? fun p => s.partHolds p c).getD 8

/-- Does the current core run its urgent bank? -/
def State.urgent (s : State) : Bool := (s.coreAt s.cur.core).b1.status == .running
/-- The running task of the current core. -/
def State.task (s : State) : Task :=
  if s.urgent then (s.coreAt s.cur.core).b1 else (s.coreAt s.cur.core).b0
/-- A core with a bank replaced. -/
def Core.setBank (k : Core) (urg : Bool) (t : Task) : Core := if urg then { k with b1 := t } else { k with b0 := t }
/-- A bank of a core. -/
def Core.bank (k : Core) (urg : Bool) : Task := if urg then k.b1 else k.b0
/-- The state with the running task replaced. -/
def State.setTask (s : State) (t : Task) : State := s.modCore s.cur.core fun k => k.setBank s.urgent t
/-- The state with the running task changed. -/
def State.modTask (s : State) (f : Task → Task) : State := s.setTask (f s.task)

/-- Has an instruction of a task been issued that waits and completes first (R121, R165, R169)? -/
def Task.begins (t : Task) : Bool := t.begun = 1 || t.begun = 2 || t.begunA = 1 || t.begunA = 2
/-- What is noted of the wait of an instruction of E or A. -/
def Task.begunOf (t : Task) (a : Bool) : Nat := if a then t.begunA else t.begun
/-- Note that the current agent's instruction has been issued and waits. -/
def State.begin (s : State) (n : Nat) : State :=
  s.modTask fun t => if s.cur.a then { t with begunA := max t.begunA n } else { t with begun := max t.begun n }

/-- The general registers of the current agent: its bank's, or A's copy (R22, R54). -/
def State.regs (s : State) : Vector Word 32 := if s.cur.a then s.task.a.g else s.task.g
/-- Read a general register: g0 reads as zero (R23). -/
def State.rg (s : State) (i : BitVec 5) : Word := if i = 0 then 0 else s.regs.get i.toFin
/-- A task with a general register of E or A written; a write of g0 is discarded (R23). -/
def Task.writeReg (t : Task) (a : Bool) (i : BitVec 5) (v : Word) : Task :=
  if i = 0 then t
  else if a then { t with a := { t.a with g := t.a.g.set i.toNat v i.isLt } }
  else { t with g := t.g.set i.toNat v i.isLt }
/-- Write a general register of the current agent. -/
def State.wg (s : State) (i : BitVec 5) (v : Word) : State := s.modTask fun t => t.writeReg s.cur.a i v
/-- The address of the current instruction. -/
def State.pc (s : State) : Word := if s.cur.a then s.task.a.pc else s.task.pc

/-- Stop with a precise cause (kind P). -/
def trapP {α : Type} (code : Nat) (addr : Word := 0) (sub : Nat := 0) (detail : Word := 0) : M α :=
  throw (.trap { code := code, kind := .p, addr := addr, sub := sub, detail := detail })
/-- Stop with a precise cause when a check fails. -/
def check (bad : Bool) (code : Nat) (addr : Word := 0) : M Unit := if bad then trapP code addr else pure ()
/-- Stop with a precise cause that says a name, a group, a bucket or a k in its record (R404) when a check fails. -/
def checkOf (bad : Bool) (code detail : Nat) : M Unit := if bad then trapP code 0 0 (BitVec.ofNat 64 detail) else pure ()
/-- Wait, with nothing done, until a condition holds. -/
def waitUntil (c : Bool) : M Unit := if c then pure () else throw .wait
/-- An event is enabled only when a condition holds. -/
def enabled (c : Bool) : M Unit := if c then pure () else throw .no
/-- The value of an option, or an event that is not enabled. -/
def orNo {α : Type} (o : Option α) : M α := match o with | some a => pure a | none => throw .no

/-- The id of the current core. -/
def curCore : M Nat := do return (← get).cur.core
/-- A core. -/
def coreM (c : Nat) : M Core := do return (← get).coreAt c
/-- The current core. -/
def cc : M Core := do return (← get).coreAt (← get).cur.core
/-- Change the current core. -/
def modCC (f : Core → Core) : M Unit := modify fun s => s.modCore s.cur.core f
/-- The running task. -/
def taskM : M Task := do return (← get).task
/-- Change the running task. -/
def modTaskM (f : Task → Task) : M Unit := modify (·.modTask f)
/-- Read a general register. -/
def rg (i : BitVec 5) : M Word := do return (← get).rg i
/-- Write a general register. -/
def wg (i : BitVec 5) (v : Word) : M Unit := modify (·.wg i v)
/-- The address of the current instruction. -/
def pcM : M Word := do return (← get).pc
/-- The partition of the current core. -/
def partM : M Nat := do return (← get).partOf (← get).cur.core

/-- Read the clock: the global time advances by a free amount before each reading (R284; notes/assumptions/4.md). -/
def readClock : M Nat :=
  modifyGet fun s => (s.now + Config.elapsed s.tick, { s with now := s.now + Config.elapsed s.tick, tick := s.tick + 1 })
/-- A fresh free value. -/
def freshWord : M Word := modifyGet fun s => (Config.freeWord s.tick, { s with tick := s.tick + 1 })

/-- Run a computation over each entry of a list. -/
def each {α : Type} (f : α → M Unit) : List α → M Unit
  | [] => pure ()
  | a :: r => do f a; each f r
/-- Map a computation over a list. -/
def mapEach {α β : Type} (f : α → M β) : List α → M (List β)
  | [] => pure []
  | a :: r => do let b ← f a; let bs ← mapEach f r; return b :: bs

/-- The outcome of an event: its effect, or nothing where it is not enabled. -/
def event (m : M Unit) (s : State) : Host.Outcome State Fault Refusal :=
  match m s with
  | .ok _ t => .next t
  | .error (.fault f) _ => .fault f
  | .error .stall t => .next t
  | .error _ _ => .next s

end Sys2Proof.Machine
end

