-- ==== Sys2Proof/Machine/Base.lean ====
section
/-! DEFINITION. Capability tables and endpoints (R235 to R239), the action table and trap records (R401 to R405), and finding
tasks. -/

namespace Sys2Proof.Machine

/-- The block of a core, if it belongs to one. -/
def State.blockOf (s : State) (c : Nat) : Option Block := ((s.coreAt c).block.bind fun b => tabFind s.blocks b.1)

/-- The offset T of a block's capability tables (R235), of which a record's ctab holds bits 17 to 8 (R81). -/
def Block.table (b : Block) : Nat := (b.carve * 32768 + 2 ^ 18 - 10 * b.slice * 1024 - 256) % 2 ^ 18

/-- The offset T of a core's capability table (R235, R83). -/
def State.tableAt (s : State) (c : Nat) : Nat :=
  match s.blockOf c with
  | some b => b.table
  | none => 0

/-- A word of a capability entry. -/
def Core.capWord (k : Core) (table j w : Nat) : Word := wordOfList (cellsGet k.spm (table + 16 * j + 8 * w) 8)
/-- Word 0 of entry j of a core's table. -/
def State.cap0 (s : State) (c j : Nat) : Word := (s.coreAt c).capWord (s.tableAt c) j 0
/-- Word 1 of entry j of a core's table. -/
def State.cap1 (s : State) (c j : Nat) : Word := (s.coreAt c).capWord (s.tableAt c) j 1
/-- The state with an entry of a core's table written. -/
def State.setCap (s : State) (c j : Nat) (w0 w1 : Word) : State :=
  s.modCore c fun k => { k with spm := cellsSet k.spm (s.tableAt c + 16 * j) (bytesOf w0 ++ bytesOf w1) }

/-- Do the cores of a core's partition run: no gang switch has stopped them (R416)? -/
def State.coreGoes (s : State) (c : Nat) : Bool := (s.partAt (s.partOf c)).swState == 0

/-- The device id of the package (R287). -/
def State.device (s : State) : Nat := fieldOf s.tidecfg 11 0
/-- An endpoint (R239). -/
def endpoint (rank crew die device : Nat) : BitVec 29 := BitVec.ofNat 29 (rank + 8 * crew + 32768 * die + 131072 * device)
/-- The rank of an endpoint. -/
def epRank (e : BitVec 29) : Nat := e.toNat % 8
/-- The origin crew of an endpoint. -/
def epCrew (e : BitVec 29) : Nat := e.toNat / 8 % 4096
/-- The origin die of an endpoint. -/
def epDie (e : BitVec 29) : Nat := e.toNat / 32768 % 4
/-- The device of an endpoint. -/
def epDevice (e : BitVec 29) : Nat := e.toNat / 131072 % 4096
/-- The endpoint of a core (R239); a core of no block shows the reset value, crew and rank 0 of die 0 (notes/assumptions/14.md). -/
def State.endpointOf (s : State) (c : Nat) : BitVec 29 :=
  match (s.coreAt c).block, s.blockOf c with
  | some (_, rank), some b => endpoint rank b.originCrew b.originDie s.device
  | _, _ => endpoint 0 0 0 s.device
/-- The live block that an endpoint of this device names: its number, and the rank if the block has it. -/
def State.blockNamed (s : State) (e : BitVec 29) : Option (Nat × Block) :=
  s.blocks.find? fun b => b.2.originDie == epDie e && b.2.originCrew == epCrew e && epRank e < b.2.originCores.length

/-- The virtual page number of a TLB entry (R125). -/
def TlbEntry.vpn (e : TlbEntry) : Nat := fieldOf e.w0 39 0
/-- Its address space. -/
def TlbEntry.asid (e : TlbEntry) : Nat := fieldOf e.w0 51 40
/-- Its physical page number. -/
def TlbEntry.ppn (e : TlbEntry) : Nat := fieldOf e.w1 35 0
/-- Entry valid. -/
def TlbEntry.v (e : TlbEntry) : Bool := bitOf e.w1 36
/-- Data accesses allowed. -/
def TlbEntry.r (e : TlbEntry) : Bool := bitOf e.w1 37
/-- Stores and atomics allowed. -/
def TlbEntry.w (e : TlbEntry) : Bool := bitOf e.w1 38
/-- Instruction fetch allowed. -/
def TlbEntry.x (e : TlbEntry) : Bool := bitOf e.w1 39
/-- Reached from the unprivileged view. -/
def TlbEntry.u (e : TlbEntry) : Bool := bitOf e.w1 40
/-- No cross-die directory tracking. -/
def TlbEntry.nc (e : TlbEntry) : Bool := bitOf e.w1 41
/-- Square sector layout. -/
def TlbEntry.sq (e : TlbEntry) : Bool := bitOf e.w1 42
/-- An access from another die ships the task. -/
def TlbEntry.ship (e : TlbEntry) : Bool := bitOf e.w1 43
/-- Page size code. -/
def TlbEntry.size (e : TlbEntry) : Nat := fieldOf e.w1 45 44
/-- Matches every ASID of the partition. -/
def TlbEntry.g (e : TlbEntry) : Bool := bitOf e.w1 46
/-- Contents not resident; can be regenerated. -/
def TlbEntry.rg (e : TlbEntry) : Bool := bitOf e.w1 47
/-- Regeneration index. -/
def TlbEntry.rix (e : TlbEntry) : Nat := fieldOf e.w1 55 48
/-- Home die. -/
def TlbEntry.home (e : TlbEntry) : Nat := fieldOf e.w1 57 56
/-- The page bits beyond 64 KiB of a size: 0, 5 or 14 (R126). -/
def TlbEntry.extra (e : TlbEntry) : Nat := match e.size with | 0 => 0 | 1 => 5 | _ => 14
/-- Does an entry map a virtual address, whatever the address space? -/
def TlbEntry.maps (e : TlbEntry) (va : Nat) : Bool :=
  va / 2 ^ (16 + e.extra) % 2 ^ (40 - e.extra) == e.vpn / 2 ^ e.extra
/-- Does an entry match an address under an ASID (R126)? -/
def TlbEntry.matchesVa (e : TlbEntry) (asid va : Nat) : Bool := e.v && (e.g || e.asid == asid) && e.maps va
/-- The physical address of a virtual address through an entry. -/
def TlbEntry.paOf (e : TlbEntry) (va : Nat) : Nat :=
  e.ppn / 2 ^ e.extra * 2 ^ (16 + e.extra) + va % 2 ^ (16 + e.extra)

/-- The ASID of a core's tasks (R124): its block's; 0 for a core of no block (notes/assumptions/15.md). -/
def State.asidOf (s : State) (c : Nat) : Nat := match s.blockOf c with | some b => b.asid | none => 0

/-- The length of the instruction a saved PC names is 8 for FRAME (R406): the major of the word. -/
def isFrameWord (w : BitVec 32) : Bool := w.extractLsb' 26 6 == 0x16#6

/-- The word at an address of a core's tasks, where a TLB entry of its cove maps it. -/
def State.wordAt (s : State) (core : Nat) (pc : Word) : Option (BitVec 32) :=
  (((s.coreAt core).utlb ++ (s.coveAt (coveOf core)).tlb).find? fun e =>
    (e.g || e.asid == s.asidOf core) && e.maps pc.toNat).map fun e =>
    BitVec.ofNat 32 (natOfBytes (cellsGet s.mem (e.paOf pc.toNat) 4))

/-- Does a FRAME stand at an address of a core's tasks, where the page is mapped (R406)? -/
def State.frameAt (s : State) (core : Nat) (pc : Word) : Option Bool := (s.wordAt core pc).map isFrameWord

/-- The action entry of a cause in a partition (R401). -/
def Part.actionOf (p : Part) (code : Nat) : Nat := fieldOf (nth p.act (code / 8) 0) (8 * (code % 8) + 7) (8 * (code % 8))

/-- The number of waiting record copies of a partition on a die (R405). -/
def Die.recordsOf (d : Die) (p : Nat) : Nat := (d.records.filter fun r => r.part == p).length

/-- Can `n` more copies of a partition wait on the die (R405)? -/
def Die.roomFor (d : Die) (p n : Nat) : Bool := d.recordsOf p < 64 && d.recordsOf p + n ≤ 64 && d.records.length + n ≤ 256

/-- The number of a kind in a record (R404). -/
def Kind.number : Kind → Nat
  | .p => 0 | .n => 1 | .a => 2 | .r => 3

/-- The words of a trap record (R404). -/
def recordWords (c : Cause) (urg priv : Bool) (part core slot act : Nat) (ffail : Bool) (crew : Nat) (pc task : Word)
    (time : Nat) (seqno : Word) : List Word :=
  [ BitVec.ofNat 64 (c.code + c.kind.number * 2 ^ 8 + (if c.aSeq then 2 ^ 10 else 0) + (if urg then 2 ^ 11 else 0)
      + (if priv then 2 ^ 12 else 0) + part * 2 ^ 13 + core * 2 ^ 16 + slot * 2 ^ 27 + act * 2 ^ 30
      + (if ffail then 2 ^ 32 else 0) + crew * 2 ^ 33),
    pc, c.addr, task,
    BitVec.ofNat 64 ((c.jix.getD 0) + (if c.jix.isSome then 32 else 0) + c.sub % 256 * 256),
    BitVec.ofNat 64 time, c.detail, seqno ]

/-- Count a record made by a partition (R404). -/
def Part.countRecord (p : Part) : Part := { p with made := (p.made + 1) % 65536, seqno := p.seqno + 1 }

/-- Report a cause of kind R (R402, R405): its record is made and delivered if its entry says so, or counted as lost where
there is no room. `die` keeps the record; `core` is 0 and `src` too when no core is concerned. -/
def reportFrom (src : BitVec 29) (part die core : Nat) (c : Cause) (crew : Nat) (task : Word) (s : State) : State :=
  let p := s.partAt part
  let e := p.actionOf c.code
  let now := s.now + Config.elapsed s.tick
  let s := { s with now := now, tick := s.tick + 1 }
  let rep := e / 4 % 2 == 1
  if rep && !(s.dieAt die).roomFor part 1 then
    s.modPart part fun p => { p with lost := (p.lost + 1) % 65536, seqno := p.seqno + 1 }
  else
    let s := s.modPart part Part.countRecord
    let ws := recordWords { c with kind := .r } false false part core 0 (e % 4) false crew 0 task now (s.partAt part).seqno
    if rep then s.modDie die fun d => { d with records := d.records ++ [{ part := part, core := core, src := src, words := ws }] }
    else s

/-- A report that concerns no core, or one other than core 0 (R402). -/
def report (part die core : Nat) (c : Cause) (crew : Nat) (task : Word) (s : State) : State :=
  reportFrom (if core = 0 then 0 else s.endpointOf core) part die core c crew task s

/-- A report that concerns a core. -/
def reportOn (core : Nat) (c : Cause) (crew : Nat) (task : Word) (s : State) : State :=
  reportFrom (s.endpointOf core) (s.partOf core) (dieOf core) core c crew task s

/-- Report against a core (R402). -/
def reportCore (core : Nat) (c : Cause) (s : State) : State :=
  reportOn core c (match s.blockOf core with | some b => b.crew | none => 0) 0 s

/-- The tasks of a core: its banks and its park slots. -/
def Core.tasks (k : Core) : List Task :=
  (if k.b0.status = .empty then [] else [k.b0]) ++ (if k.b1.status = .empty then [] else [k.b1])
    ++ k.parks.map (·.2.task)

/-- Has a core a task in any state, ready ones among them (R84)? -/
def Core.hasTask (k : Core) : Bool := !(k.tasks.isEmpty && k.runN.isEmpty && k.runU.isEmpty && k.deque.isEmpty)

/-- Is entry j of a core's table a send entry with right S (R405)? -/
def State.sendable (s : State) (core j : Nat) : Bool :=
  fieldOf (s.cap0 core j) 3 0 == 1 && bitOf (s.cap0 core j) 4

/-- Clear the causes of a list that satisfy a test; the turn of clearing orders the resumes (R86, R137). -/
def clearWhere (at_ : Nat) (f : ParkCause → Bool) (l : List ParkCause) : List ParkCause :=
  l.map fun w => if f w && !w.cleared then { w with cleared := true, clearedAt := at_ } else w

/-- Clear causes of a parked task. -/
def Parked.clear (p : Parked) (at_ : Nat) (f : ParkCause → Bool) : Parked := { p with causes := clearWhere at_ f p.causes }

/-- When the last cause of a parked task cleared (R86). -/
def Parked.clearedAt (p : Parked) : Nat := p.causes.foldl (fun n w => max n w.clearedAt) 0

/-- Does a task doze, for what satisfies a test (R298)? -/
def Task.dozesFor (t : Task) (f : Doze → Bool) : Bool := match t.doze with | some z => z.result.isNone && f z | none => false

/-- A doze of a task that is held in its bank ends with a result. -/
def Task.dozed (t : Task) (at_ r : Nat) : Task :=
  { t with doze := t.doze.map fun z => { z with result := some r }, heldFor := clearWhere at_ (fun c => c.why == .doze) t.heldFor }
/-- A doze of a parked task ends with a result. -/
def Parked.dozed (p : Parked) (at_ r : Nat) : Parked :=
  { (p.clear at_ fun c => c.why == .doze) with task := p.task.dozed at_ r }

/-- The dozes of a core that satisfy a test end with a result (R298): those of parked tasks and those of held ones (R84). -/
def Core.endDozes (k : Core) (at_ r : Nat) (f : Task → Doze → Bool) : Core :=
  let held (t : Task) : Task := if t.dozesFor (f t) then t.dozed at_ r else t
  { k with
    b0 := held k.b0, b1 := held k.b1
    parks := k.parks.map fun x => (x.1, if x.2.task.dozesFor (f x.2.task) then x.2.dozed at_ r else x.2) }

/-- Clear causes of every parked task of a core, and of every held one. -/
def Core.clearCauses (k : Core) (at_ : Nat) (f : ParkCause → Bool) : Core :=
  let held (t : Task) : Task := { t with heldFor := clearWhere at_ f t.heldFor }
  { k with b0 := held k.b0, b1 := held k.b1, parks := k.parks.map fun x => (x.1, x.2.clear at_ f) }

/-- Find a live task: the core that holds it. -/
def State.coreOfTask (s : State) (tid : Nat) : Option Nat :=
  (s.cores.find? fun c => c.2.tasks.any fun t => t.tid == tid).map (·.1)

/-- The blocks saved by an ebb that hold a task. -/
def Block.holdsTask (b : Block) (tid : Nat) : Bool := b.saved.any fun k => k.tasks.any fun t => t.tid == tid

end Sys2Proof.Machine
end

