-- ==== Sys2Proof/Machine/Fabric.lean ====
section
/-! DEFINITION. The message class (spec/13, spec/14): where a packet goes, the loops of a die, the Linlos ports with their causal
stamps, the tide links, the inbox. Order within a die is that of `Die.ring`; between dies the acknowledgements, credits and refusals
travel unstamped and in no order (R275). -/

namespace Sys2Proof.Machine

/-- The number of an ordered pair of dies (R276). -/
def pairIndex (i j : Nat) : Nat := 3 * i + (if j < i then j else j - 1)
/-- x ≤ y modulo 4,096 (R277). -/
def stampLe (x y : Nat) : Bool := (y + 4096 - x) % 4096 < 2048
/-- The later of two counters under that order. -/
def stampMax (x y : Nat) : Nat := if stampLe x y then y else x

/-- The causal state of a die for a partition. -/
def State.causalAt (s : State) (d p : Nat) : Causal := tabGet (s.dieAt d).causal p {}
/-- The state with it changed. -/
def State.modCausal (s : State) (d p : Nat) (f : Causal → Causal) : State :=
  s.modDie d fun x => { x with causal := tabPut x.causal p (f (tabGet x.causal p {})) }

/-- The loop that a class selects for a partition (R272). -/
def Part.loopOf (p : Part) (cls : Nat) : Nat := fieldOf p.loopmap (8 * cls + 4) (8 * cls)

/-- Does a loop visit a stop (R271)? Loop 0 visits every stop; what the others visit is open (notes/assumptions/41.md). -/
def visits (l stop : Nat) : Bool := l == 0 || Config.loopStop l stop

/-- The stop of a core: that of its cove (R271). -/
def stopOf (c : Nat) : Nat := coveOf c % 32
/-- The stop of the scheduler, the sort and the reduce engine. -/
def unitStop : Nat := 91
/-- The stop on die d of the Linlos port to another die. -/
def linkStop (d other : Nat) : Nat := 83 + (if other < d then other else other - 1)
/-- The stop of a tide port on its die. -/
def tideStop (port : Nat) : Nat := 86 + port % 4

/-- Where a packet's endpoint stands now (R246): `away` is another die of the package on its way, `port` the tide port by which it
leaves the device. -/
inductive Target where
  | core (c : Nat)
  | saved (block rank : Nat)
  | moved (die : Nat)
  | away (die : Nat)
  | port (port : Nat)
  | gone
  deriving DecidableEq, Repr

/-- The bytes of a route table entry (R286). -/
def State.routeByte (s : State) (device k : Nat) : Nat :=
  natOfBytes (cellsGet s.mem ((s.rtbase.toNat / 131072) * 131072 + 32 * device + 2 * k) 2)
/-- Path k to a device is valid. -/
def State.pathValid (s : State) (device k : Nat) : Bool := s.routeByte device k / 16 % 2 == 1
/-- The egress port of path k. -/
def State.pathPort (s : State) (device k : Nat) : Nat := s.routeByte device k % 16

/-- What a packet at die `d` still has before it, until it is at the die where it is delivered or leaves the device: the die of its
core, of its endpoint's origin, or of the port of its path (R246, R286). -/
def State.onward (s : State) (d : Nat) (p : Packet) : Option Target :=
  match p.home, p.tide with
  | some c, _ => if dieOf c = d then none else some (.away (dieOf c))
  | none, some t =>
    if epDevice p.ep ≠ s.device then
      let port := s.pathPort t.device t.path
      some (if port / 4 = d then .port port else .away (port / 4))
    else if p.forwarded || epDie p.ep = d then none else some (.away (epDie p.ep))
  | none, none => if p.forwarded || epDie p.ep = d then none else some (.away (epDie p.ep))

/-- What a packet at die `d` finds: its way goes on; its block's core on this die, its block in a frame, its block on another die, no
block. -/
def State.target (s : State) (d : Nat) (p : Packet) : Target :=
  match s.onward d p with
  | some t => t
  | none =>
    match p.home with
    | some c => .core c
    | none =>
      match s.blockNamed p.ep with
      | none => .gone
      | some (u, b) =>
        if b.absent then .saved u (epRank p.ep)
        else if b.die = d then .core (nth b.cores (epRank p.ep) 0)
        else .moved b.die

/-- The core, or the saved core, of a target. -/
def State.targetCore (s : State) : Target → Option Core
  | .core c => some (s.coreAt c)
  | .saved u r => (tabFind s.blocks u).bind fun b => b.saved[r]?
  | _ => none

/-- The state with the core of a target changed, in its frame while its block is absent. -/
def State.modTarget (s : State) (t : Target) (f : Core → Core) : State :=
  match t with
  | .core c => s.modCore c f
  | .saved u r => s.modBlock u fun b => { b with saved := b.saved.set r (f (nth b.saved r {})) }
  | _ => s

/-- The table offset of a target's core. -/
def State.targetTable (s : State) : Target → Nat
  | .core c => s.tableAt c
  | .saved u _ => match tabFind s.blocks u with | some b => b.table | none => 0
  | _ => 0

/-- The stop at which a packet leaves the loop of a die: its core's, or that of the port by which it goes on; else that of the scheduler,
which forwards it, writes it into a frame or returns it (R246, R271). -/
def State.endStop (s : State) (d : Nat) (p : Packet) : Nat :=
  match s.target d p with
  | .core c => stopOf c
  | .away e => linkStop d e
  | .port n => tideStop n
  | _ => unitStop

/-- The loop that carries a packet on a die: that of its class, or loop 0 where that does not visit both stops (R272). -/
def State.loopFor (s : State) (d : Nat) (p : Packet) : Nat :=
  let l := (s.partAt p.part).loopOf p.cls
  if visits l p.stop && visits l (s.endStop d p) then l else 0

/-- A die's message ring takes a packet. -/
def ringPut (d : Nat) (p : Packet) (s : State) : State :=
  s.modDie d fun x => { x with ring := x.ring ++ [{ loop := s.loopFor d p, packet := p }] }

/-- What is kept of a device. -/
def State.peerAt (s : State) (device : Nat) : Peer := tabGet s.peers device {}
/-- The state with it changed. -/
def State.modPeer (s : State) (device : Nat) (f : Peer → Peer) : State :=
  { s with peers := tabPut s.peers device (f (s.peerAt device)) }
/-- Path k to a device is up: its port is enabled and the path acknowledges (R286, R287). -/
def State.pathUp (s : State) (device k : Nat) : Bool :=
  s.pathValid device k && bitOf s.tidecfg (12 + s.pathPort device k) && nth (s.peerAt device).up k true
/-- The paths of a device that satisfy a test. -/
def pathsWith (f : Nat → Bool) : List Nat := (List.range 4).filter f
/-- A device is down: every valid path to it is down, or it was declared so (R287). -/
def State.deviceDown (s : State) (device : Nat) : Bool :=
  (s.peerAt device).down || (pathsWith (s.pathUp device)).isEmpty
/-- Has a device no valid path at all (R286)? -/
def State.noRoute (s : State) (device : Nat) : Bool := (pathsWith (s.pathValid device)).isEmpty

/-- A list with an entry changed. -/
def bumpNth (l : List Nat) (i n m : Nat) : List Nat := l.set i ((nth l i 0 + n) % m)

/-- Is a packet a credit or an acknowledgement: unstamped and in no order between dies (R275)? -/
def Packet.isFree (p : Packet) : Bool :=
  match p.kind with
  | .credit _ | .ack _ | .refusal .. | .putAck .. | .performed _ => true
  | _ => false

/-- Is traffic between two dies fenced (R282)? -/
def State.fenced (s : State) (i j : Nat) : Bool := i ≠ j && (s.fence.getLsbD i || s.fence.getLsbD j)

/-- Does quiesce hold a packet: one of its partition, that is not on its way between two other devices (R283)? -/
def State.quiets (s : State) (p : Packet) : Bool :=
  (s.partAt p.part).quiesce && (epDevice p.src == s.device || epDevice p.ep == s.device || p.home.isSome)

/-- The key of a port or link of an ordered pair of dies. -/
def portKey (i j : Nat) : Nat := 4 * i + j

/-- Does a packet cross Linlos unstamped: a credit or an acknowledgement, or what came over a tide link (R275)? -/
def Packet.plain (p : Packet) (s : State) : Bool := p.isFree || (p.tide.isSome && epDevice p.src ≠ s.device)

/-- May a packet leave the port of die i to die j (R278, R282, R283)? -/
def State.mayCross (s : State) (i j : Nat) (p : Packet) : Bool :=
  !s.quiets p && !s.fenced i j && (p.plain s || tabGet s.unacked (p.part * 16 + portKey i j) 0 < 2047)

/-- The first packet of a port that may leave it: in the order of each partition but for credits and acknowledgements. -/
def State.portNext (s : State) (i j : Nat) (q : List Packet) : Option Nat :=
  (List.range q.length).find? fun k => match q[k]? with
    | none => false
    | some p => s.mayCross i j p && (p.isFree || !(q.take k).any fun e => e.part == p.part && !e.isFree)

/-- Move what may leave a port onto its link (R277, R278, R282, R283), stamped where it is to be (R275). -/
def pumpPort (i j : Nat) : Nat → State → State
  | 0, s => s
  | fuel + 1, s =>
    let q := tabGet s.ports (portKey i j) []
    match (s.portNext i j q).bind fun k => q[k]?.map fun p => (k, p) with
    | none => s
    | some (k, p) =>
      let s := { s with ports := tabPut s.ports (portKey i j) (q.eraseIdx k) }
      if p.plain s then
        pumpPort i j fuel { s with links := tabPut s.links (portKey i j) (tabGet s.links (portKey i j) [] ++ [{ p with stamp := none }]) }
      else
        let s := s.modCausal i p.part fun c => { c with m := bumpNth c.m (pairIndex i j) 1 4096 }
        let c := s.causalAt i p.part
        let p := { p with stamp := some { cnt := c.m, epoch := c.epoch } }
        let u := p.part * 16 + portKey i j
        pumpPort i j fuel { s with
          links := tabPut s.links (portKey i j) (tabGet s.links (portKey i j) [] ++ [p])
          unacked := tabPut s.unacked u (tabGet s.unacked u 0 + 1) }

/-- A die holds n packets of a partition for the fences f: they are counted, and each fence reported once by that die (R282). -/
def fenceHeld (d part n : Nat) (f : List Nat) (s : State) : State :=
  (f.filter s.fence.getLsbD).foldl (fun s f =>
    if (s.dieAt d).fenceTold.getLsbD f then s
    else report part d 0 { code := 0x43, kind := .r, detail := BitVec.ofNat 64 f } 0 0
      (s.modDie d fun x => { x with fenceTold := x.fenceTold ||| BitVec.ofNat 4 (2 ^ f) }))
    (s.modDie d fun x => { x with lnkcnt := bumpField x.lnkcnt 55 48 n })

/-- A packet waits at the port of die i to die j; a fence on either holds and counts it (R282). -/
def portPut (i j : Nat) (p : Packet) (s : State) : State :=
  let q := tabGet s.ports (portKey i j) [] ++ [p]
  let s := { s with ports := tabPut s.ports (portKey i j) q }
  let s := if s.fenced i j then fenceHeld i p.part 1 [i, j] s else s
  pumpPort i j q.length s

/-- A packet starts at its source on die `d`: it enters the loop of its class (R272), or waits while its partition is quiesced (R283). -/
def startPacket (d : Nat) (p : Packet) (s : State) : State :=
  if (s.partAt p.part).quiesce then s.modDie d fun x => { x with quiet := x.quiet ++ [p] } else ringPut d p s

/-- The packet that answers a packet: to its sender. -/
def Packet.reply (p : Packet) (home : Option Nat) (k : PacketKind) : Packet :=
  { kind := k, ep := p.src, home := home, src := p.ep, core := p.core, tid := p.tid, part := p.part, cls := 7, flag := p.flag }

/-- Is a packet one of a copy engine? -/
def Packet.ofCopy (p : Packet) : Bool := match p.kind with | .put .. | .getRequest .. | .getData .. => true | _ => false
/-- Is a packet a bounce? -/
def Packet.isBounce (p : Packet) : Bool := match p.kind with | .bounceBack .. => true | _ => false
/-- Do the counts of a pair of devices cover a packet (R323)? -/
def Packet.counts (p : Packet) : Bool := !p.isFree && !p.isBounce

/-- The sending core of a packet that has no endpoint of its own: a core of this device with no block. -/
def Packet.senderHome (p : Packet) (s : State) : Option Nat :=
  if p.tide.isNone && epDevice p.src == s.device && (s.coreAt p.core).block.isNone && !isWork p.core && p.tid ≠ 0 then some p.core else none

/-- Does a packet answer another: a credit, an acknowledgement, a refusal, the data of a get, a bounce? -/
def Packet.answers (p : Packet) : Bool :=
  match p.kind with
  | .message .. | .pst .. | .pst4 .. | .put .. | .getRequest .. | .gate .. => false
  | _ => true

/-- A token of an expert replica is freed: its pending count falls (R332). -/
def freeToken (tok : Option (Nat × Nat)) (s : State) : State :=
  match tok with
  | none => s
  | some (n, q) =>
    match tabFind s.names n with
    | none => s
    | some x =>
      let r := tabGet x.replicas q {}
      { s with names := tabPut s.names n { x with replicas := tabPut x.replicas q { r with pending := r.pending - 1 } } }

/-- Count a refused or bounced packet of an expert selector (R355). -/
def countBounce (n : Nat) (s : State) : State := s.modDie (n % 4) fun x => { x with xstat := bumpField x.xstat 47 40 1 }

/-- A packet of a core to another device needs no further acknowledgement (R305). -/
def settleTide (p : Packet) (s : State) : State :=
  if p.tid ≠ 0 && !p.ofCopy && !p.answers && p.token.isNone && epDevice p.ep ≠ s.device && epDevice p.src = s.device then
    s.modCore p.core fun k => { k with outTide := k.outTide - 1 }
  else s

/-- The way by which what is returned goes, and the account of R288. -/
structure Ways where
  put : Packet → State → State
  performed : State → State

/-- Does a packet belong to a token that a selector of another device forwarded? -/
def Packet.foreignToken (p : Packet) (s : State) : Bool := p.token.isSome && epDevice p.src ≠ s.device

/-- Return a packet to its sender (R246, R283): a message as a class 7 bounce with its credit; a posted store's entry is kept,
a copy ends with status 5. `code` is raised against the sending task; 0 raises nothing. What a resync or a stale epoch `refuse`s is
refused: the cause of a store or copy is one of 0x24 and 0x25, which the spec leaves open (notes/assumptions/16.md). A message
without allowance returns to what sent it: a trap record to its die's store, a notice of a selector to nothing. -/
def returnPacket (w : Ways) (d : Nat) (p : Packet) (code : Nat) (refuse : Bool) (s : State) : State :=
  let home := p.senderHome s
  let head : Word := BitVec.ofNat 64 (p.src.toNat + p.cls * 2 ^ 29 + 2 * 2 ^ 50)
  let s := settleTide p s
  let cause := if refuse then 0x24 + (Config.freeWord s.tick).toNat % 2 else code
  let drawn (s : State) : State := if refuse then { s with tick := s.tick + 1 } else s
  let store (j : Nat) (s : State) : State :=
    if refuse then w.put (p.reply home (.refusal j cause)) (drawn (w.performed s))
    else w.put (p.reply home (.bounceBack head 0 [] code 0 false (some j))) (w.performed s)
  let copy (k : PacketKind) (s : State) : State :=
    let s := w.put (p.reply home k) (drawn (w.performed s))
    if code = 0 then s else w.put (p.reply home (.bounceBack head 0 [] code 0 false none)) s
  match p.kind with
  | .message h0 h1 pl credit =>
    match p.notice with
    | some (n, _) =>
      report p.part d 0 { code := 0x29, kind := .r, detail := BitVec.ofNat 64 n } 0 0 (w.performed (countBounce n s))
    | none =>
      if !credit && p.token.isNone then
        (w.performed s).modDie (dieOf p.core) fun x => { x with records := x.records ++ [{
          part := p.part, core := p.core, words := pl
          forward := if fieldOf h0 37 34 = 0 then none else some (fieldOf h0 37 34) }] }
      else
        let detail : Word := match p.token with | some (n, _) => BitVec.ofNat 64 n | none => 0
        let foreign := p.foreignToken s
        let s := match p.token with | some (n, _) => if foreign then s else countBounce n s | none => s
        let answer := { p.reply home (.bounceBack (withField h0 51 50 2) h1 pl code detail credit none) with
          token := if foreign then p.token else none }
        w.put answer (if foreign then w.performed s else freeToken p.token (w.performed s))
  | .pst j .. => store j s
  | .pst4 j .. => store j s
  | .put c off _ _ _ => copy (.putAck c 0 5 cause off) s
  | .getRequest c off _ => copy (.getData c [] [] 5 cause off) s
  | _ => w.put p s

/-- The bytes of a packet on a link: a header of 16 and its payload (R273). -/
def Packet.wireBytes (p : Packet) : Nat :=
  16 + match p.kind with
    | .message .. => 64
    | .bounceBack .. => 64
    | .pst _ _ n _ => n
    | .pst4 .. => 8
    | .put _ _ b _ _ => b.length
    | .getData _ b _ _ _ _ => b.length
    | _ => 0

/-- The bytes of a chunk packet (R273, R384): its header, 32 codes, the scale, the flags. -/
def chunkBytes : Nat := 16 + 34

/-- The bytes queued at a tide port (R286). -/
def State.queuedAt (s : State) (port : Nat) : Nat :=
  (tabGet s.tideOut port []).foldl (fun n p => n + p.wireBytes) (chunkBytes * (tabGet s.chunkPorts port []).length)

/-- The path that a packet to a device takes: of those that are up the one with the fewest bytes queued at its port, and of equals the
lowest (R286). -/
def State.bestPath (s : State) (dev : Nat) : Option Nat :=
  (pathsWith (s.pathUp dev)).foldl (fun best k => match best with
    | none => some k
    | some b => if s.queuedAt (s.pathPort dev k) < s.queuedAt (s.pathPort dev b) then some k else some b) none

/-- A packet takes a path to another device, and is counted (R286, R288); an ordered message is kept until its acknowledgement comes
(R289). -/
def takePath (d k : Nat) (p : Packet) (s : State) : State :=
  let dev := epDevice p.ep
  let ordered := (p.tide.bind (·.ordered)).map fun _ => (s.peerAt dev).sent
  let id := s.nextUid
  let p := { p with tide := some { device := dev, path := k, ordered := ordered, seq := id } }
  let flag := ordered.isSome && !p.ofCopy
  let p := if flag then { p with flag := some id } else p
  let s := { s with nextUid := id + 1 }
  let s := if p.counts then s.modPeer dev fun x => { x with
      sent := bumpNth x.sent k 1 65536, ackedAt := if x.sent = x.acked then s.now else x.ackedAt } else s
  startPacket d p (if flag then s.modPeer dev fun x => { x with flags := x.flags ++ [p] } else s)

/-- Does a packet to another device wait where none is up: an answer, or a notice of a selector, which has no sender to return to? -/
def Packet.stays (p : Packet) : Bool := p.answers || p.notice.isSome

/-- Send a packet over a tide path (R286). Where none is up, one without a sender to return to waits at the port of the lowest valid
path (R287, R337), and any other returns to its sender; one without a sender waits where no path is valid, reported (R2). -/
def tideSend (d : Nat) (p : Packet) (s : State) : State :=
  match s.bestPath (epDevice p.ep) with
  | some k => takePath d k p s
  | none =>
    if !p.stays then returnPacket { put := startPacket d, performed := id } d { p with tide := none } 0 false s
    else match (pathsWith (s.pathValid (epDevice p.ep))).head? with
      | some k => takePath d k p s
      | none => report 0 d 0 { code := 0x47, kind := .r } 0 0 { s with stranded := s.stranded ++ [(d, p)] }

/-- A packet starts on die `d` (R246, R272): towards its endpoint's origin die, or a tide port. -/
def inject (d : Nat) (p : Packet) (s : State) : State :=
  let p := { p with since := s.now }
  if p.home.isNone && epDevice p.ep ≠ s.device then tideSend d p s else startPacket d p s

/-- The stranded packets for which a path is valid start (R286). -/
def releaseStranded (s : State) : State :=
  let goes (x : Nat × Packet) : Bool := !s.noRoute (epDevice x.2.ep)
  (s.stranded.filter goes).foldl (fun s x => tideSend x.1 x.2 s) { s with stranded := s.stranded.filter fun x => !goes x }

/-- A packet from another device has been performed (R288): it counts in got, and the sender is told. Copies wait for answers of their
own (R305). -/
def performed (d : Nat) (p : Packet) (s : State) : State :=
  match p.tide with
  | some t =>
    if epDevice p.ep == s.device && p.home.isNone && p.counts then
      let stop := s.endStop d p
      let s := s.modPeer t.device fun x => { x with got := bumpNth x.got t.path 1 65536 }
      tideSend d { (p.reply none (.performed t.path)) with tid := if p.ofCopy then 0 else p.tid, stop := stop } s
    else s
  | none => s

/-- Return a packet to its sender from die `d`. While the partition is quiesced a bounce waits at its source with the rest of the
message class, and leaves stamped after the resync (R276, R283; notes/assumptions/40.md). -/
def turnBack (d : Nat) (p : Packet) (code : Nat) (s : State) (refuse : Bool := false) : State :=
  returnPacket { put := inject d, performed := performed d p } d p code refuse s

/-- A packet is deliverable at die j (R277). -/
def State.deliverable (s : State) (i j : Nat) (p : Packet) : Bool :=
  match p.stamp with
  | none => false
  | some st =>
    let c := s.causalAt j p.part
    nth st.cnt (pairIndex i j) 0 == (nth c.d i 0 + 1) % 4096 &&
      (List.range 4).all fun a => a == i || a == j || stampLe (nth st.cnt (pairIndex a j) 0) (nth c.d a 0)

/-- Deliver a packet of pair i to j (R277), and acknowledge it to die i. -/
def deliver (i j : Nat) (p : Packet) (s : State) : State :=
  let cnt := match p.stamp with | some st => st.cnt | none => []
  let s := s.modCausal j p.part fun c =>
    { c with d := bumpNth c.d i 1 4096, m := (List.range 12).map fun k => stampMax (nth c.m k 0) (nth cnt k 0) }
  let u := p.part * 16 + portKey i j
  let s := ringPut j { p with stamp := none, stop := linkStop j i } { s with unacked := tabPut s.unacked u (tabGet s.unacked u 0 - 1) }
  pumpPort i j (tabGet s.ports (portKey i j) []).length s

/-- Re-test the pooled packets of a partition, oldest first, until none delivers (R277). -/
def retest (j part : Nat) : Nat → State → State
  | 0, s => s
  | fuel + 1, s =>
    match (s.dieAt j).pool.find? fun e => e.2.part == part && s.deliverable e.1 j e.2 with
    | none => s
    | some e => retest j part fuel (deliver e.1 j e.2 (s.modDie j fun x => { x with pool := x.pool.erase e }))

/-- The number of partitions that hold coves (R279). -/
def State.liveParts (s : State) : Nat := ((List.range 8).filter fun p => (s.partAt p).pmap.any (· ≠ 0)).length

/-- The entries of the tide pool of a die that a partition and source use (R279). -/
def Die.poolUsed (x : Die) (part src : Nat) : Nat := (x.pool.filter fun e => e.1 == src && e.2.part == part).length

/-- The fences for which a pooled packet waits: those of a pair whose counter its stamp is ahead of (R282). -/
def State.poolFences (s : State) (i j : Nat) (p : Packet) : List Nat :=
  match p.stamp with
  | none => []
  | some st =>
    let c := s.causalAt j p.part
    let waits (a : Nat) : Bool :=
      if a = i then nth st.cnt (pairIndex i j) 0 ≠ (nth c.d i 0 + 1) % 4096
      else a ≠ j && !stampLe (nth st.cnt (pairIndex a j) 0) (nth c.d a 0)
    let pairs := (List.range 4).filter fun a => waits a && s.fenced a j
    (List.range 4).filter fun f => s.fence.getLsbD f && pairs.any fun a => f == a || f == j

/-- A packet is pooled on die j (R277); where a fence keeps it there it is counted (R282). -/
def poolPut (i j : Nat) (p : Packet) (s : State) : State :=
  let s := s.modDie j fun x => { x with pool := x.pool ++ [(i, { p with since := s.now })] }
  match s.poolFences i j p with
  | [] => s
  | f => fenceHeld j p.part 1 f s

/-- A stamped packet arrives at die j (R277, R283). -/
def arriveStamped (i j : Nat) (p : Packet) (st : Stamp) (s : State) : State :=
  let c := s.causalAt j p.part
  if st.epoch ≠ c.epoch then
    let s := s.modDie j fun x => { x with lnkcnt := bumpField x.lnkcnt 31 16 1 }
    let s := report p.part j 0 { code := 0x42, kind := .r } 0 0 s
    turnBack j { p with stamp := none } 0 s true
  else if (nth st.cnt (pairIndex i j) 0 + 4096 - nth c.d i 0) % 4096 ≥ 2048 then
    let s := s.modDie j fun x => { x with
      lnkcnt := bumpField x.lnkcnt 39 32 1, pool := x.pool ++ [(i, { p with stamp := none, since := s.now })] }
    report p.part j 0 { code := 0x40, kind := .r } 0 0 s
  else if s.deliverable i j p then
    retest j p.part ((s.dieAt j).pool.length + 1) (deliver i j p s)
  else poolPut i j p s

/-- Does the link from die i to die j hold a packet back: its partition's share of the pool is full (R279)? -/
def State.linkHolds (s : State) (i j : Nat) (p : Packet) : Bool :=
  match p.stamp with
  | none => false
  | some st =>
    (s.dieAt j).poolUsed p.part i ≥ 512 / max s.liveParts 1 && !s.deliverable i j p && st.epoch == (s.causalAt j p.part).epoch

/-- The first packet of a link, credits and acknowledgements apart, that the link does not hold back, and that follows none of its
partition that is held (R279, R280). -/
def State.linkNext (s : State) (i j : Nat) (q : List Packet) : Option Nat :=
  (List.range q.length).find? fun k => match q[k]? with
    | none => false
    | some p => !p.isFree && !s.linkHolds i j p && (p.stamp.isNone || !(q.take k).any fun g => g.stamp.isSome && g.part == p.part)

/-- The packets of a link that may arrive next: that one, and the credits and acknowledgements, in no order (R275). -/
def State.linkChoices (s : State) (i j : Nat) (q : List Packet) : List Nat :=
  (s.linkNext i j q).toList ++ (List.range q.length).filter fun k => match q[k]? with | some p => p.isFree | none => false

/-- One entry of a list: a free one where there are several. -/
def choose {α : Type} (l : List α) : M (Option α) :=
  match l with
  | [] => return none
  | [x] => return some x
  | _ => do return l[(← freshWord).toNat % l.length]?

/-- LINLOS_ARRIVAL (R277): a packet that may leave the link from die `i` to die `j` arrives. -/
def linlosArrival (i j : Nat) : M Unit := do
  let s ← get
  let q := tabGet s.links (portKey i j) []
  let k ← orNo (← choose (s.linkChoices i j q))
  let p ← orNo q[k]?
  modify fun s => { s with links := tabPut s.links (portKey i j) (q.eraseIdx k) }
  match p.stamp with
  | none => modify (ringPut j { p with stop := linkStop j i })
  | some st => modify (arriveStamped i j p st)

/-- Does a packet keep its place in the order of its loop (R273)? A message without allowance waits at its source, so only another
such message waits for it (R246), and so does an entry for a gate queue (R361). -/
def Packet.holds (g p : Packet) : Bool :=
  match g.kind, p.kind with
  | .message _ _ _ false, .message _ _ _ c => !c
  | .message _ _ _ false, _ => false
  | .gate .., .gate .. => true
  | .gate .., _ => false
  | _, _ => true

/-- Must flight f wait for flight g before it on its loop (R273): they have one endpoint, or one source and one destination stop? What
has been forwarded for an endpoint is the older, and does not wait for what has not (R246). -/
def State.follows (s : State) (d : Nat) (g f : Flight) : Bool :=
  let one := g.packet.ep == f.packet.ep && g.packet.home == f.packet.home
  g.loop == f.loop && g.packet.holds f.packet && !(one && f.packet.forwarded && !g.packet.forwarded) &&
    (one || (g.packet.stop == f.packet.stop && s.endStop d g.packet == s.endStop d f.packet))

/-- Does a stop take packets: its spill store is not full (R274)? -/
def State.stopTakes (s : State) (d : Nat) (p : Packet) : Bool :=
  match s.target d p with
  | .core c => (tabGet (s.dieAt d).spill (stopOf c) []).length < 32
  | _ => true

/-- Is a packet that die o has forwarded for an endpoint still on its way, other than on the one way from o to die e (R246, R270)? -/
def State.astray (s : State) (ep : BitVec 29) (o : Nat) (e : Option Nat) : Bool :=
  let it (p : Packet) : Bool := p.forwarded && p.ep == ep && p.home.isNone
  let onWay (key : Nat) : Bool := match e with | some e => e ≠ o && key == portKey o e | none => false
  let there (d : Nat) : Bool := match e with | some e => e ≠ o && d == e | none => false
  (s.ports.any fun q => !onWay q.1 && q.2.any it) || (s.links.any fun q => !onWay q.1 && q.2.any it) ||
  s.dies.any fun d => !there d.1 && ((d.2.ring.any fun f => it f.packet) || (d.2.pool.any fun x => it x.2) ||
    (d.2.spill.any fun q => q.2.any fun f => it f.packet) || d.2.flags.any it)

/-- Must a packet wait at its origin die until those forwarded before it for its endpoint have arrived (R246, R270)? -/
def State.behindForwarded (s : State) (d : Nat) (p : Packet) : Bool :=
  if p.forwarded || p.home.isSome || epDie p.ep ≠ d then false
  else match s.target d p with
    | .core _ => s.astray p.ep d (some d)
    | .moved e => s.astray p.ep d (some e)
    | .saved .. => s.astray p.ep d none
    | _ => false

/-- The packets on the loops, at the ports and on the links of the package. -/
def State.underway (s : State) : List Packet :=
  (s.dies.flatMap fun d => d.2.ring.map (·.packet)) ++ (s.ports.flatMap fun q => q.2) ++ s.links.flatMap fun q => q.2

/-- Does an earlier packet of its path keep a packet to or from another device from what its die does with it? A path is FIFO from end
to end (R286); what waits at its source, credits and acknowledgements keep nothing back. -/
def State.pathBlocked (s : State) (p : Packet) : Bool :=
  match p.tide with
  | none => false
  | some t => !p.isFree && s.underway.any fun q => match q.tide with
    | some u => u.device == t.device && u.path == t.path && u.seq < t.seq && !q.isFree && q.holds p &&
        (epDevice q.ep == s.device) == (epDevice p.ep == s.device)
    | none => false

/-- May the flight at an index of a die's ring leave it: nothing before it on its loop holds it (R273), its stop takes it (R274), what
was forwarded before it has arrived (R246), and, where its way ends, nothing before it on its path is underway (R286)? -/
def State.flightFree (s : State) (d ix : Nat) : Bool :=
  let ring := (s.dieAt d).ring
  match ring[ix]? with
  | none => false
  | some f => !((ring.take ix).any fun g => s.follows d g f) && s.stopTakes d f.packet && !s.behindForwarded d f.packet &&
      (match s.target d f.packet with | .away _ => true | _ => !s.pathBlocked f.packet)

/-- The flight at an index of a die's ring, if it may leave. -/
def flightAt (d ix : Nat) : M Flight := do
  let s ← get
  enabled (s.flightFree d ix)
  orNo (s.dieAt d).ring[ix]?

/-- A flight leaves the ring. -/
def flightGone (d ix : Nat) : M Unit := modify fun s => s.modDie d fun x => { x with ring := x.ring.eraseIdx ix }

/-- The class of an inbox entry: a bounce travels in class 7 under its original header (R246). -/
def InboxEntry.cls (e : InboxEntry) : Nat := if fieldOf e.h0 51 50 = 2 then 7 else fieldOf e.h0 31 29

/-- Entries of classes 0 to 6 in an inbox. -/
def Core.lowUsed (k : Core) : Nat := (k.inbox.filter fun e => e.cls ≠ 7).length
/-- Is there room in an inbox for a class (R242)? -/
def Core.inboxRoom (k : Core) (cls : Nat) : Bool := k.inbox.length < 64 && (cls == 7 || k.lowUsed < 56)

/-- A message handler's task record (R244, R81). -/
def InboxEntry.handlerJob (e : InboxEntry) (crew jhome table : Nat) : Job :=
  { message := some e.id, more := e.payload.drop 6
    record := {
      entry := e.handler &&& 0x00FFFFFFFFFFFFFC#64, urg := bitOf e.h0 32, src := 1, jhome := jhome, crew := crew, argc := 6
      ctab := BitVec.ofNat 10 (table / 256), args := e.payload.take 6 } }

/-- The 64 KiB granule of an address. -/
def granule (va : Word) : Nat := va.toNat / 65536

/-- The pilot core of a cove. -/
def pilotOf (cove : Nat) : Nat := cove * 16 + 8

/-- The walk task of a slot (R129). -/
def walkJob (ent : Word) (slot : Nat) (w : Walk) : Job :=
  { walk := some slot
    record := {
      entry := ent &&& 0x00FFFFFFFFFFFFFC#64, urg := true, argc := 2
      args := [w.va, BitVec.ofNat 64 (w.asid + w.kind * 2 ^ 12 + (if w.priv then 2 ^ 14 else 0) + (if w.rg then 2 ^ 15 else 0)
        + w.rix * 2 ^ 16 + w.core * 2 ^ 24 + slot * 2 ^ 35)] } }

/-- Records whose handlers wait enter the run queues in the order of arrival, while there is room (R88, R244). -/
def pumpInboxWith (crew jhome table : Nat) : List InboxEntry → Core → Core
  | [], k => k
  | e :: r, k =>
    if e.claimed && e.handler ≠ 0 && !e.queued && e.forActor.isNone then
      let urg := bitOf e.h0 32
      let full := if urg then k.runU.length ≥ 8 else k.runN.length ≥ 24
      if full then pumpInboxWith crew jhome table r k
      else
        let j := e.handlerJob crew jhome table
        let k := { k with inbox := k.inbox.map fun (x : InboxEntry) => if x.id = e.id then { x with queued := true } else x }
        pumpInboxWith crew jhome table r (if urg then { k with runU := k.runU ++ [j] } else { k with runN := k.runN ++ [j] })
    else pumpInboxWith crew jhome table r k

/-- The first urgent message of an inbox whose record waits. -/
def Core.urgentMessage (k : Core) : Option InboxEntry :=
  k.inbox.find? fun e => e.claimed && e.handler ≠ 0 && !e.queued && e.forActor.isNone && bitOf e.h0 32

/-- The urgent records of a pilot enter its queue, walks and messages in the order in which they were produced, while there is room
(R83, R88). -/
def pumpPilot (cove : Nat) : Nat → State → State
  | 0, s => s
  | fuel + 1, s =>
    let pilot := pilotOf cove
    let v := s.coveAt cove
    let k := s.coreAt pilot
    let enter (j : Job) (s : State) : State := s.modCore pilot fun k => { k with runU := k.runU ++ [j] }
    let message (e : InboxEntry) (s : State) : State :=
      enter (e.handlerJob (match s.blockOf pilot with | some b => b.crew | none => 0) 0 (s.tableAt pilot))
        (s.modCore pilot fun k => { k with
          inbox := k.inbox.map fun (x : InboxEntry) => if x.id = e.id then { x with queued := true } else x })
    if k.runU.length ≥ 8 then s
    else match v.walkQueue, k.urgentMessage with
      | [], none => s
      | [], some e => pumpPilot cove fuel (message e s)
      | i :: r, e =>
        match tabFind v.walks i with
        | none => pumpPilot cove fuel (s.modCove cove fun v => { v with walkQueue := r })
        | some w =>
          match e.filter fun e => decide (e.id < w.order) with
          | some e => pumpPilot cove fuel (message e s)
          | none =>
            pumpPilot cove fuel
              (enter (walkJob (s.partAt (s.partOf pilot)).walkent i w) (s.modCove cove fun v => { v with walkQueue := r }))

/-- The records that wait for a core's run queues enter them. -/
def pumpInbox (c : Nat) (s : State) : State :=
  let crew := match s.blockOf c with | some b => b.crew | none => 0
  let slot := if isWork c then slotOf c else 0
  let s := if isPilot c then pumpPilot (coveOf c) 41 s else s
  s.modCore c fun k => pumpInboxWith crew slot (s.tableAt c) k.inbox k

/-- Are all 56 entries of an inbox in use, each of a held class (R245)? -/
def Core.heldFull (k : Core) : Bool := !k.hovf && k.lowUsed ≥ 56 && k.inbox.all fun e => e.cls == 7 || k.mask.getLsbD e.cls
/-- g29 of the task that set the mask of a core. -/
def Core.maskTask (k : Core) : Word :=
  match k.maskedBy.bind fun t => k.tasks.find? (·.tid == t) with | some t => t.g.get 29 | none => 0

/-- hovf and 0x23 (R245). -/
def heldOverflow (c : Nat) (s : State) : State :=
  let k := s.coreAt c
  if k.heldFull then
    let crew := match s.blockOf c with | some b => b.crew | none => 0
    reportOn c { code := 0x23, kind := .r } crew k.maskTask (s.setCore c { k with hovf := true })
  else s

/-- hovf and 0x23 of a saved inbox, as an arrival in the frame fills it (R245, R246). -/
def heldOverflowSaved (u r : Nat) (s : State) : State :=
  match s.targetCore (.saved u r), tabFind s.blocks u with
  | some k, some b =>
    if k.heldFull then
      let c := nth b.cores r 0
      reportFrom (endpoint r b.originCrew b.originDie s.device) b.part (dieOf c) c { code := 0x23, kind := .r } b.crew k.maskTask (s.modTarget (.saved u r) fun k => { k with hovf := true })
    else s
  | _, _ => s

/-- A message enters an inbox (R243, R244, R98): an actor counts it (a close message for as many as complete a firing, R334), a
handler claims it, or it waits for recv. Where several used inputs have its tag, the lowest actor entry counts it, for its first such
input (notes/assumptions/79.md). -/
def Core.enterInbox (k : Core) (e : InboxEntry) : Core :=
  let cls := e.cls
  let tag := fieldOf e.h0 45 38
  let e := { e with id := k.inboxNext }
  let k := { k with inboxNext := k.inboxNext + 1 }
  let actor := if cls = 7 then none else k.actors.findSome? fun a =>
    (a.2.ins.findIdx? fun i => match i with | some (t, _) => t == tag | none => false).map fun i => (a.1, i)
  match actor with
  | some (a, i) =>
    let x := tabGet k.actors a { entry := 0, urg := false, ins := [], outs := [], args := [] }
    let c := nth x.counts i 0
    let rate := match nth x.ins i none with | some (_, r) => r | none => 1
    let w := if e.close then rate - c % rate else 1
    { k with
      inbox := k.inbox ++ [{ e with forActor := some (a, i), weight := w }]
      actors := tabPut k.actors a { x with counts := x.counts.set i (c + w) } }
  | none =>
    let h := if cls < 7 then k.hand[cls]?.getD 0 &&& 0x00FFFFFFFFFFFFFC#64 else 0
    { k with inbox := k.inbox ++ [{ e with handler := h, claimed := h ≠ 0 && !k.mask.getLsbD cls }] }

/-- The entry that recv and peek select for a task (R250): a firing's reserved messages first; else the oldest unclaimed one of
the class, or of any; a completion only for its task (R188). -/
def Core.selected (k : Core) (t : Task) (any : Bool) (cls : Nat) : Option InboxEntry :=
  let mine := match t.job.actor with | some (_, ids) => ids.findSome? fun i => k.inbox.find? (·.id == i) | none => none
  match mine with
  | some e => some e
  | none => k.inbox.find? fun e =>
      !e.claimed && e.forActor.isNone && (match e.owner with | some o => o == t.tid | none => true) &&
        (any || e.cls == cls)

/-- The dozes of a core that wait for a message and may now take one end (R298). -/
def Core.wakeReady (k : Core) (now : Nat) : Core := k.endDozes now 3 fun t z => z.message && (k.selected t true 0).isSome

/-- An entry arrives in the inbox of a target. -/
def inboxArrive (t : Target) (e : InboxEntry) (s : State) : State :=
  let s := s.modTarget t fun k => (k.enterInbox e).wakeReady s.turns
  match t with
  | .core c => heldOverflow c (pumpInbox c s)
  | .saved u r => heldOverflowSaved u r s
  | _ => s

/-- Return the credit of an inbox entry to its sender (R241). -/
def creditBack (c : Nat) (e : InboxEntry) (s : State) : State :=
  if e.credit then
    inject (dieOf c)
      { kind := .credit (fieldOf e.h0 37 34), ep := BitVec.ofNat 29 (fieldOf e.h0 28 0), home := e.home, src := s.endpointOf c
        core := c, cls := 7, part := s.partOf c, stop := stopOf c } s
  else s

/-- The header word 0 of a message (R243). -/
def header0 (src : BitVec 29) (cls : Nat) (urg ord : Bool) (sci tag k kind : Nat) (gr : Bool) : Word :=
  BitVec.ofNat 64 (src.toNat + cls * 2 ^ 29 + (if urg then 2 ^ 32 else 0) + (if ord then 2 ^ 33 else 0) + sci * 2 ^ 34
    + tag * 2 ^ 38 + k * 2 ^ 46 + kind * 2 ^ 50 + (if gr then 2 ^ 52 else 0))

/-- The payload of eight doublewords: what is not supplied reads as zero. -/
def pad8 (l : List Word) : List Word := (l ++ List.replicate 8 0).take 8

/-- Is the task with this number still live anywhere? -/
def State.liveTask (s : State) (tid : Nat) : Bool :=
  (s.coreOfTask tid).isSome || (s.blocks.any fun b => b.2.holdsTask tid)

/-- A token leaves the inbox that it was forwarded to: its pending count falls (R332); a selector of another device is told by a packet
that travels as a credit (notes/assumptions/48.md). -/
def tokenFreed (c : Nat) (e : InboxEntry) (s : State) : State :=
  let ep : BitVec 29 := BitVec.ofNat 29 (fieldOf e.h0 28 0)
  if e.token.isSome && epDevice ep ≠ s.device then
    inject (dieOf c) {
      kind := .credit 0, ep := ep, src := s.endpointOf c, core := c, cls := 7, part := s.partOf c, stop := stopOf c, token := e.token } s
  else freeToken e.token s

/-- An inbox entry of a resident core is freed, by recv or by the start of its task: its credit goes back, a token is freed. -/
def freeEntry (c : Nat) (e : InboxEntry) (s : State) : State :=
  let s := s.modCore c fun k => { k with inbox := k.inbox.filter fun x => x.id ≠ e.id }
  tokenFreed c e (creditBack c e s)

end Sys2Proof.Machine
end

