-- ==== Sys2Proof/Machine/Ops.lean ====
section
/-! DEFINITION. The shared operations of the machine: taking a trap (R399 to R407) and the return from one, parking and killing
a task, completing an instruction. -/

namespace Sys2Proof.Machine

/-- The lowest free park slot of a core (R85). -/
def Core.freeSlot (k : Core) : Option Nat := tabFree k.parks 8 0

/-- Is a parked task's every cause cleared, with no trap of it waiting? -/
def Parked.ready (p : Parked) : Bool := p.causes.all (·.cleared) && p.task.raising.isEmpty

/-- Is urgent work ready that R87 does not hold back? -/
def Core.urgentReady (k : Core) : Bool :=
  k.streak < 32 && (!k.runU.isEmpty || k.parks.any fun p => p.2.task.job.record.urg && p.2.ready)

/-- A task goes on in its bank: it raises what waits to be raised, or parks if it is held, or runs; the words of a frame are checked
again (R72, R84, R405). -/
def Task.resumed (t : Task) : Task :=
  { t with
    status := if !t.raising.isEmpty then .waitsRecord else if !t.heldFor.isEmpty then .held else .running
    doze := if t.heldFor.isEmpty then none else t.doze
    frame := { t.frame with recheck := t.frame.act } }

/-- Does bank 1 hold a task that keeps bank 0 from running: a held one does not (R84, R102)? -/
def Core.urgentRuns (k : Core) : Bool := k.b1.status == .running || k.b1.status == .waitsRecord

/-- May the task in bank 0 continue: no urgent task runs, and no vector registers of its own wait for the accepted commands of
another (R102, R190)? -/
def Core.mayContinue (k : Core) : Bool := k.b0.status == .preempted && !k.urgentRuns && (k.aside.isNone || k.vq.isEmpty)

/-- The normal task in bank 0 continues once bank 1 is empty (R84). Below 32 the count of R87 returns to zero; at 32 urgent starts
stay held back. -/
def Core.continueNormal (k : Core) : Core :=
  let k := match k.aside with | some x => { k with v := x.v, vPoison := x.vPoison, m := x.m, aside := none } | none => k
  { k with b0 := k.b0.resumed, streak := if k.streak < 32 then 0 else k.streak }

/-- A task enters a free bank (R84): a normal one waits as pre-empted while an urgent one runs, and else brings the count of R87 to
zero where it is below 32. -/
def Core.enterBank (k : Core) (urg : Bool) (t : Task) : Core :=
  if urg then { k with b1 := t }
  else if k.urgentRuns then { k with b0 := { t with status := .preempted } }
  else { k with b0 := t, streak := if k.streak < 32 then 0 else k.streak }

/-- A bank becomes free (R86): when the urgent bank empties, a pre-empted task continues unless urgent work starts first (R102);
the end or park of a normal task zeroes the count of R87. -/
def Core.freeBank (k : Core) (urg : Bool) : Core :=
  if urg then
    let k := { k with b1 := {} }
    if k.mayContinue && !k.urgentReady then k.continueNormal else k
  else { k with b0 := {}, aside := none, streak := 0 }

/-- What a stop does to a task: its sheltered window closes when it parks or ends (R89); a trap or a debug halt leaves the window's
count with it (R102). -/
def Task.stopped (t : Task) (why : ParkWhy) : Task :=
  match why with
  | .cause .. | .halt => t
  | _ => { t with lee := 0 }

/-- The vector registers of the task of a bank. -/
def Core.vectorsOf (k : Core) (urg : Bool) : Vectors :=
  match (if urg then none else k.aside) with
  | some x => x
  | none => { v := k.v, vPoison := k.vPoison, m := k.m }

/-- Is a task parked for debugging: a halt, a breakpoint, a single step (R406)? -/
def ParkCause.debugs (w : ParkCause) : Bool :=
  match w.why with | .halt => true | .cause 0x06 _ => true | .cause 0x0D _ => true | _ => false

/-- The slot that a held task fills: it is parked for what holds it. -/
def Core.parkedAs (k : Core) (urg : Bool) (now : Nat) : Parked :=
  let t := k.bank urg
  let x := k.vectorsOf urg
  { task := { t with status := .empty, heldFor := [] }, v := x.v, vPoison := x.vPoison, m := x.m
    causes := t.heldFor, order := k.parkOrder, since := now, debug := t.heldFor.any ParkCause.debugs }

/-- Has the vector engine completed every command of a task, and the matrix unit retired them (R190, R229)? -/
def Core.vectorDone (k : Core) (tid : Nat) : Bool :=
  !(k.vq.any fun v => v.tid == tid) && !((k.mq ++ k.mret).any fun (m : MatCommand) => m.tid == tid)

/-- A held task parks in the lowest free slot; it stays held in its bank while all eight are full (R84), or until the vector engine
has completed its commands (R190). -/
def Core.settleBank (k : Core) (urg : Bool) (now : Nat) : Core :=
  if (k.bank urg).status ≠ .held then k
  else match (if k.vectorDone (k.bank urg).tid then k.freeSlot else none) with
    | some i => ({ k with parks := tabPut k.parks i (k.parkedAs urg now), parkOrder := k.parkOrder + 1 }).freeBank urg
    | none => k

/-- Park the task of a bank (R85) for one more cause: it is held (R84), and parks as soon as it can. -/
def Core.park (k : Core) (urg : Bool) (why : ParkCause) (now : Nat) : Core :=
  let t := (k.bank urg).stopped why.why
  (k.setBank urg { t with status := .held, heldFor := t.heldFor ++ [{ why with since := now }] }).settleBank urg now

/-- Count a memory park (R138, R148): a park on a ticket or for a cause 0x10 to 0x1F or 0x50. -/
def ParkCause.memory (w : ParkCause) : Bool :=
  w.ticket.isSome || (match w.why with | .cause c _ => (0x10 ≤ c && c ≤ 0x1F) || c == 0x50 | .regeneration => true | _ => false)

/-- Park the task of a bank of a core. -/
def State.parkTask (s : State) (core : Nat) (urg : Bool) (why : ParkCause) : State :=
  let wide := (s.frameAt core ((s.coreAt core).bank urg).pc).getD false
  s.modCore core fun k =>
    let k := (k.setBank urg { k.bank urg with wide := wide }).park urg why s.now
    if why.memory then { k with pgstat := bumpField k.pgstat 31 16 1 } else k

/-- A park slot frees, or the vector engine completes a command: a held task parks (R84, R190), bank 0 first. -/
def Core.settleHeld (k : Core) (now : Nat) : Core := (k.settleBank false now).settleBank true now

/-- The slice of a task's stack (R82): base offset and size of the core's slices. -/
def State.stackGeometry (s : State) (c : Nat) : Nat × Nat :=
  match s.blockOf c with
  | some b => (b.carve * 32768, b.slice * 1024)
  | none => (262144, 16384)

/-- The counted messages of an actor entry, but for those that a firing has reserved, become ordinary messages of their class (R99). -/
def Core.dropCounted (k : Core) (e : Nat) : Core :=
  { k with inbox := k.inbox.map fun (x : InboxEntry) =>
      match x.forActor with
      | some (a, _) =>
        if a = e ∧ x.claimed = false then
          let cls := x.cls
          let h := if cls < 7 then k.hand[cls]?.getD 0 &&& 0x00FFFFFFFFFFFFFC#64 else 0
          { x with forActor := none, handler := h, claimed := h ≠ 0 && !k.mask.getLsbD cls }
        else x
      | none => x }

/-- The end of a task's firing of an actor (R99): the messages it reserved and did not receive become ordinary messages; the
entry may fire again, and a pending areg takes effect, with the counted messages becoming ordinary ones. -/
def Core.endFiring (k : Core) (t : Task) (now : Nat) : Core :=
  match t.job.actor with
  | none => k
  | some (e, ids) =>
    let free (x : InboxEntry) : InboxEntry := if ids.contains x.id then { x with forActor := none, claimed := false } else x
    let k := { k with inbox := k.inbox.map free }
    let k : Core := match tabFind k.aregNext e with
      | some new =>
        { k.dropCounted e with
          actors := match new with | some a => tabPut k.actors e a | none => tabDel k.actors e
          aregNext := tabDel k.aregNext e }
      | none => k
    k.wakeReady now

/-- The task of a bank ends (R96, R403): A ends, queues empty, streams end, slice, watch and window are freed. -/
def State.endTask (s : State) (core : Nat) (urg : Bool) : State :=
  pumpInbox core (s.modCore core fun k => ((k.endFiring (k.bank urg) s.turns).freeBank urg))

/-- Kill a parked task (R403). -/
def State.killParked (s : State) (core slot : Nat) : State :=
  pumpInbox core (s.modCore core fun k =>
    match tabFind k.parks slot with
    | some p => ({ (k.endFiring p.task s.turns) with parks := tabDel k.parks slot }).settleHeld s.now
    | none => k)

/-- Kill the task at a place (R403): it ends at once; the bounces of what it sent are discarded from then on. -/
def killAt (core place : Nat) (s : State) : State :=
  let tid := if place < 8 then (match tabFind (s.coreAt core).parks place with | some p => p.task.tid | none => 0)
    else if place = 9 then (s.coreAt core).b1.tid else (s.coreAt core).b0.tid
  let s := { s with killed := tid :: s.killed }
  if place < 8 then s.killParked core place else s.endTask core (place == 9)

/-- Where a task's PC stands for a cause (R399): the instruction of the sequencer that raised it. -/
def Task.pcOf (t : Task) (aSeq : Bool) : Word := if aSeq then t.a.pc else t.pc

/-- The task at a place of a core: park slots 0 to 7, bank 0 at 8, bank 1 at 9 (R406). -/
def Core.taskAt (k : Core) (place : Nat) : Task :=
  if place = 8 then k.b0 else if place = 9 then k.b1
  else match tabFind k.parks place with | some p => p.task | none => {}

/-- A core with the task at a place changed. -/
def Core.modTaskAt (k : Core) (place : Nat) (f : Task → Task) : Core :=
  if place = 8 then { k with b0 := f k.b0 } else if place = 9 then { k with b1 := f k.b1 }
  else match tabFind k.parks place with
    | some p => { k with parks := tabPut k.parks place { p with task := f p.task } }
    | none => k

/-- The number of the next accepted command of an engine, block or journal entry. -/
def nextCommand : M Nat := modifyGet fun s => (s.nextUid, { s with nextUid := s.nextUid + 1 })

/-- The packet of a journal entry (R252, R253). -/
def JournalEntry.packet (x : JournalEntry) (c : Nat) (s : State) : Packet :=
  { kind := if x.nibble then .pst4 x.id x.off x.size x.data else .pst x.id x.off x.size x.data
    ep := x.ep, src := s.endpointOf c, core := c, tid := x.tid, part := s.partOf c, cls := x.cls, stop := stopOf c }

/-- The journal entry that an answer names: its index (R254). An answer to an entry that was discarded names none. -/
def Core.entryOf (k : Core) (id : Nat) : Option (Nat × JournalEntry) := k.journal.find? fun x => x.2.id == id

/-- The kept journal entry that a cause names is sent again (R254). -/
def resend (c j : Nat) (s : State) : State :=
  match tabFind (s.coreAt c).journal j with
  | some x =>
    let s := s.modCore c fun k => { k with
      journal := tabPut k.journal j { x with kept := false, late := false, answered := false, since := s.now }
      outTide := k.outTide + (if epDevice x.ep = s.device then 0 else 1) }
    inject (dieOf c) (x.packet c s) s
  | none => s

/-- What a task that a cause parks waits for. -/
def Cause.parkCause (c : Cause) (now turn : Nat) : ParkCause :=
  { why := .cause c.code c.kind, addr := c.addr, aSeq := c.aSeq, ticket := c.ticket, sub := c.sub, line := c.line
    cleared := c.cleared, clearedAt := if c.cleared then turn else 0, since := now }

/-- The action of the table on a task (R402): 0 replay, 1 park, 2 forward, 3 kill. A replay waits on the ticket of its cause while
that is open (R136), and checks the words of a frame again (R72). -/
def applyAction (core place : Nat) (c : Cause) (act : Nat) (s : State) : State :=
  let why := c.parkCause s.now s.turns
  match act with
  | 0 =>
    let skip := c.kind == Kind.p && c.code == 0x06
    let s := s.modCore core fun k => k.modTaskAt place fun t =>
      { t with
        pc := if skip then t.pc + 4 else t.pc
        joined := if c.ticket.isSome && !c.cleared then t.joined ++ [why] else t.joined
        frame := { t.frame with recheck := t.frame.act } }
    if c.code == 0x24 || c.code == 0x25 then
      match c.jix with | some j => resend core j s | none => s
    else s
  | 3 => killAt core place s
  | _ =>
    if place < 8 then
      s.modCore core fun k => match tabFind k.parks place with
        | some p => { k with parks := tabPut k.parks place { p with
            causes := p.causes ++ [why], debug := p.debug || why.debugs } }
        | none => k
    else s.parkTask core (place == 9) why

/-- A trap waits at its task's boundary: for room for its record (R405), or until a pre-empted task continues (R84). -/
def Task.awaitTrap (t : Task) (c : Cause) : Task :=
  { t with
    status := if t.status = .running then .waitsRecord else t.status, raising := t.raising ++ [c]
    loadNoted := [], begun := 0, begunA := 0 }

/-- TAKING A TRAP (R402 to R405): the one operation. The task at the place is stopped at its boundary, with the PC of the
record at the address R399 gives the kind; the record is made, the entry of the partition's action table is applied as it
stands now, and the copies that it names wait for delivery. A trap that finds no room for its copies waits at the boundary
(TRAP_ACTION takes it later); so does one of a pre-empted task. -/
def takeTrapAt (core place : Nat) (c : Cause) (s : State) : State :=
  let part := s.partOf core
  let die := dieOf core
  let t := (s.coreAt core).taskAt place
  let e := (s.partAt part).actionOf c.code
  let act := e % 4
  let rep := e / 4 % 2 == 1
  let fwd := e / 16
  let usable := fwd != 0 && s.sendable core fwd
  let ffail := act == 2 && fwd != 0 && !usable
  let toSup := act == 2 && !usable
  let copies := (if act == 2 then 1 else 0) + (if rep && !toSup then 1 else 0)
  if t.status == .preempted || (s.dieAt die).recordsOf part ≥ 64 || !(s.dieAt die).roomFor part copies then
    s.modCore core fun k => k.modTaskAt place fun t => t.awaitTrap c
  else
    let now := s.now + Config.elapsed s.tick
    let s := { s with now := now, tick := s.tick + 1 }
    let s := s.modPart part Part.countRecord
    let slot := if act == 1 || act == 2 then (if place < 8 then place else ((s.coreAt core).freeSlot).getD 0) else 0
    let crew := match s.blockOf core with | some b => b.crew | none => t.job.record.crew
    let ws := recordWords c t.job.record.urg t.priv part core slot act ffail crew (t.pcOf c.aSeq) (t.g.get 29) now
      (s.partAt part).seqno
    let s := s.modCore core fun k => k.modTaskAt place fun t =>
      { t with
        status := if t.status = .waitsRecord ∧ t.raising = [] then .running else t.status
        loadNoted := [], begun := 0, begunA := 0 }
    let s := applyAction core place c act s
    let sup : RecordCopy := { part := part, core := core, words := ws, src := s.endpointOf core }
    let copyList := (if act == 2 then [if toSup then sup else { sup with forward := some fwd }] else [])
      ++ (if rep && !toSup then [sup] else [])
    s.modDie die fun d => { d with records := d.records ++ copyList }

/-- Taking a trap against the task of a bank. -/
def takeTrap (core : Nat) (urg : Bool) (c : Cause) (s : State) : State := takeTrapAt core (if urg then 9 else 8) c s

/-- Which instructions an iteration of a spin may hold (R73). -/
inductive SpinClass where
  | plain | load | other
  deriving DecidableEq, Repr

/-- The end-of-body test of a loop (R67): the count after it, and whether control returns to the start. -/
def loopTest (lc : Word) (next : Option Word) : Word := next.getD (lc - 1)

/-- The next address of a sequencer after it completes the instruction at `p` with `next` as its next address, and its loop
count and pending write: the test of R67 at the end of an active body. -/
def seqLoop (p next lc ls le : Word) (pend : Option Word) : Word × Word × Option Word :=
  if lc ≠ 0 ∧ p = le ∧ next = le + 4 then
    let c := loopTest lc pend
    (if c ≠ 0 then ls else next, c, none)
  else (next, lc, pend)

/-- The loop count after control is transferred from `p` to `target` (R68). -/
def leaveLoop (p target lc ls le : Word) : Word :=
  if lc ≠ 0 ∧ ls ≤ p ∧ p ≤ le ∧ ¬(ls ≤ target ∧ target ≤ le) then 0 else lc

/-- The instruction at E's PC has completed in sequence: the PC advances, inside a frame through its passes (R71), and the
test of R67 is made: in a frame, after the last word of the last pass only, so an le at another word of the body is no end of a body
(notes/assumptions/66.md). -/
def Task.advance (t : Task) (len : Nat) : Task :=
  let p := t.pc
  if t.frame.act then
    let f := t.frame
    if f.idx < f.len then { t with pc := p + 4, frame := { f with idx := f.idx + 1 }, via := none }
    else if f.left ≠ 1 then
      { t with pc := f.base, frame := { f with idx := 0, k := f.k + 1, left := f.left - 1 }, via := none }
    else
      let r := seqLoop p (p + 4) t.lc t.ls t.le t.lcNext
      { t with pc := r.1, lc := r.2.1, lcNext := r.2.2, frame := {}, via := none }
  else
    let r := seqLoop p (p + BitVec.ofNat 64 len) t.lc t.ls t.le t.lcNext
    { t with pc := r.1, lc := r.2.1, lcNext := r.2.2, via := none }

/-- The instruction at A's PC has completed in sequence. -/
def Task.advanceA (t : Task) (len : Nat) : Task :=
  let r := seqLoop t.a.pc (t.a.pc + BitVec.ofNat 64 len) t.a.lc t.a.ls t.a.le t.a.lcNext
  { t with a := { t.a with pc := r.1, lc := r.2.1, lcNext := r.2.2, via := none } }

/-- Control of E or A is transferred to a target (R29); `ends` says that leaving the body ends the loop (R68), which drops a pending
write of lc. A transfer makes no test at the end of the body, even from its last instruction to the next address
(notes/assumptions/66.md). A misaligned target becomes the PC as it is, and the fetch there raises 0x03 with that PC: no rule says what
the saved PC of a task parked for it holds (notes/assumptions/78.md). -/
def Task.transfer (t : Task) (a : Bool) (target : Word) (ends : Bool) : Task :=
  if a then
    let lc := if ends then leaveLoop t.a.pc target t.a.lc t.a.ls t.a.le else t.a.lc
    { t with a := { t.a with pc := target, via := some t.a.pc, lc := lc, lcNext := if lc = 0 then none else t.a.lcNext } }
  else
    let lc := if ends then leaveLoop t.pc target t.lc t.ls t.le else t.lc
    { t with pc := target, via := some t.pc, lc := lc, lcNext := if lc = 0 then none else t.lcNext }

/-- The spin detector after an instruction that is no taken branch (R73). -/
def Spin.note (x : Spin) (c : SpinClass) : Spin := if c = .other then { x with allowed := false } else x

/-- The spin detector after a taken branch or J at `p` (R73): the end of an iteration counts or resets. -/
def Spin.taken (x : Spin) (p target : Word) (regs : Vector Word 32) : Spin :=
  if x.branch = some p ∧ target ≤ p then
    let counts := x.allowed && x.lastLoad.isSome && x.prevLoad == x.lastLoad && x.prevRegs == some regs
    { x with
      count := if counts then x.count + 1 else 0, allowed := true, lastLoad := none, prevLoad := x.lastLoad,
      prevRegs := some regs }
  else if target ≤ p then { branch := some p, prevRegs := some regs }
  else { x with count := 0 }

/-- Complete an instruction of the running task (R16): how control goes on, the sheltered window (R89), the spin detector
(R73; off, it counts nothing, R74), single step (R406) and a cause of kind N (R399). A stepped instruction that raises one leaves 0x0D
pending at the boundary behind it. -/
def complete (cls : SpinClass) (len : Nat) (ctl : Ctl) (s : State) : State :=
  match ctl with
  | .gone => s
  | ctl =>
    let a := s.cur.a
    let t := s.task
    let p := s.pc
    let seqTask := if a then t.advanceA len else t.advance len
    let spin (x : Spin) : Spin := if a then t.spin else if (s.coreAt s.cur.core).slackOn then x else {}
    let t' := match ctl with
      | .jump x => { (t.transfer a x true) with spin := spin ((t.spin.note .other).taken p x t.g) }
      | .branch x => { (t.transfer a x true) with spin := spin (t.spin.taken p x t.g) }
      | .leave x => { (t.transfer a x false) with spin := spin (t.spin.note .other) }
      | _ => { seqTask with spin := spin (t.spin.note cls) }
    let t' := { t' with
      lee := t'.lee - 1, stepping := false, shipNoted := [], shipTo := none
      loadNoted := t.loadNoted.filter fun x => x.1 ≠ a
      begun := if a then t'.begun else 0, begunA := if a then 0 else t'.begunA }
    let urg := s.urgent
    let step : Cause := { code := 0x0D, kind := .n, aSeq := a }
    match ctl with
    | .raiseN c =>
      let t' := if t.stepping then { t' with pending := t'.pending ++ [step] } else t'
      takeTrap s.cur.core urg { c with aSeq := a } (s.setTask t')
    | _ => if t.stepping then takeTrap s.cur.core urg step (s.setTask t') else s.setTask t'

/-- The landing core can take a shipped task (R132): a work core of the partition with a resident block. -/
def State.validLanding (s : State) (part c : Nat) : Bool :=
  isWork c && s.partHolds part c && (match s.blockOf c with | some b => !b.absent | none => false)

/-- Ship the running task to a landing core (R132): its context travels, it leaves its block and its slice is freed; an
unusable landing core raises 0x18. -/
def shipTask (core : Nat) (urg : Bool) (landing : Option Nat) (addr : Word) (s : State) : State :=
  match landing.filter (s.validLanding (s.partOf core)) with
  | none => takeTrap core urg { code := 0x18, kind := .p, addr := addr } s
  | some l =>
    let t := (s.coreAt core).bank urg
    let job : Job := {
      record := t.job.record
      shipped := some { tid := t.tid, pc := t.pc, g := t.g, lc := t.lc, ls := t.ls, le := t.le, pending := t.pending } }
    let s := s.endTask core urg
    { s with ships := s.ships ++ [(l, job)] }

/-- The meaning of an instruction from its effect: it takes effect and completes, or its precise cause is taken, or it waits
with nothing done, or its task ships (R16, R26, R132, R399). -/
def issue (cls : SpinClass) (len : Nat) (m : M Ctl) (s : State) : Host.Outcome State Fault Refusal :=
  match m s with
  | .ok ctl t => .next (complete cls len ctl t)
  | .error (.trap c) t => .next (takeTrap s.cur.core s.urgent { c with aSeq := s.cur.a } t)
  | .error .wait _ => .next s
  | .error .no _ => .next s
  | .error .stall t => .next t
  | .error (.ship l ea) t => .next (shipTask s.cur.core s.urgent l ea t)
  | .error (.fault f) _ => .fault f

/-- A four-byte instruction that only computes. -/
def plain (m : M Unit) (s : State) : Host.Outcome State Fault Refusal := issue .plain 4 (do m; return .seq) s
/-- A four-byte instruction that a spin may not hold. -/
def other (m : M Unit) (s : State) : Host.Outcome State Fault Refusal := issue .other 4 (do m; return .seq) s

/-- Supervisor-only instructions raise 0x02 in the unprivileged view (R28; step 7 of R27). -/
def supervisor : M Unit := do check (!(← taskM).priv) 0x02

/-- A change of a task wherever it is on a core. -/
def Core.modTid (k : Core) (tid : Nat) (f : Task → Task) : Core :=
  { k with
    b0 := if k.b0.status ≠ .empty ∧ k.b0.tid = tid then f k.b0 else k.b0
    b1 := if k.b1.status ≠ .empty ∧ k.b1.tid = tid then f k.b1 else k.b1
    parks := k.parks.map fun x => if x.2.task.tid = tid then (x.1, { x.2 with task := f x.2.task }) else x }

/-- Add a pending asynchronous cause to a task: one of each code (R189, R418). -/
def Task.addPending (t : Task) (c : Cause) : Task :=
  if t.pending.any fun x => x.code == c.code && x.jix == c.jix then t else { t with pending := t.pending ++ [c] }

/-- Raise a cause of kind A against a task (R189, R399): it is taken at the task's next boundary; where the task has ended it
is a report against the core it acted on. -/
def raiseAsync (core tid : Nat) (c : Cause) (s : State) : State :=
  let c := { c with kind := .a }
  match s.coreOfTask tid with
  | some k => s.modCore k fun x => x.modTid tid fun t => t.addPending c
  | none =>
    match s.blocks.find? fun b => b.2.holdsTask tid with
    | some (u, _) => s.modBlock u fun b => { b with saved := b.saved.map fun k => k.modTid tid fun t => t.addPending c }
    | none => reportCore core { c with kind := .r } s

/-- The pending cause a task takes at a boundary: the lowest code (R418). -/
def Task.nextPending (t : Task) : Option Cause :=
  t.pending.foldl (fun best c => match best with
    | none => some c
    | some b => if c.code < b.code then some c else some b) none

end Sys2Proof.Machine
end

