-- ==== Sys2Proof/Machine/Coherence.lean ====
section
/-! DEFINITION. L2 slices, homing and coherence (spec/08): placement and migration of lines, the home directory, the bytes of
the physical space. The current bytes of every tracked line stand in State.mem; the caches hold states (assumptions/6.md). -/

namespace Sys2Proof.Machine

/-- 144 GiB: the HBM of one die (R123). -/
def hbmPerDie : Nat := 144 * 2 ^ 30
/-- The end of device HBM: 576 GiB. -/
def hbmEnd : Nat := 576 * 2 ^ 30
/-- Host space begins at 2^51. -/
def hostBase : Nat := 2 ^ 51
/-- Is a physical address in host space? -/
def isHostPa (pa : Nat) : Bool := hostBase ≤ pa
/-- The home die of a physical address of device HBM (R123). -/
def homeDie (pa : Nat) : Nat := pa / hbmPerDie
/-- The number of the first line of the unit that holds a physical address: a line, or a square sector of eight (R159). -/
def unitOf (pa : Nat) (sq : Bool) : Nat := if sq then pa / 1024 * 8 else pa / 128
/-- The lines of a unit. -/
def unitLines (u : Nat) (sq : Bool) : List Nat := if sq then (List.range 8).map (u + ·) else [u]
/-- The interleaved home slice of a unit (R151). -/
def interleaved (u : Nat) : Nat := u % 48
/-- The slice nearest a cove (R151). -/
def nearSlice (cove : Nat) : Nat := 3 * (cove % 32) / 2

/-- Remove every L1 and victim copy of a unit's lines on a die, but for one core's own line (R106, R107): the victim copies that
this core holds for others go as well. -/
def dropL1 (die : Nat) (u : Nat) (sq : Bool) (except : Option Nat) (s : State) : State :=
  { s with cores := s.cores.map fun c =>
      if dieOf c.1 = die then
        (c.1, { c.2 with l1 := c.2.l1.filter fun l =>
          !(unitLines u sq).contains l.line || (some c.1 == except && l.victim.isNone) })
      else c }

/-- Does a task watch a line? -/
def Task.watches (t : Task) (isLocal : Bool) (line : Nat) : Bool :=
  match t.watch with | some w => w.isLocal == isLocal && w.line == line | none => false

/-- Mark a line of L2 written (R297): each watch of it, on every die for a tracked line and on one die for an NC line, is set
written; a doze on it ends, and a slack-water park on it clears (R74). -/
def Task.markWatch (t : Task) (now : Nat) (isLocal : Bool) (line : Nat) : Task :=
  let t := if t.watches isLocal line && t.dozesFor (fun _ => true) then t.dozed now 1 else t
  { t with
    watch := t.watch.map fun w => if w.isLocal == isLocal && w.line == line then { w with written := true } else w
    heldFor := clearWhere now (fun c => c.line == some (isLocal, line)) t.heldFor
    raising := t.raising.map fun c => if c.line == some (isLocal, line) then { c with cleared := true } else c }

/-- A parked task after a write of a line. -/
def Parked.markWatch (p : Parked) (now : Nat) (isLocal : Bool) (line : Nat) : Parked :=
  let p := if p.task.watches isLocal line && p.task.dozesFor (fun _ => true) then p.dozed now 1 else p
  { (p.clear now fun c => c.line == some (isLocal, line)) with task := p.task.markWatch now isLocal line }

/-- A core after a write of a line that its tasks may watch. -/
def Core.markWatch (k : Core) (now : Nat) (isLocal : Bool) (line : Nat) : Core :=
  { k with
    b0 := k.b0.markWatch now isLocal line, b1 := k.b1.markWatch now isLocal line
    parks := k.parks.map fun p => (p.1, p.2.markWatch now isLocal line) }

/-- A write to an L2 line is performed: watches of it are set, those of absent blocks where the block last stood, and those of the pilot
and routing cores of saved gangs. -/
def noteWrite (line : Nat) (nc : Option Nat) (s : State) : State :=
  let seen (d : Nat) : Bool := match nc with | some x => x == d | none => true
  { s with
    cores := s.cores.map fun c => if seen (dieOf c.1) then (c.1, c.2.markWatch s.turns false line) else c
    blocks := s.blocks.map fun b =>
      if b.2.absent && seen b.2.die then (b.1, { b.2 with saved := b.2.saved.map (·.markWatch s.turns false line) }) else b
    gangs := s.gangs.map fun g => (g.1, { g.2 with
      cores := g.2.cores.map fun c => if seen (dieOf c.1) then (c.1, c.2.markWatch s.turns false line) else c }) }

/-- A byte as HBM (or the host's memory) holds it: the old byte where a cache holds the line modified. -/
def State.hbmByte (s : State) (a : Nat) : Byte := (tabFind s.stale a).getD (cellGet s.mem a)

/-- Write a byte into HBM from a write-back of an NC line (R158). -/
def State.putHbm (s : State) (a : Nat) (b : Byte) : State :=
  if (tabFind s.stale a).isSome then { s with stale := tabPut s.stale a b } else { s with mem := cellSet s.mem a b }

/-- Write bytes of a tracked line that a cache holds in M: HBM keeps the old bytes until the write-back. -/
def putTracked (a : Nat) : List Byte → State → State
  | [], s => s
  | b :: r, s =>
    let st := if (tabFind s.stale a).isSome then s.stale else tabPut s.stale a (cellGet s.mem a)
    putTracked (a + 1) r { s with mem := cellSet s.mem a b, stale := st }

/-- The write-back of a unit: HBM takes the current bytes, and what it held uncorrectable is gone (R433). -/
def writeBack (u : Nat) (sq : Bool) (s : State) : State :=
  { s with
    stale := s.stale.filter fun x => !(unitLines u sq).contains (x.1 / 128)
    hbmBad := s.hbmBad.filter fun k => !(unitLines u sq).contains (k / 4) }

/-- The line of a die's L2, if it holds it. -/
def State.l2Line (s : State) (d u : Nat) : Option L2Line := tabFind (s.dieAt d).l2 u
/-- Set a line of a die's L2. -/
def State.setL2 (s : State) (d u : Nat) (l : L2Line) : State := s.modDie d fun x => { x with l2 := tabPut x.l2 u l }
/-- The units that the operand slots of a die's cores pin (R219). -/
def State.pinned (s : State) (d : Nat) : List Nat :=
  (s.cores.filter fun c => dieOf c.1 == d).flatMap fun c => c.2.slots.flatMap fun o => o.2.pins

/-- Is an instruction a vector command that touches memory (R188)? -/
def memoryVector : Instr → Bool
  | .vld .. | .vst .. | .vlds .. | .vgat .. | .vsca .. | .vopt .. => true
  | _ => false

/-- Is an instruction a matrix command that touches memory (R211)? -/
def memoryMatrix : Instr → Bool
  | .mfetch .. | .mrd .. | .mwr .. => true
  | _ => false

/-- The numbers of the memory commands of a core whose accesses are not done (R188, R211, R262), and of the rputs whose reads are
not (R393). -/
def Core.memoryIds (k : Core) : List Nat :=
  let m := k.mq.filter fun (x : MatCommand) => memoryMatrix x.instr
  let v := k.vq.filter fun (x : VecCommand) => memoryVector x.instr
  k.cq.map (·.id) ++ v.map (·.id) ++ m.map (·.id) ++ k.rputs

/-- What a core asks its request to a home directory for. -/
def State.askerOf (s : State) (c : Nat) : Asker :=
  let k := s.coreAt c
  let t := if k.b1.status = .running then k.b1 else k.b0
  { core := c, tid := t.tid, pc := if s.cur.core = c ∧ s.cur.a = true then t.a.pc else t.pc, first := k.memoryIds.min? }

/-- Does a line that was granted for an access still wait for it: a store in the buffer, a command of an engine, or the task at its
instruction (R156)? -/
def State.owes (s : State) (u : Nat) (l : L2Line) : Bool :=
  match l.owed with
  | none => false
  | some a =>
    let k := s.coreAt a.core
    (k.sb.any fun e => !e.isLocal && (unitLines u l.sq).contains (e.addr / 128)) || a.first.any k.memoryIds.contains ||
      ([k.b0, k.b1].any fun t => t.status == .running && t.tid == a.tid && (t.pc == a.pc || t.a.pc == a.pc))

/-- Does a die's line of a unit wait for the access it was granted for? -/
def State.lineOwed (s : State) (d u : Nat) : Bool := match s.l2Line d u with | some l => s.owes u l | none => false

/-- The pins of a unit end on a die: its line is gone (R219). -/
def unpin (d u : Nat) (s : State) : State :=
  if (s.pinned d).contains u then
    { s with cores := s.cores.map fun c =>
        if dieOf c.1 = d then
          (c.1, { c.2 with slots := c.2.slots.map fun o => (o.1, { o.2 with pins := o.2.pins.filter (· ≠ u) }) })
        else c }
  else s

/-- A die drops a line: with it go its L1 copies, its pins and the line's forwarding entry (R150, R153, R219). -/
def State.dropL2 (s : State) (d u : Nat) : State :=
  let sq := match s.l2Line d u with | some l => l.sq | none => false
  unpin d u <| dropL1 d u sq none (s.modDie d fun x => { x with l2 := tabDel x.l2 u, forward := x.forward.filter fun f => f.2 ≠ u })

/-- The L2 lines that a unit fills: eight for a square sector. -/
def L2Line.ways (l : L2Line) : Nat := if l.sq then 8 else 1

/-- The set of a slice that a unit falls into, one of 1,024 (R150; which one is open, notes/assumptions/20.md). -/
def l2SetOf (u : Nat) : Nat := Config.l2Set u % 1024

/-- The lines of a die's L2 in the slice and set of a unit, but for that unit (R150). -/
def Die.setMates (x : Die) (u : Nat) (l : L2Line) : List (Nat × L2Line) :=
  let slice := x.l2.filter fun e => e.2.slice == l.slice && e.1 ≠ u
  if slice.foldl (fun n e => n + e.2.ways) l.ways ≤ 16 then []
  else slice.filter fun e => l2SetOf e.1 == l2SetOf u

/-- Write back the dirty bytes of an NC line (R158): it becomes clean and stays. A sector all of whose bytes are written is no longer
uncorrectable in HBM (R433). -/
def ncFlush (d u : Nat) (s : State) : State :=
  match s.l2Line d u with
  | some l =>
    let s := l.dirty.foldl (fun s a => s.putHbm a (tabGet l.data a 0)) s
    let s := { s with hbmBad := s.hbmBad.filter fun k => !(List.range 32).all fun i => l.dirty.contains (32 * k + i) }
    s.setL2 d u { l with state := .e, dirty := [] }
  | none => s

/-- Write back a line of a die's L2 (R166): NC dirty bytes, a tracked or host line in M; the line stays, clean. -/
def flushLine (d u : Nat) (s : State) : State :=
  match s.l2Line d u with
  | none => s
  | some l =>
    if l.nc then ncFlush d u s
    else if l.state = .m then
      let s := writeBack u l.sq s
      { s.setL2 d u { l with state := .e } with host := { s.host with hostDirty := s.host.hostDirty.filter (· ≠ u) } }
    else s

/-- Evict a line of a die's L2 (R154): its write-back or clean evict is sent to the home; a shared line leaves silently; an NC
or host line is written back. -/
def evictLine (d u : Nat) (s : State) : State :=
  match s.l2Line d u with
  | none => s
  | some l =>
    let wasM := l.state == .m
    let s := flushLine d u s
    let s := s.dropL2 d u
    if l.nc || isHostPa (u * 128) || l.state == .s then s
    else { s with coh := s.coh ++ [{ src := d, dst := homeDie (u * 128), line := u, kind := if wasM then .wb else .ce }] }

/-- Must a line be written back when it is evicted? -/
def L2Line.dirtyLine (l : L2Line) : Bool := if l.nc then !l.dirty.isEmpty else l.state == .m

/-- May a line be evicted: no operand slot pins it (R219), it is no dirty host line while the link is down (R161), and the access that
it was granted for has been made (R156)? -/
def State.evictable (s : State) (d u : Nat) (l : L2Line) : Bool :=
  !(s.pinned d).contains u && (s.host.linkUp || !l.dirtyLine || !isHostPa (u * 128)) && !s.owes u l

/-- Can the set of a line hold it, with what may be evicted gone (R150)? An access that would fill one that cannot waits. -/
def State.hasRoom (s : State) (d u : Nat) (l : L2Line) : Bool :=
  (((s.dieAt d).setMates u l).filter fun e => !s.evictable d e.1 e.2).foldl (fun n e => n + e.2.ways) l.ways ≤ 16

/-- A unit that has come into a slice leaves no set with more than 16 lines: the least recently used of the others go (R150), and
where none of them may, the unit itself. -/
def trimSet (d u : Nat) : Nat → State → State
  | 0, s => s
  | fuel + 1, s =>
    match s.l2Line d u with
    | none => s
    | some l =>
      let mates := (s.dieAt d).setMates u l
      if mates.foldl (fun n e => n + e.2.ways) l.ways ≤ 16 then s
      else match (mates.filter fun e => s.evictable d e.1 e.2).foldl (fun best e => match best with
          | none => some e
          | some (b : Nat × L2Line) => if e.2.used < b.2.used then some e else some b) none with
        | none => evictLine d u s
        | some (v, _) => trimSet d u fuel (evictLine d v s)

/-- A line comes into a die's L2 as its most recently used. -/
def State.fillL2 (s : State) (d u : Nat) (l : L2Line) : State :=
  let n := (s.dieAt d).l2Clock + 1
  trimSet d u 24 ((s.setL2 d u { l with used := n }).modDie d fun x => { x with l2Clock := n })

/-- Every line of a region on a die that satisfies a test moves to a slice, and no set there holds more than 16. A line of host space
stays in its interleaved home slice (R160), whatever entry `home` has made for its region (notes/assumptions/73.md). -/
def moveLines (d r : Nat) (f : Nat → Bool) (slice : Nat → Nat) (s : State) : State :=
  let us := (((s.dieAt d).l2.filter fun l => l.1 / 512 == r && f l.1 && l.2.slice ≠ slice l.1 && !isHostPa (l.1 * 128)).map (·.1))
  us.foldl (fun s u => match s.l2Line d u with
    | some l => trimSet d u 24 (s.setL2 d u { l with slice := slice u })
    | none => s) s

/-- A new access of a die to a region makes its entry, and the lines of the region that have not migrated move to the slice that it
names (R151). The first access that finds the table full is counted, once (R152). -/
def touchRegion (d cove core u : Nat) (s : State) : State :=
  let die := s.dieAt d
  let r := u / 512
  if (tabFind die.region r).isSome then s
  else if die.region.length < 16384 then
    moveLines d r (fun v => !die.forward.any fun f => f.2 == v) (fun _ => nearSlice cove)
      (s.modDie d fun x => { x with region := tabPut x.region r (nearSlice cove), unplaced := markDel x.unplaced r })
  else if die.unplaced.contains r then s
  else
    let first := !bitOf die.l2stat 60
    let s := s.modDie d fun x => { x with
      l2stat := bumpField x.l2stat 15 0 1 ||| atBit 1 60, unplaced := markPut x.unplaced r }
    let k := s.coreAt core
    let task := if k.b1.status = .running then k.b1.g.get 29 else if k.b0.status = .running then k.b0.g.get 29 else 0
    let crew := match s.blockOf core with | some b => b.crew | none => 0
    if first then reportOn core { code := 0x1C, kind := .r } crew task s else s

/-- Every line of a region on a die moves to a slice, and the region's forwarding entries are freed (R167). -/
def moveRegion (d r : Nat) (slice : Nat → Nat) (s : State) : State :=
  (moveLines d r (fun _ => true) slice s).modDie d fun x => { x with forward := x.forward.filter fun f => f.2 / 512 ≠ r }

/-- Release a region entry of a die (R167): its lines move home first. -/
def releaseRegion (d r : Nat) (s : State) : State :=
  if (tabFind (s.dieAt d).region r).isSome then
    (moveRegion d r interleaved s).modDie d fun x => { x with region := tabDel x.region r }
  else s

/-- The slice where a unit is placed on a die (R151). -/
def Die.placeOf (x : Die) (u : Nat) : Nat := tabGet x.region (u / 512) (interleaved u)

/-- The forwarding entries of a die, oldest first, with those of a unit freed that were made when it left a slice and later. -/
def freeForward (sl u : Nat) : List (Nat × Nat) → List (Nat × Nat)
  | [] => []
  | f :: r => if f = (sl, u) then r.filter fun g => g.2 ≠ u else f :: freeForward sl u r

/-- The oldest forwarding entry of a full slice retires (R153): its line moves back to that slice, and the entry is freed with those
made after it for the line (notes/assumptions/74.md). -/
def retireForward (d sl : Nat) (s : State) : State :=
  let x := s.dieAt d
  if (x.forward.filter fun f => f.1 == sl).length < 8192 then s
  else match x.forward.find? fun f => f.1 == sl with
    | none => s
    | some (_, v) =>
      trimSet d v 24 (s.modDie d fun x => { x with
        forward := freeForward sl v x.forward, l2stat := bumpField x.l2stat 51 40 1
        l2 := match tabFind x.l2 v with | some lv => tabPut x.l2 v { lv with slice := sl } | none => x.l2 })

/-- A move of a line to another slice (R153): the slice it leaves keeps a forwarding entry, as every slice it left before does; where
that slice has none free, its oldest entry retires. A line that comes back to a slice with an entry of it frees that entry and those
made after it (notes/assumptions/74.md). -/
def moveLine (d u dest : Nat) (l : L2Line) (s : State) : State :=
  let back := (s.dieAt d).forward.contains (dest, u)
  let s := if back then s else retireForward d l.slice s
  trimSet d u 24 (s.modDie d fun x => { x with
    forward := if back then freeForward dest u x.forward else x.forward ++ [(l.slice, u)]
    l2 := tabPut x.l2 u { l with slice := dest } })

/-- Count an access of a cove to a line (`once`: the sectors that an engine reads or writes in one step are one access), which becomes the most recently used, and migrate it (R150, R153); a host line stays in its
interleaved slice (R160), and a line whose new set has no room for it stays (notes/assumptions/74.md). -/
def touchLine (once : Bool) (d cove u : Nat) (s : State) : State :=
  match s.l2Line d u with
  | none => s
  | some l =>
    let again := once && l.turn == s.turns + 1 && l.cove == cove
    let n := if again then l.count else if l.cove = cove then l.count + 1 else 1
    let now := (s.dieAt d).l2Clock + 1
    let l := { l with cove := cove, count := n, turn := s.turns + 1, used := now }
    let s := (s.setL2 d u l).modDie d fun x => { x with l2Clock := now }
    if !again ∧ n = 4 ∧ l.state ≠ .s ∧ l.slice ≠ nearSlice cove ∧ !isHostPa (u * 128) ∧ s.hasRoom d u { l with slice := nearSlice cove } then moveLine d u (nearSlice cove) l s else s

/-- Is the directory at rest for a unit: no transaction or recall, no message in flight but acknowledgements? -/
def State.quiet (s : State) (u : Nat) : Bool :=
  (s.coh.all fun m => m.line ≠ u || m.kind == .ack) &&
  (match tabFind (s.dieAt (homeDie (u * 128))).dir u with
   | some { state := .p .., .. } => false
   | some { state := .r .., .. } => false
   | _ => true)

/-- The directory set of a unit (R157). -/
def dirSet (u : Nat) : Nat := u % 131072

/-- The agents of a mask. -/
def maskAgents (m : BitVec 5) : List Nat := (List.range 5).filter m.getLsbD
/-- A mask with an agent added. -/
def maskWith (m : BitVec 5) (i : Nat) : BitVec 5 := m ||| BitVec.ofNat 5 (2 ^ i)
/-- A mask with an agent removed. -/
def maskWithout (m : BitVec 5) (i : Nat) : BitVec 5 := m &&& ~~~(BitVec.ofNat 5 (2 ^ i))

/-- Recall an entry of a directory (R157): Inv to its sharers, Recall to its owner. -/
def recallEntry (h v : Nat) (e : DirEntry) (s : State) : State :=
  let targets := match e.state with | .s m => maskAgents m | .x o => [o] | _ => []
  let kind : CohKind := match e.state with | .x _ => .recall | _ => .inv
  let s := s.modDie h fun x => { x with
    l2stat := bumpField x.l2stat 31 16 1
    dir := if targets.isEmpty then tabDel x.dir v else tabPut x.dir v { e with state := .r targets s.now false } }
  { s with coh := s.coh ++ targets.map fun t => { src := h, dst := t, line := v, kind := kind } }

/-- Is a directory entry at rest? -/
def DirEntry.idle (e : DirEntry) : Bool := match e.state with | .s _ => true | .x _ => true | _ => false

/-- A set of a directory that is full (R157): recall its least recently used entry that is at rest. -/
def startRecall (h u : Nat) (s : State) : State :=
  let inSet := (s.dieAt h).dir.filter fun e => dirSet e.1 == dirSet u
  match (inSet.filter fun e => e.2.idle).foldl (fun best e => match best with
      | none => some e
      | some (b : Nat × DirEntry) => if e.2.used < b.2.used then some e else some b) none with
  | none => s
  | some (v, e) => recallEntry h v e s

/-- Must a request for a unit wait for a recall of its set (R157)? -/
def State.setRecalling (s : State) (u : Nat) : Bool :=
  (s.dieAt (homeDie (u * 128))).dir.any fun e => dirSet e.1 == dirSet u && (match e.2.state with | .r .. => true | _ => false)

/-- Is the directory set of a unit full? -/
def State.setFull (s : State) (u : Nat) : Bool :=
  ((s.dieAt (homeDie (u * 128))).dir.filter fun e => dirSet e.1 == dirSet u).length ≥ 16

/-- Bring HBM data of a line in (R433): uncorrectable sectors become poisoned, and the access that brings them meets them. -/
def fillFromHbm (u : Nat) (sq : Bool) (s : State) : State :=
  let bad := s.hbmBad.filter fun k => (unitLines u sq).contains (k / 4)
  { s with
    hbmBad := s.hbmBad.filter fun k => !(unitLines u sq).contains (k / 4)
    hbmMet := bad.foldl markPut s.hbmMet
    poison := bad.foldl markPut s.poison }

/-- An access of a unit is made: a granted line that waits for one waits no more. -/
def meetLine (d u : Nat) (s : State) : State :=
  match s.l2Line d u with
  | some l => if l.owed.isSome then s.setL2 d u { l with owed := none } else s
  | none => s

/-- Poison marks after a write of `n` bytes at `pa` (R433): a sector written whole loses its mark. -/
def clearPoison (poison : List Nat) (pa n : Nat) : List Nat :=
  poison.filter fun k => !(pa ≤ 32 * k && 32 * k + 32 ≤ pa + n)

/-- The host may have written a line that it held with ownership: the bytes it gives back are its own, which no rule states
(notes/assumptions/27.md), and any sector of them may come with CXL data poison (R433). -/
def hostData (u : Nat) (sq : Bool) (s : State) : State :=
  let n := 128 * (unitLines u sq).length
  let bytes := (List.range n).map fun i => Config.freeByte (s.tick + i)
  (unitLines u sq).foldl (fun s l => noteWrite l none s)
    (putTracked (u * 128) bytes { s with
      tick := s.tick + n + 1
      poison := ((List.range (n / 32)).filter fun i => bitOf (Config.freeWord (s.tick + n)) i).foldl
        (fun p i => markPut p (u * 4 + i)) (clearPoison s.poison (u * 128) n) })

/-- The host gives up its ownership or copy of a line of device HBM: whether it had it, and modified; it keeps a shared copy when
`share`. -/
def hostYield (u : Nat) (sq share : Bool) (s : State) : Option Bool × State :=
  match tabFind s.hostLines u with
  | none => (none, s)
  | some excl =>
    let m := excl && bitOf (Config.freeWord s.tick) 0
    let s := { s with
      tick := s.tick + 1
      hostLines := if share then tabPut s.hostLines u false else tabDel s.hostLines u }
    (some m, if m then hostData u sq s else s)

/-- One agent other than `i` gives up ownership or its copy (R155): `share` leaves it a shared copy. A modified line is
written back to HBM when it is shared. -/
def yieldLine (agent u : Nat) (sq share : Bool) (s : State) : State :=
  if agent = 4 then
    let s := (hostYield u sq share s).2
    if share then writeBack u sq s else s
  else
    let s := if share then writeBack u sq s else s
    match s.l2Line agent u with
    | some l => if share then s.setL2 agent u { l with state := .s } else s.dropL2 agent u
    | none => s

/-- A transaction of die `i` on a tracked unit, run to its end as R155 lays down (the directory is at rest). -/
def transact (i u : Nat) (sq own : Bool) (s : State) : State :=
  let h := homeDie (u * 128)
  let die := s.dieAt h
  let e : Option DirEntry := tabFind die.dir u
  let st : Option DirState := e.map (·.state)
  let clock := die.dirClock + 1
  let next : DirState × LineState := match st with
    | none => (.x i, if own then .m else .e)
    | some (.s m) => if own then (.x i, .m) else (.s (maskWith m i), .s)
    | some (.x o) => if own then (.x i, .m) else if o = i then (.x i, .e) else (.s (maskWith (maskWith 0 o) i), .s)
    | some d => (d, .s)
  let s := match st with
    | none => fillFromHbm u sq s
    | some (.s m) =>
      let s := if (s.l2Line i u).isNone then fillFromHbm u sq s else s
      if own then ((maskAgents m).filter (· ≠ i)).foldl (fun s a => yieldLine a u sq false s) s else s
    | some (.x o) => if o = i then s else yieldLine o u sq (!own) s
    | _ => s
  let s := s.modDie h fun x => { x with
    dirClock := clock
    dir := tabPut x.dir u { state := next.1, used := clock, waiting := (match e with | some e => e.waiting | none => []), sq := sq } }
  match s.l2Line i u with
  | some l => s.setL2 i u { l with state := next.2 }
  | none => s.fillL2 i u { state := next.2, slice := (s.dieAt i).placeOf u, sq := sq }

/-- Send a coherence message. -/
def sendCoh (src dst line : Nat) (k : CohKind) (s : State) : State :=
  { s with coh := s.coh ++ [{ src := src, dst := dst, line := line, kind := k }] }

/-- The entry of a directory set that is being recalled, by its line. -/
def State.recallOf (s : State) (u : Nat) : Option Nat :=
  ((s.dieAt (homeDie (u * 128))).dir.find? fun e => dirSet e.1 == dirSet u && (match e.2.state with | .r .. => true | _ => false)).map
    (·.1)

/-- Change a directory entry. -/
def modDir (u : Nat) (f : DirEntry → DirEntry) (s : State) : State :=
  s.modDie (homeDie (u * 128)) fun x => { x with
    dir := match tabFind x.dir u with
      | some e => tabPut x.dir u (f e)
      | none => x.dir }

/-- A requester gets a line (R154, R155), which the access that asked for it is to find (R156). -/
def grantLine (i u : Nat) (sq excl own : Bool) (asker : Option Asker) (s : State) : State :=
  if i = 4 then { s with hostLines := tabPut s.hostLines u excl }
  else
    let st : LineState := if excl then (if own then .m else .e) else .s
    match s.l2Line i u with
    | some l => s.setL2 i u { l with state := st, owed := asker }
    | none => s.fillL2 i u { state := st, slice := (s.dieAt i).placeOf u, sq := sq, owed := asker }

/-- A request is served at a directory that is at rest for it (R155). -/
def serveRequest (r : CohRequest) (s : State) : State :=
  let u := r.line
  let h := homeDie (u * 128)
  let put (st : DirState) (sq : Bool) (s : State) : State := s.modDie h fun x => { x with
    dirClock := x.dirClock + 1
    dir := tabPut x.dir u { state := st, used := x.dirClock + 1, sq := sq, asker := r.asker } }
  let i := r.agent
  match tabFind (s.dieAt h).dir u with
  | none => grantLine i u r.sq true r.own r.asker (put (.x i) r.sq (fillFromHbm u r.sq s))
  | some e =>
    match e.state with
    | .s m =>
      if r.own then
        let others := (maskAgents m).filter (· ≠ i)
        if others.isEmpty then grantLine i u e.sq true true r.asker (put (.x i) e.sq s)
        else others.foldl (fun s a => sendCoh h a u .inv s) (put (.p i true r.upgrade m others) e.sq s)
      else grantLine i u e.sq false false r.asker (put (.s (maskWith m i)) e.sq (fillFromHbm u e.sq s))
    | .x o =>
      if o = i then grantLine i u e.sq true r.own r.asker (put (.x i) e.sq s)
      else sendCoh h o u (if r.own then .fwdx i else .fwds i) (put (.p i r.own r.upgrade (maskWith 0 o) [o]) e.sq s)
    | _ => s

/-- A directory entry of another shape than a request that shares a line with it: lines of a square sector asked for whole, or the
sector of a line asked for alone (R159). -/
def State.clash (s : State) (u : Nat) (sq : Bool) : Option (Nat × DirEntry) :=
  (s.dieAt (homeDie (u * 128))).dir.find? fun e => e.2.sq != sq && (if sq then e.1 / 8 * 8 == u else u / 8 * 8 == e.1)

/-- A request arrives at the home (R155, R157): it waits behind a transaction or a recall; a full set is recalled, and so is what
holds its lines under another shape. -/
def dirRequest (r : CohRequest) (s : State) : State :=
  let u := r.line
  let h := homeDie (u * 128)
  let wait (v : Nat) (s : State) : State := modDir v (fun e => { e with waiting := e.waiting ++ [r] }) s
  match tabFind (s.dieAt h).dir u with
  | some { state := .p .., .. } => wait u s
  | some { state := .r .., .. } => wait u s
  | st =>
    match s.recallOf u with
    | some v => wait v s
    | none =>
      match s.clash u r.sq with
      | some (v, e) => wait v (if e.idle then recallEntry h v e s else s)
      | none =>
        if st.isNone && s.setFull u then
          let s := startRecall h u s
          match s.recallOf u with
          | some v => wait v s
          | none =>
            if s.setFull u then
              match (s.dieAt h).dir.find? fun e => dirSet e.1 == dirSet u with
              | some e => wait e.1 s
              | none => s
            else serveRequest r s
        else serveRequest r s

/-- Is a coherence message a request? -/
def CohKind.asks : CohKind → Bool
  | .rds | .rdx _ => true
  | _ => false

/-- Is a request of an agent for a unit on its way to its home, or does it wait there, or is it in service (R154)? -/
def State.requested (s : State) (i u : Nat) : Bool :=
  (s.coh.any fun m => m.src == i && m.line == u && m.kind.asks) ||
  (s.dieAt (homeDie (u * 128))).dir.any fun e =>
    (e.2.waiting.any fun (r : CohRequest) => r.agent == i && r.line == u) ||
      (e.1 == u && (match e.2.state with | .p j .. => j == i | _ => false))

/-- Is the home at rest for a request: nothing of the unit, its set or its lines in progress, and room for its entry? -/
def State.homeFree (s : State) (u : Nat) (sq : Bool) : Bool :=
  s.quiet u && !s.setRecalling u && (s.clash u sq).isNone && ((List.range 4).all fun d => !s.lineOwed d u) &&
    !((tabFind (s.dieAt (homeDie (u * 128))).dir u).isNone && s.setFull u)

/-- A request of a core of a die for a unit (R154): behind messages of that die to the home it is a message too, since each pair is
FIFO; at a home at rest it is served to its end at once; else it waits there in the order of arrival (R155, R157), and the access with
it. -/
def requestLine (d u core : Nat) (sq own upgrade : Bool) : M Unit := do
  let s ← get
  let asker := some (s.askerOf core)
  if s.requested d u then throw .stall
  let h := homeDie (u * 128)
  if s.coh.any fun m => m.src == d && m.dst == h && m.kind ≠ .ack then
    let m : CohMessage := {
      src := d, dst := h, line := u, kind := if own then .rdx upgrade else .rds, sq := sq, asker := asker }
    set { s with coh := s.coh ++ [m] }
    throw .stall
  if s.homeFree u sq then modify (transact d u sq own)
  else
    modify (dirRequest { agent := d, line := u, own := own, upgrade := upgrade, sq := sq, asker := asker })
    throw .stall

/-- A die holds a line of host space (R160): the host, which is coherent for it, has the other dies' copies written back, and given
up where the line is to be written. -/
def hostLine (d u : Nat) (sq own : Bool) (s : State) : State :=
  let others := (List.range 4).filter fun e => e ≠ d && (s.l2Line e u).isSome
  let s := others.foldl (fun s e => flushLine e u s) s
  let s := others.foldl (fun s e => if own then s.dropL2 e u
    else match s.l2Line e u with | some l => s.setL2 e u { l with state := .s } | none => s) s
  let st : LineState := if own then .m else if others.isEmpty then .e else .s
  match s.l2Line d u with
  | some l => s.setL2 d u { l with state := st }
  | none => s.fillL2 d u { state := st, slice := interleaved u, sq := sq }

/-- An access of a core of die `d` needs a unit in its L2 (R154): to read, or with ownership to write. The access waits while
the directory has a transaction of the unit in progress, or no way of its set can be freed; NC lines are fetched and held by the die
alone (R158); host lines are held through CXL.cache (R160). -/
def bringLine (d cove core pa : Nat) (nc sq own : Bool) : M Unit := do
  let u := unitOf pa sq
  if hbmEnd ≤ pa ∧ pa < hostBase then throw (.fault (.noSuchAddress pa))
  modify (meetLine d u)
  if !isHostPa pa then modify (touchRegion d cove core u)
  let s ← get
  match s.l2Line d u with
  | some l =>
    if own && l.state ≠ .m then
      if l.nc || l.state == .e then modify fun s => s.setL2 d u { l with state := .m }
      else if isHostPa pa then
        check (!s.host.linkUp) 0x27
        modify (hostLine d u sq true)
      else requestLine d u core sq true true
  | none =>
    let slice := if isHostPa pa then interleaved u else (s.dieAt d).placeOf u
    if !s.hasRoom d u { state := .s, slice := slice, sq := sq } then throw .stall
    if isHostPa pa then
      check (!s.host.linkUp) 0x27
      modify (hostLine d u sq own)
    else if nc then
      modify (fillFromHbm u sq)
      let s ← get
      let bytes := (unitLines u sq).flatMap fun ln => (List.range 128).map fun j => (ln * 128 + j, s.hbmByte (ln * 128 + j))
      modify fun s => s.fillL2 d u {
        state := if own then .m else .e, slice := (s.dieAt d).placeOf u, nc := true, sq := sq
        data := bytes.filter fun x => x.2 ≠ 0 }
    else requestLine d u core sq own false

/-- An access that brings a unit into the L2, counted for its migration (R153). -/
def acquire (d cove core pa : Nat) (nc sq own : Bool) : M Unit := do
  bringLine d cove core pa nc sq own
  modify (touchLine false d cove (unitOf pa sq))

/-- An access of an engine or unit: its sectors of one line count once in a step. -/
def acquireOnce (d cove core pa : Nat) (nc sq own : Bool) : M Unit := do
  bringLine d cove core pa nc sq own
  modify (touchLine true d cove (unitOf pa sq))

/-- Read bytes of an acquired line. -/
def State.physGet (s : State) (d pa n : Nat) (sq : Bool) : List Byte :=
  match s.l2Line d (unitOf pa sq) with
  | some l => if l.nc then (List.range n).map fun i => tabGet l.data (pa + i) 0 else cellsGet s.mem pa n
  | none => cellsGet s.mem pa n

/-- Write bytes of a line that the die holds in M, perform the write for its watchers, and drop the other copies in the L1s. -/
def physWrite (d : Nat) (core : Option Nat) (pa : Nat) (sq : Bool) (bytes : List Byte) (s : State) : State :=
  let u := unitOf pa sq
  let s := dropL1 d u sq core { s with poison := clearPoison s.poison pa bytes.length }
  match s.l2Line d u with
  | some l =>
    if l.nc then
      let data := (List.range bytes.length).foldl (fun t i =>
        let b := nth bytes i 0
        if b = 0 then tabDel t (pa + i) else tabPut t (pa + i) b) l.data
      let dirty := (List.range bytes.length).foldl (fun t i => markPut t (pa + i)) l.dirty
      noteWrite (pa / 128) (some d) (s.setL2 d u { l with state := .m, data := data, dirty := dirty })
    else
      let s := putTracked pa bytes s
      let s := if isHostPa pa then { s with host := { s.host with hostDirty := markPut s.host.hostDirty u } } else s
      noteWrite (pa / 128) none s
  | none => noteWrite (pa / 128) none (putTracked pa bytes s)

/-- The instruction word at an address, as a die reads it. -/
def State.codeWord (s : State) (d pa : Nat) (sq : Bool) : BitVec 32 := BitVec.ofNat 32 (natOfBytes (s.physGet d pa 4 sq))

/-- A write of bytes to a line (R154, R297); of each word that it changes, the one before is kept for the fetches that may still
return it (R30). -/
def physPut (d : Nat) (core : Option Nat) (pa : Nat) (sq : Bool) (bytes : List Byte) (s : State) : State :=
  let t := physWrite d core pa sq bytes s
  { t with
    stores := s.stores + 1
    rewritten := (List.range ((pa + bytes.length + 3) / 4 - pa / 4)).foldl (fun l i =>
      let w := pa / 4 + i
      let old := s.codeWord d (4 * w) sq
      if old = t.codeWord d (4 * w) sq then l else tabPut l w (s.stores, old)) s.rewritten }

end Sys2Proof.Machine
end

