-- ==== Sys2Proof/Machine/Memory.lean ====
section
/-! DEFINITION. Address spaces and translation (spec/07), the local SRAM with its L1, victim pool and store buffer (spec/06), and
the loads and stores that every instruction uses. -/

namespace Sys2Proof.Machine

/-- Is an address canonical and not local: bits 63 to 56 zero (R122)? -/
def isVirtual (ea : Word) : Bool := fieldOf ea 63 56 == 0

/-- Insert an entry as most recently used in a TLB of `n` entries. -/
def tlbInsert (n : Nat) (e : TlbEntry) (l : List TlbEntry) : List TlbEntry := (e :: l).take n

/-- Find an entry in a TLB and make it the most recently used. -/
def tlbHit (asid va : Nat) (l : List TlbEntry) : Option (TlbEntry × List TlbEntry) :=
  match l.find? (·.matchesVa asid va) with
  | some e => some (e, e :: l.erase e)
  | none => none

/-- Search the micro-TLB and the cove TLB (R126); engines search the cove TLB only. A hit in the cove TLB is copied into the
micro-TLB. -/
def tlbSearch (core asid va : Nat) (micro : Bool) : M (Option TlbEntry) := do
  let s ← get
  match (if micro then tlbHit asid va (s.coreAt core).utlb else none) with
  | some (e, l) => modify fun s => s.modCore core fun k => { k with utlb := l }; return some e
  | none =>
    match tlbHit asid va (s.coveAt (coveOf core)).tlb with
    | some (e, l) =>
      modify fun s => s.modCove (coveOf core) fun v => { v with tlb := l }
      if micro then modify fun s => s.modCore core fun k => { k with utlb := tlbInsert 32 e k.utlb }
      return some e
    | none => return none

/-- A miss asks for a walk (R128): it joins an active walk of its address space and granule, or takes the lowest free slot;
with none free it waits. The access then waits (its task issues no further). The walk's record takes its place behind the messages
that the pilot already has (R88). -/
def startWalk (core asid : Nat) (va : Word) (kind : Nat) (priv rg : Bool) (rix : Nat) (who : Requester) (s : State) : State :=
  let cove := coveOf core
  let v := s.coveAt cove
  match v.walks.find? fun w => w.2.asid == asid && granule w.2.va == granule va with
  | some (i, w) =>
    if w.waiters.contains who then s
    else s.modCove cove fun v => { v with walks := tabPut v.walks i { w with waiters := w.waiters ++ [who] } }
  | none =>
    match tabFree v.walks 32 0 with
    | none => s
    | some i =>
      let pilot := pilotOf cove
      let n := (s.coreAt pilot).inboxNext
      let w : Walk := {
        va := va, asid := asid, kind := kind, priv := priv, rg := rg, rix := rix, core := core, waiters := [who], order := n }
      let s := s.modCore pilot fun k => { k with inboxNext := n + 1 }
      let s := s.modCove cove fun v => { v with walks := tabPut v.walks i w, walkQueue := v.walkQueue ++ [i] }
      let s := s.modCore core fun k => { k with pgstat := bumpField k.pgstat 15 0 1 }
      pumpInbox pilot s

/-- The landing core of sr.land for a home die (R133); one on another die is not valid (R132). -/
def State.landing (s : State) (part home : Nat) : Option Nat :=
  let l := (s.partAt part).land
  let c := fieldOf l (16 * home + 10) (16 * home)
  if bitOf l (16 * home + 15) && dieOf c == home then some c else none

/-- Does a replayed access of a task wait on an open ticket of its address space and granule (R136)? -/
def State.joinedTicket (s : State) (t : Task) (asid : Nat) (va : Word) : Bool :=
  t.joined.any fun w => match w.ticket.bind fun id => tabFind (s.coveAt (id / 64)).tickets (id % 64) with
    | some k => k.asid == asid && granule k.va == granule va
    | none => false

/-- Is the running task shippable (R132)? -/
def Task.shippable (t : Task) : Bool :=
  !t.a.active && !t.frame.act && t.streams.isEmpty && t.g.get 30 == t.g.get 29

/-- A core with scratchpad bytes written: a word written whole loses its poison (R114), and watches of the blocks of 128 bytes are set
(R297); no bytes are no write. -/
def Core.putSpm (k : Core) (now off : Nat) (bytes : List Byte) : Core :=
  let n := bytes.length
  if n = 0 then k else
  let k := { k with
    spm := cellsSet k.spm off bytes
    spmPoison := k.spmPoison.filter fun w => !(off ≤ 8 * w && 8 * w + 8 ≤ off + n) }
  (List.range ((off + n + 127) / 128 - off / 128)).foldl (fun k i => k.markWatch now true (off / 128 + i)) k

/-- Write scratchpad bytes. -/
def spmPut (c off : Nat) (bytes : List Byte) (s : State) : State := s.modCore c fun k => k.putSpm s.turns off bytes

/-- Does a copy command still read: a copy or a put whose rows are not all read, a get whose data have not all come (R262)? -/
def CopyCommand.reading (c : CopyCommand) : Bool :=
  match c.kind with
  | .get .. => c.row < c.rows && c.done + c.data.length < c.rowBytes
  | _ => c.row < c.rows

/-- Does a vector command read memory (R188)? -/
def readsVector : Instr → Bool
  | .vld .. | .vlds .. | .vgat .. | .vopt .. => true
  | _ => false

/-- Does a matrix command read memory (R211)? -/
def readsMatrix : Instr → Bool
  | .mfetch .. | .mwr .. => true
  | _ => false

/-- Has the vector engine, the copy engine or the tile fetch unit of a core reads of memory to do (R315)? -/
def Core.engineReads (k : Core) : Bool :=
  k.cq.any CopyCommand.reading || (k.vq.any fun (x : VecCommand) => readsVector x.instr) ||
    k.mq.any fun (x : MatCommand) => readsMatrix x.instr

/-- Does a core hold a command whose reads of memory are not done (R188, point 2)? -/
def Core.memoryBusy (k : Core) : Bool := k.engineReads || !k.rputs.isEmpty

/-- Has every memory command that the core accepted before this one done its accesses (R188)? -/
def Core.inOrder (k : Core) (id : Nat) : Bool := k.memoryIds.all fun x => id ≤ x

/-- Run a computation that waits where it would raise a cause. -/
def neverFaults {α : Type} (m : M α) : M α :=
  tryCatch m fun e => match e with
    | .trap _ => throw .stall
    | e => throw e

/-- The oldest entry of a core's store buffer leaves (R110): it writes the scratchpad, or L2 accepts it. An entry that entered
after a memory command was accepted waits for that command's reads (R188). It never faults: one for a host line that the L2 no
longer holds waits while the link is down (notes/assumptions/40.md). A hit leaves the order of the L1's uses as it was
(notes/assumptions/62.md). -/
def drainOne (c : Nat) : M Unit := do
  match (← coreM c).sb with
  | [] => pure ()
  | e :: r =>
    if (← coreM c).memoryBusy then throw .stall
    if e.isLocal then modify (spmPut c e.addr e.bytes)
    else
      neverFaults (acquire (dieOf c) (coveOf c) c e.addr e.nc e.sq true)
      modify (physPut (dieOf c) (some c) e.addr e.sq e.bytes)
    modify fun s => s.modCore c fun k => { k with sb := r }

/-- Drain a store buffer of at most `n` entries. -/
def drainN (c : Nat) : Nat → M Unit
  | 0 => pure ()
  | n + 1 => do drainOne c; drainN c n

/-- Drain the current core's store buffer. -/
def drain : M Unit := do drainN (← curCore) 16

/-- A task that a walk's answer ships goes once its store buffer is empty (R130, R132): at the access that waited. -/
def shipAnswered (va : Word) : M Unit := do
  let s ← get
  match s.task.shipTo with
  | some (l, at_, ea) =>
    if !s.cur.a && s.task.shippable && granule at_ == granule va then
      drain
      throw (.ship (some l) ea)
  | none => pure ()

/-- Count an access through a SHIP page that is served as a data move, once (R148). -/
def noteShip (ea : Word) : M Unit := do
  if !(← taskM).shipNoted.contains ea then
    modCC fun k => { k with pgstat := bumpField k.pgstat 43 32 1 }
    modTaskM fun t => { t with shipNoted := ea :: t.shipNoted }

/-- Translate a data access of the running task (R126, R127): the causes, the walk, the shipping of R132. -/
def translate (ea : Word) (write : Bool) : M (Nat × TlbEntry) := do
  shipAnswered ea
  let s ← get
  let core := s.cur.core
  let t := s.task
  let asid := s.asidOf core
  let who : Requester := .task core t.tid s.cur.a 0 s.pc ea
  let kind := if write then 1 else 0
  match ← tlbSearch core asid ea.toNat true with
  | none =>
    if s.joinedTicket t asid ea then throw .stall
    modify (startWalk core asid ea kind t.priv false 0 who); throw .stall
  | some e =>
    check (!e.r) 0x11 ea
    check (!e.u && !t.priv) 0x13 ea
    check (write && !e.w) 0x12 ea
    if e.rg then
      if s.joinedTicket t asid ea then throw .stall
      modify (startWalk core asid ea kind t.priv true e.rix who); throw .stall
    if e.ship && e.home ≠ dieOf core then
      if t.shippable then
        drain
        throw (.ship (s.landing (s.partOf core) e.home) ea)
      noteShip ea
    return (e.paOf ea.toNat, e)

/-- Where an access lands: an offset of the core's scratchpad, or a physical address with its page's attributes. -/
inductive Place where
  | spm (off : Nat)
  | phys (pa : Nat) (nc sq : Bool)
  deriving DecidableEq, Repr

/-- The scratchpad size of a core in bytes (R104, R83). -/
def Core.spmSize (k : Core) : Nat := k.carveSize * 32768

/-- The local range check of R103 on one access of `n` bytes. -/
def localBad (k : Core) (ea : Word) (n : Nat) : Bool := fieldOf ea 62 18 ≠ 0 || fieldOf ea 17 0 + n > k.spmSize

/-- Resolve an access of R114 after its alignment check: local, or translated. -/
def placeOf (ea : Word) (n : Nat) (write : Bool) : M Place := do
  if bitOf ea 63 then
    check (localBad (← cc) ea n) 0x14 ea
    return .spm (fieldOf ea 17 0)
  else
    check (!isVirtual ea) 0x11 ea
    let (pa, e) ← translate ea write
    return .phys pa e.nc e.sq

/-- The number of sets of a core's L1 (R106). -/
def Core.l1Sets (k : Core) : Nat := (8 - k.carveSize) * 32

/-- Put a line into an L1 as most recently used; a full set gives up its least recently used line. -/
def l1Insert (k : Core) (x : L1Line) : List L1Line × Option L1Line :=
  let set := x.line % k.l1Sets
  let inSet := k.l1.filter fun l => l.line % k.l1Sets == set
  match (if inSet.length < 8 then none else inSet.getLast?) with
  | none => (x :: k.l1, none)
  | some old => (x :: k.l1.erase old, some old)

/-- The core of a rank of the block of a core. -/
def State.rankCore (s : State) (c r : Nat) : Option Nat := (s.blockOf c).bind fun b => b.cores[r]?
/-- The rank of a core in its block. -/
def State.rankOf (s : State) (c : Nat) : Nat := match (s.coreAt c).block with | some b => b.2 | none => 0

/-- The effective partners of a core, by rank (R108). -/
def Core.partners (k : Core) : List Nat := (List.range 8).filter k.poolPart.getLsbD

/-- A line evicted from a core's L1 becomes a victim copy of the next partner in turn (R109). Where none took one before, the turn
begins after rank 0 (notes/assumptions/62.md). -/
def giveVictim (c : Nat) (line : Nat) (s : State) : State :=
  let k := s.coreAt c
  let ps := k.partners
  let next := (ps.find? fun r => k.lastVictim < r).or ps.head?
  match next, next.bind (s.rankCore c) with
  | some r, some pc =>
    let p := s.coreAt pc
    let s := s.modCore c fun k => { k with lastVictim := r }
    s.setCore pc { p with l1 := (l1Insert p { line := line, victim := some (s.rankOf c) }).1 }
  | _, _ => s

/-- A load's passage through the L1 and the pool (R106, R109): hits, the miss that allocates, and their counts (R120). Answers
whether the line was found there. A core's own load does not hit the victim copies it holds for others, and of several partners
that hold the line the lowest rank serves it (notes/assumptions/62.md). A line that l1fl has named misses the pool (R119). -/
def l1Load (c line : Nat) (s : State) : State × Bool :=
  let k := s.coreAt c
  if !isWork c then (s, false)
  else if k.carveSize ≥ 8 && k.partners.isEmpty then (s.setCore c { k with lstat := bumpField k.lstat 23 0 1 }, false)
  else
    match k.l1.find? fun l => l.line == line && l.victim.isNone with
    | some l => (s.setCore c { k with l1 := l :: k.l1.erase l }, true)
    | none =>
      let found := if k.passed.contains line then none else k.partners.findSome? fun r => (s.rankCore c r).bind fun pc =>
        ((s.coreAt pc).l1.find? fun l => l.line == line).map fun l => (pc, l)
      let place (s : State) : State :=
        let k := s.coreAt c
        if k.carveSize ≥ 8 then s
        else
          let (l1, old) := l1Insert k { line := line }
          let s := s.setCore c { k with l1 := l1 }
          match old with
          | some o => if o.victim.isNone then giveVictim c o.line s else s
          | none => s
      match found with
      | some (pc, l) =>
        let s := s.modCore c fun k => { k with lstat := bumpField k.lstat 43 24 1 }
        if l.victim.isSome then (place (s.modCore pc fun p => { p with l1 := p.l1.erase l }), true)
        else (s.modCore pc fun p => { p with l1 := l :: p.l1.erase l }, true)
      | none =>
        (place (s.modCore c fun k => { k with lstat := bumpField k.lstat 23 0 1, passed := k.passed.filter (· ≠ line) }), false)

/-- Are bytes at a physical address poisoned (R433)? -/
def State.poisoned (s : State) (pa n : Nat) : Bool := s.poison.any fun k => k * 32 < pa + n && pa < k * 32 + 32
/-- Has the access in progress met bytes uncorrectable in HBM (R433)? -/
def State.uncorrectable (s : State) (pa n : Nat) : Bool := s.hbmMet.any fun k => k * 32 < pa + n && pa < k * 32 + 32
/-- Were bytes poisoned before the access in progress brought them from HBM? -/
def State.poisonedBefore (s : State) (pa n : Nat) : Bool :=
  s.poison.any fun k => k * 32 < pa + n && pa < k * 32 + 32 && !s.hbmMet.contains k
/-- Are scratchpad bytes poisoned (R114)? -/
def Core.spmBad (k : Core) (off n : Nat) : Bool := k.spmPoison.any fun w => w * 8 < off + n && off < w * 8 + 8

/-- The store-buffer entries that overlap bytes, youngest first, give each byte or leave it (R111). -/
def sbByte (sb : List SbEntry) (isLocal : Bool) (addr : Nat) : Option Byte :=
  (sb.reverse.find? fun e => e.isLocal == isLocal && e.addr ≤ addr && addr < e.addr + e.bytes.length).map
    fun e => nth e.bytes (addr - e.addr) 0

/-- What the store buffer supplies of `n` bytes: all of them, none, or some (a partial overlap waits, R111). -/
def sbForward (sb : List SbEntry) (isLocal : Bool) (addr n : Nat) : Option (List Byte) × Bool :=
  let bs := (List.range n).map fun i => sbByte sb isLocal (addr + i)
  if bs.all (·.isSome) then (some (bs.map (·.getD 0)), false) else (none, bs.any (·.isSome))

/-- A load passes through the L1 and the pool; sr.lstat counts it once, however often its instruction starts anew (R120). -/
def countLoad (c pa : Nat) : M Unit := do
  let a := (← get).cur.a
  let again := (← taskM).loadNoted.contains (a, pa)
  modify fun s =>
    let t := (l1Load c (pa / 128) s).1
    if again then t.modCore c fun k => { k with lstat := (s.coreAt c).lstat } else t
  modTaskM fun t => { t with loadNoted := if again then t.loadNoted else (a, pa) :: t.loadNoted }

/-- Read `n` bytes at a resolved place as a load of the current core (R111, R114). -/
def readPlace (ea : Word) (n : Nat) (p : Place) : M (List Byte) := do
  let c ← curCore
  let k ← cc
  match p with
  | .spm off =>
    match sbForward k.sb true off n with
    | (some bs, _) => return bs
    | (none, true) => throw .wait
    | (none, false) =>
      check (k.spmBad off n) 0x19 ea
      return cellsGet k.spm off n
  | .phys pa nc sq =>
    match sbForward k.sb false pa n with
    | (some bs, _) => return bs
    | (none, true) => throw .wait
    | (none, false) =>
      let d := dieOf c
      let before ← get
      let hit := (l1Load c (pa / 128) before).2 && (before.l2Line d (unitOf pa sq)).isSome
      if !hit then acquire d (coveOf c) c pa nc sq false
      countLoad c pa
      let s ← get
      check (!hit && s.uncorrectable pa n) 0x1E ea
      check (s.poisoned pa n) 0x19 ea
      return s.physGet d pa n sq

/-- Note a load for the spin detector (R73). -/
def noteLoad (ea : Word) (p : Place) (v : Word) : M Unit := do
  if !(← get).cur.a then
    let ln := match p with | .spm off => (true, off / 128) | .phys pa _ _ => (false, pa / 128)
    modTaskM fun t => { t with spin := { t.spin with lastLoad := some (ea, v), line := some ln } }

/-- A plain load of `n` bytes (R114). -/
def loadBytes (ea : Word) (n : Nat) : M (List Byte) := do
  let p ← placeOf ea n false
  readPlace ea n p

/-- A plain load of one aligned doubleword, as the descriptors and payloads are read. -/
def loadWord (ea : Word) : M Word := do return wordOfList (← loadBytes ea 8)

/-- Plain loads of `n` doublewords from an aligned address. -/
def loadWords (ea : Word) : Nat → M (List Word)
  | 0 => pure []
  | n + 1 => do
    let w ← loadWord ea
    let r ← loadWords (ea + 8) n
    return w :: r

/-- Would a local store touch the capability table from the unprivileged view (R236)? -/
def tableBad (ea : Word) (n : Nat) : M Bool := do
  let s ← get
  let t := s.tableAt s.cur.core
  let o := fieldOf ea 17 0
  return !s.task.priv && o < t + 256 && t < o + n

/-- Make every check of a plain store of `n` bytes (R114, R236). -/
def storePlace (ea : Word) (n : Nat) : M Place := do
  let p ← placeOf ea n true
  match p with
  | .spm _ => check (← tableBad ea n) 0x21 ea
  | _ => pure ()
  return p

/-- A store enters the store buffer (R110); it waits while all 16 entries are in use. -/
def enqueue (p : Place) (bytes : List Byte) (release : Bool := false) : M Unit := do
  waitUntil ((← cc).sb.length < 16)
  let e : SbEntry := match p with
    | .spm off => { isLocal := true, addr := off, bytes := bytes, release := release }
    | .phys pa nc sq => { isLocal := false, addr := pa, bytes := bytes, nc := nc, sq := sq, release := release }
  modCC fun k => { k with sb := k.sb ++ [e] }

/-- A plain store of `n` bytes (R114). -/
def storeBytes (ea : Word) (bytes : List Byte) (release : Bool := false) : M Unit := do
  let p ← storePlace ea bytes.length
  enqueue p bytes release

/-- The pieces of a store of many bytes (R450): each within one aligned doubleword, ascending. `fuel` bounds them. -/
def storePieces (ea : Word) (bytes : List Byte) : Nat → List (Word × List Byte)
  | 0 => []
  | fuel + 1 =>
    if bytes.isEmpty then []
    else
      let n := 8 - ea.toNat % 8
      (ea, bytes.take n) :: storePieces (ea + BitVec.ofNat 64 n) (bytes.drop n) fuel

/-- Check every piece of a store of many bytes (R450). -/
def checkStores (ps : List (Word × List Byte)) : M (List (Place × List Byte)) :=
  mapEach (fun p => do return (← storePlace p.1 p.2.length, p.2)) ps

/-- Drain a core's store buffer until `n` entries are free. -/
def drainRoom (c n : Nat) : Nat → M Unit
  | 0 => pure ()
  | fuel + 1 => do
    if (← coreM c).sb.length + n > 16 then
      drainOne c
      drainRoom c n fuel

/-- Enter checked pieces, the buffer draining as they need it. -/
def enterEach (ps : List (Place × List Byte)) : M Unit :=
  each (fun p => do
    if (← cc).sb.length ≥ 16 then drainOne (← curCore)
    enqueue p.1 p.2) ps

/-- Bring the line of a place into L2 for a store. -/
def acquirePlace (c : Nat) : Place → M Unit
  | .spm _ => pure ()
  | .phys pa nc sq => neverFaults (acquire (dieOf c) (coveOf c) c pa nc sq true)

/-- Enter checked pieces, uninterrupted from the first entry to the last (R450): up to sixteen once the buffer has room for all of
them; more once the buffer is empty and the L2 holds their lines, as one step or not yet. -/
def enterStores (ps : List (Place × List Byte)) : M Unit := do
  let c ← curCore
  if ps.length ≤ 16 then
    drainRoom c ps.length 16
    enterEach ps
  else
    drain
    if (← cc).memoryBusy then throw .stall
    each (fun p => acquirePlace c p.1) ps
    let s ← get
    tryCatch (enterEach ps) fun e => match e with
      | .stall => do set s; throw .stall
      | e => throw e

/-- The access size of an sz code in bytes (R19). -/
def szBytes (z : Nat) : Nat := match z / 2 with | 0 => 1 | 1 => 2 | 2 => 4 | _ => 8

/-- The result of a load by sz (R19): even codes below 6 sign-extend. -/
def szExtend (z : Nat) (bs : List Byte) : Word :=
  if z % 2 = 0 then wordOfInt (sextNat (natOfBytes bs) (8 * szBytes z)) else wordOfList bs

/-- The whole effect of a load of R114 at `ea` into `d`. -/
def loadTo (d : BitVec 5) (z : Nat) (ea : Word) : M Unit := do
  let n := szBytes z
  check (ea.toNat % n ≠ 0) 0x10 ea
  let p ← placeOf ea n false
  let v := szExtend z (← readPlace ea n p)
  noteLoad ea p v
  wg d v

/-- The whole effect of a store of R114 at `ea`. -/
def storeFrom (z : Nat) (ea v : Word) (release : Bool := false) : M Unit := do
  let n := szBytes z
  check (ea.toNat % n ≠ 0) 0x10 ea
  storeBytes ea ((bytesOf v).take n) release

/-- Translate an access of an engine or unit (R126, R130): through the TLB of a cove; the answer of a walk stands under the
unit's tag with its address. A ticket or a walk holds the unit's work; a fault is answered as its cause. -/
def engineTranslate (tag core asid : Nat) (priv : Bool) (ea : Word) (write : Bool) : M (Except Nat (Nat × TlbEntry)) := do
  let s ← get
  match (tabFind s.answers tag).filter fun (c : Cause) => granule c.addr == granule ea with
  | some c => set { s with answers := tabDel s.answers tag }; return .error c.code
  | none =>
    if s.heldTags.contains tag then throw .no
    match ← tlbSearch core asid ea.toNat false with
    | none => modify (startWalk core asid ea 3 priv false 0 (.engine tag)); throw .stall
    | some e =>
      if !e.r then return .error 0x11
      else if !e.u && !priv then return .error 0x13
      else if write && !e.w then return .error 0x12
      else if e.rg then do modify (startWalk core asid ea 3 priv true e.rix (.engine tag)); throw .stall
      else return .ok (e.paOf ea.toNat, e)

end Sys2Proof.Machine
end

