-- ==== Sys2Proof/Machine/Operands.lean ====
section
/-! DEFINITION. The operand forms: immediates, targets and memory operands (R18, R46, R113), and the scalar operations on words
that more than one instruction uses (R41, R42). -/

namespace Sys2Proof.Machine

/-- A sign-extended immediate. -/
def simm {n : Nat} (i : BitVec n) : Word := i.signExtend 64
/-- A zero-extended immediate. -/
def zimm {n : Nat} (i : BitVec n) : Word := i.setWidth 64
/-- A PC-relative target: p plus four times the signed offset (R18). -/
def targetOf {n : Nat} (p : Word) (o : BitVec n) : Word := p + simm o * 4#64
/-- The address of an M-form operand: base plus signed offset times the access size (R18, R114). -/
def memAddr (base : Word) (o : BitVec 13) (z : Nat) : Word := base + simm o * BitVec.ofNat 64 (szBytes z)
/-- The address of an indexed operand (R114). -/
def indexAddr (base index : Word) (scaled : BitVec 1) (z : Nat) : Word :=
  base + index * (if scaled = 1 then BitVec.ofNat 64 (szBytes z) else 1)

/-- The high half of the signed product (R41). -/
def mulHigh (x y : Word) : Word := BitVec.ofInt 64 (x.toInt * y.toInt / 2 ^ 64)
/-- The high half of the unsigned product (R41). -/
def mulHighZ (x y : Word) : Word := BitVec.ofNat 64 (x.toNat * y.toNat / 2 ^ 64)
/-- The amount of a shift: bits 5 to 0 (R42). -/
def amount (y : Word) : Nat := y.toNat % 64
/-- The signed minimum (R41). -/
def minS (x y : Word) : Word := if x.sle y then x else y
/-- The signed maximum. -/
def maxS (x y : Word) : Word := if y.sle x then x else y
/-- The unsigned minimum. -/
def minU (x y : Word) : Word := if x.toNat ≤ y.toNat then x else y
/-- The unsigned maximum. -/
def maxU (x y : Word) : Word := if y.toNat ≤ x.toNat then x else y
/-- The zero bits above the highest 1 bit (R41). -/
def leadingZeros (x : Word) : Nat := ((List.range 64).takeWhile fun i => !x.getLsbD (63 - i)).length
/-- The zero bits below the lowest 1 bit. -/
def trailingZeros (x : Word) : Nat := ((List.range 64).takeWhile fun i => !x.getLsbD i).length
/-- The 1 bits. -/
def onesCount (x : Word) : Nat := ((List.range 64).filter x.getLsbD).length
/-- The bytes in reverse order. -/
def byteSwap (x : Word) : Word := wordOfList (bytesOf x).reverse

/-- The length of a bit field, which stops at bit 63 (R51). -/
def fieldLen (pos : Nat) (l : BitVec 6) : Nat := min (l.toNat + 1) (64 - pos)
/-- The field of `len` bits from `pos`. -/
def fieldAt (x : Word) (pos len : Nat) : Nat := x.toNat / 2 ^ pos % 2 ^ len
/-- `x` with the field of `len` bits from `pos` replaced by the low bits of `y` (R51). -/
def insertField (x y : Word) (pos len : Nat) : Word := withField x (pos + len - 1) pos (y.toNat % 2 ^ len)
/-- The position of a bit field: five bits of the word and the low bit of its operation (R50). -/
def fieldPos (p : BitVec 5) (q : BitVec 1) : Nat := p.toNat + 32 * q.toNat

end Sys2Proof.Machine
end

