-- ==== Sys2Proof/Machine/Local.lean ====
section
/-! DEFINITION. Loads, stores and the control of the local SRAM (spec/06, majors 0x1A to 0x1E). -/

namespace Sys2Proof.Machine

/-- LD (R114). -/
def execLd (d a : BitVec 5) (z : BitVec 3) (o : BitVec 13) (s : State) : Host.Outcome State Fault Refusal :=
  issue .load 4 (do loadTo d z.toNat (memAddr (← rg a) o z.toNat); return .seq) s

/-- ST (R114). -/
def execSt (d a : BitVec 5) (z : BitVec 3) (o : BitVec 13) (s : State) : Host.Outcome State Fault Refusal :=
  other (do storeFrom z.toNat (memAddr (← rg a) o z.toNat) (← rg d)) s

/-- LDX (R114). -/
def execLdx (d a b : BitVec 5) (c : BitVec 1) (z : BitVec 3) (s : State) : Host.Outcome State Fault Refusal :=
  issue .load 4 (do loadTo d z.toNat (indexAddr (← rg a) (← rg b) c z.toNat); return .seq) s

/-- STX (R114). -/
def execStx (d a b : BitVec 5) (c : BitVec 1) (z : BitVec 3) (s : State) : Host.Outcome State Fault Refusal :=
  other (do storeFrom z.toNat (indexAddr (← rg a) (← rg b) c z.toNat) (← rg d)) s

/-- The effective partners of a core from the masks (R108), and the victim copies it gives up for those it loses (R109). -/
def repartner (c : Nat) (s : State) : State :=
  let k := s.coreAt c
  let mine := s.rankOf c
  let part := (List.range 8).filter fun r => k.poolMask.getLsbD r && (match s.rankCore c r with
    | some p => (s.coreAt p).poolMask.getLsbD mine && (s.coreAt p).carveSize < 8
    | none => false)
  s.setCore c { k with
    poolPart := part.foldl (fun m r => m ||| BitVec.ofNat 8 (2 ^ r)) 0
    l1 := k.l1.filter fun l => match l.victim with | some r => part.contains r | none => true }

/-- Recompute the partners of a core and of some ranks of its block. -/
def repartnerAll (c : Nat) (ranks : List Nat) (s : State) : State :=
  (ranks.filterMap (s.rankCore c)).foldl (fun s p => repartner p s) (repartner c s)

/-- Are the queues of a core's engines empty and their accepted commands complete (R116)? -/
def Core.enginesIdle (k : Core) : Bool := k.vq.isEmpty && k.cq.isEmpty && k.mq.isEmpty && k.mret.isEmpty

/-- Empty the L1 of a core and every victim copy it holds. -/
def Core.dropAllL1 (k : Core) : Core := { k with l1 := [] }

/-- The scratchpad takes a new size (R116): what is given up is discarded, what is gained reads zero. -/
def Core.resize (k : Core) (n : Nat) : Core :=
  { k with
    carveSize := n
    spm := k.spm.filter fun x => decide (x.1 < n * 32768 ∧ x.1 < k.carveSize * 32768)
    spmPoison := k.spmPoison.filter fun w => decide (w * 8 < n * 32768 ∧ w * 8 < k.carveSize * 32768) }

/-- CARVE (R116). One that waits for the store buffer or the engines has been issued: an ebb waits for it (R121). -/
def execCarve (n : BitVec 4) (s : State) : Host.Outcome State Fault Refusal :=
  other (do
    let k ← cc
    check (n.toNat < k.carveBase || n.toNat > k.carveLimit) 0x14 (zimm n)
    modify (·.begin 1)
    drain
    if !(← cc).enginesIdle then throw .stall
    modCC fun k => k.dropAllL1.resize n.toNat
    let c ← curCore
    modify (repartnerAll c (List.range 8))) s

/-- POOL (R117). -/
def execPool (a : BitVec 5) (s : State) : Host.Outcome State Fault Refusal :=
  other (do
    let c ← curCore
    let s ← get
    let n := match s.blockOf c with | some b => b.cores.length | none => 0
    let own := s.rankOf c
    let m : BitVec 8 := (s.rg a).setWidth 8
    let ranks := (List.range 8).filter fun r => m.getLsbD r && r ≠ own && r < n
    let old := (s.coreAt c).poolMask
    let new : BitVec 8 := ranks.foldl (fun x r => x ||| BitVec.ofNat 8 (2 ^ r)) 0
    modCC fun k => { k with poolMask := new }
    modify (repartnerAll c ((List.range 8).filter fun r => old.getLsbD r || new.getLsbD r))) s

/-- Bring a line into L2, and into the L1 for level 0 (R118). -/
def prefetch (core pa : Nat) (e : TlbEntry) (l1 : Bool) : M Unit := do
  acquire (dieOf core) (coveOf core) core pa e.nc e.sq false
  if l1 && isWork core then
    let k ← cc
    if k.carveSize < 8 && !(k.l1.any fun l => l.line == pa / 128 && l.victim.isNone) then
      let (l, old) := l1Insert k { line := pa / 128 }
      modCC fun k => { k with l1 := l, passed := k.passed.filter (· ≠ pa / 128) }
      match old with
      | some o => if o.victim.isNone then modify (giveVictim core o.line)
      | none => pure ()

/-- PREF (R118): a hint; it never traps, walks or waits. It does nothing either where a load would raise 0x13 or ask for a regeneration
(notes/assumptions/77.md). -/
def execPref (a : BitVec 5) (l : BitVec 1) (o : BitVec 6) (s : State) : Host.Outcome State Fault Refusal :=
  other (do
    let ea := (← rg a) + simm o * 128#64
    if !bitOf ea 63 && isVirtual ea then
      let s ← get
      match ← tlbSearch s.cur.core (s.asidOf s.cur.core) ea.toNat true with
      | none => pure ()
      | some e =>
        if e.r && (e.u || s.task.priv) && !e.rg then
          tryCatch (prefetch s.cur.core (e.paOf ea.toNat) e (l = 0)) fun _ => pure ()) s

/-- L1FL of one line (R119): the line is invalidated in this core's L1 and in every victim copy of it, and the next load of it misses
the pool as well. -/
def execL1fl (a : BitVec 5) (s : State) : Host.Outcome State Fault Refusal :=
  other (do
    let ea ← rg a
    let c ← curCore
    match ← placeOf ea 1 false with
    | .spm _ => pure ()
    | .phys pa _ _ =>
      let partners := (← cc).partners
      modCC fun k => { k with l1 := k.l1.filter fun l => decide (l.line ≠ pa / 128), passed := markPut k.passed (pa / 128) }
      modify fun s => (partners.filterMap (s.rankCore c)).foldl (fun s p => s.modCore p fun k => { k with
        l1 := k.l1.filter fun l => decide (l.line ≠ pa / 128 ∨ l.victim = none) }) s) s

/-- L1FL_ALL (R119): this core's whole L1, and every victim copy that partners hold for it. -/
def execL1flAll (s : State) : Host.Outcome State Fault Refusal :=
  other (do
    let c ← curCore
    let own := (← get).rankOf c
    let partners := (← cc).partners
    let s ← get
    let copies := (partners.filterMap (s.rankCore c)).flatMap fun p => (s.coreAt p).l1.filter fun l => l.victim == some own
    modCC fun k => { k with l1 := [], passed := (k.l1 ++ copies).foldl (fun m l => markPut m l.line) k.passed }
    modify fun s => (partners.filterMap (s.rankCore c)).foldl (fun s p => s.modCore p fun k => { k with
      l1 := k.l1.filter fun l => l.victim ≠ some own }) s) s

/-- STORE_BUFFER_DRAIN (R110): the oldest entry of a core's buffer leaves. -/
def execStoreBufferDrain (core : Nat) (s : State) : Host.Outcome State Fault Refusal :=
  event (do
    enabled (!(s.coreAt core).sb.isEmpty)
    drainOne core) s

end Sys2Proof.Machine
end

