-- ==== Sys2Proof/Machine/Atomic.lean ====
section
/-! DEFINITION. Atomics and L2 control (spec/08, majors 0x20 and 0x21). -/

namespace Sys2Proof.Machine

/-- The FP32 sum of amo.fadd (R164): round to nearest even, ftz as sr.fpmode selects, a NaN written as the quiet one. -/
def fadd32 (ftz : Bool) (x y : Nat) : Nat :=
  (fp32.round 0 ftz none ((fp32.decode ftz x).add false (fp32.decode ftz y)).1).1

/-- amo.fadd on 4 or 8 bytes. -/
def amoFaddOp (ftz : Bool) (n old y : Nat) : Nat :=
  if n = 4 then fadd32 ftz old y
  else fadd32 ftz (old % 2 ^ 32) (y % 2 ^ 32) + 2 ^ 32 * fadd32 ftz (old / 2 ^ 32) (y / 2 ^ 32)

/-- A core drops its L1 line and the victim copies that the pool holds of it (R164). -/
def dropCopies (c line : Nat) (s : State) : State :=
  let own := s.rankOf c
  let s := s.modCore c fun k => { k with l1 := k.l1.filter fun l => l.line ≠ line || l.victim.isSome }
  ((s.coreAt c).partners.filterMap (s.rankCore c)).foldl (fun s p => s.modCore p fun k => { k with
    l1 := k.l1.filter fun l => l.line ≠ line || l.victim ≠ some own }) s

/-- One amo (R164): `f n x old y` is the new memory value, of the low n bytes. Once it waits at the home slice it has been sent, and the
task goes nowhere before it is performed (R165). For the home die's region entry and migration count, the cove of a core of another die
counts as the cove of the same number on the home die (notes/assumptions/76.md). -/
def amo (f : Nat → Nat → Nat → Nat → Nat) (d a b : BitVec 5) (w : BitVec 1) (s : State) : Host.Outcome State Fault Refusal :=
  other (do
    let ea ← rg a
    let n := if w = 1 then 4 else 8
    let x := (← rg d).toNat % 256 ^ n
    let y := (← rg b).toNat % 256 ^ n
    check (bitOf ea 63) 0x1A ea
    check (ea.toNat % n ≠ 0) 0x1B ea
    check (!isVirtual ea) 0x11 ea
    let (pa, e) ← translate ea true
    check e.nc 0x1A ea
    drain
    let c ← curCore
    let home := if isHostPa pa then dieOf c else homeDie pa
    modify (dropCopies c (pa / 128))
    modify (·.begin 1)
    acquire home (coveOf c) c pa false e.sq true
    let s ← get
    let line := pa / 128 * 128
    check (s.poisonedBefore line 128) 0x19 ea
    check (s.uncorrectable line 128) 0x1E ea
    let old := natOfBytes (s.physGet home pa n e.sq)
    modify (physPut home none pa e.sq (bytesOfNat n (f n x old y % 256 ^ n)))
    wg d (if n = 4 then wordOfInt (sextNat old 32) else BitVec.ofNat 64 old)) s

/-- A signed comparison of n-byte numbers. -/
def sless (n x y : Nat) : Bool := sextNat x (8 * n) < sextNat y (8 * n)

/-- AMO_ADD (R164). The aq and rl bits order at scope sys, which one coherent memory gives (notes/assumptions/6.md). -/
def execAmoAdd (d a b : BitVec 5) (_ _ w : BitVec 1) (s : State) : Host.Outcome State Fault Refusal :=
  amo (fun _ _ old y => old + y) d a b w s
/-- AMO_MIN (R164). -/
def execAmoMin (d a b : BitVec 5) (_ _ w : BitVec 1) (s : State) : Host.Outcome State Fault Refusal :=
  amo (fun n _ old y => if sless n y old then y else old) d a b w s
/-- AMO_MAX (R164). -/
def execAmoMax (d a b : BitVec 5) (_ _ w : BitVec 1) (s : State) : Host.Outcome State Fault Refusal :=
  amo (fun n _ old y => if sless n old y then y else old) d a b w s
/-- AMO_MINZ (R164). -/
def execAmoMinz (d a b : BitVec 5) (_ _ w : BitVec 1) (s : State) : Host.Outcome State Fault Refusal :=
  amo (fun _ _ old y => min old y) d a b w s
/-- AMO_MAXZ (R164). -/
def execAmoMaxz (d a b : BitVec 5) (_ _ w : BitVec 1) (s : State) : Host.Outcome State Fault Refusal :=
  amo (fun _ _ old y => max old y) d a b w s
/-- AMO_AND (R164). -/
def execAmoAnd (d a b : BitVec 5) (_ _ w : BitVec 1) (s : State) : Host.Outcome State Fault Refusal :=
  amo (fun _ _ old y => old &&& y) d a b w s
/-- AMO_OR (R164). -/
def execAmoOr (d a b : BitVec 5) (_ _ w : BitVec 1) (s : State) : Host.Outcome State Fault Refusal :=
  amo (fun _ _ old y => old ||| y) d a b w s
/-- AMO_XOR (R164). -/
def execAmoXor (d a b : BitVec 5) (_ _ w : BitVec 1) (s : State) : Host.Outcome State Fault Refusal :=
  amo (fun _ _ old y => old ^^^ y) d a b w s
/-- AMO_SWAP (R164). -/
def execAmoSwap (d a b : BitVec 5) (_ _ w : BitVec 1) (s : State) : Host.Outcome State Fault Refusal :=
  amo (fun _ _ _ y => y) d a b w s
/-- AMO_CAS (R164): g[d] is the compare value. -/
def execAmoCas (d a b : BitVec 5) (_ _ w : BitVec 1) (s : State) : Host.Outcome State Fault Refusal :=
  amo (fun _ x old y => if old = x then y else old) d a b w s
/-- AMO_FADD (R164). -/
def execAmoFadd (d a b : BitVec 5) (_ _ w : BitVec 1) (s : State) : Host.Outcome State Fault Refusal :=
  amo (fun n _ old y => amoFaddOp (ftzOf (s.coreAt s.cur.core).fpmode) n old y) d a b w s

/-- The units of a die's L2 that lie in the line or the 64 KiB region of an address (R166). -/
def unitsAt (d pa : Nat) (sq rgn : Bool) (s : State) : List Nat :=
  if rgn then ((s.dieAt d).l2.map (·.1)).filter fun u => u / 512 == pa / 65536
  else if (s.l2Line d (unitOf pa sq)).isSome then [unitOf pa sq] else []

/-- A host line that is dirty can be written back only while the host link is up (R161). -/
def hostReady (d u : Nat) : M Unit := do
  let s ← get
  match s.l2Line d u with
  | some l => if isHostPa (u * 128) && l.state == .m && !s.host.linkUp then throw .stall
  | none => pure ()

/-- An L2C form on an address of the address space (R166): a local address has no effect. -/
def l2Control (ea : Word) (f : Nat → TlbEntry → M Unit) : M Unit := do
  if bitOf ea 63 then pure ()
  else
    check (!isVirtual ea) 0x11 ea
    let (pa, e) ← translate ea false
    f pa e

/-- L2FL (R166). -/
def execL2fl (a : BitVec 5) (r : BitVec 1) (s : State) : Host.Outcome State Fault Refusal :=
  other (do
    l2Control (← rg a) fun pa e => do
      modify (·.begin 1)
      drain
      let d := dieOf (← curCore)
      let us := unitsAt d pa e.sq (r = 1) (← get)
      each (hostReady d) us
      modify fun s => us.foldl (fun s u => flushLine d u s) s) s

/-- Is a write-back of a die on its way to its home, of the line or the region of an address (R166)? -/
def State.writingBack (s : State) (d pa : Nat) (sq rgn : Bool) : Bool :=
  s.coh.any fun m => m.src == d && (m.kind == .wb || m.kind == .ce) &&
    (if rgn then m.line / 512 == pa / 65536 else m.line == unitOf pa sq)

/-- L2INV (R166): written back, then invalidated; a tracked line waits for a transaction of it to end (R169). It completes when the
homes have taken its write-backs. -/
def execL2inv (a : BitVec 5) (r : BitVec 1) (s : State) : Host.Outcome State Fault Refusal :=
  other (do
    l2Control (← rg a) fun pa e => do
      modify (·.begin 1)
      drain
      let d := dieOf (← curCore)
      let s ← get
      if s.task.begunOf s.cur.a < 2 then
        let us := unitsAt d pa e.sq (r = 1) s
        each (hostReady d) us
        if !us.all fun u => isHostPa (u * 128) || (match s.l2Line d u with | some l => l.nc | none => true) || s.quiet u then
          throw .stall
        modify fun s => us.foldl (fun s u => evictLine d u s) s
        modify (·.begin 2)
      if (← get).writingBack d pa e.sq (r = 1) then throw .stall) s

/-- RGREL (R167). -/
def execRgrel (a : BitVec 5) (s : State) : Host.Outcome State Fault Refusal :=
  other (do
    l2Control (← rg a) fun pa _ => do
      let d := dieOf (← curCore)
      modify (releaseRegion d (pa / 65536))) s

/-- HOME (R167): a hint; the region's slice becomes the one nearest the named core of this die. It has no effect while the region
table is full. A region of host space gets its entry, and its lines stay (R160; notes/assumptions/73.md). -/
def execHome (a b : BitVec 5) (s : State) : Host.Outcome State Fault Refusal :=
  other (do
    let c := fieldOf (← rg b) 10 0
    l2Control (← rg a) fun pa _ => do
      let d := dieOf (← curCore)
      let r := pa / 65536
      let x := (← get).dieAt d
      if isCore c && dieOf c == d && x.region.length < 16384 then
        let slice := nearSlice (coveOf c)
        modify fun s => (moveRegion d r (fun _ => slice) s).modDie d fun x => { x with region := tabPut x.region r slice }) s

end Sys2Proof.Machine
end

