-- ==== Sys2Proof/Machine/Engine.lean ====
section
/-! DEFINITION. The memory accesses of engines and units (R126, R130, R154): where one lands, what it reads, its writes. A cause
that such an access meets is answered as its code, not raised. -/

namespace Sys2Proof.Machine

/-- The tag under which the accesses of a core's vector engine (0), copy engine (1), matrix unit (2) or stream (4 to 7) await a
walk. -/
def coreTag (core k : Nat) : Nat := 16 * core + k
/-- The tag of a die's unit: sort engine 0, reduce engine 1, scheduler 2. -/
def dieTag (d k : Nat) : Nat := 0x10000 + 16 * d + k
/-- The tag of an expert name. -/
def nameTag (n : Nat) : Nat := 0x20000 + n
/-- The tag of a launch queue of a partition. -/
def launchTag (p q : Nat) : Nat := 0x40000 + 64 * p + q

/-- The tag of an engine of a core of an absent block, by the block's number and the core's rank. -/
def savedTag (u rank k : Nat) : Nat := 0x1000000 + 16 * (8 * u + rank) + k
/-- Is a tag one of an absent block? -/
def isSavedTag (tag : Nat) : Bool := 0x1000000 ≤ tag

/-- Run a computation and answer the code of a precise cause it would raise. -/
def answering {α : Type} (m : M (Except Nat α)) : M (Except Nat α) :=
  tryCatch m fun e => match e with
    | .trap c => return .error c.code
    | e => throw e

/-- Where an access of an engine of a core lands: its scratchpad, or a translated address (R103, R122, R126). -/
def enginePlace (tag core asid : Nat) (priv : Bool) (ea : Word) (n : Nat) (write : Bool) : M (Except Nat Place) := do
  if bitOf ea 63 then
    if localBad (← coreM core) ea n then return .error 0x14 else return .ok (.spm (fieldOf ea 17 0))
  else if !isVirtual ea then return .error 0x11
  else
    match ← engineTranslate tag core asid priv ea write with
    | .error c => return .error c
    | .ok (pa, e) => return .ok (.phys pa e.nc e.sq)

/-- Read bytes of one line at a place, with whether any was poisoned. What HBM holds uncorrectable comes back poisoned when `marked`
(R198), and is 0x1E else (R433). -/
def engineReadAs (marked : Bool) (core n : Nat) (p : Place) : M (Except Nat (List Byte × Bool)) := answering do
  match p with
  | .spm off => let k ← coreM core; return .ok (cellsGet k.spm off n, k.spmBad off n)
  | .phys pa nc sq =>
    acquireOnce (dieOf core) (coveOf core) core pa nc sq false
    let s ← get
    if !marked && s.uncorrectable pa n then return .error 0x1E
    return .ok (s.physGet (dieOf core) pa n sq, s.poisoned pa n)

/-- Read bytes of one line at a place, with whether any was poisoned; 0x1E for what HBM holds uncorrectable. -/
def engineRead : Nat → Nat → Place → M (Except Nat (List Byte × Bool)) := engineReadAs false
/-- Read bytes with their poison; what HBM holds uncorrectable comes back poisoned (R198, R433). -/
def readMarked : Nat → Nat → Place → M (Except Nat (List Byte × Bool)) := engineReadAs true

/-- Write bytes of one line at a place; every write is performed at once. -/
def engineWrite (core : Nat) (p : Place) (bytes : List Byte) : M (Except Nat Unit) := answering do
  match p with
  | .spm off => modify (spmPut core off bytes); return .ok ()
  | .phys pa nc sq =>
    acquireOnce (dieOf core) (coveOf core) core pa nc sq true
    modify (physPut (dieOf core) none pa sq bytes)
    return .ok ()

/-- A unit that makes accesses of its own: the die whose L2 it reads, the tag under which its walks answer, the core whose cove
translates, its address space and view, and whether uncorrectable data raise no cause with it, but come back poisoned (R448). -/
structure UnitAgent where
  die : Nat
  tag : Nat
  core : Nat
  asid : Nat
  priv : Bool
  marked : Bool := false
  deriving DecidableEq, Repr

/-- The place of an access of a unit, which is in virtual space. -/
def UnitAgent.place (u : UnitAgent) (ea : Word) (write : Bool) : M (Except Nat (Nat × Bool × Bool)) := do
  if !isVirtual ea then return .error 0x11
  match ← engineTranslate u.tag u.core u.asid u.priv ea write with
  | .error c => return .error c
  | .ok (pa, e) => return .ok (pa, e.nc, e.sq)

/-- The bytes from an address to the end of its 32-byte sector. -/
def sectorLeft (ea : Word) : Nat := 32 - ea.toNat % 32

/-- Cut a range into pieces within aligned sectors, ascending. -/
def sectors (ea : Word) (n : Nat) : Nat → List (Word × Nat)
  | 0 => []
  | fuel + 1 =>
    if n = 0 then []
    else
      let k := min n (sectorLeft ea)
      (ea, k) :: sectors (ea + BitVec.ofNat 64 k) (n - k) fuel

/-- Read a range of an engine, sector by sector: the bytes and whether any was poisoned, or the cause and its address. -/
def readRange (marked : Bool) (tag core asid : Nat) (priv : Bool) : List (Word × Nat) → M (Except (Nat × Word) (List Byte × Bool))
  | [] => return .ok ([], false)
  | (ea, n) :: r => do
    match ← enginePlace tag core asid priv ea n false with
    | .error c => return .error (c, ea)
    | .ok p =>
      match ← engineReadAs marked core n p with
      | .error c => return .error (c, ea)
      | .ok (b, x) =>
        match ← readRange marked tag core asid priv r with
        | .error e => return .error e
        | .ok (b', x') => return .ok (b ++ b', x || x')

/-- Write a range of an engine, sector by sector. -/
def writeRange (tag core asid : Nat) (priv : Bool) : List (Word × Nat) → List Byte → M (Except (Nat × Word) Unit)
  | [], _ => return .ok ()
  | (ea, n) :: r, bytes => do
    match ← enginePlace tag core asid priv ea n true with
    | .error c => return .error (c, ea)
    | .ok p =>
      match ← engineWrite core p (bytes.take n) with
      | .error c => return .error (c, ea)
      | .ok () => writeRange tag core asid priv r (bytes.drop n)

/-- Read `n` bytes of an engine. -/
def engineLoad (tag core asid : Nat) (priv : Bool) (ea : Word) (n : Nat) : M (Except (Nat × Word) (List Byte × Bool)) :=
  readRange false tag core asid priv (sectors ea n (n / 32 + 2))
/-- Read `n` bytes of an engine; what HBM holds uncorrectable comes back poisoned. -/
def engineLoadMarked (tag core asid : Nat) (priv : Bool) (ea : Word) (n : Nat) : M (Except (Nat × Word) (List Byte × Bool)) :=
  readRange true tag core asid priv (sectors ea n (n / 32 + 2))
/-- Write bytes of an engine. -/
def engineStore (tag core asid : Nat) (priv : Bool) (ea : Word) (bytes : List Byte) : M (Except (Nat × Word) Unit) :=
  writeRange tag core asid priv (sectors ea bytes.length (bytes.length / 32 + 2)) bytes

/-- Poison the sectors of a written range (R433): a scratchpad word, or a 32-byte sector. -/
def poisonPlace (core : Nat) (p : Place) (n : Nat) (s : State) : State :=
  match p with
  | .spm off =>
    s.modCore core fun k => { k with
      spmPoison := (List.range ((off + n - 1) / 8 + 1 - off / 8)).foldl (fun l i => markPut l (off / 8 + i)) k.spmPoison }
  | .phys pa _ _ =>
    { s with poison := (List.range ((pa + n - 1) / 32 + 1 - pa / 32)).foldl (fun l i => markPut l (pa / 32 + i)) s.poison }

/-- Read pieces of a unit: the bytes, each with its poison; what HBM holds uncorrectable is 0x1E (R433), or poisoned for a unit that
marks it. -/
def UnitAgent.readPieces (u : UnitAgent) : List (Word × Nat) → M (Except (Nat × Word) (List (Byte × Bool)))
  | [] => return .ok []
  | (ea, n) :: r => do
    match ← u.place ea false with
    | .error c => return .error (c, ea)
    | .ok (pa, nc, sq) =>
      match ← answering (do acquireOnce u.die (coveOf u.core) u.core pa nc sq false; return .ok ()) with
      | .error c => return .error (c, ea)
      | .ok () =>
        let s ← get
        if !u.marked && s.uncorrectable pa n then return .error (0x1E, ea)
        let b := (s.physGet u.die pa n sq).map fun x => (x, s.poisoned pa n)
        match ← u.readPieces r with
        | .error e => return .error e
        | .ok bs => return .ok (b ++ bs)

/-- Write pieces of a unit in ascending order; a piece with a poisoned byte poisons its sector. -/
def UnitAgent.writePieces (u : UnitAgent) : List (Word × Nat) → List (Byte × Bool) → M (Except (Nat × Word) Unit)
  | [], _ => return .ok ()
  | (ea, n) :: r, bytes => do
    match ← u.place ea true with
    | .error c => return .error (c, ea)
    | .ok (pa, nc, sq) =>
      match ← answering (do acquireOnce u.die (coveOf u.core) u.core pa nc sq true; return .ok ()) with
      | .error c => return .error (c, ea)
      | .ok () =>
        let b := bytes.take n
        modify (physPut u.die none pa sq (b.map (·.1)))
        if b.any (·.2) then modify (poisonPlace u.core (.phys pa nc sq) n)
        u.writePieces r (bytes.drop n)

/-- Read `n` bytes of a unit. -/
def UnitAgent.read (u : UnitAgent) (ea : Word) (n : Nat) : M (Except (Nat × Word) (List (Byte × Bool))) :=
  u.readPieces (sectors ea n (n / 32 + 2))
/-- Write bytes of a unit. -/
def UnitAgent.write (u : UnitAgent) (ea : Word) (b : List (Byte × Bool)) : M (Except (Nat × Word) Unit) :=
  u.writePieces (sectors ea b.length (b.length / 32 + 2)) b

/-- Bytes without poison. -/
def clean (l : List Byte) : List (Byte × Bool) := l.map fun b => (b, false)

/-- The first cove of a partition: its units translate there. -/
def State.firstCove (s : State) (p : Nat) : Option Nat :=
  (List.range 128).find? fun v => bitOf (nth (s.partAt p).pmap (v / 32) 0) (v % 32)

end Sys2Proof.Machine
end

