-- ==== Sys2Proof/Machine/Health.lean ====
section
/-! DEFINITION. Error counts and the replacement request (R427, R433, R435). -/

namespace Sys2Proof.Machine

/-- The error counts of a die's hour: hce, sce, soft, rtr, hue, perr (R427). -/
def ehMax (i : Nat) : Nat := if i < 2 then 65535 else 255

/-- Report a cause that concerns the package to the root partition (notes/assumptions/17.md). -/
def reportRoot (die : Nat) (c : Cause) (s : State) : State := report 0 die 0 c 0 0 s

/-- Raise replacement reasons whose bit is clear (R435): the bits, 0x5F, MSI-X vector 0. -/
def raiseReason (bit : Nat) (s : State) : State :=
  if s.host.repl.getLsbD bit then s
  else
    let r := s.host.repl ||| BitVec.ofNat 8 (2 ^ bit)
    reportRoot 0 { code := 0x5F, kind := .r, detail := r.setWidth 64 }
      { s with host := { s.host with repl := r, msix0 := s.host.msix0 + 1 } }

/-- The threshold of a reason 0 to 4: hce, hue, sce, soft, rtr (R435). -/
def thresholdOf (thr : Word) (bit : Nat) : Nat :=
  match bit with
  | 0 => fieldOf thr 15 0
  | 1 => fieldOf thr 55 48
  | 2 => fieldOf thr 31 16
  | 3 => fieldOf thr 39 32
  | _ => fieldOf thr 47 40

/-- The reason that a count of the hour bears on; the protocol errors bear on none. -/
def reasonOf (i : Nat) : Option Nat :=
  match i with
  | 0 => some 0 | 1 => some 2 | 2 => some 3 | 3 => some 4 | 4 => some 1
  | _ => none

/-- 3.6 × 10^12 ns: an hour (R427). -/
def hourNs : Nat := 3600000000000

/-- The counts of an hour, all zero. -/
def noErrors : List Nat := [0, 0, 0, 0, 0, 0]

/-- A new hour starts: the counts of every die return to zero (R427). -/
def startHour (hour : Nat) (s : State) : State :=
  (List.range 4).foldl (fun s d => s.modDie d fun x => { x with eh := noErrors }) { s with host := { s.host with hour := hour } }

/-- The hour to which an error at this time belongs has started (R427); one at a boundary belongs to the hour that ends (R438). -/
def State.inHour (s : State) : State := if s.host.hour < (s.now - 1) / hourNs then startHour ((s.now - 1) / hourNs) s else s

/-- Count an error of a die: this hour and in total, saturating (R427), and raise its reason at the threshold (R435). -/
def countError (d i : Nat) (s : State) : State :=
  let s := s.inHour
  let s := s.modDie d fun x =>
    let et (k m : Nat) (x : Die) : Die := { x with et := x.et.set k (min (nth x.et k 0 + 1) m) }
    let x := { x with eh := x.eh.set i (min (nth x.eh i 0 + 1) (ehMax i)) }
    match i with
    | 0 => et 0 (2 ^ 32 - 1) x
    | 4 => et 1 65535 x
    | 2 => et 2 65535 x
    | _ => x
  match reasonOf i with
  | some b => if nth (s.dieAt d).eh i 0 ≥ thresholdOf s.host.thr b then raiseReason b s else s
  | none => s

/-- A write of mg.thr: a reason whose condition first holds under the new thresholds is raised (R435). -/
def newReasons (old : Word) (s : State) : State :=
  let holds (thr : Word) (d i b : Nat) : Bool := nth (s.dieAt d).eh i 0 ≥ thresholdOf thr b
  (List.range 4).foldl (fun s d => (List.range 6).foldl (fun s i => match reasonOf i with
    | some b => if holds s.host.thr d i b && !holds old d i b then raiseReason b s else s
    | none => s) s) s.inHour

/-- Does the condition of R436 hold: power above the cap (0 means 3,200 W), or the temperature at its limit? -/
def HostUnit.hot (h : HostUnit) : Bool := h.power > (if h.cap = 0 then 3200 else h.cap) || h.temp ≥ h.tlim

/-- Note the time at which the condition of R436 was last seen to hold. -/
def HostUnit.noteHeat (h : HostUnit) (now : Nat) : HostUnit := if h.hot then { h with hotAt := now } else h

/-- Write bytes into the attestation buffers. -/
def putBytes (t : Tab Byte) (at_ : Nat) : List Byte → Tab Byte
  | [] => t
  | b :: r => putBytes (tabPut t at_ b) (at_ + 1) r

end Sys2Proof.Machine
end

