-- ==== Sys2Proof/Machine/Tasks.lean ====
section
/-! DEFINITION. Tasks and issue (spec/05): starting a task, resuming a parked one, the TASK instructions (major 0x19) and the
events of the core's own scheduler. -/

namespace Sys2Proof.Machine

/-- The 64 bytes of a task record (R81). -/
def TaskRecord.bytes (r : TaskRecord) : List Byte :=
  bytesOfNat 8 ((r.entry &&& 0x00FFFFFFFFFFFFFC#64).toNat + (if r.urg then 2 ^ 56 else 0) + r.src * 2 ^ 57 + r.jhome * 2 ^ 60)
    ++ bytesOfNat 8 (r.crew + r.argc * 2 ^ 12 + r.ctab.toNat * 2 ^ 16)
    ++ ((r.args ++ List.replicate 6 0).take 6).flatMap bytesOf

/-- The lowest free stack slice of a core (R82). -/
def Core.freeSlice (k : Core) : Nat := ((List.range 10).find? fun i => !(k.tasks.any (·.slice == i))).getD 0

/-- The registers of a starting task (R34), or those of a shipped context (R132). -/
def Job.registers (j : Job) (addr : Word) : Vector Word 32 :=
  let g : Vector Word 32 := match j.shipped with
    | some x => x.g
    | none =>
      let a := pad8 (j.record.args.take j.record.argc ++ j.more)
      Vector.ofFn fun (i : Fin 32) => if 1 ≤ i.val ∧ i.val ≤ 8 then nth a (i.val - 1) 0 else 0
  (g.set 29 addr).set 30 addr

/-- Start a task from a job in a free bank (R34, R82, R83, R132): its slice, its record, its registers; the message it came from
is freed and its grant kept. No instruction transferred to its entry: where that is a bad target (R29), its record's address is the
entry itself (notes/assumptions/63.md). -/
def startJob (c : Nat) (urg : Bool) (j : Job) (s : State) : State :=
  let k := s.coreAt c
  let (top, size) := s.stackGeometry c
  let slice := k.freeSlice
  let off := top - slice * size - 64
  let addr : Word := BitVec.ofNat 64 (2 ^ 63 + off)
  let record := match j.shipped with
    | some _ => { j.record with
        crew := (match s.blockOf c with | some b => b.crew | none => 0), jhome := slotOf c,
        ctab := BitVec.ofNat 10 (s.tableAt c / 256) }
    | none => j.record
  let entry := match j.message with | some i => k.inbox.find? (·.id == i) | none => none
  let t : Task := {
    status := .running
    tid := match j.shipped with | some x => x.tid | none => s.nextTid
    job := { j with record := record }
    slice := slice
    priv := isPilot c || (match s.blockOf c with | some b => b.priv | none => false)
    pc := match j.shipped with | some x => x.pc | none => record.entry
    g := j.registers addr
    lc := match j.shipped with | some x => x.lc | none => 0
    ls := match j.shipped with | some x => x.ls | none => 0
    le := match j.shipped with | some x => x.le | none => 0
    pending := match j.shipped with | some x => x.pending | none => []
    mhead := match entry with | some e => e.h0 ||| 0x8000000000000000#64 | none => 0
    grant := match entry with | some e => if bitOf e.h0 52 then some (nth e.payload 6 0, nth e.payload 7 0) else none | none => none }
  let s := spmPut c off record.bytes { s with nextTid := s.nextTid + 1 }
  let s := s.modCore c fun k => k.enterBank urg t
  match entry with | some e => freeEntry c e s | none => s

/-- Write a register of a task that stands in a park slot. -/
def Task.putG (t : Task) (i : Nat) (v : Word) : Task := if h : i < 32 then (if i = 0 then t else { t with g := t.g.set i v h }) else t

/-- A memory park whose cause has not cleared (R138). -/
def Core.memoryParks (k : Core) : Nat :=
  let held (t : Task) : Nat := if t.status == .held && t.heldFor.any fun w => w.memory && !w.cleared then 1 else 0
  (k.parks.filter fun x => x.2.causes.any fun w => w.memory && !w.cleared).length + held k.b0 + held k.b1

/-- The cores of a block: its own, or those saved while it is absent. -/
def State.blockCores (s : State) (b : Block) : List Core := if b.absent then b.saved else b.cores.map s.coreAt

/-- The memory parks of a block. -/
def State.blockParks (s : State) (b : Block) : Nat := (s.blockCores b).foldl (fun n k => n + k.memoryParks) 0

/-- Does the count trigger hold for a block (R138)? -/
def State.countTrigger (s : State) (b : Block) : Bool :=
  let n := fieldOf (s.partAt b.part).ebbCount 3 0
  n ≠ 0 && s.blockParks b ≥ n

/-- The vector registers come back with a task that leaves its park slot (R85): those of a normal task once it runs, and those of a
pre-empted one are set aside while an urgent one has its own (R87; notes/assumptions/35.md). -/
def Core.vectorsBack (k : Core) (urg : Bool) (x : Vectors) : Core :=
  if !urg && k.urgentRuns then { k with aside := some x }
  else
    let k := if urg && k.b0.status == .preempted && k.aside.isNone then { k with aside := some (k.vectorsOf true) } else k
    { k with v := x.v, vPoison := x.vPoison, m := x.m }

/-- A task leaves its park slot for a bank (R85, R86): its vector and mask registers come back; a doze ends with its result
(R298), and 0x4E is raised on a timeout with .t. -/
def resumeParked (c slot : Nat) (s : State) : State :=
  match tabFind (s.coreAt c).parks slot with
  | none => s
  | some p =>
    let urg := p.task.job.record.urg
    let t := p.task.resumed
    let result := p.task.doze.bind fun z => z.result.map fun r => (z, r)
    let (t, timeout) := match result with
      | none => (t, false)
      | some (z, r) =>
        if r = 4 && z.trap then (t, true)
        else ({ (t.putG z.dest (BitVec.ofNat 64 r)) with watch := none }, false)
    let t := if result.isSome && !timeout then { (t.advance 4) with stepping := t.stepping } else t
    let s := s.modCore c fun k =>
      let k := (k.vectorsBack urg { v := p.v, vPoison := p.vPoison, m := p.m }).enterBank urg t
      ({ k with parks := tabDel k.parks slot }).settleHeld s.now
    if timeout then takeTrap c urg { code := 0x4E, kind := .p } s
    else if result.isSome && t.stepping then
      takeTrap c urg { code := 0x0D, kind := .n } (s.modCore c fun k => k.setBank urg { k.bank urg with stepping := false })
    else s

/-- The parked tasks of a level whose causes have cleared, that stand behind nothing: the first to resume (R86, R137). A resume
restores the vector registers, so it waits for the accepted vector commands (R190; notes/assumptions/18.md). -/
def Core.firstReady (k : Core) (urg : Bool) : Option Nat :=
  let l := if !k.vq.isEmpty then [] else k.parks.filter fun x => x.2.task.job.record.urg == urg && x.2.ready && x.2.behindRun == 0 && x.2.behindDeque == 0
  (l.foldl (fun best x => match best with
    | none => some x
    | some (b : Nat × Parked) =>
      if x.2.clearedAt < b.2.clearedAt || (x.2.clearedAt == b.2.clearedAt && x.2.order < b.2.order) then some x else some b)
    none).map (·.1)

/-- A record of a level's run queue has started: those that yielded behind it move up (R97). -/
def Core.passRun (k : Core) (urg : Bool) : Core :=
  { k with parks := k.parks.map fun x =>
      if x.2.task.job.record.urg == urg then (x.1, { x.2 with behindRun := x.2.behindRun - 1 }) else x }

/-- An entry has left a deque: it has room, so a spawn or fork that parked on it has its cause cleared (R93). -/
def Core.passDeque (k : Core) (top : Bool) (now : Nat) : Core :=
  { k with parks := k.parks.map fun x =>
      let p := x.2.clear now fun w => w.why == .deque
      (x.1, { p with behindDeque := min (p.behindDeque - (if top then 1 else 0)) k.deque.length }) }

/-- Start the bottom entry of a core's own deque. -/
def startBottom (c : Nat) (s : State) : State :=
  match (s.coreAt c).deque.reverse with
  | [] => s
  | j :: r => startJob c false j (s.modCore c fun k => ({ k with deque := r.reverse }).passDeque false s.turns)

/-- The core of the same block whose deque a free core steals from, round-robin from the next slot above its own (R94). -/
def State.victim (s : State) (c : Nat) : Option Nat :=
  match s.blockOf c with
  | none => none
  | some b => (((List.range 7).map fun i => coveOf c * 16 + (slotOf c + 1 + i) % 8).filter b.cores.contains).find?
      fun v => !(s.coreAt v).deque.isEmpty

/-- Bank 0 starts the first available work of R86; none if there is none. -/
def startNormal (c : Nat) (s : State) : Option State :=
  let k := s.coreAt c
  match k.firstReady false with
  | some i => some (resumeParked c i s)
  | none =>
    match k.runN with
    | j :: r => some (pumpInbox c (startJob c false j (s.modCore c fun k => ({ k with runN := r }).passRun false)))
    | [] =>
      if !k.deque.isEmpty then some (startBottom c s)
      else
        match s.victim c with
        | none => none
        | some v =>
          match (s.coreAt v).deque with
          | [] => none
          | j :: r => some (startJob c false j (s.modCore v fun k => ({ k with deque := r }).passDeque true s.turns))

/-- Is normal work pre-empted or ready on a core (R87)? -/
def Core.normalWaits (k : Core) : Bool :=
  k.b0.status == .preempted || !k.runN.isEmpty || !k.deque.isEmpty || (k.firstReady false).isSome

/-- Bank 1 starts urgent work of R86, counted under R87; the records that wait for the queue take its room. -/
def startUrgent (c : Nat) (s : State) : Option State :=
  let k := s.coreAt c
  let count (s : State) : State :=
    if k.normalWaits then s.modCore c fun k => { k with streak := k.streak + 1 } else s
  if k.streak ≥ 32 then none
  else
    match k.firstReady true with
    | some i => some (count (resumeParked c i s))
    | none =>
      match k.runU with
      | j :: r => some (pumpInbox c (count (startJob c true j (s.modCore c fun k => ({ k with runU := r }).passRun true))))
      | [] => none

/-- Is the normal task that would resume before the urgent one: its cause cleared first, or it parked first (R137)? -/
def Core.normalFirst (k : Core) : Bool :=
  match (k.firstReady false).bind (tabFind k.parks ·), (k.firstReady true).bind (tabFind k.parks ·) with
  | some n, some u => n.clearedAt < u.clearedAt || (n.clearedAt == u.clearedAt && n.order < u.order)
  | _, _ => false

/-- TASK_START (R86): a held task that can park does so; a free bank starts the first available work, urgent work first but for the
order of R137; a pre-empted task continues once no urgent task runs (R102). -/
def execTaskStart (core : Nat) (s : State) : Host.Outcome State Fault Refusal :=
  event (do
    enabled (isCore core && s.coreGoes core)
    let k := s.coreAt core
    let settles (t : Task) : Bool := t.status == .held && k.freeSlot.isSome && k.vectorDone t.tid
    if settles k.b0 || settles k.b1 then modify fun s => s.modCore core (·.settleHeld s.now)
    else
      let urgent := if k.b1.status == .empty && k.b0.status ≠ .running && !(k.b0.status == .empty && k.normalFirst) then
          startUrgent core s
        else none
      match urgent with
      | some t => set t
      | none =>
        if k.mayContinue then set (s.modCore core (·.continueNormal))
        else
          enabled (k.b0.status == .empty)
          set (← orNo (startNormal core s))) s

/-- URGENT_PREEMPT (R87): urgent work stops the normal task at its boundary, unless its sheltered window is open (R89); an instruction
that waits once issued completes first (R16, R165). -/
def execUrgentPreempt (core : Nat) (s : State) : Host.Outcome State Fault Refusal :=
  event (do
    let k := s.coreAt core
    enabled (isCore core && s.coreGoes core && k.b0.status == .running && !k.b0.begins && k.b1.status == .empty &&
      k.b0.lee == 0)
    set (← orNo (startUrgent core (s.modCore core fun k => { k with b0 := { k.b0 with status := .preempted } })))) s

/-- URGENT_HOLD_EXPIRY (R87): 8,192 cycles after urgent starts were held back, the count returns to zero. Normal work that has been
passed over has started by then (R90). -/
def execUrgentHoldExpiry (core : Nat) (s : State) : Host.Outcome State Fault Refusal :=
  event (do
    let k := s.coreAt core
    enabled (k.streak == 32 && k.b0.status ≠ .preempted && !(k.b0.status == .empty && k.normalWaits))
    modify fun s => s.modCore core fun k => { k with streak := 0 }) s

/-- LEE_WINDOW_EXPIRY (R89): 512 cycles close the window of the task in bank 0. -/
def execLeeWindowExpiry (core : Nat) (s : State) : Host.Outcome State Fault Refusal :=
  event (do
    enabled ((s.coreAt core).b0.lee ≠ 0)
    modify fun s => s.modCore core fun k => { k with b0 := { k.b0 with lee := 0 } }) s

/-- Park the running task of the current core for a cause that raises nothing. -/
def parkNow (why : ParkCause) : M Unit := modify fun s => s.parkTask s.cur.core s.urgent why

/-- Push a job onto the core's own deque (R93): on a full deque the task parks, and the core starts the bottom entry, which makes room
and so clears the cause; where an urgent task leaves a normal one to continue, the cause clears once an entry leaves. With no park
slot free it waits. Answers whether it pushed. -/
def pushDeque (j : Job) : M Bool := do
  let k ← cc
  if k.deque.length < 16 then
    modCC fun k => { k with deque := k.deque ++ [j] }
    return true
  else if k.freeSlot.isSome then
    waitUntil (k.vectorDone (← taskM).tid)
    let c ← curCore
    parkNow { why := .deque }
    if (← cc).b0.status == .empty then modify (startBottom c)
    return false
  else throw .stall

/-- The crew of the current core's block. -/
def crewM : M Nat := do
  let s ← get
  return match s.blockOf s.cur.core with | some b => b.crew | none => 0

/-- SPAWN (R93). -/
def execSpawn (a : BitVec 5) (s : State) : Host.Outcome State Fault Refusal :=
  issue .other 4 (do
    drain
    let ea ← rg a
    check (ea.toNat % 64 ≠ 0) 0x10 ea
    let w ← loadWords ea 8
    let w0 := nth w 0 0
    let w1 := nth w 1 0
    let argc := fieldOf w1 15 12
    check (bitOf w0 56 || argc > 6 || fieldOf w0 1 0 ≠ 0 || bitOf w0 63 || fieldOf w1 63 26 ≠ 0) 0x01
    let own := (← taskM).job.record
    let j : Job := { record := {
      entry := w0 &&& 0x00FFFFFFFFFFFFFC#64, src := 2, jhome := own.jhome, crew := ← crewM, argc := argc, ctab := own.ctab
      args := w.drop 2 } }
    if (← pushDeque j) then return .seq else return .gone) s

/-- The join counter of R95: the core that holds it and its offset, which the unprivileged view finds outside that core's capability
table (R236). -/
def joinCounter (ea : Word) : M (Nat × Nat) := do
  check (!bitOf ea 63 || ea.toNat % 8 ≠ 0) 0x10 ea
  let home := coveOf (← curCore) * 16 + (← taskM).job.record.jhome
  let off := fieldOf ea 17 0
  check (off + 8 > (← coreM home).spmSize) 0x14 ea
  let t := (← get).tableAt home
  check (!(← taskM).priv && off < t + 256 && t < off + 8) 0x21 ea
  return (home, off)

/-- FORK (R95): the counter advances once, then the arm is pushed. -/
def execFork (a : BitVec 5) (o : BitVec 16) (s : State) : Host.Outcome State Fault Refusal :=
  issue .other 4 (do
    drain
    let ea ← rg a
    let (home, off) ← joinCounter ea
    let t ← taskM
    if !t.forked then
      let v := wordOfList (cellsGet (← coreM home).spm off 8)
      modify (spmPut home off (bytesOf (v + 1)))
      modTaskM fun t => { t with forked := true }
    let p ← pcM
    let j : Job := { record := { t.job.record with
      entry := targetOf p o &&& 0x00FFFFFFFFFFFFFC#64, urg := false, src := 3, crew := ← crewM, argc := 6
      args := (List.range 6).map fun i => t.g.toList.getD (i + 1) 0 } }
    if (← pushDeque j) then
      modTaskM fun t => { t with forked := false }
      return .seq
    else return .gone) s

/-- The running task ends (R96): the out streams it bound store what was pushed first. -/
def endNow : M Unit := do
  waitUntil ((← taskM).streams.all fun x => x.2.inward || x.2.queue.isEmpty || x.2.fault)
  modify fun s => s.endTask s.cur.core s.urgent

/-- JOIN (R95): the arrival that brings the counter to zero goes on at the target; others end. A target outside the body of a loop ends
the loop, as R68 has it for a jump (notes/assumptions/66.md). -/
def execJoin (a : BitVec 5) (o : BitVec 16) (s : State) : Host.Outcome State Fault Refusal :=
  issue .other 4 (do
    drain
    let ea ← rg a
    let (home, off) ← joinCounter ea
    let v := wordOfList (cellsGet (← coreM home).spm off 8)
    check (v = 0) 0x22 ea
    let last := v = 1
    if !last then endNow
    modify (spmPut home off (bytesOf (v - 1)))
    if last then
      let p ← pcM
      return .jump (targetOf p o)
    else return .gone) s

/-- DONE (R96). -/
def execDone (s : State) : Host.Outcome State Fault Refusal :=
  issue .other 4 (do drain; endNow; return .gone) s

/-- Is another task of the level ready: in a run queue, the deque, or parked with its causes cleared (R97)? -/
def Core.otherReady (k : Core) (urg : Bool) : Bool :=
  (if urg then !k.runU.isEmpty else !k.runN.isEmpty || !k.deque.isEmpty) ||
    k.parks.any fun x => x.2.task.job.record.urg == urg && x.2.ready

/-- YIELD (R97): the task parks with its cause cleared, behind every ready task of its level; or nothing. -/
def execYield (s : State) : Host.Outcome State Fault Refusal :=
  issue .other 4 (do
    drain
    let k ← cc
    let s ← get
    let urg := s.urgent
    let t := s.task
    if k.freeSlot.isSome && k.otherReady urg then
      waitUntil (k.vectorDone t.tid)
      let c := s.cur.core
      let slot := (k.freeSlot).getD 0
      modify (complete .other 4 .seq)
      if ((← cc).bank urg).status == .running && ((← cc).bank urg).tid == t.tid then
        parkNow { why := .yield, cleared := true, clearedAt := (← get).turns }
        modify fun s => s.modCore c fun k => { k with parks := k.parks.map fun x =>
          if x.1 = slot then (x.1, { x.2 with
            behindRun := if urg then k.runU.length else k.runN.length
            behindDeque := if urg then 0 else k.deque.length }) else x }
      return .gone
    else return .seq) s

/-- LEE (R89): a sheltered window of n further instructions; within a window or for an urgent task it only counts. -/
def execLee (n : BitVec 6) (s : State) : Host.Outcome State Fault Refusal :=
  issue .other 4 (do
    let t ← taskM
    if t.lee = 0 && !(← get).urgent then modTaskM fun t => { t with lee := n.toNat + 1 }
    return .seq) s

/-- The actor entry of a descriptor (R98). -/
def actorOf (w : List Word) : Actor :=
  let w0 := nth w 0 0
  let half (x : Word) (i : Nat) : Nat := fieldOf x (16 * i + 15) (16 * i)
  { entry := w0 &&& 0x00FFFFFFFFFFFFFC#64, urg := bitOf w0 56
    ins := (List.range 4).map fun i =>
      let h := half (nth w 1 0) i
      if h / 32768 = 1 then some (h % 256, h / 256 % 32 + 1) else none
    outs := (List.range 4).map fun i =>
      let h := half (nth w 2 0) i
      if h / 32768 = 1 then some (h % 16, h / 16 % 32 + 1) else none
    args := w.drop 3 }

/-- Is a firing of an actor entry live: its task has started and not ended (R99)? -/
def Core.firingLive (k : Core) (e : Nat) : Bool := k.tasks.any fun t => match t.job.actor with | some (a, _) => a == e | none => false
/-- Is a firing of an actor entry ready: its record stands in a run queue (R99)? -/
def Core.firingReady (k : Core) (e : Nat) : Bool :=
  (k.runN ++ k.runU).any fun j => match j.actor with | some (a, _) => a == e | none => false

/-- AREG (R98, R99): register or clear actor entry k; on an entry whose firing is live it takes effect when the firing ends. -/
def execAreg (a : BitVec 5) (k : BitVec 3) (s : State) : Host.Outcome State Fault Refusal :=
  issue .other 4 (do
    drain
    let e := k.toNat
    let new : Option Actor ← (do
      if a = 0 then return none
      let ea ← rg a
      check (ea.toNat % 64 ≠ 0) 0x10 ea
      let w ← loadWords ea 8
      let w0 := nth w 0 0
      let bad (x : Word) (hi lo : Nat) : Bool := (List.range 4).any fun i => fieldOf x (16 * i + hi) (16 * i + lo) ≠ 0
      check (fieldOf w0 63 57 ≠ 0 || fieldOf w0 1 0 ≠ 0 || bad (nth w 1 0) 14 13 || bad (nth w 2 0) 14 9) 0x01
      check ((actorOf w).ins.all (·.isNone)) 0x01
      return some (actorOf w))
    if (← cc).firingLive e then modCC fun k => { k with aregNext := tabPut k.aregNext e new }
    else
      let now := (← get).turns
      modCC fun k =>
        let k := k.dropCounted e
        ({ k with actors := match new with | some x => tabPut k.actors e x | none => tabDel k.actors e }).wakeReady now
      modify fun s => pumpInbox s.cur.core s
    return .seq) s

/-- The oldest messages of a list that count for `n` (R99, R334). -/
def takeWeight : Nat → List InboxEntry → List Nat
  | _, [] => []
  | n, x :: r => if n = 0 then [] else x.id :: takeWeight (n - x.weight) r

/-- The oldest messages counted for an input of an actor (R99). -/
def Core.countedFor (k : Core) (e i n : Nat) : List Nat :=
  takeWeight n (k.inbox.filter fun x => x.forActor == some (e, i) && !x.claimed)

/-- May an actor fire (R99)? -/
def State.canFire (s : State) (c e : Nat) (x : Actor) : Bool :=
  let k := s.coreAt c
  !k.firingReady e && !k.firingLive e &&
  ((List.range 4).all fun i => match nth x.ins i none with | some (_, r) => nth x.counts i 0 ≥ r | none => true) &&
  (x.outs.all fun o => match o with
    | some (j, r) => s.sendable c j && fieldOf (s.cap0 c j) 18 12 - fieldOf (s.cap0 c j) 25 19 ≥ r
    | none => true) &&
  (if x.urg then k.runU.length < 8 else k.runN.length < 24)

/-- ACTOR_FIRE (R99): the first entry that may fire puts its record into the run queue. -/
def execActorFire (core : Nat) (s : State) : Host.Outcome State Fault Refusal :=
  event (do
    enabled (isWork core)
    let k := s.coreAt core
    let (e, x) ← orNo (k.actors.find? fun x => s.canFire core x.1 x.2)
    let ids := (List.range 4).flatMap fun i => match nth x.ins i none with | some (_, r) => k.countedFor e i r | none => []
    let b ← orNo (s.blockOf core)
    let j : Job := {
      actor := some (e, ids)
      record := { entry := x.entry, urg := x.urg, src := 4, jhome := slotOf core, crew := b.crew, argc := 6
                  ctab := BitVec.ofNat 10 (b.table / 256), args := x.args ++ [BitVec.ofNat 64 x.firing] } }
    let counts := (List.range 4).map fun i => match nth x.ins i none with | some (_, r) => nth x.counts i 0 - r | none => nth x.counts i 0
    modify fun s => s.modCore core fun k => { k with
      actors := tabPut k.actors e { x with counts := counts, firing := x.firing + 1 }
      inbox := k.inbox.map fun (y : InboxEntry) => if ids.contains y.id then { y with claimed := true } else y
      runN := if x.urg then k.runN else k.runN ++ [j]
      runU := if x.urg then k.runU ++ [j] else k.runU }) s

/-- SHIP_CONTEXT_ARRIVAL (R132): the first shipped context for the core enters the run queue of its level. -/
def execShipContextArrival (core : Nat) (s : State) : Host.Outcome State Fault Refusal :=
  event (do
    let x ← orNo (s.ships.find? (·.1 == core))
    let k := s.coreAt core
    let urg := x.2.record.urg
    enabled (if urg then k.runU.length < 8 else k.runN.length < 24)
    set { s with ships := s.ships.erase x }
    modify fun s => s.modCore core fun k =>
      if urg then { k with runU := k.runU ++ [x.2] } else { k with runN := k.runN ++ [x.2] }) s

end Sys2Proof.Machine
end

