-- ==== Sys2Proof/Machine/Message.lean ====
section
/-! DEFINITION. Messages, posted stores and capabilities (spec/13, majors 0x24 and 0x25). -/

namespace Sys2Proof.Machine

/-- Word 0 of entry j of the current core's table. -/
def capM (j : Nat) : M Word := do return (← get).cap0 (← curCore) j
/-- The kind of an entry (R237). -/
def capKind (w : Word) : Nat := fieldOf w 3 0
/-- A right of an entry, by its bit: S 4, U 5, O 6, P 7, N 8, G 9, D 10, L 11. -/
def capRight (w : Word) (bit : Nat) : Bool := bitOf w bit
/-- The allowance. -/
def capAllow (w : Word) : Nat := fieldOf w 18 12
/-- The sends not yet credited. -/
def capUsed (w : Word) : Nat := fieldOf w 25 19
/-- The endpoint. -/
def capEp (w : Word) : BitVec 29 := BitVec.ofNat 29 (fieldOf w 60 32)
/-- The route class. -/
def capClass (w : Word) : Nat := fieldOf w 63 61
/-- The base of a window in bytes (R238). -/
def winBase (w1 : Word) : Nat := fieldOf w1 11 0 * 64
/-- The length of a window in bytes. -/
def winLen (w1 : Word) : Nat := (fieldOf w1 23 12 + 1) * 64

/-- The causes of another device that cannot be reached: 0x47 without a route, 0x26 while it is down (R286, R249). -/
def reachable (e : BitVec 29) : M Unit := do
  let s ← get
  if epDevice e ≠ s.device then
    check (s.noRoute (epDevice e)) 0x47
    check (s.deviceDown (epDevice e)) 0x26

/-- The part of another device in the waiting of an ordered packet: sent − acknowledged within 32,767 on every path (R288). -/
def State.orderedRoom (s : State) (dev : Nat) : Bool :=
  let p := s.peerAt dev
  (List.range 4).all fun k => (nth p.sent k 0 + 65536 - nth p.acked k 0) % 65536 ≤ 32767

/-- Wait under entries: what waits is kept, so that a revocation ends the wait with 0x2C (R249, R259). -/
def sendWaits {α : Type} (entries : List Nat) : M α := do
  let p ← pcM
  modTaskM fun t => { t with sendWait := some (p, entries, false) }
  throw .stall

/-- An instruction that waited under an entry that was revoked meanwhile raises 0x2C (R249, R259). -/
def sendRevoked : M Unit := do
  let t ← taskM
  let p ← pcM
  modTaskM fun t => { t with sendWait := none }
  match t.sendWait with
  | some (q, _, true) => check (q = p) 0x2C
  | _ => pure ()

/-- SEND, SENDN and SENDO (R249): `ordered` for sendo, `now` the destination of sendn, `grant` the register of .g. A message leaves
after the reads of the commands that the core's engines accepted before it, so that it may return a buffer (R315). -/
def sendOp (a : BitVec 5) (c : BitVec 4) (urg : Bool) (k : BitVec 4) (ordered : Bool) (now : Option (BitVec 5))
    (grant : Option (BitVec 5)) : M Ctl := do
  sendRevoked
  let core ← curCore
  let e ← capM c.toNat
  check (capKind e ≠ 1) 0x20
  check ((← cc).revoking.contains c.toNat) 0x2C
  check (!capRight e 4 || (urg && !capRight e 5) || (ordered && !capRight e 6)) 0x21
  reachable (capEp e)
  let ea ← rg a
  check (k ≠ 0 && ea.toNat % 8 ≠ 0) 0x10 ea
  let pl ← loadWords ea k.toNat
  let j ← (match grant with | some b => do let w ← rg b; return fieldOf w 3 0 | none => return 0)
  let h ← capM j
  let h1 := (← get).cap1 core j
  if grant.isSome then
    check (capKind h = 0) 0x20
    check ((← cc).revoking.contains j) 0x2C
    check (!capRight h 10 || j = c.toNat) 0x21
  drain
  if (← cc).engineReads then sendWaits (c.toNat :: (if grant.isSome then [j] else []))
  let s ← get
  let dev := epDevice (capEp e)
  let waits := capUsed e = capAllow e || (grant.isSome && capUsed h ≠ 0) ||
    (ordered && dev ≠ s.device && !s.orderedRoom dev)
  if waits then
    match now with
    | some d => wg d 1; return .seq
    | none => sendWaits (c.toNat :: (if grant.isSome then [j] else []))
  let time ← readClock
  let e' := bumpField e 25 19 1
  modify fun s => s.setCap core c.toNat e' (s.cap1 core c.toNat)
  let pl := pad8 pl
  let pl := if grant.isSome then (pl.set 6 (h &&& ~~~0x7C000000#64)).set 7 h1 else pl
  if grant.isSome then modify fun s => s.setCap core j 0 0
  let s ← get
  let src := s.endpointOf core
  let tag := fieldOf (s.cap1 core c.toNat) 7 0
  let head := header0 src (capClass e) urg ordered c.toNat tag k.toNat 0 grant.isSome
  if dev ≠ s.device then modCC fun x => { x with outTide := x.outTide + 1 }
  let p : Packet := {
    kind := .message head (BitVec.ofNat 64 time) pl true, ep := capEp e, src := src, core := core, tid := s.task.tid
    part := s.partOf core, cls := capClass e, stop := stopOf core
    tide := if ordered && dev ≠ s.device then some { device := dev, path := 0, ordered := some [] } else none }
  modify (inject (dieOf core) p)
  match now with
  | some d => wg d 0
  | none => pure ()
  return .seq

/-- SEND (R249). -/
def execSend (a : BitVec 5) (c : BitVec 4) (u : BitVec 1) (k : BitVec 4) (s : State) : Host.Outcome State Fault Refusal :=
  issue .other 4 (sendOp a c (u = 1) k false none none) s
/-- SEND_G (R249). -/
def execSendG (a b : BitVec 5) (c : BitVec 4) (u : BitVec 1) (k : BitVec 4) (s : State) : Host.Outcome State Fault Refusal :=
  issue .other 4 (sendOp a c (u = 1) k false none (some b)) s
/-- SENDN (R249). -/
def execSendn (a b : BitVec 5) (c : BitVec 4) (u : BitVec 1) (k : BitVec 4) (s : State) : Host.Outcome State Fault Refusal :=
  issue .other 4 (sendOp a c (u = 1) k false (some b) none) s
/-- SENDO (R249). -/
def execSendo (a : BitVec 5) (c : BitVec 4) (u : BitVec 1) (k : BitVec 4) (s : State) : Host.Outcome State Fault Refusal :=
  issue .other 4 (sendOp a c (u = 1) k true none none) s
/-- SENDO_G (R249). -/
def execSendoG (a b : BitVec 5) (c : BitVec 4) (u : BitVec 1) (k : BitVec 4) (s : State) : Host.Outcome State Fault Refusal :=
  issue .other 4 (sendOp a c (u = 1) k true none (some b)) s

/-- Header word 0 as software sees it (R243). -/
def InboxEntry.shown (e : InboxEntry) : Word := e.h0 ||| 0x8000000000000000#64

/-- RECV (R250). -/
def execRecv (a b : BitVec 5) (n y : BitVec 1) (c : BitVec 3) (s : State) : Host.Outcome State Fault Refusal :=
  other (do
    let ea ← rg a
    check (a ≠ 0 && ea.toNat % 16 ≠ 0) 0x10 ea
    match (← cc).selected (← taskM) (y = 1) c.toNat with
    | none =>
      if n = 1 then wg b 0 else throw .wait
    | some e =>
      if a ≠ 0 then
        let bytes := (e.shown :: e.h1 :: e.payload).flatMap bytesOf
        enterStores (← checkStores (storePieces ea bytes 11))
      wg b e.shown
      modTaskM fun t => { t with
        mhead := e.shown
        grant := if bitOf e.h0 52 then some (nth e.payload 6 0, nth e.payload 7 0) else none }
      modify fun s => freeEntry s.cur.core e s) s

/-- PEEK (R250). -/
def execPeek (b : BitVec 5) (y : BitVec 1) (c : BitVec 3) (s : State) : Host.Outcome State Fault Refusal :=
  other (do
    match (← cc).selected (← taskM) (y = 1) c.toNat with
    | none => wg b 0
    | some e => wg b e.shown) s

/-- CMASK (R251, R245): class 7 is not held, and its cmask has no effect. -/
def execCmask (c : BitVec 3) (s : State) : Host.Outcome State Fault Refusal :=
  other (do
    let t ← taskM
    if c ≠ 7 then
      modCC fun k => { k with mask := k.mask ||| BitVec.ofNat 7 (2 ^ c.toNat), maskedBy := some t.tid }
      modify fun s => heldOverflow s.cur.core s) s

/-- Held messages of a class that have a handler are claimed in arrival order (R88, R251). -/
def Core.release (k : Core) (cls : Nat) : Core :=
  { k with inbox := k.inbox.map fun (e : InboxEntry) =>
      if e.cls = cls && e.handler ≠ 0 && e.forActor.isNone then { e with claimed := true } else e }

/-- CUNMASK (R251). -/
def execCunmask (c : BitVec 3) (s : State) : Host.Outcome State Fault Refusal :=
  other (do
    if c ≠ 7 then
      modCC fun k => ({ k with mask := k.mask &&& ~~~(BitVec.ofNat 7 (2 ^ c.toNat)) }).release c.toNat
      modify fun s => pumpInbox s.cur.core s) s

/-- The checks, the journal entry and the packet of a posted store (R252, R253). A wait for a journal entry ends with 0x2C where the
window is revoked meanwhile (R259). -/
def postStore (c : BitVec 4) (right : Nat) (nibble : Bool) (idx : Word) (n : Nat) (checks : M Unit) (data : Word) : M Unit := do
  sendRevoked
  let core ← curCore
  let e ← capM c.toNat
  let w1 := (← get).cap1 core c.toNat
  check (capKind e ≠ 2) 0x20
  check ((← cc).revoking.contains c.toNat) 0x2C
  check (!capRight e right || idx.toNat + n > winLen w1 * (if nibble then 2 else 1)) 0x21
  checks
  reachable (capEp e)
  drain
  let k ← cc
  let ix ← (match tabFree k.journal 32 0 with | some i => return i | none => sendWaits [c.toNat])
  let id ← nextCommand
  let s ← get
  let off := winBase w1 * (if nibble then 2 else 1) + idx.toNat
  let x : JournalEntry := {
    id := id, ep := capEp e, cls := capClass e, cap := c.toNat, nibble := nibble, off := off, size := n, data := data, tid := s.task.tid
    since := s.now }
  modCC fun k => { k with
    journal := tabPut k.journal ix x, outTide := k.outTide + (if epDevice (capEp e) = s.device then 0 else 1) }
  modify fun s => inject (dieOf core) (x.packet core s) s

/-- PST (R252). -/
def execPst (a b : BitVec 5) (c : BitVec 4) (z : BitVec 3) (s : State) : Host.Outcome State Fault Refusal :=
  other (do
    let n := szBytes z.toNat
    let off ← rg a
    postStore c 7 false off n (check (off.toNat % n ≠ 0) 0x10 off) (← rg b)) s

/-- PST4 (R253). -/
def execPst4 (a b : BitVec 5) (c : BitVec 4) (n : BitVec 4) (s : State) : Host.Outcome State Fault Refusal :=
  other (do
    let cnt := n.toNat + 1
    let idx ← rg a
    postStore c 8 true idx cnt (check (idx.toNat % 16 + cnt > 16) 0x2D) (← rg b)) s

/-- The template entry k of a launch queue of a partition, as placement and capld copy it (R240, R414, R413): invalid where the
template is, and, outside the root, where it names another partition. -/
def State.templateEntry (s : State) (part queue k : Nat) : Word × Word :=
  let t := (s.queueAt part queue).tmpl
  if !bitOf t 0 then (0, 0)
  else
    let base := fieldOf t 51 8 * 256 + 16 * k
    let w0 := wordOfList (cellsGet s.mem base 8)
    let w1 := wordOfList (cellsGet s.mem (base + 8) 8)
    let foreign := part ≠ 0 && (match capKind w0 with
      | 3 => fieldOf w1 2 0 ≠ part
      | 1 | 2 => epDevice (capEp w0) = s.device &&
        (match s.blockNamed (capEp w0) with | some (_, b) => b.part ≠ part | none => false)
      | _ => false)
    if foreign || capKind w0 = 0 then (0, 0) else (withField w0 25 19 0, w1)

/-- The launch queue whose template serves a core (R257, R358): its block's, or the one sr.rcq names for a routing core. -/
def State.templateQueue (s : State) (c : Nat) : Option (Nat × Nat) :=
  match s.blockOf c with
  | some b => some (b.part, b.queue)
  | none => if isRouting c then some (s.partOf c, fieldOf (s.dieAt (dieOf c)).rcq 5 0) else none

/-- CAPLD (R257). -/
def execCapld (c k : BitVec 4) (s : State) : Host.Outcome State Fault Refusal :=
  other (do
    let core ← curCore
    check (capKind (← capM c.toNat) ≠ 0) 0x21
    let s ← get
    let (w0, w1) := match s.templateQueue core with
      | some (p, q) => s.templateEntry p q k.toNat
      | none => (0, 0)
    check (capKind w0 = 0) 0x20
    modify fun s => s.setCap core c.toNat (withField w0 30 30 0) w1) s

/-- CAPLD_G (R257). -/
def execCapldG (c : BitVec 4) (s : State) : Host.Outcome State Fault Refusal :=
  other (do
    let core ← curCore
    check (capKind (← capM c.toNat) ≠ 0) 0x21
    match (← taskM).grant with
    | none => trapP 0x20
    | some (w0, w1) =>
      modTaskM fun t => { t with grant := none }
      modify fun s => s.setCap core c.toNat (withField (withField w0 30 30 0) 25 19 0) w1) s

/-- CAPRS (R258). -/
def execCaprs (a : BitVec 5) (b c : BitVec 4) (s : State) : Host.Outcome State Fault Refusal :=
  other (do
    let core ← curCore
    let x ← rg a
    let e ← capM b.toNat
    let e1 := (← get).cap1 core b.toNat
    let mv := fieldOf x 14 8
    let adj := fieldOf x 26 15
    let newlen := fieldOf x 38 27
    let kind := capKind e
    check (kind = 0) 0x20
    check (!capRight e 10 || capKind (← capM c.toNat) ≠ 0 || fieldOf x 63 39 ≠ 0) 0x21
    check (kind = 1 && capAllow e < capUsed e + mv) 0x22
    check (kind ≠ 1 && mv ≠ 0) 0x21
    check (kind = 2 && adj + newlen + 1 > fieldOf e1 23 12 + 1) 0x21
    let n := withField e 11 4 (fieldOf e 11 4 &&& fieldOf x 7 0)
    let n := withField (withField (withField n 25 19 0) 29 26 b.toNat) 30 30 1
    let n := if kind = 1 then withField n 18 12 mv else n
    let n1 := if kind = 2 then withField (withField e1 11 0 (fieldOf e1 11 0 + adj)) 23 12 newlen else e1
    if kind = 1 then modify fun s => s.setCap core b.toNat (withField e 18 12 (capAllow e - mv)) e1
    modify fun s => s.setCap core c.toNat n n1) s

/-- Does entry j's chain of parents lead to c (R259)? -/
def State.descends (s : State) (core c : Nat) : Nat → Nat → Bool
  | 0, _ => false
  | fuel + 1, j =>
    if j = c then true
    else
      let w := s.cap0 core j
      capKind w ≠ 0 && bitOf w 30 && s.descends core c fuel (fieldOf w 29 26)

/-- CAPRV (R259): affected entries take nothing new at once; the instruction waits for their credits, then clears them. -/
def execCaprv (c : BitVec 4) (s : State) : Host.Outcome State Fault Refusal :=
  other (do
    let core ← curCore
    let e ← capM c.toNat
    if capKind e ≠ 0 then
      let s ← get
      let hit := (List.range 16).filter fun j => capKind (s.cap0 core j) ≠ 0 && s.descends core c.toNat 16 j
      let mark (t : Task) : Task := { t with sendWait := t.sendWait.map fun (w : Word × List Nat × Bool) =>
        (w.1, w.2.1, w.2.2 || w.2.1.any hit.contains) }
      modCC fun k => { k with
        revoking := hit ++ k.revoking.filter fun j => !hit.contains j
        b0 := mark k.b0, b1 := mark k.b1, parks := k.parks.map fun p => (p.1, { p.2 with task := mark p.2.task })
        cq := k.cq.map fun (q : CopyCommand) => match q.kind with
          | .copy => q
          | .put _ _ cap _ => if hit.contains cap then { q with revoked := true } else q
          | .get _ _ cap => if hit.contains cap then { q with revoked := true } else q }
      if hit.any fun j => capKind (s.cap0 core j) == 1 && capUsed (s.cap0 core j) ≠ 0 then throw .stall
      modify fun s => hit.foldl (fun s j => s.setCap core j 0 0) s
      modCC fun k => { k with revoking := k.revoking.filter fun j => !hit.contains j }
      let p := fieldOf e 29 26
      let pw ← capM p
      if capKind e = 1 && bitOf e 30 && capKind pw = 1 then
        modify fun s => s.setCap core p (withField pw 18 12 (capAllow pw + capAllow e)) (s.cap1 core p)) s

/-- Is a pair of words an entry that capmint may write (R260, R237, R238)? -/
def mintable (w0 w1 : Word) : Bool :=
  let rights := fieldOf w0 11 4
  let only (m : Nat) : Bool := rights &&& (255 - m) == 0
  !bitOf w0 31 && capAllow w0 ≤ 64 && capUsed w0 == 0 && !bitOf w0 30 &&
  (match capKind w0 with
   | 0 => rights == 0
   | 1 => only 0x47 && fieldOf w1 63 8 == 0
   | 2 => only 0x7C && fieldOf w1 63 24 == 0 && capAllow w0 == 0
   | 3 => only 0xC0 && fieldOf w1 63 3 == 0 && capAllow w0 == 0 && fieldOf w0 60 32 == 0 && capClass w0 == 0
   | _ => false)

/-- CAPMINT (R260, R413). -/
def execCapmint (a b : BitVec 5) (c : BitVec 4) (s : State) : Host.Outcome State Fault Refusal :=
  other (do
    supervisor
    let core ← curCore
    let w0 ← rg a
    let w1 ← rg b
    let s ← get
    check (!mintable w0 w1 || capKind (s.cap0 core c.toNat) ≠ 0) 0x21
    if (capKind w0 = 1 || capKind w0 = 2) && epDevice (capEp w0) = s.device then
      match s.blockNamed (capEp w0) with
      | none => trapP 0x29
      | some (_, x) => check (s.partOf core ≠ 0 && x.part ≠ s.partOf core) 0x21
    modify fun s => s.setCap core c.toNat w0 w1) s

/-- CAPQ (R261). -/
def execCapq (a : BitVec 5) (c : BitVec 4) (w : BitVec 1) (s : State) : Host.Outcome State Fault Refusal :=
  other (do
    let core ← curCore
    let s ← get
    let w0 := s.cap0 core c.toNat
    wg a (if capKind w0 = 0 then 0 else if w = 1 then s.cap1 core c.toNat else w0)) s

end Sys2Proof.Machine
end

