-- ==== Sys2Proof/Machine/Packets.lean ====
section
/-! DEFINITION. The arrivals of the message class (spec/13, spec/14): messages, posted stores, credits, acknowledgements, bounces,
the Linlos ports, the resync of a partition, the tide links to other devices. -/

namespace Sys2Proof.Machine

/-- A packet that was to leave for a peer that is down returns to its sender (R255, R287): a message, and what came from another
device; a store of this device has its journal entry, a copy its command, an ordered message the peer's record of it. -/
def returnHeld (d : Nat) (p : Packet) (s : State) : State :=
  if epDevice p.src ≠ s.device then turnBack d p 0 s
  else match p.kind with
    | .message .. => if p.flag.isSome then s else turnBack d p 0 s
    | _ => settleTide p s

/-- A packet goes on from die `d` (R246, R286): to the port of the next die, or to the tide port of its path. -/
def passOn (d : Nat) (p : Packet) (t : Target) (s : State) : State :=
  match t with
  | .away e => portPut d e p s
  | .moved e => portPut d e { p with forwarded := true } s
  | .port n =>
    if !p.stays && (s.peerAt (epDevice p.ep)).down then returnHeld d p s
    else { s with tideOut := tabPut s.tideOut n (tabGet s.tideOut n [] ++ [p]) }
  | _ => s

/-- Does a packet that finds this target go on from the die? -/
def Target.goesOn : Target → Bool
  | .away _ | .moved _ | .port _ => true
  | _ => false

/-- Where the packet of a flight stands, once it has gone on from this die if it does. -/
def forwarded (d ix : Nat) (p : Packet) : M (Option Target) := do
  match (← get).target d p with
  | .gone => throw .no
  | t =>
    if t.goesOn then
      flightGone d ix
      modify (passOn d p t)
      return none
    else return some t

/-- The counts of an ordered packet are met (R288): got − count lies below 32,768 on every path. -/
def State.countsMet (s : State) (p : Packet) : Bool :=
  match p.tide with
  | some { device := dev, ordered := some c, .. } =>
    (List.range 4).all fun k => (nth (s.peerAt dev).got k 0 + 65536 - nth c k 0) % 65536 < 32768
  | _ => true

/-- Must an ordered packet of another device be held at this die (R288)? -/
def State.mustHold (s : State) (p : Packet) : Bool := epDevice p.ep == s.device && !s.countsMet p

/-- The inbox entry of a message packet (R243). -/
def Packet.entry (p : Packet) (h0 h1 : Word) (pl : List Word) (credit : Bool) (s : State) : InboxEntry :=
  { id := 0, h0 := h0, h1 := h1, payload := pl, credit := credit, home := p.senderHome s, token := p.token
    close := match p.notice with | some (_, c) => c | none => false }

/-- An over-minted arrival waits at its stop (R242): iovf and 0x28 once. -/
def overflow (c : Nat) (s : State) : State :=
  if (s.coreAt c).iovf then s
  else reportCore c { code := 0x28, kind := .r } (s.modCore c fun k => { k with iovf := true })

/-- A message is performed: it enters the inbox of its target (R244, R246), and is counted for its sender (R288). -/
def performMessage (d : Nat) (p : Packet) (t : Target) (h0 h1 : Word) (pl : List Word) (credit : Bool) (s : State) : State :=
  performed d p (inboxArrive t (p.entry h0 h1 pl credit s) s)

/-- Decrement the used count of a send entry of a target (R241). -/
def returnCredit (t : Target) (j : Nat) (s : State) : State :=
  let table := s.targetTable t
  s.modTarget t fun k =>
    let w := k.capWord table j 0
    if capKind w = 1 && capUsed w ≠ 0 then
      { k with spm := cellsSet k.spm (table + 16 * j) (bytesOf (withField w 25 19 (capUsed w - 1))) }
    else k

/-- A bounce reaches the block that sent (R246, R283): its credit comes back or its journal entry is kept, its cause is raised,
and it enters the inbox unless the task was killed (R403). `jix` is the number of the journal entry. -/
def performBounce (p : Packet) (t : Target) (h0 h1 : Word) (pl : List Word) (code : Nat) (detail : Word)
    (credit : Bool) (jix : Option Nat) (s : State) : State :=
  let s := if credit then returnCredit t (fieldOf h0 37 34) s else s
  let entry := jix.bind fun j => (s.targetCore t).bind fun k => k.entryOf j
  let s := match entry with
    | some (j, x) => s.modTarget t fun k => { k with journal := tabPut k.journal j { x with kept := true, answered := true } }
    | none => s
  let s := if s.killed.contains p.tid then s
    else inboxArrive t { id := 0, h0 := h0, h1 := h1, payload := pl, credit := false } s
  if code = 0 then s else raiseAsync p.core p.tid { code := code, kind := .a, detail := detail, jix := entry.map (·.1) } s

/-- The device whose ordered message a packet answers keeps it no longer. -/
def flagGone (p : Packet) (s : State) : State :=
  match p.flag with
  | none => s
  | some id => s.modPeer (epDevice p.src) fun x => { x with flags := x.flags.filter fun q => q.flag ≠ some id }

/-- Does an answer to an ordered message come too late: the message has been returned, as the peer was declared down (R289)? -/
def State.flagLate (s : State) (p : Packet) : Bool :=
  match p.flag with
  | none => false
  | some id => !(s.peerAt (epDevice p.src)).flags.any fun q => q.flag == some id

/-- A token that returns from another device is freed and counted (R332, R447). -/
def tokenReturned (p : Packet) (s : State) : State :=
  match p.token with
  | none => s
  | some (n, _) => freeToken p.token (countBounce n s)

/-- Do earlier messages of a sender for an endpoint wait in the spill store of a stop, on any die? Later ones wait for them, so that the
order of arrival is kept (R246, R270). -/
def State.behindSpilled (s : State) (p : Packet) : Bool :=
  s.dies.any fun d => d.2.spill.any fun q => q.2.any fun g => g.packet.ep == p.ep && g.packet.src == p.src && p.home.isNone

/-- MESSAGE_ARRIVAL (R242, R244, R246): a message enters its inbox, or the spill store of its stop while the inbox has no room or earlier
ones wait there. -/
def execMessageArrival (die index : Nat) (s : State) : Host.Outcome State Fault Refusal :=
  event (do
    let f ← flightAt die index
    let p := f.packet
    match p.kind with
    | .message h0 h1 pl credit =>
      let s ← get
      let t := s.target die p
      let behind := s.behindSpilled p
      enabled (match t with | .away _ | .port _ => true | .moved _ => !behind | _ => !s.mustHold p)
      match ← forwarded die index p with
      | none => pure ()
      | some t =>
        let room := match s.targetCore t with | some k => k.inboxRoom p.cls | none => false
        if room && !behind then
          flightGone die index
          modify (performMessage die p t h0 h1 pl credit)
        else match t with
          | .core c =>
            let q := tabGet (s.dieAt die).spill (stopOf c) []
            enabled (credit && (!behind || q.any fun g => g.packet.ep == p.ep && g.packet.src == p.src))
            flightGone die index
            modify fun s =>
              let s := s.modDie die fun x => { x with spill := tabPut x.spill (stopOf c) (q ++ [f]) }
              if room then s else overflow c s
          | _ => throw .no
    | .bounceBack h0 h1 pl code detail credit jix =>
      let s ← get
      let t := s.target die p
      if t.goesOn then let _ ← forwarded die index p
      else if s.flagLate p then flightGone die index
      else if t == .gone then
        flightGone die index
        modify fun s => tokenReturned p (flagGone p s)
        if code ≠ 0 then modify (raiseAsync p.core p.tid { code := code, kind := .a, detail := detail })
      else
        enabled (match s.targetCore t with | some k => s.killed.contains p.tid || k.inboxRoom 7 | none => false)
        flightGone die index
        modify fun s => performBounce p t h0 h1 pl code detail credit jix (tokenReturned p (flagGone p s))
    | _ => throw .no) s

/-- May a spilled packet leave its stop: its inbox has room, or its block has gone, or has moved to another die (R246, R274)? -/
def State.spillReady (s : State) (d : Nat) (p : Packet) : Bool :=
  match s.target d p with
  | .gone => true
  | .moved _ => true
  | t => match s.targetCore t with | some k => k.inboxRoom p.cls | none => false

/-- SPILL_RETRY (R274): the first spilled packet of a stop that may leave does, in the order of each source: into its inbox, on to the
die where its block stands now, or back to its sender (R246). -/
def execSpillRetry (die stop : Nat) (s : State) : Host.Outcome State Fault Refusal :=
  event (do
    let q := tabGet (s.dieAt die).spill stop []
    let ready (f : Flight) : Bool :=
      s.spillReady die f.packet &&
        !(q.take (q.findIdx (· = f))).any fun g => g.packet.ep == f.packet.ep && g.packet.src == f.packet.src
    let f ← orNo (q.find? ready)
    modify fun s => s.modDie die fun x => { x with spill := tabPut x.spill stop (q.erase f) }
    match s.target die f.packet, f.packet.kind with
    | .gone, _ => modify (turnBack die f.packet 0x29)
    | .moved e, _ => modify (passOn die f.packet (.moved e))
    | t, .message h0 h1 pl credit => modify (performMessage die f.packet t h0 h1 pl credit)
    | _, _ => modify fun s => s.modDie die fun x => { x with ring := x.ring ++ [f] }) s

/-- BOUNCE (R246, R447): the endpoint of a packet names no live block. -/
def execBounce (die index : Nat) (s : State) : Host.Outcome State Fault Refusal :=
  event (do
    let f ← flightAt die index
    let p := f.packet
    enabled (s.target die p == .gone)
    match p.kind with
    | .message .. | .pst .. | .pst4 .. | .put .. | .getRequest .. =>
      flightGone die index
      modify (turnBack die p 0x29)
    | .bounceBack .. => throw .no
    | _ => flightGone die index) s

/-- Why a target refuses a store or a read of `n` bytes at an offset (R254): 0 where it does not. -/
def refusalOf (k : Core) (table off n : Nat) : Nat :=
  if off + n > k.spmSize then 0x25
  else if (off < table + 256 && table < off + n) || k.spmBad off n then 0x24
  else 0

/-- Write bytes into the scratchpad of a target, on its core or in its frame, with the watches of it (R297). -/
def putTarget (t : Target) (off : Nat) (bytes : List Byte) (s : State) : State :=
  s.modTarget t fun k => k.putSpm s.turns off bytes

/-- The stop from which a target answers. -/
def Target.stop : Target → Nat
  | .core c => stopOf c
  | _ => unitStop

/-- The free answer of a target to a packet that it has performed or refused (R254, R265). -/
def answerFree (d : Nat) (p : Packet) (t : Target) (k : PacketKind) (s : State) : State :=
  inject d { (p.reply (p.senderHome s) k) with stop := t.stop } (performed d p s)

/-- A store is answered: acknowledged, or refused with its cause (R254). -/
def answerStore (d : Nat) (p : Packet) (t : Target) (j cause : Nat) (s : State) : State :=
  answerFree d p t (if cause = 0 then .ack j else .refusal j cause) s

/-- The part of a range before the first 32-byte sector that a target refuses, and that one's cause: 0 where it refuses none (R265). -/
def acceptedBytes (k : Core) (table off n : Nat) : Nat → Nat × Nat
  | 0 => (0, 0)
  | fuel + 1 =>
    if n = 0 then (0, 0)
    else
      let m := min n (32 - off % 32)
      let cause := refusalOf k table off m
      if cause ≠ 0 then (0, cause)
      else
        let r := acceptedBytes k table (off + m) (n - m) fuel
        (m + r.1, r.2)

/-- The nibble j of a word replaced (R253). -/
def putNibble (w i v : Nat) : Nat := w - w / 16 ^ i % 16 * 16 ^ i + v % 16 * 16 ^ i

/-- Nibbles of data written into a word from a nibble index. -/
def putNibbles (w i data : Nat) : Nat → Nat
  | 0 => w
  | n + 1 => putNibble (putNibbles w i data n) (i + n) (data / 16 ^ n)

/-- Perform a posted store or the sectors of a cput at a target (R252, R253, R265). -/
def performStore (d : Nat) (p : Packet) (t : Target) (s : State) : State :=
  match s.targetCore t with
  | none => s
  | some k =>
    let table := s.targetTable t
    match p.kind with
    | .pst j off size data =>
      let cause := refusalOf k table off size
      let s := if cause = 0 then putTarget t off ((bytesOf data).take size) s else s
      answerStore d p t j cause s
    | .pst4 j off size data =>
      let w := off / 16 * 8
      let cause := refusalOf k table w 8
      let s := if cause = 0 then
          let old := natOfBytes (cellsGet k.spm w 8)
          putTarget t w (bytesOfNat 8 (putNibbles old (off % 16) data.toNat size)) s
        else s
      answerStore d p t j cause s
    | .put c off bytes poison _ =>
      let (n, cause) := acceptedBytes k table off bytes.length 10
      let s := (putTarget t off (bytes.take n) s).modTarget t fun k => { k with
        spmPoison := (poison.filter fun w => 8 * w < off + n).foldl markPut k.spmPoison }
      answerFree d p t (.putAck c n (if cause = 0 then 0 else 5) cause (off + n)) s
    | _ => s

/-- POSTED_STORE_ARRIVAL (R252, R254, R265): the target's scratchpad port writes it, or refuses it. -/
def execPostedStoreArrival (die index : Nat) (s : State) : Host.Outcome State Fault Refusal :=
  event (do
    let f ← flightAt die index
    enabled (match f.packet.kind with | .pst .. => true | .put .. => true | _ => false)
    enabled ((s.target die f.packet).goesOn || !s.mustHold f.packet)
    match ← forwarded die index f.packet with
    | none => pure ()
    | some t =>
      flightGone die index
      modify (performStore die f.packet t)) s

/-- NIBBLE_STORE_ARRIVAL (R253): an indivisible read-modify-write of one word. -/
def execNibbleStoreArrival (die index : Nat) (s : State) : Host.Outcome State Fault Refusal :=
  event (do
    let f ← flightAt die index
    enabled (match f.packet.kind with | .pst4 .. => true | _ => false)
    match ← forwarded die index f.packet with
    | none => pure ()
    | some t =>
      flightGone die index
      modify (performStore die f.packet t)) s

/-- The command of a core's copy engine that an answer is for. -/
def Core.modCopy (k : Core) (id : Nat) (f : CopyCommand → CopyCommand) : Core :=
  { k with cq := k.cq.map fun (c : CopyCommand) => if c.id = id then f c else c }

/-- An answer with a status ends a command with that status and cause, unless it has one (R265, R267). -/
def CopyCommand.endWith (c : CopyCommand) (status cause : Nat) (addr : Word) : CopyCommand :=
  if status = 0 || c.status ≠ 0 then c else { c with status := status, cause := cause, fault := addr }

/-- The data of a get come back to its command (R265). -/
def performData (d : Nat) (p : Packet) (t : Target) (id : Nat) (bytes : List Byte) (status cause fault : Nat) (s : State) : State :=
  performed d p (s.modTarget t fun k => k.modCopy id fun c =>
    { (c.endWith status cause (BitVec.ofNat 64 fault)) with data := bytes, acked := c.acked + 1 })

/-- CGET_REQUEST (R265): the target's scratchpad port returns the data, or refuses; the data reach the engine that asked. -/
def execCgetRequest (die index : Nat) (s : State) : Host.Outcome State Fault Refusal :=
  event (do
    let f ← flightAt die index
    let p := f.packet
    match p.kind with
    | .getRequest c off len =>
      match ← forwarded die index p with
      | none => pure ()
      | some t =>
        flightGone die index
        let s ← get
        let k ← orNo (s.targetCore t)
        let (n, cause) := acceptedBytes k (s.targetTable t) off len 10
        let data : PacketKind := .getData c (cellsGet k.spm off n) [] (if cause = 0 then 0 else 5) cause (off + n)
        modify fun s => inject die { p.reply (p.senderHome s) data with cls := p.cls, stop := t.stop } (performed die p s)
    | .getData c bytes _ status cause fault =>
      if (← get).target die p == .gone then
        flightGone die index
        modify (performed die p)
      else match ← forwarded die index p with
        | none => pure ()
        | some t =>
          flightGone die index
          modify (performData die p t c bytes status cause fault)
    | _ => throw .no) s

/-- Where a credit or acknowledgement stands, once it has gone on from this die if it does; one whose block has ended finds none. -/
def freeTarget (d ix : Nat) (p : Packet) : M (Option Target) := do
  let t := (← get).target d p
  flightGone d ix
  if t.goesOn then
    modify (passOn d p t)
    return none
  else return some t

/-- CREDIT_ARRIVAL (R241): an allowance returns, or a token of this device's selector has been freed on another (R332). -/
def execCreditArrival (die index : Nat) (s : State) : Host.Outcome State Fault Refusal :=
  event (do
    let p := (← flightAt die index).packet
    match p.kind with
    | .credit j =>
      match ← freeTarget die index p with
      | none => pure ()
      | some t => if p.token.isSome then modify (freeToken p.token) else modify (returnCredit t j)
    | _ => throw .no) s

/-- A packet to another device has been acknowledged on a path (R287, R288): it is counted, where it was sent since the counts were
zeroed, and no longer at its port. -/
def acknowledged (dev path : Nat) (s : State) : State :=
  let s := s.modPeer dev fun x =>
    if nth x.acked path 0 = nth x.sent path 0 then x else { x with acked := bumpNth x.acked path 1 65536, ackedAt := s.now }
  let port := s.pathPort dev path
  let q := tabGet s.tideOut port []
  let mine (p : Packet) : Bool := p.counts && (match p.tide with | some t => t.device == dev && t.path == path | none => false)
  let open_ := (nth (s.peerAt dev).sent path 0 + 65536 - nth (s.peerAt dev).acked path 0) % 65536
  if (q.filter mine).length ≤ open_ then s
  else { s with tideOut := tabPut s.tideOut port (q.eraseIdx (q.findIdx mine)) }

/-- JOURNAL_ACK (R254, R265, R288): an acknowledgement frees its journal entry, or tells a cput; one of performance advances the count of its path. -/
def execJournalAck (die index : Nat) (s : State) : Host.Outcome State Fault Refusal :=
  event (do
    let p := (← flightAt die index).packet
    match p.kind with
    | .ack j =>
      match ← freeTarget die index p with
      | none => pure ()
      | some t => modify fun s => s.modTarget t fun k => match k.entryOf j with
        | some (i, _) => { k with journal := tabDel k.journal i }
        | none => k
    | .performed path =>
      match ← freeTarget die index p with
      | none => pure ()
      | some t =>
        match p.tide with
        | some i => modify (acknowledged i.device path)
        | none => pure ()
        if p.tid ≠ 0 && !(← get).flagLate p then
          modify fun s => s.modTarget t fun k => { k with outTide := k.outTide - 1 }
        modify (flagGone p)
    | .putAck id bytes status cause fault =>
      match ← freeTarget die index p with
      | none => pure ()
      | some t => modify fun s => s.modTarget t fun k => k.modCopy id fun c =>
        { (c.endWith status cause (BitVec.ofNat 64 fault)) with acked := c.acked + 1, written := c.written + bytes }
    | _ => throw .no) s

/-- JOURNAL_REFUSAL (R254): the entry is kept, and its cause is raised against the issuing task. -/
def execJournalRefusal (die index : Nat) (s : State) : Host.Outcome State Fault Refusal :=
  event (do
    let p := (← flightAt die index).packet
    match p.kind with
    | .refusal j cause =>
      match ← freeTarget die index p with
      | none => pure ()
      | some t =>
        match ((← get).targetCore t).bind fun k => k.entryOf j with
        | some (i, x) =>
          modify fun s => s.modTarget t fun k => { k with journal := tabPut k.journal i { x with kept := true, answered := true } }
          modify (raiseAsync p.core p.tid { code := cause, kind := .a, jix := some i })
        | none => pure ()
    | _ => throw .no) s

/-- ACK_TIMEOUT (R254): an entry not acknowledged within sr.acktmo is kept and reported once; it goes on waiting. -/
def execAckTimeout (core index : Nat) (s : State) : Host.Outcome State Fault Refusal :=
  event (do
    let x ← orNo (tabFind (s.coreAt core).journal index)
    let lim := fieldOf (s.partAt (s.partOf core)).acktmo 31 0
    enabled (!x.late && !x.kept && lim ≠ 0)
    let now ← readClock
    enabled (x.since + lim * 1000 < now)
    let task := match (s.coreAt core).tasks.find? (·.tid == x.tid) with | some t => t.g.get 29 | none => 0
    let crew := match s.blockOf core with | some b => b.crew | none => 0
    modify fun s => reportOn core { code := 0x2B, kind := .r, jix := some index } crew task
      (s.modCore core fun k => { k with journal := tabPut k.journal index { x with late := true, kept := true } })) s

/-- LINLOS_ARRIVAL (R277, R279). -/
def execLinlosArrival (source die : Nat) (s : State) : Host.Outcome State Fault Refusal := event (linlosArrival source die) s

/-- The dies that count a link (R427): 0 to 5 the Linlos links in the order of their pairs, 6 to 21 the tide ports, 22 the host
link. -/
def linkDies (link : Nat) : List Nat :=
  match link with
  | 0 => [0, 1] | 1 => [0, 2] | 2 => [0, 3] | 3 => [1, 2] | 4 => [1, 3] | 5 => [2, 3]
  | 22 => [0]
  | l => if l < 22 then [(l - 6) / 4] else []

/-- FLIT_CRC_FAIL (R275, R285): the flit is replayed from the retry buffer; nothing accepted is lost or reordered. Which flit failed,
the one that failed before or a new one, is open: the flits of memory traffic are no state (notes/assumptions/70.md). After a first
failure and 16 failed replays the link does nothing but retrain. -/
def execFlitCrcFail (link : Nat) (s : State) : Host.Outcome State Fault Refusal :=
  event (do
    let n := tabGet s.replays link 0
    enabled (link < 23 && n < 17)
    let same := bitOf (← freshWord) 0
    modify fun s => { s with replays := tabPut s.replays link (if same then n + 1 else 1) }) s

/-- LINK_RETRAIN (R275, R285, R427): after 16 failed replays of one flit; it is counted on the link's dies, and 0x48 reported. -/
def execLinkRetrain (link : Nat) (s : State) : Host.Outcome State Fault Refusal :=
  event (do
    enabled (tabGet s.replays link 0 = 17)
    modify fun s => { s with replays := tabDel s.replays link }
    let d ← orNo (linkDies link).head?
    modify fun s => (linkDies link).foldl (fun s d => countError d 3 s) (reportRoot d { code := 0x48, kind := .r } s)) s

/-- TIDE_POOL_HOLD_EXPIRY (R281). -/
def execTidePoolHoldExpiry (die packet : Nat) (s : State) : Host.Outcome State Fault Refusal :=
  event (do
    let e ← orNo (s.dieAt die).pool[packet]?
    let lim := fieldOf (s.partAt e.2.part).tpage 31 0
    enabled (!e.2.paged && lim ≠ 0)
    let now ← readClock
    enabled (e.2.since + lim * 1000 < now)
    modify fun s => report e.2.part die 0 { code := 0x41, kind := .r } 0 0 (s.modDie die fun x => { x with
      lnkcnt := bumpField x.lnkcnt 47 40 1
      pool := x.pool.set packet (e.1, { e.2 with paged := true }) })) s

/-- The ordered pairs of dies, and a die with itself. -/
def diePairs : List (Nat × Nat) := (List.range 4).flatMap fun i => (List.range 4).map fun j => (i, j)

/-- Move what may leave on every port. -/
def pumpAll (s : State) : State :=
  diePairs.foldl (fun s x => pumpPort x.1 x.2 (tabGet s.ports (portKey x.1 x.2) []).length s) s

/-- Each group with a member on a die that is fenced is reported once, with the die in the address field (R294). -/
def reportFencedGroups (d : Nat) (s : State) : State :=
  s.groups.foldl (fun s g =>
    if g.2.members.any fun m => !m.absent && dieOf m.core == d then
      match (List.range 8).find? fun p => bitOf (nth (s.partAt p).gown (g.1 / 64) 0) (g.1 % 64) with
      | some p => report p d 0 { code := 0x4A, kind := .r, addr := BitVec.ofNat 64 d, detail := BitVec.ofNat 64 g.1 } 0 0 s
      | none => s
    else s) s

/-- The fence bits of sr.lnkctl (R282, R283): setting takes effect at once; clearing only where quiesce was already 1. The packets
that wait at a port, or in a pool for a pair that is now frozen, count as held when its fence falls. -/
def setFence (mask : BitVec 4) (quiet : Bool) (s : State) : State :=
  let new := if quiet then mask else s.fence ||| mask
  let fresh := new &&& ~~~s.fence
  let t := ((List.range 4).filter fresh.getLsbD).foldl (fun t d => reportFencedGroups d t) { s with fence := new }
  let held := diePairs.filter fun x => x.1 ≠ x.2 && (fresh.getLsbD x.1 || fresh.getLsbD x.2) && !s.fenced x.1 x.2
  let t := held.foldl (fun t x =>
    let q := tabGet t.ports (portKey x.1 x.2) []
    match q with
    | p :: _ => fenceHeld x.1 p.part q.length [x.1, x.2] t
    | [] => t) t
  let t := (List.range 4).foldl (fun t j => (s.dieAt j).pool.foldl (fun t e =>
    if (s.poolFences e.1 j e.2).isEmpty then
      match t.poolFences e.1 j e.2 with
      | [] => t
      | f => fenceHeld j e.2.part 1 f t
    else t) t) t
  let clear (t : State) (d : Nat) : State := if (t.dieAt d).fenceTold = 0 then t else t.modDie d fun y => { y with fenceTold := y.fenceTold &&& new }
  pumpAll ((List.range 4).foldl clear t)

/-- Is no packet of a partition on a Linlos link (qd of sr.lnkst, R283)? -/
def State.linksEmpty (s : State) (part : Nat) : Bool := s.links.all fun l => l.2.all fun p => p.part ≠ part
/-- Has drain been written in this resync, and is no packet of a partition pooled or held at a port of a live die (dr of
sr.lnkst, which is 0 at reset)? What its sources hold, the bounces of the drain among it, does not count (notes/assumptions/40.md). -/
def State.drained (s : State) (part : Nat) : Bool :=
  (s.partAt part).drained && (List.range 4).all fun d => s.fence.getLsbD d ||
    ((s.dieAt d).pool.all fun e => e.2.part ≠ part) &&
    ((List.range 4).all fun j => (tabGet s.ports (portKey d j) []).all fun p => p.part ≠ part)

/-- What the sources of the dies hold of a partition starts, in its order (R283). -/
def releaseQuiet (part : Nat) (s : State) : State :=
  (List.range 4).foldl (fun s d =>
    let held := (s.dieAt d).quiet.filter fun p => p.part == part
    held.foldl (fun s p => ringPut d p s) (s.modDie d fun x => { x with quiet := x.quiet.filter fun p => p.part ≠ part })) s

/-- Step 1 of a resync (R283): hold or release the message class of a partition. -/
def setQuiesce (part : Nat) (v : Bool) (s : State) : State :=
  let s := s.modPart part fun p => { p with quiesce := v, drained := p.drained && v, cleared := p.cleared && v }
  if v then s else pumpAll (releaseQuiet part s)

/-- Discard one packet at drain (R283): a message returns to its sender, a store or copy is refused; an answer, which has no sender to
return to, stands at its source again (R2, notes/assumptions/40.md). -/
def discardPacket (d : Nat) (p : Packet) (s : State) : State :=
  let s := s.modDie d fun x => { x with lnkcnt := bumpField x.lnkcnt 15 0 1 }
  let s := report p.part d 0 { code := 0x44, kind := .r } 0 0 s
  if p.answers then startPacket d { p with stamp := none } s else turnBack d { p with stamp := none } 0 s true

/-- Step 2 of a resync: every live die delivers what is deliverable, then discards what is pooled or held. -/
def drainPartition (part : Nat) (s : State) : State :=
  let live := (List.range 4).filter fun d => !s.fence.getLsbD d
  let s := s.modPart part fun p => { p with drained := true }
  let s := live.foldl (fun s d => retest d part ((s.dieAt d).pool.length + 1) s) s
  live.foldl (fun s d =>
    let pooled := (s.dieAt d).pool.filter fun e => e.2.part == part
    let held := (List.range 4).flatMap fun j => (tabGet s.ports (portKey d j) []).filter fun p => p.part == part
    let s := s.modDie d fun x => { x with pool := x.pool.filter fun e => e.2.part ≠ part }
    let s := (List.range 4).foldl (fun (s : State) j =>
      { s with ports := tabPut s.ports (portKey d j) ((tabGet s.ports (portKey d j) []).filter fun p => p.part ≠ part) }) s
    (pooled.map (·.2) ++ held).foldl (fun s p => discardPacket d p s) s) s

/-- The sending core of a request. -/
def ExpertRequest.core : ExpertRequest → Nat
  | .token _ _ _ _ _ c _ _ _ => c
  | .join _ _ _ _ _ c _ _ _ _ => c
/-- The source endpoint of a request. -/
def ExpertRequest.src : ExpertRequest → BitVec 29
  | .token _ _ _ _ _ _ _ e _ => e
  | .join _ _ _ _ _ _ _ _ e _ => e
/-- The sender whose requests keep their order (R421): a work core by its endpoint, wherever its block stands; else the core. -/
def sender (core : Nat) (src : BitVec 29) : Nat := if isWork core then 2 ^ 11 + src.toNat else core
/-- A request without what its sender's die had seen. -/
def ExpertRequest.unseen : ExpertRequest → ExpertRequest
  | .token n t x w row c tid src _ => .token n t x w row c tid src []
  | .join n t x a f c tid pc src _ => .join n t x a f c tid pc src []

/-- Step 3 of a resync: M and D of the partition become zero on every die; before dr it only sets err. -/
def clearCausal (part : Nat) (s : State) : State :=
  if !s.drained part then { s with lnkErr := true }
  else
    let s := (List.range 4).foldl (fun s d => s.modCausal d part fun c => { ({} : Causal) with epoch := c.epoch }) s
    let s := { s with dies := s.dies.map fun (d : Nat × Die) => (d.1, { d.2 with
      requests := d.2.requests.map fun (r : ExpertRequest) => if s.partOf r.core = part then r.unseen else r }) }
    { (s.modPart part fun p => { p with cleared := true }) with unacked := s.unacked.filter fun x => x.1 / 16 ≠ part }

/-- Step 4 of a resync: the epoch of the partition advances on every die; before clear it only sets err. -/
def advanceEpoch (part : Nat) (s : State) : State :=
  if !(s.partAt part).cleared then { s with lnkErr := true }
  else (List.range 4).foldl (fun s d => s.modCausal d part fun c => { c with epoch := (c.epoch + 1) % 16 }) s

/-- LNKCTL_FENCE (R282). -/
def execLnkctlFence (mask : BitVec 4) (s : State) : Host.Outcome State Fault Refusal :=
  event (modify fun s => setFence mask (s.partAt s.lnkSel).quiesce s) s
/-- LNKCTL_QUIESCE (R283). -/
def execLnkctlQuiesce (part : Nat) (value : Bool) (s : State) : Host.Outcome State Fault Refusal :=
  event (do
    enabled (part < 8)
    modify fun s => setQuiesce part value { s with lnkSel := part }) s
/-- LNKCTL_DRAIN (R283). -/
def execLnkctlDrain (part : Nat) (s : State) : Host.Outcome State Fault Refusal :=
  event (do
    enabled (part < 8)
    modify fun s => drainPartition part { s with lnkSel := part }) s
/-- LNKCTL_CLEAR (R283). -/
def execLnkctlClear (part : Nat) (s : State) : Host.Outcome State Fault Refusal :=
  event (do
    enabled (part < 8)
    modify fun s => clearCausal part { s with lnkSel := part }) s
/-- LNKCTL_EPADV (R283). -/
def execLnkctlEpadv (part : Nat) (s : State) : Host.Outcome State Fault Refusal :=
  event (do
    enabled (part < 8)
    modify fun s => advanceEpoch part { s with lnkSel := part }) s

/-- TIME_SYNC_LOSS (R284): the die's tsl bit is set and 0x49 reported; its counter keeps running. -/
def execTimeSyncLoss (die : Nat) (s : State) : Host.Outcome State Fault Refusal :=
  event (do
    enabled (die < 4)
    modify fun s => reportRoot die { code := 0x49, kind := .r, detail := BitVec.ofNat 64 die }
      { s with tsl := s.tsl ||| BitVec.ofNat 4 (2 ^ die) }) s

/-- TIDE_TRANSIT (R286): the first packet at a tide port enters the die of the port, or goes on along its path; with no valid
path it bounces, and 0x47 is reported. -/
def execTideTransit (port : Nat) (s : State) : Host.Outcome State Fault Refusal :=
  event (do
    enabled (port < 16)
    let die := port / 4
    match tabGet s.tideIn port [] with
    | [] => throw .no
    | p :: r =>
      modify fun s => { s with tideIn := tabPut s.tideIn port r }
      let dev := epDevice p.ep
      let seq ← nextCommand
      let k := match p.tide with | some t => t.path | none => 0
      if dev = s.device then
        modify (ringPut die { p with
          stop := tideStop port, tide := some { (p.tide.getD { device := epDevice p.src, path := 0 }) with seq := seq } })
      else if s.pathValid dev k then
        modify (ringPut die { p with
          stop := tideStop port, tide := some { (p.tide.getD { device := dev, path := k }) with device := dev, path := k, seq := seq } })
      else
        modify (reportRoot die { code := 0x47, kind := .r })
        modify (turnBack die { p with tide := none } 0)) s

/-- The counts between this device and a peer that comes up again are zeroed (R287). -/
def Peer.fresh (x : Peer) : Peer :=
  { x with down := false, sent := [0, 0, 0, 0], got := [0, 0, 0, 0], acked := [0, 0, 0, 0], ackedAt := 0 }

/-- A path to a device goes down (R287): reported once, with 0x46. -/
def pathDown (peer path : Nat) (s : State) : State :=
  reportRoot (s.pathPort peer path / 4) { code := 0x46, kind := .r }
    (s.modPeer peer fun x => { x with up := x.up.set path false })

/-- PATH_DOWN (R287). -/
def execPathDown (peer path : Nat) (s : State) : Host.Outcome State Fault Refusal :=
  event (do
    enabled (path < 4 && s.pathValid peer path && nth (s.peerAt peer).up path true)
    modify (pathDown peer path)) s

/-- A write of sr.tidecfg (R287): the paths of the ports that it disables go down. -/
def writeTidecfg (v : Word) (s : State) : State :=
  let off := (List.range 16).filter fun p => bitOf s.tidecfg (12 + p) && !bitOf v (12 + p)
  let paths : List (Nat × Nat) := if off.isEmpty then [] else (List.range 4096).flatMap fun x =>
    ((pathsWith fun k => s.pathUp x k && off.contains (s.pathPort x k)).map fun k => (x, k))
  { (paths.foldl (fun s x => pathDown x.1 x.2 s) s) with tidecfg := v }

/-- PATH_UP (R287): the path is once more a candidate; where it is the first to a device whose every path was down, the peer is up. -/
def execPathUp (peer path : Nat) (s : State) : Host.Outcome State Fault Refusal :=
  event (do
    enabled (path < 4 && s.pathValid peer path && bitOf s.tidecfg (12 + s.pathPort peer path) && !nth (s.peerAt peer).up path true)
    let wasDown := (pathsWith (s.pathUp peer)).isEmpty && !(s.peerAt peer).down
    modify fun s => releaseStranded (s.modPeer peer fun x =>
      let x := { x with up := x.up.set path true }
      if wasDown then x.fresh else x)) s

/-- The journal entries of a core to a device become kept (R255), with the tasks that issued them. -/
def Core.keepTo (k : Core) (dev : Nat) : Core :=
  { k with journal := k.journal.map fun x => if epDevice x.2.ep = dev then (x.1, { x.2 with kept := true, answered := true }) else x }
/-- The journal entries of a core to a device: index and issuing task, one of each task. -/
def Core.issuersTo (k : Core) (dev : Nat) : List (Nat × Nat) :=
  (k.journal.filter fun x => epDevice x.2.ep == dev && !x.2.kept).foldl (fun l x =>
    if l.any fun e => e.2 == x.2.tid then l else l ++ [(x.1, x.2.tid)]) []

/-- Each bucket whose ring goes on to a device that is down reports 0x26 once (R398); its chunks wait at the egress. -/
def bucketsDown (dev d : Nat) (s : State) : State :=
  let due (b : Bucket) : Bool :=
    !b.writing.isSome && !b.downReported && fieldOf (tabGet (s.dieAt d).rings (16 * b.part + b.ring) 0) 39 28 == dev
  let hit := (s.dieAt d).buckets.filter due
  let s := s.modDie d fun x => { x with
    buckets := x.buckets.map fun (b : Bucket) => if due b then { b with downReported := true } else b }
  hit.foldl (fun s b => reportCore b.core { code := 0x26, kind := .r } s) s

/-- A chunk packet takes a path to another device (R286): that with the fewest bytes queued; one from another device keeps its path.
With none up, or no valid one for a packet in transit, it waits. -/
def routeChunk (p : ChunkPacket) (s : State) : State :=
  let path := if p.transit then (if s.pathValid p.device p.path then some p.path else none)
    else if s.deviceDown p.device then none else s.bestPath p.device
  match path with
  | none => { s with chunksOut := s.chunksOut ++ [p] }
  | some k =>
    let port := s.pathPort p.device k
    { s with chunkPorts := tabPut s.chunkPorts port (tabGet s.chunkPorts port [] ++ [{ p with path := k }]) }

/-- The chunk packets that wait for a path try again (R398). -/
def releaseChunks (s : State) : State := s.chunksOut.foldl (fun s p => routeChunk p s) { s with chunksOut := [] }

/-- A chunk packet arrives from another device: for this one, or on its way, with 0x47 where its path is not valid here (R286). -/
def chunkArrives (p : ChunkPacket) (s : State) : State :=
  if p.device = s.device then { s with chunks := s.chunks ++ [p] }
  else
    let p := { p with transit := true }
    let s := routeChunk p s
    if s.pathValid p.device p.path then s else reportRoot p.die { code := 0x47, kind := .r } s

/-- The first chunk packet at a tide port leaves on its link, while its path is up (R287, R398). -/
def chunkLeaves (port : Nat) (s : State) : State :=
  let s := releaseChunks s
  match tabGet s.chunkPorts port [] with
  | p :: r => if s.pathUp p.device p.path && (p.transit || !s.deviceDown p.device) then
      { s with chunkPorts := tabPut s.chunkPorts port r } else s
  | [] => s

/-- PEER_DOWN (R255, R287, R289): every valid path is down, or no acknowledgement has come for sr.acktmo (notes/assumptions/60.md). What is
held for the device bounces, and so do the ordered messages to it that it has not acknowledged and those from it that are held here; its
journal entries are kept and 0x26 is raised once per issuing task. -/
def execPeerDown (peer : Nat) (s : State) : Host.Outcome State Fault Refusal :=
  event (do
    let x := s.peerAt peer
    enabled (peer ≠ s.device && !x.down && !s.noRoute peer)
    let now ← readClock
    let s ← get
    let tmo := fieldOf (s.partAt 0).acktmo 31 0
    enabled ((pathsWith (s.pathUp peer)).isEmpty || (x.sent ≠ x.acked && tmo ≠ 0 && x.ackedAt + tmo * 1000 < now))
    let mine (p : Packet) : Bool := epDevice p.ep == peer && p.home.isNone && !p.stays
    let flags := x.flags.map fun p => (dieOf p.core, p)
    let far := s.dies.flatMap fun d => (d.2.flags.filter fun p => epDevice p.src == peer).map fun p => (d.1, p)
    let held := (s.ports.flatMap fun q => (q.2.filter mine).map fun p => (q.1 / 4, p)) ++
      (s.tideOut.flatMap fun q => (q.2.filter mine).map fun p => (q.1 / 4, p)) ++
      s.dies.flatMap fun d => (d.2.quiet.filter mine).map fun p => (d.1, p)
    let issuers := s.cores.flatMap fun c => (c.2.issuersTo peer).map fun e => (c.1, e)
    let away := s.blocks.flatMap fun b => (b.2.saved.zip b.2.originCores).flatMap fun k => (k.1.issuersTo peer).map fun e => (k.2, e)
    let drop (q : Nat × List Packet) : Nat × List Packet := (q.1, q.2.filter fun p => !mine p)
    let keep (c : Nat × Core) : Nat × Core := (c.1, c.2.keepTo peer)
    let keepSaved (b : Nat × Block) : Nat × Block := (b.1, { b.2 with saved := b.2.saved.map (·.keepTo peer) })
    let rest (d : Nat × Die) : Nat × Die := (d.1, { d.2 with
      quiet := d.2.quiet.filter fun p => !mine p
      flags := d.2.flags.filter fun p => epDevice p.src ≠ peer
      ring := d.2.ring.filter fun f => !(mine f.packet && f.packet.flag.isSome) })
    set { (s.modPeer peer fun x => { x with down := true, flags := [] }) with
      ports := s.ports.map drop, tideOut := s.tideOut.map drop, dies := s.dies.map rest, cores := s.cores.map keep
      blocks := s.blocks.map keepSaved }
    modify fun s => held.foldl (fun s h => returnHeld h.1 h.2 s) s
    modify fun s => (flags ++ far).foldl (fun s h => turnBack h.1 h.2 0 s) s
    modify fun s => (issuers ++ away).foldl
      (fun s i => raiseAsync i.1 i.2.2 { code := 0x26, kind := .a, jix := some i.2.1 } s) s
    modify fun s => (List.range 4).foldl (fun s d => bucketsDown peer d s) s) s

/-- PEER_UP (R287): both devices zero their counts of each other before anything new is sent. -/
def execPeerUp (peer : Nat) (s : State) : Host.Outcome State Fault Refusal :=
  event (do
    enabled ((s.peerAt peer).down && !(pathsWith (s.pathUp peer)).isEmpty)
    modify fun s => s.modPeer peer Peer.fresh) s

/-- ORDERED_FLAG_ARRIVAL (R288): an ordered packet whose counts are not met is held; a count 32,768 ahead reports 0x2A. -/
def execOrderedFlagArrival (die index : Nat) (s : State) : Host.Outcome State Fault Refusal :=
  event (do
    let f ← flightAt die index
    let p := f.packet
    enabled (s.mustHold p && !(s.target die p).goesOn)
    match ← forwarded die index p with
    | none => pure ()
    | some _ =>
      flightGone die index
      let far := match p.tide with
        | some { device := dev, ordered := some c, .. } =>
          (List.range 4).any fun k => (nth c k 0 + 65536 - nth (s.peerAt dev).got k 0) % 65536 = 32768
        | _ => false
      if far then modify (report p.part die 0 { code := 0x2A, kind := .r } 0 0)
      modify fun s => s.modDie die fun x => { x with flags := x.flags ++ [p] }) s

/-- May a held packet be performed: its counts are met, and a message finds room? -/
def State.flagReady (s : State) (d : Nat) (p : Packet) : Bool :=
  s.countsMet p && (match p.kind with | .message .. => s.spillReady d p | _ => true)

/-- ORDERED_FLAG_RELEASE (R288): the first held packet that may be performed is. -/
def execOrderedFlagRelease (die : Nat) (s : State) : Host.Outcome State Fault Refusal :=
  event (do
    let p ← orNo ((s.dieAt die).flags.find? (s.flagReady die))
    modify fun s => s.modDie die fun x => { x with flags := x.flags.erase p }
    match s.target die p, p.kind with
    | .moved e, _ => modify (passOn die p (.moved e))
    | .gone, _ => modify (turnBack die p 0x29)
    | t, .message h0 h1 pl credit => modify (performMessage die p t h0 h1 pl credit)
    | t, _ => modify (performStore die p t)) s

end Sys2Proof.Machine
end

