-- ==== Sys2Proof/Machine/Sequencer.lean ====
section
/-! DEFINITION. Branches, jumps, loops, frames, queue registers and the A sequencer (spec/04, majors 0x0C to 0x18). -/

namespace Sys2Proof.Machine

/-- A conditional branch (R62): no register is written and no memory touched. -/
def branch (taken : Bool) (o : BitVec 16) (s : State) : Host.Outcome State Fault Refusal :=
  .next (complete .plain 4 (if taken then .branch (targetOf s.pc o) else .seq) s)

/-- BEQ (R62). -/
def execBeq (a b : BitVec 5) (o : BitVec 16) (s : State) : Host.Outcome State Fault Refusal := branch (s.rg a == s.rg b) o s
/-- BNE (R62). -/
def execBne (a b : BitVec 5) (o : BitVec 16) (s : State) : Host.Outcome State Fault Refusal := branch (s.rg a != s.rg b) o s
/-- BLT (R62). -/
def execBlt (a b : BitVec 5) (o : BitVec 16) (s : State) : Host.Outcome State Fault Refusal := branch ((s.rg a).slt (s.rg b)) o s
/-- BGE (R62). -/
def execBge (a b : BitVec 5) (o : BitVec 16) (s : State) : Host.Outcome State Fault Refusal := branch ((s.rg b).sle (s.rg a)) o s
/-- BLTZ (R62). -/
def execBltz (a : BitVec 5) (o : BitVec 16) (s : State) : Host.Outcome State Fault Refusal := branch ((s.rg a).slt 0) o s
/-- BGEZ (R62). -/
def execBgez (a : BitVec 5) (o : BitVec 16) (s : State) : Host.Outcome State Fault Refusal := branch (!(s.rg a).slt 0) o s

/-- J (R63). -/
def execJ (o : BitVec 26) (s : State) : Host.Outcome State Fault Refusal :=
  .next (complete .plain 4 (.branch (targetOf s.pc o)) s)

/-- CALL (R63): g31 takes the return address; an active loop stays active (R68). -/
def execCall (o : BitVec 26) (s : State) : Host.Outcome State Fault Refusal :=
  .next (complete .other 4 (.leave (targetOf s.pc o)) (s.wg 31 (s.pc + 4)))

/-- JR (R64): the target is read before the link is written; with a link an active loop stays active (R68). -/
def execJr (d a : BitVec 5) (s : State) : Host.Outcome State Fault Refusal :=
  let t := s.rg a
  .next (complete .other 4 (if d = 0 then .jump t else .leave t) (s.wg d (s.pc + 4)))

/-- LOOP (R66): it starts a loop of g[a] passes, or skips the body. -/
def execLoop (a : BitVec 5) (i : BitVec 16) (s : State) : Host.Outcome State Fault Refusal :=
  issue .other 4 (do
    let s ← get
    let p := s.pc
    let lc := if s.cur.a then s.task.a.lc else s.task.lc
    check (lc ≠ 0) 0x09
    let n := s.rg a
    let after := p + 4#64 * zimm i
    if n = 0 then return .leave after
    if s.cur.a then modTaskM fun t => { t with a := { t.a with lc := n, ls := p + 4, le := after - 4, lcNext := none } }
    else modTaskM fun t => { t with lc := n, ls := p + 4, le := after - 4, lcNext := none }
    return .seq) s

/-- May a frame body hold an instruction (R70)? -/
def frameAllows : Instr → Bool
  | .ldl .. => false
  | .qget .. | .qset .. | .qlen .. | .bqp .. => true
  | .vopt .. => false
  | .mma .. => true
  | i =>
    match encode i with
    | [w] =>
      let m := (w.extractLsb' 26 6).toNat
      (1 ≤ m && m ≤ 9) || m == 0x0B || m == 0x27 || m == 0x29 || m == 0x2A
    | _ => false

/-- Does an encoded instruction exist on this kind of core and sequencer (R53, R54, R83, R185, R211, R262, R345, R360, R392)?
Where not, its word is an undefined encoding there. The A sequencer executes the classes of R54 alone. -/
def allowedHere (core : Nat) (a : Bool) (i : Instr) : Bool :=
  match encode i with
  | w :: _ =>
    let m := (w.extractLsb' 26 6).toNat
    let sub := (w.extractLsb' 21 5).toNat
    if a then
      (1 ≤ m && m ≤ 0x12) || m == 0x15 || m == 0x17 || m == 0x18 || m == 0x1A || m == 0x1C || (m == 0x1E && sub == 2)
    else if isWork core then !(m == 0x2D && (sub == 1 || sub == 2))
    else
      let gone := m == 0x17 || (m == 0x18 && sub == 0) || (m == 0x19 && (sub ≤ 2 || sub == 6)) || m == 0x26 || (0x27 ≤ m && m ≤ 0x2B)
      let pilotGone := isPilot core && (0x2C ≤ m && m ≤ 0x2E)
      !gone && !pilotGone
  | [] => false

/-- The cause that a fetch meets (steps 1 to 4 of R27): its address is that of the transferring instruction (R29), or the fetch's own
where no instruction transferred (notes/assumptions/63.md). -/
def fetchCause (code : Nat) (p : Word) (via : Option Word) (aSeq : Bool) : Cause :=
  { code := code, kind := .p, addr := via.getD p, aSeq := aSeq }

/-- Steps 1 to 3 of R27 for the word at `p`: alignment, translation, permission. A miss walks (R449), for the instruction at the
PC: FRAME's word 1 and the words of a body are fetched under its PC (R27, R69, R72). -/
def fetchPlace (p : Word) (via : Option Word) : M (Nat × TlbEntry) := do
  shipAnswered p
  let s ← get
  let core := s.cur.core
  let t := s.task
  let bad (code : Nat) : M Unit := throw (.trap (fetchCause code p via s.cur.a))
  if p.toNat % 4 ≠ 0 then bad 0x03
  if !isVirtual p then bad 0x04
  let asid := s.asidOf core
  match ← tlbSearch core asid p.toNat true with
  | none =>
    if s.joinedTicket t asid p then throw .stall
    modify (startWalk core asid p 2 t.priv false 0 (.task core t.tid s.cur.a 1 s.pc (via.getD p))); throw .stall
  | some e =>
    if !e.x || (!e.u && !t.priv) then bad 0x05
    return (e.paOf p.toNat, e)

/-- The word that a fetch may still return in place of the one in memory (R30): the one that the instruction cache holds, or, if a
store has changed the word since the cache was emptied, the one before that store. -/
def State.oldWord (s : State) (core ix : Nat) : Option (BitVec 32) :=
  let k := s.coreAt core
  match tabFind k.icache ix with
  | some w => some w
  | none => match tabFind s.rewritten ix with
    | some (n, w) => if k.icacheFrom ≤ n then some w else none
    | none => none

/-- The instruction cache takes a word; it holds 8,192 of them, 32 KiB, and gives up the one it has held longest (R9;
notes/assumptions/7.md). -/
def Core.capture (k : Core) (ix : Nat) (w : BitVec 32) : Core :=
  if (tabFind k.icache ix).isSome then k else { k with icache := ((ix, w) :: k.icache).take 8192, icacheBad := markDel k.icacheBad ix }

/-- Fetch a word (R30, steps 1 to 4 of R27): from the instruction cache, or through L2; a word rewritten since the cache was emptied
may be returned old or new; an uncorrectable word raises 0x0E. -/
def fetchWord (p : Word) (via : Option Word) : M (BitVec 32) := do
  let (pa, e) ← fetchPlace p via
  let s ← get
  let core := s.cur.core
  if (tabFind (s.coreAt core).icache (pa / 4)).isSome then
    if (s.coreAt core).icacheBad.contains (pa / 4) then throw (.trap (fetchCause 0x0E p via s.cur.a))
  else
    acquire (dieOf core) (coveOf core) core pa e.nc e.sq false
    let t ← get
    if t.uncorrectable pa 4 || t.poisoned pa 4 then throw (.trap (fetchCause 0x0E p via s.cur.a))
  let s ← get
  let new := s.codeWord (dieOf core) pa e.sq
  let old := (s.oldWord core (pa / 4)).getD new
  modCC fun k => k.capture (pa / 4) old
  if old = new then return new
  else
    modify fun s => { s with tick := s.tick + 1 }
    return if Config.fetchesOld s.tick then old else new

/-- A frame body's words, fetched and checked (R69): fetch causes, 0x00, 0x01, then 0x0A; the record's PC stays, its address
names the word. A word of major 0x16 is decoded with the word after it (R25). The words are taken in order of address, each to its
last check before the next (notes/assumptions/57.md). -/
def captureBody (base : Word) : Nat → M (List (BitVec 32))
  | 0 => pure []
  | n + 1 => do
    let w ← fetchWord base (some base)
    let v ← (if isFrameWord w then fetchWord (base + 4) (some (base + 4)) else pure 0)
    match decodeWords w v with
    | none => trapP 0x00 base
    | some (i, ok) =>
      if !allowedHere (← curCore) false i then trapP 0x00 base
      check (!ok) 0x01 base
      check (!frameAllows i) 0x0A base
    let r ← captureBody (base + 4) n
    return w :: r

/-- The instruction of a word (steps 5 and 6 of R27): 0x00 for an undefined encoding or one that this core and sequencer do not
have, 0x01 for a reserved field. -/
def wordInstr (w v : BitVec 32) : M Instr := do
  match decodeWords w v with
  | none => trapP 0x00
  | some (i, ok) =>
    let s ← get
    check (!allowedHere s.cur.core s.cur.a i) 0x00
    check (!ok) 0x01
    return i

/-- The next instruction of the current agent: inside a frame the captured word of its body, rechecked after an interruption
(R72); else the word at the PC, and for FRAME the one after it (R15, R27). -/
def fetchInstr : M Instr := do
  let s ← get
  let t := s.task
  if t.frame.act && !s.cur.a then
    let f := t.frame
    let body ← (if f.recheck then captureBody f.base (f.len + 1) else pure f.body)
    if f.recheck then modTaskM fun t => { t with frame := { t.frame with body := body, recheck := false } }
    wordInstr (nth body f.idx 0) 0
  else
    let w ← fetchWord s.pc (if s.cur.a then t.a.via else t.via)
    let v ← (if isFrameWord w then fetchWord (s.pc + 4) (some (s.pc + 4)) else pure 0)
    wordInstr w v

/-- FRAME (R69): the body is captured and checked, and the first pass starts; a count of zero skips it. -/
def execFrame (len ra : BitVec 5) (stg : BitVec 4) (cnt : BitVec 16) (rot : BitVec 5) (s : State) : Host.Outcome State Fault Refusal :=
  issue .other 8 (do
    let p ← pcM
    let n := len.toNat + 1
    let body ← captureBody (p + 8) n
    let g ← rg ra
    let count := if ra ≠ 0 then g else zimm cnt + 1
    if count = 0 then return .leave (p + 8 + BitVec.ofNat 64 (4 * n))
    modTaskM fun t => { t with
      frame := { act := true, base := p + 8, len := len.toNat, stg := stg.toNat, rot := rot.toNat, left := count, body := body } }
    return .leave (p + 8)) s

/-- A bank 1 task may use no queue (R61): 0x0B. -/
def queueBank : M Unit := do check ((← get).urgent) 0x0B

/-- Is the other sequencer inactive, so that a wait on a full or empty queue would never end (R60)? -/
def lone : M Bool := do
  return !(← taskM).a.active

/-- The stream bound to q4 to q7. -/
def streamOf (q : BitVec 3) : M (Option Stream) := do return tabFind (← taskM).streams q.toNat

/-- QGET (R60): pop an entry; an empty q0 to q3 with no other sequencer, an unbound q4 to q7, or a faulted stream, whatever it still
holds (R266), raises 0x1F; so does one bound outbound (notes/assumptions/65.md). -/
def execQget (a : BitVec 5) (q : BitVec 3) (s : State) : Host.Outcome State Fault Refusal :=
  issue .other 4 (do
    queueBank
    if h : q.toNat < 4 then
      match (← taskM).q[q.toNat] with
      | v :: r =>
        modTaskM fun t => { t with q := t.q.set q.toNat r }
        wg a v; return .seq
      | [] => check (← lone) 0x1F; throw .wait
    else
      match ← streamOf q with
      | none => trapP 0x1F
      | some st =>
        check (!st.inward || st.fault) 0x1F
        match st.queue with
        | v :: r =>
          let st := { st with queue := r, handed := st.handed + 1 }
          let ended := st.handed = st.count
          modTaskM fun t => { t with
            streams := if ended then tabDel t.streams q.toNat else tabPut t.streams q.toNat st }
          wg a v; return .seq
        | [] => throw .wait) s

/-- QSET (R60): push an entry; a full q0 to q3 with no other sequencer, or a q4 to q7 not bound outbound, raises 0x1F. On a stream
whose whole count is pushed it waits until the stream has ended (notes/assumptions/65.md). -/
def execQset (a : BitVec 5) (q : BitVec 3) (s : State) : Host.Outcome State Fault Refusal :=
  issue .other 4 (do
    queueBank
    let v ← rg a
    if h : q.toNat < 4 then
      let l := (← taskM).q[q.toNat]
      if l.length < 8 then modTaskM fun t => { t with q := t.q.set q.toNat (l ++ [v]) }
      else check (← lone) 0x1F; throw .wait
      return .seq
    else
      match ← streamOf q with
      | none => trapP 0x1F
      | some st =>
        check (st.inward || st.fault) 0x1F
        waitUntil (st.queue.length < 32 && st.handed < st.count)
        modTaskM fun t => { t with
          streams := tabPut t.streams q.toNat { st with queue := st.queue ++ [v], handed := st.handed + 1 } }
        return .seq) s

/-- QLEN (R60): the entries held now; 0 for an unbound q4 to q7. -/
def execQlen (a : BitVec 5) (q : BitVec 3) (s : State) : Host.Outcome State Fault Refusal :=
  issue .other 4 (do
    queueBank
    let t ← taskM
    let n := if h : q.toNat < 4 then t.q[q.toNat].length
      else match tabFind t.streams q.toNat with | some st => st.queue.length | none => 0
    wg a (BitVec.ofNat 64 n); return .seq) s

/-- BQP (R60): push a branch outcome. -/
def execBqp (a : BitVec 5) (s : State) : Host.Outcome State Fault Refusal :=
  issue .other 4 (do
    queueBank
    let v ← rg a
    let t ← taskM
    if t.bq.length < 16 then modTaskM fun t => { t with bq := t.bq ++ [v != 0] }
    else check (← lone) 0x1F; throw .wait
    return .seq) s

/-- BQB (R60): pop a branch outcome, and branch on a 1. -/
def execBqb (o : BitVec 16) (s : State) : Host.Outcome State Fault Refusal :=
  issue .other 4 (do
    queueBank
    match (← taskM).bq with
    | b :: r =>
      modTaskM fun t => { t with bq := r }
      let p ← pcM
      return if b then .jump (targetOf p o) else .seq
    | [] => check (← lone) 0x1F; throw .wait) s

/-- SPLIT (R57): A starts at the target with a copy of bank 0 and loop registers of zero; on A, or with A active, it raises
0x0C. -/
def execSplit (i : BitVec 21) (s : State) : Host.Outcome State Fault Refusal :=
  issue .other 4 (do
    queueBank
    let t ← taskM
    check t.a.active 0x0C
    let p ← pcM
    modTaskM fun t => { t with a := { active := true, pc := targetOf p i, via := some p, g := t.g } }
    return .seq) s

/-- AEND (R57): on A it ends A, as one more instruction of the task (R89, R406); on E it waits until A is inactive. -/
def execAend (s : State) : Host.Outcome State Fault Refusal :=
  issue .other 4 (do
    queueBank
    let s ← get
    if s.cur.a then
      let next : ASeq := if s.task.stepping then { pc := s.pc + 4 } else {}
      modTaskM fun t => { t with a := next, stepping := false, lee := t.lee - 1 }
      if s.task.stepping then modify (takeTrap s.cur.core s.urgent { code := 0x0D, kind := .n, aSeq := true })
      return .gone
    else
      waitUntil !(← taskM).a.active
      return .seq) s

end Sys2Proof.Machine
end

