-- ==== Sys2Proof/Machine/Copy.lean ====
section
/-! DEFINITION. The copy engine and the element streams (R262 to R268, major 0x26), and the completions of the engines (R188). -/

namespace Sys2Proof.Machine

/-- The payload of a completion (R188). -/
def completionWords (kind status : Nat) (pc : Word) (d2 d3 : Word) : List Word :=
  [BitVec.ofNat 64 (kind + status * 256), pc, d2, d3, 0, 0, 0, 0]

/-- An engine of a core sends a completion for a task. -/
def complain (core tid : Nat) (payload : List Word) (s : State) : State :=
  s.modCore core fun k => { k with completions := k.completions ++ [{ core := core, tid := tid, payload := payload }] }

/-- The source kind of a completion. -/
def Completion.kind (c : Completion) : Nat := fieldOf (nth c.payload 0 0) 7 0

/-- The inbox entry of a completion (R188). -/
def Completion.entry (c : Completion) (ep : BitVec 29) (time : Nat) : InboxEntry :=
  { id := 0, h0 := header0 ep 7 false false 0 0 8 1 false, h1 := BitVec.ofNat 64 time, payload := c.payload, credit := false
    owner := some c.tid }

/-- A completion for a task that has left its core is discarded, and a vector one counted (R188). -/
def Core.discardCompletion (c : Completion) (k : Core) : Core :=
  if c.kind = 1 then { k with vstat := bumpField k.vstat 15 8 1 } else k

/-- The completions of a core of an absent block enter its inbox in the frame while that has room (R246, R398). -/
def deliverSaved (u r : Nat) : Nat → State → State
  | 0, s => s
  | fuel + 1, s =>
    match s.targetCore (.saved u r), tabFind s.blocks u with
    | some k, some b =>
      match k.completions with
      | [] => s
      | c :: rest =>
        let t := s.modTarget (.saved u r) fun k => { k with completions := rest }
        if k.tasks.any fun x => x.tid == c.tid then
          if k.inboxRoom 7 then
            let t := { t with now := t.now + Config.elapsed t.tick, tick := t.tick + 1 }
            deliverSaved u r fuel
              (inboxArrive (.saved u r) (c.entry (endpoint r b.originCrew b.originDie s.device) t.now) t)
          else s
        else deliverSaved u r fuel (t.modTarget (.saved u r) (Core.discardCompletion c))
    | _, _ => s

/-- The absent block that holds a task, and the rank of its core. -/
def State.savedTask (s : State) (tid : Nat) : Option (Nat × Nat) :=
  s.blocks.findSome? fun b => (b.2.saved.findIdx? fun k => k.tasks.any fun t => t.tid == tid).map fun r => (b.1, r)

/-- A unit of a die sends a completion for a task wherever its block stands: into the frame of an absent block (R398); one for a task
that has ended is discarded. -/
def complainTask (tid : Nat) (payload : List Word) (s : State) : State :=
  match s.coreOfTask tid with
  | some c => complain c tid payload s
  | none =>
    match s.savedTask tid with
    | some (u, r) =>
      let s := s.modTarget (.saved u r) fun k => { k with
        completions := k.completions ++ [{ core := 0, tid := tid, payload := payload }] }
      deliverSaved u r (match s.targetCore (.saved u r) with | some k => k.completions.length | none => 0) s
    | none => s

/-- A completion of a kind that waits for room holds back what its engine does later (R188). -/
def Core.completionWaits (k : Core) (kind : Nat) : Bool := k.completions.any fun c => c.kind == kind

/-- ENGINE_COMPLETION_DELIVERY (R188, R262): the first completion enters the inbox of its core once there is room; one for a task
that has left the core is discarded, and a vector one counted. -/
def execEngineCompletionDelivery (core : Nat) (s : State) : Host.Outcome State Fault Refusal :=
  event (do
    let k := s.coreAt core
    match k.completions with
    | [] => throw .no
    | c :: r =>
      modify fun s => s.modCore core fun k => { k with completions := r }
      if k.tasks.any fun t => t.tid == c.tid then
        enabled (k.inboxRoom 7)
        let time ← readClock
        modify fun s => inboxArrive (.core core) (c.entry (s.endpointOf core) time) s
      else modify fun s => s.modCore core (Core.discardCompletion c)) s

/-- The length that a copy instruction takes (R264): 0x52 with cause 0 beyond 2^24 − 1. -/
def copyFault : M Unit := do
  modCC fun k => { k with cflt := 0 }
  trapP 0x52

/-- Does a local range of a copy fail R103 or touch the capability table (R264)? -/
def localRange (ea : Word) (n : Nat) : M Unit := do
  if bitOf ea 63 && n ≠ 0 then
    let s ← get
    check (localBad (s.coreAt s.cur.core) ea n) 0x14 ea
    let t := s.tableAt s.cur.core
    let o := fieldOf ea 17 0
    check (o < t + 256 && t < o + n) 0x21 ea

/-- Queue a copy command (R262): after the store buffer is drained, once the queue has room: two commands beside the one that
is performed (notes/assumptions/19.md). A wait under a window ends with 0x2C where that is revoked meanwhile (R259). -/
def queueCopy (kind : CopyKind) (dst src : Word) (rb rows : Nat) (ds ss : Int) (n : BitVec 1) : M Unit := do
  if (← cc).cq.length ≥ 3 then
    match kind with
    | .copy => throw .wait
    | .put _ _ cap _ => sendWaits [cap]
    | .get _ _ cap => sendWaits [cap]
  drain
  let id ← nextCommand
  let s ← get
  let c : CopyCommand := {
    id := id, kind := kind, dst := dst, src := src, rowBytes := rb, rows := rows, dstStride := ds, srcStride := ss
    notify := n = 1, tid := s.task.tid, pc := s.pc, asid := s.asidOf s.cur.core, priv := s.task.priv }
  modCC fun k => { k with cq := k.cq ++ [c] }

/-- CPY (R264). -/
def execCpy (a b c : BitVec 5) (n : BitVec 1) (s : State) : Host.Outcome State Fault Refusal :=
  other (do
    let dst ← rg a
    let src ← rg b
    let len ← rg c
    if len.toNat ≥ 2 ^ 24 then copyFault
    localRange dst len.toNat
    localRange src len.toNat
    queueCopy .copy dst src len.toNat 1 0 0 n) s

/-- CPY2 (R264). -/
def execCpy2 (a : BitVec 5) (n : BitVec 1) (s : State) : Host.Outcome State Fault Refusal :=
  other (do
    let ea ← rg a
    check (ea.toNat % 64 ≠ 0) 0x10 ea
    let w ← loadWords ea 8
    let rb := fieldOf (nth w 2 0) 31 0
    let nr := fieldOf (nth w 2 0) 63 32
    let ds := (nth w 3 0).toInt
    let ss := (nth w 4 0).toInt
    check (nth w 5 0 ≠ 0 || nth w 6 0 ≠ 0 || nth w 7 0 ≠ 0) 0x01
    if rb = 0 || rb ≥ 2 ^ 24 || nr = 0 || nr > 65536 then copyFault
    each (fun (i : Nat) => do
      localRange (nth w 0 0 + wordOfInt (ds * i)) rb
      localRange (nth w 1 0 + wordOfInt (ss * i)) rb) (List.range nr)
    queueCopy .copy (nth w 0 0) (nth w 1 0) rb nr ds ss n) s

/-- The checks of cput and cget on their window (R265). -/
def windowChecks (k : BitVec 4) (right : Nat) (off len : Word) (ordered : Bool) : M (Word × Word) := do
  sendRevoked
  let e ← capM k.toNat
  let w1 := (← get).cap1 (← curCore) k.toNat
  check (capKind e ≠ 2) 0x20
  check ((← cc).revoking.contains k.toNat) 0x2C
  check (!capRight e right || (ordered && !capRight e 6) || off.toNat + len.toNat > winLen w1) 0x21
  reachable (capEp e)
  return (e, w1)

/-- CPUT (R265). -/
def execCput (a b c : BitVec 5) (o n : BitVec 1) (k : BitVec 4) (s : State) : Host.Outcome State Fault Refusal :=
  other (do
    let off ← rg a
    let len ← rg c
    let (e, w1) ← windowChecks k 7 off len (o = 1)
    queueCopy (.put (capEp e) (capClass e) k.toNat (o = 1)) (BitVec.ofNat 64 (winBase w1) + off) (← rg b) len.toNat 1 0 0 n) s

/-- CGET (R265). -/
def execCget (a b c : BitVec 5) (n : BitVec 1) (k : BitVec 4) (s : State) : Host.Outcome State Fault Refusal :=
  other (do
    let off ← rg b
    let len ← rg c
    let (e, w1) ← windowChecks k 9 off len false
    queueCopy (.get (capEp e) (capClass e) k.toNat) (← rg a) (BitVec.ofNat 64 (winBase w1) + off) len.toNat 1 0 0 n) s

/-- Bind a queue to a stream (R266). -/
def bindStream (inward : Bool) (a b : BitVec 5) (q : BitVec 3) : M Unit := do
  queueBank
  check (q.toNat < 4) 0x1F
  check ((tabFind (← taskM).streams q.toNat).isSome) 0x1F
  let base ← rg a
  let w ← rg b
  let count := fieldOf w 31 0
  let stride := fieldOf w 63 32
  check (count = 0) 0x1F
  check (base.toNat % 8 ≠ 0 || stride % 8 ≠ 0) 0x10 base
  drain
  modTaskM fun t => { t with
    streams := tabPut t.streams q.toNat { inward := inward, base := base, stride := stride, count := count } }

/-- CBIND_IN (R266). -/
def execCbindIn (a b : BitVec 5) (q : BitVec 3) (s : State) : Host.Outcome State Fault Refusal := other (bindStream true a b q) s
/-- CBIND_OUT (R266). -/
def execCbindOut (a b : BitVec 5) (q : BitVec 3) (s : State) : Host.Outcome State Fault Refusal := other (bindStream false a b q) s
/-- CBIND_OFF (R266): an inward stream is discarded; an outward one first stores what was pushed. -/
def execCbindOff (q : BitVec 3) (s : State) : Host.Outcome State Fault Refusal :=
  other (do
    queueBank
    check (q.toNat < 4) 0x1F
    match tabFind (← taskM).streams q.toNat with
    | none => pure ()
    | some st =>
      waitUntil (st.inward || st.queue.isEmpty || st.fault)
      modTaskM fun t => { t with streams := tabDel t.streams q.toNat }) s

/-- The status of a copy that a cause ended (R262, R267): 1 translation fault, 2 address fault. -/
def copyStatus (cause : Nat) : Nat := if cause = 0x14 || cause = 0x19 || cause = 0x1E then 2 else 1

/-- The head command of a core's copy engine changed. -/
def modHead (core : Nat) (f : CopyCommand → CopyCommand) : M Unit :=
  modify fun s => s.modCore core fun k => match k.cq with
    | c :: r => { k with cq := f c :: r }
    | [] => k

/-- A copy command ends (R262, R267): its cause is raised, and its completion follows. -/
def finishCopy (core : Nat) (c : CopyCommand) : M Unit := do
  modify fun s => s.modCore core fun k => { k with cq := k.cq.drop 1 }
  if c.status ≠ 0 then
    modify fun s => raiseAsync core c.tid { code := 0x52, kind := .a, addr := c.fault, sub := c.cause }
      (s.modCore core fun k => { k with cflt := BitVec.ofNat 64 c.cause })
  if c.notify then modify (complain core c.tid (completionWords 2 c.status c.pc (BitVec.ofNat 64 c.written) 0))

/-- The address of a command's next byte: on the destination's side, or the source's. -/
def CopyCommand.dstAt (c : CopyCommand) : Word := c.dst + wordOfInt (c.dstStride * c.row + c.done)
/-- The source address of a command's next byte. -/
def CopyCommand.srcAt (c : CopyCommand) : Word := c.src + wordOfInt (c.srcStride * c.row + c.done)

/-- A command advances by bytes of its row. -/
def CopyCommand.advance (c : CopyCommand) (n : Nat) : CopyCommand :=
  if c.done + n = c.rowBytes then { c with row := c.row + 1, done := 0 } else { c with done := c.done + n }

/-- Read one source range of an engine, of any alignment; poison is a fault of the consumer (R433). -/
def copyRead (core : Nat) (c : CopyCommand) (ea : Word) (n : Nat) : M (Except (Nat × Word) (List Byte)) := do
  match ← engineLoad (coreTag core 1) core c.asid c.priv ea n with
  | .error e => return .error e
  | .ok (b, bad) => return if bad then .error (0x19, ea) else .ok b

/-- Does a local destination of an engine touch the core's capability table (R236)? -/
def State.engineTable (s : State) (core : Nat) (ea : Word) (n : Nat) : Bool :=
  let t := s.tableAt core
  let o := fieldOf ea 17 0
  bitOf ea 63 && fieldOf ea 62 18 == 0 && o < t + 256 && t < o + n

/-- Write one piece within a destination sector. A write into the capability table is refused (R236). -/
def copyWrite (core : Nat) (c : CopyCommand) (ea : Word) (bytes : List Byte) : M (Except Nat Unit) := do
  if (← get).engineTable core ea bytes.length then return .error 0x24
  match ← enginePlace (coreTag core 1) core c.asid c.priv ea bytes.length true with
  | .error e => return .error e
  | .ok p => engineWrite core p bytes

/-- A command stops at a fault of its own accesses; data that a get brought and it has not written are dropped. -/
def stopCopy (core cause : Nat) (addr : Word) : M Unit :=
  modHead core fun c => { (c.endWith (if cause = 0x24 then 5 else copyStatus cause) cause addr) with data := [] }

/-- One sector of a copy within the device (R262): the source is read just before its destination is written. -/
def stepCopy (core : Nat) (c : CopyCommand) : M Unit := do
  let n := min (sectorLeft c.dstAt) (c.rowBytes - c.done)
  match ← copyRead core c c.srcAt n with
  | .error (e, ea) => stopCopy core e ea
  | .ok b =>
    match ← copyWrite core c c.dstAt b with
    | .error e => stopCopy core e c.dstAt
    | .ok () => modHead core fun c => { (c.advance n) with written := c.written + n }

/-- The bytes of the next packet of a cput or cget (R273): whole sectors of the destination, at most eight. -/
def packetBytes (ea : Word) (left : Nat) : Nat := min left (224 + sectorLeft ea)

/-- Bytes from an offset of a scratchpad, once others have been written from offset `lo`. -/
def overlay (lo : Nat) (new : List Byte) (off : Nat) (b : List Byte) : List Byte :=
  (List.range b.length).map fun k => if lo ≤ off + k ∧ off + k < lo + new.length then nth new (off + k - lo) 0 else nth b k 0

/-- The pieces of a range that a packet carries, read while no fault is met. In a packet for the core's own scratchpad, from offset
`own`, each source sector is read as it is when the sectors before it, `done`, have been written (R262). -/
def readPieces (core : Nat) (c : CopyCommand) (own : Option Nat) (done : List Byte) (src : Word) :
    List (Word × Nat) → M (List Byte × Option (Nat × Word))
  | [] => return (done, none)
  | (_, n) :: r => do
    match ← copyRead core c src n with
    | .error e => return (done, some e)
    | .ok b =>
      let b := match own with
        | some lo => if bitOf src 63 then overlay lo done (fieldOf src 17 0) b else b
        | none => b
      readPieces core c own (done ++ b) (src + BitVec.ofNat 64 n) r

/-- A packet of the copy engine. -/
def CopyCommand.packet (c : CopyCommand) (core : Nat) (ep : BitVec 29) (cls : Nat) (kind : PacketKind) (s : State) : Packet :=
  { kind := kind, ep := ep, src := s.endpointOf core, core := core, tid := c.tid, part := s.partOf core, cls := cls
    stop := stopOf core }

/-- A packet of a command leaves. -/
def launchCopy (core : Nat) (p : Packet) : M Unit := do
  modHead core fun c => { c with sent := c.sent + 1 }
  modify (inject (dieOf core) p)

/-- The next packet of a cput. Within the package it follows the answer to the one before, so that sectors land in ascending order and
none lands beyond one that is refused (R262, R265). The last of one with .o is an ordered flag, which waits for room in the counts
(R288). -/
def stepPut (core : Nat) (c : CopyCommand) (ep : BitVec 29) (cls : Nat) (ordered : Bool) : M Unit := do
  let s ← get
  let n := packetBytes c.dstAt (c.rowBytes - c.done)
  let last := c.done + n = c.rowBytes
  let flag := ordered && last && epDevice ep ≠ s.device
  enabled ((c.acked = c.sent || epDevice ep ≠ s.device) && (!flag || s.orderedRoom (epDevice ep)))
  let own := if ep == s.endpointOf core then some c.dstAt.toNat else none
  let (b, e) ← readPieces core c own [] c.srcAt (sectors c.dstAt n 10)
  match e with
  | some (x, ea) => stopCopy core x ea
  | none => pure ()
  if !b.isEmpty then
    let s ← get
    let p := c.packet core ep cls (.put c.id c.dstAt.toNat b [] last) s
    launchCopy core { p with tide := if flag then some { device := epDevice ep, path := 0, ordered := some [] } else none }
    modHead core fun c => c.advance b.length

/-- The next step of a cget: a request, or the sectors of the data that came back; of a window onto the core's own scratchpad, the bytes
still to be written are as the sectors written before them leave them (R262). -/
def stepGet (core : Nat) (c : CopyCommand) (ep : BitVec 29) (cls : Nat) : M Unit := do
  if c.data.isEmpty then
    let n := packetBytes c.dstAt (c.rowBytes - c.done)
    let s ← get
    launchCopy core (c.packet core ep cls (.getRequest c.id c.srcAt.toNat n) s)
  else
    let n := min (sectorLeft c.dstAt) c.data.length
    let rest := if bitOf c.dstAt 63 && ep == (← get).endpointOf core
      then overlay (fieldOf c.dstAt 17 0) (c.data.take n) (c.srcAt.toNat + n) (c.data.drop n)
      else c.data.drop n
    match ← copyWrite core c c.dstAt (c.data.take n) with
    | .error e => stopCopy core e c.dstAt
    | .ok () => modHead core fun c => { (c.advance n) with written := c.written + n, data := rest }

/-- COPY_COMMAND_PERFORM (R262, R264, R265): the engine's next step: a sector, a packet, or the end of its first command. A
revoked command ends with status 4, one to a device that is down with status 6. -/
def execCopyCommandPerform (core : Nat) (s : State) : Host.Outcome State Fault Refusal :=
  event (do
    let k := s.coreAt core
    match k.cq with
    | [] => throw .no
    | c :: _ =>
      enabled (!k.completionWaits 2 && k.inOrder c.id)
      let dev := match c.kind with | .copy => s.device | .put ep _ _ _ => epDevice ep | .get ep _ _ => epDevice ep
      if dev ≠ s.device && s.deviceDown dev && c.status = 0 && (c.row < c.rows && c.rowBytes ≠ 0 || c.acked ≠ c.sent) then
        finishCopy core (c.endWith 6 0x26 c.dstAt)
      else if c.revoked && c.status = 0 && c.row < c.rows && c.rowBytes ≠ 0 then
        modHead core fun c => c.endWith 4 0x2C c.dstAt
      else if c.data.isEmpty && (c.status ≠ 0 || c.row = c.rows || c.rowBytes = 0) then
        enabled (c.acked = c.sent)
        finishCopy core c
      else match c.kind with
        | .copy => stepCopy core c
        | .put ep cls _ ordered => stepPut core c ep cls ordered
        | .get ep cls _ =>
          enabled (c.acked = c.sent || !c.data.isEmpty)
          stepGet core c ep cls) s

/-- A stream stops at a fault (R266, R267). -/
def stopStream (core queue tid cause : Nat) (addr : Word) : M Unit := do
  modify fun s => s.modCore core fun k => { k with
    b0 := { k.b0 with streams := match tabFind k.b0.streams queue with
      | some st => tabPut k.b0.streams queue { st with fault := true }
      | none => k.b0.streams }
    cflt := BitVec.ofNat 64 (cause + queue * 256) }
  modify (raiseAsync core tid { code := 0x52, kind := .a, addr := addr, sub := cause })

/-- STREAM_ELEMENT (R266): one element of a stream of the task in bank 0 is loaded or stored. -/
def execStreamElement (core queue : Nat) (s : State) : Host.Outcome State Fault Refusal :=
  event (do
    let t := (s.coreAt core).b0
    enabled (t.status ≠ .empty)
    let st ← orNo (tabFind t.streams queue)
    enabled (!st.fault && st.pos < st.count)
    let ea := st.base + BitVec.ofNat 64 (st.pos * st.stride)
    let tag := coreTag core queue
    let asid := s.asidOf core
    let update (f : Tab Stream → Tab Stream) : M Unit :=
      modify fun s => s.modCore core fun k => { k with b0 := { k.b0 with streams := f k.b0.streams } }
    if st.inward then
      enabled (st.queue.length < 32)
      match ← engineLoad tag core asid t.priv ea 8 with
      | .error (c, x) => stopStream core queue t.tid c x
      | .ok (b, bad) =>
        if bad then stopStream core queue t.tid 0x19 ea
        else update fun l => tabPut l queue { st with pos := st.pos + 1, queue := st.queue ++ [wordOfList b] }
    else
      match st.queue with
      | [] => throw .no
      | v :: r =>
        if s.engineTable core ea 8 then stopStream core queue t.tid 0x24 ea
        else match ← engineStore tag core asid t.priv ea (bytesOf v) with
          | .error (c, x) => stopStream core queue t.tid c x
          | .ok () =>
            update fun l =>
              if st.pos + 1 = st.count then tabDel l queue else tabPut l queue { st with pos := st.pos + 1, queue := r }) s

end Sys2Proof.Machine
end

