-- ==== Sys2Proof/Machine/Directory.lean ====
section
/-! DEFINITION. The home directory step by step (R154 to R157): requests, evictions, forwards, recalls and their answers, between
the dies (agents 0 to 3) and the host (agent 4). A die's own requests run to their end in `transact`; what crosses them stands
here. A line here is a unit: the first line of a square sector. -/

namespace Sys2Proof.Machine

/-- The first message of a pair of agents: each pair is FIFO (R154). An acknowledgement asks nothing of its receiver (R155). -/
def State.firstCoh (s : State) (src dst : Nat) : Option CohMessage :=
  s.coh.find? fun m => m.src == src && m.dst == dst && m.kind ≠ .ack

/-- Take the first message of a pair of agents, where it is of the line and kind asked for. -/
def takeMessage (src dst line : Nat) (f : CohKind → Bool) : M CohMessage := do
  let s ← get
  let m ← orNo (s.firstCoh src dst)
  enabled (m.line == line && f m.kind)
  set { s with coh := (s.coh.filter fun (x : CohMessage) => !(x.src == src && x.dst == dst && x.kind == CohKind.ack)).erase m }
  return m

/-- The kind of the message taken. -/
def takeCoh (src dst line : Nat) (f : CohKind → Bool) : M CohKind := do return (← takeMessage src dst line f).kind

/-- The requests that waited at an entry are served in their order (R155). -/
def resumeRequests (l : List CohRequest) (s : State) : State := l.foldl (fun s r => dirRequest r s) s

/-- An agent has answered a transaction or a recall in progress (R155, R157): the last answer completes it. An agent that has `left` by
a WB or CE holds no copy (R156). -/
def answered (agent u : Nat) (left : Bool) (s : State) : State :=
  let h := homeDie (u * 128)
  match tabFind (s.dieAt h).dir u with
  | some e =>
    match e.state with
    | .p i own up m w =>
      let w := w.erase agent
      let m := if left then maskWithout m agent else m
      if w.isEmpty then
        let s := modDir u (fun e => { e with state := if own then .x i else .s (maskWith m i), waiting := [] }) s
        resumeRequests e.waiting (grantLine i u e.sq own own e.asker s)
      else modDir u (fun e => { e with state := .p i own up m w }) s
    | .r w since slow =>
      let w := w.erase agent
      if w.isEmpty then resumeRequests e.waiting (s.modDie h fun x => { x with dir := tabDel x.dir u })
      else modDir u (fun e => { e with state := .r w since slow }) s
    | _ => s
  | none => s

/-- The agents whose answers an entry waits for. -/
def DirEntry.awaits (e : DirEntry) (agent : Nat) : Bool :=
  match e.state with
  | .p _ _ _ _ w => w.contains agent
  | .r w _ _ => w.contains agent
  | _ => false

/-- A WB or CE arrives at the home (R155, R156): it frees the entry of its owner, or completes what waits for that owner, a CE with
the data of HBM, and is acknowledged; any other is discarded and counted as a protocol error. -/
def takeEviction (agent u : Nat) (wb : Bool) (s : State) : State :=
  let h := homeDie (u * 128)
  match tabFind (s.dieAt h).dir u with
  | some e =>
    if e.awaits agent then
      let fills := !wb && (match e.state with | .p .. => true | _ => false)
      sendCoh h agent u .ack (answered agent u true (if fills then fillFromHbm u e.sq s else s))
    else match e.state with
      | .x o =>
        if o = agent then sendCoh h agent u .ack (s.modDie h fun x => { x with dir := tabDel x.dir u }) else countError h 5 s
      | _ => countError h 5 s
  | none => countError h 5 s

/-- A line number of device HBM. -/
def isHbmLine (line : Nat) : Bool := line * 128 < hbmEnd

/-- Does the directory hold a line as the first of a square sector? -/
def State.sqUnit (s : State) (line : Nat) : Bool :=
  match tabFind (s.dieAt (homeDie (line * 128))).dir line with | some e => e.sq | none => false

/-- DIR_RDS (R155): the read request of agent `die` reaches the home. -/
def execDirRds (die line : Nat) (s : State) : Host.Outcome State Fault Refusal :=
  event (do
    enabled (isHbmLine line)
    let m ← takeMessage die (homeDie (line * 128)) line (· == .rds)
    modify fun s => dirRequest {
      agent := die, line := line, own := false, upgrade := false, sq := m.sq || s.sqUnit line, asker := m.asker } s) s

/-- DIR_RDX (R155). -/
def execDirRdx (die line : Nat) (upgrade : Bool) (s : State) : Host.Outcome State Fault Refusal :=
  event (do
    enabled (isHbmLine line)
    let m ← takeMessage die (homeDie (line * 128)) line (· == .rdx upgrade)
    modify fun s => dirRequest {
      agent := die, line := line, own := true, upgrade := upgrade, sq := m.sq || s.sqUnit line, asker := m.asker } s) s

/-- Is the first message from an agent to the home of a line of this kind and line? -/
def State.nextCoh (s : State) (agent line : Nat) (k : CohKind) : Bool :=
  isHbmLine line &&
    (match s.firstCoh agent (homeDie (line * 128)) with
     | some m => m.line == line && m.kind == k
     | none => false)

/-- Evict a line of an agent (R154): a dirty one for WB, any other for CE. A pinned line stays (R219), and a dirty host line
while the link is down (R161). -/
def evictFrom (agent line : Nat) (dirty : Bool) : M Unit := do
  let s ← get
  if agent = 4 then
    match tabFind s.hostLines line with
    | none => throw .no
    | some excl =>
      enabled (s.host.linkUp && (excl || !dirty))
      let sq := match tabFind (s.dieAt (homeDie (line * 128))).dir line with | some e => e.sq | none => false
      let s := { s with hostLines := tabDel s.hostLines line }
      let s := if dirty then writeBack line sq (hostData line sq s) else s
      set (if excl then sendCoh 4 (homeDie (line * 128)) line (if dirty then .wb else .ce) s else s)
  else
    let l ← orNo (s.l2Line agent line)
    enabled (l.dirtyLine == dirty && s.evictable agent line l)
    set (evictLine agent line s)

/-- DIR_WB (R154, R155): the home takes the write-back that has arrived from agent `die`, or that agent evicts the line. -/
def execDirWb (die line : Nat) (s : State) : Host.Outcome State Fault Refusal :=
  event (do
    if s.nextCoh die line .wb then
      let _ ← takeCoh die (homeDie (line * 128)) line (· == .wb)
      modify (takeEviction die line true)
    else evictFrom die line true) s

/-- DIR_CE (R154, R155): as DIR_WB, for a line that is clean. -/
def execDirCe (die line : Nat) (s : State) : Host.Outcome State Fault Refusal :=
  event (do
    if s.nextCoh die line .ce then
      let _ ← takeCoh die (homeDie (line * 128)) line (· == .ce)
      modify (takeEviction die line false)
    else evictFrom die line false) s

/-- DIR_INVACK (R155). -/
def execDirInvack (die line : Nat) (s : State) : Host.Outcome State Fault Refusal :=
  event (do
    enabled (isHbmLine line)
    let _ ← takeCoh die (homeDie (line * 128)) line (· == .invAck)
    modify (answered die line false)) s

/-- DIR_OWNER_REPLY (R155, R156): a Gone is consumed, since the WB or CE before it has completed what it answers. -/
def execDirOwnerReply (die line : Nat) (s : State) : Host.Outcome State Fault Refusal :=
  event (do
    enabled (isHbmLine line)
    match ← takeCoh die (homeDie (line * 128)) line (fun k => k == .ownerAck || k == .ownerWb || k == .gone) with
    | .gone => pure ()
    | _ => modify (answered die line false)) s

/-- An owner answers a forward or a recall (R155): `keep` leaves it a shared copy, `wb` writes HBM. A die that was granted the line
answers once the access it was for has been made (R156). -/
def ownerAnswer (agent line : Nat) (keep wb : Bool) : M Unit := do
  let s ← get
  let h := homeDie (line * 128)
  if agent = 4 then
    enabled s.host.linkUp
    let sq := match tabFind (s.dieAt h).dir line with | some e => e.sq | none => false
    match hostYield line sq keep s with
    | (none, s) => set (sendCoh 4 h line .gone s)
    | (some m, s) =>
      set (sendCoh 4 h line (if m && wb then .ownerWb else .ownerAck) (if m && wb then writeBack line sq s else s))
  else
    enabled (!s.lineOwed agent line)
    match s.l2Line agent line with
    | none => set (sendCoh agent h line .gone s)
    | some l =>
      let s := if wb then writeBack line l.sq s else s
      let s := if keep then s.setL2 agent line { l with state := .s } else s.dropL2 agent line
      set (sendCoh agent h line (if l.state == .m && wb then .ownerWb else .ownerAck) s)

/-- OWNER_FWDS (R155). -/
def execOwnerFwds (die line : Nat) (s : State) : Host.Outcome State Fault Refusal :=
  event (do
    enabled (isHbmLine line)
    let _ ← takeCoh (homeDie (line * 128)) die line (fun k => match k with | .fwds _ => true | _ => false)
    ownerAnswer die line true true) s

/-- OWNER_FWDX (R155): the data go to the requester; HBM is not written. -/
def execOwnerFwdx (die line : Nat) (s : State) : Host.Outcome State Fault Refusal :=
  event (do
    enabled (isHbmLine line)
    let _ ← takeCoh (homeDie (line * 128)) die line (fun k => match k with | .fwdx _ => true | _ => false)
    ownerAnswer die line false false) s

/-- OWNER_RECALL (R155). -/
def execOwnerRecall (die line : Nat) (s : State) : Host.Outcome State Fault Refusal :=
  event (do
    enabled (isHbmLine line)
    let _ ← takeCoh (homeDie (line * 128)) die line (· == .recall)
    ownerAnswer die line false true) s

/-- INV (R155). -/
def execInv (die line : Nat) (s : State) : Host.Outcome State Fault Refusal :=
  event (do
    enabled (isHbmLine line && (die ≠ 4 || s.host.linkUp) && (die = 4 || !s.lineOwed die line))
    let _ ← takeCoh (homeDie (line * 128)) die line (· == .inv)
    modify fun s => sendCoh die (homeDie (line * 128)) line .invAck
      (if die = 4 then { s with hostLines := tabDel s.hostLines line } else s.dropL2 die line)) s

/-- RECALL_SLOW (R157). -/
def execRecallSlow (line : Nat) (s : State) : Host.Outcome State Fault Refusal :=
  event (do
    enabled (isHbmLine line)
    let h := homeDie (line * 128)
    let e ← orNo (tabFind (s.dieAt h).dir line)
    match e.state with
    | .r w since false =>
      enabled (since + 20000 < (← readClock))
      modify (modDir line fun e => { e with state := .r w since true })
      let first := !bitOf (s.dieAt h).l2stat 61
      modify fun s => s.modDie h fun x => { x with l2stat := bumpField x.l2stat 39 32 1 ||| atBit 1 61 }
      if first then modify (reportRoot h { code := 0x1D, kind := .r })
    | _ => throw .no) s

/-- The unit of a line: the square sector that the directory holds, or the line itself. -/
def State.cohUnit (s : State) (line : Nat) : Nat :=
  match tabFind (s.dieAt (homeDie (line * 128))).dir (line / 8 * 8) with
  | some e => if e.sq then line / 8 * 8 else line
  | none => line

/-- HOST_MEM_REQUEST (R154): the host asks for a line of device HBM through the HDM decoder, once that is committed (R425, R430), as agent 4. Where no agent holds the square sector that a line is
in on a page with SQ, the host's request is for the line alone (notes/assumptions/75.md). -/
def execHostMemRequest (line : Nat) (exclusive : Bool) (s : State) : Host.Outcome State Fault Refusal :=
  event (do
    enabled (isHbmLine line && s.host.linkUp && s.host.hdm)
    let u := s.cohUnit line
    let h := homeDie (line * 128)
    let waits := (s.dieAt h).dir.any fun e => e.2.waiting.any fun (r : CohRequest) => r.agent == 4 && r.line == u
    let asked := s.coh.any fun m => m.src == 4 && m.line == u
    let served := match tabFind (s.dieAt h).dir u with
      | some { state := .p 4 .., .. } => true
      | _ => false
    enabled (!waits && !asked && !served)
    match tabFind s.hostLines u with
    | some true => throw .no
    | some false =>
      enabled exclusive
      modify (sendCoh 4 h u (.rdx true))
    | none => modify (sendCoh 4 h u (if exclusive then .rdx false else .rds))) s

/-- The units of a die's L2 that hold a line of host space: the line, or its square sector (R159). -/
def hostUnits (line : Nat) (s : State) (d : Nat) : List Nat :=
  [line, line / 8 * 8].eraseDups.filter fun u => match s.l2Line d u with
    | some l => (unitLines u l.sq).contains line
    | none => false

/-- CXL_CACHE_INVALIDATION (R160, R297): the host snoops a host-space line, or writes it. Modified data go to the host; a snoop
that shares leaves the dies their copies; any other invalidates them, counts as a write for the watches, and may be a write whose
bytes are the host's own (notes/assumptions/27.md). -/
def execCxlCacheInvalidation (line : Nat) (shared : Bool) (s : State) : Host.Outcome State Fault Refusal :=
  event (do
    enabled (isHostPa (line * 128) && s.host.linkUp)
    let held := (List.range 4).flatMap fun d => (hostUnits line s d).map fun u => (d, u)
    modify fun s => held.foldl (fun s x => flushLine x.1 x.2 s) s
    if shared then
      modify fun s => held.foldl (fun s x => match s.l2Line x.1 x.2 with
        | some l => s.setL2 x.1 x.2 { l with state := .s }
        | none => s) s
    else
      modify fun s => held.foldl (fun s x => s.dropL2 x.1 x.2) s
      let wrote := bitOf (← freshWord) 0
      modify fun s => if wrote then writeBack line false (hostData line false s) else noteWrite line none s) s

end Sys2Proof.Machine
end

