-- ==== Sys2Proof/Machine/Lanes.lean ====
section
/-! DEFINITION. The vector registers by elements and lanes (R185, R186), the element types (R20), and the operations of the
vector engine on elements (R192 to R196, R200 to R205): what each computes, its flags, its poison. -/

namespace Sys2Proof.Machine

/-- The width of an element type (R20); code 8 is FP4 (R199). -/
def elWidth (el : Nat) : Nat := match el with | 0 => 32 | 1 => 16 | 2 => 16 | 3 => 8 | 4 => 8 | 5 => 32 | 6 => 16 | 7 => 8 | _ => 4
/-- The floating-point format of an element type, if it is one. -/
def elFormat (el : Nat) : Option Format :=
  match el with
  | 0 => some fp32 | 1 => some bf16 | 2 => some fp16 | 3 => some e4m3 | 4 => some e5m2 | 8 => some fp4
  | _ => none

/-- Element i of width w of a register. -/
def elemOf (v : BitVec 512) (w i : Nat) : Nat := v.toNat / 2 ^ (w * i) % 2 ^ w
/-- Element i of vector register r. -/
def Core.elem (k : Core) (r w i : Nat) : Nat := elemOf (k.v[r]?.getD 0) w i
/-- The poison of the lane that holds an element. -/
def Core.elemPoison (k : Core) (r w i : Nat) : Bool := (k.vPoison[r]?.getD 0).getLsbD (w * i / 32)
/-- Is an element active under a mask register (R186)? m0 reads as all ones. -/
def Core.active (k : Core) (m w i : Nat) : Bool := m == 0 || (k.m[m]?.getD 0).getLsbD (i * w / 8)

/-- The number whose n-th digit of base b is the n-th of a list. -/
def digits (b : Nat) : List Nat → Nat
  | [] => 0
  | x :: r => x + b * digits b r

/-- Write elements of a register (R185): one not given keeps its value and its share of the lane's poison. -/
def Core.putElems (k : Core) (r w : Nat) (els : List (Option (Nat × Bool))) : Core :=
  let old := k.v[r]?.getD 0
  let oldP := k.vPoison[r]?.getD 0
  let val (i : Nat) : Nat := match nth els i none with | some e => e.1 % 2 ^ w | none => elemOf old w i
  let poi (i : Nat) : Bool := match nth els i none with | some e => e.2 | none => oldP.getLsbD (w * i / 32)
  let per := 32 / w
  let v : BitVec 512 := BitVec.ofNat 512 (digits (2 ^ w) ((List.range (512 / w)).map val))
  let p : BitVec 16 := BitVec.ofNat 16 (digits 2 ((List.range 16).map fun l =>
    if (List.range per).any fun j => poi (l * per + j) then 1 else 0))
  { k with v := k.v.setIfInBounds r v, vPoison := k.vPoison.setIfInBounds r p }

/-- Write a whole register with one poison for every lane. -/
def Core.putReg (k : Core) (r : Nat) (v : BitVec 512) (p : BitVec 16) : Core :=
  { k with v := k.v.setIfInBounds r v, vPoison := k.vPoison.setIfInBounds r p }

/-- What an operation gives one element: its bits, its poison, its flags. -/
abbrev Elem := Nat × Bool × Nat

/-- Apply an operation to the active elements of a destination register. -/
def Core.mapElems (k : Core) (d m w : Nat) (f : Nat → Elem) : Core × Nat :=
  let rs := (List.range (512 / w)).map fun i => if k.active m w i then some (f i) else none
  (k.putElems d w (rs.map fun r => r.map fun e => (e.1, e.2.1)), orFlags (rs.map fun r => match r with | some e => e.2.2 | none => 0))

/-- The signed value of an integer element. -/
def elInt (w v : Nat) : Int := sextNat v w
/-- An integer wrapped to w bits. -/
def wrapInt (w : Nat) (i : Int) : Nat := (i % (2 : Int) ^ w).toNat

/-- Round an exact result to a type of VEC (R193). -/
def roundEl (fpmode : Word) (f : Format) (r : Flagged) : Nat × Nat :=
  let c := f.round (rmPlain fpmode) (ftzOf fpmode) none r.1
  (c.1, c.2 ||| r.2)

/-- An operation of R192 on elements x, y, z: a float form, an integer form. -/
def arithEl (fpmode : Word) (el : Nat) (ff : Num → Num → Num → Flagged) (fi : Int → Int → Int → Int) (x y z : Nat) : Nat × Nat :=
  match elFormat el with
  | some f =>
    let g := f.decode (ftzOf fpmode)
    roundEl fpmode f (ff (g x) (g y) (g z))
  | none =>
    let w := elWidth el
    (wrapInt w (fi (elInt w x) (elInt w y) (elInt w z)), 0)

/-- vabs and vneg (R193): only the sign bit of a float changes; a NaN becomes the quiet one. -/
def signEl (el : Nat) (neg : Bool) (x : Nat) : Nat × Nat :=
  let w := elWidth el
  match elFormat el with
  | some f =>
    if (f.decode false x).isNan then (f.nanCode, 0)
    else
      let top := 2 ^ (w - 1)
      (if neg then (x + top) % 2 ^ w else x % top, 0)
  | none =>
    let i := elInt w x
    (wrapInt w (if neg then -i else (i.natAbs : Int)), 0)

/-- The relations of vcmp (R195): 0 .eq, 1 .ne, 2 .lt, 3 .le; with the flags. -/
def compareEl (fpmode : Word) (el cc x y : Nat) : Bool × Nat :=
  match elFormat el with
  | some f =>
    let a := f.decode (ftzOf fpmode) x
    let b := f.decode (ftzOf fpmode) y
    let nan := a.isNan || b.isNan
    let fl := if nan && (cc ≥ 2 || a.signals || b.signals) then flInvalid else 0
    ((match cc with
      | 0 => a.eq b
      | 1 => !a.eq b
      | 2 => !nan && a.lt b
      | _ => !nan && !b.lt a), fl)
  | none =>
    let w := elWidth el
    let a := elInt w x
    let b := elInt w y
    ((match cc with | 0 => a == b | 1 => a != b | 2 => decide (a < b) | _ => decide (a ≤ b)), 0)

/-- The mask that vcmp writes (R195). -/
def Core.compareMask (k : Core) (el cc a b m : Nat) : Word × Nat :=
  let w := elWidth el
  let rs := (List.range (512 / w)).map fun i =>
    if k.active m w i then compareEl k.fpmode el cc (k.elem a w i) (k.elem b w i) else (false, 0)
  (BitVec.ofNat 64 (digits 2 (rs.flatMap fun r => List.replicate (w / 8) (if r.1 then 1 else 0))), orFlags (rs.map (·.2)))

/-- Write a mask register; m0 is not written (R186). -/
def Core.putMask (k : Core) (d : Nat) (v : Word) : Core := if d = 0 then k else { k with m := k.m.setIfInBounds d v }

/-- The draws of the LFSR for n elements (R182): the states after each step. -/
def draws : Nat → Nat → List Nat
  | 0, _ => []
  | n + 1, s => lfsrStep s :: draws n (lfsrStep s)

/-- Take n draws under rm = 4 (R182): the draws, and the core with its LFSR advanced. -/
def Core.drawn (k : Core) (n : Nat) : List (Option Nat) × Core :=
  if rmOf k.fpmode = 4 then
    let l := draws n (fieldOf k.seed 31 0)
    (l.map some, { k with seed := withField k.seed 31 0 (l.getLast?.getD (fieldOf k.seed 31 0)) })
  else (List.replicate n none, k)

/-- The value of an element of a source type of vcvt. -/
def valueEl (fpmode : Word) (el x : Nat) : Num :=
  match elFormat el with
  | some f => f.decode (ftzOf fpmode) x
  | none => .ofInt (elInt (elWidth el) x)

/-- One conversion of vcvt (R200): bits and flags. -/
def convertEl (fpmode : Word) (dst : Nat) (u : Option Nat) (x : Num) : Nat × Nat :=
  let narrow := elWidth dst ≤ 8
  let mode := if narrow then rmOf fpmode else rmPlain fpmode
  match elFormat dst with
  | some f => f.round mode (ftzOf fpmode) u x
  | none =>
    if dst = 7 then (let r := roundNarrow (-128) 127 mode u x; (wrapInt 8 r.1, r.2))
    else
      let w := elWidth dst
      let h : Int := 2 ^ (w - 1)
      let r := roundWide (-h) (h - 1) mode x
      (wrapInt w r.1, r.2)

/-- vcvt (R200): the core after it, and its flags. -/
def Core.convert (k : Core) (src dst d a m p : Nat) : Core × Nat :=
  let ws := elWidth src
  let wd := elWidth dst
  let n := 512 / max ws wd
  let (us, k) := if wd ≤ 8 then k.drawn n else (List.replicate n none, k)
  let one (j : Nat) : Option Elem :=
    let di := if wd < ws then p * n + j else j
    let si := if ws < wd then p * n + j else j
    if k.active m wd di then
      let r := convertEl k.fpmode dst (nth us j none) (valueEl k.fpmode src (k.elem a ws si))
      some (r.1, k.elemPoison a ws si, r.2)
    else none
  let rs := (List.range n).map one
  let base := if wd < ws then p * n else 0
  let els := List.replicate base none ++ rs.map fun r => r.map fun e => (e.1, e.2.1)
  (k.putElems d wd els, orFlags (rs.map fun r => match r with | some e => e.2.2 | none => 0))

/-- A power of two that scales a block, by its E8M0 code. -/
def powerAt (e : Nat) : Num := .fin false 1 1 ((e : Int) - 127)
/-- x ≥ y for numbers. -/
def Num.ge (x y : Num) : Bool := !x.lt y
/-- x ÷ n for an integer n. -/
def Num.overNat (x : Num) (n : Nat) : Num := match x with | .fin s a d e => .fin s a (d * n) e | x => x

/-- The largest magnitude of a list. -/
def maxAbs (l : List Num) : Num := l.foldl (fun b x => if b.lt x.abs then x.abs else b) (.zero false)

/-- The scale code of an FP4 block of largest magnitude `a` (R201), in E8M0 or E5M2, and its value. -/
def fp4Scale (e5 : Bool) (a : Num) : Nat × Num :=
  let t := a.overNat 6
  if e5 then
    let c := ((List.range 123).find? fun i => (e5m2.decode false (i + 1)).ge t).map (· + 1)
    let c := c.getD 0x7B
    (c, e5m2.decode false c)
  else
    let c := ((List.range 255).find? fun e => (powerAt e).ge t).getD 254
    (c, powerAt c)

/-- One FP4 block of values (R201): its scale code, its element codes, its flags. -/
def fp4Block (fpmode : Word) (e5 : Bool) (xs : List (Num × Option Nat)) : Nat × List Nat × Nat :=
  if xs.any (fun (x : Num × Option Nat) => x.1.isNan || x.1.isInf) then (if e5 then 0x7E else 0xFF, xs.map fun _ => 0, flOor)
  else
    let (c, sc) := fp4Scale e5 (maxAbs (xs.map (·.1)))
    let rs := xs.map fun x => fp4.round (rmOf fpmode) false x.2 (x.1.div sc).1
    (c, rs.map (·.1), orFlags (rs.map (·.2)))

/-- Bytes from 4-bit codes, low nibble first. -/
def packNibbles : List Nat → List Nat
  | a :: b :: r => (a % 16 + 16 * (b % 16)) :: packNibbles r
  | [a] => [a % 16]
  | [] => []

/-- Cut a list into pieces of n. -/
def pieces {α : Type} (n : Nat) : Nat → List α → List (List α)
  | 0, _ => []
  | fuel + 1, l => if l.isEmpty then [] else l.take n :: pieces n fuel (l.drop n)

/-- The image of vquant.fp4 with blocks of B elements (R201): bytes 0 to 19, and its flags. -/
def quantFp4 (fpmode : Word) (bsize : Nat) (e5 : Bool) (xs : List (Num × Option Nat)) : List Nat × Nat :=
  let bs : List (Nat × List Nat × Nat) := (pieces bsize 4 xs).map (fp4Block fpmode e5)
  let scales : List Nat := bs.map (·.1)
  (packNibbles (bs.flatMap (·.2.1)) ++ (scales ++ [0, 0, 0, 0]).take 4, orFlags (bs.map (·.2.2)))

/-- The indexes of a list of values by falling magnitude, ties to the lower index. -/
def byMagnitude (xs : List Num) : List Nat :=
  let sorted : List (Num × Nat) := (xs.zip (List.range xs.length)).foldl (fun (l : List (Num × Nat)) x =>
    let (hi, lo) := l.span fun y => !(y.1.abs.lt x.1.abs)
    hi ++ x :: lo) []
  sorted.map (·.2)

/-- The elements of vquant.int4x in order (R201): codes, outlier bytes, flags. -/
def int4xCodes (fpmode : Word) (sc : Num) (big : List Nat) : List (Nat × Num × Option Nat) → List Nat × List Nat × Nat
  | [] => ([], [], 0)
  | (i, x, u) :: r =>
    let (cs, os, fl) := int4xCodes fpmode sc big r
    let t := (x.div sc).1
    if big.contains i && (Num.ofInt 7).lt t.abs then
      let o := e4m3.round (rmOf fpmode) false u t
      (8 :: cs, o.1 :: os, fl ||| o.2)
    else
      let c := roundNarrow (-7) 7 (rmOf fpmode) u t
      (wrapInt 4 c.1 :: cs, os, fl ||| c.2)

/-- The image of vquant.int4x (R201). -/
def quantInt4x (fpmode : Word) (xs : List (Num × Option Nat)) : List Nat × Nat :=
  let vs : List Num := xs.map (·.1)
  if vs.any fun x => x.isNan || x.isInf then (List.replicate 16 0 ++ [0xFF, 0, 0, 0], flOor)
  else
    let order := byMagnitude vs
    let mag (i : Nat) : Num := (nth vs (nth order i 0) (.zero false)).abs
    let e := ((List.range 255).find? fun e =>
      (powerAt e).ge ((mag 2).overNat 7) && (powerAt e).ge ((mag 0).overNat 448)).getD 254
    let (cs, os, fl) := int4xCodes fpmode (powerAt e) (order.take 2) ((List.range vs.length).zip xs)
    (packNibbles cs ++ [e] ++ (os ++ [0, 0]).take 2 ++ [0], fl)

/-- vquant (R201): 32 FP32 values of two registers into one block image. -/
def Core.quantise (k : Core) (d a b : Nat) (f : Word → List (Num × Option Nat) → List Nat × Nat) : Core × Nat :=
  let (us, k) := k.drawn 32
  let vs := ((List.range 16).map fun i => fp32.decode (ftzOf k.fpmode) (k.elem a 32 i)) ++
    (List.range 16).map fun i => fp32.decode (ftzOf k.fpmode) (k.elem b 32 i)
  let (bytes, fl) := f k.fpmode (vs.zip us)
  let bad := k.vPoison[a]?.getD 0 ≠ 0 || k.vPoison[b]?.getD 0 ≠ 0
  (k.putReg d (BitVec.ofNat 512 (digits 256 bytes)) (if bad then 0xFFFF else 0), fl)

/-- The 20 bytes of a block image in a register. -/
def Core.image (k : Core) (r : Nat) : List Nat := (List.range 20).map fun i => k.elem r 8 i

/-- The value of element k of an FP4 block image (R202), and whether its scale is NaN. -/
def fp4Value (img : List Nat) (bsize : Nat) (e5 : Bool) (i : Nat) : Num × Bool :=
  let c := nth img (i / 2) 0 / (if i % 2 = 0 then 1 else 16) % 16
  let code := nth img (16 + i / bsize) 0
  let sc := if e5 then e5m2.decode false code else e8m0 code
  (scaledProduct (fp4.decode false c) (Num.ofInt 1) sc (Num.ofInt 1), sc.isNan)

/-- vdeq (R202): `value i` is element i of the block, with the causes it meets. -/
def Core.dequantise (k : Core) (el d a m h : Nat) (value : Nat → Num × List Nat) : Core × Nat × List Nat :=
  let w := elWidth el
  let n := 512 / w
  let bad := k.vPoison[a]?.getD 0 ≠ 0
  let f := (elFormat el).getD fp32
  let base := if el = 0 then 16 * h else 0
  let rs := (List.range n).map fun i =>
    if k.active m w i then
      let (x, cs) := value (base + i)
      let r := f.round (rmPlain k.fpmode) (ftzOf k.fpmode) none x
      some (r.1, r.2, cs)
    else none
  (k.putElems d w (rs.map fun r => r.map fun e => (e.1, bad)), orFlags (rs.map fun r => match r with | some e => e.2.1 | none => 0),
    rs.flatMap fun r => match r with | some e => e.2.2 | none => [])

/-- The pairwise tree over adjacent lanes (R204). -/
def treeFold {α : Type} (f : α → α → α) : Nat → List α → List α
  | 0, l => l
  | n + 1, l =>
    let rec level : List α → List α
      | a :: b :: r => f a b :: level r
      | l => l
    treeFold f n (level l)

/-- vred (R204): 0 sum, 1 max, 2 min: the bits of element 0 and their width, and the flags. -/
def Core.reduce (k : Core) (op el a m : Nat) : Nat × Nat :=
  let w := elWidth el
  let n := 512 / w
  match elFormat el with
  | some f =>
    let ident : Num := match op with | 0 => .zero true | 1 => .inf true | _ => .inf false
    let xs : List Flagged := (List.range n).map fun i =>
      (if k.active m w i then f.decode (ftzOf k.fpmode) (k.elem a w i) else ident, 0)
    let step (x y : Flagged) : Flagged :=
      match op with
      | 0 =>
        let r := roundEl k.fpmode fp32 (x.1.add (rdnOf k.fpmode) y.1)
        (fp32.decode (ftzOf k.fpmode) r.1, r.2 ||| x.2 ||| y.2)
      | 1 => let r := x.1.maximum y.1; (r.1, r.2 ||| x.2 ||| y.2)
      | _ => let r := x.1.minimum y.1; (r.1, r.2 ||| x.2 ||| y.2)
    match treeFold step 6 xs with
    | r :: _ =>
      if op = 0 then (((fp32.round 0 false none r.1).1), r.2)
      else roundEl k.fpmode f r
    | [] => (0, 0)
  | none =>
    let h : Int := 2 ^ (w - 1)
    let ident : Int := match op with | 0 => 0 | 1 => -h | _ => h - 1
    let xs := (List.range n).map fun i => if k.active m w i then elInt w (k.elem a w i) else ident
    let r := match op with
      | 0 => xs.foldl (· + ·) 0
      | 1 => xs.foldl max ident
      | _ => xs.foldl min ident
    (wrapInt (if op = 0 then 32 else w) r, 0)

/-- vred into a register: element 0, and zero beyond; lane 0 is poisoned if an active input lane is. -/
def Core.reduceTo (k : Core) (op el d a m : Nat) : Core × Nat :=
  let w := elWidth el
  let (r, fl) := k.reduce op el a m
  let bad := (List.range (512 / w)).any fun i => k.active m w i && k.elemPoison a w i
  (k.putReg d (BitVec.ofNat 512 r) (if bad then 1 else 0), fl)

/-- The order of vtopk and vargmax: does x rank above y? NaN ranks lowest. -/
def ranksAbove (x y : Num) : Bool := if x.isNan then false else if y.isNan then true else y.lt x

/-- The active elements by falling rank, ties to the lower index: index and value. -/
def Core.ranked (k : Core) (el a m : Nat) : List (Nat × Num) :=
  let w := elWidth el
  ((List.range (512 / w)).filter fun i => k.active m w i).foldl (fun (l : List (Nat × Num)) i =>
    let x := valueEl k.fpmode el (k.elem a w i)
    let (hi, lo) := l.span fun y => !ranksAbove x y.2
    hi ++ (i, x) :: lo) []

/-- vtopk (R205): the two registers and the flags. What positions k up to the count of active elements receive the spec does not
say: free values. -/
def Core.topk (k : Core) (el d a m n : Nat) : Core × Nat :=
  let l := k.ranked el a m
  let free (j : Nat) : Nat := (Config.freeFor (el :: n :: l.map fun x => k.elem a 32 x.1) j).toNat
  let pad := if el = 0 then 0xFF800000 else 0x80000000
  let one (p : Nat) : (Nat × Bool) × Nat × Nat :=
    match l[p]? with
    | some (i, x) =>
      if p < n then
        let r := if el = 0 then roundEl k.fpmode fp32 (x, 0) else (k.elem a 32 i, 0)
        ((r.1, k.elemPoison a 32 i), i, r.2)
      else ((free (2 * p), false), free (2 * p + 1), 0)
    | none => ((pad, false), 0xFFFFFFFF, 0)
  let rs := (List.range 16).map one
  let nan := l.any fun x => x.2.isNan
  let k := k.putElems d 32 (rs.map fun r => some r.1)
  (k.putElems ((d + 1) % 32) 32 (rs.map fun r => some (r.2.1, false)),
    orFlags (rs.map (·.2.2)) ||| (if nan then flInvalid else 0))

/-- vargmax (R205): the index of the greatest active number, or −1. -/
def Core.argmax (k : Core) (el a m : Nat) : Word :=
  match (k.ranked el a m).find? fun x => !x.2.isNan with
  | some (i, _) => BitVec.ofNat 64 i
  | none => -1

end Sys2Proof.Machine
end

