-- ==== Sys2Proof/Machine/Vector.lean ====
section
/-! DEFINITION. The vector engine (spec/10, majors 0x27 to 0x2A): issue, the performance of its commands, the memory commands and
the optimizer update. -/

namespace Sys2Proof.Machine

/-- The register that a v field names: renamed in a frame pass (R71). -/
def vname (f : Nat) : M Nat := do
  let t ← taskM
  return if t.frame.act then (f + t.frame.k * t.frame.rot) % 32 else f

/-- Enter a command into the engine's queue (R187, R188): a memory command after the store buffer is drained. -/
def queueVector (c : VecCommand) (memory : Bool) : M Unit := do
  waitUntil ((← cc).vq.length < 3)
  if memory then drain
  let id ← nextCommand
  let s ← get
  let c := { c with id := id, tid := s.task.tid, pc := s.pc, asid := s.asidOf s.cur.core, priv := s.task.priv }
  modCC fun k => { k with vq := k.vq ++ [c] }

/-- A command on registers alone. -/
def vector (i : Instr) (d a b : Nat) (s : State) : Host.Outcome State Fault Refusal :=
  other (do queueVector { instr := i, vd := ← vname d, va := ← vname a, vb := ← vname b } false) s

/-- Poison of the one or two sources of an element. -/
def Core.srcPoison (k : Core) (a b w i : Nat) : Bool := k.elemPoison a w i || k.elemPoison b w i

/-- An element operation of two sources (R192, R193). -/
def Core.op2 (k : Core) (c : VecCommand) (e m : Nat) (f : Nat → Nat → Nat × Nat) : Core × Nat :=
  let w := elWidth e
  k.mapElems c.vd m w fun i =>
    let r := f (k.elem c.va w i) (k.elem c.vb w i)
    (r.1, k.srcPoison c.va c.vb w i, r.2)

/-- An element operation of one source. -/
def Core.op1 (k : Core) (c : VecCommand) (e m : Nat) (f : Nat → Nat × Nat) : Core × Nat :=
  let w := elWidth e
  k.mapElems c.vd m w fun i =>
    let r := f (k.elem c.va w i)
    (r.1, k.elemPoison c.va w i, r.2)

/-- An element operation that reads the destination (vfma, vfms). -/
def Core.op3 (k : Core) (c : VecCommand) (e m : Nat) (f : Nat → Nat → Nat → Nat × Nat) : Core × Nat :=
  let w := elWidth e
  k.mapElems c.vd m w fun i =>
    let r := f (k.elem c.va w i) (k.elem c.vb w i) (k.elem c.vd w i)
    (r.1, k.srcPoison c.va c.vb w i || k.elemPoison c.vd w i, r.2)

/-- A comparison into a mask. -/
def Core.compare (k : Core) (c : VecCommand) (cc d e m : Nat) : Core × Nat :=
  let r := k.compareMask e cc c.va c.vb m
  (k.putMask d r.1, r.2)

/-- A float operation that has no integer form. -/
def Core.fop (k : Core) (c : VecCommand) (m : Nat) (f : Num → Num → Flagged) : Core × Nat :=
  k.op2 c 0 m fun x y => arithEl k.fpmode 0 (fun x y _ => f x y) (fun x _ _ => x) x y 0

/-- vsel (R195): every element is written. -/
def Core.select (k : Core) (c : VecCommand) (e m : Nat) : Core × Nat :=
  let w := elWidth e
  (k.putElems c.vd w ((List.range (512 / w)).map fun i =>
    let r := if k.active m w i then c.va else c.vb
    some (k.elem r w i, k.elemPoison r w i)), 0)

/-- The index of vperm: the low log2 N bits of an element. -/
def permIndex (w v : Nat) : Nat := v % (512 / w)

/-- The blocks of vquant and vdeq by the low bits of their sub: 8, 16, 32 elements, in E8M0 or E5M2 scales (R199). -/
def blockKind (q : Nat) : Nat × Bool :=
  match q with
  | 0 => (8, false) | 1 => (16, false) | 2 => (32, false) | 3 => (8, true) | 4 => (16, true) | _ => (32, true)

/-- What a register command does to its core (R192 to R205): the core, its flags, the causes of R202 it meets. -/
def Core.vectorOp (k : Core) (c : VecCommand) : Core × Nat × List Nat :=
  let p (r : Core × Nat) : Core × Nat × List Nat := (r.1, r.2, [])
  let fm := k.fpmode
  let rdn := rdnOf fm
  match c.instr with
  | .vadd _ _ _ m e => p (k.op2 c e.toNat m.toNat fun x y =>
      arithEl fm e.toNat (fun x y _ => x.add rdn y) (fun x y _ => x + y) x y 0)
  | .vsub _ _ _ m e => p (k.op2 c e.toNat m.toNat fun x y =>
      arithEl fm e.toNat (fun x y _ => x.add rdn y.negate) (fun x y _ => x - y) x y 0)
  | .vmul _ _ _ m e => p (k.op2 c e.toNat m.toNat fun x y =>
      arithEl fm e.toNat (fun x y _ => x.mul y) (fun x y _ => x * y) x y 0)
  | .vfma _ _ _ m e => p (k.op3 c e.toNat m.toNat fun x y z =>
      arithEl fm e.toNat (fun x y z => Num.fma rdn x y z) (fun x y z => x * y + z) x y z)
  | .vfms _ _ _ m e => p (k.op3 c e.toNat m.toNat fun x y z =>
      arithEl fm e.toNat (fun x y z => Num.fma rdn x.negate y z) (fun x y z => z - x * y) x y z)
  | .vmin _ _ _ m e => p (k.op2 c e.toNat m.toNat fun x y =>
      arithEl fm e.toNat (fun x y _ => x.minimum y) (fun x y _ => min x y) x y 0)
  | .vmax _ _ _ m e => p (k.op2 c e.toNat m.toNat fun x y =>
      arithEl fm e.toNat (fun x y _ => x.maximum y) (fun x y _ => max x y) x y 0)
  | .vabs _ _ m e => p (k.op1 c e.toNat m.toNat (signEl e.toNat false))
  | .vneg _ _ m e => p (k.op1 c e.toNat m.toNat (signEl e.toNat true))
  | .vdiv _ _ _ m => p (k.fop c m.toNat Num.div)
  | .vsqrt _ _ m => p (k.op1 c 0 m.toNat fun x => arithEl fm 0 (fun x _ _ => x.sqrt) (fun x _ _ => x) x 0 0)
  | .vrsq _ _ m => p (k.op1 c 0 m.toNat fun x => arithEl fm 0 (fun x _ _ => x.rsqrt) (fun x _ _ => x) x 0 0)
  | .vexp2 _ _ m => p (k.op1 c 0 m.toNat fun x => arithEl fm 0 (fun x _ _ => x.exp2) (fun x _ _ => x) x 0 0)
  | .vlog2 _ _ m => p (k.op1 c 0 m.toNat fun x => arithEl fm 0 (fun x _ _ => x.log2) (fun x _ _ => x) x 0 0)
  | .vcmpEq d _ _ m e => p (k.compare c 0 d.toNat e.toNat m.toNat)
  | .vcmpNe d _ _ m e => p (k.compare c 1 d.toNat e.toNat m.toNat)
  | .vcmpLt d _ _ m e => p (k.compare c 2 d.toNat e.toNat m.toNat)
  | .vcmpLe d _ _ m e => p (k.compare c 3 d.toNat e.toNat m.toNat)
  | .vsel _ _ _ m e => p (k.select c e.toNat m.toNat)
  | .vand _ _ _ m e => p (k.op2 c e.toNat m.toNat fun x y => (x &&& y, 0))
  | .vor _ _ _ m e => p (k.op2 c e.toNat m.toNat fun x y => (x ||| y, 0))
  | .vxor _ _ _ m e => p (k.op2 c e.toNat m.toNat fun x y => (x ^^^ y, 0))
  | .vshl _ _ _ m e => p (k.op2 c e.toNat m.toNat fun x y => (x * 2 ^ (y % elWidth e.toNat), 0))
  | .vshr _ _ _ m e => p (k.op2 c e.toNat m.toNat fun x y => (x / 2 ^ (y % elWidth e.toNat), 0))
  | .vperm _ _ _ m e =>
    let w := elWidth e.toNat
    p (k.mapElems c.vd m.toNat w fun i =>
      let j := permIndex w (k.elem c.vb w i)
      (k.elem c.va w j, k.elemPoison c.va w j, 0))
  | .vbcast _ _ m e => p (k.mapElems c.vd m.toNat (elWidth e.toNat) fun _ => (c.x.toNat, false, 0))
  | .vmov _ _ m e => p (k.op1 c e.toNat m.toNat fun x => (x, 0))
  | .vcvt _ _ q m t e => p (k.convert e.toNat t.toNat c.vd c.va m.toNat q.toNat)
  | .vcvtFromFp4 _ _ q m e => p (k.convert 8 e.toNat c.vd c.va m.toNat q.toNat)
  | .vquantFp4 _ _ _ q =>
    let b := blockKind (q.toNat - 10)
    p (let r := k.quantise c.vd c.va c.vb fun fm xs => quantFp4 fm b.1 b.2 xs; r)
  | .vquantInt4x _ _ _ => p (k.quantise c.vd c.va c.vb quantInt4x)
  | .vdeqFp4 _ _ h m q e =>
    let b := blockKind (q.toNat - 17)
    let img := k.image c.va
    k.dequantise e.toNat c.vd c.va m.toNat h.toNat fun i =>
      let r := fp4Value img b.1 b.2 i
      (r.1, if r.2 then [0x32] else [])
  | .vdeqInt4x _ _ h m e =>
    let r := int4xDecode ((k.image c.va).map fun b => BitVec.ofNat 8 b)
    k.dequantise e.toNat c.vd c.va m.toNat h.toNat fun i =>
      (nth r.1 i (.nan false), (if r.2.1 then [0x32] else []) ++ (if r.2.2 then [0x33] else []))
  | .vredSum _ _ m e => p (k.reduceTo 0 e.toNat c.vd c.va m.toNat)
  | .vredMax _ _ m e => p (k.reduceTo 1 e.toNat c.vd c.va m.toNat)
  | .vredMin _ _ m e => p (k.reduceTo 2 e.toNat c.vd c.va m.toNat)
  | .vtopk _ _ n m e => p (k.topk e.toNat c.vd c.va m.toNat (n.toNat + 1))
  | _ => (k, 0, [])

/-- The causes of a register command (R189, R193, R200, R202): what vdeq meets under enan; an invalid of a wide integer target
of vcvt as 0x3B; the flags, but for vquant and vdeq, whose entries name none. -/
def vectorCause (fpmode : Word) (i : Instr) (fl : Nat) (met : List Nat) : Option Nat :=
  let named := if bitOf fpmode 7 then met else []
  match i with
  | .vquantFp4 .. | .vquantInt4x .. => none
  | .vdeqFp4 .. | .vdeqInt4x .. => lowest named
  | .vcvt _ _ _ _ t _ | .vcvtFromFp4 _ _ _ _ t =>
    let t := t.toNat
    if (t == 5 || t == 6) && fl % 2 == 1 then
      lowest ((if bitOf fpmode 8 then [0x3B] else []) ++ (flagCause fpmode (fl - 1)).toList)
    else flagCause fpmode fl
  | _ => flagCause fpmode fl

/-- The command at the head of the engine is done: its registers may go to a park slot, its cause is raised (R189, R190). -/
def finishVector (core : Nat) (c : VecCommand) (cause : Option (Nat × Word)) : M Unit := do
  modify fun s => s.modCore core fun k => ({ k with vq := k.vq.drop 1 }).settleHeld s.now
  match cause with
  | some (x, a) => modify (raiseAsync core c.tid { code := x, kind := .a, addr := a })
  | none => pure ()

/-- A memory command that ended with status 1 or 2 is kept in sr.vstat and sr.vflt (R208). -/
def Core.vectorFault (k : Core) (pc : Word) (cause : Nat) : Core :=
  { k with
    vstat := k.vstat ||| atBit 1 16
    vflt := BitVec.ofNat 64 (fieldOf pc 55 2 * 4 + cause * 2 ^ 56) }

/-- The elements of a VMEM command: their type, their mask, whether it stores, whether its offsets stand in a register. -/
def vmemShape : Instr → Option (Nat × Nat × Bool × Bool)
  | .vld _ _ _ m _ e => some (e.toNat, m.toNat, false, false)
  | .vst _ _ _ m _ e => some (e.toNat, m.toNat, true, false)
  | .vlds _ _ _ m _ e => some (e.toNat, m.toNat, false, false)
  | .vgat _ _ _ m _ e => some (e.toNat, m.toNat, false, true)
  | .vsca _ _ _ m _ e => some (e.toNat, m.toNat, true, true)
  | _ => none

/-- The address of element i of a VMEM command (R197). -/
def Core.vmemAddr (k : Core) (c : VecCommand) (w i : Nat) : Word :=
  match c.instr with
  | .vlds .. => c.x + BitVec.ofNat 64 i * c.y
  | .vgat .. => c.x + wordOfInt (sextNat (k.elem c.vb 32 i) 32)
  | .vsca .. => c.x + wordOfInt (sextNat (k.elem c.vb 32 i) 32)
  | _ => c.x + c.y + BitVec.ofNat 64 (i * w / 8)

/-- The active elements of a VMEM command with their addresses. -/
def Core.vmemElems (k : Core) (c : VecCommand) (e m : Nat) : List (Nat × Word) :=
  let w := elWidth e
  ((List.range (512 / w)).filter fun i => k.active m w i).map fun i => (i, k.vmemAddr c w i)

/-- The address checks of an element (R198, R236): alignment, the local range, the capability table, canonical form. -/
def vmemCheck (core : Nat) (c : VecCommand) (n : Nat) (store : Bool) (ea : Word) (s : State) : Option Nat :=
  if ea.toNat % n ≠ 0 then some 0x10
  else if bitOf ea 63 then
    if localBad (s.coreAt core) ea n then some 0x14
    else if store && !c.priv && s.engineTable core ea n then some 0x21
    else none
  else if !isVirtual ea then some 0x11
  else none

/-- VLD, VST and VLDS make their checks at issue (R198); 0x11 of a non-canonical address follows in the engine. -/
def issueVmem (i : Instr) (d a b : BitVec 5) : M Unit := do
  let (gather, store) := match vmemShape i with | some (_, _, st, g) => (g, st) | none => (false, false)
  let vb ← vname b.toNat
  let y ← rg b
  let c : VecCommand := {
    instr := i, vd := ← vname d.toNat, vb := vb, x := ← rg a, y := if gather then 0 else y, priv := (← taskM).priv
    notify := match i with
      | .vld _ _ _ _ n _ | .vst _ _ _ _ n _ | .vlds _ _ _ _ n _ | .vgat _ _ _ _ n _ | .vsca _ _ _ _ n _ => n = 1
      | _ => false }
  match vmemShape i with
  | some (e, m, _, false) =>
    let s ← get
    let core := s.cur.core
    each (fun (x : Nat × Word) => match vmemCheck core c (elWidth e / 8) store x.2 s with
      | some 0x11 => pure ()
      | some code => trapP code x.2
      | none => pure ()) ((s.coreAt core).vmemElems c e m)
  | _ => pure ()
  queueVector c true

/-- Place every element of a memory command (R198): nothing is read or written before every address has translated. -/
def placeElems (core : Nat) (c : VecCommand) (n : Nat) (store : Bool) :
    List (Nat × Word) → M (Except (Nat × Word) (List (Nat × Word × Place)))
  | [] => return .ok []
  | (i, ea) :: r => do
    match ← enginePlace (coreTag core 0) core c.asid c.priv ea n store with
    | .error x => return .error (x, ea)
    | .ok p =>
      match ← placeElems core c n store r with
      | .error x => return .error x
      | .ok l => return .ok ((i, ea, p) :: l)

/-- Read the elements of a load. -/
def readElems (core n : Nat) : List (Nat × Word × Place) → M (Except (Nat × Word) (List (Nat × Nat × Bool)))
  | [] => return .ok []
  | (i, ea, p) :: r => do
    match ← readMarked core n p with
    | .error x => return .error (x, ea)
    | .ok (b, bad) =>
      match ← readElems core n r with
      | .error x => return .error x
      | .ok l => return .ok ((i, natOfBytes b, bad) :: l)

/-- Bring every line of a store into the die's L2 with ownership, before the first element is written. -/
def ownElems (core : Nat) : List (Nat × Word × Place) → M (Except (Nat × Word) Unit)
  | [] => return .ok ()
  | (_, ea, p) :: r => do
    let a ← (match p with
      | .phys pa nc sq => answering (do acquireOnce (dieOf core) (coveOf core) core pa nc sq true; return .ok ())
      | _ => return .ok ())
    match a with
    | .error x => return .error (x, ea)
    | .ok () => ownElems core r

/-- Is a byte range wholly covered by pieces? -/
def covered (l : List (Nat × Nat)) (a n : Nat) : Bool :=
  (List.range n).all fun j => l.any fun p => p.1 ≤ a + j && a + j < p.1 + p.2

/-- The marks of poison after a command wrote pieces (R114, R433): a unit written whole is clean. -/
def uncover (marks : List Nat) (size : Nat) (l : List (Nat × Nat)) : List Nat :=
  marks.filter fun k => !covered l (size * k) size

/-- The pieces written in the scratchpad, or at physical addresses. -/
def piecesOf (n : Nat) (isLocal : Bool) (l : List (Nat × Word × Place)) : List (Nat × Nat) :=
  l.filterMap fun x => match x.2.2 with
    | .spm o => if isLocal then some (o, n) else none
    | .phys pa _ _ => if isLocal then none else some (pa, n)

/-- Write the elements of a store in ascending order, each by its poison (R198, R433). -/
def writeElems (core n : Nat) (val : Nat → Nat × Bool) (l : List (Nat × Word × Place)) : M (Except (Nat × Word) Unit) := do
  match ← ownElems core l with
  | .error x => return .error x
  | .ok () =>
    each (fun (x : Nat × Word × Place) => do let _ ← engineWrite core x.2.2 (bytesOfNat n (val x.1).1)) l
    modify fun s => { (s.modCore core fun k => { k with spmPoison := uncover k.spmPoison 8 (piecesOf n true l) }) with
      poison := uncover s.poison 32 (piecesOf n false l) }
    each (fun (x : Nat × Word × Place) => if (val x.1).2 then modify (poisonPlace core x.2.2 n) else pure ()) l
    return .ok ()

/-- Perform a VMEM command (R198): its fault, if it met one, with the status of the completion. -/
def performVmem (core : Nat) (c : VecCommand) (e m : Nat) (store gather : Bool) : M (Option (Nat × Word × Nat)) := do
  let k ← coreM core
  let w := elWidth e
  let n := w / 8
  let els := k.vmemElems c e m
  let s ← get
  match els.findSome? fun x => (vmemCheck core c n store x.2 s).map fun code => (code, x.2) with
  | some (code, ea) => return some (code, ea, if code = 0x11 && !gather then 1 else 2)
  | none =>
    match ← placeElems core c n store els with
    | .error (x, ea) => return some (x, ea, if x = 0x14 then 2 else 1)
    | .ok l =>
      if store then
        match ← writeElems core n (fun i => (k.elem c.vd w i, k.elemPoison c.vd w i)) l with
        | .error (x, ea) => return some (x, ea, 1)
        | .ok () => return none
      else
        match ← readElems core n l with
        | .error (x, ea) => return some (x, ea, 1)
        | .ok vs =>
          let get (i : Nat) : Option (Nat × Bool) := (vs.find? fun v => v.1 == i).map (·.2)
          modify fun s => s.modCore core fun k => k.putElems c.vd w ((List.range (512 / w)).map get)
          return none

/-- A value of the optimizer's arithmetic: an expression that meets Inf or NaN is NaN (R207). -/
def vfinite (x : Num) : Num := match x with | .fin .. => x | _ => .nan false
/-- A sum in that arithmetic. -/
def vsum (x y : Num) : Num := vfinite ((vfinite x).add false (vfinite y)).1
/-- A product. -/
def vprod (x y : Num) : Num := vfinite ((vfinite x).mul (vfinite y)).1
/-- A quotient. -/
def vquot (x y : Num) : Num := vfinite ((vfinite x).div (vfinite y)).1
/-- A square root, to a precision beyond what any rounding of an expression can need. -/
def vroot (x : Num) : Num :=
  match x with
  | .fin n a d e => if a = 0 then x else if n then .nan false else finSqrt 1500 a d e
  | _ => .nan false
/-- An expression rounded once to FP32, to nearest even. -/
def vround (x : Num) : Nat := rne32 x

/-- The hyperparameters of vopt (R206): lr, b1, a1, b2, a2, eps, lam, k1, k2. -/
def optParam (desc : List Byte) (i : Nat) : Num := fp32.decode false (natOfBytes ((desc.drop (48 + 4 * i)).take 4))

/-- One element of vopt (R207): w', m', v'. -/
def optElement (desc : List Byte) (w mo va gr : Nat) : Nat × Nat × Nat :=
  let f := fp32.decode false
  let p := optParam desc
  let m' := vround (vsum (vprod (p 1) (f mo)) (vprod (p 2) (f gr)))
  let v' := vround (vsum (vprod (p 3) (f va)) (vprod (vprod (p 4) (f gr)) (f gr)))
  let u := vround (vquot (vprod (f m') (p 7)) (vsum (vroot (vprod (f v') (p 8))) (p 5)))
  let w' := vround (vsum (f w) (vprod (p 0) (vsum (f u) (vprod (p 6) (f w)))).negate)
  (w', m', v')

/-- An address of a vopt descriptor: w, mo, va2, gr, rec. -/
def optAddr (desc : List Byte) (i : Nat) : Word := wordOfList ((desc.drop (8 * i)).take 8)
/-- The element count of a descriptor. -/
def optCount (desc : List Byte) : Nat := fieldOf (optAddr desc 5) 12 0

/-- What is wrong with a vopt descriptor (R206): 0x01 with the address of the instruction, or 0x10 with that of the first array out of
line (R189). -/
def optBad (desc : List Byte) (pc : Word) : Option (Nat × Word) :=
  let n := optCount desc
  if n < 16 || n > 4096 || n % 16 ≠ 0 || fieldOf (optAddr desc 5) 63 13 ≠ 0 || (desc.drop 84).any (· ≠ 0) then some (0x01, pc)
  else (((List.range 5).map (optAddr desc)).find? fun a => decide (a.toNat % 64 ≠ 0)).map fun a => (0x10, a)

/-- The status of a fault of vopt: 1 translation, 2 address, poison of the descriptor. -/
def optStatus (cause : Nat) : Nat :=
  if [0x11, 0x12, 0x13, 0x15, 0x16, 0x27].contains cause then 1 else 2

/-- Read 16 FP32 values of an array: their bits, and whether any was poisoned. -/
def optRead (core : Nat) (c : VecCommand) (ea : Word) : M (Except (Nat × Word) (List Nat × Bool)) := do
  match ← engineLoadMarked (coreTag core 0) core c.asid c.priv ea 64 with
  | .error x => return .error x
  | .ok (b, bad) => return .ok ((pieces 4 16 b).map natOfBytes, bad)

/-- The places of 64 bytes of an array, by sectors, for writing, with ownership. From the unprivileged view no byte of the capability
table is written (R236; notes/assumptions/45.md). -/
def optPlaces (core : Nat) (c : VecCommand) (ea : Word) (n : Nat) : M (Except (Nat × Word) (List (Nat × Word × Place))) := do
  if !c.priv && (← get).engineTable core ea n then return .error (0x21, ea)
  let l := (sectors ea n (n / 32 + 2)).map fun p => (p.2, p.1)
  match ← placeElems core c 32 true l with
  | .error x => return .error x
  | .ok ps =>
    match ← ownElems core ps with
    | .error x => return .error x
    | .ok () => return .ok ps

/-- Write bytes at places that are owned. -/
def writePlaces (core : Nat) : List (Nat × Word × Place) → List Byte → M Unit
  | [], _ => pure ()
  | (n, _, p) :: r, bytes => do
    let _ ← engineWrite core p (bytes.take n)
    writePlaces core r (bytes.drop n)

/-- The head vector command changed. -/
def modVector (core : Nat) (f : VecCommand → VecCommand) : M Unit :=
  modify fun s => s.modCore core fun k => match k.vq with
    | c :: r => { k with vq := f c :: r }
    | [] => k

/-- vopt meets a fault: its record is still written where it can be. -/
def optStop (core : Nat) (x : Nat × Word) : M Unit := modVector core fun c => { c with fault := some x }

/-- Map a computation over a list up to the first error. -/
def eachOk {α β ε : Type} (f : α → M (Except ε β)) : List α → M (Except ε (List β))
  | [] => return .ok []
  | a :: r => do
    match ← f a with
    | .error e => return .error e
    | .ok b => match ← eachOk f r with
      | .error e => return .error e
      | .ok l => return .ok (b :: l)

/-- One group of vopt (R207): its four reads in order, up to one that faults, then its three writes. -/
def optGroup (core : Nat) (c : VecCommand) : M Unit := do
  let at_ (i : Nat) : Word := optAddr c.desc i + BitVec.ofNat 64 (64 * c.pos)
  match ← eachOk (fun i => optRead core c (at_ i)) [0, 1, 2, 3] with
  | .error x => optStop core x
  | .ok reads =>
    let val (j i : Nat) : Nat := nth (nth reads j ([], false)).1 i 0
    if reads.any (·.2) then
      modVector core fun c => { c with pos := c.pos + 1, withheld := c.withheld + 1, bitmap := c.bitmap + 2 ^ c.pos }
    else
      match ← eachOk (fun i => optPlaces core c (at_ i) 64) [0, 1, 2] with
      | .error x => optStop core x
      | .ok places =>
        let rs := (List.range 16).map fun i => optElement c.desc (val 0 i) (val 1 i) (val 2 i) (val 3 i)
        writePlaces core (nth places 0 []) (rs.flatMap fun r => bytesOfNat 4 r.1)
        writePlaces core (nth places 1 []) (rs.flatMap fun r => bytesOfNat 4 r.2.1)
        writePlaces core (nth places 2 []) (rs.flatMap fun r => bytesOfNat 4 r.2.2)
        modVector core fun c => { c with pos := c.pos + 1 }

/-- The end of a vopt (R206, R207): its completion, the fault in sr.vflt, and the lowest of its cause and 0x3E. -/
def optEnd (core : Nat) (c : VecCommand) (fault : Option (Nat × Word)) : M Unit := do
  match fault with
  | some x => modify fun s => s.modCore core fun k => k.vectorFault c.pc x.1
  | none => pure ()
  let withheld : Option (Nat × Word) := if c.withheld > 0 then some (0x3E, c.pc) else none
  finishVector core c (fault.or withheld)
  let status := match fault with | some x => optStatus x.1 | none => if c.withheld > 0 then 3 else 0
  modify (complain core c.tid
    (completionWords 1 status c.pc (BitVec.ofNat 64 c.pos) (BitVec.ofNat 64 c.withheld)))

/-- The next step of a vopt: its descriptor, a group, or its record (R206, R207). -/
def stepOpt (core : Nat) (c : VecCommand) : M Unit := do
  if c.desc.isEmpty then
    match ← engineLoad (coreTag core 0) core c.asid c.priv c.x 128 with
    | .error x => optEnd core c (some x)
    | .ok (b, bad) =>
      if bad then optEnd core c (some (0x19, c.x))
      else match optBad b c.pc with
        | some x => optEnd core c (some x)
        | none => modVector core fun c => { c with desc := b }
  else if c.fault.isNone && 16 * c.pos < optCount c.desc then optGroup core c
  else
    let bytes := bytesOfNat 8 c.pos ++ bytesOfNat 8 c.withheld ++ bytesOfNat 32 c.bitmap
    match ← optPlaces core c (optAddr c.desc 4) 48 with
    | .error x => optEnd core c (c.fault.or (some x))
    | .ok ps =>
      writePlaces core ps bytes
      optEnd core c c.fault

/-- VECTOR_COMMAND_PERFORM (R187 to R189): the engine performs its next command, or the next group of a vopt; it waits while a
completion of its own waits, and for the memory commands that the core accepted before. -/
def execVectorCommandPerform (core : Nat) (s : State) : Host.Outcome State Fault Refusal :=
  event (do
    let k := s.coreAt core
    match k.vq with
    | [] => throw .no
    | c :: _ =>
      enabled (!k.completionWaits 1)
      enabled (!memoryVector c.instr || k.inOrder c.id)
      match c.instr, vmemShape c.instr with
      | .vopt _, _ => stepOpt core c
      | _, some (e, m, store, gather) =>
        let r ← performVmem core c e m store gather
        match r with
        | some (x, a, status) =>
          modify fun s => s.modCore core fun k => k.vectorFault c.pc x
          finishVector core c (some (x, a))
          if c.notify then modify (complain core c.tid (completionWords 1 status c.pc 0 0))
        | none =>
          finishVector core c none
          if c.notify then modify (complain core c.tid (completionWords 1 0 c.pc 0 0))
      | i, none =>
        let (k', fl, met) := k.vectorOp c
        set (s.setCore core { k' with fpmode := setFlags k'.fpmode fl })
        finishVector core c ((vectorCause k.fpmode i fl met).map fun x => (x, c.pc))) s

/-- An instruction that writes a general register waits until the engine is empty (R187). -/
def engineEmpty : M Core := do
  let k ← cc
  waitUntil (k.vq.isEmpty && !k.completionWaits 1)
  return k

/-- VMOV_TO_G (R196). -/
def execVmovToG (d a k : BitVec 5) (e : BitVec 3) (s : State) : Host.Outcome State Fault Refusal :=
  other (do
    let r ← vname a.toNat
    let c ← engineEmpty
    let w := elWidth e.toNat
    check (c.elemPoison r w k.toNat) 0x19
    let v := c.elem r w k.toNat
    wg d (if e.toNat ≥ 5 then wordOfInt (sextNat v w) else BitVec.ofNat 64 v)) s

/-- VARGMAX (R205). -/
def execVargmax (d a : BitVec 5) (m e : BitVec 3) (s : State) : Host.Outcome State Fault Refusal :=
  other (do
    let r ← vname a.toNat
    let c ← engineEmpty
    let w := elWidth e.toNat
    check ((List.range (512 / w)).any fun i => c.active m.toNat w i && c.elemPoison r w i) 0x19
    wg d (c.argmax e.toNat r m.toNat)) s

/-- VBCAST (R196): the va field names a general register. -/
def execVbcast (d a : BitVec 5) (m e : BitVec 3) (s : State) : Host.Outcome State Fault Refusal :=
  other (do queueVector { instr := .vbcast d a m e, vd := ← vname d.toNat, x := ← rg a } false) s

/-- VOPT (R206, R207). -/
def execVopt (a : BitVec 5) (s : State) : Host.Outcome State Fault Refusal :=
  other (do
    let ea ← rg a
    check (ea.toNat % 128 ≠ 0) 0x10 ea
    queueVector { instr := .vopt a, x := ea, notify := true } true) s

/-- VTOPK (R205): the field is even; in a frame pass it is renamed. -/
def execVtopk (d : BitVec 4) (a : BitVec 5) (k : BitVec 4) (m e : BitVec 3) (s : State) : Host.Outcome State Fault Refusal :=
  vector (.vtopk d a k m e) (2 * d.toNat) a.toNat 0 s

/-- VADD (R193). -/
def execVadd (d : BitVec 5) (a : BitVec 5) (b : BitVec 5) (m : BitVec 3) (e : BitVec 3) (s : State) : Host.Outcome State Fault Refusal :=
  vector (.vadd d a b m e) d.toNat a.toNat b.toNat s

/-- VSUB (R193). -/
def execVsub (d : BitVec 5) (a : BitVec 5) (b : BitVec 5) (m : BitVec 3) (e : BitVec 3) (s : State) : Host.Outcome State Fault Refusal :=
  vector (.vsub d a b m e) d.toNat a.toNat b.toNat s

/-- VMUL (R193). -/
def execVmul (d : BitVec 5) (a : BitVec 5) (b : BitVec 5) (m : BitVec 3) (e : BitVec 3) (s : State) : Host.Outcome State Fault Refusal :=
  vector (.vmul d a b m e) d.toNat a.toNat b.toNat s

/-- VFMA (R193). -/
def execVfma (d : BitVec 5) (a : BitVec 5) (b : BitVec 5) (m : BitVec 3) (e : BitVec 3) (s : State) : Host.Outcome State Fault Refusal :=
  vector (.vfma d a b m e) d.toNat a.toNat b.toNat s

/-- VFMS (R193). -/
def execVfms (d : BitVec 5) (a : BitVec 5) (b : BitVec 5) (m : BitVec 3) (e : BitVec 3) (s : State) : Host.Outcome State Fault Refusal :=
  vector (.vfms d a b m e) d.toNat a.toNat b.toNat s

/-- VMIN (R193). -/
def execVmin (d : BitVec 5) (a : BitVec 5) (b : BitVec 5) (m : BitVec 3) (e : BitVec 3) (s : State) : Host.Outcome State Fault Refusal :=
  vector (.vmin d a b m e) d.toNat a.toNat b.toNat s

/-- VMAX (R193). -/
def execVmax (d : BitVec 5) (a : BitVec 5) (b : BitVec 5) (m : BitVec 3) (e : BitVec 3) (s : State) : Host.Outcome State Fault Refusal :=
  vector (.vmax d a b m e) d.toNat a.toNat b.toNat s

/-- VABS (R193). -/
def execVabs (d : BitVec 5) (a : BitVec 5) (m : BitVec 3) (e : BitVec 3) (s : State) : Host.Outcome State Fault Refusal :=
  vector (.vabs d a m e) d.toNat a.toNat 0 s

/-- VNEG (R193). -/
def execVneg (d : BitVec 5) (a : BitVec 5) (m : BitVec 3) (e : BitVec 3) (s : State) : Host.Outcome State Fault Refusal :=
  vector (.vneg d a m e) d.toNat a.toNat 0 s

/-- VDIV (R193). -/
def execVdiv (d : BitVec 5) (a : BitVec 5) (b : BitVec 5) (m : BitVec 3) (s : State) : Host.Outcome State Fault Refusal :=
  vector (.vdiv d a b m) d.toNat a.toNat b.toNat s

/-- VSQRT (R193). -/
def execVsqrt (d : BitVec 5) (a : BitVec 5) (m : BitVec 3) (s : State) : Host.Outcome State Fault Refusal :=
  vector (.vsqrt d a m) d.toNat a.toNat 0 s

/-- VRSQ (R193). -/
def execVrsq (d : BitVec 5) (a : BitVec 5) (m : BitVec 3) (s : State) : Host.Outcome State Fault Refusal :=
  vector (.vrsq d a m) d.toNat a.toNat 0 s

/-- VEXP2 (R193). -/
def execVexp2 (d : BitVec 5) (a : BitVec 5) (m : BitVec 3) (s : State) : Host.Outcome State Fault Refusal :=
  vector (.vexp2 d a m) d.toNat a.toNat 0 s

/-- VLOG2 (R193). -/
def execVlog2 (d : BitVec 5) (a : BitVec 5) (m : BitVec 3) (s : State) : Host.Outcome State Fault Refusal :=
  vector (.vlog2 d a m) d.toNat a.toNat 0 s

/-- VCMP_EQ (R195). -/
def execVcmpEq (d : BitVec 3) (a : BitVec 5) (b : BitVec 5) (m : BitVec 3) (e : BitVec 3) (s : State) : Host.Outcome State Fault Refusal :=
  vector (.vcmpEq d a b m e) 0 a.toNat b.toNat s

/-- VCMP_NE (R195). -/
def execVcmpNe (d : BitVec 3) (a : BitVec 5) (b : BitVec 5) (m : BitVec 3) (e : BitVec 3) (s : State) : Host.Outcome State Fault Refusal :=
  vector (.vcmpNe d a b m e) 0 a.toNat b.toNat s

/-- VCMP_LT (R195). -/
def execVcmpLt (d : BitVec 3) (a : BitVec 5) (b : BitVec 5) (m : BitVec 3) (e : BitVec 3) (s : State) : Host.Outcome State Fault Refusal :=
  vector (.vcmpLt d a b m e) 0 a.toNat b.toNat s

/-- VCMP_LE (R195). -/
def execVcmpLe (d : BitVec 3) (a : BitVec 5) (b : BitVec 5) (m : BitVec 3) (e : BitVec 3) (s : State) : Host.Outcome State Fault Refusal :=
  vector (.vcmpLe d a b m e) 0 a.toNat b.toNat s

/-- VSEL (R195). -/
def execVsel (d : BitVec 5) (a : BitVec 5) (b : BitVec 5) (m : BitVec 3) (e : BitVec 3) (s : State) : Host.Outcome State Fault Refusal :=
  vector (.vsel d a b m e) d.toNat a.toNat b.toNat s

/-- VAND (R192). -/
def execVand (d : BitVec 5) (a : BitVec 5) (b : BitVec 5) (m : BitVec 3) (e : BitVec 3) (s : State) : Host.Outcome State Fault Refusal :=
  vector (.vand d a b m e) d.toNat a.toNat b.toNat s

/-- VOR (R192). -/
def execVor (d : BitVec 5) (a : BitVec 5) (b : BitVec 5) (m : BitVec 3) (e : BitVec 3) (s : State) : Host.Outcome State Fault Refusal :=
  vector (.vor d a b m e) d.toNat a.toNat b.toNat s

/-- VXOR (R192). -/
def execVxor (d : BitVec 5) (a : BitVec 5) (b : BitVec 5) (m : BitVec 3) (e : BitVec 3) (s : State) : Host.Outcome State Fault Refusal :=
  vector (.vxor d a b m e) d.toNat a.toNat b.toNat s

/-- VSHL (R194). -/
def execVshl (d : BitVec 5) (a : BitVec 5) (b : BitVec 5) (m : BitVec 3) (e : BitVec 3) (s : State) : Host.Outcome State Fault Refusal :=
  vector (.vshl d a b m e) d.toNat a.toNat b.toNat s

/-- VSHR (R194). -/
def execVshr (d : BitVec 5) (a : BitVec 5) (b : BitVec 5) (m : BitVec 3) (e : BitVec 3) (s : State) : Host.Outcome State Fault Refusal :=
  vector (.vshr d a b m e) d.toNat a.toNat b.toNat s

/-- VPERM (R196). -/
def execVperm (d : BitVec 5) (a : BitVec 5) (b : BitVec 5) (m : BitVec 3) (e : BitVec 3) (s : State) : Host.Outcome State Fault Refusal :=
  vector (.vperm d a b m e) d.toNat a.toNat b.toNat s

/-- VMOV (R196). -/
def execVmov (d : BitVec 5) (a : BitVec 5) (m : BitVec 3) (e : BitVec 3) (s : State) : Host.Outcome State Fault Refusal :=
  vector (.vmov d a m e) d.toNat a.toNat 0 s

/-- VLD (R198). -/
def execVld (d : BitVec 5) (a : BitVec 5) (b : BitVec 5) (m : BitVec 3) (n : BitVec 1) (e : BitVec 3) (s : State) : Host.Outcome State Fault Refusal :=
  other (issueVmem (.vld d a b m n e) d a b) s

/-- VST (R198). -/
def execVst (d : BitVec 5) (a : BitVec 5) (b : BitVec 5) (m : BitVec 3) (n : BitVec 1) (e : BitVec 3) (s : State) : Host.Outcome State Fault Refusal :=
  other (issueVmem (.vst d a b m n e) d a b) s

/-- VLDS (R198). -/
def execVlds (d : BitVec 5) (a : BitVec 5) (b : BitVec 5) (m : BitVec 3) (n : BitVec 1) (e : BitVec 3) (s : State) : Host.Outcome State Fault Refusal :=
  other (issueVmem (.vlds d a b m n e) d a b) s

/-- VGAT (R198). -/
def execVgat (d : BitVec 5) (a : BitVec 5) (b : BitVec 5) (m : BitVec 3) (n : BitVec 1) (e : BitVec 3) (s : State) : Host.Outcome State Fault Refusal :=
  other (issueVmem (.vgat d a b m n e) d a b) s

/-- VSCA (R198). -/
def execVsca (d : BitVec 5) (a : BitVec 5) (b : BitVec 5) (m : BitVec 3) (n : BitVec 1) (e : BitVec 3) (s : State) : Host.Outcome State Fault Refusal :=
  other (issueVmem (.vsca d a b m n e) d a b) s

/-- VCVT (R200). -/
def execVcvt (d : BitVec 5) (a : BitVec 5) (p : BitVec 3) (m : BitVec 3) (t : BitVec 5) (e : BitVec 3) (s : State) : Host.Outcome State Fault Refusal :=
  vector (.vcvt d a p m t e) d.toNat a.toNat 0 s

/-- VCVT_FROM_FP4 (R200). -/
def execVcvtFromFp4 (d : BitVec 5) (a : BitVec 5) (p : BitVec 3) (m : BitVec 3) (e : BitVec 3) (s : State) : Host.Outcome State Fault Refusal :=
  vector (.vcvtFromFp4 d a p m e) d.toNat a.toNat 0 s

/-- VQUANT_FP4 (R201). -/
def execVquantFp4 (d : BitVec 5) (a : BitVec 5) (b : BitVec 5) (q : BitVec 5) (s : State) : Host.Outcome State Fault Refusal :=
  vector (.vquantFp4 d a b q) d.toNat a.toNat b.toNat s

/-- VQUANT_INT4X (R201). -/
def execVquantInt4x (d : BitVec 5) (a : BitVec 5) (b : BitVec 5) (s : State) : Host.Outcome State Fault Refusal :=
  vector (.vquantInt4x d a b) d.toNat a.toNat b.toNat s

/-- VDEQ_FP4 (R202). -/
def execVdeqFp4 (d : BitVec 5) (a : BitVec 5) (h : BitVec 1) (m : BitVec 3) (q : BitVec 5) (e : BitVec 3) (s : State) : Host.Outcome State Fault Refusal :=
  vector (.vdeqFp4 d a h m q e) d.toNat a.toNat 0 s

/-- VDEQ_INT4X (R202). -/
def execVdeqInt4x (d : BitVec 5) (a : BitVec 5) (h : BitVec 1) (m : BitVec 3) (e : BitVec 3) (s : State) : Host.Outcome State Fault Refusal :=
  vector (.vdeqInt4x d a h m e) d.toNat a.toNat 0 s

/-- VRED_SUM (R204). -/
def execVredSum (d : BitVec 5) (a : BitVec 5) (m : BitVec 3) (e : BitVec 3) (s : State) : Host.Outcome State Fault Refusal :=
  vector (.vredSum d a m e) d.toNat a.toNat 0 s

/-- VRED_MAX (R204). -/
def execVredMax (d : BitVec 5) (a : BitVec 5) (m : BitVec 3) (e : BitVec 3) (s : State) : Host.Outcome State Fault Refusal :=
  vector (.vredMax d a m e) d.toNat a.toNat 0 s

/-- VRED_MIN (R204). -/
def execVredMin (d : BitVec 5) (a : BitVec 5) (m : BitVec 3) (e : BitVec 3) (s : State) : Host.Outcome State Fault Refusal :=
  vector (.vredMin d a m e) d.toNat a.toNat 0 s

end Sys2Proof.Machine
end

