-- ==== Sys2Proof/Machine/Matrix.lean ====
section
/-! DEFINITION. The matrix unit (spec/11, major 0x2B): format contexts, operand slots, accumulator tiles, the port queue and the two
arbiters. A granted fetch reads one memory line an event, a granted mrd or mwr one row (notes/assumptions/22.md). -/

namespace Sys2Proof.Machine

/-- The format of an operand in a context (R214). -/
def ctxFmt (w0 : Word) (b : Bool) : Nat := if b then fieldOf w0 7 4 else fieldOf w0 3 0
/-- The block scale format of an operand. -/
def ctxScale (w0 : Word) (b : Bool) : Nat := if b then fieldOf w0 11 10 else fieldOf w0 9 8
/-- The block shape of an operand. -/
def ctxShape (w0 : Word) (b : Bool) : Nat := if b then fieldOf w0 17 15 else fieldOf w0 14 12
/-- Float mode: both formats are BF16 or FP16 (R215). -/
def ctxFloat (w0 : Word) : Bool := ctxFmt w0 false ≥ 5
/-- The depth D (R215). -/
def ctxDepth (w0 : Word) : Nat :=
  if ctxFloat w0 then 32 else if ctxFmt w0 false ≤ 1 && ctxFmt w0 true ≤ 1 then 128 else 64

/-- The conditions of R215 on one operand. -/
def operandValid (w0 : Word) (b : Bool) : Bool :=
  let f := ctxFmt w0 b
  let sc := ctxScale w0 b
  let sh := ctxShape w0 b
  f ≤ 6 && sc ≤ 2 && sh ≤ 6 && (f < 5 || (sc == 0 && sh == 0)) && (f ≠ 0 && f ≠ 2 && f ≠ 3 || sc ≠ 0) &&
    (f ≠ 1 || (sc == 1 && sh == 2)) && (f ≠ 4 || sc ≠ 0 || sh == 0)

/-- Is a format context valid (R215)? -/
def ctxValid (w0 w1 : Word) : Bool :=
  fieldOf w0 63 20 == 0 && operandValid w0 false && operandValid w0 true &&
  (if ctxFmt w0 false ≤ 4 then ctxFmt w0 true ≤ 4 else ctxFmt w0 true == ctxFmt w0 false) &&
  (!bitOf w0 18 || fieldOf w1 31 16 == 0) && (!bitOf w0 19 || fieldOf w1 63 48 == 0)

/-- The bits of an element of a format. -/
def fmtBits (f : Nat) : Nat := if f ≤ 1 then 4 else if f ≤ 4 then 8 else 16

/-- The memory lines of a tile and the elements of each (R218). -/
def tileLines (col : Bool) (d : Nat) : Nat × Nat := if col then (d, 32) else (32, d)
/-- The bytes of a memory line. -/
def lineBytes (fmt len : Nat) : Nat := if fmt = 1 then len / 32 * 20 else len * fmtBits fmt / 8
/-- The memory lines and positions of a block (R218). -/
def blockExtent (shape : Nat) (col : Bool) : Nat × Nat :=
  if shape = 3 then (32, 32)
  else
    let b := 8 * 2 ^ (shape % 4)
    if (shape < 3) != col then (1, b) else (b, 1)
/-- The rows and columns of the scale grid of a tile, by memory lines and positions. -/
def scaleGrid (shape : Nat) (col : Bool) (d : Nat) : Nat × Nat :=
  let (n, len) := tileLines col d
  let (bl, bp) := blockExtent shape col
  ((n + bl - 1) / bl, (len + bp - 1) / bp)

/-- The elements along K that a block covers: a shape along X makes every k its own (R225). -/
def shapeK (shape : Nat) : Nat := if shape = 3 then 32 else if shape < 3 then 8 * 2 ^ shape else 1

/-- The context that a command accepted now will meet: the last mctx in the queue, or the one in force (R222). -/
def Core.nextContext (k : Core) : Word × Word × Bool :=
  match (k.mq.filter fun (c : MatCommand) => match c.instr with | .mctx .. => true | _ => false).getLast? with
  | some c => (c.x, c.y, true)
  | none => (k.mctx0, k.mctx1, k.mctxVal)

/-- An operand slot of a core. -/
def Core.slotAt (k : Core) (i : Nat) : OperandSlot := tabGet k.slots i {}
/-- A core with an operand slot written. -/
def Core.setSlot (k : Core) (i : Nat) (o : OperandSlot) : Core := { k with slots := tabPut k.slots i o }
/-- An accumulator tile of a core. -/
def Core.acc (k : Core) (n : BitVec 1) : AccTile := if n = 1 then k.acc1 else k.acc0
/-- A core with a tile written. -/
def Core.setAcc (k : Core) (n : BitVec 1) (t : AccTile) : Core := if n = 1 then { k with acc1 := t } else { k with acc0 := t }

/-- The slots that an mma names: rank and index of A and of B (R221). -/
def mmaSlots : Instr → List (Nat × Nat)
  | .mma p q _ _ _ => [(p.toNat / 16, p.toNat % 16), (q.toNat / 16, q.toNat % 16)]
  | _ => []

/-- The cores of the block of a core, by rank. -/
def State.mates (s : State) (c : Nat) : List Nat := match s.blockOf c with | some b => b.cores | none => [c]

/-- Is an mma that the unit accepted before a number, and that names slot i of a core, not yet retired (R223, R228)? -/
def State.namedBefore (s : State) (c i id : Nat) : Bool :=
  (s.mates c).any fun x => ((s.coreAt x).mq ++ (s.coreAt x).mret).any fun (m : MatCommand) =>
    m.id < id && (mmaSlots m.instr).contains (s.rankOf c, i)

/-- The slots that an mma releases at its retirement (R225). -/
def mmaReleases : Instr → List (Nat × Nat)
  | .mma p q _ ra rb => (if ra = 1 then [(p.toNat / 16, p.toNat % 16)] else []) ++ (if rb = 1 then [(q.toNat / 16, q.toNat % 16)] else [])
  | _ => []

/-- Must an mma wait for one that the unit accepted before it (R231): for the retirement of one that releases a slot it names, or
for the grant of one that names a slot it releases? -/
def State.mmaBehind (s : State) (c : Nat) (m : MatCommand) : Bool :=
  let before (x : MatCommand) : Bool := x.id < m.id
  let here := mmaSlots m.instr
  (s.mates c).any fun x =>
    (((s.coreAt x).mq ++ (s.coreAt x).mret).any fun x => before x && (mmaReleases x.instr).any here.contains) ||
    ((s.coreAt x).mq.any fun x => before x && (mmaReleases m.instr).any (mmaSlots x.instr).contains)

/-- Is a slot that an mma of a core names being filled (R217)? -/
def State.namesFilling (s : State) (c : Nat) (i : Instr) : Bool :=
  (mmaSlots i).any fun x => match (s.mates c)[x.1]? with
    | some p => ((s.coreAt p).slotAt x.2).state == 1
    | none => false

/-- The head of a core's port queue, if it needs no grant: mctx and mrel take effect there (R212, R222, R228). -/
def settlePort (c : Nat) (s : State) : State :=
  let k := s.coreAt c
  match k.mq with
  | [] => s
  | m :: r =>
    match m.instr with
    | .mctx .. => s.setCore c { k with mq := r, mctx0 := m.x, mctx1 := m.y, mctxVal := true }
    | .mrel i =>
      if s.namedBefore c i.toNat m.id then s
      else s.setCore c { k with mq := r, slots := tabDel k.slots i.toNat }
    | .mrelAll =>
      if (List.range 16).any fun i => s.namedBefore c i m.id then s
      else s.setCore c { k with mq := r, slots := [] }
    | .mma .. => if s.namesFilling c m.instr then s.setCore c { k with mq := { m with delayed := true } :: r } else s
    | _ => s

/-- The heads of the port queues of a cove take what effect they can, and a held task whose last command that was parks (R229). -/
def settleMat (cove : Nat) (s : State) : State :=
  let cores := (List.range 8).map fun i => cove * 16 + i
  let round (s : State) : State := cores.foldl (fun s c => settlePort c s) s
  let holds (t : Task) : Bool := t.status == .held
  cores.foldl (fun s c =>
    let k := s.coreAt c
    if holds k.b0 || holds k.b1 then s.setCore c (k.settleHeld s.now) else s) (round (round s))

/-- Accept a command into the port queue (R211): while it holds two the core waits; a memory command first drains the store
buffer. -/
def queueMat (i : Instr) (x y z : Word) (tlb : List TlbEntry) : M Unit := do
  waitUntil ((← cc).mq.length < 2)
  if memoryMatrix i then drain
  let id ← nextCommand
  let s ← get
  let k ← cc
  let ctx := k.nextContext
  let m : MatCommand := {
    id := id, instr := i, x := x, y := y, z := z, w0 := ctx.1, w1 := ctx.2.1, mode := k.fpmode
    tid := s.task.tid, pc := s.pc, asid := s.asidOf s.cur.core, priv := s.task.priv
    tlb := tlb }
  modCC fun k => { k with mq := k.mq ++ [m] }
  modify (settleMat (coveOf s.cur.core))

/-- The context of a command at its issue must be valid (0x34). -/
def contextM : M Word := do
  let ctx := (← cc).nextContext
  check (!ctx.2.2) 0x34
  return ctx.1

/-- MCTX (R222). -/
def execMctx (a b : BitVec 5) (s : State) : Host.Outcome State Fault Refusal :=
  other (do
    let x ← rg a
    let y ← rg b
    check (!ctxValid x y) 0x34
    queueMat (.mctx a b) x y 0 []) s

/-- MMA (R225): its issue check. -/
def execMma (p q : BitVec 7) (n r l : BitVec 1) (s : State) : Host.Outcome State Fault Refusal :=
  other (do
    let _ ← contextM
    queueMat (.mma p q n r l) 0 0 0 []) s

/-- MZERO (R226). -/
def execMzero (t : BitVec 1) (s : State) : Host.Outcome State Fault Refusal :=
  other (do
    let _ ← contextM
    queueMat (.mzero t) 0 0 0 []) s

/-- MREL (R228). -/
def execMrel (i : BitVec 4) (s : State) : Host.Outcome State Fault Refusal := other (queueMat (.mrel i) 0 0 0 []) s
/-- MREL_ALL (R228). -/
def execMrelAll (s : State) : Host.Outcome State Fault Refusal := other (queueMat .mrelAll 0 0 0 []) s

/-- The status bits of a tile (R228): inx, an ovf, a class other than finite, its mode. -/
def AccTile.status (t : AccTile) : Nat :=
  (if t.inx then 1 else 0) + (if t.cells.any fun c => c.2.ovf then 2 else 0) +
    (if t.cells.any fun c => c.2.cls ≠ 0 then 4 else 0) + (if t.float then 8 else 0)

/-- MSTAT (R228): every earlier MAT command of the core has retired. -/
def execMstat (a : BitVec 5) (s : State) : Host.Outcome State Fault Refusal :=
  other (do
    let k ← cc
    waitUntil (k.mq.isEmpty && k.mret.isEmpty)
    let bits (f : OperandSlot → Bool) : Nat := (List.range 16).foldl (fun n i => if f (k.slotAt i) then n + 2 ^ i else n) 0
    wg a (BitVec.ofNat 64 (k.acc0.status + 16 * k.acc1.status + (if k.mctxVal then 256 else 0) +
      bits (fun o => o.state == 2) * 2 ^ 16 + bits (fun o => !o.poison.isEmpty) * 2 ^ 32))) s

/-- Translate a piece of a matrix access at its issue (R126, R211): the entry used, or the cause. `what` is 2 + i for an mfetch into slot i. -/
def matEntry (ea : Word) (write : Bool) (what : Nat) : M (Except Nat TlbEntry) := do
  let s ← get
  let core := s.cur.core
  let t := s.task
  let asid := s.asidOf core
  let who : Requester := .task core t.tid s.cur.a what s.pc ea
  let kind := if write then 1 else 0
  shipAnswered ea
  match ← tlbSearch core asid ea.toNat true with
  | none =>
    if s.joinedTicket t asid ea then throw .stall
    modify (startWalk core asid ea kind t.priv false 0 who); throw .stall
  | some e =>
    if !e.r then return .error 0x11
    else if !e.u && !t.priv then return .error 0x13
    else if write && !e.w then return .error 0x12
    else if e.rg then
      if s.joinedTicket t asid ea then throw .stall
      modify (startWalk core asid ea kind t.priv true e.rix who); throw .stall
    else return .ok e

/-- Check every piece of a tile or image at issue: the entries that translate it, or the first faulting byte and its cause. From the
unprivileged view no byte of the capability table is written (R236; notes/assumptions/45.md). -/
def matEntries (write : Bool) (what : Nat) : List (Word × Nat) → M (Except (Nat × Word) (List TlbEntry))
  | [] => return .ok []
  | (ea, n) :: r => do
    if bitOf ea 63 then
      let s ← get
      if localBad (s.coreAt s.cur.core) ea n then return .error (0x14, ea)
      else if write && !s.task.priv && s.engineTable s.cur.core ea n then return .error (0x21, ea)
      else matEntries write what r
    else if !isVirtual ea then return .error (0x11, ea)
    else
      match ← matEntry ea write what with
      | .error c => return .error (c, ea)
      | .ok e =>
        match ← matEntries write what r with
        | .error x => return .error x
        | .ok l => return .ok (if l.contains e then l else e :: l)

/-- The pieces of a range within 32-byte sectors. -/
def matPieces (ea : Word) (n : Nat) : List (Word × Nat) := sectors ea n (n / 32 + 2)

/-- The strides of an mfetch. -/
def fetchStrides (y : Word) : Nat × Nat := (fieldOf y 31 0, fieldOf y 63 32)
/-- The data of a memory line of a fetch: address and bytes. -/
def fetchLine (x y : Word) (fmt : Nat) (col : Bool) (d l : Nat) : Word × Nat :=
  (x + BitVec.ofNat 64 (l * (fetchStrides y).1), lineBytes fmt (tileLines col d).2)
/-- The scale bytes of a row of the scale grid: address and bytes. -/
def fetchScales (y z : Word) (shape : Nat) (col : Bool) (d g : Nat) : Word × Nat :=
  (z + BitVec.ofNat 64 (g * (fetchStrides y).2), (scaleGrid shape col d).2)

/-- Does a fetch read scales of its own (R223)? -/
def ownScales (fmt sc : Nat) : Bool := sc ≠ 0 && fmt ≠ 1

/-- MFETCH (R223, R224): the issue checks; a fetch fault raises 0x50. -/
def execMfetch (a b c : BitVec 5) (o r : BitVec 1) (sl : BitVec 4) (s : State) : Host.Outcome State Fault Refusal :=
  other (do
    let w0 ← contextM
    let role : Bool := r = 1
    let col : Bool := o = 1
    let fmt := ctxFmt w0 role
    let sc := ctxScale w0 role
    let shape := ctxShape w0 role
    let d := ctxDepth w0
    check (fmt = 1 && col) 0x3C
    check (ownScales fmt sc && c = 0) 0x3C
    check (!ownScales fmt sc && c ≠ 0) 0x01
    let x ← rg a
    let y ← rg b
    let z ← rg c
    check (x.toNat % 16 ≠ 0 || (fetchStrides y).1 % 16 ≠ 0) 0x10 x
    let lines := (List.range (tileLines col d).1).map (fetchLine x y fmt col d)
    let scales := if ownScales fmt sc then (List.range (scaleGrid shape col d).1).map (fetchScales y z shape col d) else []
    match ← matEntries false (2 + sl.toNat) ((lines ++ scales).flatMap fun p => matPieces p.1 p.2) with
    | .error (code, ea) =>
      modCC fun k => { k with mflt := BitVec.ofNat 64 (code + sl.toNat * 256) }
      trapP 0x50 ea (code + sl.toNat * 256)
    | .ok tlb => queueMat (.mfetch a b c o r sl) x y z tlb) s

/-- The row forms of mrd: bytes per row. -/
def mrdRow (f : BitVec 2) : Nat := if f = 0 then 128 else 64
/-- The bytes of the raw image of a tile (R227). -/
def imageSize : Nat := 17472

/-- The address of row i of an mrd or mwr, and its bytes: the raw image is moved in pieces of 512 bytes. -/
def mrdPiece (i : Instr) (x y : Word) (n : Nat) : Word × Nat :=
  match i with
  | .mrd _ _ _ _ f => if f = 2 then (x + BitVec.ofNat 64 (512 * n), min 512 (imageSize - 512 * n)) else (x + BitVec.ofNat 64 n * y, mrdRow f)
  | _ => (x + BitVec.ofNat 64 (512 * n), min 512 (imageSize - 512 * n))
/-- How many pieces an mrd or mwr moves. -/
def mrdPieces : Instr → Nat
  | .mrd _ _ _ _ f => if f = 2 then 35 else 32
  | _ => 35

/-- The range checks of mrd and mwr at issue (R227). -/
def imageChecks (i : Instr) (x y : Word) (write : Bool) : M (List TlbEntry) := do
  match ← matEntries write 0 (((List.range (mrdPieces i)).map (mrdPiece i x y)).flatMap fun p => matPieces p.1 p.2) with
  | .error (code, ea) => trapP code ea
  | .ok tlb => return tlb

/-- MRD (R227). -/
def execMrd (a b : BitVec 5) (t z : BitVec 1) (f : BitVec 2) (s : State) : Host.Outcome State Fault Refusal :=
  other (do
    let x ← rg a
    let y ← rg b
    if f ≠ 2 then discard contextM
    check (x.toNat % 64 ≠ 0 || (f ≠ 2 && y.toNat % 64 ≠ 0)) 0x10 x
    let tlb ← imageChecks (.mrd a b t z f) x y true
    queueMat (.mrd a b t z f) x y 0 tlb) s

/-- MWR (R227). -/
def execMwr (a : BitVec 5) (t : BitVec 1) (s : State) : Host.Outcome State Fault Refusal :=
  other (do
    let x ← rg a
    check (x.toNat % 64 ≠ 0) 0x10 x
    let tlb ← imageChecks (.mwr a t) x 0 false
    queueMat (.mwr a t) x 0 0 tlb) s

/-- Where a piece of an accepted command lands, by the entries that translated it; a command whose core was absent when such an entry
was removed translates again (R145). -/
def MatCommand.place (core : Nat) (m : MatCommand) (ea : Word) (write : Bool) : M (Except Nat Place) := do
  if bitOf ea 63 then return .ok (.spm (fieldOf ea 17 0))
  match m.tlb.find? fun e => e.matchesVa m.asid ea.toNat with
  | some e => return .ok (.phys (e.paOf ea.toNat) e.nc e.sq)
  | none => enginePlace (coreTag core 2) core m.asid m.priv ea 1 write

/-- Read a piece: its bytes, each with its poison. What HBM holds uncorrectable, host memory while the host is lost, and what can no
longer be translated, reads as poisoned (R223). A further row of a square sector in column orientation is `more` of one slice access
(R159, R218). -/
def matRead (core n : Nat) (more : Bool) (p : Except Nat Place) : M (List (Byte × Bool)) := do
  match p with
  | .error _ => return List.replicate n (0, true)
  | .ok (.spm off) =>
    let k ← coreM core
    return (cellsGet k.spm off n).zip ((List.range n).map fun i => k.spmBad (off + i) 1)
  | .ok (.phys pa nc sq) =>
    let bring := if more then bringLine else acquireOnce
    match ← answering (do bring (dieOf core) (coveOf core) core pa nc sq false; return .ok ()) with
    | .error _ => return List.replicate n (0, true)
    | .ok () =>
      let s ← get
      return (s.physGet (dieOf core) pa n sq).map fun b => (b, s.poisoned pa n)

/-- The ways of a line's set on a die that operand slots pin, without its own (R219). -/
def State.pinnedWays (s : State) (d u : Nat) (l : L2Line) : Nat :=
  let pins := s.pinned d
  ((s.dieAt d).l2.filter fun e =>
    pins.contains e.1 && e.1 ≠ u && e.2.slice == l.slice && l2SetOf e.1 == l2SetOf u).foldl (fun n e => n + e.2.ways) 0

/-- Pin the unit of a piece for a slot (R219): beyond eight pinned ways of its set, it is read without a pin, which counts once for
the line (R230). -/
def pinPiece (core slot : Nat) (p : Except Nat Place) (s : State) : State :=
  match p with
  | .error _ => s
  | .ok (.spm _) => s
  | .ok (.phys pa _ sq) =>
    let d := dieOf core
    let u := unitOf pa sq
    let k := s.coreAt core
    let o := k.slotAt slot
    match s.l2Line d u with
    | none => s
    | some l =>
      if o.pins.contains u then s
      else if s.pinnedWays d u l + l.ways ≤ 8 then s.setCore core (k.setSlot slot { o with pins := o.pins ++ [u] })
      else match k.mq with
        | m :: r =>
          if m.unpinned.contains u then s
          else s.setCore core { k with
            mxstat := bumpField k.mxstat 15 0 1, mq := { m with unpinned := u :: m.unpinned } :: r }
        | [] => s

/-- Read the pieces of a range for a fetch, pinning their lines. -/
def fetchPieces (core slot : Nat) (m : MatCommand) : List (Word × Nat) → M (List (Byte × Bool))
  | [] => return []
  | (ea, n) :: r => do
    let p ← m.place core ea false
    let o := ((← get).coreAt core).slotAt slot
    let more := match p with | .ok (.phys pa _ true) => o.col && (o.pins ++ m.unpinned).contains (unitOf pa true) | _ => false
    let b ← matRead core n more p
    modify (pinPiece core slot p)
    let bs ← fetchPieces core slot m r
    return b ++ bs

/-- The head of a core's port queue, changed. -/
def modPort (core : Nat) (f : MatCommand → MatCommand) : M Unit :=
  modify fun s => s.modCore core fun k => match k.mq with
    | m :: r => { k with mq := f m :: r }
    | [] => k

/-- The head command has been performed: it goes to its retirement (R211). -/
def performedMat (core : Nat) (f : MatCommand → MatCommand) : M Unit := do
  modify fun s => s.modCore core fun k => match k.mq with
    | m :: r => { k with mq := r, mret := k.mret ++ [f { m with granted := false, data := [], unpinned := [] }] }
    | [] => k
  modify (settleMat (coveOf core))

/-- The element of a memory line that holds byte j of it: the first of two in a nibble format; for INT4X the block (R173). -/
def elementsOfByte (fmt len j : Nat) : List Nat :=
  match fmt with
  | 0 => [2 * j, 2 * j + 1]
  | 1 => if j % 20 < 16 then [j / 20 * 32 + j % 20 * 2, j / 20 * 32 + j % 20 * 2 + 1] else (List.range 32).map (j / 20 * 32 + ·)
  | 2 | 3 | 4 => [j]
  | _ => if j / 2 < len then [j / 2] else []

/-- The next memory line of a granted fetch (R218, R223), or, after the last, its scales: then the slot is full. -/
def fetchStep (core : Nat) (m : MatCommand) (role col : Bool) (slot : Nat) : M Unit := do
  let fmt := ctxFmt m.w0 role
  let sc := ctxScale m.w0 role
  let shape := ctxShape m.w0 role
  let d := ctxDepth m.w0
  let (n, len) := tileLines col d
  if m.pos < n then
    let p := fetchLine m.x m.y fmt col d m.pos
    let b ← fetchPieces core slot m (matPieces p.1 p.2)
    let bad := ((List.range b.length).filter fun j => (nth b j (0, false)).2).flatMap (elementsOfByte fmt len)
    modify fun s => s.modCore core fun k =>
      let o := k.slotAt slot
      k.setSlot slot { o with
        data := o.data ++ b.map (·.1), poison := (bad.map (m.pos * len + ·)).foldl markPut o.poison }
    modPort core fun m => { m with pos := m.pos + 1 }
  else
    let (rows, cols) := scaleGrid shape col d
    let (bl, bp) := blockExtent shape col
    let rowList := if ownScales fmt sc then List.range rows else []
    let b ← fetchPieces core slot m (rowList.flatMap fun g => let p := fetchScales m.y m.z shape col d g; matPieces p.1 p.2)
    let bad := (List.range (n * len)).filter fun e => (nth b (e / len / bl * cols + e % len / bp) (0, false)).2
    modify fun s => s.modCore core fun k =>
      let o := k.slotAt slot
      k.setSlot slot { o with state := 2, scales := b.map (·.1), poison := bad.foldl markPut o.poison }
    performedMat core id

/-- Is the head of a core's queue a fetch that may be granted (R212, R223): its slot is named by no earlier mma, and its place in
the order of memory commands has come? -/
def State.fetchReady (s : State) (c : Nat) : Bool :=
  match (s.coreAt c).mq with
  | m :: _ => match m.instr with
    | .mfetch _ _ _ _ _ sl => !s.namedBefore c sl.toNat m.id && (s.coreAt c).inOrder m.id
    | _ => false
  | [] => false

/-- The cores of a cove in the order in which an arbiter looks at them: after the one granted last. -/
def arbiterOrder (cove next : Nat) : List Nat := (List.range 8).map fun i => cove * 16 + (next + i) % 8

/-- Is the head of a core's queue granted and in progress? -/
def State.inProgress (s : State) (fetch : Bool) (c : Nat) : Bool :=
  match (s.coreAt c).mq with
  | m :: _ => m.granted && (match m.instr with | .mfetch .. => fetch | _ => !fetch)
  | [] => false

/-- TILE_FETCH_GRANT (R212, R223): the arbiter grants the next ready mfetch, whose slot becomes filling; each further event
reads a memory line of the granted one, and the last its scales. -/
def execTileFetchGrant (cove : Nat) (s : State) : Host.Outcome State Fault Refusal :=
  event (do
    let order := arbiterOrder cove (s.coveAt cove).fetchNext
    let go (c : Nat) : M Unit := do
      match ((← get).coreAt c).mq with
      | m :: _ => match m.instr with
        | .mfetch _ _ _ o r sl => fetchStep c m (r = 1) (o = 1) sl.toNat
        | _ => pure ()
      | [] => pure ()
    match order.find? (s.inProgress true) with
    | some c => go c
    | none =>
      let c ← orNo (order.find? s.fetchReady)
      modify fun s => s.modCove cove fun v => { v with fetchNext := (c % 16 + 1) % 8 }
      match (s.coreAt c).mq with
      | m :: _ => match m.instr with
        | .mfetch _ _ _ o r sl =>
          let role : Bool := r = 1
          modPort c fun m => { m with granted := true }
          modify fun s => s.modCore c fun k => k.setSlot sl.toNat {
            state := 1, roleB := role, fmt := ctxFmt m.w0 role, scale := ctxScale m.w0 role, shape := ctxShape m.w0 role
            depth := ctxDepth m.w0, fetch := [m.x, m.y, m.z], col := o = 1 }
          modify (settleMat cove)
          go c
        | _ => pure ()
      | [] => pure ()) s

/-- The byte i of a list. -/
def byteAt (l : List Byte) (i : Nat) : Nat := (nth l i 0).toNat

/-- An element of a full slot by row of A or column of B and depth, with the block scale that covers it (R170 to R174, R218). An
INT4X element carries its block's scale in its value. -/
def OperandSlot.element (o : OperandSlot) (ftz : Bool) (x k : Nat) : Num × Num :=
  let (_, len) := tileLines o.col o.depth
  let (l, p) := if o.col then (k, x) else (x, k)
  let lb := lineBytes o.fmt len
  let one : Num := .fin false 1 1 0
  let (bl, bp) := blockExtent o.shape o.col
  let code := byteAt o.scales (l / bl * (scaleGrid o.shape o.col o.depth).2 + p / bp)
  let scale := match o.scale with | 0 => one | 1 => e8m0 code | _ => e5m2.decode false code
  match o.fmt with
  | 0 => (fp4.decode false (let b := byteAt o.data (l * lb + p / 2); if p % 2 = 0 then b % 16 else b / 16), scale)
  | 1 => (nth (int4xDecode ((o.data.drop (l * lb + p / 32 * 20)).take 20)).1 (p % 32) (.nan false), one)
  | 2 => (e4m3.decode false (byteAt o.data (l * lb + p)), scale)
  | 3 => (e5m2.decode false (byteAt o.data (l * lb + p)), scale)
  | 4 => (Num.ofInt (sextNat (byteAt o.data (l * lb + p)) 8), scale)
  | 5 => (bf16.decode ftz (byteAt o.data (l * lb + 2 * p) + 256 * byteAt o.data (l * lb + 2 * p + 1)), one)
  | _ => (fp16.decode ftz (byteAt o.data (l * lb + 2 * p) + 256 * byteAt o.data (l * lb + 2 * p + 1)), one)

/-- Row x of an operand along K. -/
def OperandSlot.along (o : OperandSlot) (ftz : Bool) (x : Nat) : List (Num × Num) :=
  (List.range o.depth).map (o.element ftz x)

/-- The INT4X blocks of a slot (R173): whether one has a NaN scale, whether one is bad. -/
def OperandSlot.blocks (o : OperandSlot) : List (Bool × Bool) :=
  if o.fmt = 1 then (pieces 20 (o.data.length / 20) o.data).map fun b => (int4xDecode b).2 else []
/-- Does a slot hold a NaN block scale (R175)? -/
def OperandSlot.nanScale (o : OperandSlot) : Bool :=
  (o.blocks.any (·.1)) || (match o.scale with
    | 0 => false
    | 1 => o.fmt ≠ 1 && o.scales.any (· = 255)
    | _ => o.scales.any fun b => (e5m2.decode false b.toNat).isNan)

/-- Is an element of row x poisoned? -/
def OperandSlot.poisonRow (o : OperandSlot) (x : Nat) : Bool :=
  let (_, len) := tileLines o.col o.depth
  o.poison.any fun e => (if o.col then e % len else e / len) == x

/-- The class of a special value (R176). -/
def classOf : Num → Nat
  | .nan _ => 3
  | .inf n => if n then 2 else 1
  | .fin .. => 0

/-- The class after a contribution (R177). -/
def combineCls (now c : Nat) : Nat := if now = 0 then c else if now = c then now else 3

/-- The largest value of the accumulator window, in units of 2^-64 (R176). -/
def accMax : Int := 2 ^ 127 - 1

/-- Add a contribution c to an accumulator element (R177): the element, whether c was inexact, whether it saturated. -/
def accumulate (a : AccCell) (c : Num) : AccCell × Bool × Bool :=
  match c with
  | .fin n m d e =>
    let (q, chg, _) := roundInt (-(2 ^ 1000)) (2 ^ 1000) 0 none n m d (e + 64)
    if a.cls = 0 then
      let t := a.value.toInt + q
      if t > accMax then ({ a with value := BitVec.ofInt 128 accMax, ovf := true }, chg, true)
      else if t < -accMax then ({ a with value := BitVec.ofInt 128 (-accMax), ovf := true }, chg, true)
      else ({ a with value := BitVec.ofInt 128 t }, chg, false)
    else (a, chg, false)
  | c => ({ a with cls := combineCls a.cls (classOf c) }, false, false)

/-- The sum of the contributions of one segment (R175, R177). -/
def segmentSum (l : List ((Num × Num) × (Num × Num))) : Num :=
  l.foldl (fun t p => (t.add false (scaledProduct p.1.1 p.2.1 p.1.2 p.2.2)).1) (.zero false)

/-- One element of an exact mma: segments in ascending K (R177, R225). -/
def exactCell (a : AccCell) (seg : Nat) (x y : List (Num × Num)) : AccCell × Bool × Bool :=
  (pieces seg (x.length / seg) (x.zip y)).foldl (fun r l =>
    let t := accumulate r.1 (segmentSum l)
    (t.1, r.2.1 || t.2.1, r.2.2 || t.2.2)) (a, false, false)

/-- One element of a float pass (R178); a NaN stays (R225). -/
def floatCell (ftz : Bool) (a : AccCell) (x y : List (Num × Num)) : AccCell :=
  let ps := (x.zip y).map fun p => (fp32.round 0 ftz none (p.1.1.mul p.2.1).1).1
  let sum := (treeFold (fadd32 ftz) 5 ps).headD 0
  let v := fadd32 ftz (a.value.toNat % 2 ^ 32) sum
  { a with value := BitVec.ofNat 128 v, cls := if a.cls = 3 then 3 else classOf (fp32.decode false v) }

/-- What an mma does to its tile: the tile, and the conditions of R177: saturation, and whether poison was read. -/
def mmaTile (t : AccTile) (sa sb : OperandSlot) (ftz : Bool) : AccTile × Bool × Bool :=
  let rows := (List.range 32).map (sa.along ftz)
  let cols := (List.range 32).map (sb.along ftz)
  let seg := min (shapeK sa.shape) (shapeK sb.shape)
  let rs := (List.range 1024).map fun e =>
    let i := e / 32
    let j := e % 32
    let old := tabGet t.cells e {}
    let x := nth rows i []
    let y := nth cols j []
    let r : AccCell × Bool × Bool :=
      if t.float then (floatCell ftz old x y, false, false) else exactCell old seg x y
    let bad := sa.poisonRow i || sb.poisonRow j
    ((if bad then { r.1 with cls := 3 } else r.1), r.2.1, r.2.2, bad)
  ({ t with
      cells := ((List.range 1024).zip (rs.map (·.1))).filter fun c => c.2 ≠ {}
      inx := t.inx || rs.any (·.2.1) },
    rs.any (·.2.2.1), rs.any (·.2.2.2))

/-- Does a slot suit a role and a context (R225)? -/
def OperandSlot.suits (o : OperandSlot) (w0 : Word) (b : Bool) : Bool :=
  o.state == 2 && o.roleB == b && o.fmt == ctxFmt w0 b && o.scale == ctxScale w0 b && o.shape == ctxShape w0 b &&
    o.depth == ctxDepth w0

/-- The slot of a rank of a core's block; empty where the block has no such rank. -/
def State.slotOfRank (s : State) (c : Nat) (x : Nat × Nat) : OperandSlot :=
  match (s.mates c)[x.1]? with
  | some p => (s.coreAt p).slotAt x.2
  | none => {}

/-- Perform an mma at its grant (R225): the tile, and the cause of its retirement. -/
def performMma (core : Nat) (m : MatCommand) (p q : BitVec 7) (n : BitVec 1) : M Unit := do
  let s ← get
  let k := s.coreAt core
  let sa := s.slotOfRank core (p.toNat / 16, p.toNat % 16)
  let sb := s.slotOfRank core (q.toNat / 16, q.toNat % 16)
  let t := k.acc n
  if m.delayed then modify fun s => s.modCore core fun k => { k with mxstat := bumpField k.mxstat 31 16 1 }
  if !sa.suits m.w0 false || !sb.suits m.w0 true || t.float != ctxFloat m.w0 then
    performedMat core fun m => { m with cause := some (0x51, m.pc) }
  else
    let r := mmaTile t sa sb (ftzOf m.mode)
    modify fun s => s.modCore core fun k => k.setAcc n r.1
    let on (c : Bool) (i code : Nat) : List Nat := if c && bitOf m.mode i then [code] else []
    let causes := (if r.2.2 then [0x19] else []) ++ on r.2.1 5 0x30 ++ on (r.1.inx && !t.inx) 6 0x31
      ++ on (!t.float && (sa.nanScale || sb.nanScale)) 7 0x32
      ++ on (!t.float && (sa.blocks ++ sb.blocks).any (·.2)) 7 0x33
    performedMat core fun m => { m with cause := (lowest causes).map fun c => (c, m.pc) }

/-- The tensor scale of an operand (R214, R179). -/
def tensorScale (m : MatCommand) (b : Bool) : Num :=
  let v := if b then fieldOf m.w1 63 32 else fieldOf m.w1 31 0
  if bitOf m.w0 (if b then 19 else 18) then bf16.decode (ftzOf m.mode) v else fp32.decode (ftzOf m.mode) v

/-- Read out one element (R179): its code and the flags. -/
def readCell (m : MatCommand) (t : AccTile) (f : Format) (e : Nat) : Nat × Nat :=
  let c := tabGet t.cells e {}
  let x : Num := match c.cls with
    | 0 =>
      if t.float then fp32.decode (ftzOf m.mode) (c.value.toNat % 2 ^ 32)
      else let v := c.value.toInt; .fin (v < 0) v.natAbs 1 (-64)
    | 1 => .inf false
    | 2 => .inf true
    | _ => .nan false
  let y := x.mul (tensorScale m false)
  let y' := y.1.mul (tensorScale m true)
  let y'' := if y'.1.isZero then Num.zero false else y'.1
  let r := if c.cls = 3 then f.round (rmPlain m.mode) (ftzOf m.mode) none (.nan false) else f.round (rmPlain m.mode) (ftzOf m.mode) none y''
  (r.1, if c.cls = 3 then r.2 else r.2 ||| y.2 ||| y'.2)

/-- The raw image of a tile (R227). -/
def AccTile.image (t : AccTile) : List Byte :=
  let cell (e : Nat) : AccCell := tabGet t.cells e {}
  ((List.range 1024).flatMap fun e => bytesOfNat 16 (cell e).value.toNat)
    ++ (List.range 1024).map (fun e => BitVec.ofNat 8 ((cell e).cls + (if (cell e).ovf then 4 else 0)))
    ++ bytesOfNat 64 ((if t.inx then 1 else 0) + (if t.float then 2 else 0))

/-- The tile of an image, unless its zero bits are not zero (R227). -/
def tileOfImage (b : List Byte) : Option AccTile :=
  let st := (b.drop 16384).take 1024
  let tail := b.drop 17408
  if st.any (fun x => x.toNat ≥ 8) || byteAt tail 0 ≥ 4 || (tail.drop 1).any (· ≠ 0) then none
  else
    let cell (e : Nat) : AccCell := {
      value := BitVec.ofNat 128 (natOfBytes ((b.drop (16 * e)).take 16)), cls := byteAt st e % 4, ovf := byteAt st e / 4 == 1 }
    some {
      cells := ((List.range 1024).map fun e => (e, cell e)).filter fun c => c.2 ≠ {}
      inx := byteAt tail 0 % 2 == 1, float := byteAt tail 0 / 2 == 1 }

/-- The bytes of piece n of an mrd, with the flags of its readout. -/
def mrdBytes (m : MatCommand) (t : AccTile) (f : BitVec 2) (n : Nat) : List Byte × Nat :=
  if f = 2 then ((t.image.drop (512 * n)).take 512, 0)
  else
    let fm := if f = 0 then fp32 else bf16
    let rs := (List.range 32).map fun j => readCell m t fm (32 * n + j)
    (rs.flatMap fun r => bytesOfNat (if f = 0 then 4 else 2) r.1, orFlags (rs.map (·.2)))

/-- Write pieces of a matrix command. -/
def matWrite (core : Nat) (m : MatCommand) : List (Word × Nat) → List Byte → M (Except Nat Unit)
  | [], _ => return .ok ()
  | (ea, n) :: r, bytes => do
    match ← m.place core ea true with
    | .error c => return .error c
    | .ok p =>
      match ← engineWrite core p (bytes.take n) with
      | .error c => return .error c
      | .ok () => matWrite core m r (bytes.drop n)

/-- Read pieces of a matrix command: the bytes, or the first cause with its address (R227). -/
def matImage (core : Nat) (m : MatCommand) : List (Word × Nat) → M (Except (Nat × Word) (List Byte))
  | [] => return .ok []
  | (ea, n) :: r => do
    match ← m.place core ea false with
    | .error c => return .error (c, ea)
    | .ok p =>
      match ← engineRead core n p with
      | .error c => return .error (c, ea)
      | .ok (b, bad) =>
        if bad then return .error (0x19, ea)
        else match ← matImage core m r with
          | .error x => return .error x
          | .ok bs => return .ok (b ++ bs)

/-- The next piece of a granted mrd or mwr (R227). -/
def imageStep (core : Nat) (m : MatCommand) : M Unit := do
  let k ← coreM core
  let p := mrdPiece m.instr m.x m.y m.pos
  let last := m.pos + 1 = mrdPieces m.instr
  match m.instr with
  | .mrd _ _ n z f =>
    let t := k.acc n
    let b := mrdBytes m t f m.pos
    let r ← matWrite core m (matPieces p.1 p.2) b.1
    let fl := m.flags ||| b.2
    match r with
    | .error c => performedMat core fun m => { m with cause := some (c, p.1) }
    | .ok () =>
      if last then
        modify fun s => s.modCore core fun k =>
          let k := { k with fpmode := setFlags k.fpmode fl }
          if z = 1 then k.setAcc n { float := t.float } else k
        performedMat core fun m => { m with flags := fl, cause := (flagCause m.mode fl).map fun c => (c, m.pc) }
      else modPort core fun m => { m with pos := m.pos + 1, flags := fl }
  | .mwr _ n =>
    match ← matImage core m (matPieces p.1 p.2) with
    | .error c => performedMat core fun m => { m with cause := some c }
    | .ok b =>
      let b := m.data ++ b
      if last then
        match tileOfImage b with
        | some t =>
          modify fun s => s.modCore core fun k => k.setAcc n t
          performedMat core id
        | none => performedMat core fun m => { m with cause := some (0x01, m.pc) }
      else modPort core fun m => { m with pos := m.pos + 1, data := b }
  | _ => pure ()

/-- Is the head of a core's queue ready for the array (R212)? -/
def State.arrayReady (s : State) (c : Nat) : Bool :=
  match (s.coreAt c).mq with
  | m :: _ => match m.instr with
    | .mma .. => !s.namesFilling c m.instr && !s.mmaBehind c m
    | .mzero .. => true
    | .mrd .. => (s.coreAt c).inOrder m.id
    | .mwr .. => (s.coreAt c).inOrder m.id
    | _ => false
  | [] => false

/-- ARRAY_GRANT (R212, R225 to R227): the arbiter grants the next ready command, which is performed; of an mrd or mwr each further
event moves a piece. -/
def execArrayGrant (cove : Nat) (s : State) : Host.Outcome State Fault Refusal :=
  event (do
    let order := arbiterOrder cove (s.coveAt cove).arrayNext
    let go (c : Nat) : M Unit := do
      match ((← get).coreAt c).mq with
      | m :: _ => imageStep c m
      | [] => pure ()
    match order.find? (s.inProgress false) with
    | some c => go c
    | none =>
      let c ← orNo (order.find? s.arrayReady)
      modify fun s => s.modCove cove fun v => { v with arrayNext := (c % 16 + 1) % 8 }
      match (s.coreAt c).mq with
      | m :: _ => match m.instr with
        | .mma p q n _ _ => performMma c m p q n
        | .mzero t =>
          modify fun s => s.modCore c fun k => k.setAcc t { float := ctxFloat m.w0 }
          performedMat c id
        | _ =>
          modPort c fun m => { m with granted := true }
          go c
      | [] => pure ()) s

/-- Release the slot of a rank that an mma names (R219, R225). -/
def releaseSlot (core : Nat) (x : BitVec 7) (s : State) : State :=
  match (s.mates core)[x.toNat / 16]? with
  | some p => s.modCore p fun k => { k with slots := tabDel k.slots (x.toNat % 16) }
  | none => s

/-- MAT_RETIRE (R211, R225): the oldest performed command of a core retires: its releases, its cause. An mma that raised 0x51 has no
effect, so releases nothing. -/
def execMatRetire (core : Nat) (s : State) : Host.Outcome State Fault Refusal :=
  event (do
    match (s.coreAt core).mret with
    | [] => throw .no
    | m :: r =>
      modify fun s => s.modCore core fun k => { k with mret := r }
      let conf := match m.cause with | some (0x51, _) => true | _ => false
      if conf then modify fun s => s.modCore core fun k => { k with mxstat := bumpField k.mxstat 47 32 1 }
      else match m.instr with
        | .mma p q _ ra rb =>
          if ra = 1 then modify (releaseSlot core p)
          if rb = 1 then modify (releaseSlot core q)
        | _ => pure ()
      match m.cause with
      | some (c, a) => modify (raiseAsync core m.tid { code := c, kind := .a, addr := a })
      | none => pure ()
      modify (settleMat (coveOf core))) s

end Sys2Proof.Machine
end

