-- ==== Sys2Proof/Machine/Expert.lean ====
section
/-! DEFINITION. Expert names and replicas (spec/18, major 0x2C): the selector, growth and fills, retirement, the join, the update.
The requests of one core reach a selector in its order; among cores the order is free (notes/assumptions/23.md). A fill, an
update copy and a join advance by one 32-byte sector an event. -/

namespace Sys2Proof.Machine

/-- A word of a name's descriptor (R328). -/
def Name.word (x : Name) (i : Nat) : Word := nth x.words i 0
/-- The slices of a step. -/
def Name.nslice (x : Name) : Nat := fieldOf (x.word 5) 15 0 + 1
/-- The tokens of a slice: W. -/
def Name.width (x : Name) : Nat := 2 ^ fieldOf (x.word 5) 18 16
/-- The pending tokens that trigger growth. -/
def Name.grow (x : Name) : Nat := fieldOf (x.word 5) 27 20
/-- The pending tokens allowed per replica. -/
def Name.depth (x : Name) : Nat := fieldOf (x.word 5) 35 28
/-- The weight bytes. -/
def Name.wlen (x : Name) : Nat := fieldOf (x.word 6) 30 0
/-- A replica of a name. -/
def Name.rep (x : Name) (q : Nat) : Replica := tabGet x.replicas q {}
/-- A name with a replica written. -/
def Name.setRep (x : Name) (q : Nat) (r : Replica) : Name := { x with replicas := tabPut x.replicas q r }
/-- The weight address of a replica record (R329). -/
def Replica.wad (r : Replica) : Word := nth r.record 1 0
/-- The step before. -/
def prevStep (s : Nat) : Nat := (s + 65535) % 65536
/-- The address of the pin byte of a slice in the bank of a step (R331). -/
def Name.pinAt (x : Name) (step slice : Nat) : Word := x.word 1 + BitVec.ofNat 64 (step % 2 * x.nslice + slice)
/-- The indexes of a name that satisfy a test, ascending. -/
def Name.indexes (x : Name) (f : Replica → Bool) : List Nat := (List.range 8).filter fun q => f (x.rep q)

/-- A defined name. -/
def State.nameAt (s : State) (n : Nat) : Option Name := (tabFind s.names n).filter (·.defined)
/-- The state with a name changed. -/
def State.modName (s : State) (n : Nat) (f : Name → Name) : State :=
  match tabFind s.names n with
  | some x => { s with names := tabPut s.names n (f x) }
  | none => s
/-- The die of a name's selector (R327). -/
def selectorDie (n : Nat) : Nat := n % 4

/-- Does a partition's range hold a name (R327)? -/
def Part.holdsName (p : Part) (n : Nat) : Bool := fieldOf p.xrange 11 0 ≤ n && n < fieldOf p.xrange 11 0 + fieldOf p.xrange 24 12
/-- Does a partition's range hold names n to n + m − 1? -/
def Part.holdsNames (p : Part) (n m : Nat) : Bool := fieldOf p.xrange 11 0 ≤ n && n + m ≤ fieldOf p.xrange 11 0 + fieldOf p.xrange 24 12

/-- The agent of a name's own accesses (R448): the first cove that its partition holds on the selector die, or at all. -/
def State.nameAgent (s : State) (n : Nat) (x : Name) : UnitAgent :=
  let d := selectorDie n
  let here := (List.range 32).find? fun i => bitOf (nth (s.partAt x.part).pmap d 0) i
  let cove := match here with | some i => 32 * d + i | none => (s.firstCove x.part).getD (32 * d)
  { die := d, tag := nameTag n, core := 16 * cove, asid := x.asid, priv := x.priv, marked := true }

/-- Is the work of a name held (R448)? -/
def State.nameHeld (s : State) (n : Nat) : Bool :=
  s.heldTags.contains (nameTag n) || (match tabFind s.names n with | some x => x.walkFault | none => false)

/-- Does a work that waits on an access still stand? -/
def State.workStands (s : State) (n : Nat) (x : Name) : NameWork → Bool
  | .request r => (s.dieAt (selectorDie n)).requests.contains r
  | .release q => !(x.rep q).held.isEmpty
  | .close => x.closes ≠ 0
  | .copy q => x.copies.any fun c => c.replica == q
  | .gone q => (x.rep q).state = .draining
  | .join => !x.joinDone
  | .growth => x.deferred
  | .instr core tid =>
    let k := s.coreAt core
    let t := k.bank (k.b1.status == .running)
    t.status == .running && t.tid == tid

/-- May a work of a name go on (R448)? It waits behind one whose access is held. -/
def State.nameOpen (s : State) (n : Nat) (w : NameWork) : Bool :=
  !s.nameHeld n && (match tabFind s.names n with
    | some x => x.holder.all fun h => h == w || !s.workStands n x h
    | none => true)

/-- The work of the running instruction on a name. -/
def State.ownWork (s : State) : NameWork := .instr s.cur.core s.task.tid

/-- An access of a name (R448): one that a fault stops is reported once and held; the work it belongs to waits on it. -/
def nameAccess {α : Type} (n : Nat) (w : NameWork) (f : UnitAgent → M (Except (Nat × Word) α)) : M α := do
  let s ← get
  match tabFind s.names n with
  | none => throw .stall
  | some x =>
    if !s.nameOpen n w then throw .stall
    let noted := x.faultNoted && x.holder == some w
    let wait : M Unit := modify fun s => s.modName n fun x => { x with holder := some w, faultNoted := noted }
    let r ← tryCatch (f (s.nameAgent n x)) fun e => do
      match e, w with
      | .stall, .instr .. => pure ()
      | .stall, _ => wait
      | _, _ => pure ()
      throw e
    match r with
    | .ok a =>
      if x.holder.isSome || x.faultNoted then modify fun s => s.modName n fun x => { x with faultNoted := false, holder := none }
      return a
    | .error (c, ea) =>
      if !noted then
        modify (report x.part (selectorDie n) 0 { code := c, kind := .r, addr := ea, detail := BitVec.ofNat 64 n } 0 0)
      modify fun s => s.modName n fun x => { x with
        walkFault := true, faultNoted := true, faultSince := s.now, holder := some w }
      throw .stall

/-- Read bytes for a work of a name. -/
def nameRead (n : Nat) (w : NameWork) (ea : Word) (k : Nat) : M (List (Byte × Bool)) := nameAccess n w fun u => u.read ea k
/-- Write bytes for a work of a name. -/
def nameWrite (n : Nat) (w : NameWork) (ea : Word) (b : List (Byte × Bool)) : M Unit := nameAccess n w fun u => u.write ea b
/-- The name, which stands. -/
def nameM (n : Nat) : M Name := do
  match (← get).nameAt n with
  | some x => return x
  | none => throw .no

/-- The name, for a work of it that need not wait (R448). -/
def nameFor (n : Nat) (w : NameWork) : M Name := do
  let x ← nameM n
  enabled ((← get).nameOpen n w)
  return x

/-- EXPERT_WALK_RETRY (R448): 100 µs after a fault, the access walks again. -/
def execExpertWalkRetry (name : Nat) (s : State) : Host.Outcome State Fault Refusal :=
  event (do
    let x ← orNo (tabFind s.names name)
    let now ← readClock
    enabled (x.walkFault && now ≥ x.faultSince + 100000)
    modify fun s => s.modName name fun x => { x with walkFault := false }) s

/-- A message of a selector starts (R333, R334, R337). -/
def selectorSend (n : Nat) (x : Name) (ep : BitVec 29) (cls tag k : Nat) (src : BitVec 29) (core tid : Nat)
    (token : Option (Nat × Nat)) (notice : Option (Nat × Bool)) (pl : List Word) : M Unit := do
  let time ← readClock
  modify (inject (selectorDie n) {
    kind := .message (header0 src cls false false 0 tag k 0 false) (BitVec.ofNat 64 time) (pad8 pl) false
    ep := ep, src := src, core := core, tid := tid, part := x.part, cls := cls, token := token, notice := notice })

/-- A control message (R337). Its source is a value that the spec does not give, and so are the replica index of kinds 1 and 4 and the
step of kind 4. -/
def control (n kind index step : Nat) (value : Nat) : M Unit := do
  let x ← nameM n
  let src ← freshWord
  let index := if kind = 1 || kind = 4 then fieldOf src 31 29 else index
  let step := if kind = 4 then fieldOf src 47 32 else step
  selectorSend n x (BitVec.ofNat 29 (fieldOf (x.word 4) 28 0)) (fieldOf (x.word 4) 31 29) (fieldOf (x.word 4) 39 32) 2
    (src.setWidth 29) 0 0 none (some (n, false))
    [BitVec.ofNat 64 (n + index * 2 ^ 12 + kind * 2 ^ 15 + step * 2 ^ 18), BitVec.ofNat 64 value]

/-- A message to the endpoint of a replica's record. -/
def toReplica (n : Nat) (x : Name) (q : Nat) (src : BitVec 29) (core tid : Nat) (token : Option (Nat × Nat))
    (notice : Option (Nat × Bool)) (pl : List Word) : M Unit :=
  let w := nth (x.rep q).record 0 0
  selectorSend n x (BitVec.ofNat 29 (fieldOf w 28 0)) (fieldOf w 31 29) (fieldOf w 39 32) 3 src core tid token notice pl

/-- The usable pool records that no replica uses, ascending (R329, R336): record index and words. -/
def poolRecords (n : Nat) (w : NameWork) : M (List (Nat × List Word)) := do
  let x ← nameM n
  let b := (← nameRead n w (x.word 3) 224).map (·.1)
  let recs := (List.range 7).map fun j => (j, wordsOfBytes ((b.drop (32 * j)).take 32) 4)
  return recs.filter fun r => bitOf (nth r.2 0 0) 63 &&
    !(List.range 8).any fun q => (x.rep q).state ≠ .gone && (x.rep q).poolIndex == some r.1

/-- Start the fill of the lowest index that is GONE, if a record is usable (R336): the index. -/
def createReplica (n : Nat) (work : NameWork) : M (Option Nat) := do
  let recs ← poolRecords n work
  let x ← nameM n
  match recs, x.indexes (fun r => r.state = .gone) with
  | (j, w) :: _, i :: _ =>
    modify fun s => s.modName n fun x => { (x.setRep i { x.rep i with
        state := .filling, record := w, poolIndex := some j, forwarded := 0 }) with
      copies := x.copies ++ [{ replica := i, version := x.version, fill := true }] }
    return some i
  | _, _ => return none

/-- Growth by policy (R335), where a replica's pending count has reached grow, or a deferred growth is decided. -/
def growth (n q : Nat) : M Unit := do
  let x ← nameM n
  if !bitOf (x.word 5) 19 then
    if !x.growNoted then
      modify fun s => s.modName n fun x => { x with growNoted := true }
      control n 0 q x.step (x.rep q).pending
  else
    let recs ← poolRecords n .growth
    let filling := !(x.indexes fun r => r.state = .filling).isEmpty
    let gone := !(x.indexes fun r => r.state = .gone).isEmpty
    if recs.isEmpty || !gone then
      if recs.isEmpty then modify fun s => s.modDie (selectorDie n) fun d => { d with xstat := bumpField d.xstat 39 32 1 }
      if !x.poolNoted then
        modify fun s => s.modName n fun x => { x with poolNoted := true }
        modify (report x.part (selectorDie n) 0 { code := 0x56, kind := .r, detail := BitVec.ofNat 64 n } 0 0)
        control n 4 q 0 0
    else if filling then modify fun s => s.modName n fun x => { x with deferred := true }
    else discard (createReplica n .growth)

/-- Growth whose access waits is kept as deferred, and decided once it may go on (R448). -/
def growthOrLater (f : M Unit) (n : Nat) : M Unit :=
  tryCatch f fun e => match e with
    | .stall => modify fun s => s.modName n fun x => { x with deferred := true }
    | e => throw e

/-- A deferred growth is decided as things stand (R335). -/
def decideDeferred (n : Nat) : M Unit := do
  let x ← nameM n
  if x.deferred then
    growth n 0
    modify fun s => s.modName n fun x => { x with deferred := false }

/-- The core that sent a request, wherever its block stands, changed. -/
def modSender (src : BitVec 29) (core : Nat) (f : Core → Core) (s : State) : State :=
  match (if (s.coreAt core).block.isNone && !isWork core then none else s.blockNamed src) with
  | some (u, b) =>
    let r := epRank src
    if b.absent then s.modBlock u fun b => { b with saved := b.saved.set r (f (nth b.saved r {})) }
    else s.modCore (nth b.cores r 0) f
  | none => s.modCore core f

/-- A token leaves the selector: its sender's count falls (R347). -/
def tokenGone (src : BitVec 29) (core : Nat) (s : State) : State :=
  modSender src core (fun k => { k with xsends := k.xsends - 1 }) s

/-- Payload dwords 0 and 2 of a token (R333). -/
def tokenWords (word row : Word) (q slice step : Nat) : List Word :=
  [withField word 63 49 (fieldOf word 49 49 + q * 4), row, BitVec.ofNat 64 (slice + step * 2 ^ 16)]

/-- A token goes to its replica (R332, R333); growth follows (R335), later where an access of it is held (R448). -/
def forwardToken (n q : Nat) (t : ExpertRequest) : M Unit := do
  match t with
  | .token _ step slice word row core tid src _ =>
    let x ← nameM n
    let r := x.rep q
    modify fun s => s.modName n fun x => x.setRep q { r with
      pending := r.pending + 1, forwarded := if step = x.step then r.forwarded + 1 else r.forwarded }
    modify (tokenGone src core)
    toReplica n x q src core tid (some (n, q)) none (tokenWords word row q slice step)
    if x.grow ≠ 0 && r.pending + 1 = x.grow then growthOrLater (growth n q) n
  | _ => pure ()

/-- A token returns to its sender as a class 7 bounce of kind 2, with a cause (R332, R345). What its header and replica index
hold is a value that the spec does not give. -/
def bounceToken (d part code : Nat) (n : Nat) (t : ExpertRequest) : M Unit := do
  match t with
  | .token _ step slice word row core tid src _ =>
    let f ← freshWord
    let time ← readClock
    modify (countBounce n)
    modify (tokenGone src core)
    let p : Packet := { kind := .credit 0, ep := src, src := src, core := core, tid := tid, part := part, cls := 7 }
    modify fun s => inject d (p.reply (p.senderHome s) (.bounceBack
      (header0 src (fieldOf f 2 0 % 7) false false 0 (fieldOf f 15 8) 3 2 false) (BitVec.ofNat 64 time)
      (pad8 (tokenWords word row (fieldOf f 5 3) slice step)) code (BitVec.ofNat 64 n) false none)) s
  | _ => pure ()

/-- Do the conditions of R332 let a token go to replica q now? -/
def Name.mayForward (x : Name) (q : Nat) (back : Bool) (step : Nat) : Bool :=
  (x.rep q).pending < x.depth && (back || (x.rep q).version == step)

/-- The name of a request. -/
def ExpertRequest.name : ExpertRequest → Nat
  | .token n .. => n
  | .join n .. => n
/-- The causal state that a request brings. -/
def ExpertRequest.seen : ExpertRequest → List Nat
  | .token _ _ _ _ _ _ _ _ m => m
  | .join _ _ _ _ _ _ _ _ _ m => m
/-- Is a request a token? -/
def ExpertRequest.isToken : ExpertRequest → Bool
  | .token .. => true
  | .join .. => false

/-- Is a close that a selector has accepted due, so that what comes after it waits (R331, R421)? -/
def State.closing (s : State) (n : Nat) : Bool :=
  match s.nameAt n with | some x => x.closes ≠ 0 && x.joinDone | none => false

/-- The requests that may arrive next: the first of each sender for each name whose work is not held (R448), behind a close that is due. -/
def State.arriving (s : State) (d : Nat) : List ExpertRequest :=
  let l := (s.dieAt d).requests
  l.filter fun r => (l.find? fun q => sender q.core q.src == sender r.core r.src && q.name == r.name) == some r &&
    s.nameOpen r.name (.request r) && !s.closing r.name

/-- One of the requests that may arrive next, of a kind; which one is free. -/
def arrival (d : Nat) (token : Bool) : M ExpertRequest := do
  let l := ((← get).arriving d).filter fun r => r.isToken == token
  enabled (!l.isEmpty)
  let f ← freshWord
  orNo l[f.toNat % l.length]?

/-- A request has been taken: what its sender's die had seen, the selector's die has now (R333). -/
def requestGone (d : Nat) (r : ExpertRequest) : M Unit :=
  modify fun s =>
    let s := s.modDie d fun x => { x with requests := x.requests.erase r }
    if r.seen.isEmpty then s
    else s.modCausal d (s.partOf r.core) fun c => { c with
      m := (List.range 12).map fun k => stampMax (nth c.m k 0) (nth r.seen k 0) }

/-- SELECTOR_TOKEN (R332): the next token is pinned or looked up, and forwarded, held or bounced. Its slice is that of the name as it
stands (R345); one out of range returns with 0x5A (notes/assumptions/80.md). -/
def execSelectorToken (die : Nat) (s : State) : Host.Outcome State Fault Refusal :=
  event (do
    let r ← arrival die true
    match r with
    | .token n step _ word row core tid src seen =>
      let back := bitOf word 49
      let work : NameWork := .request r
      match (← get).nameAt n with
      | none =>
        requestGone die r
        bounceToken die (s.partOf core) 0x55 n r
      | some x =>
        let slice := fieldOf word 31 12 / x.width
        let tok : ExpertRequest := .token n step slice word row core tid src seen
        if slice ≥ x.nslice then
          requestGone die r
          bounceToken die x.part 0x5A n r
          return
        let b ← nameRead n work (x.pinAt step slice) 1
        let pin := natOfBytes (b.map (·.1))
        let go (q : Nat) : M Unit := do
          let x ← nameM n
          requestGone die r
          if (x.rep q).held.isEmpty && x.mayForward q back step then forwardToken n q tok
          else modify fun s => s.modName n fun x => x.setRep q { x.rep q with held := (x.rep q).held ++ [tok] }
        if pin / 128 = 1 then go (pin % 8)
        else if back then
          requestGone die r
          bounceToken die x.part 0x57 n r
        else
          let live := x.indexes fun r => r.state = .live
          let q ← orNo (live.foldl (fun best q => match best with
            | none => some q
            | some p => if (x.rep q).pending < (x.rep p).pending then some q else some p) none)
          nameWrite n work (x.pinAt step slice) (clean [BitVec.ofNat 8 (128 + q)])
          modify fun s => s.modName n fun x =>
            let p := x.rep q
            x.setRep q { p with pins := p.pins.set (step % 2) (nth p.pins (step % 2) 0 + 1) }
          go q
    | _ => throw .no) s

/-- SELECTOR_TOKEN_RELEASE (R332): the first token held for a replica goes once there is room and its version is right. -/
def execSelectorTokenRelease (name replica : Nat) (s : State) : Host.Outcome State Fault Refusal :=
  event (do
    let x ← nameFor name (.release replica)
    match (x.rep replica).held with
    | [] => throw .no
    | t :: r =>
      let (back, step) := match t with | .token _ step _ word .. => (bitOf word 49, step) | _ => (false, 0)
      enabled (x.mayForward replica back step)
      modify fun s => s.modName name fun x => x.setRep replica { x.rep replica with held := r }
      forwardToken name replica t) s

/-- The pins of a bank: the replica of each pinned slice, ascending. -/
def pinsOf (n step : Nat) (w : NameWork) : M (List (Nat × Nat)) := do
  let x ← nameM n
  let b := (← nameRead n w (x.pinAt step 0) x.nslice).map (·.1.toNat)
  return ((List.range x.nslice).zip b).filterMap fun p => if p.2 ≥ 128 then some (p.1, p.2 % 8) else none

/-- SELECTOR_STEP_CLOSE (R331, R334): an accepted close request, once the join of the step before has completed. -/
def execSelectorStepClose (name : Nat) (s : State) : Host.Outcome State Fault Refusal :=
  event (do
    let x ← nameFor name .close
    enabled (x.closes ≠ 0 && x.joinDone)
    nameWrite name .close (x.pinAt (prevStep x.step) 0) (clean (List.replicate x.nslice 0))
    let pins ← pinsOf name x.step .close
    let old := (x.step + 1) % 2
    modify fun s => s.modName name fun x => { x with
      replicas := x.replicas.map fun r => (r.1, { r.2 with pins := r.2.pins.set old 0 }) }
    each (fun q => do
      let r := x.rep q
      let count := (pins.filter fun p => p.2 == q).length
      if r.state = .live || (r.state = .draining && count ≠ 0) then
        let src ← freshWord
        toReplica name x q (src.setWidth 29) 0 0 none (some (name, true))
          [BitVec.ofNat 64 (name + 2 ^ 50 + q * 2 ^ 51), 0,
           BitVec.ofNat 64 (count % 65536 + x.step * 2 ^ 16 + r.forwarded % 2 ^ 32 * 2 ^ 32)]) (List.range 8)
    modify fun s => s.modName name fun x => { x with
      closes := x.closes - 1, joinStep := x.step, joinDone := false, joinZeroed := false, joinSet := pins.map (·.1)
      joinNext := 0, joinPos := 0, step := (x.step + 1) % 65536, poolNoted := false, growNoted := false
      replicas := x.replicas.map fun r => (r.1, { r.2 with forwarded := 0 }) }) s

/-- The copy of a replica changed. -/
def modCopyOf (n : Nat) (q : Nat) (f : ExpertCopy → List ExpertCopy) : M Unit :=
  modify fun s => s.modName n fun x =>
    match x.copies.findIdx? fun c => c.replica == q with
    | some i => { x with copies := x.copies.take i ++ (match x.copies[i]? with | some c => f c | none => []) ++ x.copies.drop (i + 1) }
    | none => x

/-- Copy a sector of weights from the owner to a replica (R336, R341); poison goes with it. -/
def copySector (n q pos : Nat) : M Unit := do
  let x ← nameM n
  let k := min 32 (x.wlen - pos)
  let b ← nameRead n (.copy q) ((x.rep x.owner).wad + BitVec.ofNat 64 pos) k
  nameWrite n (.copy q) ((x.rep q).wad + BitVec.ofNat 64 pos) b

/-- REPLICA_FILL_COMPLETE (R330, R335, R336): the fill in progress copies its next sector; at its end the replica goes LIVE and a
deferred growth is decided, or the fill repeats where the version has changed. With no fill in progress, or where its own access was
held, the deferred growth is decided here. -/
def execReplicaFillComplete (name : Nat) (s : State) : Host.Outcome State Fault Refusal :=
  event (do
    let x ← nameM name
    match (if x.deferred && x.holder == some .growth then none else x.copies.find? (·.fill)) with
    | none =>
      enabled (x.deferred && (← get).nameOpen name .growth)
      decideDeferred name
    | some c =>
      enabled ((← get).nameOpen name (.copy c.replica))
      if c.pos < x.wlen then
        copySector name c.replica c.pos
        modCopyOf name c.replica fun c => [{ c with pos := c.pos + 32 }]
      else if c.version = x.version then
        modCopyOf name c.replica fun _ => []
        modify fun s => s.modName name fun x => x.setRep c.replica { x.rep c.replica with state := .live, version := c.version }
        control name 2 c.replica c.version c.refills
        growthOrLater (decideDeferred name) name
      else
        modCopyOf name c.replica fun c => [{ c with version := x.version, refills := c.refills + 1, pos := 0 }]
        modify fun s => s.modDie (selectorDie name) fun d => { d with xstat := bumpField d.xstat 15 0 1 }) s

/-- UPDATE_COPY_COMPLETE (R341): the update copy to a replica advances by a sector, skipping withheld groups of 64 bytes; at its
end the replica has the new version. -/
def execUpdateCopyComplete (name replica : Nat) (s : State) : Host.Outcome State Fault Refusal :=
  event (do
    let x ← nameFor name (.copy replica)
    let c ← orNo (x.copies.find? fun c => c.replica == replica && !c.fill)
    if c.pos < x.wlen then
      let g := c.pos / 64
      if (nth c.withheld (g / 8) 0).getLsbD (g % 8) then modCopyOf name replica fun c => [{ c with pos := c.pos + 64 }]
      else
        copySector name replica c.pos
        modCopyOf name replica fun c => [{ c with pos := c.pos + 32 }]
    else
      modCopyOf name replica fun _ => []
      modify fun s => s.modName name fun x => x.setRep replica { x.rep replica with version := c.version }) s

/-- REPLICA_GONE (R338): a draining replica with no token left, every slice of it joined. An update copy to it ends with it. -/
def execReplicaGone (name replica : Nat) (s : State) : Host.Outcome State Fault Refusal :=
  event (do
    let x ← nameFor name (.gone replica)
    let r := x.rep replica
    enabled (r.state = .draining && r.pending = 0 && r.held.isEmpty)
    let now ← pinsOf name x.step (.gone replica)
    let before ← pinsOf name (prevStep x.step) (.gone replica)
    let joined := if x.joinDone then x.joinSet else x.joinSet.take x.joinNext
    enabled (now.all (fun p => p.2 ≠ replica) && before.all fun p => p.2 ≠ replica || joined.contains p.1)
    modify fun s => s.modName name fun x => { (x.setRep replica { x.rep replica with state := .gone, poolIndex := none }) with
      copies := x.copies.filter fun c => c.replica ≠ replica }
    control name 3 replica r.version 0) s

/-- The address of the spill entry of a slice (R340). -/
def Name.spillAt (x : Name) (slice : Nat) : Word := x.word 2 + BitVec.ofNat 64 (16 * slice)

/-- JOIN_ENTRY_ARRIVAL (R340, R351): the next join entry is refused, or held in the buffer or the spill area. What a spill entry's
bytes hold the spec does not give. -/
def execJoinEntryArrival (die : Nat) (s : State) : Host.Outcome State Fault Refusal :=
  event (do
    let r ← arrival die false
    match r with
    | .join n step slice addr notify core tid pc src _ =>
      let refuse (code : Nat) : M Unit := do
        requestGone die r
        modify (countBounce n)
        modify (raiseAsync core tid { code := code, kind := .a, addr := pc, detail := BitVec.ofNat 64 n })
        if notify then modify (complainTask tid (completionWords 3 5 pc (BitVec.ofNat 64 slice) 0))
      match (← get).nameAt n with
      | none => refuse 0x55
      | some x =>
        let work : NameWork := .request r
        let b ← (if slice < x.nslice then nameRead n work (x.pinAt step slice) 1 else return [])
        let pin := natOfBytes (b.map (·.1))
        let owner := fieldOf (nth (x.rep (pin % 8)).record 0 0) 28 0 == src.toNat
        let seen := (x.entries.any fun e => e.step == step && e.slice == slice) ||
          (step == x.joinStep && (x.joinSet.take x.joinNext).contains slice)
        let joinOver := step ≠ x.step && (step ≠ x.joinStep || x.joinDone)
        if pin / 128 ≠ 1 || !owner || seen || joinOver then refuse 0x57
        else
          let turn := step == x.joinStep && x.version == x.joinStep && x.joinSet[x.joinNext]? == some slice
          let spills := !turn && (x.entries.filter (!·.spilled)).length ≥ 256
          if spills then
            let f ← freshWord
            nameWrite n work (x.spillAt slice) (clean (bytesOf f ++ bytesOf f))
            modify fun s => s.modDie die fun d => { d with xstat := bumpField d.xstat 31 16 1 }
            if !x.spillNoted.contains step then
              modify fun s => s.modName n fun x => { x with
                spillNoted := (step :: x.spillNoted).filter fun t => t == x.step || t == prevStep x.step }
              modify (report x.part die 0 { code := 0x59, kind := .r, detail := BitVec.ofNat 64 n } 0 0)
          requestGone die r
          modify fun s => s.modName n fun x => { x with entries := x.entries ++ [{
            step := step, slice := slice, replica := pin % 8, addr := addr, notify := notify, core := core, tid := tid, pc := pc
            spilled := spills }] }
    | _ => throw .no) s

/-- The address of the master gradient: gr of the owner's vopt descriptor (R206, R328). -/
def gradAddr (n : Nat) : M Word := do
  let x ← nameM n
  return wordOfList ((← nameRead n .join (x.optd + 24) 8).map (·.1))

/-- Add two sectors element by element: FP32, to nearest even, subnormals honoured; poison makes poison (R339). -/
def addSector (a b : List (Byte × Bool)) : List (Byte × Bool) :=
  (List.range (a.length / 4)).flatMap fun i =>
    let x := (a.drop (4 * i)).take 4
    let y := (b.drop (4 * i)).take 4
    let v := fadd32 false (natOfBytes (x.map (·.1))) (natOfBytes (y.map (·.1)))
    (bytesOfNat 4 v).map fun c => (c, (x ++ y).any (·.2))

/-- JOIN_ADD (R339): the join of the last closed step advances by one sector: gr is zeroed, then the partials are added in
ascending slice order; the end of each sends its completion, the end of all the message of kind 1. -/
def execJoinAdd (name : Nat) (s : State) : Host.Outcome State Fault Refusal :=
  event (do
    let x ← nameFor name .join
    enabled (!x.joinDone && x.version = x.joinStep)
    let set_ (f : Name → Name) : M Unit := modify fun s => s.modName name f
    let k := min 32 (x.wlen - x.joinPos)
    if !x.joinZeroed then
      if x.joinPos < x.wlen then
        let gr ← gradAddr name
        nameWrite name .join (gr + BitVec.ofNat 64 x.joinPos) (clean (List.replicate k 0))
        set_ fun x => { x with joinPos := x.joinPos + 32 }
      else set_ fun x => { x with joinZeroed := true, joinPos := 0 }
    else
      match x.joinSet[x.joinNext]? with
      | none =>
        set_ fun x => { x with joinDone := true, entries := x.entries.filter fun e => e.step ≠ x.joinStep }
        control name 1 x.owner x.joinStep x.joinSet.length
      | some slice =>
        let e ← orNo (x.entries.find? fun e => e.step == x.joinStep && e.slice == slice)
        if x.joinPos < x.wlen then
          if e.spilled && x.joinPos = 0 then discard (nameRead name .join (x.spillAt slice) 16)
          let gr ← gradAddr name
          let a := gr + BitVec.ofNat 64 x.joinPos
          let old ← nameRead name .join a k
          let p ← nameRead name .join (e.addr + BitVec.ofNat 64 x.joinPos) k
          nameWrite name .join a (addSector old p)
          set_ fun x => { x with joinPos := x.joinPos + 32 }
        else
          set_ fun x => { x with entries := x.entries.erase e, joinNext := x.joinNext + 1, joinPos := 0 }
          if e.notify then modify (complainTask e.tid (completionWords 3 0 e.pc (BitVec.ofNat 64 slice) 0))) s

/-- The name that a register names, its unused bits zero (R345). -/
def nameOf (w : Word) : M Nat := do
  check (fieldOf w 63 12 ≠ 0) 0x01
  return fieldOf w 11 0

/-- A name of the partition's range (0x55). -/
def inRange (n : Nat) : M Unit := do
  let s ← get
  checkOf (!(s.partAt (s.partOf s.cur.core)).holdsName n) 0x55 n

/-- The earlier requests of the current core for names f to f + m − 1 that have not reached their selectors (R421). -/
def State.requestsAhead (s : State) (f m : Nat) : Bool :=
  (List.range 4).any fun d => (s.dieAt d).requests.any fun r =>
    sender r.core r.src == sender s.cur.core (s.endpointOf s.cur.core) && f ≤ r.name && r.name < f + m

/-- One core's requests for a name reach its selector in their order (R421): an instruction that acts on names f to f + m − 1 waits
until the earlier ones of its core have arrived. -/
def inIssueOrder (f m : Nat) : M Unit := do waitUntil !(← get).requestsAhead f m

/-- A request that waits for the selector's answer reaches it (R345): in its core's order, behind a close that is due (R421) and behind
held work of the name (R448). -/
def reaches (n : Nat) (ordered : Bool) : M Unit := do
  let s ← get
  waitUntil (!(ordered && (s.requestsAhead n 1 || s.closing n)) && s.nameOpen n s.ownWork)
  modify (·.begin 3)

/-- A defined name of the partition's range. -/
def definedM (n : Nat) : M Name := do
  inRange n
  match (← get).nameAt n with
  | some x => return x
  | none => trapP 0x55 0 0 (BitVec.ofNat 64 n)

/-- The fields of a descriptor and its owner record that R328 and R329 constrain. -/
def descriptorBad (w : List Word) : Bool :=
  let x : Name := { words := w }
  fieldOf (x.word 4) 63 40 ≠ 0 || fieldOf (x.word 4) 31 29 > 6 || fieldOf (x.word 5) 63 36 ≠ 0 || fieldOf (x.word 5) 18 16 > 6 ||
    x.depth = 0 || x.depth > 56 || fieldOf (x.word 6) 63 31 ≠ 0 || x.wlen < 64 || x.wlen % 64 ≠ 0 || x.wlen > 2 ^ 30 ||
    fieldOf (x.word 7) 63 16 ≠ 0 || fieldOf (x.word 8) 62 40 ≠ 0 || fieldOf (x.word 8) 31 29 > 6 || !bitOf (x.word 8) 63 ||
    x.word 10 ≠ 0 || x.word 11 ≠ 0 || x.word 12 ≠ 0 || x.word 13 ≠ 0 || x.word 14 ≠ 0 || x.word 15 ≠ 0

/-- May a name be undefined (R346)? -/
def Name.idle (x : Name) : Bool :=
  ((List.range 8).all fun q => (q == x.owner || (x.rep q).state = .gone) && (x.rep q).pending == 0 && (x.rep q).held.isEmpty) &&
    x.entries.isEmpty && x.copies.isEmpty

/-- XDEF (R346): define a name, or undefine it. -/
def execXdef (a b c : BitVec 5) (s : State) : Host.Outcome State Fault Refusal :=
  other (do
    let n ← nameOf (← rg b)
    inRange n
    if a = 0 then
      match (← get).nameAt n with
      | none => wg c 3
      | some x =>
        reaches n false
        if x.idle then
          modify fun s => { s with names := tabDel s.names n }
          wg c 0
        else wg c 2
    else
      let ea ← rg a
      check (ea.toNat % 64 ≠ 0) 0x10 ea
      let w ← loadWords ea 16
      let x : Name := { words := w }
      check ((x.word 0).toNat % 128 ≠ 0 || (x.word 1).toNat % 64 ≠ 0 || (x.word 2).toNat % 64 ≠ 0 || (x.word 3).toNat % 64 ≠ 0
        || (x.word 9).toNat % 64 ≠ 0) 0x10 ea
      let o ← loadWords (x.word 0) 16
      check (descriptorBad w || x.word 9 ≠ nth o 0 0) 0x01
      if ((← get).nameAt n).isSome then wg c 1
      else
        let s ← get
        let ver := fieldOf (x.word 7) 15 0
        let fresh : Name := { words := w, asid := s.asidOf s.cur.core, part := s.partOf s.cur.core, priv := s.task.priv }
        let old := (tabFind s.names n).getD fresh
        modify fun s => { s with names := tabPut s.names n { fresh with
          walkFault := old.walkFault, faultNoted := old.faultNoted, faultSince := old.faultSince, holder := old.holder } }
        modify (·.begin 3)
        nameWrite n s.ownWork (x.word 1) (clean (List.replicate (2 * x.nslice) 0))
        modify fun s => { s with names := tabPut s.names n { fresh with
          defined := true, version := ver, step := ver, optd := x.word 0, joinStep := prevStep ver
          replicas := [(0, { state := .live, record := (w.drop 8).take 4, version := ver })] } }
        wg c 0) s

/-- XSEND (R347). -/
def execXsend (a b : BitVec 5) (p bk : BitVec 1) (s : State) : Host.Outcome State Fault Refusal :=
  other (do
    let w ← rg b
    let row ← rg a
    check (fieldOf w 63 49 ≠ 0) 0x01
    let n := fieldOf w 11 0
    let x ← definedM n
    let slice := fieldOf w 31 12 / x.width
    check (slice ≥ x.nslice) 0x5A
    drain
    waitUntil ((← cc).xsends < 8)
    let s ← get
    let step := if p = 1 then prevStep x.step else x.step
    let r : ExpertRequest := .token n step slice (if bk = 1 then withField w 49 49 1 else w) row s.cur.core s.task.tid
      (s.endpointOf s.cur.core) (s.causalAt (dieOf s.cur.core) (s.partOf s.cur.core)).m
    modCC fun k => { k with xsends := k.xsends + 1 }
    modify fun s => s.modDie (selectorDie n) fun d => { d with requests := d.requests ++ [r] }) s

/-- XREP (R348). -/
def execXrep (a c : BitVec 5) (s : State) : Host.Outcome State Fault Refusal :=
  other (do
    let n ← nameOf (← rg a)
    let x ← definedM n
    reaches n false
    let filling := !(x.indexes fun r => r.state = .filling).isEmpty
    waitUntil (filling || !x.deferred)
    if filling then wg c 1
    else if (x.indexes fun r => r.state = .gone).isEmpty then wg c 2
    else
      match ← createReplica n (← get).ownWork with
      | some i => wg c (BitVec.ofNat 64 (8 * i))
      | none => trapP 0x56 0 0 (BitVec.ofNat 64 n)) s

/-- XRET (R349, R330, R421). -/
def execXret (a b c : BitVec 5) (s : State) : Host.Outcome State Fault Refusal :=
  other (do
    let n ← nameOf (← rg a)
    let w ← rg b
    check (fieldOf w 63 3 ≠ 0) 0x01
    let x ← definedM n
    reaches n true
    let q := fieldOf w 2 0
    let r := x.rep q
    checkOf (q = x.owner) 0x58 n
    match r.state with
    | .live =>
      modify fun s => s.modName n fun x => x.setRep q { r with state := .draining }
      wg c 0
    | .filling =>
      modify fun s => s.modName n fun x => { (x.setRep q { r with state := .gone, poolIndex := none }) with copies := x.copies.filter fun c => c.replica ≠ q }
      control n 3 q r.version 0
      growthOrLater (decideDeferred n) n
      wg c 0
    | .draining => wg c 1
    | .gone => wg c 2) s

/-- Is the join of the name's version complete, and the version not yet advanced (R352)? A later step closes only once it is. -/
def Name.joined (x : Name) : Bool :=
  (x.joinStep = x.version && x.joinDone) || x.joinStep = (x.version + 1) % 65536

/-- XOWN (R350): the conditions are tested in the order of its status 1, 3, 2. -/
def execXown (a b c : BitVec 5) (q : BitVec 3) (s : State) : Host.Outcome State Fault Refusal :=
  other (do
    let n ← nameOf (← rg a)
    let d ← rg b
    let x ← definedM n
    reaches n false
    let r := x.rep q.toNat
    if r.state ≠ .live || q.toNat = x.owner then wg c 1
    else if d.toNat % 128 ≠ 0 then wg c 3
    else
      let w := wordOfList ((← nameRead n (← get).ownWork d 8).map (·.1))
      if w ≠ r.wad then wg c 3
      else
        let started := x.joined || x.joinStep = x.version && (x.joinZeroed || x.joinPos ≠ 0)
        if started || r.version ≠ x.version || x.copies.any (!·.fill) then wg c 2
        else
          modify fun s => s.modName n fun x => { x with owner := q.toNat, optd := d }
          wg c 0) s

/-- XJOIN (R351). -/
def execXjoin (a b : BitVec 5) (n p : BitVec 1) (s : State) : Host.Outcome State Fault Refusal :=
  other (do
    let w ← rg b
    let ea ← rg a
    let nm := fieldOf w 11 0
    let x ← definedM nm
    check (fieldOf w 63 28 ≠ 0) 0x01
    check (ea.toNat % 64 ≠ 0) 0x10 ea
    drain
    let s ← get
    let step := if p = 1 then prevStep x.step else x.step
    let r : ExpertRequest := .join nm step (fieldOf w 27 12) ea (n = 1) s.cur.core s.task.tid s.pc (s.endpointOf s.cur.core)
      (s.causalAt (dieOf s.cur.core) (s.partOf s.cur.core)).m
    modify fun s => s.modDie (selectorDie nm) fun d => { d with requests := d.requests ++ [r] }) s

/-- The name advances to its next version (R341): the owner has it at once, the other LIVE replicas once their copies are complete. -/
def Name.update (x : Name) (bits : List Byte) : Name :=
  let v := (x.version + 1) % 65536
  let r := x.rep x.owner
  { (x.setRep x.owner { r with version := v }) with
    version := v
    copies := x.copies ++ ((x.indexes fun r => r.state = .live).filter (· ≠ x.owner)).map fun q =>
      { replica := q, version := v, fill := false, withheld := bits } }

/-- Does an update copy of a name run (R341)? -/
def State.updating (s : State) (n : Nat) : Bool :=
  match s.nameAt n with | some x => x.copies.any (!·.fill) | none => false

/-- XUPD (R352, R341, R421): the answer comes once the update copies are complete (notes/assumptions/81.md). -/
def execXupd (a b c : BitVec 5) (s : State) : Host.Outcome State Fault Refusal :=
  other (do
    let n ← nameOf (← rg a)
    let map ← rg b
    let s ← get
    if s.task.begunOf s.cur.a < 4 then
      let x ← definedM n
      drain
      reaches n true
      if map.toNat % 64 ≠ 0 then
        wg c 3
        return
      if !x.joined then
        wg c 1
        return
      let bits ← (if b = 0 then pure [] else do return (← nameRead n s.ownWork map ((x.wlen / 64 + 7) / 8)).map (·.1))
      modify fun s => s.modName n (·.update bits)
      modify (·.begin 4)
    if (← get).updating n then throw .stall
    wg c 0) s

/-- Bring the lines of checked stores into the die's L2 with ownership, so that they enter and leave without a wait. -/
def ownStores (ps : List (Place × List Byte)) : M Unit := do
  let c ← curCore
  each (fun p => match p.1 with
    | .phys pa nc sq => acquireOnce (dieOf c) (coveOf c) c pa nc sq true
    | .spm _ => pure ()) ps

/-- XCNT (R353): the counters of the die are read and cleared at once, then stored (R450). -/
def execXcnt (a b : BitVec 5) (s : State) : Host.Outcome State Fault Refusal :=
  other (do
    let ea ← rg a
    let w ← rg b
    let f := fieldOf w 11 0
    let m := fieldOf w 24 12
    check (m = 0 || fieldOf w 63 25 ≠ 0) 0x01
    let s ← get
    checkOf (!(s.partAt (s.partOf s.cur.core)).holdsNames f m) 0x55 f
    check (ea.toNat % 16 ≠ 0) 0x10 ea
    let die := dieOf s.cur.core
    let counts := (s.dieAt die).gateCount
    let bytes := (List.range m).flatMap fun i => bytesOfNat 16 ((tabGet counts (f + i) 0)).toNat
    let ps ← checkStores (storePieces ea bytes (2 * m + 1))
    drain
    waitUntil !(← cc).memoryBusy
    ownStores ps
    enterStores ps
    modify fun s => s.modDie die fun d => { d with gateCount := d.gateCount.filter fun c => !(f ≤ c.1 && c.1 < f + m) }) s

/-- What xq shows of an index (R354). -/
def Name.indexWord (x : Name) (k : Nat) : Nat :=
  let r := x.rep k
  (match r.state with | .gone => 0 | .filling => 1 | .live => 2 | .draining => 3)
    + (if k = x.owner then 4 else 0) + r.version * 8 + r.pending % 64 * 2 ^ 19
    + nth r.pins (x.step % 2) 0 % 65536 * 2 ^ 25 + nth r.pins ((x.step + 1) % 2) 0 % 65536 * 2 ^ 41

/-- The slice that the join waits on, if it waits for a partial (R354). -/
def Name.joinWaits (x : Name) : Option Nat :=
  if x.joinDone || !x.joinZeroed || x.version ≠ x.joinStep then none
  else match x.joinSet[x.joinNext]? with
    | some sl => if x.entries.any fun e => e.step == x.joinStep && e.slice == sl then none else some sl
    | none => none

/-- What xq shows of the name (R354). -/
def Name.nameWord (x : Name) : Nat :=
  x.version + x.step * 2 ^ 16 + x.owner * 2 ^ 32
    + (x.indexes fun r => r.state ≠ .gone).foldl (fun t q => t + 2 ^ (35 + q)) 0 + 2 ^ 43
    + (match x.joinWaits with | some sl => 2 ^ 44 + sl * 2 ^ 45 | none => 0)

/-- XQ (R354). -/
def execXq (a c : BitVec 5) (k : BitVec 4) (s : State) : Host.Outcome State Fault Refusal :=
  other (do
    let n ← nameOf (← rg a)
    let s ← get
    let x := if (s.partAt (s.partOf s.cur.core)).holdsName n then s.nameAt n else none
    wg c (match x with
      | none => 0
      | some x => BitVec.ofNat 64 (if k.toNat < 8 then x.indexWord k.toNat else x.nameWord))) s

end Sys2Proof.Machine
end

