-- ==== Sys2Proof/Machine/Page.lean ====
section
/-! DEFINITION. The PAGE instructions (spec/07, major 0x1F), the answers of walks and the ends of tickets. -/

namespace Sys2Proof.Machine

/-- Write a status word to g[c] (R143). -/
def status (c : BitVec 5) (v : Nat) : M Unit := wg c (BitVec.ofNat 64 v)

/-- Is a TLB entry well formed (R144)? -/
def TlbEntry.acceptable (e : TlbEntry) : Bool :=
  let base := e.ppn * 65536
  fieldOf e.w0 63 52 == 0 && fieldOf e.w1 63 58 == 0 && e.size ≠ 3 &&
  (e.size ≠ 1 || (e.vpn % 32 == 0 && e.ppn % 32 == 0)) &&
  (e.size ≠ 2 || (e.vpn % 16384 == 0 && e.ppn % 16384 == 0)) &&
  !(hbmEnd ≤ base && base < hostBase) &&
  (base ≥ hbmEnd || e.home == base / hbmPerDie)

/-- Do two entries map a common address under a common address space (R144)? -/
def TlbEntry.overlaps (e x : TlbEntry) : Bool :=
  let n := max e.extra x.extra
  (x.g || e.g || x.asid == e.asid) && x.vpn / 2 ^ n == e.vpn / 2 ^ n

/-- Remove entries of a cove's TLB and of its cores' micro-TLBs. -/
def dropTlb (cove : Nat) (f : TlbEntry → Bool) (s : State) : State :=
  let s := s.modCove cove fun v => { v with tlb := v.tlb.filter fun e => !f e }
  { s with cores := s.cores.map fun c =>
      if coveOf c.1 = cove then (c.1, { c.2 with utlb := c.2.utlb.filter fun e => !f e }) else c }

/-- TLBW (R144). -/
def execTlbw (a b c : BitVec 5) (s : State) : Host.Outcome State Fault Refusal :=
  other (do
    supervisor
    let e : TlbEntry := { w0 := ← rg a, w1 := ← rg b }
    if e.acceptable then
      let cove := coveOf (← curCore)
      modify fun s => (dropTlb cove e.overlaps s).modCove cove fun v => { v with tlb := tlbInsert 1024 e v.tlb }
      status c 0
    else status c 1) s

/-- The cores of a partition, of those that have a state. -/
def State.partCores (s : State) (p : Nat) : List Nat := (s.cores.map (·.1)).filter fun c => s.partOf c == p

/-- Release the region entries of a die that the page of a TLB entry covers (R167). -/
def releaseRegions (d : Nat) (e : TlbEntry) (s : State) : State :=
  let r := e.ppn / 2 ^ e.extra * 2 ^ e.extra
  (((s.dieAt d).region.map (·.1)).filter fun x => r ≤ x && x < r + 2 ^ e.extra).foldl (fun s x => releaseRegion d x s) s

/-- The matrix commands of a saved core that were translated by an entry removed translate anew when the core is back (R145). -/
def Core.forgetEntries (k : Core) (f : TlbEntry → Bool) : Core :=
  { k with mq := k.mq.map fun (m : MatCommand) => { m with tlb := m.tlb.filter fun e => !f e } }

/-- Remove entries from every cove of the partition, once every store translated by one has left its buffer and every matrix command
translated by one at its issue has made its accesses (R145). -/
def invalidate (f : TlbEntry → Bool) : M Unit := do
  supervisor
  let p ← partM
  each (fun c => drainN c 16) ((← get).partCores p)
  let s ← get
  if (s.partCores p).any fun c => (s.coreAt c).mq.any fun (x : MatCommand) => memoryMatrix x.instr && x.tlb.any f then throw .stall
  let coves := (List.range 128).filter fun v => bitOf (nth (s.partAt p).pmap (v / 32) 0) (v % 32)
  let gone := (coves.flatMap fun v => (s.coveAt v).tlb.filter fun e => e.v && f e) ++
    (s.partCores p).flatMap fun c => (s.coreAt c).utlb.filter fun e => e.v && f e
  let dies := (List.range 4).filter fun d => nth (s.partAt p).pmap d 0 ≠ 0
  modify fun s => dies.foldl (fun s d => gone.foldl (fun s e => releaseRegions d e s) s) s
  modify fun s => coves.foldl (fun s v => dropTlb v f s) s
  modify fun s => { s with blocks := s.blocks.map fun b =>
    if b.2.part = p then (b.1, { b.2 with saved := b.2.saved.map (·.forgetEntries f) }) else b }

/-- TLBI_VA (R145). -/
def execTlbiVa (a b : BitVec 5) (s : State) : Host.Outcome State Fault Refusal :=
  other (do
    let va ← rg a
    let asid := fieldOf (← rg b) 11 0
    invalidate fun e => (e.g || e.asid == asid) && e.maps va.toNat) s
/-- TLBI_ASID (R145). -/
def execTlbiAsid (b : BitVec 5) (s : State) : Host.Outcome State Fault Refusal :=
  other (do
    let asid := fieldOf (← rg b) 11 0
    invalidate fun e => e.asid == asid) s
/-- TLBI_ALL (R145). -/
def execTlbiAll (s : State) : Host.Outcome State Fault Refusal := other (invalidate fun _ => true) s

/-- The place of a task on a core: 8 and 9 for its banks, else its park slot. -/
def Core.placeOfTask (k : Core) (tid : Nat) : Option Nat :=
  if k.b0.status ≠ .empty ∧ k.b0.tid = tid then some 8
  else if k.b1.status ≠ .empty ∧ k.b1.tid = tid then some 9
  else (k.parks.find? fun x => x.2.task.tid == tid).map (·.1)

/-- Park a task at a place on a ticket without a cause (R130 outcome 2); a pre-empted one parks when it continues (R84). -/
def parkOn (core place : Nat) (w : ParkCause) (s : State) : State :=
  if place < 8 then
    s.modCore core fun k => match tabFind k.parks place with
      | some p => { k with parks := tabPut k.parks place { p with causes := p.causes ++ [{ w with since := s.now }] } }
      | none => k
  else if ((s.coreAt core).taskAt place).status = .preempted then
    s.modCore core fun k =>
      let k := k.modTaskAt place fun t => { t with heldFor := t.heldFor ++ [{ w with since := s.now }] }
      if w.memory then { k with pgstat := bumpField k.pgstat 31 16 1 } else k
  else s.parkTask core (place == 9) w

/-- The cause that a walk's answer raises against an access (R130, R449, R224). -/
def walkCause (what code : Nat) (va : Word) (aSeq : Bool) (ticket : Option Nat) : Cause :=
  let fetch := match code with | 0x11 => 0x04 | 0x12 => 0x05 | 0x13 => 0x05 | 0x19 => 0x0E | c => c
  { code := if what = 1 then fetch else if what ≥ 2 then 0x50 else code
    kind := .p, addr := va, aSeq := aSeq, ticket := ticket, sub := if what ≥ 2 then code + (what - 2) * 256 else 0 }

/-- The slot of a faulted mfetch stands in sr.mflt (R224). -/
def Core.noteFetch (k : Core) (c : Cause) : Core := if c.code = 0x50 then { k with mflt := BitVec.ofNat 64 c.sub } else k

/-- Raise a precise cause at an access of a task: at its place on its core; in a frame it waits for the flood. -/
def raiseAt (core tid : Nat) (pc : Word) (c : Cause) (s : State) : State :=
  match (s.coreAt core).placeOfTask tid with
  | some place =>
    if ((s.coreAt core).taskAt place).pcOf c.aSeq = pc then takeTrapAt core place c (s.modCore core (·.noteFetch c)) else s
  | none =>
    match s.blocks.find? fun b => b.2.holdsTask tid with
    | some (u, _) => s.modBlock u fun b => { b with
        saved := b.saved.map fun k =>
          if k.tasks.any fun t => t.tid == tid && t.pcOf c.aSeq == pc then (k.noteFetch c).modTid tid (·.awaitTrap c) else k }
    | none => s

/-- Outcome 1 of a walk for an access of a task (R130, R132, R146, R449): an invalid landing core is 0x18 for each; a shippable task
ships as soon as its store buffer is empty; the fetch of another is 0x04, and its data access goes on as a remote one. -/
def answerShip (core place : Nat) (landing what : Nat) (va ea : Word) (aSeq : Bool) (s : State) : State :=
  let t := (s.coreAt core).taskAt place
  if !s.validLanding (s.partOf core) landing then takeTrapAt core place { code := 0x18, kind := .p, addr := ea, aSeq := aSeq } s
  else if place ≥ 8 && t.shippable then
    if t.status == .running && (s.coreAt core).sb.isEmpty then shipTask core (place == 9) (some landing) ea s
    else s.modCore core fun k => k.modTaskAt place fun t => { t with shipTo := some (landing, va, ea) }
  else if what = 1 then takeTrapAt core place { code := 0x04, kind := .p, addr := ea, aSeq := aSeq } s
  else if t.shipNoted.contains ea then s
  else s.modCore core fun k =>
    ({ k with pgstat := bumpField k.pgstat 43 32 1 }).modTaskAt place fun t => { t with shipNoted := ea :: t.shipNoted }

/-- One access of an answered walk (R130). An access of an absent block's engine takes any outcome but a fault as filled (R139). -/
def answerWaiter (outcome : Nat) (arg : Word) (ticket : Option Nat) (va : Word) (who : Requester) (s : State) : State :=
  match who with
  | .engine tag =>
    match outcome with
    | 2 | 3 => if isSavedTag tag then s else { s with heldTags := tag :: s.heldTags }
    | 4 => { s with answers := tabPut s.answers tag { code := fieldOf arg 7 0, kind := .a, addr := va } }
    | _ => s
  | .task core tid aSeq what pc ea =>
    match (s.coreAt core).placeOfTask tid with
    | none => if outcome = 4 then raiseAt core tid pc (walkCause what (fieldOf arg 7 0) ea aSeq none) s else s
    | some place =>
      if ((s.coreAt core).taskAt place).pcOf aSeq ≠ pc then s
      else match outcome with
        | 1 => answerShip core place (fieldOf arg 10 0) what va ea aSeq s
        | 2 => parkOn core place { why := .regeneration, addr := ea, ticket := ticket, aSeq := aSeq } s
        | 3 => raiseAt core tid pc (walkCause what 0x11 ea aSeq ticket) s
        | 4 => raiseAt core tid pc (walkCause what (fieldOf arg 7 0) ea aSeq none) s
        | _ => s

/-- The tags of the engines that wait for a walk. -/
def Walk.tags (w : Walk) : List Nat :=
  (w.waiters.filterMap fun r => match r with | .engine t => some t | _ => none).filter fun t => !isSavedTag t

/-- Drain the store buffers of the tasks that a walk would ship (R132), as far as their engines let them. -/
def drainWaiters (w : Walk) : M Unit :=
  each (fun r => match r with | .task c _ _ _ _ _ => tryCatch (drainN c 16) (fun _ => pure ()) | _ => pure ()) w.waiters

/-- WRET (R146). The operands are checked first, then the slot (notes/assumptions/38.md). -/
def execWret (a b c : BitVec 5) (k : BitVec 3) (s : State) : Host.Outcome State Fault Refusal :=
  other (do
    supervisor
    let x ← rg a
    let arg ← rg b
    let cove := coveOf (← curCore)
    let slot := fieldOf x 4 0
    let outcome := k.toNat
    let code := fieldOf arg 7 0
    if fieldOf x 63 5 ≠ 0 || (outcome = 4 && !([0x11, 0x12, 0x13, 0x19, 0x27].contains code)) then status c 3
    else match tabFind ((← get).coveAt cove).walks slot with
      | none => status c 1
      | some w =>
        if outcome = 1 then drainWaiters w
        if outcome = 2 || outcome = 3 then
          match tabFree ((← get).coveAt cove).tickets 64 0 with
          | none => status c 2
          | some n =>
            let id := cove * 64 + n
            modify fun s => s.modCove cove fun v => { v with
              walks := tabDel v.walks slot
              walkQueue := v.walkQueue.filter (· ≠ slot)
              tickets := tabPut v.tickets n { host := outcome == 3, va := w.va, asid := w.asid, engines := w.tags } }
            if outcome = 3 then
              modify fun s => { s with host := { s.host with pageRequests := s.host.pageRequests ++ [(cove, n)] } }
            modify fun s => w.waiters.foldl (fun s r => answerWaiter outcome arg (some id) w.va r s) s
            modify (pumpInbox (pilotOf cove))
            status c (n * 256)
        else
          modify fun s => s.modCove cove fun v => { v with
            walks := tabDel v.walks slot, walkQueue := v.walkQueue.filter (· ≠ slot) }
          modify fun s => w.waiters.foldl (fun s r => answerWaiter outcome arg none w.va r s) s
          modify (pumpInbox (pilotOf cove))
          status c 0) s

/-- Does a task wait on a ticket: joined to it by a replay, held for it, or with a trap of it that waits for record room? -/
def Task.onTicket (t : Task) (id : Nat) : Bool :=
  (t.joined.any fun w => w.ticket == some id) || (t.heldFor.any fun w => w.ticket == some id && !w.cleared) ||
    t.raising.any fun c => c.ticket == some id
/-- Does a core hold a task that waits on a ticket? -/
def Core.onTicket (k : Core) (id : Nat) : Bool :=
  (k.tasks.any fun t => t.onTicket id) || k.parks.any fun x => x.2.causes.any fun w => w.ticket == some id && !w.cleared

/-- The cause that a failed ticket raises at an access that waited for it (R147). -/
def ticketCause (w : ParkCause) (result : Nat) : Cause :=
  let mf := match w.why with | .cause 0x50 _ => true | _ => false
  { code := if mf then 0x50 else result, kind := .p, addr := w.addr, aSeq := w.aSeq, sub := if mf then result + w.sub / 256 * 256 else 0 }

/-- A task after a ticket has ended well (R147): a replayed access walks again, and a trap of it that waits for its record parks
nothing. -/
def Task.ticketDone (t : Task) (id : Nat) : Task :=
  { t with
    joined := t.joined.filter fun w => w.ticket ≠ some id
    raising := t.raising.map fun c => if c.ticket = some id then { c with ticket := none, cleared := true } else c }

/-- What a task in a bank still waits for on a ticket. -/
def Task.ticketWaits (t : Task) (id : Nat) : List ParkCause :=
  (t.heldFor.filter fun w => w.ticket == some id && !w.cleared) ++ t.joined.filter fun w => w.ticket == some id

/-- A task after a ticket has failed (R147): it waits on it no more, and a trap of it that waits for its record is one of the
result. -/
def Task.ticketFailed (t : Task) (id result now : Nat) : Task :=
  let held := t.heldFor.filter fun w => w.ticket ≠ some id
  { t with
    status := if t.status = .held ∧ held = [] then .running else t.status
    heldFor := held
    joined := t.joined.filter fun w => w.ticket ≠ some id
    raising := t.raising.map fun c => if c.ticket = some id then ticketCause (c.parkCause now now) result else c }

/-- A change of every task of a core. -/
def Core.mapTasks (k : Core) (f : Task → Task) : Core :=
  { k with
    b0 := if k.b0.status = .empty then k.b0 else f k.b0
    b1 := if k.b1.status = .empty then k.b1 else f k.b1
    parks := k.parks.map fun x => (x.1, { x.2 with task := f x.2.task }) }

/-- The causes that a failed ticket raises on a core, with the places of their tasks (R147). -/
def Core.ticketCauses (k : Core) (id result : Nat) : List (Nat × Cause) :=
  let parked := k.parks.flatMap fun x =>
    ((x.2.causes.filter fun w => w.ticket == some id && !w.cleared) ++ x.2.task.ticketWaits id).map fun w => (x.1, ticketCause w result)
  parked ++ ([8, 9].filter fun p => (k.taskAt p).status ≠ .empty).flatMap fun p =>
    ((k.taskAt p).ticketWaits id).map fun w => (p, ticketCause w result)

/-- A core after a ticket has ended (R147), but for what a failure raises. -/
def Core.ticketOver (k : Core) (id result now : Nat) : Core :=
  if result = 0 then (k.clearCauses now fun w => w.ticket == some id).mapTasks (·.ticketDone id)
  else
    let without (p : Parked) : Parked := { p with causes := p.causes.filter fun w => w.ticket ≠ some id }
    ({ k with parks := k.parks.map fun x => (x.1, without x.2) } : Core).mapTasks (·.ticketFailed id result now)

/-- The end of a ticket on a core of the device (R147): causes are cleared, or the result is raised in their place. -/
def endTicketOn (core id result : Nat) (s : State) : State :=
  let causes := if result = 0 then [] else (s.coreAt core).ticketCauses id result
  let s := s.modCore core fun k => k.ticketOver id result s.turns
  causes.foldl (fun s x => takeTrapAt core x.1 x.2 (s.modCore core (·.noteFetch x.2))) s

/-- The end of a ticket for a saved core: a failure is raised at the flood or reload (R147). -/
def Core.endTicketSaved (k : Core) (id result : Nat) (now : Nat) : Core :=
  let causes := if result = 0 then [] else k.ticketCauses id result
  causes.foldl (fun (k : Core) (x : Nat × Cause) => (k.noteFetch x.2).modTaskAt x.1 (·.awaitTrap x.2)) (k.ticketOver id result now)

/-- Does any task or engine still wait on a ticket? -/
def State.ticketWaited (s : State) (id : Nat) (t : Ticket) : Bool :=
  !t.engines.isEmpty || (s.cores.any fun c => c.2.onTicket id) || (s.blocks.any fun b => b.2.gang.isNone && b.2.saved.any (·.onTicket id))

/-- A ticket ends with a result (R147, R135); `asked` says that regdone ends it, which finds a host answer late where no task waits. -/
def endTicket (cove n result : Nat) (asked : Bool) (s : State) : State :=
  match tabFind (s.coveAt cove).tickets n with
  | none => s
  | some t =>
    let id := cove * 64 + n
    let late := asked && t.host && !s.ticketWaited id t
    let s := s.modCove cove fun v => { v with tickets := tabDel v.tickets n, late := if late then v.late + 1 else v.late }
    let s := { s with host := { s.host with pageRequests := s.host.pageRequests.filter (· ≠ (cove, n)) } }
    let s := if late then reportCore (pilotOf cove) { code := 0x17, kind := .r } s else s
    let s := (s.cores.map (·.1)).foldl (fun s c => endTicketOn c id result s) s
    let s := { s with
      blocks := s.blocks.map fun b =>
        if b.2.gang.isSome then b else (b.1, { b.2 with saved := b.2.saved.map fun k => k.endTicketSaved id result s.turns })
      heldTags := s.heldTags.filter fun g => !t.engines.contains g }
    if result = 0 then s
    else { s with answers := t.engines.foldl (fun a g => tabPut a g { code := result, kind := .a, addr := t.va }) s.answers }

/-- REGDONE (R147). The operands are checked first, then the ticket; a bit of either register beyond its field is a bad operand
(notes/assumptions/38.md). -/
def execRegdone (a b c : BitVec 5) (s : State) : Host.Outcome State Fault Refusal :=
  other (do
    supervisor
    let x ← rg a
    let r ← rg b
    let cove := coveOf (← curCore)
    if fieldOf x 63 6 ≠ 0 || !([0x00, 0x15, 0x16, 0x27].contains r.toNat) then status c 3
    else if (tabFind ((← get).coveAt cove).tickets (fieldOf x 5 0)).isNone then status c 1
    else
      modify (endTicket cove (fieldOf x 5 0) r.toNat true)
      status c 0) s

/-- Does a saved gang await the host's answer to the page request of a ticket (R417)? -/
def Gang.awaits (g : Gang) (cove ticket : Nat) : Bool :=
  match tabFind (tabGet g.coves cove {}).tickets ticket with
  | some t => t.host && !t.answered
  | none => false

/-- Does anything of a saved gang wait on a ticket: an engine's access, a task of a pilot or routing core, or one of its blocks? -/
def State.gangWaits (s : State) (area id : Nat) (t : Ticket) (g : Gang) : Bool :=
  !t.engines.isEmpty || (g.cores.any fun c => c.2.onTicket id) ||
    s.blocks.any fun b => b.2.gang == some area && b.2.saved.any (·.onTicket id)

/-- A ticket of a saved gang ends in its image (R417, R147): causes clear, or the result is raised at the reload; the engines' accesses
go on or end with it. `asked` as for `endTicket`. -/
def endGangTicket (area cove n result : Nat) (asked : Bool) (s : State) : State :=
  match (tabFind s.gangs area).bind fun g => (tabFind (tabGet g.coves cove {}).tickets n).map fun t => (g, t) with
  | none => s
  | some (g, t) =>
    let id := cove * 64 + n
    let late := asked && t.host && !s.gangWaits area id t g
    let endSaved (k : Core) : Core := k.endTicketSaved id result s.turns
    let v := tabGet g.coves cove {}
    let v := { v with tickets := tabDel v.tickets n, late := if late then v.late + 1 else v.late }
    let s := if late then reportCore (pilotOf cove) { code := 0x17, kind := .r } s else s
    { s with
      gangs := tabPut s.gangs area { g with coves := tabPut g.coves cove v, cores := g.cores.map fun c => (c.1, endSaved c.2) }
      blocks := s.blocks.map fun b => if b.2.gang == some area then (b.1, { b.2 with saved := b.2.saved.map endSaved }) else b
      heldTags := s.heldTags.filter fun x => !t.engines.contains x
      answers := if result = 0 then s.answers
        else t.engines.foldl (fun a x => tabPut a x { code := result, kind := .a, addr := t.va }) s.answers }

/-- PRG_RESPONSE (R135): the host's answer to a page request reaches the walk firmware as a message: payload dword 0 holds
the ticket, dword 1 whether it succeeded (notes/assumptions/21.md). The answer to a request of a saved gang ends the ticket in its image
(R417; notes/assumptions/82.md). -/
def execPrgResponse (cove ticket : Nat) (success : Bool) (s : State) : Host.Outcome State Fault Refusal :=
  event (do
    let pilot := pilotOf cove
    let e : InboxEntry := {
      id := 0, h0 := header0 0 0 true false 0 0 2 0 false, h1 := BitVec.ofNat 64 s.now, credit := false
      payload := pad8 [BitVec.ofNat 64 ticket, Word.ofBool success] }
    if s.host.pageRequests.contains (cove, ticket) && (tabFind (s.coveAt cove).tickets ticket).isSome then
      enabled ((s.coreAt pilot).inboxRoom 0)
      modify fun s => { s with host := { s.host with pageRequests := s.host.pageRequests.filter (· ≠ (cove, ticket)) } }
      modify (inboxArrive (.core pilot) e)
    else
      let x ← orNo (s.gangs.find? fun g => g.2.awaits cove ticket)
      modify (endGangTicket x.1 cove ticket (if success then 0 else 0x16) true)) s

end Sys2Proof.Machine
end

