-- ==== Sys2Proof/Machine/Route.lean ====
section
/-! DEFINITION. The gate queues, routing records and counters, and the sort engine (spec/19, major 0x2D). The sort engine reads one
slot an event, copies one sector an event, and writes the lists of an rsort at once (notes/assumptions/24.md). -/

namespace Sys2Proof.Machine

/-- The routing core of a die. -/
def routingCore (d : Nat) : Nat := 512 * d + 9

/-- The fields of header word 0 of a gate entry (R359). -/
def gateTok (w : Word) : Nat := fieldOf w 19 0
/-- The name of score 0. -/
def gateBase (w : Word) : Nat := fieldOf w 31 20
/-- Scores minus one. -/
def gateCnt (w : Word) : Nat := fieldOf w 39 32
/-- Routes minus one. -/
def gateK (w : Word) : Nat := fieldOf w 43 41

/-- The checks of R359 on an entry of ten words. -/
def gateCheck (e : List Word) : M Unit := do
  let w := nth e 0 0
  let s ← get
  check (fieldOf w 63 46 ≠ 0 || (bitOf w 40 && (gateCnt w > 15 || nth e 1 0 ≠ 0)) || gateK w > gateCnt w) 0x01
  checkOf (!(s.partAt (s.partOf s.cur.core)).holdsNames (gateBase w) (gateCnt w + 1)) 0x55 (gateBase w)

/-- GPUSH (R361): the entry travels as a packet of the message class. -/
def execGpush (a b : BitVec 5) (s : State) : Host.Outcome State Fault Refusal :=
  other (do
    let d ← rg b
    check (fieldOf d 63 2 ≠ 0) 0x01
    let die := d.toNat
    let s ← get
    let core := s.cur.core
    check (s.partOf (routingCore die) ≠ s.partOf core) 0x29
    let ea ← rg a
    check (ea.toNat % 16 ≠ 0) 0x10 ea
    let e ← loadWords ea 10
    gateCheck e
    drain
    waitUntil (((← get).dieAt die).gate.length < 512)
    modify fun s => inject (dieOf core) {
      kind := .gate e die, ep := endpoint 0 0 die s.device, home := some (routingCore die), src := s.endpointOf core
      core := core, part := s.partOf core, cls := 0, stop := stopOf core } s) s

/-- GATE_APPEND (R361): the first gate packet of a die enters its queue once there is room, or goes on to the die that it is for. -/
def execGateAppend (die : Nat) (s : State) : Host.Outcome State Fault Refusal :=
  event (do
    let may (ix : Nat) : Bool := s.flightFree die ix && (match (s.dieAt die).ring[ix]? with
      | some f => (match f.packet.kind with | .gate .. => true | _ => false)
      | none => false)
    let ix ← orNo ((List.range (s.dieAt die).ring.length).find? may)
    let f ← flightAt die ix
    match f.packet.kind, ← forwarded die ix f.packet with
    | _, none => pure ()
    | .gate e _, _ =>
      enabled ((s.dieAt die).gate.length < 512)
      flightGone die ix
      modify fun s => s.modDie die fun d => { d with gate := d.gate ++ [e] }
    | _, _ => throw .no) s

/-- GPOP (R362, R450). -/
def execGpop (a c : BitVec 5) (w : BitVec 1) (s : State) : Host.Outcome State Fault Refusal :=
  other (do
    let ea ← rg a
    check (ea.toNat % 16 ≠ 0) 0x10 ea
    let die := dieOf (← curCore)
    let q := ((← get).dieAt die).gate
    let e := q.headD []
    let ps ← checkStores (storePieces ea (e.flatMap bytesOf ++ List.replicate (80 - 8 * e.length) 0) 10)
    match q with
    | [] => if w = 1 then wg c 0 else throw .wait
    | e :: r =>
      enterStores ps
      modify fun s => s.modDie die fun d => { d with gate := r }
      wg c (nth e 0 0 ||| 0x8000000000000000#64)) s

/-- The address of the routing record of a token slot (R363). -/
def Die.slotAddr (d : Die) (i : Nat) : Word := BitVec.ofNat 64 (fieldOf d.rbuf 55 16 * 65536 + 64 * i)
/-- Slots minus one. -/
def Die.slotCap (d : Die) : Nat := fieldOf d.rbuf 12 0
/-- The token of slot 0. -/
def Die.tbase (d : Die) : Nat := fieldOf d.rstep 19 0

/-- A half of a routing record (R363). -/
structure RouteHalf where
  k : Nat := 0
  v : Bool := false
  cf : Nat := 0
  sq : Nat := 0
  names : List Nat := []
  wts : List Nat := []
  deriving DecidableEq, Repr

/-- The half that 32 bytes hold. -/
def halfOf (b : List Byte) : RouteHalf :=
  let w := natOfBytes b
  let bits (hi lo : Nat) : Nat := w / 2 ^ lo % 2 ^ (hi + 1 - lo)
  let k := bits 2 0
  { k := k, v := bits 3 3 == 1, cf := bits 11 4, sq := bits 19 12
    names := (List.range (k + 1)).map fun j => bits (32 + 12 * j + 11) (32 + 12 * j)
    wts := (List.range (k + 1)).map fun j => bits (128 + 16 * j + 15) (128 + 16 * j) }

/-- The flags word of a half: bytes 0 to 3. -/
def RouteHalf.flags (h : RouteHalf) : Nat := h.k + (if h.v then 8 else 0) + h.cf * 16 + h.sq * 4096

/-- The 32 bytes of a half. -/
def RouteHalf.bytes (h : RouteHalf) : List Byte :=
  bytesOfNat 4 h.flags ++ bytesOfNat 12 (digits 4096 h.names) ++ bytesOfNat 16 (digits 65536 h.wts)

/-- Does score x stand before y (R364): greater first, equal values by lower index, NaN below −Inf? -/
def scoreBefore (x y : Num × Nat) : Bool :=
  if ranksAbove x.1 y.1 then true else if ranksAbove y.1 x.1 then false else x.2 < y.2

/-- Insert a score in rank order. -/
def rankInsert (x : Num × Nat) : List (Num × Nat) → List (Num × Nat)
  | [] => [x]
  | y :: r => if scoreBefore x y then x :: y :: r else y :: rankInsert x r

/-- The weights of the chosen scores (R364): each one rounded once to BF16. -/
def routeWeights (norm : Bool) (ps : List Num) : List Nat :=
  let rnd (x : Num) : Nat := (bf16.round 0 false none x).1
  if !norm then ps.map rnd
  else
    let t : Num := ps.foldl (fun (t p : Num) => (t.add false p).1) (Num.zero false)
    match t with
    | .fin _ n _ _ => if n = 0 then ps.map fun _ => 0x7FC0 else ps.map fun p => rnd (p.div t).1
    | _ => ps.map fun _ => 0x7FC0

/-- Count names in one of the routing counters (R365): 0 confirmed, 1 predicted, 2 squashed, each saturating. -/
def countRoutes (d which : Nat) (names : List Nat) (s : State) : State :=
  s.modDie d fun x => { x with gateCount := names.foldl (fun t n =>
    let w := (tabGet t n 0).toNat
    let v := w / 2 ^ (32 * which) % 2 ^ 32
    if v = 2 ^ 32 - 1 then t else tabPut t n (BitVec.ofNat 96 (w + 2 ^ (32 * which)))) x.gateCount }

/-- The scores of an entry: inline, or read from memory with plain loads (R359, R364). -/
def gateScores (e : List Word) : M (List Num) := do
  let w := nth e 0 0
  let n := gateCnt w + 1
  if bitOf w 40 then
    let b := (e.drop 2).flatMap bytesOf
    return (List.range n).map fun i => fp32.decode false (natOfBytes ((b.drop (4 * i)).take 4))
  else
    check ((nth e 1 0).toNat % 4 ≠ 0) 0x10 (nth e 1 0)
    mapEach (fun (i : Nat) => do
      return fp32.decode false (natOfBytes (← loadBytes (nth e 1 0 + BitVec.ofNat 64 (4 * i)) 4))) (List.range n)

/-- REMIT (R364, R365): its writes and counts are one event, so its stores have left the buffer when it completes. -/
def execRemit (a c : BitVec 5) (s : State) : Host.Outcome State Fault Refusal :=
  other (do
    let ea ← rg a
    check (ea.toNat % 16 ≠ 0) 0x10 ea
    let e ← loadWords ea 10
    gateCheck e
    let w := nth e 0 0
    let d := dieOf (← curCore)
    let die := (← get).dieAt d
    check (gateTok w < die.tbase || gateTok w - die.tbase > die.slotCap) 0x5A
    let scores ← gateScores e
    let ranked := ((scores.zip (List.range scores.length)).foldl (fun l x => rankInsert x l) []).take (gateK w + 1)
    let names := ranked.map fun x => gateBase w + x.2
    let tent := bitOf w 45
    let slot := die.slotAddr (gateTok w - die.tbase)
    let b := (← loadWords slot 8).flatMap bytesOf
    let own := halfOf (if tent then b.take 32 else b.drop 32)
    let oth := halfOf (if tent then b.drop 32 else b.take 32)
    if own.v then wg c 3
    else if tent && oth.v then
      modify (countRoutes d 1 names)
      modify (countRoutes d 2 names)
      wg c 2
    else
      let half : RouteHalf := { k := gateK w, v := true, names := names, wts := routeWeights (bitOf w 44) (ranked.map (·.1)) }
      let hit (f : Bool) : Nat :=
        ((List.range oth.names.length).filter fun j => names.contains (nth oth.names j 0) == f).foldl (fun t j => t + 2 ^ j) 0
      let oth' : RouteHalf := { oth with cf := oth.cf ||| hit true, sq := oth.sq ||| hit false }
      let at_ (t : Bool) : Word := if t then slot else slot + 32
      let ps ← checkStores ((if !tent && oth.v then [(at_ true, bytesOfNat 4 oth'.flags)] else []) ++
        storePieces (at_ tent) half.bytes 4)
      drain
      waitUntil !(← cc).memoryBusy
      ownStores ps
      enterStores ps
      drain
      if tent then modify (countRoutes d 1 names)
      else
        modify (countRoutes d 0 names)
        if oth.v then modify (countRoutes d 2 (oth.names.filter fun n => !names.contains n))
      wg c (if !tent && oth.v then BitVec.ofNat 64 (1 + 256 * oth'.sq) else 0)) s

/-- A field of 4 bytes of a descriptor. -/
def half32 (w : List Word) (i : Nat) : Nat := fieldOf (nth w (i / 8) 0) (8 * (i % 8) + 31) (8 * (i % 8))

/-- A command enters the sort engine of the die (R367): after the store buffer is drained, while it holds fewer than 16. -/
def queueSort (i : Instr) (w : List Word) : M Unit := do
  drain
  let s ← get
  let die := dieOf s.cur.core
  waitUntil ((s.dieAt die).sort.length < 16)
  let c : SortCommand := {
    id := ← nextCommand, instr := i, words := w, core := s.cur.core, tid := s.task.tid, pc := s.pc, asid := s.asidOf s.cur.core, priv := s.task.priv }
  modify fun s => s.modDie die fun d => { d with sort := d.sort ++ [c] }

/-- The fields of an rsort descriptor: t0, n, nb, nn, mode. -/
def sortFields (w : List Word) : Nat × Nat × Nat × Nat × Nat :=
  (half32 w 24, half32 w 28, fieldOf (nth w 4 0) 15 0, fieldOf (nth w 4 0) 31 16, fieldOf (nth w 4 0) 39 32)

/-- RSORT (R368). -/
def execRsort (a : BitVec 5) (s : State) : Host.Outcome State Fault Refusal :=
  other (do
    let ea ← rg a
    check (ea.toNat % 64 ≠ 0) 0x10 ea
    let w ← loadWords ea 8
    check ((w.take 3).any fun x => x.toNat % 64 ≠ 0) 0x10 ea
    let (t0, n, nb, nn, mode) := sortFields w
    check (fieldOf (nth w 4 0) 63 40 ≠ 0 || (w.drop 5).any (· ≠ 0) || n = 0 || n > 8192 || nn = 0 || nn > 4096 || mode > 2) 0x01
    let s ← get
    let die := s.dieAt (dieOf s.cur.core)
    check (t0 < die.tbase || t0 - die.tbase + n > die.slotCap + 1) 0x5A
    checkOf (!(s.partAt (s.partOf s.cur.core)).holdsNames nb nn) 0x55 nb
    queueSort (.rsort a) w) s

/-- The fields of an rmap descriptor: n, t0, rl, ss, ds, half. -/
def mapFields (w : List Word) : Nat × Nat × Nat × Nat × Nat × Nat :=
  (half32 w 24, half32 w 28, half32 w 32, half32 w 36, half32 w 40, fieldOf (nth w 5 0) 39 32)

/-- RMAP (R369): the rows of .ret are whole map lines of 32 bytes, the entries of .disp doublewords. -/
def execRmap (a : BitVec 5) (d : BitVec 1) (s : State) : Host.Outcome State Fault Refusal :=
  other (do
    let ea ← rg a
    check (ea.toNat % 64 ≠ 0) 0x10 ea
    let w ← loadWords ea 8
    let (n, _, rl, ss, ds, half) := mapFields w
    check ((nth w 0 0).toNat % (if d = 1 then 8 else 32) ≠ 0 || (nth w 1 0).toNat % 32 ≠ 0 || (nth w 2 0).toNat % 32 ≠ 0) 0x10 ea
    check (fieldOf (nth w 5 0) 63 40 ≠ 0 || nth w 6 0 ≠ 0 || nth w 7 0 ≠ 0 || n = 0 || n > (if d = 1 then 65536 else 8192)
      || rl = 0 || rl > 65536 || rl % 32 ≠ 0 || ss % 32 ≠ 0 || ds % 32 ≠ 0 || half > (if d = 1 then 0 else 1)) 0x01
    queueSort (.rmap a d) w) s

/-- The agent of the routing records of a die: the routing core's cove and address space (R363). -/
def State.recordAgent (s : State) (d : Nat) : UnitAgent :=
  { die := d, tag := dieTag d 0, core := routingCore d, asid := s.asidOf (routingCore d), priv := false }

/-- The core number under which a core of a cove stands aside: no core has it. -/
def asideOf (core : Nat) : Nat := 16 * coveOf core + 15

/-- The state with a saved core on the core of a unit's command, and what stands there aside. -/
def bringSaved (core : Nat) (k : Core) (s : State) : State := (s.setCore (asideOf core) (s.coreAt core)).setCore core k

/-- The state with both back where they stood. -/
def takeSaved (core u r : Nat) (s : State) : State :=
  let t := (s.modTarget (.saved u r) fun _ => s.coreAt core).setCore core (s.coreAt (asideOf core))
  { t with cores := tabDel t.cores (asideOf core) }

/-- Make an access of a unit's command with the scratchpad and the cove of the core where its task stands, or of the issuing core once
the task has ended. While the task's block is absent, the access finds the scratchpad in the frame (R398, notes/assumptions/25.md). -/
def withIssuer {α : Type} (core tid : Nat) (m : Nat → M α) : M α := do
  let s ← get
  match s.coreOfTask tid with
  | some c => m c
  | none =>
    match s.savedTask tid with
    | none => m core
    | some (u, r) =>
      match s.targetCore (.saved u r) with
      | none => m core
      | some k =>
        set (bringSaved core k s)
        let x ← tryCatch (m core) fun e => do
          modify (takeSaved core u r)
          throw e
        modify (takeSaved core u r)
        return x

/-- The status of a command's fault (R367): 2 for a local range, poison or uncorrectable data, else 1. -/
def sortStatus (cause : Nat) : Nat := copyStatus cause

/-- The first command of a die's sort engine, changed. -/
def modSort (d : Nat) (f : SortCommand → SortCommand) : M Unit :=
  modify fun s => s.modDie d fun x => match x.sort with
    | c :: r => { x with sort := f c :: r }
    | [] => x

/-- The first command ends (R367): its completion, its cause. -/
def endSort (d : Nat) (c : SortCommand) (status cause : Nat) (addr : Word) (d2 d3 : Nat) : M Unit := do
  modify fun s => s.modDie d fun x => { x with sort := x.sort.drop 1 }
  if cause ≠ 0 then modify (raiseAsync c.core c.tid { code := cause, kind := .a, addr := addr })
  modify (complainTask c.tid (completionWords 4 status c.pc (BitVec.ofNat 64 d2) (BitVec.ofNat 64 d3)))

/-- Read bytes for a unit's command in its issuer's space, with their poison; what HBM holds uncorrectable is 0x1E (R433). -/
def issuerRead (tag core asid : Nat) (priv : Bool) : List (Word × Nat) → M (Except (Nat × Word) (List Byte × Bool))
  | [] => return .ok ([], false)
  | (ea, n) :: r => do
    match ← enginePlace tag core asid priv ea n false with
    | .error x => return .error (x, ea)
    | .ok p =>
      match ← engineRead core n p with
      | .error x => return .error (x, ea)
      | .ok (b, bad) =>
        match ← issuerRead tag core asid priv r with
        | .error x => return .error x
        | .ok (bs, bad') => return .ok (b ++ bs, bad || bad')

/-- Read bytes for a command of the sort engine. -/
def sortRead (c : SortCommand) (d : Nat) (l : List (Word × Nat)) : M (Except (Nat × Word) (List Byte × Bool)) :=
  withIssuer c.core c.tid fun k => issuerRead (dieTag d 0) k c.asid c.priv l

/-- The pieces of a range. -/
def rangePieces (ea : Word) (n : Nat) : List (Word × Nat) := sectors ea n (n / 32 + 2)

/-- Read the routing record at the address of a slot: its tentative and true halves, or the cause. -/
def readSlot (d : Nat) (ea : Word) : M (Except (Nat × Word) (RouteHalf × RouteHalf)) := do
  let s ← get
  match ← (s.recordAgent d).read ea 64 with
  | .error e => return .error e
  | .ok b =>
    if b.any (·.2) then return .error (0x19, ea)
    else
      let l := b.map (·.1)
      return .ok (halfOf (l.take 32), halfOf (l.drop 32))

/-- The pairs of one token (R368): those kept as dispatch list entries, and the number left out. -/
def tokenPairs (mode nb nn t : Nat) (tent true_ : RouteHalf) : List Word × Nat :=
  let h := if mode = 0 then tent else true_
  if !h.v then ([], 0)
  else
    let keep (j : Nat) : Bool :=
      let n := nth h.names j 0
      nb ≤ n && n < nb + nn &&
        (match mode with
         | 0 => h.sq / 2 ^ j % 2 == 0
         | 1 => !(tent.v && tent.names.contains n)
         | _ => true)
    let js := List.range (h.k + 1)
    ((js.filter keep).map fun j => BitVec.ofNat 64
      (nth h.names j 0 + t % 2 ^ 20 * 2 ^ 12 + j * 2 ^ 32 + (if mode = 0 then 2 ^ 35 else 0) + nth h.wts j 0 * 2 ^ 36),
     (js.filter fun j => !keep j).length)

/-- The name of a dispatch list entry. -/
def pairName (w : Word) : Nat := fieldOf w 11 0

/-- The pairs of a name range, in name order, ties in the order they stand (R368). -/
def sortPairs (nb nn : Nat) (l : List Word) : List Word :=
  (List.range nn).flatMap fun x => l.filter fun w => pairName w == nb + x

/-- The offsets of the names in a sorted list. -/
def sortOffsets (nb nn : Nat) (l : List Word) : List Byte :=
  (List.range (nn + 1)).flatMap fun x => bytesOfNat 4 (l.filter fun w => pairName w < nb + x).length

/-- The return map of a sorted list: 8 indexes a token. -/
def returnMap (t0 n : Nat) (l : List Word) : List Byte :=
  (List.range (8 * n)).flatMap fun e => bytesOfNat 4 (match l.findIdx? fun w =>
    fieldOf w 31 12 == (t0 + e / 8) % 2 ^ 20 && fieldOf w 34 32 == e % 8 with | some i => i | none => 2 ^ 32 - 1)

/-- Place and own every piece of a unit's writes in its issuer's space, before any is written. The capability table takes no
such write (R236). -/
def issuerPlaces (tag core asid : Nat) (priv : Bool) : List (Word × Nat) → M (Except (Nat × Word) (List (Place × Nat)))
  | [] => return .ok []
  | (ea, n) :: r => do
    if (← get).engineTable core ea n then return .error (0x14, ea)
    match ← enginePlace tag core asid priv ea n true with
    | .error x => return .error (x, ea)
    | .ok p =>
      match ← ownElems core [(0, ea, p)] with
      | .error x => return .error x
      | .ok () =>
        match ← issuerPlaces tag core asid priv r with
        | .error x => return .error x
        | .ok l => return .ok ((p, n) :: l)

/-- Place and own every piece of the lists of an rsort: no entry is written before all are. -/
def sortPlaces (d : Nat) (c : SortCommand) (l : List (Word × Nat)) : M (Except (Nat × Word) (List (Place × Nat))) :=
  withIssuer c.core c.tid fun k => issuerPlaces (dieTag d 0) k c.asid c.priv l

/-- Write bytes at places that are owned. -/
def sortWrite (core : Nat) : List (Place × Nat) → List Byte → M Unit
  | [], _ => pure ()
  | (p, n) :: r, b => do
    let _ ← engineWrite core p (b.take n)
    sortWrite core r (b.drop n)

/-- Write bytes for a command of the sort engine at places that are owned. -/
def SortCommand.write (c : SortCommand) (ps : List (Place × Nat)) (b : List Byte) : M Unit :=
  withIssuer c.core c.tid fun k => sortWrite k ps b

/-- The next step of an rsort (R368): a slot is read, or, after the last, the lists are written. -/
def stepSort (d : Nat) (c : SortCommand) : M Unit := do
  let (t0, n, nb, nn, mode) := sortFields c.words
  let die := (← get).dieAt d
  if c.pos < n then
    match ← readSlot d (die.slotAddr (t0 + c.pos - die.tbase)) with
    | .error (x, ea) => endSort d c (sortStatus x) x ea 0 c.left
    | .ok (tent, true_) =>
      let r := tokenPairs mode nb nn (t0 + c.pos) tent true_
      modSort d fun c => { c with pos := c.pos + 1, pairs := c.pairs ++ r.1, left := c.left + r.2 }
  else
    let pairs := fieldOf die.rstep 36 20
    if pairs + c.pairs.length > 65536 then endSort d c 7 0x5B c.pc 0 c.left
    else
      let l := sortPairs nb nn c.pairs
      let bytes := l.flatMap bytesOf ++ sortOffsets nb nn l ++ returnMap t0 n l
      let ps := rangePieces (nth c.words 0 0) (8 * l.length) ++ rangePieces (nth c.words 2 0) (4 * (nn + 1))
        ++ rangePieces (nth c.words 1 0) (32 * n)
      match ← sortPlaces d c ps with
      | .error (x, ea) => endSort d c (sortStatus x) x ea 0 c.left
      | .ok places =>
        c.write places bytes
        modify fun s => s.modDie d fun x => { x with rstep := withField x.rstep 36 20 (pairs + l.length) }
        endSort d c 0 0 0 l.length c.left

/-- The source of a row of an rmap (R369): none for a row of zeros. The slot of its token is found by exact arithmetic, below slot 0 for
a token before sr.rstep.tbase (R5). -/
def rowSource (d : Nat) (c : SortCommand) (disp : Bool) (row : Nat) : M (Except (Nat × Word) (Option Word)) := do
  let (_, t0, _, ss, _, half) := mapFields c.words
  let map := nth c.words 0 0
  let src := nth c.words 1 0
  if disp then
    match ← sortRead c d (rangePieces (map + BitVec.ofNat 64 (8 * row)) 8) with
    | .error e => return .error e
    | .ok (b, bad) =>
      if bad then return .error (0x19, map + BitVec.ofNat 64 (8 * row))
      else return .ok (some (src + wordOfInt (((natOfBytes b / 2 ^ 12 % 2 ^ 20 : Nat) : Int) - t0) * BitVec.ofNat 64 ss))
  else
    let ea := map + BitVec.ofNat 64 (4 * row)
    match ← sortRead c d (rangePieces ea 4) with
    | .error e => return .error e
    | .ok (b, bad) =>
      if bad then return .error (0x19, ea)
      else
        let r := natOfBytes b
        let die := (← get).dieAt d
        if r = 2 ^ 32 - 1 then return .ok none
        else if half = 1 then
          match ← readSlot d (die.slotAddr 0 + wordOfInt (64 * (((t0 + row / 8 : Nat) : Int) - die.tbase))) with
          | .error e => return .error e
          | .ok (tent, _) =>
            return .ok (if tent.sq / 2 ^ (row % 8) % 2 = 1 then none else some (src + BitVec.ofNat 64 (r * ss)))
        else return .ok (some (src + BitVec.ofNat 64 (r * ss)))

/-- The source of the row that an rmap is at: found once, as the row begins. -/
def currentRow (d : Nat) (c : SortCommand) (disp : Bool) (row : Nat) : M (Except (Nat × Word) (Option Word)) :=
  match c.source with
  | some x => return .ok x
  | none => rowSource d c disp row

/-- The next sector of an rmap (R369); a fault keeps the rows before it. -/
def stepMap (d : Nat) (c : SortCommand) (disp : Bool) : M Unit := do
  let (n, _, rl, _, ds, _) := mapFields c.words
  let rows := if disp then n else 8 * n
  let per := rl / 32
  let row := c.pos / per
  let stop (x : Nat) (ea : Word) : M Unit := endSort d c (sortStatus x) x ea row 0
  if row ≥ rows then endSort d c 0 0 0 rows 0
  else
    let off := BitVec.ofNat 64 (c.pos % per * 32)
    let dst := nth c.words 2 0 + BitVec.ofNat 64 (row * ds) + off
    match ← currentRow d c disp row with
    | .error (x, ea) => stop x ea
    | .ok source =>
      let r ← (match source with
        | none => return .ok (List.replicate 32 0, false)
        | some ea => sortRead c d [(ea + off, 32)])
      match r with
      | .error (x, ea) => stop x ea
      | .ok (b, bad) =>
        match ← sortPlaces d c [(dst, 32)] with
        | .error (x, ea) => stop x ea
        | .ok ps =>
          c.write ps b
          if bad then withIssuer c.core c.tid fun k => each (fun p => modify (poisonPlace k p.1 32)) ps
          modSort d fun c => { c with pos := c.pos + 1, source := if (c.pos + 1) % per = 0 then none else some source }

/-- SORT_ENGINE_PERFORM (R367): the next step of the first command. -/
def execSortEnginePerform (die : Nat) (s : State) : Host.Outcome State Fault Refusal :=
  event (do
    match (s.dieAt die).sort with
    | [] => throw .no
    | c :: _ =>
      match c.instr with
      | .rmap _ d => stepMap die c (d = 1)
      | _ => stepSort die c) s

/-- Bring the record slots of a die into its L2 with ownership, or clear their flags (R370). -/
def clearSlots (d : Nat) (write : Bool) : List Nat → M Unit
  | [] => pure ()
  | i :: r => do
    let s ← get
    let u := s.recordAgent d
    let ea := (s.dieAt d).slotAddr i
    let go (a : Word) : M Unit := do
      if write then
        match ← u.write a (clean [0, 0, 0, 0]) with
        | .error (c, x) => trapP c x
        | .ok () => pure ()
      else
        match ← u.place a true with
        | .error c => trapP c a
        | .ok (pa, nc, sq) => acquireOnce d (coveOf u.core) u.core pa nc sq true
    go ea
    go (ea + 32)
    clearSlots d write r

/-- The selectors accept the close requests of a range of names at once (R370, R421): begun from then on is 5 and the next command's
number. -/
def closeRequests (f m : Nat) : M Unit := do
  let s ← get
  if s.task.begunOf s.cur.a < 5 then
    inIssueOrder f m
    drain
    modify fun s => { s with names := s.names.map fun x =>
      if f ≤ x.1 && x.1 < f + m && x.2.defined then (x.1, { x.2 with closes := x.2.closes + 1 }) else x }
    modify fun s => s.begin (5 + s.nextUid)

/-- RCLOSE (R370, R421): with .buf it then waits for the earlier commands of the sort engine, and clears the records. -/
def execRclose (a : BitVec 5) (u : BitVec 1) (s : State) : Host.Outcome State Fault Refusal :=
  other (do
    let w ← rg a
    let f := fieldOf w 11 0
    let m := fieldOf w 24 12
    check (fieldOf w 63 25 ≠ 0 || m = 0) 0x01
    let s ← get
    checkOf (!(s.partAt (s.partOf s.cur.core)).holdsNames f m) 0x55 f
    let d := dieOf s.cur.core
    let slots := List.range ((s.dieAt d).slotCap + 1)
    if u = 1 && s.task.begunOf s.cur.a < 5 then clearSlots d false slots
    closeRequests f m
    if u = 1 then
      let s ← get
      if (s.dieAt d).sort.any fun c => c.id + 5 < s.task.begunOf s.cur.a then throw .stall
      clearSlots d false slots
      clearSlots d true slots
      modify fun s => s.modDie d fun x => { x with rstep := withField x.rstep 36 20 0 }) s

end Sys2Proof.Machine
end

