-- ==== Sys2Proof/Machine/Reduce.lean ====
section
/-! DEFINITION. The reduce engine (spec/22, major 0x2E). It reads one chunk of a contribution an event; the chunks that a
contribution lets a position send are sent when it is taken; a result is written in one event for each rput
(notes/assumptions/26.md). -/

namespace Sys2Proof.Machine

/-- The ring entry of a partition on a die (R382, R394). -/
def State.ringOf (s : State) (d part r : Nat) : Word := tabGet (s.dieAt d).rings (16 * part + r) 0
/-- Is a ring entry configured? -/
def ringOn (w : Word) : Bool := bitOf w 63
/-- The number of positions. -/
def ringCount (w : Word) : Nat := fieldOf w 13 0 + 1
/-- This die's position. -/
def ringPos (w : Word) : Nat := fieldOf w 27 14
/-- The next position's device. -/
def ringDevice (w : Word) : Nat := fieldOf w 39 28
/-- The next position's die. -/
def ringDie (w : Word) : Nat := fieldOf w 41 40

/-- Is this the bucket of a ring and bid (R391)? -/
def Bucket.named (b : Bucket) (part ring bid : Nat) : Bool := b.part == part && b.ring == ring && b.bid == bid
/-- The bucket of a ring and bid on a die. -/
def State.bucketOf (s : State) (d part ring bid : Nat) : Option Bucket :=
  (s.dieAt d).buckets.find? fun b => b.named part ring bid
/-- Change a bucket of a die. -/
def modBucket (d part ring bid : Nat) (f : Bucket → Bucket) (s : State) : State :=
  s.modDie d fun x => { x with
    buckets := x.buckets.map fun (b : Bucket) => if b.named part ring bid then f b else b }

/-- The roles a bucket expects (R391). -/
def Bucket.expected (b : Bucket) : List Bool := if b.bk then [false, true] else [false]

/-- Is the result of a bucket written, and have its roles all arrived or completed (R391)? -/
def Bucket.freed (b : Bucket) : Bool := b.written && b.expected.all fun r => b.roles.contains r

/-- A bucket that has ended frees its slot (R391); an rput of a role that it does not expect goes on reading without one. -/
def freeBuckets (d : Nat) (s : State) : State :=
  s.modDie d fun x => { x with
    buckets := x.buckets.filter fun b => !b.freed
    strays := (x.strays ++ x.buckets.filter Bucket.freed).filter fun b => !b.puts.isEmpty }

/-- The bucket, held or freed, of an rput. -/
def Die.bucketOfPut (x : Die) (id : Nat) : Option Bucket := (x.buckets ++ x.strays).find? fun b => b.puts.any fun p => p.id == id

/-- Change the bucket of an rput. -/
def modBucketOf (d id : Nat) (f : Bucket → Bucket) (s : State) : State :=
  let g (b : Bucket) : Bucket := if b.puts.any fun p => p.id == id then f b else b
  s.modDie d fun x => { x with buckets := x.buckets.map g, strays := x.strays.map g }

/-- Report a cause against the issuing task of a unit's command. -/
def reportIssuer (core tid : Nat) (c : Cause) (s : State) : State :=
  let k := (s.coreOfTask tid).getD core
  let task := match (s.coreAt k).tasks.find? (·.tid == tid) with | some t => t.g.get 29 | none => 0
  let crew := match s.blockOf k with | some b => b.crew | none => 0
  reportOn k c crew task s

/-- Record the last reduce fault of a core (R396). -/
def setRflt (core cause bid : Nat) (s : State) : State :=
  s.modCore core fun k => { k with rflt := BitVec.ofNat 64 (cause + 256 * bid) }

/-- RPUT (R393). -/
def execRput (a : BitVec 5) (n : BitVec 1) (s : State) : Host.Outcome State Fault Refusal :=
  other (do
    let ea ← rg a
    check (ea.toNat % 64 ≠ 0) 0x10 ea
    let w ← loadWords ea 8
    check ((w.take 3).any fun x => x.toNat % 64 ≠ 0) 0x10 ea
    let f := nth w 5 0
    let bid := fieldOf f 15 0
    let ring := fieldOf f 35 32
    let backup := bitOf f 36
    let tk := fieldOf f 44 40
    check (fieldOf f 31 28 ≠ 0 || bitOf f 38 || fieldOf f 63 45 ≠ 0 || nth w 6 0 ≠ 0 || nth w 7 0 ≠ 0
      || (tk ≠ 0 && nth w 2 0 = 0)) 0x01
    let s ← get
    let core := s.cur.core
    let d := dieOf core
    let part := s.partOf core
    let held := s.bucketOf d part ring bid
    if !ringOn (s.ringOf d part ring) ||
        (match held with | some b => b.roles.contains backup || b.puts.any fun p => p.backup == backup | none => false) then
      modify (setRflt core 0 bid)
      checkOf true 0x53 bid
    waitUntil (held.isSome || (s.dieAt d).buckets.length < 256)
    drain
    let id ← nextCommand
    let s ← get
    let p : ReducePut := {
      id := id, backup := backup, src := nth w 0 0, dst := nth w 1 0, res := nth w 2 0, scl := nth w 3 0
      notify := n = 1, core := core, tid := s.task.tid, pc := s.pc, asid := s.asidOf core, priv := s.task.priv }
    let nch := fieldOf f 27 16 + 1
    let fmt := fieldOf f 37 37
    let bk := bitOf f 39
    match held with
    | some b =>
      if b.nch ≠ nch || b.fmt ≠ fmt || b.tk ≠ tk || b.bk ≠ bk then
        modify (setRflt core 0 bid)
        modify (raiseAsync core p.tid { code := 0x53, kind := .a, detail := BitVec.ofNat 64 bid })
        if p.notify then modify (complainTask p.tid (completionWords 5 2 p.pc (BitVec.ofNat 64 bid) 0))
      else
        modify (modBucket d part ring bid fun b => { b with puts := b.puts ++ [p] })
        modCC fun k => { k with rputs := k.rputs ++ [id] }
    | none =>
      let b : Bucket := {
        part := part, ring := ring, bid := bid, nch := nch, fmt := fmt, tk := tk, bk := bk, deadline := (nth w 4 0).toNat
        core := core, tid := p.tid, puts := [p] }
      modify fun s => s.modDie d fun x => { x with buckets := x.buckets ++ [b] }
      modCC fun k => { k with rputs := k.rputs ++ [id] }) s

/-- RCFG (R394). -/
def execRcfg (a c : BitVec 5) (r : BitVec 4) (s : State) : Host.Outcome State Fault Refusal :=
  other (do
    let w ← rg a
    let s ← get
    let d := dieOf s.cur.core
    let part := s.partOf s.cur.core
    let here := ringDevice w == s.device && ringDie w == d
    check (fieldOf w 62 42 ≠ 0 || ringPos w ≥ ringCount w) 0x01
    check (here != (ringCount w == 1)) 0x01
    check (ringDevice w ≠ s.device && s.noRoute (ringDevice w)) 0x47
    if (s.dieAt d).buckets.any fun b => b.part == part && b.ring == r.toNat then wg c 1
    else
      modify fun s => s.modDie d fun x => { x with
        rings := if ringOn w then tabPut x.rings (16 * part + r.toNat) w else tabDel x.rings (16 * part + r.toNat) }
      wg c 0) s

/-- The state word of a bucket (R395). -/
def Bucket.status (b : Bucket) : Word :=
  let st := if b.written then 3 else if b.taken.isSome then 2 else 1
  let flag (f : Bool) (i : Nat) : Nat := if f then 2 ^ i else 0
  BitVec.ofNat 64 (st + flag (b.seen.contains false) 2 + flag (b.seen.contains true) 3
    + flag (match b.taken with | some p => p.backup | none => false) 4 + min b.sent.length 4095 * 32
    + flag b.rescaledHere 17 + flag b.deadlineMissed 18)

/-- RSTAT (R395). -/
def execRstat (a c : BitVec 5) (r : BitVec 4) (s : State) : Host.Outcome State Fault Refusal :=
  other (do
    let w ← rg a
    check (fieldOf w 63 16 ≠ 0) 0x01
    let s ← get
    wg c (match s.bucketOf (dieOf s.cur.core) (s.partOf s.cur.core) r.toNat (fieldOf w 15 0) with
      | some b => b.status
      | none => 0)) s

/-- RSTAT_SUM (R395). -/
def execRstatSum (c : BitVec 5) (s : State) : Host.Outcome State Fault Refusal :=
  other (do wg c (BitVec.ofNat 64 ((← get).dieAt (dieOf s.cur.core)).buckets.length)) s

/-- The value of an element of a chunk in transit (R384). -/
def Chunk.value (c : Chunk) (k : Nat) : Num := (e4m3.decode false (nth c.codes k 0).toNat).scale ((c.scale : Int) - 127)

/-- Does a value divided by 2^(e − 127) round to an E4M3 magnitude of 448 or less (R385)? -/
def fitsE4m3 (t : Num) (e : Nat) : Bool := !(Num.ofInt 464).lt ((t.scale (127 - (e : Int))).abs)

/-- The least rise of the scale with which every value fits, up to 254 − e; none where there is none. -/
def riseOf (t : List Num) (e : Nat) : Nat → Nat → Option Nat
  | 0, _ => none
  | fuel + 1, d =>
    if e + d > 254 then none
    else if t.all fun x => fitsE4m3 x (e + d) then some d
    else riseOf t e fuel (d + 1)

/-- An E4M3 code in transit: a negative zero is absent (R384). -/
def presentCode (t : Num) (e : Nat) : Byte :=
  let c := (e4m3.round 0 false none (t.scale (127 - (e : Int)))).1
  if c = 0x80 then 0 else BitVec.ofNat 8 c

/-- A NaN chunk (R385), with the other flags as they came in. -/
def Chunk.toNan (c : Chunk) : Chunk := { c with codes := List.replicate 32 0x7F, scale := 255, nan := true }

/-- The outgoing chunk of a position (R385), and whether its scale rose here: from the incoming chunk, or at position 0 from the
agreed scale. -/
def reduceChunk (incoming : Option Chunk) (agreed : Nat) (g : List Nat) (bad : Bool) : Chunk × Bool :=
  let base : Chunk := incoming.getD { codes := List.replicate 32 0, scale := agreed }
  let mine := g.map fun x => fp32.decode false x
  let t := match incoming with
    | none => mine
    | some c => (List.range 32).map fun k => ((c.value k).add false (nth mine k (Num.zero false))).1
  if base.scale = 255 || base.nan || t.any fun x => x.isNan || x.isInf then (base.toNan, false)
  else match riseOf t base.scale 256 0 with
    | none => (base.toNan, false)
    | some r =>
      ({ base with
          codes := t.map fun x => presentCode x (base.scale + r)
          scale := base.scale + r, rescaled := base.rescaled || r > 0, poisoned := base.poisoned || bad }, r > 0)

/-- A chunk packet goes to the next position (R383): on this device, or to the egress port of a path to another (R286); while that
device is down it waits (R398). -/
def sendChunk (d : Nat) (p : ChunkPacket) (s : State) : State :=
  let w := s.ringOf d p.part p.ring
  let p := { p with device := ringDevice w, die := ringDie w }
  if ringDevice w = s.device then { s with chunks := s.chunks ++ [p] }
  else if s.deviceDown (ringDevice w) then
    bucketsDown (ringDevice w) d { s with chunksOut := s.chunksOut ++ [{ p with path := 0 }] }
  else routeChunk p s

/-- A final chunk reaches a position (R383): it is kept to be written, and passed on unless the next position is the last. -/
def finalChunk (d : Nat) (p : ChunkPacket) (s : State) : State :=
  let w := s.ringOf d p.part p.ring
  let s := modBucket d p.part p.ring p.bid (fun b => { b with finals := tabPut b.finals p.index p }) s
  if (ringPos w + 1) % ringCount w = ringCount w - 1 then s else sendChunk d { p with final := true } s

/-- One chunk of a bucket whose contribution is taken is computed and sent on (R385). -/
def computeChunk (d : Nat) (b : Bucket) (put : ReducePut) (index : Nat) (incoming : Option ChunkPacket) (s : State) : State :=
  let w := s.ringOf d b.part b.ring
  let inc := incoming.map (·.chunk)
  let (c, rose) := reduceChunk inc (nth put.scales index 0).toNat (nth put.values index []) (put.poison.contains index)
  let wasNan := match inc with | some x => x.nan | none => false
  let s := s.modDie d fun x => { x with
    redstat := (let r := if rose then bumpField x.redstat 15 0 1 else x.redstat
                if c.nan && !wasNan then bumpField r 55 48 1 else r) }
  let s := modBucket d b.part b.ring b.bid
    (fun b => { b with sent := b.sent ++ [index], rescaledHere := b.rescaledHere || rose }) s
  let s := if rose then
      reportIssuer put.core put.tid { code := 0x3D, kind := .r } s
    else s
  let before := match incoming with | some p => p.backups | none => 0
  let low := incoming.bind (·.lowest)
  let p : ChunkPacket := {
    device := s.device, die := d, part := b.part, ring := b.ring, bid := b.bid, index := index, final := false
    backups := before + (if put.backup then 1 else 0)
    lowest := if put.backup then some (low.getD (ringPos w)) else low, chunk := c }
  if ringPos w + 1 = ringCount w then finalChunk d { p with final := true } s else sendChunk d p s

/-- A contribution is taken (R390): what it lets the position send is sent. -/
def takeContribution (d part ring bid : Nat) (put : ReducePut) (s : State) : State :=
  let s := modBucket d part ring bid (fun b => { b with taken := some put }) s
  let s := if put.backup then
      reportIssuer put.core put.tid { code := 0x54, kind := .r, detail := BitVec.ofNat 64 bid }
        (s.modDie d fun x => { x with redstat := bumpField x.redstat 31 16 1 })
    else s
  match s.bucketOf d part ring bid with
  | none => s
  | some b =>
    if ringPos (s.ringOf d part ring) = 0 then
      (List.range b.nch).foldl (fun s i => computeChunk d b put i none s) s
    else
      b.partials.foldl (fun s p => computeChunk d b put p.index (some p) s)
        (modBucket d part ring bid (fun b => { b with partials := [] }) s)

/-- The deadline of a bucket passes with nothing taken (R390): the backup that has arrived is taken, or 0x53 is reported once. -/
def passDeadline (d : Nat) (b : Bucket) (s : State) : State :=
  if b.taken.isSome then s
  else match b.puts.find? fun p => p.arrived && p.backup with
    | some p => takeContribution d b.part b.ring b.bid p s
    | none =>
      if b.deadlineMissed then s
      else
        let s := modBucket d b.part b.ring b.bid (fun b => { b with deadlineMissed := true }) s
        reportIssuer b.core b.tid { code := 0x53, kind := .r, sub := 0x2B, detail := BitVec.ofNat 64 b.bid }
          (setRflt b.core 0x2B b.bid s)

/-- REDUCE_DEADLINE (R390). -/
def execReduceDeadline (die bucket : Nat) (s : State) : Host.Outcome State Fault Refusal :=
  event (do
    let b ← orNo (s.dieAt die).buckets[bucket]?
    enabled (b.deadline ≠ 0 && b.taken.isNone && !b.deadlineMissed)
    enabled (b.deadline < (← readClock))
    modify (passDeadline die b)) s

/-- The core, live or in a frame, that holds the number of an rput whose reads are not done. -/
def State.rputHolder (s : State) (id : Nat) : Option Core :=
  match s.cores.find? fun c => c.2.rputs.contains id with
  | some c => some c.2
  | none => s.blocks.findSome? fun b => b.2.saved.find? fun k => k.rputs.contains id

/-- The reads of an rput are done (R393). -/
def readsDone (id : Nat) (s : State) : State :=
  let f (k : Core) : Core := { k with rputs := k.rputs.filter (· ≠ id) }
  { s with
    cores := s.cores.map fun c => (c.1, f c.2)
    blocks := s.blocks.map fun b => (b.1, { b.2 with saved := b.2.saved.map f }) }

/-- An rput completes (R393) with a status, and its fault if it has one. -/
def endPut (d : Nat) (b : Bucket) (p : ReducePut) (status cause : Nat) (addr : Word) (took : Bool) (s : State) : State :=
  let s := modBucketOf d p.id (fun (b : Bucket) => { b with
    puts := b.puts.filter (fun x => x.id ≠ p.id), roles := b.roles ++ [p.backup] }) (readsDone p.id s)
  let s := if cause = 0 then s
    else raiseAsync p.core p.tid { code := 0x53, kind := .a, addr := addr, sub := cause, detail := BitVec.ofNat 64 b.bid }
      (setRflt ((s.coreOfTask p.tid).getD p.core) cause b.bid s)
  let s := if p.notify then
      complainTask p.tid (completionWords 5 status p.pc (BitVec.ofNat 64 b.bid) (Word.ofBool took)) s
    else s
  freeBuckets d s

/-- Insert an element by thinning rank (R387): greater magnitude first, ties by the lower index. -/
def thinInsert (x : Int × Nat) : List (Int × Nat) → List (Int × Nat)
  | [] => [x]
  | y :: r => if y.1 < x.1 then x :: y :: r else y :: thinInsert x r

/-- The indexes kept of a chunk; where a NaN ranks the spec does not say. -/
def thinKept (tk : Nat) (nanHigh : Bool) (u : List Nat) : List Nat :=
  let key (c : Nat) : Int := if (fp32.decode false c).isNan then (if nanHigh then 2 ^ 32 else -1) else ((c % 2 ^ 31 : Nat) : Int)
  (((u.zip (List.range u.length)).foldl (fun l x => thinInsert (key x.1, x.2) l) []).take tk).map (·.2)

/-- The contribution and the new residual of a chunk (R387); equal operands give equal ones (R183). -/
def thinChunk (tk : Nat) (g res : List Nat) : List Nat × List Nat :=
  let u := (g.zip res).map fun x => rne32 (((fp32.decode false x.1).add false (fp32.decode false x.2)).1)
  let kept := thinKept tk (bitOf (Config.freeFor u tk) 0) u
  ((List.range u.length).map fun k => if kept.contains k then nth u k 0 else 0,
   (List.range u.length).map fun k => if kept.contains k then 0 else nth u k 0)

/-- The FP32 codes of a list of bytes. -/
def codes32 (b : List Byte) : List Nat := (List.range (b.length / 4)).map fun i => natOfBytes ((b.drop (4 * i)).take 4)

/-- Read a range for an rput in its issuer's space. -/
def putRead (d : Nat) (p : ReducePut) (ea : Word) (n : Nat) : M (Except (Nat × Word) (List Byte × Bool)) :=
  withIssuer p.core p.tid fun k => issuerRead (dieTag d 1) k p.asid p.priv (rangePieces ea n)

/-- Read the next chunk of an rput (R393); poisoned agreed scales end it with cause 0x19. -/
def readChunk (d : Nat) (b : Bucket) (p : ReducePut) : M (Except (Nat × Word) ReducePut) := do
  let off := BitVec.ofNat 64 (128 * p.pos)
  match ← putRead d p (p.src + off) 128 with
  | .error e => return .error e
  | .ok (g, bad) =>
    match ← (if b.tk = 0 then return .ok ([], false) else putRead d p (p.res + off) 128) with
    | .error e => return .error e
    | .ok (r, badR) =>
      let scales := p.pos = 0 && ringPos ((← get).ringOf d b.part b.ring) = 0
      match ← (if scales then putRead d p p.scl b.nch else return .ok (p.scales, false)) with
      | .error e => return .error e
      | .ok (_, true) => return .error (0x19, p.scl)
      | .ok (sc, false) =>
        let (v, res) := if b.tk = 0 then (codes32 g, []) else thinChunk b.tk (codes32 g) (codes32 r)
        return .ok { p with
          pos := p.pos + 1, values := p.values ++ [v], residual := p.residual ++ [res], scales := sc
          poison := if bad || badR then p.poison ++ [p.pos] else p.poison }

/-- Has the read of a bucket's primary faulted, so that it cannot arrive? -/
def Bucket.primaryFailed (b : Bucket) : Bool := b.roles.contains false && !b.seen.contains false

/-- May a contribution that arrives be taken: the primary's, one after the deadline, and, where no deadline is set, the backup's once
the read of the primary has faulted (R390, notes/assumptions/71.md)? -/
def Bucket.takes (b : Bucket) (backup past : Bool) : Bool :=
  b.taken.isNone && (!backup || past || (b.deadline == 0 && b.primaryFailed))

/-- A contribution has ended with a fault: the backup that had arrived is taken where it may be (R390). -/
def takeWaiting (d part ring bid : Nat) (s : State) : State :=
  match s.bucketOf d part ring bid with
  | some b => match b.puts.find? (fun p => p.arrived && p.backup) with
    | some p => if b.takes true false then takeContribution d part ring bid p s else s
    | none => s
  | none => s

/-- The read of an rput has ended (R390): late, or it arrives and is perhaps taken; an arrival at the deadline is before it. -/
def arrivePut (d : Nat) (p : ReducePut) (now : Nat) (s : State) : State :=
  match (s.dieAt d).bucketOfPut p.id with
  | none => s
  | some b =>
    let part := b.part
    let ring := b.ring
    let bid := b.bid
    if b.writing.isSome then
      endPut d b p 3 0 0 false (s.modDie d fun x => { x with redstat := bumpField x.redstat 47 32 1 })
    else
      let past := b.deadline ≠ 0 && b.deadline < now
      let s := if past then passDeadline d b s else s
      let p := { p with arrived := true }
      let s := modBucket d part ring bid (fun (b : Bucket) => { b with
        puts := b.puts.map fun (x : ReducePut) => if x.id = p.id then p else x
        seen := b.seen ++ [p.backup], roles := b.roles ++ [p.backup] }) (readsDone p.id s)
      match s.bucketOf d part ring bid with
      | none => s
      | some b => if b.takes p.backup past then takeContribution d part ring bid p s else s

/-- Of two rputs the one accepted first. -/
def firstPut (x : Option (Bucket × ReducePut)) (y : Bucket × ReducePut) : Option (Bucket × ReducePut) :=
  match x with
  | none => some y
  | some z => if y.2.id < z.2.id then some y else some z

/-- RPUT_ARRIVAL (R390): the engine reads the next chunk of the first rput that R188 lets it read; after the last one the
contribution arrives. -/
def execRputArrival (die : Nat) (s : State) : Host.Outcome State Fault Refusal :=
  event (do
    let puts := ((s.dieAt die).buckets ++ (s.dieAt die).strays).flatMap fun b => b.puts.map fun p => (b, p)
    let may (p : ReducePut) : Bool := !p.arrived && (match s.rputHolder p.id with | some k => k.inOrder p.id | none => true)
    let (b, p) ← orNo ((puts.filter fun x => may x.2).foldl firstPut none)
    match ← readChunk die b p with
    | .error (c, ea) => modify fun s => takeWaiting die b.part b.ring b.bid (endPut die b p (copyStatus c) c ea false s)
    | .ok q =>
      if q.pos < b.nch then
        modify (modBucketOf die q.id fun (b : Bucket) => { b with puts := b.puts.map fun (x : ReducePut) => if x.id = q.id then q else x })
      else
        let now ← readClock
        modify (arrivePut die q now)) s

/-- The header of a result (R389). -/
def Bucket.header (b : Bucket) (time : Nat) : List Byte :=
  let cs := b.finals.map fun x => x.2.chunk
  let count (f : Chunk → Bool) : List Byte := bytesOfNat 4 (cs.filter f).length
  let first := b.finals.head?.map (·.2)
  bytesOfNat 2 b.bid ++ bytesOfNat 2 b.nch ++ count (·.rescaled) ++ count (·.nan) ++ count (·.poisoned)
    ++ bytesOfNat 4 (match first with | some p => p.backups | none => 0)
    ++ bytesOfNat 4 (match first.bind (·.lowest) with | some x => x | none => 2 ^ 32 - 1)
    ++ bytesOfNat 8 time ++ List.replicate 32 0

/-- The data of a result (R389). -/
def Bucket.data (b : Bucket) : List Byte :=
  let cs := b.finals.map fun x => x.2.chunk
  if b.fmt = 0 then
    cs.flatMap fun c => (List.range 32).flatMap fun k => bytesOfNat 4 (if c.nan then 0x7FC00000 else rne32 (c.value k))
  else
    let flags (c : Chunk) : Byte :=
      BitVec.ofNat 8 ((if c.rescaled then 1 else 0) + (if c.nan then 2 else 0) + (if c.poisoned then 4 else 0))
    (cs.flatMap fun c => c.codes) ++ cs.map (fun c => BitVec.ofNat 8 c.scale) ++ cs.map flags

/-- The poisoned ranges of a result: the elements of its poisoned chunks. -/
def Bucket.poisonRanges (b : Bucket) (dst : Word) : List (Word × Nat) :=
  let size := if b.fmt = 0 then 128 else 32
  (b.finals.filter fun x => x.2.chunk.poisoned).map fun x => (dst + BitVec.ofNat 64 (64 + size * x.1), size)

/-- Write the result, and the residual, of one rput that had arrived (R389, R390); a fault of a place ends it with nothing
written. The residual of a chunk read from poisoned memory is poisoned. -/
def writePut (d : Nat) (b : Bucket) (p : ReducePut) (time : Nat) : M Unit := do
  let bytes := b.header time ++ b.data
  let resBytes := if b.tk = 0 then [] else p.residual.flatMap fun c => c.flatMap (bytesOfNat 4)
  let resBad := if b.tk = 0 then [] else p.poison.map fun (i : Nat) => (p.res + BitVec.ofNat 64 (128 * i), 128)
  let ps := rangePieces p.dst bytes.length ++ rangePieces p.res resBytes.length
  let bad := (b.poisonRanges p.dst ++ resBad).flatMap fun x => rangePieces x.1 x.2
  let took := match b.taken with | some t => t.id == p.id | none => false
  match ← withIssuer p.core p.tid fun k => issuerPlaces (dieTag d 1) k p.asid p.priv ps with
  | .error (c, ea) => modify (endPut d b p (copyStatus c) c ea took)
  | .ok places =>
    withIssuer p.core p.tid fun k => do
      sortWrite k places (bytes ++ resBytes)
      each (fun (x : (Place × Nat) × (Word × Nat)) =>
        if bad.contains x.2 then modify (poisonPlace k x.1.1 x.2.2) else pure ()) (places.zip ps)
    modify (endPut d b p 0 0 0 took)

/-- Is every final chunk of a bucket here, and its result not written? -/
def Bucket.complete (b : Bucket) : Bool := !b.written && b.finals.length == b.nch

/-- May a chunk packet be received by a bucket (R383)? -/
def Bucket.accepts (b : Bucket) (p : ChunkPacket) : Bool :=
  p.index < b.nch && b.writing.isNone &&
    (if p.final then (tabFind b.finals p.index).isNone
     else !b.sent.contains p.index && !b.partials.any fun q => q.index == p.index)

/-- REDUCE_CHUNK_ARRIVAL (R383, R385, R389): a complete bucket's result is written to its next rput; else one of the chunks that
stand before this die is received, in no given order. -/
def execReduceChunkArrival (die : Nat) (s : State) : Host.Outcome State Fault Refusal :=
  event (do
    match (s.dieAt die).buckets.find? Bucket.complete with
    | some b =>
      let time ← match b.writing with
        | some t => pure t
        | none => readClock
      modify (modBucket die b.part b.ring b.bid fun b => { b with writing := some time })
      match b.puts.find? (·.arrived) with
      | some p => writePut die b p time
      | none =>
        modify (modBucket die b.part b.ring b.bid fun b => { b with written := true })
        modify (freeBuckets die)
    | none =>
      let mine (p : ChunkPacket) : Bool := p.device == s.device && p.die == die &&
        (match s.bucketOf die p.part p.ring p.bid with | some b => b.accepts p | none => false)
      let ready := s.chunks.filter mine
      let i := (← freshWord).toNat % max ready.length 1
      let p ← orNo ready[i]?
      modify fun s => { s with chunks := s.chunks.erase p }
      if p.final then modify (finalChunk die p)
      else
        let b ← orNo (s.bucketOf die p.part p.ring p.bid)
        match b.taken with
        | some t => modify (computeChunk die b t p.index (some p))
        | none => modify (modBucket die p.part p.ring p.bid fun b => { b with partials := b.partials ++ [p] })) s

end Sys2Proof.Machine
end

