-- ==== Sys2Proof/Machine/Sync.lean ====
section
/-! DEFINITION. Groups, waiting and the ordering instructions (spec/15, majors 0x22 and 0x23). One coherent memory, written in the
order of the store buffers, gives what the scopes ask for beyond the draining (notes/assumptions/6.md). -/

namespace Sys2Proof.Machine

/-- A group. -/
def State.groupAt (s : State) (g : Nat) : Group := tabGet s.groups g {}
/-- The state with a group changed. -/
def State.modGroup (s : State) (g : Nat) (f : Group → Group) : State :=
  { s with groups := tabPut s.groups g (f (s.groupAt g)) }

/-- The entry of a resident core in a group. -/
def Group.memberOf (g : Group) (c : Nat) : Option Member := g.members.find? fun m => m.core == c && !m.absent
/-- Arrivals that a member is ahead of the phase: 0, 1 or 2 (R292). -/
def Group.ahead (g : Group) (m : Member) : Nat := (m.count + 2 ^ 32 - g.phase) % 2 ^ 32
/-- Has every member arrived at the current phase (R292)? -/
def Group.full (g : Group) : Bool := !g.members.isEmpty && g.members.all fun m => g.ahead m ≥ 1 && g.ahead m < 2 ^ 31

/-- The wake of a completed phase on a core (R292, R293): doze.g ends, and what parked for 0x4B in gwait clears. -/
def Core.phaseWake (k : Core) (g now : Nat) : Core :=
  let waits (t : Task) : Bool := match t.gwait with | some (_, x, _) => x == g | none => false
  let is4B (w : ParkCause) : Bool := match w.why with | .cause 0x4B _ => true | _ => false
  let calm (t : Task) : Task := { t with
    pending := t.pending.filter fun c => !(c.code == 0x4B && c.detail.toNat == g)
    heldFor := clearWhere now (fun w => is4B w && waits t) t.heldFor
    raising := t.raising.map fun c => if c.code == 0x4B && c.detail.toNat == g then { c with cleared := true } else c }
  let wake (p : Parked) : Parked :=
    let p : Parked := { p with task := calm p.task }
    if waits p.task then p.clear now is4B else p
  let k : Core := { k with b0 := calm k.b0, b1 := calm k.b1, parks := k.parks.map fun x => (x.1, wake x.2) }
  k.endDozes now 2 fun _ z => z.group

/-- Change the core behind a member, where it stands: on the device, in its absent block, or in the image of its gang. -/
def Member.modCore (m : Member) (f : Core → Core) (s : State) : State :=
  if !m.absent then s.modCore m.core f
  else match m.block, m.gang with
    | some (u, r), _ => s.modBlock u fun b => { b with saved := b.saved.set r (f (nth b.saved r {})) }
    | none, some a =>
      match tabFind s.gangs a with
      | some g => { s with gangs := tabPut s.gangs a { g with cores := tabPut g.cores m.core (f (tabGet g.cores m.core {})) } }
      | none => s
    | none, none => s

/-- The completion test (R292): while every member has arrived, the phase completes and the news is broadcast. -/
def testGroup (g : Nat) : Nat → State → State
  | 0, s => s
  | fuel + 1, s =>
    let x := s.groupAt g
    if !x.full then s
    else
      let next := (x.phase + 1) % 2 ^ 32
      let y := { x with phase := next, raised := false, pausedAt := none }
      let y := { y with since := if y.members.any fun m => y.ahead m ≥ 1 then some s.now else none }
      testGroup g fuel (x.members.foldl (fun s m => m.modCore (·.phaseWake g s.turns) s) (s.modGroup g fun _ => y))

/-- A core joins a group in its lowest free slot (R291). -/
def joinGroup (g c : Nat) (s : State) : State :=
  let k := s.coreAt c
  match k.gslots.findIdx? (·.isNone) with
  | none => s
  | some i =>
    let s := s.setCore c { k with gslots := k.gslots.set i (some g) }
    s.modGroup g fun x => { x with members := x.members ++ [{ core := c, count := x.phase }] }

/-- A slot that held a group becomes free. -/
def Core.dropSlot (k : Core) (g : Nat) : Core :=
  { k with gslots := k.gslots.map fun x => if x == some g then none else x }

/-- A member core leaves a group, and the phase is tested again (R291, R292). -/
def leaveGroup (g c : Nat) (s : State) : State :=
  if ((s.groupAt g).memberOf c).isNone then s
  else
    let s := s.modCore c fun k => k.dropSlot g
    testGroup g 3 (s.modGroup g fun x => { x with members := x.members.filter fun m => m.core ≠ c || m.absent })

/-- The partition that owns a group (R290). -/
def State.groupOwner (s : State) (g : Nat) : Option Nat :=
  (List.range 8).find? fun p => bitOf (nth (s.partAt p).gown (g / 64) 0) (g % 64)
/-- Does a partition own a group? -/
def State.ownsGroup (s : State) (p g : Nat) : Bool := bitOf (nth (s.partAt p).gown (g / 64) 0) (g % 64)

/-- A group is reset (R290): its members leave without a cause, its counts become zero. -/
def resetGroup (g : Nat) (s : State) : State :=
  let s := (s.groupAt g).members.foldl (fun s m => m.modCore (·.dropSlot g) s) s
  { s with groups := tabDel s.groups g }

/-- A write of sr.gownn of a partition (R290): each group given or taken is reset. -/
def writeGown (part index : Nat) (value : Word) (s : State) : State :=
  let old := nth (s.partAt part).gown index 0
  let s := s.modPart part fun p => { p with gown := p.gown.set index value }
  ((List.range 64).filter fun i => bitOf old i != bitOf value i).foldl (fun s i => resetGroup (64 * index + i) s) s

/-- GOWN_WRITE (R290). -/
def execGownWrite (part index : Nat) (value : BitVec 64) (s : State) : Host.Outcome State Fault Refusal :=
  event (do
    enabled (part < 8 && index < 4)
    modify (writeGown part index value)) s

/-- What a join or leave of a core by a partition's supervisor raises (R291). -/
def joinCause (part g c : Nat) (leave : Bool) (s : State) : Option Nat :=
  let member := ((s.groupAt g).memberOf c).isSome
  if !isCore c || s.partOf c ≠ part then some 0x29
  else if !s.ownsGroup part g then some 0x4D
  else if leave then (if member then none else some 0x4D)
  else if (s.coreAt c).gslots.all (·.isSome) then some 0x4C
  else if member then some 0x4D
  else none

/-- GJOIN_JOIN (R291). -/
def execGjoinJoin (group core : Nat) (s : State) : Host.Outcome State Fault Refusal :=
  event (do
    enabled (group < 256 && (joinCause (s.partOf core) group core false s).isNone)
    modify (joinGroup group core)) s
/-- GJOIN_LEAVE (R291). -/
def execGjoinLeave (group core : Nat) (s : State) : Host.Outcome State Fault Refusal :=
  event (do
    enabled (group < 256 && (joinCause (s.partOf core) group core true s).isNone)
    modify (leaveGroup group core)) s

/-- The causes that a task in a bank is held for (R84). -/
def Task.holdCauses (t : Task) : List ParkCause := if t.status = .held then t.heldFor else []

/-- Is a task of a core halted for debug, parked or held (R407)? -/
def Core.halted (k : Core) : Bool :=
  (k.parks.any fun p => p.2.debug && !p.2.causes.all (·.cleared)) ||
    (k.b0.holdCauses ++ k.b1.holdCauses).any fun w => w.debugs && !w.cleared
/-- Has a core a task parked or held on 0x50 (R224)? -/
def Core.onFetch (k : Core) : Bool :=
  (k.parks.flatMap (·.2.causes) ++ k.b0.holdCauses ++ k.b1.holdCauses).any fun w =>
    !w.cleared && (match w.why with | .cause 0x50 _ => true | _ => false)

/-- Is the watchdog of a group paused (R293): for an absent, halted or fetching member, one on a fenced die, or a partition that is
switched out? -/
def State.groupPaused (s : State) (g : Nat) : Bool :=
  (s.groupAt g).members.any fun m =>
    m.absent || (s.coreAt m.core).halted || (s.coreAt m.core).onFetch || s.fence.getLsbD (dieOf m.core) || !s.coreGoes m.core

/-- A group as a pause of its watchdog begins or ends: what was paused does not count (R293). -/
def Group.settle (x : Group) (paused : Bool) (now : Nat) : Group :=
  match paused, x.pausedAt with
  | true, none => if x.since.isSome then { x with pausedAt := some now } else x
  | false, some t => { x with pausedAt := none, since := x.since.map (· + (now - t)) }
  | _, _ => x

/-- Every watchdog pauses or resumes (R141, R293). -/
def settleGroups (s : State) : State :=
  { s with groups := s.groups.map fun g => (g.1, g.2.settle (s.groupPaused g.1) s.now) }

/-- The members of a block in its group slot i: their groups and entries. -/
def State.slotMembers (s : State) (u : Nat) (b : Block) (i : Nat) : List (Group × Member) :=
  (s.blockCores b).zipIdx.filterMap fun (x : Core × Nat) => (nth x.1.gslots i none).bind fun g =>
    let y := s.groupAt g
    (y.members.find? fun m => if b.absent then m.block == some (u, x.2) else m.core == nth b.cores x.2 0 && !m.absent).map
      fun m => (y, m)

/-- Does a block's absence hold the barrier of its group slot: a member of it has not arrived where another has (R140)? -/
def State.holdsBarrier (s : State) (u : Nat) (b : Block) (i : Nat) : Bool :=
  (s.slotMembers u b i).any fun x => x.1.ahead x.2 = 0 && x.1.members.any fun m => x.1.ahead m ≥ 1

/-- The field bar of a frame's header (R140). -/
def State.barWord (s : State) (u : Nat) (b : Block) : Word :=
  BitVec.ofNat 64 ((List.range 4).foldl (fun n i => if s.holdsBarrier u b i then n + 2 ^ i else n) 0)

/-- The group that g[a] names, with the issuing core's entry: a core that is no member raises 0x4D (R295). -/
def groupM (a : BitVec 5) : M (Nat × Group × Member) := do
  let g := fieldOf (← rg a) 7 0
  let x := (← get).groupAt g
  match x.memberOf (← curCore) with
  | none => trapP 0x4D
  | some m => return (g, x, m)

/-- Has a core posted stores to dies of this package that no answer has ended, kept for their lateness or not (R254)? -/
def Core.postedHere (k : Core) (device : Nat) : Bool := k.journal.any fun e => !e.2.answered && epDevice e.2.ep == device

/-- GARR (R296): ordered like a send, so the posted stores that the core made to dies of the package are performed before it; like one
it waits while its die is fenced (R282, R294). -/
def execGarr (a c : BitVec 5) (s : State) : Host.Outcome State Fault Refusal :=
  other (do
    let (g, x, m) ← groupM a
    drain
    let core ← curCore
    let s ← get
    if x.ahead m = 2 || (← cc).postedHere s.device || s.fence.getLsbD (dieOf core) then throw .stall
    let now ← readClock
    let up (y : Member) : Member := if y.core = core && !y.absent then { y with count := (y.count + 1) % 2 ^ 32 } else y
    modify fun s => s.modGroup g fun x => { x with
      members := x.members.map up
      since := if x.ahead m = 0 && x.since.isNone then some now else x.since }
    wg c (BitVec.ofNat 64 m.count)
    modify (testGroup g 3)) s

/-- Is phase t of a group not complete (R296)? -/
def Group.incomplete (x : Group) (t : Nat) : Bool := (x.phase + 2 * 2 ^ 32 - t - 1) % 2 ^ 32 ≥ 2 ^ 31

/-- GWAIT (R296): it waits until phase t is complete. -/
def execGwait (a b : BitVec 5) (s : State) : Host.Outcome State Fault Refusal :=
  other (do
    let (g, x, _) ← groupM a
    let t := fieldOf (← rg b) 31 0
    if x.incomplete t then
      let p ← pcM
      modTaskM fun y => { y with gwait := some (p, g, t) }
      throw .stall
    modTaskM fun t => { t with gwait := none }) s

/-- The snapshot of gquery (R296). -/
def groupSnapshot (g : Nat) (m : Member) (s : State) : Word :=
  let x := s.groupAt g
  BitVec.ofNat 64 (x.phase + (x.members.filter fun y => x.ahead y ≥ 1).length % 2048 * 2 ^ 32 + x.members.length % 2048 * 2 ^ 43
    + (if x.ahead m ≥ 1 then 2 ^ 54 else 0) + (if s.groupPaused g then 2 ^ 55 else 0) + (if x.raised then 2 ^ 56 else 0)
    + min (x.members.filter (·.absent)).length 127 * 2 ^ 57)

/-- GQUERY (R296). -/
def execGquery (a c : BitVec 5) (s : State) : Host.Outcome State Fault Refusal :=
  plain (do
    let (g, _, m) ← groupM a
    wg c (groupSnapshot g m (← get))) s

/-- GWDOG (R296): the limit, and the measurement of the current phase restarted. -/
def execGwdog (a b : BitVec 5) (s : State) : Host.Outcome State Fault Refusal :=
  other (do
    let (g, x, _) ← groupM a
    let l := fieldOf (← rg b) 31 0
    let now ← readClock
    modify fun s => s.modGroup g fun y => { y with
      limit := l, since := if x.members.any fun m => x.ahead m ≥ 1 then some now else none, pausedAt := none }) s

/-- GROUP_WATCHDOG_EXPIRY (R293): a phase incomplete beyond the limit raises 0x4B against the tasks that wait in gwait for a phase that is
not complete, or reports it; once a phase. -/
def execGroupWatchdogExpiry (group : Nat) (s : State) : Host.Outcome State Fault Refusal :=
  event (do
    let x := s.groupAt group
    let since ← orNo x.since
    enabled (x.limit ≠ 0 && !x.raised && !s.groupPaused group)
    let now ← readClock
    enabled (since + x.limit * 1000 < now)
    modify fun s => s.modGroup group fun x => { x with raised := true }
    let here (t : Task) : Bool := match t.gwait with
      | some (p, g, n) => g == group && p == t.pc && t.status ≠ .empty && x.incomplete n
      | none => false
    let cores := x.members.map (·.core)
    let c : Cause := { code := 0x4B, kind := .a, detail := BitVec.ofNat 64 group }
    let waiting := cores.any fun m => here (s.coreAt m).b0 || here (s.coreAt m).b1
    if waiting then
      let hit (t : Task) : Task := if here t then t.addPending c else t
      modify fun s => cores.foldl (fun s m => s.modCore m fun k => { k with b0 := hit k.b0, b1 := hit k.b1 }) s
    else
      let owner ← orNo (s.groupOwner group)
      modify (report owner (group % 4) 0 { c with kind := .r, addr := BitVec.ofNat 64 group } 0 0)) s

/-- FENCE (R303, R304): the store buffer drains; every earlier access of the task is then performed at every scope. -/
def execFence (_ : BitVec 3) (s : State) : Host.Outcome State Fault Refusal :=
  other drain s

/-- Has a core a message, posted store or nibble store on its way in the package (R305)? -/
def State.inTransit (s : State) (c : Nat) : Bool :=
  let mine (p : Packet) : Bool := p.core == c && p.tid ≠ 0 && (match p.kind with
    | .message _ _ _ credit => credit
    | .pst .. => true
    | .pst4 .. => true
    | _ => false)
  (s.dies.any fun d => d.2.ring.any (fun f => mine f.packet) || d.2.pool.any (fun e => mine e.2) || d.2.quiet.any mine ||
    d.2.spill.any (fun q => q.2.any fun f => mine f.packet) || d.2.flags.any mine) ||
  (s.ports.any fun q => q.2.any mine) || (s.links.any fun q => q.2.any mine)

/-- FENCE_ACKS (R305): every packet that the core injected is acknowledged, its journal is empty; then fence.sys. -/
def execFenceAcks (s : State) : Host.Outcome State Fault Refusal :=
  other (do
    drain
    let k ← cc
    let s ← get
    if !(k.journal.isEmpty && k.outTide = 0 && !s.inTransit s.cur.core) then throw .stall) s

/-- LDA (R304): a load; an earlier stl of the task is performed before it. -/
def execLda (a c : BitVec 5) (_ z : BitVec 3) (s : State) : Host.Outcome State Fault Refusal :=
  issue .load 4 (do
    if (← cc).sb.any (·.release) then drain
    loadTo c z.toNat (← rg a)
    return .seq) s

/-- STL (R304): a store, ordered after every earlier access of its task by the store buffer. -/
def execStl (a b : BitVec 5) (_ z : BitVec 3) (s : State) : Host.Outcome State Fault Refusal :=
  other (do storeFrom z.toNat (← rg a) (← rg b) true) s

/-- WATCH (R297). -/
def execWatch (a : BitVec 5) (s : State) : Host.Outcome State Fault Refusal :=
  other (do
    let w : Watch := match ← placeOf (← rg a) 1 false with
      | .spm off => { isLocal := true, line := off / 128 }
      | .phys pa nc _ => { isLocal := false, line := pa / 128, nc := nc }
    modTaskM fun t => { t with watch := some w }) s

/-- WATCH_OFF (R299). -/
def execWatchOff (s : State) : Host.Outcome State Fault Refusal := other (modTaskM fun t => { t with watch := none }) s

/-- DOZE (R298): it ends at once where its condition holds, else the task parks, or is held until a slot is free and the vector engine has
completed its commands (R84, R190). -/
def execDoze (a c : BitVec 5) (m g t : BitVec 1) (s : State) : Host.Outcome State Fault Refusal :=
  issue .other 4 (do
    let task ← taskM
    let k ← cc
    let limit ← rg a
    let written := match task.watch with | some w => w.written | none => false
    let now (r : Word) : M Ctl := do
      modTaskM fun t => { t with watch := none }
      wg c r
      return .seq
    if written then now 1
    else if m = 1 && (k.selected task true 0).isSome then now 3
    else if task.watch.isNone && g = 0 && m = 0 && limit = 0 then now 0
    else
      let since := (← get).now
      modTaskM fun y => { y with
        spin := y.spin.note .other
        doze := some { group := g = 1, message := m = 1, trap := t = 1, dest := c.toNat, limit := limit, since := since } }
      parkNow { why := .doze }
      return .gone) s

/-- When the count of a doze expires, in cycles of 0.5 ns (R298). -/
def Task.dozeEnd (t : Task) : Nat := match t.doze with | some z => 2 * z.since + z.limit.toNat | none => 0

/-- The dozing task of a core whose count expires first. -/
def Core.firstDoze (k : Core) : Option Task :=
  (k.tasks.filter fun t => t.dozesFor fun z => decide (z.limit ≠ 0)).foldl (fun best t => match best with
    | none => some t
    | some b => if t.dozeEnd < b.dozeEnd then some t else some b) none

/-- DOZE_TIMEOUT (R298): the count of the dozing task that is due first expires. -/
def execDozeTimeout (core : Nat) (s : State) : Host.Outcome State Fault Refusal :=
  event (do
    let t ← orNo (s.coreAt core).firstDoze
    let now ← readClock
    enabled (s.coreGoes core && t.dozeEnd ≤ 2 * now)
    modify fun s => s.modCore core fun k => k.endDozes s.turns 4 fun x _ => x.tid == t.tid) s

end Sys2Proof.Machine
end

