-- ==== Sys2Proof/Machine/Launch.lean ====
section
/-! DEFINITION. Launches and blocks (spec/05, spec/07): entering a launch record, placing blocks, their end, ebb and flood. The
scheduler's own accesses translate in the first cove of the partition (notes/assumptions/28.md). -/

namespace Sys2Proof.Machine

/-- The fields of a launch record (R76). -/
structure LaunchFields where
  entry : Word
  nblk : Nat
  ncore : Nat
  carve : Nat
  slice : Nat
  dies : Nat
  imglen : Nat
  groups : List (Option Nat)
  depaddr : Word
  depval : Nat
  status : Word
  image : Word
  arg : Word
  deriving DecidableEq, Repr

/-- Read them; counts are without the minus one. -/
def launchFields (w : List Word) : LaunchFields :=
  let a := nth w 1 0
  let b := nth w 2 0
  { entry := nth w 0 0, nblk := fieldOf a 15 0 + 1, ncore := fieldOf a 18 16 + 1, carve := fieldOf a 22 19
    slice := fieldOf a 27 23, dies := fieldOf a 31 28, imglen := fieldOf a 47 32
    groups := (List.range 4).map fun k => if bitOf b (32 + k) then some (fieldOf b (8 * k + 7) (8 * k)) else none
    depaddr := nth w 3 0, depval := (nth w 4 0).toNat, status := nth w 5 0, image := nth w 6 0, arg := nth w 7 0 }

/-- Does a die mask let a die take blocks (R76)? -/
def dieAllowed (mask d : Nat) : Bool := mask = 0 || mask / 2 ^ d % 2 = 1

/-- The coves of a partition, in (die, cove) order. -/
def State.covesOf (s : State) (part : Nat) : List Nat :=
  (List.range 128).filter fun v => bitOf (nth (s.partAt part).pmap (v / 32) 0) (v % 32)

/-- The first failing check of reasons 1 to 5 (R77). -/
def launchReason (s : State) (part : Nat) (w : List Word) : Option Nat :=
  let f := launchFields w
  let gs := f.groups.filterMap id
  if f.carve = 0 || f.carve > 8 || f.slice = 0 || f.slice > 25 || 10 * f.slice * 1024 + 64 * f.imglen > f.carve * 32768 then some 1
  else if (gs.any fun g => !s.ownsGroup part g) || gs.any (fun g => (gs.filter (· = g)).length > 1) then some 2
  else if !(s.covesOf part).any fun v => dieAllowed f.dies (v / 32) then some 3
  else if f.entry.toNat ≥ 2 ^ 56 || f.entry.toNat % 4 ≠ 0 then some 4
  else if fieldOf (nth w 1 0) 63 48 ≠ 0 || fieldOf (nth w 2 0) 63 36 ≠ 0 then some 5
  else none

/-- The agent of a launch queue: the first cove of its partition, the queue's address space and view (R77). -/
def State.launchAgent (s : State) (part queue : Nat) : Option UnitAgent :=
  (s.firstCove part).map fun v =>
    let c := (s.queueAt part queue).cfg
    { die := v / 32, tag := launchTag part queue, core := 16 * v, asid := fieldOf c 14 3, priv := bitOf c 15 }

/-- Write a launch's status word (R77), where it has one; a fault leaves it unwritten. -/
def writeStatus (part queue : Nat) (addr value : Word) : M Unit := do
  if addr ≠ 0 then
    match (← get).launchAgent part queue with
    | some u => let _ ← u.write addr (clean (bytesOf value))
    | none => pure ()

/-- Does an address of a launch fail its alignment, translation or permission (R77)? -/
def launchAddressBad (part queue : Nat) (addr : Word) (write : Bool) : M Bool := do
  match (← get).launchAgent part queue with
  | none => return true
  | some u =>
    match ← u.place addr write with
    | .error _ => return true
    | .ok _ => return false

/-- Does any of a list of addresses fail? -/
def launchAnyBad (part queue : Nat) : List Word → M Bool
  | [] => return false
  | a :: r => do if (← launchAddressBad part queue a false) then return true else launchAnyBad part queue r

/-- A launch record enters a queue and is checked (R77): refused with its reason, or queued with status 1. -/
def enterLaunch (part queue : Nat) (w : List Word) : M Unit := do
  let f := launchFields w
  let noStatus ← (if f.status = 0 then return false
    else if f.status.toNat % 8 ≠ 0 then return true
    else launchAddressBad part queue f.status true)
  if !noStatus then
    match launchReason (← get) part w with
    | some r => writeStatus part queue f.status (BitVec.ofNat 64 (0x100 + r))
    | none =>
      let pages := (List.range ((f.imglen * 64 - 1) / 65536 + 1)).map fun k => f.image + BitVec.ofNat 64 (65536 * k)
      let ends := if f.imglen = 0 then [] else pages ++ [f.image + BitVec.ofNat 64 (64 * f.imglen - 1)]
      let deps := if f.depaddr = 0 then [] else [f.depaddr]
      let bad ← (if f.depaddr.toNat % 8 ≠ 0 then return true else launchAnyBad part queue (deps ++ ends))
      if bad then writeStatus part queue f.status 0x106
      else
        writeStatus part queue f.status 1
        modify fun s => s.modQueue part queue fun q => { q with held := q.held ++ [{ words := w }] }

/-- LNCH (R100). -/
def execLnch (a : BitVec 5) (k : BitVec 4) (q : BitVec 6) (s : State) : Host.Outcome State Fault Refusal :=
  other (do
    supervisor
    drain
    let ea ← rg a
    check (ea.toNat % 64 ≠ 0) 0x10 ea
    let w ← loadWords ea 8
    let e ← capM k.toNat
    check (capKind e ≠ 3 || !bitOf e 11) 0x2E
    let part := fieldOf ((← get).cap1 (← curCore) k.toNat) 2 0
    waitUntil (((← get).queueAt part q.toNat).held.length < 16)
    enterLaunch part q.toNat w) s

/-- What a host read of a slot of the launch windows returns (R428). -/
def State.launchSlot (s : State) (part queue : Nat) : Word :=
  let q := s.queueAt part queue
  BitVec.ofNat 64 (q.held.length + q.refused % 256 * 256)

/-- LAUNCH_WINDOW_WRITE (R428): a write of some size at an offset of the launch windows; page p serves partition p, 64 bytes a queue. -/
def execLaunchWindowWrite (offset size : Nat) (record : BitVec 512) (s : State) : Host.Outcome State Fault Refusal :=
  event (do
    let part := offset / 4096
    let queue := offset % 4096 / 64
    enabled (part < 8)
    let s ← get
    if size ≠ 64 || offset % 64 ≠ 0 || s.host.boot ≠ 4 || (s.covesOf part).isEmpty || (s.queueAt part queue).held.length ≥ 16 then
      modify fun s => s.modQueue part queue fun q => { q with refused := (q.refused + 1) % 256 }
    else enterLaunch part queue (wordsOfBytes (bytesOfNat 64 record.toNat) 8)) s

/-- The free work cores of a cove. -/
def State.freeCores (s : State) (v : Nat) : List Nat :=
  ((List.range 8).map fun i => 16 * v + i).filter fun c => (s.coreAt c).block.isNone

/-- The lowest crew id that no block of the die shows or reserves, if there is one (R79, R239). -/
def State.freeCrew (s : State) (d : Nat) : Option Nat :=
  let used (i : Nat) : Bool := s.blocks.any fun b =>
    (b.2.die == d && b.2.crew == i && (!b.2.absent || b.2.gang.isSome)) || (b.2.originDie == d && b.2.originCrew == i)
  (List.range 4096).find? fun i => !used i

/-- The cove where a block of n cores is placed (R78): one with the cores, on a die that has a crew id. -/
def State.coveFor (s : State) (part mask n : Nat) : Option Nat :=
  (s.covesOf part).find? fun v => dieAllowed mask (v / 32) && (s.freeCores v).length ≥ n && (s.freeCrew (v / 32)).isSome

/-- Is a cause of a memory park, not cleared, at least as old as a number of cycles of 0.5 ns (R138)? -/
def ParkCause.aged (w : ParkCause) (cycles now : Nat) : Bool := w.memory && !w.cleared && 2 * w.since + cycles ≤ 2 * now

/-- Does the age trigger hold for a block (R138)? -/
def State.ageTrigger (s : State) (b : Block) : Bool :=
  let n := fieldOf (s.partAt b.part).ebbAge 31 0
  n ≠ 0 && (s.blockCores b).any fun k =>
    (k.parks.flatMap (·.2.causes) ++ k.b0.holdCauses ++ k.b1.holdCauses).any fun w => w.aged n s.now

/-- What a scheduler may place next: a flood, or a new block of a queue's launch (R78). -/
inductive Placement where
  | flood (block cove : Nat)
  | new (queue : Nat) (words : List Word) (started : Option Nat) (cove : Nat)
  deriving DecidableEq, Repr

/-- The priority of a queue. -/
def State.prioOf (s : State) (part queue : Nat) : Nat := fieldOf (s.queueAt part queue).cfg 2 0

/-- The ebbed blocks that may flood at a priority, in the order of R78. -/
def State.floods (s : State) (part prio : Nat) : List (Nat × Block) :=
  let l := s.blocks.filter fun b => b.2.part == part && b.2.absent && b.2.gang.isNone && s.prioOf part b.2.queue == prio
    && !s.countTrigger b.2 && !s.ageTrigger b.2
  let holds (b : Nat × Block) : Bool := (List.range 4).any fun i => s.holdsBarrier b.1 b.2 i
  let insert (x : Nat × Block) : List (Nat × Block) → List (Nat × Block) := fun l =>
    (l.takeWhile fun y => y.2.ebbOrder < x.2.ebbOrder) ++ x :: l.dropWhile fun y => y.2.ebbOrder < x.2.ebbOrder
  let sorted := l.foldl (fun t x => insert x t) []
  sorted.filter holds ++ sorted.filter fun b => !holds b

/-- The queues of a priority that may place, round-robin from the one after the last served (R78). -/
def State.queuesAt (s : State) (d part prio : Nat) : List Nat :=
  let last := tabGet (s.dieAt d).lastServed (8 * part + prio) 63
  ((List.range 64).map fun i => (last + 1 + i) % 64).filter fun q =>
    s.prioOf part q == prio && bitOf (s.queueAt part q).cfg 16 && !(s.queueAt part q).held.isEmpty

/-- Has the launch at the head of a queue its dependence met (R77)? An access that cannot be made leaves it waiting. -/
def depMet (part queue : Nat) (f : LaunchFields) : M Bool := do
  if f.depaddr = 0 then return true
  match (← get).launchAgent part queue with
  | none => return false
  | some u =>
    let r ← tryCatch (u.read f.depaddr 8) fun e => match e with
      | .no | .stall => return .error (0, 0)
      | e => throw e
    match r with
    | .error _ => return false
    | .ok b => return !b.any (·.2) && natOfBytes (b.map (·.1)) ≥ f.depval

/-- The first queue of a list with a block that may be placed and whose cove is on a die. -/
def firstNew (d part : Nat) : List Nat → M (Option Placement)
  | [] => return none
  | q :: r => do
    let s ← get
    match (s.queueAt part q).held with
    | [] => firstNew d part r
    | l :: _ =>
      let f := launchFields l.words
      match s.coveFor part f.dies f.ncore with
      | none => firstNew d part r
      | some v =>
        if v / 32 = d && (l.started.isSome || (← depMet part q f)) then return some (.new q l.words l.started v)
        else firstNew d part r

/-- What a partition places next on a die, from a priority down: at each, ebbed blocks first; what fits nowhere waits, and what stands
after it may be placed (R78). What goes to another die is for that die's scheduler. -/
def nextPlacement (d part : Nat) : Nat → M (Option Placement)
  | 0 => return none
  | p + 1 => do
    let s ← get
    let fits (b : Nat × Block) : Option Placement := 
      ((s.coveFor part b.2.dies b.2.cores.length).filter fun v => v / 32 == d).map fun v => .flood b.1 v
    match (s.floods part p).findSome? fits with
    | some x => return some x
    | none =>
      match ← firstNew d part (s.queuesAt d part p) with
      | some x => return some x
      | none => nextPlacement d part p

/-- A word of a capability entry with kind 1 or 2, its rights and endpoint (R237). -/
def capEntry (kind rights allow : Nat) (ep : BitVec 29) : Word :=
  BitVec.ofNat 64 (kind + rights + allow * 2 ^ 12 + ep.toNat * 2 ^ 32)

/-- The 256 bytes of a placed core's capability table (R240). -/
def placedTable (s : State) (part queue carve : Nat) (ep : BitVec 29) : List Byte :=
  let c0 := capEntry 1 (2 ^ 4 + 2 ^ 5 + 2 ^ 6 + 2 ^ 10) 8 ep
  let c1 := capEntry 2 (2 ^ 7 + 2 ^ 8 + 2 ^ 9 + 2 ^ 10) 0 ep
  let rest := (List.range 14).flatMap fun k =>
    let e := s.templateEntry part queue (k + 2)
    bytesOf e.1 ++ bytesOf e.2
  bytesOf c0 ++ bytesOf 0 ++ bytesOf c1 ++ bytesOf (BitVec.ofNat 64 ((carve * 512 - 1) * 4096)) ++ rest

/-- What a core keeps when a block is placed on it: its slack-water count and switch, its carve limit, its last fetch and copy
faults; everything else of a core is at its placement value (R79, R104, R185, R208, R216, R244). -/
def Core.fresh (k : Core) : Core :=
  { slackCount := k.slackCount, slackOn := k.slackOn, carveLimit := k.carveLimit, mflt := k.mflt, cflt := k.cflt }

/-- A core joins the used group of a launch's slot i (R79); one that it has joined before keeps its arrivals. -/
def joinSlot (c i : Nat) (g : Option Nat) (s : State) : State :=
  match g with
  | none => s
  | some g =>
    let s := s.modCore c fun k => { k with gslots := k.gslots.set i (some g) }
    if ((s.groupAt g).memberOf c).isSome then s
    else s.modGroup g fun x => { x with members := x.members ++ [{ core := c, count := x.phase }] }

/-- A group that a core had joined before its placement keeps a slot where one is free; with none free the core leaves it
(R291; notes/assumptions/68.md). -/
def keepGroup (c : Nat) (s : State) (g : Nat) : State :=
  let k := s.coreAt c
  if k.gslots.contains (some g) then s
  else match k.gslots.findIdx? (·.isNone) with
    | some i => s.setCore c { k with gslots := k.gslots.set i (some g) }
    | none => leaveGroup g c s

/-- One core of a placed block (R79): its memory, its table, its groups, its root record. -/
def placeCore (u : Nat) (b : Block) (f : LaunchFields) (image : List (Byte × Bool)) (rank : Nat) (s : State) : State :=
  let c := nth b.cores rank 0
  let bytes := image.map (·.1)
  let bad := (List.range (image.length / 8)).filter fun i => ((image.drop (8 * i)).take 8).any (·.2)
  let table := placedTable s b.part b.queue b.carve (endpoint rank b.originCrew b.originDie s.device)
  let job : Job := { record := {
    entry := f.entry, src := 0, jhome := slotOf c, crew := b.crew, argc := 4, ctab := BitVec.ofNat 10 (b.table / 256)
    args := [f.arg, BitVec.ofNat 64 b.index, BitVec.ofNat 64 rank, BitVec.ofNat 64 f.nblk] } }
  let joined := (s.coreAt c).gslots.filterMap id
  let s := s.modCore c fun k => { k.fresh with
    carveSize := b.carve, carveBase := b.carve, block := some (u, rank), runN := [job], icacheFrom := s.stores
    spm := cellsSet (cellsSet [] 0 bytes) b.table table
    spmPoison := bad.filter fun i => 8 * i + 8 ≤ b.table }
  joined.foldl (keepGroup c) ((List.range 4).foldl (fun s i => joinSlot c i (nth f.groups i none) s) s)

/-- The image of a launch as it is copied (R79). A fault now leaves the block waiting. -/
def readImage (part queue : Nat) (f : LaunchFields) : M (List (Byte × Bool)) := do
  if f.imglen = 0 then return []
  match (← get).launchAgent part queue with
  | none => throw .no
  | some u =>
    match ← u.read f.image (64 * f.imglen) with
    | .error _ => throw .stall
    | .ok b => return b

/-- Place a new block (R77, R79). -/
def placeNew (d part queue : Nat) (w : List Word) (started : Option Nat) (cove : Nat) : M Unit := do
  let f := launchFields w
  let image ← readImage part queue f
  let launch ← (match started with
    | some l => pure l
    | none => do
      writeStatus part queue f.status 2
      let l ← nextCommand
      modify fun s => { s with services := tabPut s.services l { part := part, queue := queue, words := w } }
      return l)
  let u ← nextCommand
  let s ← get
  let index := (tabGet s.services launch { part := part, queue := queue, words := w }).next
  let crew ← orNo (s.freeCrew (cove / 32))
  let cores := (s.freeCores cove).take f.ncore
  let cfg := (s.queueAt part queue).cfg
  let b : Block := {
    launch := launch, index := index, part := part, queue := queue, asid := fieldOf cfg 14 3, priv := bitOf cfg 15
    carve := f.carve, slice := f.slice, dies := f.dies, originDie := cove / 32, originCrew := crew, originCores := cores
    die := cove / 32, crew := crew, cores := cores }
  let s := { s with
    blocks := tabPut s.blocks u b
    services := tabPut s.services launch { part := part, queue := queue, words := w, next := index + 1
                                           ended := (tabGet s.services launch { part := part, queue := queue, words := w }).ended } }
  let s := (List.range cores.length).foldl (fun s r => placeCore u b f image r s) s
  let s := s.modQueue part queue fun q => { q with held := match q.held with
    | l :: r => if index + 1 = f.nblk then r else { l with started := some launch } :: r
    | [] => [] }
  set (s.modDie d fun x => { x with lastServed := tabPut x.lastServed (8 * part + s.prioOf part queue) queue })

/-- The first partition whose next block is placed on a die: the scheduler serves the partitions in the order of their numbers
(notes/assumptions/67.md). -/
def placeFirst (d : Nat) : List Nat → M Unit
  | [] => throw .stall
  | p :: r => do
    let s ← get
    let next ← (if (s.partAt p).swState ≠ 0 then return none else nextPlacement d p 8)
    match next with
    | some (.new q w started v) => placeNew d p q w started v
    | _ => placeFirst d r

/-- BLOCK_PLACEMENT (R78, R79): the die's scheduler places the next new block that goes to its die. -/
def execBlockPlacement (die : Nat) (s : State) : Host.Outcome State Fault Refusal :=
  event (do
    enabled (die < 4)
    placeFirst die (List.range 8)) s

/-- Does a core hold no work (R80)? -/
def Core.idle (k : Core) : Bool :=
  k.tasks.isEmpty && k.runN.isEmpty && k.runU.isEmpty && k.deque.isEmpty && k.actors.isEmpty && k.aregNext.isEmpty &&
  (k.inbox.all fun (e : InboxEntry) => !e.claimed && e.forActor.isNone) && k.sb.isEmpty && k.vq.isEmpty && k.cq.isEmpty &&
  k.mq.isEmpty && k.mret.isEmpty && k.completions.isEmpty

/-- BLOCK_END (R80): its cores leave every group of which they are members, their operand slots become empty (R219, R291), and they
become free; the last block's end completes the launch (R77). -/
def execBlockEnd (block : Nat) (s : State) : Host.Outcome State Fault Refusal :=
  event (do
    let b ← orNo (tabFind s.blocks block)
    enabled (!b.absent && (b.cores.all fun c => (s.coreAt c).idle) && !s.ships.any fun x => b.cores.contains x.1)
    match tabFind s.services b.launch with
    | none => pure ()
    | some l =>
      let f := launchFields l.words
      if l.ended + 1 = f.nblk then
        writeStatus b.part b.queue f.status 3
        modify fun s => { s with services := tabDel s.services b.launch }
      else modify fun s => { s with services := tabPut s.services b.launch { l with ended := l.ended + 1 } }
    modify fun s => b.cores.foldl (fun s c =>
      let s := (s.groups.map (·.1)).foldl (fun s g => leaveGroup g c s) s
      s.modCore c fun k => { k with block := none, slots := [] }) s
    modify fun s => { s with blocks := tabDel s.blocks block }) s

/-- Engine accesses under way, of the coves that are named, stand under other tags from now on: their walks and tickets run on
(R139). -/
def moveTags (here : Nat → Bool) (f : Nat → Nat) (s : State) : State :=
  let move (w : Walk) : Walk := { w with waiters := w.waiters.map fun r => match r with
    | .engine t => .engine (f t)
    | r => r }
  { s with
    answers := s.answers.foldl (fun a x => tabPut a (f x.1) x.2) []
    heldTags := s.heldTags.map f
    coves := s.coves.map fun v => if !here v.1 then v else (v.1, { v.2 with
      walks := v.2.walks.map fun w => (w.1, move w.2)
      tickets := v.2.tickets.map fun t => (t.1, { t.2 with engines := t.2.engines.map f }) }) }

/-- The tag of an engine of a block's core once the block is absent; other tags stay. -/
def tagAway (u : Nat) (cores : List Nat) (t : Nat) : Nat :=
  match (if t < coreTag 2048 0 then cores.findIdx? (· == t / 16) else none) with
  | some r => savedTag u r (t % 16)
  | none => t

/-- The tag of an engine of an absent block once the block is back on cores. -/
def tagBack (u : Nat) (cores : List Nat) (t : Nat) : Nat :=
  match (List.range 8).find? fun r => savedTag u r (t % 16) == t with
  | some r => coreTag (nth cores r 0) (t % 16)
  | none => t

/-- Has a core stopped for an ebb or a switch: granted matrix commands retired and accepted vector commands done, no mfetch at the head
of its queue that may be granted (R139, R229, R416)? -/
def State.coreStopped (s : State) (c : Nat) : Bool :=
  (s.coreAt c).vq.isEmpty && (s.coreAt c).mret.isEmpty && (!(s.coreAt c).mq.any fun (m : MatCommand) => m.granted) && !s.fetchReady c

/-- Has a task of a core an instruction issued that waits and completes first (R121, R165, R169)? -/
def Core.begun (k : Core) : Bool := k.b0.begins || k.b1.begins

/-- What an absent core keeps (R139, R229): it holds no cached lines, no translations and no pins. -/
def Core.asSaved (k : Core) : Core :=
  { k with l1 := [], utlb := [], icache := [], icacheBad := [], slots := k.slots.map fun o => (o.1, { o.2 with pins := [] }) }

/-- Every member of every group changed. -/
def mapMembers (f : Member → Member) (s : State) : State :=
  { s with groups := s.groups.map fun g => (g.1, { g.2 with members := g.2.members.map f }) }

/-- The memberships of a block become absent; the watchdogs of their groups pause (R139, R141). -/
def membersAway (u : Nat) (b : Block) (s : State) : State :=
  let away (m : Member) : Member :=
    match b.cores.findIdx? fun c => c == m.core with
    | some r => if m.absent then m else { m with block := some (u, r), absent := true }
    | none => m
  mapMembers away s

/-- The memberships of a block are present again on its cores (R142). -/
def membersBack (u : Nat) (cores : List Nat) (s : State) : State :=
  let back (m : Member) : Member :=
    match m.block with
    | some (v, r) => if v = u then { core := nth cores r 0, count := m.count } else m
    | none => m
  mapMembers back s

/-- Save a block's cores and free them (R139), with the shipped contexts on their way to it (R149). -/
def saveBlock (u : Nat) (b : Block) (s : State) : State :=
  let saved := b.cores.map fun c => (s.coreAt c).asSaved
  let ships := s.ships.filterMap fun x => (b.cores.findIdx? (· == x.1)).map fun r => (r, x.2)
  let s := membersAway u b s
  let s := b.cores.foldl (fun s c => s.setCore c (s.coreAt c).fresh) s
  let s := moveTags (fun _ => true) (tagAway u b.cores) s
  { s with
    ships := s.ships.filter fun x => !b.cores.contains x.1
    blocks := tabPut s.blocks u { b with
      absent := true, ebbNoted := false, saved := saved, ships := ships, ebbOrder := s.nextUid }
    nextUid := s.nextUid + 1 }

/-- A record after its block has moved: its crew, and the slot of its join counters' rank (R142). -/
def Block.moveJob (b : Block) (crew : Nat) (cores : List Nat) (j : Job) : Job :=
  let rank := (b.cores.findIdx? fun c => slotOf c == j.record.jhome).getD 0
  { j with record := { j.record with crew := crew, jhome := slotOf (nth cores rank 0) } }

/-- A task after its block has moved: a frame is checked again (R72). -/
def Task.restored (t : Task) (f : Job → Job) : Task :=
  { t with job := f t.job, frame := { t.frame with recheck := t.frame.act } }

/-- A core restored from its saved state (R105, R142): `k` is what the core was, and `stores` the count at which its instruction cache
is empty (R30). -/
def restoreCore (saved k : Core) (stores : Nat) (f : Job → Job) : Core :=
  { saved with
    slackCount := k.slackCount, slackOn := k.slackOn, icacheFrom := stores
    b0 := saved.b0.restored f, b1 := saved.b1.restored f
    runN := saved.runN.map f, runU := saved.runU.map f, deque := saved.deque.map f
    parks := saved.parks.map fun p => (p.1, { p.2 with task := p.2.task.restored f }) }

/-- The counters that a flood zeroes (R120, R148, R230, R396). -/
def Core.flooded (k : Core) : Core := { k with lstat := 0, pgstat := 0, mxstat := 0, rflt := 0 }

/-- Restore an absent block onto cores (R142, R416): its engines' accesses go on, the contexts shipped to it are on their way, and its
inboxes' messages enter the queues as they may (R88). A group that a core had joined while it was free keeps it as at a placement; where
the restored core is itself a member, the free core's membership ends (R291; notes/assumptions/68.md). -/
def restoreBlock (u : Nat) (b : Block) (crew : Nat) (cores : List Nat) (s : State) : State :=
  let f := b.moveJob crew cores
  let joined := (List.range cores.length).flatMap fun r =>
    let c := nth cores r 0
    (((s.coreAt c).gslots.filterMap id).map fun g => (c, g, (nth b.saved r {}).gslots.contains (some g)))
  let s := joined.foldl (fun s x => if x.2.2 then leaveGroup x.2.1 x.1 s else s) s
  let s := (List.range cores.length).foldl (fun s r =>
    let c := nth cores r 0
    s.setCore c (restoreCore (nth b.saved r {}) (s.coreAt c) s.stores f)) s
  let s := moveTags (fun _ => true) (tagBack u cores) { s with ships := s.ships ++ b.ships.map fun x => (nth cores x.1 0, x.2) }
  let s := membersBack u cores { s with blocks := tabPut s.blocks u { b with
    absent := false, saved := [], ships := [], frame := none, gang := none, crew := crew, cores := cores
    die := dieOf (nth cores 0 0) } }
  let s := joined.foldl (fun s x => if x.2.2 then s else keepGroup x.1 s x.2.1) s
  cores.foldl (fun s c => pumpInbox c s) s

/-- The physical address of an ebb frame (R138). -/
def Part.frameAt (p : Part) (i : Nat) : Nat := fieldOf p.ebbarea 51 22 * 2 ^ 22 + 2 ^ 22 * i

/-- Write a header at a physical address as the scheduler of a die does. -/
def writeHeader (cove pa : Nat) : List (Nat × Word) → M Unit
  | [] => pure ()
  | (i, w) :: r => do
    acquireOnce (cove / 32) cove (16 * cove) (pa + 8 * i) false false true
    modify (physPut (cove / 32) none (pa + 8 * i) false (bytesOf w))
    writeHeader cove pa r

/-- A word of an occupied frame's header as the device keeps it up (R140): it is written where its line stands, if it changes. -/
def postWord (pa : Nat) (w : Word) (s : State) : State :=
  if wordOfList (cellsGet s.mem pa 8) = w then s
  else
    let s := (List.range 4).foldl (fun s d => dropL1 d (pa / 128) false none s) s
    noteWrite (pa / 128) none { s with mem := cellsSet s.mem pa (bytesOf w) }

/-- The parks and bar fields of every occupied frame follow its block (R140). -/
def settleFrames (s : State) : State :=
  s.blocks.foldl (fun s b => match (if b.2.absent && b.2.gang.isNone then b.2.frame else none) with
    | some i =>
      let pa := (s.partAt b.2.part).frameAt i
      postWord (pa + 32) (s.barWord b.1 b.2) (postWord (pa + 24) (BitVec.ofNat 64 (s.blockParks b.2)) s)
    | none => s) s

/-- A block that has met a trigger with no frame free may meet one anew once none holds (R138). -/
def settleTriggers (s : State) : State :=
  { s with blocks := s.blocks.map fun b =>
      if b.2.ebbNoted && !s.countTrigger b.2 && !s.ageTrigger b.2 then (b.1, { b.2 with ebbNoted := false }) else b }

/-- What HBM held uncorrectable is met by the access that brings it, in its step (R433), or by the one that a line was granted for. -/
def settleMet (s : State) : State :=
  let owed (d u : Nat) : Bool := match s.l2Line d u with | some l => l.owed.isSome | none => false
  { s with hbmMet := s.hbmMet.filter fun k => (List.range 4).any fun d => owed d (k / 4) || owed d (k / 32 * 8) }

/-- What stands in step with the state after every step: the count of steps, what HBM held uncorrectable, the watchdogs' pauses, the triggers met, and the headers of
occupied frames. -/
def State.settle (s : State) : State := settleFrames (settleTriggers (settleGroups (settleMet { s with turns := s.turns + 1 })))

/-- Drain the store buffers of cores. -/
def drainCores : List Nat → M Unit := each fun c => drainN c 16

/-- EBB (R138, R139, R140). -/
def execEbb (block : Nat) (s : State) : Host.Outcome State Fault Refusal :=
  event (do
    let b ← orNo (tabFind s.blocks block)
    let now ← readClock
    let s ← get
    let w := (s.partAt b.part).switchAt
    enabled (!b.absent && (s.partAt b.part).swState = 0 && (w = 0 || now < w.toNat) && (s.countTrigger b || s.ageTrigger b))
    let p := s.partAt b.part
    let first := nth b.cores 0 0
    match (List.range (fieldOf p.ebbarea 15 0)).find? fun i => !s.frames.contains (b.part, i) with
    | none =>
      enabled !b.ebbNoted
      modify fun s => { s with blocks := tabPut s.blocks block { b with ebbNoted := true } }
      modify fun s => s.modCore first fun k => { k with pgstat := bumpField k.pgstat 59 52 1 }
    | some i =>
      enabled (b.cores.all fun c => s.coreStopped c && !(s.coreAt c).begun)
      drainCores b.cores
      let s ← get
      let who := b.crew + b.part * 2 ^ 12 + b.queue * 2 ^ 15 + (b.cores.length - 1) * 2 ^ 21
      writeHeader (coveOf first) (p.frameAt i) [(0, 1), (1, BitVec.ofNat 64 who), (2, BitVec.ofNat 64 now),
        (3, BitVec.ofNat 64 (s.blockParks b)), (4, s.barWord block b), (5, 0), (6, 0), (7, 0)]
      modify (saveBlock block { b with frame := some i })
      modify fun s => { s with frames := s.frames ++ [(b.part, i)] }
      modify (report b.part b.die 0 { code := 0x5C, kind := .r, detail := BitVec.ofNat 64 b.crew } b.crew 0)) s

/-- FLOOD (R142): the block is what its partition places next; its frame becomes free. -/
def execFlood (block : Nat) (s : State) : Host.Outcome State Fault Refusal :=
  event (do
    let b ← orNo (tabFind s.blocks block)
    discard readClock
    enabled (b.absent && b.gang.isNone && (s.partAt b.part).swState = 0)
    let at_ ← orNo ((← get).coveFor b.part b.dies b.cores.length)
    match ← nextPlacement (at_ / 32) b.part 8 with
    | some (.flood u v) =>
      if u ≠ block then throw .stall
      match b.frame with
      | some i =>
        writeHeader v ((s.partAt b.part).frameAt i) [(0, 0)]
        modify fun s => { s with frames := s.frames.erase (b.part, i) }
      | none => pure ()
      let s ← get
      let crew ← orNo (s.freeCrew (v / 32))
      let cores := (s.freeCores v).take b.cores.length
      modify fun s => cores.foldl (fun s c => s.modCore c Core.flooded) (restoreBlock block b crew cores s)
    | _ => throw .stall) s

/-- SLACK_WATER_PARK (R73): the task whose spin count has reached 64 parks on a watch of the line of its last load; 0x4F is
raised, after the branch, with its count cleared. The watched line stands in the cause of the park (R74). -/
def slackPark (core : Nat) (urg : Bool) (s : State) : State :=
  let t := (s.coreAt core).bank urg
  takeTrap core urg { code := 0x4F, kind := .n, line := t.spin.line }
    (s.modCore core fun k => { (k.setBank urg { t with spin := {} }) with slackCount := k.slackCount + 1 })

/-- Has a running task met slack water (R73)? -/
def Core.slackDue (k : Core) (urg : Bool) : Bool :=
  k.slackOn && (k.bank urg).status == .running && (k.bank urg).spin.count ≥ 64

/-- SLACK_WATER_PARK (R73). -/
def execSlackWaterPark (core : Nat) (s : State) : Host.Outcome State Fault Refusal :=
  event (do
    let k := s.coreAt core
    enabled (s.coreGoes core && (k.slackDue true || k.slackDue false))
    modify (slackPark core (k.slackDue true))) s

end Sys2Proof.Machine
end

