-- ==== Sys2Proof/Machine/System.lean ====
section
/-! DEFINITION. The SYS instructions (major 0x00) and the system registers (R4, R410 to R416): the value each register shows, what a
write does to each, and the supervisor's reach into a task (R406). -/

namespace Sys2Proof.Machine

/-- How the fields of a register behave (R4): is every field S; the S fields of a register with U fields; the RW fields; the W1C
fields. Every other bit is RO, WO or reserved. -/
structure RegMap where
  allS : Bool
  sup : List (Nat × Nat) := []
  rw : List (Nat × Nat) := []
  w1c : List (Nat × Nat) := []
  deriving DecidableEq, Repr

/-- A register of the U view. -/
def regU (rw : List (Nat × Nat) := []) (w1c : List (Nat × Nat) := []) (sup : List (Nat × Nat) := []) : RegMap :=
  { allS := false, sup := sup, rw := rw, w1c := w1c }
/-- A register of the S view. -/
def regS (rw : List (Nat × Nat) := []) (w1c : List (Nat × Nat) := []) : RegMap := { allS := true, rw := rw, w1c := w1c }

/-- The field maps of the registers of R412, by number; none for a number that names no register. -/
def regMap (n : Nat) : Option RegMap :=
  if n < 0x24 then
    some (match n with
      | 0x00 => regU [(63, 0)]
      | 0x01 | 0x02 => regU [(63, 2)]
      | 0x05 => regU [(32, 32)] [] [(32, 32)]
      | 0x07 => regU [(11, 8)] [] [(11, 8)]
      | 0x09 => regU [(23, 0), (43, 24), (59, 44)]
      | 0x0A => regU [(2, 0), (3, 3), (5, 5), (6, 6), (7, 7), (12, 8)] [(20, 16), (21, 21)]
      | 0x0B => regU [(31, 0)]
      | 0x0C => regU [(15, 8)] [(16, 16)]
      | 0x11 => regU [(15, 0), (31, 16), (47, 32)]
      | 0x13 | 0x14 | 0x15 | 0x16 | 0x17 | 0x18 | 0x19 => regU [(55, 2)]
      | 0x1B => regU [] [(21, 21), (22, 22)]
      | 0x1C => regU [] [(63, 32)]
      | 0x20 => regU [(15, 0), (31, 16), (43, 32), (51, 44), (59, 52)] [] [(51, 44), (59, 52)]
      | _ => regU)
  else if n < 0x100 then none
  else if n < 0x128 then
    some (match n - 0x100 with
      | 0x0C => regS [(28, 0), (31, 29), (39, 32), (40, 40)]
      | 0x0D => regS [(31, 16)] [(39, 39)]
      | 0x0E => regS [(55, 2)]
      | 0x0F => regS ((List.range 4).flatMap fun i => [(16 * i + 10, 16 * i), (16 * i + 15, 16 * i + 15)])
      | 0x10 => regS [(3, 0)]
      | 0x11 | 0x13 | 0x15 | 0x1E => regS [(31, 0)]
      | 0x12 => regS [(15, 0), (51, 22)]
      | 0x14 => regS ((List.range 8).map fun i => (8 * i + 4, 8 * i))
      | 0x16 => regS [(15, 0), (31, 16), (39, 32), (51, 40), (59, 52)] [(60, 60), (61, 61)]
      | 0x17 => regS [(10, 0), (14, 11)]
      | 0x18 | 0x1F | 0x25 => regS
      | 0x19 => regS [(9, 0)]
      | 0x1A => regS [(63, 0)]
      | 0x1B | 0x27 => regS [(5, 0)]
      | 0x1C => regS [(2, 0), (14, 3), (15, 15), (16, 16)]
      | 0x1D => regS [(0, 0), (51, 8)]
      | 0x20 => regS [(12, 0), (55, 16)]
      | 0x21 => regU [(19, 0)]
      | 0x22 => regS [(0, 0), (55, 2), (63, 56)]
      | 0x23 => regS [(15, 0), (31, 16), (39, 32), (47, 40)]
      | 0x24 => regS [(15, 0), (31, 16), (47, 32), (55, 48)]
      | 0x26 => regS [(15, 0), (31, 16), (39, 32), (47, 40), (55, 48), (63, 56)]
      | _ => regS ((List.range 8).flatMap fun j => [(8 * j + 1, 8 * j), (8 * j + 2, 8 * j + 2), (8 * j + 7, 8 * j + 4)]))
  else if n < 0x200 then none
  else if n < 0x217 then
    some (match n - 0x200 with
      | 0x00 => regS [(2, 0)]
      | 0x01 | 0x02 | 0x03 | 0x04 | 0x16 => regS [(31, 0)]
      | 0x05 | 0x0A => regS [(11, 0), (24, 12)]
      | 0x06 | 0x07 | 0x08 | 0x09 | 0x14 => regS [(63, 0)]
      | 0x0B => regS [(3, 0), (4, 4), (10, 8)]
      | 0x0C => regS [] [(14, 14)]
      | 0x0D => regS [(11, 0), (27, 12)]
      | 0x0E => regS [(51, 17)]
      | 0x0F => regS [(11, 0)]
      | 0x12 | 0x13 => regS [(0, 0), (51, 12)]
      | 0x15 => regS [] [(2, 2), (3, 3)]
      | _ => regS)
  else none

/-- A word with the bits of a field alone. -/
def maskOf (hi lo : Nat) : Word := BitVec.ofNat 64 ((2 ^ (hi + 1 - lo) - 1) * 2 ^ lo)
/-- The bits of a list of fields. -/
def masks (l : List (Nat × Nat)) : Word := l.foldl (fun m f => m ||| maskOf f.1 f.2) 0

/-- What a view reads of a register's value (R4). -/
def RegMap.readable (r : RegMap) (priv : Bool) (v : Word) : Word := if priv then v else v &&& ~~~masks r.sup

/-- The value of a register after a write from a view (R4): RW fields are set, W1C bits cleared, the rest keep. -/
def RegMap.merge (r : RegMap) (priv : Bool) (old new : Word) : Word :=
  let hidden := if priv then 0 else masks r.sup
  let rw := masks r.rw &&& ~~~hidden
  let w1c := masks r.w1c &&& ~~~hidden
  (old &&& ~~~(rw ||| (w1c &&& new))) ||| (new &&& rw)

/-- Who reaches a register: a core, the bank of its task, the view. -/
structure Reach where
  core : Nat
  urg : Bool
  priv : Bool
  deriving DecidableEq, Repr

/-- The partition whose per-partition device-wide registers a core reaches (R411). -/
def State.reachPart (s : State) (core : Nat) : Nat :=
  let p := s.partOf core
  if p = 0 then fieldOf s.psel 2 0 else p

/-- The state field of sr.tctl for the task at a place (R406). -/
def Core.taskState (k : Core) (place : Nat) : Nat :=
  if place < 8 then
    match tabFind k.parks place with
    | none => 0
    | some p => if p.causes.all (·.cleared) then 4 else if p.debug then 5 else 3
  else match (k.taskAt place).status with
    | .empty => 0
    | .running => 1
    | .waitsRecord => 1
    | .preempted => 2
    | .held => 6

/-- The core and place that a partition's sr.tsel selects. -/
def Part.selected (p : Part) : Nat × Nat := (fieldOf p.tsel 10 0, fieldOf p.tsel 14 11)

/-- The pending cause that sr.tctl shows (R406); a park that raised no cause has none to show, and the value is free. -/
def pendingCode (p : Parked) (free : Word) : Nat :=
  match p.causes.find? (!·.cleared) with
  | some { why := .cause c _, .. } => c
  | some { why := .halt, .. } => 0xFF
  | _ => fieldOf free 7 0

/-- sr.tctl as a partition reads it. -/
def State.tctl (s : State) (part : Nat) (free : Word) : Word :=
  let (c, place) := (s.partAt part).selected
  let k := s.coreAt c
  let st := k.taskState place
  let cause := if st = 3 || st = 5 then (match tabFind k.parks place with | some p => pendingCode p free | none => 0) else 0
  BitVec.ofNat 64 (st * 8 + cause * 128 + (if st ≠ 0 && (k.taskAt place).a.active then 2 ^ 15 else 0))

/-- The value that sr.tidx names of a parked task (R406). -/
def Parked.value (p : Parked) (i : Nat) : Word :=
  let t := p.task
  if i = 0 then 0
  else if h : i < 32 then t.g.get ⟨i, h⟩
  else if i = 32 then t.pc
  else if i = 33 then t.a.pc
  else if i = 34 then t.lc
  else if i = 35 then t.ls
  else if i = 36 then t.le
  else if h : 256 ≤ i ∧ i < 512 then (p.v[(i - 256) / 8]'(by omega)).extractLsb' (64 * ((i - 256) % 8)) 64
  else 0

/-- A parked task with that value written (R406); a PC loses bits 1 and 0. -/
def Parked.setValue (p : Parked) (i : Nat) (w : Word) : Parked :=
  let t := p.task
  let clear : Word := w &&& ~~~(3#64)
  if i < 32 then { p with task := t.putG i w }
  else if i = 32 then { p with task := { t with pc := clear } }
  else if i = 33 then { p with task := { t with a := { t.a with pc := clear } } }
  else if i = 34 then { p with task := { t with lc := w } }
  else if i = 35 then { p with task := { t with ls := clear } }
  else if i = 36 then { p with task := { t with le := clear } }
  else if h : 256 ≤ i ∧ i < 512 then
    let v := p.v[(i - 256) / 8]'(by omega)
    let sh := 64 * ((i - 256) % 8)
    let ones : BitVec 512 := BitVec.ofNat 512 ((2 ^ 64 - 1) * 2 ^ sh)
    { p with v := p.v.set ((i - 256) / 8) ((v &&& ~~~ones) ||| (w.setWidth 512 <<< sh)) (by omega) }
  else p

/-- Bits of a list of flags. -/
def bitsOf (l : List Bool) : Nat := l.zipIdx.foldl (fun n (x : Bool × Nat) => if x.1 then n + 2 ^ x.2 else n) 0

/-- The registers of a task and its core (0x000 to 0x022). -/
def State.coreReg (s : State) (r : Reach) (n : Nat) : Word :=
  let k := s.coreAt r.core
  let t := k.bank r.urg
  let w (x : Nat) : Word := BitVec.ofNat 64 x
  match n with
  | 0x00 => t.lc
  | 0x01 => t.ls
  | 0x02 => t.le
  | 0x03 =>
    let f := t.frame
    if f.act then w (1 + f.idx * 2 + f.len * 2 ^ 6 + f.stg * 2 ^ 11 + f.rot * 2 ^ 15 + f.k % 32 * 2 ^ 20) else 0
  | 0x04 => if t.frame.act then t.frame.left else 0
  | 0x05 => w (k.slackCount.toNat + (if k.slackOn then 2 ^ 32 else 0))
  | 0x06 => w (k.runN.length + k.runU.length * 2 ^ 5 + k.deque.length * 2 ^ 9 + k.parks.length * 2 ^ 14 + k.streak * 2 ^ 18
      + k.b0.lee * 2 ^ 24 + (if k.b1.status = .running then 2 ^ 30 else 0))
  | 0x07 => w (k.carveSize + k.carveBase * 16 + k.carveLimit * 256)
  | 0x08 => w (k.poolMask.toNat + k.poolPart.toNat * 256)
  | 0x09 => k.lstat
  | 0x0A => k.fpmode
  | 0x0B => k.seed
  | 0x0C => w (min k.vq.length 3) ||| (k.vstat &&& ~~~(3#64))
  | 0x0D => k.vflt
  | 0x0E => w (fieldOf k.mctx0 19 0 + (if k.mctxVal then 2 ^ 20 else 0) + (if k.mctxVal && ctxFloat k.mctx0 then 2 ^ 21 else 0))
  | 0x0F => k.mctx1
  | 0x10 => k.mflt
  | 0x11 => k.mxstat
  | 0x12 => w ((s.endpointOf r.core).toNat + s.tableAt r.core / 256 % 1024 * 2 ^ 29)
  | 0x1A => t.mhead
  | 0x1B => w (k.inbox.length + (k.inbox.filter fun e => e.cls ≠ 7 && k.mask.getLsbD e.cls).length * 2 ^ 7
      + k.mask.toNat * 2 ^ 14 + (if k.hovf then 2 ^ 21 else 0) + (if k.iovf then 2 ^ 22 else 0))
  | 0x1C => w (k.journal.foldl (fun n x => n + 2 ^ x.1 + (if x.2.kept then 2 ^ (32 + x.1) else 0)) 0)
  | 0x1D => k.cflt
  | 0x1E => w (k.gslots.zipIdx.foldl (fun n (x : Option Nat × Nat) => match x.1 with
      | some g => n + g * 2 ^ (8 * x.2) + 2 ^ (32 + x.2)
      | none => n) 0)
  | 0x1F => w (s.asidOf r.core)
  | 0x20 => withField k.pgstat 51 44 (s.coveAt (coveOf r.core)).late.toNat
  | 0x21 => k.rflt
  | 0x22 => Word.ofBool r.priv
  | n => if 0x13 ≤ n ∧ n < 0x1A then k.hand.toList.getD (n - 0x13) 0 else 0

/-- The registers of a partition, and of a die (0x100 to 0x127); `free` is a value that the spec leaves open. -/
def State.partReg (s : State) (r : Reach) (free : Word) (n : Nat) : Word :=
  let part := s.partOf r.core
  let p := s.partAt part
  let d := s.dieAt (dieOf r.core)
  let q := s.queueAt part (fieldOf p.lqsel 5 0)
  match n - 0x100 with
  | 0x0C => p.supep
  | 0x0D => BitVec.ofNat 64 (p.made + p.lost * 2 ^ 16 + d.recordsOf part * 2 ^ 32 + (if p.terr then 2 ^ 39 else 0))
  | 0x0E => p.walkent
  | 0x0F => p.land
  | 0x10 => p.ebbCount
  | 0x11 => p.ebbAge
  | 0x12 => p.ebbarea
  | 0x13 => p.acktmo
  | 0x14 => p.loopmap
  | 0x15 => p.tpage
  | 0x16 => d.l2stat
  | 0x17 => p.tsel
  | 0x18 => s.tctl part free
  | 0x19 => p.tidx
  | 0x1A =>
    let (c, place) := p.selected
    (match tabFind (s.coreAt c).parks place with
     | some x => x.value (fieldOf p.tidx 9 0)
     | none => 0)
  | 0x1B => p.lqsel
  | 0x1C => q.cfg
  | 0x1D => q.tmpl
  | 0x1E => p.cwdog
  | 0x20 => d.rbuf
  | 0x21 => d.rstep
  | 0x22 => withField d.rcore 0 0 (if (s.coreAt (routingCore (dieOf r.core))).hasTask then 1 else 0)
  | 0x23 => d.xstat
  | 0x24 => d.redstat
  | 0x25 =>
    let src := (List.range 4).filter (· ≠ dieOf r.core)
    BitVec.ofNat 64 ((List.range 3).foldl (fun n i => n + (d.pool.filter fun e => e.1 == nth src i 0).length % 1024 * 2 ^ (10 * i)) 0)
  | 0x26 => d.lnkcnt
  | 0x27 => d.rcq
  | i => nth p.act i 0

/-- The device-wide registers (0x200 to 0x216). -/
def State.deviceReg (s : State) (r : Reach) (n : Nat) : Word :=
  let p := s.partAt (s.reachPart r.core)
  let w (x : Nat) : Word := BitVec.ofNat 64 x
  let b (f : Bool) (i : Nat) : Nat := if f then 2 ^ i else 0
  match n - 0x200 with
  | 0x00 => s.psel
  | 0x05 => p.pasid
  | 0x0A => p.xrange
  | 0x0B => w (s.fence.toNat + b (s.partAt s.lnkSel).quiesce 4 + s.lnkSel * 256)
  | 0x0C => w ((s.causalAt (dieOf r.core) s.lnkSel).epoch + s.fence.toNat * 16
      + b ((s.partAt s.lnkSel).quiesce && s.linksEmpty s.lnkSel) 8 + b (s.drained s.lnkSel) 9 + s.tsl.toNat * 2 ^ 10 + b s.lnkErr 14)
  | 0x0D => s.tidecfg
  | 0x0E => s.rtbase
  | 0x0F => w (s.peerSel + b (!s.deviceDown s.peerSel) 12 + bitsOf ((List.range 4).map (s.pathUp s.peerSel)) * 2 ^ 13
      + bitsOf ((List.range 4).map (s.pathValid s.peerSel)) * 2 ^ 17)
  | 0x10 => w ((List.range 4).foldl (fun n k => n + nth (s.peerAt s.peerSel).sent k 0 * 2 ^ (16 * k)) 0)
  | 0x11 => w ((List.range 4).foldl (fun n k => n + nth (s.peerAt s.peerSel).got k 0 * 2 ^ (16 * k)) 0)
  | 0x12 => p.swout
  | 0x13 => p.swin
  | 0x14 => p.switchAt
  | 0x15 => w (p.swState + b p.swDone 2 + b p.swOver 3)
  | 0x16 => p.swlim
  | i => if i < 5 then nth p.pmap (i - 1) 0 else nth p.gown (i - 6) 0

/-- Register n as a core reaches it, with every field. -/
def regValue (r : Reach) (n : Nat) : M Word := do
  if n = 0x23 then return BitVec.ofNat 64 (← readClock)
  if n = 0x118 then
    let free ← freshWord
    return (← get).partReg r free n
  let s ← get
  return if n < 0x100 then s.coreReg r n else if n < 0x200 then s.partReg r 0 n else s.deviceReg r n

/-- What a read or write of a register waits for (R187, R216). -/
def regWait (r : Reach) (n : Nat) : M Unit := do
  let k ← coreM r.core
  if n = 0x0A || n = 0x0B then waitUntil (k.vq.isEmpty && k.mq.isEmpty && k.mret.isEmpty)
  if n = 0x0E || n = 0x0F then
    waitUntil (!k.mq.any fun (m : MatCommand) => match m.instr with | .mctx .. => true | _ => false)

/-- The effective causes of a parked task are cleared, and it resumes (R406); `step` runs one instruction. -/
def resumeTask (core place : Nat) (step : Bool) (s : State) : State :=
  s.modCore core fun k => match tabFind k.parks place with
    | some p =>
      let q := p.clear s.turns fun _ => true
      { k with parks := tabPut k.parks place { q with task := { q.task with stepping := step } } }
    | none => k

/-- The saved PC of the sequencer that raised the cause moves past the instruction it names (R406): 8 for FRAME, 4 for any other;
inside a frame it moves on through the passes. Where no entry maps the page any more, what stood there as the task parked
decides. -/
def skipTask (core place : Nat) (s : State) : State :=
  let k := s.coreAt core
  match tabFind k.parks place with
  | none => s
  | some p =>
    let aSeq := match p.causes.find? (!·.cleared) with | some w => w.aSeq | none => false
    let t := p.task
    let len : Word := if (s.frameAt core (t.pcOf aSeq)).getD t.wide then 8 else 4
    let t := if aSeq then { t with a := { t.a with pc := t.a.pc + 4 } }
      else if t.frame.act then t.advance 4
      else { t with pc := t.pc + len }
    s.setCore core { k with parks := tabPut k.parks place { p with task := t } }

/-- The effect of an operation of sr.tctl where its state allows it (R406). -/
def tctlEffect (op core place : Nat) (s : State) : Option State :=
  let st := (s.coreAt core).taskState place
  match op with
  | 1 => if st = 3 || st = 5 then some (resumeTask core place false s) else none
  | 2 => if st = 3 || st = 5 then some (resumeTask core place false (skipTask core place s)) else none
  | 3 => if 2 ≤ st then some (killAt core place s) else none
  | 4 =>
    if st = 1 && ((s.coreAt core).taskAt place).begins then
      some (s.modCore core fun k => k.modTaskAt place fun t => { t with halting := true })
    else if st = 1 || st = 2 then some (s.parkTask core (place == 9) { why := .halt })
    else none
  | 5 => if 3 ≤ st && st ≤ 5 then some (resumeTask core place true s) else none
  | 6 => some (s.modCore core fun k => { k with icache := [], icacheBad := [], icacheFrom := s.stores })
  | _ => some s

/-- A write of sr.tctl by a partition (R406): an operation that its state does not allow sets terr. -/
def tctlOp (part op : Nat) (s : State) : State :=
  let (core, place) := (s.partAt part).selected
  match tctlEffect op core place s with
  | some t => t
  | none => s.modPart part fun p => { p with terr := true }

/-- A write of sr.tsel (R406): 0x29 where it names no core of the partition. -/
def writeTsel (part : Nat) (v : Word) : M Unit := do
  let s ← get
  let c := fieldOf v 10 0
  check (!isCore c || s.partOf c ≠ part) 0x29
  if fieldOf v 14 11 < 10 then modify fun s => s.modPart part fun p => { p with tsel := v }

/-- Start the routing core's root task (R358): its table is filled from the template of its launch queue. -/
def startRouting (d : Nat) (s : State) : State :=
  let c := routingCore d
  let r := (s.dieAt d).rcore
  let part := s.partOf c
  let q := fieldOf (s.dieAt d).rcq 5 0
  let s := (List.range 16).foldl (fun s k =>
    let e := s.templateEntry part q k
    s.setCap c k (withField e.1 30 30 0) e.2) s
  startJob c false { record := { entry := r &&& 0x00FFFFFFFFFFFFFC#64, argc := 1, args := [BitVec.ofNat 64 (fieldOf r 63 56)] } } s

/-- May the root task of a routing core start: no task of it exists (R358)? -/
def State.routingIdle (s : State) (d : Nat) : Bool := !(s.coreAt (routingCore d)).hasTask

/-- A cove that changes partition: its translations go, and the region entries that name its slice are released (R413). -/
def clearCove (v : Nat) (s : State) : State :=
  let s := s.modCove v fun x => { x with tlb := [] }
  let empty (c : Nat × Core) : Nat × Core := if coveOf c.1 = v then (c.1, { c.2 with utlb := [] }) else c
  let s := { s with cores := s.cores.map empty }
  let d := v / 32
  let regions := ((s.dieAt d).region.filter fun (e : Nat × Nat) => e.2 == nearSlice v).map fun (e : Nat × Nat) => e.1
  regions.foldl (fun s r => releaseRegion d r s) s

/-- May a cove leave its partition (R413): it holds no resident block, active walk slot or ticket, and, for cove 0, no task of the
routing core? -/
def State.coveFree (s : State) (v : Nat) : Bool :=
  (!s.blocks.any fun b => !b.2.absent && b.2.cores.any fun c => coveOf c == v) && (s.coveAt v).walks.isEmpty &&
    (s.coveAt v).tickets.isEmpty && (v % 32 ≠ 0 || s.routingIdle (v / 32))

/-- A write of sr.pmapd of a partition (R413): a cove that another holds is not taken, a busy one not given up. -/
def writePmap (part d : Nat) (value : Word) (s : State) : State :=
  let old := nth (s.partAt part).pmap d 0
  let added := (List.range 32).filter fun k => bitOf value k && !bitOf old k
  let gone := (List.range 32).filter fun k => bitOf old k && !bitOf value k
  let held (k : Nat) : Bool := (List.range 8).any fun p => p ≠ part && bitOf (nth (s.partAt p).pmap d 0) k
  if added.any held || gone.any fun k => !s.coveFree (32 * d + k) then s
  else
    let s := s.modPart part fun p => { p with pmap := p.pmap.set d (value &&& 0xFFFFFFFF#64) }
    (added ++ gone).foldl (fun s k => clearCove (32 * d + k) s) s

/-- A write of sr.pasid of a partition (R413): a set beyond 4,095, or one that overlaps another, changes nothing. -/
def writePasid (part : Nat) (value : Word) (s : State) : State :=
  let lo (w : Word) : Nat := fieldOf w 11 0
  let hi (w : Word) : Nat := lo w + fieldOf w 24 12
  let meets (p : Nat) : Bool := p ≠ part && max (lo value) (lo (s.partAt p).pasid) < min (hi value) (hi (s.partAt p).pasid)
  if hi value > 4096 || (List.range 8).any meets then s else s.modPart part fun p => { p with pasid := value }

/-- A write of sr.lnkctl (R282, R283): sel first, then the fences under the quiesce that stood, quiesce, and steps 2 to 4. -/
def writeLnkctl (v : Word) (s : State) : State :=
  let sel := fieldOf v 10 8
  let quiet := (s.partAt sel).quiesce
  let s := { s with lnkSel := sel }
  let s := setFence (BitVec.ofNat 4 (fieldOf v 3 0)) quiet s
  let s := setQuiesce sel (bitOf v 4) s
  let s := if bitOf v 5 then drainPartition sel s else s
  let s := if bitOf v 6 then clearCausal sel s else s
  if bitOf v 7 then advanceEpoch sel s else s

/-- Write a register of a task and its core: `v` is the merged value, `raw` the word written. -/
def setCoreReg (r : Reach) (n : Nat) (v raw : Word) : M Unit := do
  let k ← coreM r.core
  let t := k.bank r.urg
  let task (f : Task → Task) : M Unit := modify fun s => s.modCore r.core fun k => k.setBank r.urg (f (k.bank r.urg))
  let core (f : Core → Core) : M Unit := modify fun s => s.modCore r.core f
  match n with
  | 0x00 => task fun t => if t.lc ≠ 0 then { t with lcNext := some v } else { t with lc := v, lcNext := none }
  | 0x01 => check (t.lc ≠ 0) 0x09; task fun t => { t with ls := v }
  | 0x02 => check (t.lc ≠ 0) 0x09; task fun t => { t with le := v }
  | 0x05 => core fun k => { k with slackOn := bitOf v 32 }
  | 0x07 => if k.carveSize ≤ fieldOf v 11 8 && fieldOf v 11 8 ≤ 8 then core fun k => { k with carveLimit := fieldOf v 11 8 }
  | 0x09 => core fun k => { k with lstat := v }
  | 0x0A => core fun k => { k with fpmode := if fieldOf v 2 0 > 4 then withField v 2 0 (fieldOf k.fpmode 2 0) else v }
  | 0x0B => core fun k => { k with seed := if fieldOf v 31 0 = 0 then 1 else v }
  | 0x0C => core fun k => { k with vstat := v &&& ~~~(3#64) }
  | 0x11 => core fun k => { k with mxstat := v }
  | 0x1B =>
    core fun k => { k with hovf := bitOf v 21, iovf := bitOf v 22 }
    modify (heldOverflow r.core)
  | 0x1C => core fun k => { k with journal := k.journal.filter fun x => !(x.2.kept && bitOf raw (32 + x.1)) }
  | 0x20 =>
    core fun k => { k with pgstat := withField v 51 44 0 }
    modify fun s => s.modCove (coveOf r.core) fun x => { x with late := BitVec.ofNat 8 (fieldOf v 51 44) }
  | n => if h : 0x13 ≤ n ∧ n < 0x1A then core fun k => { k with hand := k.hand.set (n - 0x13) v (by omega) } else pure ()

/-- Write a register of a partition or a die. -/
def setPartReg (r : Reach) (n : Nat) (v raw : Word) : M Unit := do
  let s ← get
  let part := s.partOf r.core
  let d := dieOf r.core
  let p (f : Part → Part) : M Unit := modify fun s => s.modPart part f
  let die (f : Die → Die) : M Unit := modify fun s => s.modDie d f
  let queue (f : LaunchQueue → LaunchQueue) : M Unit := modify fun s => s.modQueue part (fieldOf (s.partAt part).lqsel 5 0) f
  match n - 0x100 with
  | 0x0C => p fun x => { x with supep := v }
  | 0x0D => p fun x => { x with lost := fieldOf v 31 16, terr := bitOf v 39 }
  | 0x0E => p fun x => { x with walkent := v }
  | 0x0F => p fun x => { x with land := v }
  | 0x10 => p fun x => { x with ebbCount := v }
  | 0x11 => p fun x => { x with ebbAge := v }
  | 0x12 => p fun x => { x with ebbarea := v }
  | 0x13 => p fun x => { x with acktmo := v }
  | 0x14 =>
    p fun x => { x with loopmap := (List.range 8).foldl (fun m i =>
      if fieldOf v (8 * i + 4) (8 * i) > 23 then m else withField m (8 * i + 4) (8 * i) (fieldOf v (8 * i + 4) (8 * i))) x.loopmap }
  | 0x15 => p fun x => { x with tpage := v }
  | 0x16 => if part = 0 then die fun x => { x with l2stat := v }
  | 0x17 => writeTsel part v
  | 0x18 => modify (tctlOp part (fieldOf raw 2 0))
  | 0x19 => p fun x => { x with tidx := v }
  | 0x1A =>
    let (c, place) := (s.partAt part).selected
    modify fun s => s.modCore c fun k => match tabFind k.parks place with
      | some x => { k with parks := tabPut k.parks place (x.setValue (fieldOf (s.partAt part).tidx 9 0) raw) }
      | none => k
  | 0x1B => p fun x => { x with lqsel := v }
  | 0x1C =>
    let a := (s.partAt part).pasid
    if fieldOf a 11 0 ≤ fieldOf v 14 3 && fieldOf v 14 3 < fieldOf a 11 0 + fieldOf a 24 12 then queue fun x => { x with cfg := v }
  | 0x1D => queue fun x => { x with tmpl := v }
  | 0x1E => p fun x => { x with cwdog := v }
  | 0x1F =>
    let g := fieldOf raw 7 0
    let c := fieldOf raw 18 8
    match joinCause part g c (bitOf raw 19) s with
    | some code => trapP code
    | none => modify (if bitOf raw 19 then leaveGroup g c else joinGroup g c)
  | 0x20 => die fun x => { x with rbuf := v }
  | 0x21 => die fun x => { x with rstep := v }
  | 0x22 =>
    die fun x => { x with rcore := withField v 0 0 0 }
    if bitOf raw 0 && s.routingIdle d then modify (startRouting d)
  | 0x23 => die fun x => { x with xstat := v }
  | 0x24 => die fun x => { x with redstat := v }
  | 0x26 => die fun x => { x with lnkcnt := v }
  | 0x27 => die fun x => { x with rcq := v }
  | i => if i < 12 then p fun x => { x with act := x.act.set i v } else pure ()

/-- Write a device-wide register, from the root's privileged view (R411). -/
def setDeviceReg (r : Reach) (n : Nat) (v raw : Word) : M Unit := do
  let s ← get
  let part := s.reachPart r.core
  let p (f : Part → Part) : M Unit := modify fun s => s.modPart part f
  match n - 0x200 with
  | 0x00 => set { s with psel := v }
  | 0x05 => modify (writePasid part v)
  | 0x0A => if fieldOf v 11 0 + fieldOf v 24 12 ≤ 4096 then p fun x => { x with xrange := v }
  | 0x0B => modify (writeLnkctl raw)
  | 0x0C => set { s with lnkErr := bitOf v 14 }
  | 0x0D => modify (writeTidecfg v)
  | 0x0E => set { s with rtbase := v }
  | 0x0F => set { s with peerSel := fieldOf v 11 0 }
  | 0x12 => p fun x => { x with swout := v }
  | 0x13 => p fun x => { x with swin := v }
  | 0x14 => p fun x => { x with switchAt := v }
  | 0x15 => p fun x => { x with swDone := bitOf v 2, swOver := bitOf v 3 }
  | 0x16 => p fun x => { x with swlim := v }
  | i =>
    if i < 5 then modify (writePmap part (i - 1) v)
    else if 6 ≤ i && i < 10 then modify (writeGown part (i - 6) v)
    else pure ()

/-- A write of register n (R4, R411): field by field; a device-wide register only from the root. -/
def writeReg (r : Reach) (n : Nat) (m : RegMap) (raw : Word) : M Unit := do
  regWait r n
  let old ← (if n = 0x23 then pure 0 else regValue r n)
  let v := m.merge r.priv old raw
  if n < 0x100 then setCoreReg r n v raw
  else if n < 0x200 then setPartReg r n v raw
  else if (← get).partOf r.core = 0 then setDeviceReg r n v raw

/-- TRAP (R410). -/
def execTrap (k : BitVec 6) (s : State) : Host.Outcome State Fault Refusal :=
  issue .other 4 (return .raiseN { code := 0x07, kind := .n, detail := k.setWidth 64 }) s

/-- SYS (R410). -/
def execSys (k : BitVec 6) (s : State) : Host.Outcome State Fault Refusal :=
  issue .other 4 (return .raiseN { code := 0x08, kind := .n, detail := k.setWidth 64 }) s

/-- BRK (R410). -/
def execBrk (k : BitVec 6) (s : State) : Host.Outcome State Fault Refusal :=
  other (trapP 0x06 0 0 (k.setWidth 64)) s

/-- The register that an instruction names, with the view's right to it (R411; step 5 of R27). -/
def regNamed (n : Nat) : M (RegMap × Reach) := do
  let s ← get
  let r : Reach := { core := s.cur.core, urg := s.urgent, priv := s.task.priv }
  match regMap n with
  | none => trapP 0x00
  | some m =>
    check (m.allS && !r.priv) 0x02
    return (m, r)

/-- RDSR (R411). -/
def execRdsr (a : BitVec 5) (n : BitVec 16) (s : State) : Host.Outcome State Fault Refusal :=
  plain (do
    let (m, r) ← regNamed n.toNat
    regWait r n.toNat
    wg a (m.readable r.priv (← regValue r n.toNat))) s

/-- WRSR (R411). -/
def execWrsr (a : BitVec 5) (n : BitVec 16) (s : State) : Host.Outcome State Fault Refusal :=
  other (do
    let (m, r) ← regNamed n.toNat
    writeReg r n.toNat m (← rg a)) s

/-- The registers whose writes do nothing but set fields (R4). -/
def plainReg (n : Nat) : Bool :=
  ([0x05, 0x07, 0x09, 0x0A, 0x0B, 0x0C, 0x11, 0x1B, 0x1C, 0x20].contains n) || (0x13 ≤ n && n < 0x1A) ||
  (0x100 ≤ n && n < 0x128 && !([0x117, 0x118, 0x11A, 0x11F, 0x122].contains n)) ||
  [0x200, 0x20A, 0x20C, 0x20D, 0x20E, 0x20F, 0x212, 0x213, 0x214, 0x215, 0x216].contains n

/-- A host write of the management window to a register without behaviour of its own (R427), or to the nonce (R432). -/
def writeManagement (offset : Nat) (v : Word) (s : State) : Option State :=
  let h := s.host
  match offset with
  | 0x008 => some { s with host := { h with fwaddr := v } }
  | 0x010 => some { s with host := { h with fwlen := BitVec.ofNat 32 (fieldOf v 31 0) } }
  | 0x028 => some { s with host := { h with repl := h.repl &&& ~~~(BitVec.ofNat 8 (fieldOf v 7 0)) } }
  | 0x030 => some (newReasons h.thr { s with host := { h with thr := withField v 63 56 0 } })
  | 0x038 => some { s with host := { h.noteHeat s.now with cap := fieldOf v 31 20, tlim := fieldOf v 39 32 } }
  | n =>
    if 0x1000 ≤ n && n < 0x1020 && n % 8 = 0 then
      some { s with host := { h with buffer := putBytes h.buffer n (bytesOf v) } }
    else none

/-- REGISTER_WRITE (R4): by the host through the management window, or from the privileged view on a core. -/
def execRegisterWrite (management : Bool) (core number : Nat) (value : BitVec 64) (s : State) : Host.Outcome State Fault Refusal :=
  event (do
    if management then set (← orNo (writeManagement number value s))
    else
      enabled (isCore core && plainReg number)
      writeReg { core := core, urg := (s.coreAt core).b1.status == .running, priv := true } number (← orNo (regMap number)) value) s

/-- The place of a bank, or of park slot bank − 2. -/
def placeOfBank (bank : Nat) : Nat := if bank < 2 then 8 + bank else bank - 2

/-- TRAP_ACTION (R402, R405): the first trap that waited at a task's boundary is taken, once there is room for its record. -/
def execTrapAction (core bank : Nat) (s : State) : Host.Outcome State Fault Refusal :=
  event (do
    enabled (isCore core && bank < 10)
    let place := placeOfBank bank
    let t := (s.coreAt core).taskAt place
    enabled (place < 8 || t.status == .waitsRecord || t.status == .held)
    match t.raising with
    | [] => throw .no
    | c :: rest =>
      modify fun s => takeTrapAt core place c (s.modCore core fun k => k.modTaskAt place fun t => { t with raising := rest })
      enabled ((((← get).coreAt core).taskAt place).raising.length ≤ rest.length)) s

/-- Is there room in the inbox that an endpoint names? Another device's cannot be seen from here: the record waits only while that
device is down; where no live block stands it waits too. -/
def State.recordRoom (s : State) (ep : BitVec 29) (cls : Nat) : Bool :=
  if epDevice ep ≠ s.device then !s.deviceDown (epDevice ep)
  else match s.blockNamed ep with
    | none => false
    | some (u, b) =>
      match s.targetCore (if b.absent then .saved u (epRank ep) else .core (nth b.cores (epRank ep) 0)) with
      | some k => k.inboxRoom cls
      | none => false

/-- The endpoint, class and tag of a record copy, and whether it may go (R405). -/
def State.recordGoes (s : State) (r : RecordCopy) : Bool × BitVec 29 × Nat × Nat × Nat :=
  let e := (s.partAt r.part).supep
  let sup := (bitOf e 40 && s.recordRoom (BitVec.ofNat 29 (fieldOf e 28 0)) (fieldOf e 31 29),
    BitVec.ofNat 29 (fieldOf e 28 0), fieldOf e 31 29, fieldOf e 39 32, 0)
  match r.forward with
  | none => sup
  | some j =>
    let w := s.cap0 r.core j
    if !s.sendable r.core j then sup
    else (fieldOf w 25 19 < fieldOf w 18 12 && s.recordRoom (BitVec.ofNat 29 (fieldOf w 60 32)) (fieldOf w 63 61),
      BitVec.ofNat 29 (fieldOf w 60 32), fieldOf w 63 61, fieldOf (s.cap1 r.core j) 7 0, j)

/-- Does a copy for the supervisor inbox wait for the forward of its record: that one is decided first (R402)? -/
def RecordCopy.follows (r : RecordCopy) (l : List RecordCopy) : Bool :=
  r.forward.isNone && l.any fun q => q.forward.isSome && q.part == r.part && nth q.words 7 0 == nth r.words 7 0

/-- TRAP_RECORD_DELIVERY (R402, R405): the first copy of the die that may go leaves as a message. A forward that falls back to the
supervisor inbox takes the place of the report. -/
def execTrapRecordDelivery (die : Nat) (s : State) : Host.Outcome State Fault Refusal :=
  event (do
    let l := (s.dieAt die).records
    let i ← orNo (l.findIdx? fun r => (s.recordGoes r).1 && !r.follows l)
    let r ← orNo l[i]?
    let (_, ep, cls, tag, j) := s.recordGoes r
    let back := r.forward.isSome && j = 0
    modify fun s => s.modDie die fun d => { d with records := (d.records.eraseIdx i).filter fun q => !(back && q.follows [r]) }
    if j ≠ 0 then
      modify fun s => s.setCap r.core j (withField (s.cap0 r.core j) 25 19 (fieldOf (s.cap0 r.core j) 25 19 + 1)) (s.cap1 r.core j)
    let words := if back then (nth r.words 0 0 ||| atBit 1 32) :: r.words.drop 1 else r.words
    let now ← readClock
    modify fun s => inject die {
      kind := .message (header0 r.src cls false false j tag 8 0 false) (BitVec.ofNat 64 now) words (j ≠ 0), ep := ep, src := r.src
      core := r.core, part := r.part, cls := cls } s) s

/-- TSEL_WRITE (R406): by a supervisor of the partition of a core. -/
def execTselWrite (core : Nat) (value : BitVec 64) (s : State) : Host.Outcome State Fault Refusal :=
  event (do
    enabled (isCore core && s.partOf core < 8)
    writeTsel (s.partOf core) (value &&& 0x7FFF#64)) s

/-- An operation of sr.tctl by a supervisor of the partition of a core. -/
def tctlEvent (core op : Nat) (s : State) : Host.Outcome State Fault Refusal :=
  event (do
    enabled (isCore core && s.partOf core < 8)
    modify (tctlOp (s.partOf core) op)) s

/-- TCTL_RESUME (R406). -/
def execTctlResume (core : Nat) (s : State) : Host.Outcome State Fault Refusal := tctlEvent core 1 s
/-- TCTL_SKIP (R406). -/
def execTctlSkip (core : Nat) (s : State) : Host.Outcome State Fault Refusal := tctlEvent core 2 s
/-- TCTL_KILL (R403, R406). -/
def execTctlKill (core : Nat) (s : State) : Host.Outcome State Fault Refusal := tctlEvent core 3 s
/-- TCTL_HALT (R406). -/
def execTctlHalt (core : Nat) (s : State) : Host.Outcome State Fault Refusal := tctlEvent core 4 s
/-- TCTL_STEP (R406). -/
def execTctlStep (core : Nat) (s : State) : Host.Outcome State Fault Refusal := tctlEvent core 5 s
/-- TCTL_ICACHE (R30, R406). -/
def execTctlIcache (core : Nat) (s : State) : Host.Outcome State Fault Refusal := tctlEvent core 6 s

/-- CORE_WATCHDOG (R408): the cycles of a task's running are left to the schedule. -/
def execCoreWatchdog (core : Nat) (s : State) : Host.Outcome State Fault Refusal :=
  event (do
    enabled (isCore core && fieldOf (s.partAt (s.partOf core)).cwdog 31 0 ≠ 0)
    let k := s.coreAt core
    let urg := k.b1.status == .running
    enabled (urg || k.b0.status == .running)
    modify (raiseAsync core (k.bank urg).tid { code := 0x5E, kind := .a })) s

/-- PMAP_WRITE (R413). -/
def execPmapWrite (part die : Nat) (value : BitVec 64) (s : State) : Host.Outcome State Fault Refusal :=
  event (do
    enabled (part < 8 && die < 4)
    modify (writePmap part die value)) s

/-- PASID_WRITE (R413). -/
def execPasidWrite (part : Nat) (value : BitVec 64) (s : State) : Host.Outcome State Fault Refusal :=
  event (do
    enabled (part < 8)
    modify (writePasid part (value &&& 0x1FFFFFF#64))) s

/-- RCORE_RUN (R358). -/
def execRcoreRun (die : Nat) (s : State) : Host.Outcome State Fault Refusal :=
  event (do
    enabled (die < 4 && s.routingIdle die)
    modify (startRouting die)) s

end Sys2Proof.Machine
end

