-- ==== Sys2Proof/Machine/Switch.lean ====
section
/-! DEFINITION. Gang switches (R415, R416): stopping a partition, saving its gang into an image area and loading another. A saved
gang stands in State.gangs under the base of its area; its blocks stay among the blocks, absent and marked with the area
(notes/assumptions/29.md). -/

namespace Sys2Proof.Machine

/-- The base of an image area that sr.swout or sr.swin names, if it names one (R415). -/
def imageArea (w : Word) : Option Nat := if bitOf w 0 then some (fieldOf w 51 12 * 2 ^ 12) else none

/-- The cores of a partition that belong to no block: its pilot cores and routing cores. -/
def State.loneCores (s : State) (p : Nat) : List Nat := (s.partCores p).filter fun c => (s.coreAt c).block.isNone

/-- The resident blocks of a partition. -/
def State.residentOf (s : State) (p : Nat) : List (Nat × Block) := s.blocks.filter fun b => b.2.part == p && !b.2.absent

/-- The dies whose units and routing core a partition has: it holds their cove 0. -/
def State.ownsDie (s : State) (p d : Nat) : Bool := s.partOf (512 * d) == p

/-- The part of a die's units, queues and packets that satisfies a choice by partition, or by name for the gate counts. -/
def Die.select (x : Die) (part : Nat → Bool) (coreIn : Nat → Bool) (gate : Bool) (name : Nat → Bool) : Die :=
  { x with
    causal := x.causal.filter fun e => part e.1
    pool := x.pool.filter fun e => part e.2.part
    quiet := x.quiet.filter fun q => part q.part
    ring := x.ring.filter fun f => part f.packet.part
    spill := (x.spill.map fun e => (e.1, e.2.filter fun (f : Flight) => part f.packet.part)).filter fun e => !e.2.isEmpty
    gate := if gate then x.gate else []
    gateCount := x.gateCount.filter fun e => name e.1
    sort := x.sort.filter fun c => coreIn c.core
    buckets := x.buckets.filter fun b => part b.part
    strays := x.strays.filter fun b => part b.part
    rings := x.rings.filter fun e => part (e.1 / 16)
    flags := x.flags.filter fun q => part q.part
    requests := x.requests.filter fun q => coreIn q.core }

/-- The share of a partition on a die (R416): its queues and packets, and the registers of the die whose cove 0 it holds. -/
def State.dieShare (s : State) (p d : Nat) : Die :=
  let x := (s.dieAt d).select (· == p) (fun c => s.partOf c == p) (s.ownsDie p d)
    fun n => (match tabFind s.names n with | some y => y.part == p | none => false)
  { causal := x.causal, pool := x.pool, quiet := x.quiet, ring := x.ring, spill := x.spill, gate := x.gate, gateCount := x.gateCount, sort := x.sort
    buckets := x.buckets, strays := x.strays, rings := x.rings, flags := x.flags, requests := x.requests
    xstat := x.xstat, redstat := x.redstat, rbuf := x.rbuf, rstep := x.rstep, rcore := x.rcore, rcq := x.rcq }

/-- What stays on a die when the share of a partition has gone. -/
def State.dieRest (s : State) (p d : Nat) : Die :=
  (s.dieAt d).select (· ≠ p) (fun c => s.partOf c ≠ p) (!s.ownsDie p d)
    fun n => (match tabFind s.names n with | some y => y.part ≠ p | none => true)

/-- Entries put into a table. -/
def tabMerge {α : Type} (t : Tab α) (l : Tab α) : Tab α := l.foldl (fun t e => tabPut t e.1 e.2) t

/-- Lists put before those of a table. -/
def tabBefore {α : Type} (t : Tab (List α)) (l : Tab (List α)) : Tab (List α) :=
  l.foldl (fun t e => tabPut t e.1 (e.2 ++ tabGet t e.1 [])) t

/-- A die with a saved share loaded: its packets are reinjected first (R416). -/
def Die.load (x y : Die) (own : Bool) : Die :=
  let x := { x with
    causal := tabMerge x.causal y.causal, pool := y.pool ++ x.pool, quiet := y.quiet ++ x.quiet, ring := y.ring ++ x.ring, spill := tabBefore x.spill y.spill
    gate := y.gate ++ x.gate, gateCount := tabMerge x.gateCount y.gateCount, sort := y.sort ++ x.sort
    buckets := y.buckets ++ x.buckets, strays := y.strays ++ x.strays, rings := tabMerge x.rings y.rings, flags := y.flags ++ x.flags
    requests := y.requests ++ x.requests }
  if own then
    { x with xstat := y.xstat, redstat := y.redstat, rbuf := y.rbuf, rstep := y.rstep, rcore := y.rcore, rcq := y.rcq }
  else x

/-- The registers and queues that a gang brings (R416): those numbered 0x100 to 0x127 but the excepted; the others stay. -/
def Part.load (live saved : Part) : Part :=
  { saved with
    act := live.act, supep := live.supep, pmap := live.pmap, pasid := live.pasid, gown := live.gown, xrange := live.xrange
    swout := live.swout, swin := live.swin, switchAt := live.switchAt, switchedAt := live.switchedAt, swState := live.swState
    swDone := live.swDone, swOver := live.swOver, swNoted := live.swNoted, swlim := live.swlim, seqno := live.seqno, quiesce := live.quiesce, drained := live.drained
    cleared := live.cleared }

/-- The queues of a partition emptied, and its records of launches with them. -/
def Part.empty (p : Part) : Part := { p with queues := p.queues.map fun q => (q.1, { q.2 with held := [] }) }

/-- The packets of lists that belong to a partition, or that do not. -/
def packetsOf (keep : Nat → Bool) (t : Tab (List Packet)) : Tab (List Packet) :=
  (t.map fun e => (e.1, e.2.filter fun (q : Packet) => keep q.part)).filter fun e => !e.2.isEmpty

/-- Does an engine's access wait for a walk or a ticket? The pilots that serve it have stopped too. -/
def State.tagWaits (s : State) (t : Nat) : Bool :=
  s.heldTags.contains t || s.coves.any fun v => v.2.walks.any fun w => w.2.waiters.contains (.engine t)

/-- Is a core done as far as it can be while the pilots stand still (R416): what is left waits for a walk or a ticket, and is saved with
the core (notes/assumptions/29.md)? -/
def State.coreHeld (s : State) (c : Nat) : Bool :=
  ((s.coreAt c).vq.isEmpty || s.tagWaits (coreTag c 0)) && (s.coreAt c).mret.isEmpty &&
    (!(s.coreAt c).mq.any fun (m : MatCommand) => m.granted) && (!s.fetchReady c || s.tagWaits (coreTag c 2))

/-- May a partition's cores be saved (R416): the granted and accepted commands of all are done, and what was issued has completed? -/
def State.stopped (s : State) (p : Nat) : Bool := (s.partCores p).all fun c => s.coreHeld c && !(s.coreAt c).begun

/-- The page requests of a partition's coves. -/
def State.requestsOf (s : State) (p : Nat) : List (Nat × Nat) := s.host.pageRequests.filter fun r => (s.covesOf p).contains r.1

/-- The walks and tickets of a cove as they are saved. -/
def State.coveShare (s : State) (v : Nat) : Cove :=
  let x := s.coveAt v
  { walks := x.walks, walkQueue := x.walkQueue, late := x.late
    tickets := x.tickets.map fun t => (t.1, { t.2 with answered := t.2.host && !s.host.pageRequests.contains (v, t.1) }) }

/-- What a gang leaves of a cove. -/
def Cove.rest (x : Cove) : Cove := { x with walks := [], walkQueue := [], tickets := [], late := 0 }

/-- Members leave their groups, and the phases are tested again (R291, R292). -/
def dropMembers (f : Member → Bool) (s : State) : State :=
  (s.groups.filter fun g => g.2.members.any f).foldl (fun s g =>
    testGroup g.1 3 (s.modGroup g.1 fun x => { x with members := x.members.filter fun m => !f m })) s

/-- The tag of a unit's access while its gang stands in an image area. -/
def gangTag (area t : Nat) : Nat := 2 ^ 72 + area * 2 ^ 24 + t

/-- Does a tag stand for work of a partition: of its launches, its names, the sort command of a die, its buckets? -/
def State.unitTag (s : State) (p t : Nat) : Bool :=
  (launchTag p 0 ≤ t && t < launchTag p 64) ||
  (s.names.any fun n => n.2.part == p && nameTag n.1 == t) ||
  (List.range 4).any fun d =>
    (t == dieTag d 0 && ((s.dieAt d).sort.head?.any fun c => s.partOf c.core == p)) ||
    (t == dieTag d 1 && ((s.dieAt d).buckets ++ (s.dieAt d).strays).any fun b => b.part == p)

/-- Does a tag stand for an access of a unit for a partition: it waits in one of its coves, or is of its work? -/
def State.gangsTag (s : State) (p t : Nat) : Bool :=
  let waits (v : Cove) : Bool :=
    (v.walks.any fun w => w.2.waiters.contains (.engine t)) || v.tickets.any fun x => x.2.engines.contains t
  !isSavedTag t && (s.unitTag p t || (s.covesOf p).any fun v => waits (s.coveAt v))

/-- A list of answers or held tags loses those of a test. -/
def dropTags (f : Nat → Bool) (s : State) : State :=
  { s with answers := s.answers.filter fun x => !f x.1, heldTags := s.heldTags.filter fun t => !f t }

/-- Drop the gang that an area held: it is overwritten, and its members leave their groups. -/
def dropGang (area : Nat) (s : State) : State :=
  let lost (m : Member) : Bool := m.gang == some area || (match m.block.bind fun u => tabFind s.blocks u.1 with
    | some b => b.gang == some area
    | none => false)
  let s := dropMembers lost s
  dropTags (fun t => gangTag area 0 ≤ t && t < gangTag (area + 1) 0)
    { s with gangs := tabDel s.gangs area, blocks := s.blocks.filter fun b => b.2.gang ≠ some area }

/-- The stops of a die where packets of a partition drop when it is switched (R416): what is on a loop, or waits at its source, where it
entered; what is on a link or waits at a port, at that port. -/
def State.droppedAt (s : State) (p d : Nat) : List Nat :=
  let mine (t : Tab (List Packet)) (i j : Nat) : List Packet := (tabGet t (portKey i j) []).filter (·.part == p)
  ((s.dieAt d).ring.filter (·.packet.part == p)).map (·.packet.stop) ++
    ((s.dieAt d).quiet.filter (·.part == p)).map (·.stop) ++
    ((List.range 4).filter (· ≠ d)).flatMap fun j =>
      List.replicate ((mine s.links j d).length + (mine s.ports d j).length) (linkStop d j)

/-- How many of them find the spill store of their stop full (R274). -/
def State.spillOver (s : State) (p d : Nat) : Nat :=
  let l := s.droppedAt p d
  (List.range 92).foldl (fun n t =>
    let held := (tabGet (s.dieAt d).spill t []).length
    n + (held + l.count t - max 32 held)) 0

/-- The packets of a partition drop into the spill stores; what overflows them goes to the switch area, is counted, and reported once
for the switch (R274). -/
def countSpills (p : Nat) (s : State) : State :=
  let full := ((List.range 4).map fun d => (d, s.spillOver p d)).filter fun x => decide (x.2 ≠ 0)
  let s := full.foldl (fun s x => s.modDie x.1 fun y => { y with lnkcnt := bumpField y.lnkcnt 63 56 x.2 }) s
  match full with
  | x :: _ => report p x.1 0 { code := 0x45, kind := .r } 0 0 s
  | [] => s

/-- The registers, lone cores, coves, shares, names and packets of a partition, as its gang holds them (R416). -/
def State.gangOf (s : State) (p : Nat) : Gang :=
  { part := s.partAt p
    savedAt := (s.partAt p).switchedAt
    cores := (s.loneCores p).map fun c => (c, (s.coreAt c).asSaved)
    coves := (s.covesOf p).map fun v => (v, s.coveShare v)
    dies := (List.range 4).map fun d => (d, s.dieShare p d)
    names := s.names.filter fun n => n.2.part == p
    ports := packetsOf (· == p) s.ports
    links := packetsOf (· == p) s.links
    unacked := s.unacked.filter fun e => e.1 / 16 == p
    chunks := s.chunks.filter fun c => c.part == p }

/-- The partition without its gang (R416): no blocks, empty queues, zero causal state; its translations go. -/
def clearGang (p : Nat) (s : State) : State :=
  let coves := s.covesOf p
  let rest := (List.range 4).map fun d => (d, s.dieRest p d)
  let lone := s.loneCores p
  let requests := s.requestsOf p
  let s := lone.foldl (fun s c => s.setCore c (s.coreAt c).fresh) s
  let s := coves.foldl (fun s v => s.modCove v Cove.rest) s
  let s := coves.foldl (fun s v => clearCove v s) { s with dies := tabMerge s.dies rest }
  { s.modPart p Part.empty with
    names := s.names.filter fun n => n.2.part ≠ p
    ports := packetsOf (· ≠ p) s.ports
    links := packetsOf (· ≠ p) s.links
    unacked := s.unacked.filter fun e => e.1 / 16 ≠ p
    chunks := s.chunks.filter fun c => c.part ≠ p
    frames := s.frames.filter fun f => f.1 ≠ p
    host := { s.host with pageRequests := s.host.pageRequests.filter fun r => !requests.contains r } }

/-- Every block of the partition leaves with its gang: the resident ones as R139 saves a block. -/
def markBlocks (p : Nat) (area : Nat) (s : State) : State :=
  let s := (s.residentOf p).foldl (fun s b => saveBlock b.1 b.2 s) s
  { s with blocks := s.blocks.map fun b =>
    if b.2.part == p && b.2.gang.isNone then (b.1, { b.2 with gang := some area }) else b }

/-- The memberships of a partition's lone cores become absent (R417). -/
def loneAway (p area : Nat) (s : State) : State :=
  let lone := s.loneCores p
  mapMembers (fun m => if lone.contains m.core && !m.absent then { m with gang := some area, absent := true } else m) s

/-- The memberships of the lone cores of a loaded gang are present again. -/
def loneBack (area : Nat) (s : State) : State :=
  mapMembers (fun m => if m.gang = some area then { m with gang := none, absent := false } else m) s

/-- Save the running gang of a partition into an area, or lose it where none is named (R415, R416): a lost gang's members leave their
groups. -/
def saveGang (p : Nat) (area : Option Nat) (s : State) : State :=
  let s := countSpills p s
  match area with
  | some a =>
    let s := loneAway p a (markBlocks p a (dropGang a s))
    let mine := s.gangsTag p
    let s := moveTags (s.covesOf p).contains (fun t => if mine t then gangTag a t else t) s
    clearGang p { s with gangs := tabPut s.gangs a (s.gangOf p) }
  | none =>
    let s := (s.residentOf p).foldl (fun s b => saveBlock b.1 b.2 s) s
    let goes (b : Block) : Bool := b.part == p && b.gang.isNone
    let lone := s.loneCores p
    let lost (m : Member) : Bool := (lone.contains m.core && !m.absent) || (match m.block.bind fun u => tabFind s.blocks u.1 with
      | some b => goes b
      | none => false)
    let s := dropTags (s.gangsTag p) (dropMembers lost s)
    clearGang p { s with blocks := s.blocks.filter fun b => !goes b.2 }

/-- A block of a loaded gang: one that was resident returns to its cores where they are free, else it waits to be placed. -/
def loadBlock (s : State) (b : Nat × Block) : State :=
  let p := b.2.part
  let y := { b.2 with gang := none }
  if b.2.frame.isSome then { s with blocks := tabPut s.blocks b.1 y, frames := s.frames ++ [(p, b.2.frame.getD 0)] }
  else if b.2.cores.all fun c => (s.coreAt c).block.isNone && s.partOf c == p then restoreBlock b.1 y b.2.crew b.2.cores s
  else { s with blocks := tabPut s.blocks b.1 y }

/-- The dozes of a core go on with their remaining time (R298, R417). -/
def Core.laterDozes (k : Core) (away : Nat) : Core :=
  let later (t : Task) : Task := { t with doze := t.doze.map fun z => { z with since := z.since + away } }
  { k with
    b0 := later k.b0, b1 := later k.b1
    parks := k.parks.map fun x => (x.1, { x.2 with task := later x.2.task, since := x.2.since + away }) }

/-- Load the gang of an area (R416): its packets first, then its registers, units, cores and blocks. -/
def loadGang (p area : Nat) (g : Gang) (s : State) : State :=
  let away := s.now - g.savedAt
  let s := { s with
    blocks := s.blocks.map fun (b : Nat × Block) =>
      if b.2.gang = some area then (b.1, { b.2 with saved := b.2.saved.map fun (k : Core) => k.laterDozes away }) else b
    ports := tabBefore s.ports g.ports, links := tabBefore s.links g.links, unacked := tabMerge s.unacked g.unacked
    chunks := g.chunks ++ s.chunks, names := tabMerge s.names g.names, gangs := tabDel s.gangs area }
  let s := s.modPart p fun x => x.load g.part
  let s := g.dies.foldl (fun s d => s.modDie d.1 fun x => x.load d.2 (s.ownsDie p d.1)) s
  let s := g.coves.foldl (fun s v => s.modCove v.1 fun x => { x with
    walks := v.2.walks, walkQueue := v.2.walkQueue, late := v.2.late
    tickets := v.2.tickets.map fun (t : Nat × Ticket) => (t.1, { t.2 with answered := false }) }) s
  let open_ := g.coves.flatMap fun v => (v.2.tickets.filter fun t => t.2.host && !t.2.answered).map fun t => (v.1, t.1)
  let s := { s with host := { s.host with pageRequests := s.host.pageRequests ++ open_ } }
  let s := moveTags (s.covesOf p).contains (fun t => if gangTag area 0 ≤ t && t < gangTag (area + 1) 0 then t - gangTag area 0 else t) s
  let s := g.cores.foldl (fun s c => s.setCore c.1 (restoreCore (c.2.laterDozes away) (s.coreAt c.1) s.stores id)) s
  let s := g.cores.foldl (fun s c => pumpInbox c.1 s) (loneBack area s)
  let s := if (s.partAt p).quiesce then s else releaseQuiet p s
  (s.blocks.filter fun b => b.2.gang == some area && b.2.part == p).foldl loadBlock s

/-- The header of an image area (R415). -/
def imageHeader (time blocks : Nat) : List (Nat × Word) :=
  (List.range 8).map fun i =>
    (i, if i = 0 then 1 else if i = 1 then BitVec.ofNat 64 time else if i = 2 then BitVec.ofNat 64 blocks else 0)

/-- Does an image area hold a gang: its header says so (R415)? -/
def State.gangIn (s : State) (area : Nat) : Option Gang :=
  if wordOfList (cellsGet s.mem area 8) = 1 then tabFind s.gangs area else none

/-- The partition has stopped, and its switch saves and loads (R415, R416). -/
def startSaving (p : Nat) : M Unit := do
  enabled ((← get).stopped p)
  modify fun s => s.modPart p fun x => { x with swState := 2 }

/-- Save, load, exchange (steps 2 to 6 of R416). -/
def finishSwitch (p : Nat) : M Unit := do
  enabled ((← get).stopped p)
  drainCores ((← get).partCores p)
  let s ← get
  let out := imageArea (s.partAt p).swout
  let inn := imageArea (s.partAt p).swin
  let now ← readClock
  match out, (← get).firstCove p with
  | some a, some v => writeHeader v a (imageHeader now (s.residentOf p).length)
  | _, _ => pure ()
  let s ← get
  let gang := inn.bind s.gangIn
  modify (saveGang p out)
  modify fun s =>
    match inn, gang with
    | some a, some g => loadGang p a g s
    | _, _ => s
  modify fun s => s.modPart p fun x =>
    { x with swout := x.swin, swin := x.swout, swDone := true, swState := if inn.isSome then 0 else 3 }

/-- GANG_SWITCH (R416): at sr.switch_at the partition begins to stop; when it has stopped, it saves and loads. -/
def execGangSwitch (part : Nat) (s : State) : Host.Outcome State Fault Refusal :=
  event (do
    enabled (part < 8)
    let x := s.partAt part
    if x.swState = 1 then startSaving part
    else if x.swState = 2 then finishSwitch part
    else
      let now ← readClock
      enabled (x.switchAt ≠ 0 && x.switchAt.toNat ≤ now)
      modify fun s => s.modPart part fun x => { x with swState := 1, switchedAt := x.switchAt.toNat, switchAt := 0, swNoted := false }) s

/-- GANG_SWITCH_OVERRUN (R416): ovr is set and 0x5D reported, once for a switch. -/
def execGangSwitchOverrun (part : Nat) (s : State) : Host.Outcome State Fault Refusal :=
  event (do
    let x := s.partAt part
    let now ← readClock
    enabled (part < 8 && x.swState = 1 && fieldOf x.swlim 31 0 ≠ 0 && !x.swNoted && x.switchedAt + fieldOf x.swlim 31 0 < now)
    modify fun s => report part 0 0 { code := 0x5D, kind := .r } 0 0 (s.modPart part fun x => { x with swOver := true, swNoted := true })) s

end Sys2Proof.Machine
end

