-- ==== Sys2Proof/Machine/HostUnit.lean ====
section
/-! DEFINITION. The host link, bring-up, attestation, errors and throttling (R161, R426 to R436). -/

namespace Sys2Proof.Machine

/-- Signal MSI-X vector 1, once for each of `n` changes of the boot state (R430). -/
def HostUnit.signal (h : HostUnit) (n : Nat) : HostUnit := { h with msix1 := h.msix1 + n }

/-- Remove the translations of host space from a table. -/
def notHost (l : List TlbEntry) : List TlbEntry := l.filter fun e => !isHostPa (e.ppn * 65536)

/-- The open host tickets of a table of coves: cove and number. -/
def hostTickets (v : Tab Cove) : List (Nat × Nat) := v.flatMap fun x => (x.2.tickets.filter fun t => t.2.host).map fun t => (x.1, t.1)

/-- Every open host ticket completes with 0x27 (R135), those of saved gangs too (R417). -/
def endHostTickets (s : State) : State :=
  let s := (hostTickets s.coves).foldl (fun s t => endTicket t.1 t.2 0x27 false s) s
  s.gangs.foldl (fun s g => (hostTickets g.2.coves).foldl (fun s t => endGangTicket g.1 t.1 t.2 0x27 false s) s) s

/-- The lines of host space that a die's L2 holds and that satisfy a test. -/
def State.hostLinesOf (s : State) (d : Nat) (f : Nat × L2Line → Bool) : List Nat :=
  ((s.dieAt d).l2.filter fun l => isHostPa (l.1 * 128) && f l).map fun l => l.1

/-- Link loss and host reset (R135, R161): translations of host space go, host tickets end, clean host lines are invalidated. -/
def loseHost (s : State) : State :=
  let s := { s with
    coves := s.coves.map fun (v : Nat × Cove) => (v.1, { v.2 with tlb := notHost v.2.tlb })
    cores := s.cores.map fun (c : Nat × Core) => (c.1, { c.2 with utlb := notHost c.2.utlb }) }
  let s := (List.range 4).foldl (fun s d =>
    (s.hostLinesOf d fun l => !l.2.dirtyLine).foldl (fun s u => s.dropL2 d u) s) s
  endHostTickets { s with host := { s.host with pageRequests := [] } }

/-- A dirty line of host space is discarded (R161): host memory keeps its own bytes. A square sector is one line here, and counts once
(notes/assumptions/75.md). -/
def discardHostLine (d u : Nat) (s : State) : State :=
  let sq := match s.l2Line d u with | some l => l.sq | none => false
  let mine (a : Nat) : Bool := (unitLines u sq).contains (a / 128)
  let old := s.stale.filter fun x => mine x.1
  let s := { s with
    mem := old.foldl (fun m (x : Nat × Byte) => cellSet m x.1 x.2) s.mem, stale := s.stale.filter fun (x : Nat × Byte) => !mine x.1
    host := { s.host with hostDirty := s.host.hostDirty.filter fun v => v ≠ u } }
  (s.dropL2 d u).modDie d fun x => { x with l2stat := bumpField x.l2stat 59 52 1 }

/-- HOST_RESET (R161, R426): the link then serves again. -/
def execHostReset (s : State) : Host.Outcome State Fault Refusal :=
  event (do
    let s := loseHost s
    let dirty := (List.range 4).flatMap fun d => (s.hostLinesOf d fun l => l.2.dirtyLine).map fun u => (d, u)
    let s := dirty.foldl (fun s x => discardHostLine x.1 x.2 s) s
    let s := { s with host := { s.host with linkUp := true } }
    set (if dirty.isEmpty then s else reportRoot 0 { code := 0x27, kind := .r } s)) s

/-- HOST_LINK_LOSS (R161, R426). -/
def execHostLinkLoss (s : State) : Host.Outcome State Fault Refusal :=
  event (do
    enabled s.host.linkUp
    set (loseHost { s with host := { s.host with linkUp := false } })) s

/-- HOST_LINK_RETURN (R161): the dirty lines kept are written back. -/
def execHostLinkReturn (s : State) : Host.Outcome State Fault Refusal :=
  event (do
    enabled (!s.host.linkUp)
    let s := { s with host := { s.host with linkUp := true } }
    set ((List.range 4).foldl (fun s d => (s.hostLinesOf d fun l => l.2.dirtyLine).foldl (fun s u => flushLine d u s) s) s)) s

/-- DEVICE_RESET (R426): every job, register and cached line is lost. Memory keeps what HBM and the host hold; fused state, what
has left the device, and the model's own counters stay. -/
def execDeviceReset (s : State) : Host.Outcome State Fault Refusal :=
  event (set { State.reset with
    mem := s.stale.foldl (fun m (x : Nat × Byte) => cellSet m x.1 x.2) s.mem
    poison := s.poison
    hbmBad := s.hbmBad
    tideOut := s.tideOut
    chunksOut := s.chunksOut
    host := { leaves := s.host.leaves, floor := s.host.floor, msix0 := s.host.msix0, msix1 := s.host.msix1 }
    tick := s.tick, nextTid := s.nextTid, nextUid := s.nextUid, sched := s.sched }) s

/-- A byte of the buffers of the management window: the identity public key stands at 0x3000 from manufacture on (R431). -/
def HostUnit.bufferByte (h : HostUnit) (off : Nat) : Byte :=
  if 0x3000 ≤ off && off < 0x3044 then Config.identityKey (off - 0x3000) else tabGet h.buffer off 0

/-- The word that a host read of the management window returns (R427, R431, R432). -/
def State.managementWord (s : State) (off : Nat) : Word :=
  let h := s.host
  let pack (l : List (Nat × Nat)) : Word := BitVec.ofNat 64 (l.foldl (fun t x => t + x.1 * 2 ^ x.2) 0)
  match off with
  | 0x000 => pack [(h.boot, 0), (h.why, 4), (h.ver.toNat, 12)]
  | 0x008 => h.fwaddr
  | 0x010 => pack [(h.fwlen.toNat, 0)]
  | 0x018 => pack [(h.idl, 0), (h.atl, 21), (h.bcnt, 32)]
  | 0x020 => pack [(h.ast, 1)]
  | 0x028 => h.repl.setWidth 64
  | 0x030 => h.thr
  | 0x038 => pack [(h.power, 0), (h.temp, 12), (h.cap, 20), (h.tlim, 32), (if h.throttled then 1 else 0, 40)]
  | n =>
    if 0x1000 ≤ n then wordOfList ((List.range 8).map fun i => h.bufferByte (n + i))
    else if 0x100 ≤ n && n < 0x140 && n % 8 = 0 then
      let d := (n - 0x100) / 16
      let e (i : Nat) : Nat := nth (s.inHour.dieAt d).eh i 0
      let t (i : Nat) : Nat := nth (s.dieAt d).et i 0
      if n % 16 = 0 then pack [(e 0, 0), (e 1, 16), (e 2, 32), (e 3, 40), (e 4, 48), (e 5, 56)]
      else pack [(t 0, 0), (t 1, 32), (t 2, 48)]
    else 0

/-- FIRMWARE_GO (R430): acted on only in states 0 and 5. -/
def execFirmwareGo (s : State) : Host.Outcome State Fault Refusal :=
  event (do
    enabled (s.host.boot = 0 || s.host.boot = 5)
    set { s with host := { s.host with boot := 1 }.signal 1 }) s

/-- Fresh bytes that the spec leaves without a value (R431, R432). -/
def freeBytes (n : Nat) : M (List Byte) := do
  let t := (← get).tick
  modify fun s => { s with tick := s.tick + n }
  return (List.range n).map fun i => Config.freeByte (t + i)

/-- Write bytes into the attestation buffers at an offset of the management window. -/
def bufferPut (at_ : Nat) (l : List Byte) : M Unit :=
  modify fun s => { s with host := { s.host with buffer := putBytes s.host.buffer at_ l } }

/-- Make the attestation key and the certificate (R431): one identity leaf; none where none is left. mg.keys then shows the leaves. -/
def makeKeys : M Unit := do
  let h := (← get).host
  if h.leaves = 0 then modify fun s => { s with host := { s.host with atl := 0, idl := 0, bcnt := 2 ^ 20 } }
  else
    let left := h.leaves - 1
    modify fun s => { s with host := { s.host with leaves := left, idl := left, atl := 1024, bcnt := 2 ^ 20 - left } }
    let key ← freeBytes 68
    let signature ← freeBytes 2820
    bufferPut 0x2000 (key ++ bytesOfNat 8 (2 ^ 20 - left) ++ bytesOf Config.serial ++ signature)
  if (← get).host.idl ≤ 52428 then modify (raiseReason 5)
  if (← get).host.atl ≤ 51 then modify (raiseReason 6)

/-- Is the length written to mg.fwctl one that an image may have (R430)? -/
def HostUnit.lengthOk (h : HostUnit) : Bool := h.fwlen ≠ 0 && h.fwlen.toNat ≤ 64 * 2 ^ 20

/-- The image as it stands in host memory (R430). -/
def State.hostImage (s : State) : List Byte := cellsGet s.mem (hostBase + s.host.fwaddr.toNat) s.host.fwlen.toNat

/-- The image is read into HBM; what is written whole is no longer poisoned (R430, R433). -/
def loadImage (img : List Byte) (s : State) : State :=
  let base := Config.imageBase % hbmEnd / 32 * 32
  let covered (k : Nat) : Bool := base ≤ 32 * k && 32 * k + 32 ≤ base + img.length
  { s with
    mem := cellsSet s.mem base img, poison := s.poison.filter fun k => !covered k, hbmBad := s.hbmBad.filter fun k => !covered k
    host := { s.host with image := img, ver := Config.imageVersion img } }

/-- What each stage of a bring-up may end with (R430): 0 leads to the next state, another to state 5. In state 1 the image is read, in
state 2 it is verified, in state 3 the dies are trained. -/
def State.stageEnds (s : State) (why : Nat) : Bool :=
  let h := s.host
  let lengthOk := h.lengthOk && Config.imageLength s.hostImage == h.fwlen.toNat
  match h.boot, why with
  | 1, 0 => lengthOk
  | 1, 1 => true
  | 1, 2 => !lengthOk
  | 2, 0 => Config.imageValid h.image && h.floor.toNat ≤ h.ver.toNat
  | 2, 3 => !Config.imageValid h.image
  | 2, 4 => Config.imageValid h.image && h.ver.toNat < h.floor.toNat
  | 3, 0 => true
  | 3, 5 => true
  | _, _ => false

/-- BRING_UP_COMPLETE (R430): a stage of the bring-up ends. The last one commits the HDM decoder and reaches state 4; a failure 1 to 5
enters state 5. MSI-X vector 1 is signalled at each change of state. -/
def execBringUpComplete (why : Nat) (s : State) : Host.Outcome State Fault Refusal :=
  event (do
    enabled (s.stageEnds why)
    if s.host.boot = 1 && why ≠ 1 && s.host.lengthOk then modify (loadImage s.hostImage)
    modify fun s => { s with host := s.host.signal 1 }
    if why ≠ 0 then modify fun s => { s with host := { s.host with boot := 5, why := why } }
    else if s.host.boot < 3 then modify fun s => { s with host := { s.host with boot := s.host.boot + 1 } }
    else
      makeKeys
      modify fun s => { s with host := { s.host with boot := 4, floor := s.host.ver, hdm := true } }) s

/-- ATTEST_GO (R432): busy has no effect; without a leaf, or before state 4 (R438), it is refused. -/
def execAttestGo (s : State) : Host.Outcome State Fault Refusal :=
  event (do
    enabled (s.host.ast ≠ 1)
    set { s with host := { s.host with ast := if s.host.atl = 0 || s.host.boot ≠ 4 then 3 else 1 } }) s

/-- ATTEST_REPORT_READY (R432): the report is written over the nonce, one leaf is used, ast becomes 2. -/
def execAttestReportReady (s : State) : Host.Outcome State Fault Refusal :=
  event (do
    enabled (s.host.ast = 1 && s.host.atl ≠ 0)
    let digest := (List.range 64).map (Config.imageDigest s.host.image)
    let signature ← freeBytes 2500
    bufferPut 0x1020 (digest ++ bytesOfNat 8 s.host.bcnt ++ bytesOf Config.serial ++ bytesOfNat 4 (1024 - s.host.atl)
      ++ List.replicate 68 0 ++ signature)
    modify fun s => { s with host := { s.host with ast := 2, atl := s.host.atl - 1 } }
    if (← get).host.atl ≤ 51 then modify (raiseReason 6)) s

/-- HOUR_BOUNDARY (R427): once global time has passed a multiple of an hour; what is counted at the boundary itself belongs to the hour
that ends (R438). -/
def execHourBoundary (s : State) : Host.Outcome State Fault Refusal :=
  event (do
    let now ← readClock
    enabled (s.host.hour < (now - 1) / hourNs)
    modify (startHour ((now - 1) / hourNs))) s

/-- MEMORY_ERROR (R433): of HBM (kind 0: a physical address), an L2 (1: a die and a physical address it holds), a core's local SRAM
(2: a scratchpad offset) or instruction cache (3: the physical address of a captured word), or of logic (4: a core, and as
`address` the cause of the structure's chapter). A correctable one is corrected and counted. -/
def execMemoryError (kind place address : Nat) (correctable : Bool) (s : State) : Host.Outcome State Fault Refusal :=
  event (do
    match kind with
    | 0 =>
      enabled (address < hbmEnd)
      if correctable then modify (countError (homeDie address) 0)
      else
        modify fun s => { s with hbmBad := markPut s.hbmBad (address / 32) }
        modify (countError (homeDie address) 4)
    | 1 =>
      enabled (place < 4 && ((s.dieAt place).l2.any fun l => (unitLines l.1 l.2.sq).contains (address / 128)))
      if correctable then modify (countError place 1)
      else modify fun s => { s with poison := markPut s.poison (address / 32) }
    | 2 =>
      enabled (isCore place && address < 262144)
      if correctable then modify (countError (dieOf place) 1)
      else modify fun s => s.modCore place fun k => { k with spmPoison := markPut k.spmPoison (address / 8) }
    | 3 =>
      enabled (isCore place && (tabFind (s.coreAt place).icache (address / 4)).isSome)
      if correctable then modify (countError (dieOf place) 1)
      else modify fun s => s.modCore place fun k => { k with icacheBad := markPut k.icacheBad (address / 4) }
    | 4 =>
      enabled (isCore place && [0x0E, 0x19, 0x1E].contains address)
      modify (countError (dieOf place) 2)
      modify (reportCore place { code := address, kind := .r })
    | _ => throw .no) s

/-- THROTTLE_START (R436). -/
def execThrottleStart (s : State) : Host.Outcome State Fault Refusal :=
  event (do
    enabled (s.host.hot && !s.host.throttled)
    set { s with host := { s.host with throttled := true } }) s

/-- THROTTLE_END (R436): the condition has been clear for 1 ms. -/
def execThrottleEnd (s : State) : Host.Outcome State Fault Refusal :=
  event (do
    let now ← readClock
    enabled (s.host.throttled && !s.host.hot && s.host.hotAt + 1000000 ≤ now)
    modify fun s => { s with host := { s.host with throttled := false } }) s

end Sys2Proof.Machine
end

