-- ==== Sys2Proof/Machine/Scalar.lean ====
section
/-! DEFINITION. The scalar instructions (spec/03, majors 0x01 to 0x0B). -/

namespace Sys2Proof.Machine

/-- A register-register operation (R38, R41): both sources are read before the destination is written. -/
def alu2 (f : Word → Word → Word) (d a b : BitVec 5) (s : State) : Host.Outcome State Fault Refusal :=
  .next (complete .plain 4 .seq (s.wg d (f (s.rg a) (s.rg b))))

/-- A one-source operation (R41), also the immediate forms (R46 to R48). -/
def alu1 (f : Word → Word) (d a : BitVec 5) (s : State) : Host.Outcome State Fault Refusal :=
  .next (complete .plain 4 .seq (s.wg d (f (s.rg a))))

/-- A division or remainder (R41, R43): a zero divisor raises 0x3A before the destination is written. -/
def aluDiv (f : Word → Word → Word) (d a b : BitVec 5) (s : State) : Host.Outcome State Fault Refusal :=
  if s.rg b = 0 then .next (takeTrap s.cur.core s.urgent { code := 0x3A, kind := .p, aSeq := s.cur.a } s)
  else alu2 f d a b s

/-- ADD (R41). -/
def execAdd (d a b : BitVec 5) (s : State) : Host.Outcome State Fault Refusal := alu2 (fun x y => x + y) d a b s
/-- SUB (R41). -/
def execSub (d a b : BitVec 5) (s : State) : Host.Outcome State Fault Refusal := alu2 (fun x y => x - y) d a b s
/-- MUL (R41). -/
def execMul (d a b : BitVec 5) (s : State) : Host.Outcome State Fault Refusal := alu2 (fun x y => x * y) d a b s
/-- MULH (R41). -/
def execMulh (d a b : BitVec 5) (s : State) : Host.Outcome State Fault Refusal := alu2 (fun x y => mulHigh x y) d a b s
/-- MULHZ (R41). -/
def execMulhz (d a b : BitVec 5) (s : State) : Host.Outcome State Fault Refusal := alu2 (fun x y => mulHighZ x y) d a b s
/-- AND (R41). -/
def execAnd (d a b : BitVec 5) (s : State) : Host.Outcome State Fault Refusal := alu2 (fun x y => x &&& y) d a b s
/-- OR (R41). -/
def execOr (d a b : BitVec 5) (s : State) : Host.Outcome State Fault Refusal := alu2 (fun x y => x ||| y) d a b s
/-- XOR (R41). -/
def execXor (d a b : BitVec 5) (s : State) : Host.Outcome State Fault Refusal := alu2 (fun x y => x ^^^ y) d a b s
/-- ANDN (R41). -/
def execAndn (d a b : BitVec 5) (s : State) : Host.Outcome State Fault Refusal := alu2 (fun x y => x &&& ~~~y) d a b s
/-- ORN (R41). -/
def execOrn (d a b : BitVec 5) (s : State) : Host.Outcome State Fault Refusal := alu2 (fun x y => x ||| ~~~y) d a b s
/-- SHL (R42). -/
def execShl (d a b : BitVec 5) (s : State) : Host.Outcome State Fault Refusal := alu2 (fun x y => x <<< amount y) d a b s
/-- SHR (R42). -/
def execShr (d a b : BitVec 5) (s : State) : Host.Outcome State Fault Refusal := alu2 (fun x y => x >>> amount y) d a b s
/-- SHA (R42). -/
def execSha (d a b : BitVec 5) (s : State) : Host.Outcome State Fault Refusal := alu2 (fun x y => x.sshiftRight (amount y)) d a b s
/-- ROL (R42). -/
def execRol (d a b : BitVec 5) (s : State) : Host.Outcome State Fault Refusal := alu2 (fun x y => x.rotateLeft (amount y)) d a b s
/-- ROR (R42). -/
def execRor (d a b : BitVec 5) (s : State) : Host.Outcome State Fault Refusal := alu2 (fun x y => x.rotateRight (amount y)) d a b s
/-- SLT (R41). -/
def execSlt (d a b : BitVec 5) (s : State) : Host.Outcome State Fault Refusal := alu2 (fun x y => Word.ofBool (x.slt y)) d a b s
/-- SLTZ (R41). -/
def execSltz (d a b : BitVec 5) (s : State) : Host.Outcome State Fault Refusal := alu2 (fun x y => Word.ofBool (x.ult y)) d a b s
/-- SEQ (R41). -/
def execSeq (d a b : BitVec 5) (s : State) : Host.Outcome State Fault Refusal := alu2 (fun x y => Word.ofBool (x == y)) d a b s
/-- MIN (R41). -/
def execMin (d a b : BitVec 5) (s : State) : Host.Outcome State Fault Refusal := alu2 (fun x y => minS x y) d a b s
/-- MAX (R41). -/
def execMax (d a b : BitVec 5) (s : State) : Host.Outcome State Fault Refusal := alu2 (fun x y => maxS x y) d a b s
/-- MINZ (R41). -/
def execMinz (d a b : BitVec 5) (s : State) : Host.Outcome State Fault Refusal := alu2 (fun x y => minU x y) d a b s
/-- MAXZ (R41). -/
def execMaxz (d a b : BitVec 5) (s : State) : Host.Outcome State Fault Refusal := alu2 (fun x y => maxU x y) d a b s
/-- DIV (R41, R43, R44). -/
def execDiv (d a b : BitVec 5) (s : State) : Host.Outcome State Fault Refusal := aluDiv (fun x y => x.sdiv y) d a b s
/-- DIVZ (R41, R43, R44). -/
def execDivz (d a b : BitVec 5) (s : State) : Host.Outcome State Fault Refusal := aluDiv (fun x y => x / y) d a b s
/-- REM (R41, R43, R44). -/
def execRem (d a b : BitVec 5) (s : State) : Host.Outcome State Fault Refusal := aluDiv (fun x y => x.srem y) d a b s
/-- REMZ (R41, R43, R44). -/
def execRemz (d a b : BitVec 5) (s : State) : Host.Outcome State Fault Refusal := aluDiv (fun x y => x % y) d a b s
/-- CLZ (R41). -/
def execClz (d a : BitVec 5) (s : State) : Host.Outcome State Fault Refusal := alu1 (fun x => BitVec.ofNat 64 (leadingZeros x)) d a s
/-- CTZ (R41). -/
def execCtz (d a : BitVec 5) (s : State) : Host.Outcome State Fault Refusal := alu1 (fun x => BitVec.ofNat 64 (trailingZeros x)) d a s
/-- POPC (R41). -/
def execPopc (d a : BitVec 5) (s : State) : Host.Outcome State Fault Refusal := alu1 (fun x => BitVec.ofNat 64 (onesCount x)) d a s
/-- BSWAP (R41). -/
def execBswap (d a : BitVec 5) (s : State) : Host.Outcome State Fault Refusal := alu1 (fun x => byteSwap x) d a s
/-- ADDI (R46). -/
def execAddi (d a : BitVec 5) (i : BitVec 16) (s : State) : Host.Outcome State Fault Refusal := alu1 (fun x => x + simm i) d a s
/-- ANDI (R46). -/
def execAndi (d a : BitVec 5) (i : BitVec 16) (s : State) : Host.Outcome State Fault Refusal := alu1 (fun x => x &&& zimm i) d a s
/-- ORI (R46). -/
def execOri (d a : BitVec 5) (i : BitVec 16) (s : State) : Host.Outcome State Fault Refusal := alu1 (fun x => x ||| zimm i) d a s
/-- XORI (R46). -/
def execXori (d a : BitVec 5) (i : BitVec 16) (s : State) : Host.Outcome State Fault Refusal := alu1 (fun x => x ^^^ zimm i) d a s
/-- SLTI (R46). -/
def execSlti (d a : BitVec 5) (i : BitVec 16) (s : State) : Host.Outcome State Fault Refusal := alu1 (fun x => Word.ofBool (x.slt (simm i))) d a s
/-- SLTIZ (R46). -/
def execSltiz (d a : BitVec 5) (i : BitVec 16) (s : State) : Host.Outcome State Fault Refusal := alu1 (fun x => Word.ofBool (x.ult (zimm i))) d a s
/-- SHLI (R47). -/
def execShli (d a : BitVec 5) (n : BitVec 6) (s : State) : Host.Outcome State Fault Refusal := alu1 (fun x => x <<< n.toNat) d a s
/-- SHRI (R47). -/
def execShri (d a : BitVec 5) (n : BitVec 6) (s : State) : Host.Outcome State Fault Refusal := alu1 (fun x => x >>> n.toNat) d a s
/-- SHAI (R47). -/
def execShai (d a : BitVec 5) (n : BitVec 6) (s : State) : Host.Outcome State Fault Refusal := alu1 (fun x => x.sshiftRight n.toNat) d a s
/-- ROLI (R47). -/
def execRoli (d a : BitVec 5) (n : BitVec 6) (s : State) : Host.Outcome State Fault Refusal := alu1 (fun x => x.rotateLeft n.toNat) d a s

/-- LHI (R48). -/
def execLhi (d : BitVec 5) (i : BitVec 21) (s : State) : Host.Outcome State Fault Refusal :=
  .next (complete .plain 4 .seq (s.wg d (simm i <<< 16)))

/-- LDL (R49): a plain load of the doubleword at a fixed distance from the instruction. -/
def execLdl (d : BitVec 5) (o : BitVec 21) (s : State) : Host.Outcome State Fault Refusal :=
  issue .load 4 (do loadTo d 6 (targetOf (← pcM) o); return .seq) s

/-- EXT (R51). -/
def execExt (d a p : BitVec 5) (q : BitVec 1) (l : BitVec 6) (s : State) : Host.Outcome State Fault Refusal :=
  alu1 (fun x => wordOfInt (sextNat (fieldAt x (fieldPos p q) (fieldLen (fieldPos p q) l)) (fieldLen (fieldPos p q) l))) d a s
/-- EXTZ (R51). -/
def execExtz (d a p : BitVec 5) (q : BitVec 1) (l : BitVec 6) (s : State) : Host.Outcome State Fault Refusal :=
  alu1 (fun x => BitVec.ofNat 64 (fieldAt x (fieldPos p q) (fieldLen (fieldPos p q) l))) d a s
/-- INS (R51): the destination is also the source of the untouched bits. -/
def execIns (d a p : BitVec 5) (q : BitVec 1) (l : BitVec 6) (s : State) : Host.Outcome State Fault Refusal :=
  .next (complete .plain 4 .seq (s.wg d (insertField (s.rg d) (s.rg a) (fieldPos p q) (fieldLen (fieldPos p q) l))))

end Sys2Proof.Machine
end

