-- ==== Sys2Proof/Machine/Dispatch.lean ====
section
/-! DEFINITION. The dispatch: the meaning of each constructor of Instr, one definition an arm. -/

namespace Sys2Proof.Machine

/-- The meaning of an instruction or event in a state. -/
def exec (i : Instr) (s : State) : Host.Outcome State Fault Refusal :=
  match i with
  | .add d a b => Sys2Proof.Machine.execAdd d a b s
  | .sub d a b => Sys2Proof.Machine.execSub d a b s
  | .mul d a b => Sys2Proof.Machine.execMul d a b s
  | .mulh d a b => Sys2Proof.Machine.execMulh d a b s
  | .mulhz d a b => Sys2Proof.Machine.execMulhz d a b s
  | .div d a b => Sys2Proof.Machine.execDiv d a b s
  | .divz d a b => Sys2Proof.Machine.execDivz d a b s
  | .rem d a b => Sys2Proof.Machine.execRem d a b s
  | .remz d a b => Sys2Proof.Machine.execRemz d a b s
  | .and d a b => Sys2Proof.Machine.execAnd d a b s
  | .or d a b => Sys2Proof.Machine.execOr d a b s
  | .xor d a b => Sys2Proof.Machine.execXor d a b s
  | .andn d a b => Sys2Proof.Machine.execAndn d a b s
  | .orn d a b => Sys2Proof.Machine.execOrn d a b s
  | .shl d a b => Sys2Proof.Machine.execShl d a b s
  | .shr d a b => Sys2Proof.Machine.execShr d a b s
  | .sha d a b => Sys2Proof.Machine.execSha d a b s
  | .rol d a b => Sys2Proof.Machine.execRol d a b s
  | .ror d a b => Sys2Proof.Machine.execRor d a b s
  | .slt d a b => Sys2Proof.Machine.execSlt d a b s
  | .sltz d a b => Sys2Proof.Machine.execSltz d a b s
  | .seq d a b => Sys2Proof.Machine.execSeq d a b s
  | .min d a b => Sys2Proof.Machine.execMin d a b s
  | .max d a b => Sys2Proof.Machine.execMax d a b s
  | .minz d a b => Sys2Proof.Machine.execMinz d a b s
  | .maxz d a b => Sys2Proof.Machine.execMaxz d a b s
  | .clz d a => Sys2Proof.Machine.execClz d a s
  | .ctz d a => Sys2Proof.Machine.execCtz d a s
  | .popc d a => Sys2Proof.Machine.execPopc d a s
  | .bswap d a => Sys2Proof.Machine.execBswap d a s
  | .addi d a x_i => Sys2Proof.Machine.execAddi d a x_i s
  | .andi d a x_i => Sys2Proof.Machine.execAndi d a x_i s
  | .ori d a x_i => Sys2Proof.Machine.execOri d a x_i s
  | .xori d a x_i => Sys2Proof.Machine.execXori d a x_i s
  | .slti d a x_i => Sys2Proof.Machine.execSlti d a x_i s
  | .sltiz d a x_i => Sys2Proof.Machine.execSltiz d a x_i s
  | .shli d a n => Sys2Proof.Machine.execShli d a n s
  | .shri d a n => Sys2Proof.Machine.execShri d a n s
  | .shai d a n => Sys2Proof.Machine.execShai d a n s
  | .roli d a n => Sys2Proof.Machine.execRoli d a n s
  | .lhi d x_i => Sys2Proof.Machine.execLhi d x_i s
  | .ldl d o => Sys2Proof.Machine.execLdl d o s
  | .ext d a p q l => Sys2Proof.Machine.execExt d a p q l s
  | .extz d a p q l => Sys2Proof.Machine.execExtz d a p q l s
  | .ins d a p q l => Sys2Proof.Machine.execIns d a p q l s
  | .beq a b o => Sys2Proof.Machine.execBeq a b o s
  | .bne a b o => Sys2Proof.Machine.execBne a b o s
  | .blt a b o => Sys2Proof.Machine.execBlt a b o s
  | .bge a b o => Sys2Proof.Machine.execBge a b o s
  | .bltz a o => Sys2Proof.Machine.execBltz a o s
  | .bgez a o => Sys2Proof.Machine.execBgez a o s
  | .j o => Sys2Proof.Machine.execJ o s
  | .call o => Sys2Proof.Machine.execCall o s
  | .jr d a => Sys2Proof.Machine.execJr d a s
  | .loop a x_i => Sys2Proof.Machine.execLoop a x_i s
  | .frame len ra stg cnt rot => Sys2Proof.Machine.execFrame len ra stg cnt rot s
  | .qget a q => Sys2Proof.Machine.execQget a q s
  | .qset a q => Sys2Proof.Machine.execQset a q s
  | .qlen a q => Sys2Proof.Machine.execQlen a q s
  | .bqp a => Sys2Proof.Machine.execBqp a s
  | .bqb o => Sys2Proof.Machine.execBqb o s
  | .split x_i => Sys2Proof.Machine.execSplit x_i s
  | .aend => Sys2Proof.Machine.execAend s
  | .spawn a => Sys2Proof.Machine.execSpawn a s
  | .fork a o => Sys2Proof.Machine.execFork a o s
  | .join a o => Sys2Proof.Machine.execJoin a o s
  | .done => Sys2Proof.Machine.execDone s
  | .yield => Sys2Proof.Machine.execYield s
  | .lee n => Sys2Proof.Machine.execLee n s
  | .areg a k => Sys2Proof.Machine.execAreg a k s
  | .lnch a k q => Sys2Proof.Machine.execLnch a k q s
  | .ld d a x_s o => Sys2Proof.Machine.execLd d a x_s o s
  | .st d a x_s o => Sys2Proof.Machine.execSt d a x_s o s
  | .ldx d a b c x_s => Sys2Proof.Machine.execLdx d a b c x_s s
  | .stx d a b c x_s => Sys2Proof.Machine.execStx d a b c x_s s
  | .carve k => Sys2Proof.Machine.execCarve k s
  | .pool a => Sys2Proof.Machine.execPool a s
  | .pref a l o => Sys2Proof.Machine.execPref a l o s
  | .l1fl a => Sys2Proof.Machine.execL1fl a s
  | .l1flAll => Sys2Proof.Machine.execL1flAll s
  | .tlbw a b c => Sys2Proof.Machine.execTlbw a b c s
  | .tlbiVa a b => Sys2Proof.Machine.execTlbiVa a b s
  | .tlbiAsid b => Sys2Proof.Machine.execTlbiAsid b s
  | .tlbiAll => Sys2Proof.Machine.execTlbiAll s
  | .wret a b c k => Sys2Proof.Machine.execWret a b c k s
  | .regdone a b c => Sys2Proof.Machine.execRegdone a b c s
  | .amoAdd d a b r q w => Sys2Proof.Machine.execAmoAdd d a b r q w s
  | .amoMin d a b r q w => Sys2Proof.Machine.execAmoMin d a b r q w s
  | .amoMax d a b r q w => Sys2Proof.Machine.execAmoMax d a b r q w s
  | .amoMinz d a b r q w => Sys2Proof.Machine.execAmoMinz d a b r q w s
  | .amoMaxz d a b r q w => Sys2Proof.Machine.execAmoMaxz d a b r q w s
  | .amoAnd d a b r q w => Sys2Proof.Machine.execAmoAnd d a b r q w s
  | .amoOr d a b r q w => Sys2Proof.Machine.execAmoOr d a b r q w s
  | .amoXor d a b r q w => Sys2Proof.Machine.execAmoXor d a b r q w s
  | .amoSwap d a b r q w => Sys2Proof.Machine.execAmoSwap d a b r q w s
  | .amoCas d a b r q w => Sys2Proof.Machine.execAmoCas d a b r q w s
  | .amoFadd d a b r q w => Sys2Proof.Machine.execAmoFadd d a b r q w s
  | .l2fl a r => Sys2Proof.Machine.execL2fl a r s
  | .l2inv a r => Sys2Proof.Machine.execL2inv a r s
  | .rgrel a => Sys2Proof.Machine.execRgrel a s
  | .home a b => Sys2Proof.Machine.execHome a b s
  | .fence x_s => Sys2Proof.Machine.execFence x_s s
  | .fenceAcks => Sys2Proof.Machine.execFenceAcks s
  | .lda a c p z => Sys2Proof.Machine.execLda a c p z s
  | .stl a b p z => Sys2Proof.Machine.execStl a b p z s
  | .watch a => Sys2Proof.Machine.execWatch a s
  | .watchOff => Sys2Proof.Machine.execWatchOff s
  | .doze a c m g t => Sys2Proof.Machine.execDoze a c m g t s
  | .dozeTimeout core => Sys2Proof.Machine.execDozeTimeout core s
  | .garr a c => Sys2Proof.Machine.execGarr a c s
  | .gwait a b => Sys2Proof.Machine.execGwait a b s
  | .gquery a c => Sys2Proof.Machine.execGquery a c s
  | .gwdog a b => Sys2Proof.Machine.execGwdog a b s
  | .send a c u k => Sys2Proof.Machine.execSend a c u k s
  | .sendG a b c u k => Sys2Proof.Machine.execSendG a b c u k s
  | .sendn a b c u k => Sys2Proof.Machine.execSendn a b c u k s
  | .sendo a c u k => Sys2Proof.Machine.execSendo a c u k s
  | .sendoG a b c u k => Sys2Proof.Machine.execSendoG a b c u k s
  | .recv a b n y c => Sys2Proof.Machine.execRecv a b n y c s
  | .peek b y c => Sys2Proof.Machine.execPeek b y c s
  | .cmask c => Sys2Proof.Machine.execCmask c s
  | .cunmask c => Sys2Proof.Machine.execCunmask c s
  | .pst a b c x_s => Sys2Proof.Machine.execPst a b c x_s s
  | .pst4 a b c n => Sys2Proof.Machine.execPst4 a b c n s
  | .capld c k => Sys2Proof.Machine.execCapld c k s
  | .capldG c => Sys2Proof.Machine.execCapldG c s
  | .caprs a b c => Sys2Proof.Machine.execCaprs a b c s
  | .caprv c => Sys2Proof.Machine.execCaprv c s
  | .capmint a b c => Sys2Proof.Machine.execCapmint a b c s
  | .capq a c w => Sys2Proof.Machine.execCapq a c w s
  | .cpy a b c n => Sys2Proof.Machine.execCpy a b c n s
  | .cpy2 a n => Sys2Proof.Machine.execCpy2 a n s
  | .cput a b c o n k => Sys2Proof.Machine.execCput a b c o n k s
  | .cget a b c n k => Sys2Proof.Machine.execCget a b c n k s
  | .cbindIn a b q => Sys2Proof.Machine.execCbindIn a b q s
  | .cbindOut a b q => Sys2Proof.Machine.execCbindOut a b q s
  | .cbindOff q => Sys2Proof.Machine.execCbindOff q s
  | .vadd d a b m e => Sys2Proof.Machine.execVadd d a b m e s
  | .vsub d a b m e => Sys2Proof.Machine.execVsub d a b m e s
  | .vmul d a b m e => Sys2Proof.Machine.execVmul d a b m e s
  | .vfma d a b m e => Sys2Proof.Machine.execVfma d a b m e s
  | .vfms d a b m e => Sys2Proof.Machine.execVfms d a b m e s
  | .vmin d a b m e => Sys2Proof.Machine.execVmin d a b m e s
  | .vmax d a b m e => Sys2Proof.Machine.execVmax d a b m e s
  | .vabs d a m e => Sys2Proof.Machine.execVabs d a m e s
  | .vneg d a m e => Sys2Proof.Machine.execVneg d a m e s
  | .vdiv d a b m => Sys2Proof.Machine.execVdiv d a b m s
  | .vsqrt d a m => Sys2Proof.Machine.execVsqrt d a m s
  | .vrsq d a m => Sys2Proof.Machine.execVrsq d a m s
  | .vexp2 d a m => Sys2Proof.Machine.execVexp2 d a m s
  | .vlog2 d a m => Sys2Proof.Machine.execVlog2 d a m s
  | .vcmpEq d a b m e => Sys2Proof.Machine.execVcmpEq d a b m e s
  | .vcmpNe d a b m e => Sys2Proof.Machine.execVcmpNe d a b m e s
  | .vcmpLt d a b m e => Sys2Proof.Machine.execVcmpLt d a b m e s
  | .vcmpLe d a b m e => Sys2Proof.Machine.execVcmpLe d a b m e s
  | .vsel d a b m e => Sys2Proof.Machine.execVsel d a b m e s
  | .vand d a b m e => Sys2Proof.Machine.execVand d a b m e s
  | .vor d a b m e => Sys2Proof.Machine.execVor d a b m e s
  | .vxor d a b m e => Sys2Proof.Machine.execVxor d a b m e s
  | .vshl d a b m e => Sys2Proof.Machine.execVshl d a b m e s
  | .vshr d a b m e => Sys2Proof.Machine.execVshr d a b m e s
  | .vperm d a b m e => Sys2Proof.Machine.execVperm d a b m e s
  | .vbcast d a m e => Sys2Proof.Machine.execVbcast d a m e s
  | .vmov d a m e => Sys2Proof.Machine.execVmov d a m e s
  | .vmovToG d a k e => Sys2Proof.Machine.execVmovToG d a k e s
  | .vld d a b m n e => Sys2Proof.Machine.execVld d a b m n e s
  | .vst d a b m n e => Sys2Proof.Machine.execVst d a b m n e s
  | .vlds d a b m n e => Sys2Proof.Machine.execVlds d a b m n e s
  | .vgat d a b m n e => Sys2Proof.Machine.execVgat d a b m n e s
  | .vsca d a b m n e => Sys2Proof.Machine.execVsca d a b m n e s
  | .vcvt d a p m t e => Sys2Proof.Machine.execVcvt d a p m t e s
  | .vcvtFromFp4 d a p m e => Sys2Proof.Machine.execVcvtFromFp4 d a p m e s
  | .vquantFp4 d a b q => Sys2Proof.Machine.execVquantFp4 d a b q s
  | .vquantInt4x d a b => Sys2Proof.Machine.execVquantInt4x d a b s
  | .vdeqFp4 d a h m q e => Sys2Proof.Machine.execVdeqFp4 d a h m q e s
  | .vdeqInt4x d a h m e => Sys2Proof.Machine.execVdeqInt4x d a h m e s
  | .vredSum d a m e => Sys2Proof.Machine.execVredSum d a m e s
  | .vredMax d a m e => Sys2Proof.Machine.execVredMax d a m e s
  | .vredMin d a m e => Sys2Proof.Machine.execVredMin d a m e s
  | .vtopk d a k m e => Sys2Proof.Machine.execVtopk d a k m e s
  | .vargmax d a m e => Sys2Proof.Machine.execVargmax d a m e s
  | .vopt a => Sys2Proof.Machine.execVopt a s
  | .vectorCommandPerform core => Sys2Proof.Machine.execVectorCommandPerform core s
  | .engineCompletionDelivery core => Sys2Proof.Machine.execEngineCompletionDelivery core s
  | .mctx a b => Sys2Proof.Machine.execMctx a b s
  | .mfetch a b c o r x_s => Sys2Proof.Machine.execMfetch a b c o r x_s s
  | .mma p q n r l => Sys2Proof.Machine.execMma p q n r l s
  | .mzero t => Sys2Proof.Machine.execMzero t s
  | .mrd a b t z f => Sys2Proof.Machine.execMrd a b t z f s
  | .mwr a t => Sys2Proof.Machine.execMwr a t s
  | .mrel x_i => Sys2Proof.Machine.execMrel x_i s
  | .mrelAll => Sys2Proof.Machine.execMrelAll s
  | .mstat a => Sys2Proof.Machine.execMstat a s
  | .arrayGrant cove => Sys2Proof.Machine.execArrayGrant cove s
  | .tileFetchGrant cove => Sys2Proof.Machine.execTileFetchGrant cove s
  | .matRetire core => Sys2Proof.Machine.execMatRetire core s
  | .xdef a b c => Sys2Proof.Machine.execXdef a b c s
  | .xsend a b p bk => Sys2Proof.Machine.execXsend a b p bk s
  | .xrep a c => Sys2Proof.Machine.execXrep a c s
  | .xret a b c => Sys2Proof.Machine.execXret a b c s
  | .xown a b c q => Sys2Proof.Machine.execXown a b c q s
  | .xjoin a b n p => Sys2Proof.Machine.execXjoin a b n p s
  | .xupd a b c => Sys2Proof.Machine.execXupd a b c s
  | .xcnt a b => Sys2Proof.Machine.execXcnt a b s
  | .xq a c k => Sys2Proof.Machine.execXq a c k s
  | .selectorToken die => Sys2Proof.Machine.execSelectorToken die s
  | .selectorTokenRelease name replica => Sys2Proof.Machine.execSelectorTokenRelease name replica s
  | .selectorStepClose name => Sys2Proof.Machine.execSelectorStepClose name s
  | .replicaFillComplete name => Sys2Proof.Machine.execReplicaFillComplete name s
  | .joinEntryArrival die => Sys2Proof.Machine.execJoinEntryArrival die s
  | .joinAdd name => Sys2Proof.Machine.execJoinAdd name s
  | .updateCopyComplete name replica => Sys2Proof.Machine.execUpdateCopyComplete name replica s
  | .replicaGone name replica => Sys2Proof.Machine.execReplicaGone name replica s
  | .expertWalkRetry name => Sys2Proof.Machine.execExpertWalkRetry name s
  | .gpush a b => Sys2Proof.Machine.execGpush a b s
  | .gpop a c w => Sys2Proof.Machine.execGpop a c w s
  | .remit a c => Sys2Proof.Machine.execRemit a c s
  | .rsort a => Sys2Proof.Machine.execRsort a s
  | .rmap a d => Sys2Proof.Machine.execRmap a d s
  | .rclose a u => Sys2Proof.Machine.execRclose a u s
  | .sortEnginePerform die => Sys2Proof.Machine.execSortEnginePerform die s
  | .rput a n => Sys2Proof.Machine.execRput a n s
  | .rcfg a c r => Sys2Proof.Machine.execRcfg a c r s
  | .rstat a c r => Sys2Proof.Machine.execRstat a c r s
  | .rstatSum c => Sys2Proof.Machine.execRstatSum c s
  | .rputArrival die => Sys2Proof.Machine.execRputArrival die s
  | .reduceChunkArrival die => Sys2Proof.Machine.execReduceChunkArrival die s
  | .reduceDeadline die bucket => Sys2Proof.Machine.execReduceDeadline die bucket s
  | .trap k => Sys2Proof.Machine.execTrap k s
  | .sys k => Sys2Proof.Machine.execSys k s
  | .brk k => Sys2Proof.Machine.execBrk k s
  | .rdsr a n => Sys2Proof.Machine.execRdsr a n s
  | .wrsr a n => Sys2Proof.Machine.execWrsr a n s
  | .registerWrite management core number value => Sys2Proof.Machine.execRegisterWrite management core number value s
  | .storeBufferDrain core => Sys2Proof.Machine.execStoreBufferDrain core s
  | .blockPlacement die => Sys2Proof.Machine.execBlockPlacement die s
  | .blockEnd block => Sys2Proof.Machine.execBlockEnd block s
  | .taskStart core => Sys2Proof.Machine.execTaskStart core s
  | .urgentPreempt core => Sys2Proof.Machine.execUrgentPreempt core s
  | .urgentHoldExpiry core => Sys2Proof.Machine.execUrgentHoldExpiry core s
  | .leeWindowExpiry core => Sys2Proof.Machine.execLeeWindowExpiry core s
  | .actorFire core => Sys2Proof.Machine.execActorFire core s
  | .slackWaterPark core => Sys2Proof.Machine.execSlackWaterPark core s
  | .shipContextArrival core => Sys2Proof.Machine.execShipContextArrival core s
  | .ebb block => Sys2Proof.Machine.execEbb block s
  | .flood block => Sys2Proof.Machine.execFlood block s
  | .dirRds die line => Sys2Proof.Machine.execDirRds die line s
  | .dirRdx die line upgrade => Sys2Proof.Machine.execDirRdx die line upgrade s
  | .dirWb die line => Sys2Proof.Machine.execDirWb die line s
  | .dirCe die line => Sys2Proof.Machine.execDirCe die line s
  | .dirInvack die line => Sys2Proof.Machine.execDirInvack die line s
  | .dirOwnerReply die line => Sys2Proof.Machine.execDirOwnerReply die line s
  | .ownerFwds die line => Sys2Proof.Machine.execOwnerFwds die line s
  | .ownerFwdx die line => Sys2Proof.Machine.execOwnerFwdx die line s
  | .ownerRecall die line => Sys2Proof.Machine.execOwnerRecall die line s
  | .inv die line => Sys2Proof.Machine.execInv die line s
  | .recallSlow line => Sys2Proof.Machine.execRecallSlow line s
  | .hostMemRequest line exclusive => Sys2Proof.Machine.execHostMemRequest line exclusive s
  | .copyCommandPerform core => Sys2Proof.Machine.execCopyCommandPerform core s
  | .streamElement core queue => Sys2Proof.Machine.execStreamElement core queue s
  | .messageArrival die index => Sys2Proof.Machine.execMessageArrival die index s
  | .bounce die index => Sys2Proof.Machine.execBounce die index s
  | .creditArrival die index => Sys2Proof.Machine.execCreditArrival die index s
  | .postedStoreArrival die index => Sys2Proof.Machine.execPostedStoreArrival die index s
  | .nibbleStoreArrival die index => Sys2Proof.Machine.execNibbleStoreArrival die index s
  | .cgetRequest die index => Sys2Proof.Machine.execCgetRequest die index s
  | .journalAck die index => Sys2Proof.Machine.execJournalAck die index s
  | .journalRefusal die index => Sys2Proof.Machine.execJournalRefusal die index s
  | .ackTimeout core index => Sys2Proof.Machine.execAckTimeout core index s
  | .spillRetry die stop => Sys2Proof.Machine.execSpillRetry die stop s
  | .linlosArrival source die => Sys2Proof.Machine.execLinlosArrival source die s
  | .flitCrcFail link => Sys2Proof.Machine.execFlitCrcFail link s
  | .linkRetrain link => Sys2Proof.Machine.execLinkRetrain link s
  | .tidePoolHoldExpiry die packet => Sys2Proof.Machine.execTidePoolHoldExpiry die packet s
  | .lnkctlFence mask => Sys2Proof.Machine.execLnkctlFence mask s
  | .lnkctlQuiesce part value => Sys2Proof.Machine.execLnkctlQuiesce part value s
  | .lnkctlDrain part => Sys2Proof.Machine.execLnkctlDrain part s
  | .lnkctlClear part => Sys2Proof.Machine.execLnkctlClear part s
  | .lnkctlEpadv part => Sys2Proof.Machine.execLnkctlEpadv part s
  | .timeSyncLoss die => Sys2Proof.Machine.execTimeSyncLoss die s
  | .tideTransit port => Sys2Proof.Machine.execTideTransit port s
  | .pathDown peer path => Sys2Proof.Machine.execPathDown peer path s
  | .peerDown peer => Sys2Proof.Machine.execPeerDown peer s
  | .peerUp peer => Sys2Proof.Machine.execPeerUp peer s
  | .orderedFlagArrival die index => Sys2Proof.Machine.execOrderedFlagArrival die index s
  | .orderedFlagRelease die => Sys2Proof.Machine.execOrderedFlagRelease die s
  | .gownWrite part index value => Sys2Proof.Machine.execGownWrite part index value s
  | .gjoinJoin group core => Sys2Proof.Machine.execGjoinJoin group core s
  | .gjoinLeave group core => Sys2Proof.Machine.execGjoinLeave group core s
  | .groupWatchdogExpiry group => Sys2Proof.Machine.execGroupWatchdogExpiry group s
  | .gateAppend die => Sys2Proof.Machine.execGateAppend die s
  | .trapAction core bank => Sys2Proof.Machine.execTrapAction core bank s
  | .trapRecordDelivery die => Sys2Proof.Machine.execTrapRecordDelivery die s
  | .tselWrite core value => Sys2Proof.Machine.execTselWrite core value s
  | .tctlResume core => Sys2Proof.Machine.execTctlResume core s
  | .tctlSkip core => Sys2Proof.Machine.execTctlSkip core s
  | .tctlKill core => Sys2Proof.Machine.execTctlKill core s
  | .tctlHalt core => Sys2Proof.Machine.execTctlHalt core s
  | .tctlStep core => Sys2Proof.Machine.execTctlStep core s
  | .tctlIcache core => Sys2Proof.Machine.execTctlIcache core s
  | .coreWatchdog core => Sys2Proof.Machine.execCoreWatchdog core s
  | .pmapWrite part die value => Sys2Proof.Machine.execPmapWrite part die value s
  | .pasidWrite part value => Sys2Proof.Machine.execPasidWrite part value s
  | .rcoreRun die => Sys2Proof.Machine.execRcoreRun die s
  | .gangSwitch part => Sys2Proof.Machine.execGangSwitch part s
  | .gangSwitchOverrun part => Sys2Proof.Machine.execGangSwitchOverrun part s
  | .deviceReset => Sys2Proof.Machine.execDeviceReset s
  | .hostReset => Sys2Proof.Machine.execHostReset s
  | .hostLinkLoss => Sys2Proof.Machine.execHostLinkLoss s
  | .prgResponse cove ticket success => Sys2Proof.Machine.execPrgResponse cove ticket success s
  | .firmwareGo => Sys2Proof.Machine.execFirmwareGo s
  | .attestGo => Sys2Proof.Machine.execAttestGo s
  | .attestReportReady => Sys2Proof.Machine.execAttestReportReady s
  | .launchWindowWrite offset size record => Sys2Proof.Machine.execLaunchWindowWrite offset size record s
  | .hourBoundary => Sys2Proof.Machine.execHourBoundary s
  | .memoryError kind place address correctable => Sys2Proof.Machine.execMemoryError kind place address correctable s
  | .throttleStart => Sys2Proof.Machine.execThrottleStart s
  | .throttleEnd => Sys2Proof.Machine.execThrottleEnd s
  | .hostLinkReturn => Sys2Proof.Machine.execHostLinkReturn s
  | .pathUp peer path => Sys2Proof.Machine.execPathUp peer path s
  | .cxlCacheInvalidation line shared => Sys2Proof.Machine.execCxlCacheInvalidation line shared s
  | .bringUpComplete why => Sys2Proof.Machine.execBringUpComplete why s

end Sys2Proof.Machine
end

