-- ==== Sys2Proof/Machine/Turn.lean ====
section
/-! DEFINITION. One turn of the schedule (notes/assumptions/3.md): an agent issues its next instruction, an event of the opcode
table happens, or something arrives from outside. And where a program stands that is loaded from outside
(notes/assumptions/2.md). -/

namespace Sys2Proof.Machine

/-- May an agent issue: its core's running task is there, its A sequencer is active, with no words of a frame left to check again, and
no gang switch has stopped it, but for an instruction that it finds issued (R54, R56, R72, R87, R416)? -/
def State.mayIssue (s : State) (c : Nat) (a : Bool) : Bool :=
  let k := s.coreAt c
  isCore c && (s.coreGoes c || (k.bank (k.b1.status == .running)).begins) &&
    (match k.b1.status with
     | .running => !a
     | .waitsRecord => false
     | _ => k.b0.status == .running && (!a || (k.b0.a.active && !k.b0.frame.recheck)))

/-- A pending asynchronous cause is taken at a boundary (R418): the others stay pending. Its record names the sequencer at whose turn
it is taken, and that one's PC (notes/assumptions/64.md). -/
def takePending (c : Cause) (s : State) : State :=
  let s := s.modTask fun t => { t with pending := t.pending.filter (· ≠ c) }
  takeTrap s.cur.core s.urgent { c with aSeq := s.cur.a } s

/-- The current agent fetches its next instruction and executes it (R26, R27). -/
def runNext (s : State) : Host.Outcome State Fault Refusal :=
  match fetchInstr s with
  | .ok i t => exec i t
  | .error (.trap c) t => .next (takeTrap s.cur.core s.urgent { c with aSeq := s.cur.a } t)
  | .error (.fault f) _ => .fault f
  | .error .stall t => .next t
  | .error (.ship l ea) t => .next (shipTask s.cur.core s.urgent l ea t)
  | .error _ _ => .next s

/-- An agent's turn: an instruction issued that waits (R165, R169), slack water met (R73), a halt by the supervisor (R406) or a pending
cause at the boundary (R418), or its next instruction. -/
def issueTurn (c : Nat) (a : Bool) (s : State) : Host.Outcome State Fault Refusal :=
  if s.mayIssue c a then
    let s := { s with cur := { core := c, a := a } }
    if s.task.begunOf a ≠ 0 then runNext s
    else if !a && (s.coreAt c).slackDue s.urgent then .next (slackPark c s.urgent s)
    else if s.task.halting then .next ((s.modTask fun t => { t with halting := false }).parkTask c s.urgent { why := .halt })
    else match s.task.nextPending with
      | some x => .next (takePending x s)
      | none => runNext s
  else .next s

/-- An event's turn. -/
def eventTurn (i : Instr) (s : State) : Host.Outcome State Fault Refusal := if i.encoded then .next s else exec i s

/-- What a turn of the schedule does. -/
def takeTurn (t : Turn) (s : State) : Host.Outcome State Fault Refusal :=
  match t with
  | .issue c a => issueTurn c a s
  | .event i => eventTurn i s
  | .tideIn port p => .next { s with tideIn := tabPut s.tideIn port (tabGet s.tideIn port [] ++ [p]) }
  | .tideSent port => .next (releaseStranded { s with tideOut := tabPut s.tideOut port ((tabGet s.tideOut port []).drop 1) })
  | .chunkIn p => .next (chunkArrives p s)
  | .chunkSent port => .next (chunkLeaves port s)
  | .sensors power temperature =>
    .next { s with host := { s.host.noteHeat (s.now + Config.elapsed s.tick) with power := power % 4096, temp := temperature % 256 } }

/-- The first turn of the schedule; with no schedule, the current agent issues. -/
def nextTurn (s : State) : Host.Outcome State Fault Refusal :=
  match s.sched with
  | t :: r => takeTurn t { s with sched := r }
  | [] => issueTurn s.cur.core s.cur.a s

/-- A next state with what stands in step with it brought up to date. -/
def settled (o : Host.Outcome State Fault Refusal) : Host.Outcome State Fault Refusal :=
  match o with
  | .next t => .next t.settle
  | x => x

/-- Where a loaded program stands: virtual and physical address 0x10000. -/
def programBase : Nat := 0x10000

/-- The TLB entry that maps the program: V, R, W, X and U, ASID 0, the page of d0's HBM. -/
def programEntry : TlbEntry := { w0 := 1#64, w1 := 0x1F000000001#64 }

/-- The core that runs a loaded instruction: a work core, or the routing core of d0 for what only that has (R360). -/
def programCore (i : Option Instr) : Nat :=
  match i with
  | some i => if allowedHere 0 false i then 0 else 9
  | none => 0

/-- The state with a running task at the program's base in bank 0 of a core, and the bytes there. -/
def placeProgram (c : Nat) (bytes : List Byte) (s : State) : State :=
  let s := s.modCore c fun k => { k with
    b0 := { status := .running, tid := s.nextTid, priv := true, pc := BitVec.ofNat 64 programBase }
    b1 := {}
    utlb := []
    icache := []
    icacheFrom := s.stores }
  let s := s.modCove (coveOf c) fun v => { v with tlb := [programEntry] }
  { s with mem := cellsSet s.mem programBase bytes, nextTid := s.nextTid + 1, cur := { core := c }, sched := [] }

end Sys2Proof.Machine
end

