-- ==== Sys2Proof/Machine/Step.lean ====
section
/-! DEFINITION. The step of the machine, and the load of one instruction where it fetches next. -/

namespace Sys2Proof.Machine

/-- One step: the next turn, and what stands in step with the state. -/
def step (s : State) : Host.Outcome State Fault Refusal := settled (nextTurn s)

/-- The state with one instruction stored where the step fetches next, and a running task there (notes/assumptions/2.md). -/
def State.withFetchWord (s : State) (nbits w : Nat) : State :=
  placeProgram (programCore (decodeTableWord nbits w)) (numberBytes 8 (w % 2 ^ nbits)) s

end Sys2Proof.Machine
end

