-- ==== Sys2Proof/Safety.lean ====
section
/-! DEFINITION. What a run is, what counts as safe, and the words in which statements say what an instruction leaves as it was. -/

namespace Sys2Proof.Machine

/-- One state reaches another by steps that answer a next state. -/
inductive Reaches : State → State → Prop where
  | refl (s : State) : Reaches s s
  | tail {s t u : State} : Reaches s t → step t = .next u → Reaches s u

/-- A state is safe when the next step neither faults nor is refused. -/
def State.Safe (s : State) : Prop := ∃ t, step s = .next t

/-- The memory of a state is in its canonical form. -/
def State.Canonical (s : State) : Prop := Memory.wf s.mem = true

/-- Every byte of memory reads as before. -/
def SameMemory (s t : State) : Prop := ∀ a, cellGet t.mem a = cellGet s.mem a

/-- Every byte of memory outside the `n` bytes from `lo` reads as before. -/
def SameMemoryBut (lo n : Nat) (s t : State) : Prop := ∀ a, a < lo ∨ lo + n ≤ a → cellGet t.mem a = cellGet s.mem a

/-- Nothing but the current core has changed. -/
def OnlyCore (s t : State) : Prop := t = s.setCore s.cur.core (t.coreAt s.cur.core)

/-- Nothing but the running task of the current core has changed. -/
def OnlyTask (s t : State) : Prop := t = s.setTask t.task

/-- Of a task only what the issue of one instruction may change has changed: the general registers, the program counter and its
loop and frame, the spin detector, the sheltered window, the single step, and what is noted of the instruction that it is at. -/
def IssueOnly (t u : Task) : Prop :=
  u = { t with
    g := u.g, pc := u.pc, via := u.via, lc := u.lc, lcNext := u.lcNext, frame := u.frame, a := u.a
    spin := u.spin, lee := u.lee, stepping := u.stepping, shipNoted := u.shipNoted, shipTo := u.shipTo
    loadNoted := u.loadNoted, begun := u.begun, begunA := u.begunA }

/-- The sequencer that does not issue is as it was: A's copy while E issues; E's registers, program counter, loop and frame while
A issues. -/
def OtherSequencerSame (s t : State) : Prop :=
  if s.cur.a then
    t.task.g = s.task.g ∧ t.task.pc = s.task.pc ∧ t.task.lc = s.task.lc ∧ t.task.frame = s.task.frame
  else t.task.a = s.task.a

/-- The frame of an instruction that only computes: nothing but the running task, of it nothing but what an issue changes, the
other sequencer as it was, every byte of memory as before. -/
def ComputeFrame (s t : State) : Prop :=
  OnlyTask s t ∧ IssueOnly s.task t.task ∧ OtherSequencerSame s t ∧ SameMemory s t

/-- A general register has its new value (g0 stays zero) and every other one its old value. -/
def RegIs (s t : State) (d : BitVec 5) (v : Word) : Prop :=
  t.rg d = (if d = 0 then 0 else v) ∧ ∀ j, j ≠ d → t.rg j = s.rg j

/-- No general register has changed. -/
def RegsSame (s t : State) : Prop := ∀ j, t.rg j = s.rg j

/-- The program counter of the issuing sequencer after an instruction of `len` bytes completes in sequence: the loop of R67 and
the passes of R71 counted. -/
def State.inSequence (s : State) (len : Nat) : Word :=
  if s.cur.a then (s.task.advanceA len).a.pc else (s.task.advance len).pc

/-- The loop registers of the issuing sequencer (R65): count, start, end. -/
def State.loopRegs (s : State) : Word × Word × Word :=
  if s.cur.a then (s.task.a.lc, s.task.a.ls, s.task.a.le) else (s.task.lc, s.task.ls, s.task.le)

/-- The issuing sequencer is in no frame body: A never is (R70, R71). -/
def State.Straight (s : State) : Prop := s.cur.a = true ∨ s.task.frame.act = false

/-- The trap of a precise cause is taken against the issuing task on the state `u`. -/
def TakesTrap (i : Instr) (s u : State) (code : Nat) (addr : Word) : Prop :=
  exec i s = .next (takeTrap s.cur.core s.urgent { code := code, kind := .p, addr := addr, aSeq := s.cur.a } u)

/-- An instruction completes in sequence on the state `u` and writes no register; of its next state `P` holds. -/
def GoesOn (i : Instr) (s u : State) (P : State → Prop) : Prop :=
  ∃ t, exec i s = .next t ∧ RegsSame u t ∧ t.pc = u.inSequence 4 ∧ P t

/-- An instruction completes in sequence on the state `u` and writes one register; of its next state `P` holds. -/
def GoesOnWith (i : Instr) (s u : State) (d : BitVec 5) (v : Word) (P : State → Prop) : Prop :=
  ∃ t, exec i s = .next t ∧ RegIs u t d v ∧ t.pc = u.inSequence 4 ∧ P t

/-- An event happens: it answers a next state, of which `P` holds. -/
def Happens (i : Instr) (s : State) (P : State → Prop) : Prop := ∃ t, exec i s = .next t ∧ P t

/-- Every core but one is as it was. -/
def OtherCoresSame (c : Nat) (s t : State) : Prop := ∀ x, x ≠ c → t.coreAt x = s.coreAt x

/-- No core has changed. -/
def CoresSame (s t : State) : Prop := ∀ x, t.coreAt x = s.coreAt x

/-- A packet enters die `d` at its source (R272, R273): its ring, behind what is there, on the loop that its class selects; while its
partition is quiesced it is held before the ring instead (R283). -/
def EntersRing (u t : State) (d : Nat) (p : Packet) : Prop :=
  ((u.partAt p.part).quiesce = false → (t.dieAt d).ring = (u.dieAt d).ring ++ [{ loop := u.loopFor d p, packet := p }]) ∧
  ((u.partAt p.part).quiesce = true → (t.dieAt d).quiet = (u.dieAt d).quiet ++ [p])

/-- A packet starts on die `d` (R246, R286): one for this device as it is, one for another device with the path that it takes, of
those that are up the one with the fewest bytes queued. -/
def StartsFrom (u t : State) (d : Nat) (p : Packet) : Prop :=
  (p.home.isSome = true ∨ epDevice p.ep = u.device → EntersRing u t d p) ∧
  (p.home = none → epDevice p.ep ≠ u.device → ∀ k, u.bestPath (epDevice p.ep) = some k →
    ∃ (x : TideInfo) (f : Option Nat), x.device = epDevice p.ep ∧ x.path = k ∧
      EntersRing u t d { p with tide := some x, flag := f })

end Sys2Proof.Machine
end

