-- ==== Sys2Proof/Certificates/Slice0/Obligations.lean ====
section
/-! DEFINITION. The statements about the model. Each obligation conjoins the clauses that precede it; a clause takes as hypotheses
the outcomes of the shared operations it names (a drain, a translation, a read of memory), so that it holds of every state. "log n" is notes/assumptions/n.md, where the model chose or read. -/

open Sys2Proof Sys2Proof.Machine

/-- R38, R40 and R41: what each ALU instruction of two sources writes; x and y are the words of g[a] and g[b], read before the
destination is written. -/
def twoSourceRows (d a b : BitVec 5) (x y : Word) : List (Instr × Word) :=
  let n := y.toNat % 64
  [ (.add d a b, x + y), (.sub d a b, x - y), (.mul d a b, x * y),
    (.mulh d a b, BitVec.ofInt 64 (x.toInt * y.toInt / 2 ^ 64)), (.mulhz d a b, BitVec.ofNat 64 (x.toNat * y.toNat / 2 ^ 64)),
    (.and d a b, x &&& y), (.or d a b, x ||| y), (.xor d a b, x ^^^ y), (.andn d a b, x &&& ~~~y), (.orn d a b, x ||| ~~~y),
    (.shl d a b, BitVec.ofNat 64 (x.toNat * 2 ^ n)), (.shr d a b, BitVec.ofNat 64 (x.toNat / 2 ^ n)),
    (.sha d a b, BitVec.ofInt 64 (x.toInt / 2 ^ n)),
    (.rol d a b, (x <<< n) ||| (x >>> (64 - n))), (.ror d a b, (x >>> n) ||| (x <<< (64 - n))),
    (.slt d a b, if x.toInt < y.toInt then 1 else 0), (.sltz d a b, if x.toNat < y.toNat then 1 else 0),
    (.seq d a b, if x = y then 1 else 0),
    (.min d a b, if x.toInt ≤ y.toInt then x else y), (.max d a b, if x.toInt ≥ y.toInt then x else y),
    (.minz d a b, if x.toNat ≤ y.toNat then x else y), (.maxz d a b, if x.toNat ≥ y.toNat then x else y) ]

/-- R41, R42: every ALU instruction of two sources but the divisions completes in every state whose task is not single-stepped,
with the result of its row; g0 discards it; no other register, no other part of the state and no byte of memory changes, and the
program counter goes on in sequence. -/
def Obligations.TwoSourceAluWritesItsRow : Prop :=
  ∀ (s : State) (d a b : BitVec 5), s.task.stepping = false →
    ∀ p ∈ twoSourceRows d a b (s.rg a) (s.rg b),
      ∃ t, exec p.1 s = .next t ∧ RegIs s t d p.2 ∧ t.pc = s.inSequence 4 ∧ ComputeFrame s t

/-- R41, R44: with a divisor that is not zero, the divisions and remainders write the truncated signed, or the unsigned, quotient
or remainder modulo 2^64. -/
def Obligations.DivisionsWriteQuotientAndRemainder : Prop :=
  ∀ (s : State) (d a b : BitVec 5), s.task.stepping = false → s.rg b ≠ 0 →
    ∀ p ∈ [ (Instr.div d a b, BitVec.ofInt 64 ((s.rg a).toInt.tdiv (s.rg b).toInt)),
            (Instr.divz d a b, BitVec.ofNat 64 ((s.rg a).toNat / (s.rg b).toNat)),
            (Instr.rem d a b, BitVec.ofInt 64 ((s.rg a).toInt - (s.rg b).toInt * (s.rg a).toInt.tdiv (s.rg b).toInt)),
            (Instr.remz d a b, BitVec.ofNat 64 ((s.rg a).toNat % (s.rg b).toNat)) ],
      ∃ t, exec p.1 s = .next t ∧ RegIs s t d p.2 ∧ t.pc = s.inSequence 4 ∧ ComputeFrame s t

/-- R43: with a divisor of zero the four divisions take the trap of cause 0x3A, precisely, on the state as it was. -/
def Obligations.DivisionByZeroTakesItsTrap : Prop :=
  ∀ (s : State) (d a b : BitVec 5), s.rg b = 0 →
    ∀ i ∈ [Instr.div d a b, .divz d a b, .rem d a b, .remz d a b],
      exec i s = .next (takeTrap s.cur.core s.urgent { code := 0x3A, kind := .p, aSeq := s.cur.a } s)

/-- R41: the counting instructions and the byte swap. clz is 64 less the place above the highest 1 bit, ctz the place of the lowest
1 bit (64 of zero), popc the number of 1 bits, and byte k of bswap is byte 7 - k of the source. -/
def Obligations.OneSourceAluCountsAndSwaps : Prop :=
  ∀ (s : State) (d a : BitVec 5), s.task.stepping = false →
    (∃ t n, exec (.clz d a) s = .next t ∧ RegIs s t d (BitVec.ofNat 64 n) ∧ t.pc = s.inSequence 4 ∧ ComputeFrame s t ∧
      n ≤ 64 ∧ (∀ i, 64 - n ≤ i → (s.rg a).getLsbD i = false) ∧ (n < 64 → (s.rg a).getLsbD (63 - n) = true)) ∧
    (∃ t n, exec (.ctz d a) s = .next t ∧ RegIs s t d (BitVec.ofNat 64 n) ∧ t.pc = s.inSequence 4 ∧ ComputeFrame s t ∧
      n ≤ 64 ∧ (∀ i, i < n → (s.rg a).getLsbD i = false) ∧ (n < 64 → (s.rg a).getLsbD n = true)) ∧
    (∃ t n, exec (.popc d a) s = .next t ∧ RegIs s t d (BitVec.ofNat 64 n) ∧ t.pc = s.inSequence 4 ∧ ComputeFrame s t ∧
      n = ((List.range 64).map fun i => ((s.rg a).getLsbD i).toNat).sum) ∧
    (∃ t v, exec (.bswap d a) s = .next t ∧ RegIs s t d v ∧ t.pc = s.inSequence 4 ∧ ComputeFrame s t ∧
      ∀ k, k < 8 → v.extractLsb' (8 * k) 8 = (s.rg a).extractLsb' (8 * (7 - k)) 8)

/-- R46 to R51: what the immediate forms and the bit fields write; x is the word of g[a], z that of g[d], pos and len the field's
place and length, which stops at bit 63. -/
def immediateRows (d a : BitVec 5) (i : BitVec 16) (n : BitVec 6) (l : BitVec 21) (p : BitVec 5) (q : BitVec 1) (x z : Word) :
    List (Instr × Word) :=
  let pos := p.toNat + 32 * q.toNat
  let len := min (n.toNat + 1) (64 - pos)
  let f := x.toNat / 2 ^ pos % 2 ^ len
  [ (.addi d a i, x + i.signExtend 64), (.andi d a i, x &&& i.zeroExtend 64), (.ori d a i, x ||| i.zeroExtend 64),
    (.xori d a i, x ^^^ i.zeroExtend 64), (.slti d a i, if x.toInt < i.toInt then 1 else 0),
    (.sltiz d a i, if x.toNat < i.toNat then 1 else 0),
    (.shli d a n, BitVec.ofNat 64 (x.toNat * 2 ^ n.toNat)), (.shri d a n, BitVec.ofNat 64 (x.toNat / 2 ^ n.toNat)),
    (.shai d a n, BitVec.ofInt 64 (x.toInt / 2 ^ n.toNat)), (.roli d a n, (x <<< n.toNat) ||| (x >>> (64 - n.toNat))),
    (.lhi d l, BitVec.ofInt 64 (l.toInt * 2 ^ 16)),
    (.ext d a p q n, BitVec.ofInt 64 (if f < 2 ^ (len - 1) then f else (f : Int) - 2 ^ len)),
    (.extz d a p q n, BitVec.ofNat 64 f),
    (.ins d a p q n, BitVec.ofNat 64 (z.toNat - z.toNat / 2 ^ pos % 2 ^ len * 2 ^ pos + x.toNat % 2 ^ len * 2 ^ pos)) ]

/-- R46, R47, R48, R51: every immediate form, lhi and the bit-field instructions complete with the result of their rows. -/
def Obligations.ImmediateFormsWriteTheirRow : Prop :=
  ∀ (s : State) (d a p : BitVec 5) (q : BitVec 1) (i : BitVec 16) (n : BitVec 6) (l : BitVec 21), s.task.stepping = false →
    ∀ r ∈ immediateRows d a i n l p q (s.rg a) (s.rg d),
      ∃ t, exec r.1 s = .next t ∧ RegIs s t d r.2 ∧ t.pc = s.inSequence 4 ∧ ComputeFrame s t

/-- R62 to R64: where each branch, jump and call goes, and what it writes. Each row is an instruction, whether control is
transferred, its target, and the register written with its value (g0 for none); p is the address of the instruction. -/
def branchRows (a b d : BitVec 5) (o : BitVec 16) (m : BitVec 26) (x y p : Word) : List (Instr × Bool × Word × BitVec 5 × Word) :=
  let near := p + BitVec.ofInt 64 (4 * o.toInt)
  let far := p + BitVec.ofInt 64 (4 * m.toInt)
  [ (.beq a b o, decide (x = y), near, 0, 0), (.bne a b o, decide (x ≠ y), near, 0, 0),
    (.blt a b o, decide (x.toInt < y.toInt), near, 0, 0), (.bge a b o, decide (y.toInt ≤ x.toInt), near, 0, 0),
    (.bltz a o, decide (x.toInt < 0), near, 0, 0), (.bgez a o, decide (0 ≤ x.toInt), near, 0, 0),
    (.j m, true, far, 0, 0), (.call m, true, far, 31, p + 4), (.jr d a, true, x, d, p + 4) ]

/-- R62, R63, R64: a branch, jump or call goes to its target when its condition holds and on in sequence otherwise; call writes
g31, jr its link register, the others nothing. The target is read before the link is written. -/
def Obligations.BranchesGoWhereTheirRowSays : Prop :=
  ∀ (s : State) (a b d : BitVec 5) (o : BitVec 16) (m : BitVec 26), s.task.stepping = false →
    ∀ r ∈ branchRows a b d o m (s.rg a) (s.rg b) s.pc,
      ∃ t, exec r.1 s = .next t ∧ RegIs s t r.2.2.2.1 r.2.2.2.2 ∧
        t.pc = (if r.2.1 then r.2.2.1 else s.inSequence 4) ∧ ComputeFrame s t

/-- R65, R66: with no loop active, loop of a count of zero skips the body, and of any other count starts a loop whose body is the
words from p + 4 to p + 4 × imm16 - 4. -/
def loopStartsOrSkips : Prop :=
  ∀ (s : State) (a : BitVec 5) (i : BitVec 16), s.task.stepping = false → s.loopRegs.1 = 0 → 2 ≤ i.toNat → s.Straight →
    (s.rg a = 0 → ∃ t, exec (.loop a i) s = .next t ∧ RegsSame s t ∧ t.pc = s.pc + 4 * i.zeroExtend 64 ∧ t.loopRegs.1 = 0 ∧
      ComputeFrame s t) ∧
    (s.rg a ≠ 0 → ∃ t, exec (.loop a i) s = .next t ∧ RegsSame s t ∧ t.pc = s.pc + 4 ∧
      t.loopRegs = (s.rg a, s.pc + 4, s.pc + 4 * i.zeroExtend 64 - 4) ∧ OnlyTask s t ∧ SameMemory s t)

/-- R66: with a loop active, loop takes the trap of cause 0x09. -/
def loopInsideLoopTakesItsTrap : Prop :=
  ∀ (s : State) (a : BitVec 5) (i : BitVec 16), s.loopRegs.1 ≠ 0 → TakesTrap (.loop a i) s s 0x09 0

/-- R67: the instruction at le completes in sequence, with no write of lc pending: the count goes down by one, and control returns
to ls until it is zero. Said of add, the instruction of the rules' own loop; the completion is shared by every instruction. -/
def endOfBodyTestReturnsOrFallsThrough : Prop :=
  ∀ (s : State) (d a b : BitVec 5), s.task.stepping = false → s.cur.a = false → s.task.frame.act = false → s.task.lcNext = none →
    s.task.lc ≠ 0 → s.pc = s.task.le →
    ∃ t, exec (.add d a b) s = .next t ∧ t.task.lc = s.task.lc - 1 ∧
      t.pc = (if s.task.lc = 1 then s.task.le + 4 else s.task.ls)

/-- R65 to R67: loops start, skip, refuse to nest, and count at the end of their body. -/
def Obligations.LoopsRunTheirBody : Prop := loopStartsOrSkips ∧ loopInsideLoopTakesItsTrap ∧ endOfBodyTestReturnsOrFallsThrough

/-- R69, R71: a frame whose body is captured without a cause starts its first pass at p + 8 with N passes left, or, with N of zero,
is skipped. -/
def frameCapturesItsBodyAndStarts : Prop :=
  ∀ (s u : State) (len ra : BitVec 5) (stg : BitVec 4) (cnt : BitVec 16) (rot : BitVec 5) (body : List (BitVec 32)),
    captureBody (s.pc + 8) (len.toNat + 1) s = .ok body u → u.task.stepping = false → u.cur.a = false →
    let n := if ra ≠ 0 then u.rg ra else cnt.zeroExtend 64 + 1
    (n = 0 → ∃ t, exec (.frame len ra stg cnt rot) s = .next t ∧ t.pc = s.pc + 8 + BitVec.ofNat 64 (4 * (len.toNat + 1)) ∧
      RegsSame u t ∧ ComputeFrame u t) ∧
    (n ≠ 0 → ∃ t, exec (.frame len ra stg cnt rot) s = .next t ∧ t.pc = s.pc + 8 ∧ RegsSame u t ∧ ComputeFrame u t ∧
      t.task.frame = { act := true, base := s.pc + 8, len := len.toNat, stg := stg.toNat, rot := rot.toNat, left := n, body := body })

/-- R71: an instruction that completes inside a frame moves to the next body word, from the last one to the first of the next pass,
and after the last pass the frame is inactive and control goes on after the body. Said of add. -/
def framePassesRunInOrder : Prop :=
  ∀ (s : State) (d a b : BitVec 5), s.task.stepping = false → s.cur.a = false → s.task.frame.act = true → s.task.lc = 0 →
    ∃ t, exec (.add d a b) s = .next t ∧
      (s.task.frame.idx < s.task.frame.len →
        t.pc = s.pc + 4 ∧ t.task.frame = { s.task.frame with idx := s.task.frame.idx + 1 }) ∧
      (¬ s.task.frame.idx < s.task.frame.len → s.task.frame.left ≠ 1 → t.pc = s.task.frame.base ∧
        t.task.frame = { s.task.frame with idx := 0, k := s.task.frame.k + 1, left := s.task.frame.left - 1 }) ∧
      (¬ s.task.frame.idx < s.task.frame.len → s.task.frame.left = 1 → t.pc = s.pc + 4 ∧ t.task.frame = {})

/-- R69, R71: a frame captures its body and runs its passes in order. -/
def Obligations.FramesRunTheirPasses : Prop := frameCapturesItsBodyAndStarts ∧ framePassesRunInOrder

/-- R60: what a queue instruction leaves: nothing but the running task changes, and of it nothing but what an issue changes, the
queues, bq and the streams. -/
def QueueFrame (s t : State) : Prop :=
  OnlyTask s t ∧ OtherSequencerSame s t ∧ SameMemory s t ∧
    IssueOnly { s.task with q := t.task.q, bq := t.task.bq, streams := t.task.streams } t.task

/-- R58, R60: for a normal task, qget of q0 to q3 pops the oldest entry, qset pushes where there is room, bqp pushes 1 for a word
that is not zero, bqb pops an outcome and branches on a 1; for q4 to q7, qget pops the next element of an inbound stream and ends
the stream with its last one, qset pushes to an outbound stream with room, and both take the trap of cause 0x1F where the queue is
unbound or its stream has faulted; qlen reads how many entries are held, 0 for an unbound q4 to q7. -/
def Obligations.QueueInstructionsPushAndPop : Prop :=
  ∀ (s : State) (a : BitVec 5) (q : BitVec 3) (o : BitVec 16), s.task.stepping = false → s.urgent = false →
    (∀ (h : q.toNat < 4) v r, s.task.q[q.toNat] = v :: r → ∃ t, exec (.qget a q) s = .next t ∧ RegIs s t a v ∧
      t.pc = s.inSequence 4 ∧ t.task.q = s.task.q.set q.toNat r ∧ t.task.bq = s.task.bq ∧ t.task.streams = s.task.streams ∧
      QueueFrame s t) ∧
    (4 ≤ q.toNat → ∀ x v r, tabFind s.task.streams q.toNat = some x → x.inward = true → x.fault = false → x.queue = v :: r →
      ∃ t, exec (.qget a q) s = .next t ∧ RegIs s t a v ∧ t.pc = s.inSequence 4 ∧ t.task.q = s.task.q ∧ t.task.bq = s.task.bq ∧
        tabFind t.task.streams q.toNat =
          (if x.handed + 1 = x.count then tabFind (tabDel s.task.streams q.toNat) q.toNat
           else some { x with queue := r, handed := x.handed + 1 }) ∧ QueueFrame s t) ∧
    (∀ h : q.toNat < 4, (s.task.q[q.toNat]).length < 8 → ∃ t, exec (.qset a q) s = .next t ∧ RegsSame s t ∧
      t.pc = s.inSequence 4 ∧ t.task.q = s.task.q.set q.toNat (s.task.q[q.toNat] ++ [s.rg a]) ∧ t.task.bq = s.task.bq ∧
      t.task.streams = s.task.streams ∧ QueueFrame s t) ∧
    (4 ≤ q.toNat → ∀ x, tabFind s.task.streams q.toNat = some x → x.inward = false → x.fault = false → x.queue.length < 32 →
      x.handed < x.count → ∃ t, exec (.qset a q) s = .next t ∧ RegsSame s t ∧ t.pc = s.inSequence 4 ∧ t.task.q = s.task.q ∧
        t.task.bq = s.task.bq ∧
        tabFind t.task.streams q.toNat = some { x with queue := x.queue ++ [s.rg a], handed := x.handed + 1 } ∧ QueueFrame s t) ∧
    (4 ≤ q.toNat → (∀ x, tabFind s.task.streams q.toNat = some x → x.fault = true) →
      TakesTrap (.qget a q) s s 0x1F 0 ∧ TakesTrap (.qset a q) s s 0x1F 0) ∧
    (∃ t, exec (.qlen a q) s = .next t ∧ t.pc = s.inSequence 4 ∧ QueueFrame s t ∧ t.task.q = s.task.q ∧ t.task.bq = s.task.bq ∧
      t.task.streams = s.task.streams ∧
      (∀ h : q.toNat < 4, RegIs s t a (BitVec.ofNat 64 (s.task.q[q.toNat]).length)) ∧
      (4 ≤ q.toNat → RegIs s t a (match tabFind s.task.streams q.toNat with
        | some x => BitVec.ofNat 64 x.queue.length | none => 0))) ∧
    (s.task.bq.length < 16 → ∃ t, exec (.bqp a) s = .next t ∧ RegsSame s t ∧ t.pc = s.inSequence 4 ∧ t.task.q = s.task.q ∧
      t.task.bq = s.task.bq ++ [s.rg a != 0] ∧ t.task.streams = s.task.streams ∧ QueueFrame s t) ∧
    (∀ b r, s.task.bq = b :: r → ∃ t, exec (.bqb o) s = .next t ∧ RegsSame s t ∧
      t.pc = (if b then s.pc + BitVec.ofInt 64 (4 * o.toInt) else s.inSequence 4) ∧ t.task.q = s.task.q ∧ t.task.bq = r ∧
      t.task.streams = s.task.streams ∧ QueueFrame s t)

/-- R57: split, on E with A inactive, starts A at its target with a copy of the bank's registers and loop registers of zero; aend on
A ends A and discards its copy; aend on E with A inactive only goes on. -/
def Obligations.SplitStartsAAndAendEndsIt : Prop :=
  ∀ (s : State), s.urgent = false →
    (∀ i : BitVec 21, s.task.stepping = false → s.cur.a = false → s.task.a.active = false →
      ∃ t, exec (.split i) s = .next t ∧ RegsSame s t ∧ t.pc = s.inSequence 4 ∧ OnlyTask s t ∧ IssueOnly s.task t.task ∧
        t.task.a.active = true ∧ t.task.a.pc = s.pc + BitVec.ofInt 64 (4 * i.toInt) ∧ t.task.a.g = s.task.g ∧
        t.task.a.lc = 0 ∧ t.task.a.ls = 0 ∧ t.task.a.le = 0) ∧
    (s.task.stepping = false → s.cur.a = true → ∃ t, exec .aend s = .next t ∧ OnlyTask s t ∧
      t.task = { s.task with a := {}, lee := s.task.lee - 1 }) ∧
    (s.task.stepping = false → s.cur.a = false → s.task.a.active = false → ∃ t, exec .aend s = .next t ∧ RegsSame s t ∧
      t.pc = s.inSequence 4 ∧ ComputeFrame s t)

/-- R61: an urgent task that executes split, aend or a queue instruction takes the trap of cause 0x0B before any effect. -/
def Obligations.UrgentTaskMayUseNoQueue : Prop :=
  ∀ (s : State) (a : BitVec 5) (q : BitVec 3) (o : BitVec 16) (l : BitVec 21), s.urgent = true →
    ∀ i ∈ [Instr.split l, .aend, .qget a q, .qset a q, .qlen a q, .bqp a, .bqb o], TakesTrap i s s 0x0B 0

/-- The task record of R81 that a spawn or fork of the issuing task makes: its joins count at the task's home, its table is the
task's, its crew the block's. -/
def childRecord (s : State) (entry : Word) (src argc : Nat) (args : List Word) : TaskRecord :=
  { entry := entry &&& 0x00FFFFFFFFFFFFFC#64, urg := false, src := src, jhome := s.task.job.record.jhome
    crew := (match s.blockOf s.cur.core with | some b => b.crew | none => 0)
    argc := argc, ctab := s.task.job.record.ctab, args := args }

/-- R93: spawn of a readable, valid record at a 64-byte boundary, after the earlier stores have drained, pushes its record at the
bottom of the core's own deque while it has room, and goes on. `s₁` is the state after the drain, `u` after the reads. -/
def spawnPushesItsRecord : Prop :=
  ∀ (s s₁ u : State) (a : BitVec 5) (w : List Word), drain s = .ok () s₁ → (s₁.rg a).toNat % 64 = 0 →
    loadWords (s₁.rg a) 8 s₁ = .ok w u → bitOf (nth w 0 0) 56 = false → fieldOf (nth w 1 0) 15 12 ≤ 6 →
    fieldOf (nth w 0 0) 1 0 = 0 → bitOf (nth w 0 0) 63 = false → fieldOf (nth w 1 0) 63 26 = 0 →
    (u.coreAt u.cur.core).deque.length < 16 → u.task.stepping = false →
    ∃ t, exec (.spawn a) s = .next t ∧ RegsSame u t ∧ t.pc = u.inSequence 4 ∧ OnlyCore u t ∧ SameMemory u t ∧
      (t.coreAt t.cur.core).deque = (u.coreAt u.cur.core).deque ++
        [{ record := childRecord u (nth w 0 0) 2 (fieldOf (nth w 1 0) 15 12) (w.drop 2) }]

/-- R95: fork at a join counter of its home core's scratchpad counts its arm once and pushes the arm's record, with arguments
g1 to g6, at the bottom of the deque. -/
def forkCountsAndPushesItsArm : Prop :=
  ∀ (s u : State) (a : BitVec 5) (o : BitVec 16) (home off : Nat), drain s = .ok () u →
    joinCounter (u.rg a) u = .ok (home, off) u → u.task.forked = false → u.task.stepping = false →
    (u.coreAt u.cur.core).deque.length < 16 →
    ∃ t, exec (.fork a o) s = .next t ∧ RegsSame u t ∧ t.pc = u.inSequence 4 ∧ SameMemory u t ∧
      (t.coreAt home).spm =
        cellsSet (u.coreAt home).spm off (bytesOf (wordOfList (cellsGet (u.coreAt home).spm off 8) + 1)) ∧
      (t.coreAt t.cur.core).deque = (u.coreAt u.cur.core).deque ++
        [{ record := childRecord u (u.pc + BitVec.ofInt 64 (4 * o.toInt)) 3 6
            ((List.range 6).map fun i => u.task.g.toList.getD (i + 1) 0) }]

/-- R93, R95: spawn and fork push a task record. -/
def Obligations.SpawnAndForkPushTheirRecords : Prop := spawnPushesItsRecord ∧ forkCountsAndPushesItsArm

/-- A task has no pushed element of an outbound stream left to store (R96, R266). -/
def StreamsStored (t : Machine.Task) : Prop := t.streams.all (fun x => x.2.inward || x.2.queue.isEmpty || x.2.fault) = true

/-- R96: done, after the earlier stores have drained and the outbound streams have stored what was pushed, ends the task: its bank
is empty, and no other core and no byte of memory has changed; on a core that is no pilot, nothing else of the machine. -/
def doneEndsTheTask : Prop :=
  ∀ (s u : State), drain s = .ok () u → StreamsStored u.task →
    ∃ t, exec .done s = .next t ∧ (t.coreAt u.cur.core).bank u.urgent = {} ∧ OtherCoresSame u.cur.core u t ∧ SameMemory u t ∧
      (isPilot u.cur.core = false → OnlyCore u t)

/-- R95: join at a counter above one takes one off and ends the task; at a counter of one it takes it to zero and goes on at its
target; at a counter of zero it takes the trap of cause 0x22. -/
def joinCountsDown : Prop :=
  ∀ (s u : State) (a : BitVec 5) (o : BitVec 16) (home off : Nat), drain s = .ok () u →
    joinCounter (u.rg a) u = .ok (home, off) u → u.task.stepping = false →
    let v := wordOfList (cellsGet (u.coreAt home).spm off 8)
    (v = 0 → TakesTrap (.join a o) s u 0x22 (u.rg a)) ∧
    (v = 1 → ∃ t, exec (.join a o) s = .next t ∧ t.pc = u.pc + BitVec.ofInt 64 (4 * o.toInt) ∧ RegsSame u t ∧ SameMemory u t ∧
      (t.coreAt home).spm = cellsSet (u.coreAt home).spm off (bytesOf (0 : Word))) ∧
    (v ≠ 0 → v ≠ 1 → StreamsStored u.task → ∃ t, exec (.join a o) s = .next t ∧ (t.coreAt u.cur.core).bank u.urgent = {} ∧
      (t.coreAt home).spm = cellsSet (u.coreAt home).spm off (bytesOf (v - 1)) ∧ SameMemory u t)

/-- R95, R96: done and join.
That done waits for the outbound streams is the model's reading (log 36). -/
def Obligations.DoneAndJoinEndTasks : Prop := doneEndsTheTask ∧ joinCountsDown

/-- R97: yield goes on when no other task of its level is ready or no park slot is free; else the task parks, once the vector engine
has completed its commands, at the next instruction and with its cause cleared. -/
def yieldGoesOnAlone : Prop :=
  ∀ (s u : State), drain s = .ok () u → u.task.stepping = false → let core := u.cur.core
    ((u.coreAt core).otherReady u.urgent = false ∨ (u.coreAt core).freeSlot = none →
      ∃ t, exec .yield s = .next t ∧ RegsSame u t ∧ t.pc = u.inSequence 4 ∧ ComputeFrame u t) ∧
    (∀ i, (u.coreAt core).otherReady u.urgent = true → (u.coreAt core).freeSlot = some i →
      (u.coreAt core).vectorDone u.task.tid = true → u.cur.a = false → u.task.status = .running →
      ∃ t p, exec .yield s = .next t ∧ tabFind (t.coreAt core).parks i = some p ∧ p.task.tid = u.task.tid ∧
        p.task.pc = u.inSequence 4 ∧ p.task.g = u.task.g ∧ p.causes.all (·.cleared) = true ∧ SameMemory u t)

/-- R89: lee opens a window of n further instructions for a normal task that has none open; within a window, or for an urgent task,
it only counts as one of the window's instructions. -/
def leeOpensItsWindow : Prop :=
  ∀ (s : State) (n : BitVec 6), s.task.stepping = false →
    ∃ t, exec (.lee n) s = .next t ∧ RegsSame s t ∧ t.pc = s.inSequence 4 ∧ ComputeFrame s t ∧
      t.task.lee = (if s.task.lee = 0 ∧ s.urgent = false then n.toNat else s.task.lee - 1)

/-- R98, R99: areg of g0 clears its actor entry, and of any other register installs the entry its readable, valid descriptor
describes, in either case at once when no task of the entry's firing has started that has not ended, else when it ends. -/
def aregRegistersOrClears : Prop :=
  ∀ (s u : State) (a : BitVec 5) (k : BitVec 3) (new : Option Actor), u.task.stepping = false →
    ((a = 0 ∧ new = none ∧ drain s = .ok () u) ∨
      (a ≠ 0 ∧ ∃ s₁ w, drain s = .ok () s₁ ∧ (s₁.rg a).toNat % 64 = 0 ∧ loadWords (s₁.rg a) 8 s₁ = .ok w u ∧
        new = some (actorOf w) ∧ fieldOf (nth w 0 0) 63 57 = 0 ∧ fieldOf (nth w 0 0) 1 0 = 0 ∧
        (∀ i < 4, fieldOf (nth w 1 0) (16 * i + 14) (16 * i + 13) = 0 ∧ fieldOf (nth w 2 0) (16 * i + 14) (16 * i + 9) = 0) ∧
        (actorOf w).ins.all (·.isNone) = false)) →
    ∃ t, exec (.areg a k) s = .next t ∧ t.pc = u.inSequence 4 ∧ RegsSame u t ∧ SameMemory u t ∧
      ((u.coreAt u.cur.core).firingLive k.toNat = true →
        tabFind (t.coreAt t.cur.core).aregNext k.toNat = some new ∧
          (t.coreAt t.cur.core).actors = (u.coreAt u.cur.core).actors) ∧
      ((u.coreAt u.cur.core).firingLive k.toNat = false →
        (t.coreAt t.cur.core).actors = (match new with
          | some x => tabPut (u.coreAt u.cur.core).actors k.toNat x | none => tabDel (u.coreAt u.cur.core).actors k.toNat))

/-- R89, R97 to R99: yield, lee and areg. -/
def Obligations.YieldLeeAndAregAct : Prop := yieldGoesOnAlone ∧ leeOpensItsWindow ∧ aregRegistersOrClears

/-- R19: the word that a load of size code z makes of its bytes: codes 0, 2 and 4 sign-extend, the others zero-extend. -/
def loaded (z : Nat) (bytes : List Byte) : Word :=
  let n := szBytes z
  let v := natOfBytes bytes
  if z % 2 = 0 then BitVec.ofInt 64 (if v % 2 ^ (8 * n) < 2 ^ (8 * n - 1) then (v % 2 ^ (8 * n) : Nat) else (v % 2 ^ (8 * n) : Nat) - 2 ^ (8 * n))
  else BitVec.ofNat 64 v

/-- R113, R114, R49: the loads, each with the address it reads and its size code. -/
def loadForms (s : State) (d a b : BitVec 5) (z : BitVec 3) (o : BitVec 13) (c : BitVec 1) (l : BitVec 21) : List (Instr × Word × Nat) :=
  let n := BitVec.ofNat 64 (szBytes z.toNat)
  [ (.ld d a z o, s.rg a + BitVec.ofInt 64 o.toInt * n, z.toNat),
    (.ldx d a b c z, s.rg a + s.rg b * (if c = 1 then n else 1), z.toNat),
    (.ldl d l, s.pc + BitVec.ofInt 64 (4 * l.toInt), 6) ]

/-- R114: a load of every form whose address is aligned, resolves to a place and reads there completes with the bytes read, extended
as its size says. `u` is the state after the translation, `v` after the read. -/
def loadsWriteWhatTheirPlaceReads : Prop :=
  ∀ (s u v : State) (d a b : BitVec 5) (z : BitVec 3) (o : BitVec 13) (c : BitVec 1) (l : BitVec 21),
    ∀ f ∈ loadForms s d a b z o c l, ∀ (p : Place) (bytes : List Byte), f.2.1.toNat % szBytes f.2.2 = 0 →
      placeOf f.2.1 (szBytes f.2.2) false s = .ok p u → readPlace f.2.1 (szBytes f.2.2) p u = .ok bytes v →
      v.task.stepping = false →
      ∃ t, exec f.1 s = .next t ∧ RegIs v t d (loaded f.2.2 bytes) ∧ t.pc = v.inSequence 4 ∧ ComputeFrame v t

/-- R103, R111, R114: a load of every form from the core's own scratchpad, of an aligned address inside it that no waiting store
overlaps and whose bytes are not poisoned, completes with the bytes that the scratchpad holds, and changes nothing else. -/
def localLoadsReadTheScratchpad : Prop :=
  ∀ (s : State) (d a b : BitVec 5) (z : BitVec 3) (o : BitVec 13) (c : BitVec 1) (l : BitVec 21), s.task.stepping = false →
    ∀ f ∈ loadForms s d a b z o c l, let n := szBytes f.2.2; let k := s.coreAt s.cur.core; let off := f.2.1.toNat % 2 ^ 18
      f.2.1.toNat % n = 0 → bitOf f.2.1 63 = true → fieldOf f.2.1 62 18 = 0 → off + n ≤ k.spmSize →
      (∀ e ∈ k.sb, e.isLocal = true → e.addr + e.bytes.length ≤ off ∨ off + n ≤ e.addr) → k.spmBad off n = false →
      ∃ t, exec f.1 s = .next t ∧ RegIs s t d (loaded f.2.2 (cellsGet k.spm off n)) ∧ t.pc = s.inSequence 4 ∧ ComputeFrame s t

/-- R49, R103, R111, R113, R114: the loads.
That tracked lines have one coherent value is the model's choice (log 6); what an unwritten byte reads as does not matter here. -/
def Obligations.LoadsWriteWhatTheyRead : Prop := loadsWriteWhatTheirPlaceReads ∧ localLoadsReadTheScratchpad

/-- R113, R114: the stores, each with the address it writes, its size code and its data. -/
def storeForms (s : State) (d a b : BitVec 5) (z : BitVec 3) (o : BitVec 13) (c : BitVec 1) : List (Instr × Word × Nat × Word) :=
  let n := BitVec.ofNat 64 (szBytes z.toNat)
  [ (.st d a z o, s.rg a + BitVec.ofInt 64 o.toInt * n, z.toNat, s.rg d),
    (.stx d a b c z, s.rg a + s.rg b * (if c = 1 then n else 1), z.toNat, s.rg d) ]

/-- The entry that a store of bytes at a place puts into the store buffer (R110). -/
def storeEntry (p : Place) (bytes : List Byte) (release : Bool) : SbEntry :=
  match p with
  | .spm off => { isLocal := true, addr := off, bytes := bytes, release := release }
  | .phys pa nc sq => { isLocal := false, addr := pa, bytes := bytes, nc := nc, sq := sq, release := release }

/-- R110, R114: a store of every form whose address is aligned and passes the checks of a store enters the store buffer while it has
room, with the low bytes of its data; it writes no register and no byte of memory yet. `u` is the state after the translation. -/
def storesEnterTheStoreBuffer : Prop :=
  ∀ (s u : State) (d a b : BitVec 5) (z : BitVec 3) (o : BitVec 13) (c : BitVec 1),
    ∀ f ∈ storeForms s d a b z o c, ∀ p : Place, f.2.1.toNat % szBytes f.2.2.1 = 0 →
      storePlace f.2.1 (szBytes f.2.2.1) s = .ok p u → (u.coreAt u.cur.core).sb.length < 16 → u.task.stepping = false →
      ∃ t, exec f.1 s = .next t ∧ RegsSame u t ∧ t.pc = u.inSequence 4 ∧ OnlyCore u t ∧ SameMemory u t ∧
        (t.coreAt t.cur.core).sb =
          (u.coreAt u.cur.core).sb ++ [storeEntry p ((bytesOf f.2.2.2).take (szBytes f.2.2.1)) false]

/-- R110: the oldest store of a buffer leaves while the core holds no memory command: a local one writes its bytes of the
scratchpad and no memory; another writes, once its line is held, no byte of memory outside its own. -/
def storeBufferDrainsItsOldest : Prop :=
  ∀ (s : State) (c : Nat) (e : SbEntry) (r : List SbEntry), (s.coreAt c).sb = e :: r → (s.coreAt c).memoryBusy = false →
    (e.isLocal = true → ∃ t, exec (.storeBufferDrain c) s = .next t ∧ (t.coreAt c).sb = r ∧ SameMemory s t ∧
      (t.coreAt c).spm = cellsSet (s.coreAt c).spm e.addr e.bytes) ∧
    (e.isLocal = false → ∀ u, acquire (dieOf c) (coveOf c) c e.addr e.nc e.sq true s = .ok () u →
      ∃ t, exec (.storeBufferDrain c) s = .next t ∧ (t.coreAt c).sb = r ∧ SameMemoryBut e.addr e.bytes.length u t ∧
        t.mem = (physPut (dieOf c) (some c) e.addr e.sq e.bytes u).mem)

/-- R110, R114: the stores and the store buffer.
That a store is seen by all when it leaves the buffer is the model's choice (log 6). -/
def Obligations.StoresEnterAndLeaveTheBuffer : Prop := storesEnterTheStoreBuffer ∧ storeBufferDrainsItsOldest

/-- R111: a load reads the bytes of the store that came before it. In any state where a store of every form to the core's own
scratchpad may be made, with the buffer empty, the store completes, and a load of the same address and size executed next completes
with the bytes that were stored. -/
def Obligations.LoadAfterStoreReadsTheStore : Prop :=
  ∀ (s : State) (d e a : BitVec 5) (z : BitVec 3) (o : BitVec 13), s.task.stepping = false →
    let n := szBytes z.toNat; let ea := s.rg a + BitVec.ofInt 64 o.toInt * BitVec.ofNat 64 n; let k := s.coreAt s.cur.core
    ea.toNat % n = 0 → bitOf ea 63 = true → fieldOf ea 62 18 = 0 → ea.toNat % 2 ^ 18 + n ≤ k.spmSize → s.task.priv = true →
    k.sb = [] →
    ∃ t, exec (.st d a z o) s = .next t ∧
      ∃ u, exec (.ld e a z o) t = .next u ∧ RegIs t u e (loaded z.toNat ((bytesOf (s.rg d)).take n))

/-- R114: a misaligned load or store of every form takes the trap of cause 0x10 with its address, on the state as it was. -/
def Obligations.MisalignedAccessTakesItsTrap : Prop :=
  ∀ (s : State) (d a b : BitVec 5) (z : BitVec 3) (o : BitVec 13) (c : BitVec 1) (l : BitVec 21),
    (∀ f ∈ loadForms s d a b z o c l, f.2.1.toNat % szBytes f.2.2 ≠ 0 → TakesTrap f.1 s s 0x10 f.2.1) ∧
    (∀ f ∈ storeForms s d a b z o c, f.2.1.toNat % szBytes f.2.2.1 ≠ 0 → TakesTrap f.1 s s 0x10 f.2.1)

/-- The current core's store buffer has drained: it is empty, or `u` is the state after its entries have left. -/
def Drained (s u : State) : Prop := (s.coreAt s.cur.core).sb = [] ∧ u = s ∨ drain s = .ok () u

/-- R116: carve to a size within the core's limits, once the buffer has drained and the engines are idle, gives the scratchpad its
new size: bytes inside both sizes are kept, every other byte reads as zero. -/
def carveResizesTheScratchpad : Prop :=
  ∀ (s u : State) (n : BitVec 4), let k := s.coreAt s.cur.core
    k.carveBase ≤ n.toNat → n.toNat ≤ k.carveLimit → Drained (s.begin 1) u → (u.coreAt u.cur.core).enginesIdle = true →
    u.task.stepping = false →
    ∃ t, exec (.carve n) s = .next t ∧ RegsSame u t ∧ t.pc = u.inSequence 4 ∧ SameMemory u t ∧
      (t.coreAt t.cur.core).carveSize = n.toNat ∧
      ∀ off, cellGet (t.coreAt t.cur.core).spm off =
        if off < n.toNat * 32768 ∧ off < (u.coreAt u.cur.core).carveSize * 32768 then cellGet (u.coreAt u.cur.core).spm off else 0

/-- R117: pool takes a mask of the ranks of its block but its own. -/
def poolSetsItsMask : Prop :=
  ∀ (s : State) (a : BitVec 5), s.task.stepping = false →
    ∃ t, exec (.pool a) s = .next t ∧ RegsSame s t ∧ t.pc = s.inSequence 4 ∧ SameMemory s t ∧
      ∀ r < 8, (t.coreAt t.cur.core).poolMask.getLsbD r =
        ((s.rg a).getLsbD r && decide (r ≠ s.rankOf s.cur.core) &&
          decide (r < match s.blockOf s.cur.core with | some b => b.cores.length | none => 0))

/-- R118, R119: pref completes on every address, and leaves registers and program counter as an instruction in sequence does; l1fl of
a local address does nothing, of another one it removes the line's copies from the core's L1; l1fl of all empties it. -/
def prefetchAndL1Flush : Prop :=
  ∀ (s : State) (a : BitVec 5) (l : BitVec 1) (o : BitVec 6), s.task.stepping = false →
    (∃ t, exec (.pref a l o) s = .next t ∧ RegsSame s t ∧ t.pc = s.inSequence 4) ∧
    (∀ off u, placeOf (s.rg a) 1 false s = .ok (.spm off) u → ∃ t, exec (.l1fl a) s = .next t ∧ RegsSame s t ∧
      t.pc = s.inSequence 4 ∧ ComputeFrame s t) ∧
    (∀ pa nc sq u, placeOf (s.rg a) 1 false s = .ok (.phys pa nc sq) u → u.task.stepping = false → ∃ t,
      exec (.l1fl a) s = .next t ∧ RegsSame u t ∧ t.pc = u.inSequence 4 ∧ SameMemory u t ∧
        ∀ x ∈ (t.coreAt t.cur.core).l1, x.line ≠ pa / 128) ∧
    (∃ t, exec .l1flAll s = .next t ∧ RegsSame s t ∧ t.pc = s.inSequence 4 ∧ SameMemory s t ∧ (t.coreAt t.cur.core).l1 = [])

/-- R116 to R119: the carve, the victim pool, prefetch and the flush of the L1. -/
def Obligations.ScratchpadAndCachesAreControlled : Prop := carveResizesTheScratchpad ∧ poolSetsItsMask ∧ prefetchAndL1Flush

/-- R164: what each atomic makes of the old value m of memory, of n bytes; y is the low n bytes of g[b], x those of g[d], sg a
number read as signed. -/
def amoRows (ftz : Bool) (d a b : BitVec 5) (r q w : BitVec 1) (n x y m : Nat) : List (Instr × Nat) :=
  let sg (v : Nat) : Int := if v < 2 ^ (8 * n - 1) then v else (v : Int) - 2 ^ (8 * n)
  [ (.amoAdd d a b r q w, m + y), (.amoMin d a b r q w, if sg y < sg m then y else m),
    (.amoMax d a b r q w, if sg m < sg y then y else m), (.amoMinz d a b r q w, min m y), (.amoMaxz d a b r q w, max m y),
    (.amoAnd d a b r q w, m &&& y), (.amoOr d a b r q w, m ||| y), (.amoXor d a b r q w, m ^^^ y), (.amoSwap d a b r q w, y),
    (.amoCas d a b r q w, if m = x then y else m), (.amoFadd d a b r q w, amoFaddOp ftz n m y) ]

/-- R164: an atomic on an aligned virtual address that translates to a tracked, readable line completes: g[d] takes the old value
(a 4-byte one sign-extended), and memory the row's new value, modulo its width. `u` is the state after the translation, `v` after
the earlier stores have drained and the core's L1 copies of the line have gone, with the instruction noted as issued (R165), `h` with
the line held, which has no marked sector; no byte of memory outside the operand changes after that.
One coherent memory is the model's choice (log 6). -/
def Obligations.AtomicsReadModifyWrite : Prop :=
  ∀ (s u w' h : State) (d a b : BitVec 5) (r q w : BitVec 1) (pa : Nat) (e : TlbEntry),
    let ea := s.rg a; let n := if w = 1 then 4 else 8; let v := (dropCopies w'.cur.core (pa / 128) w').begin 1
    let home := if isHostPa pa then dieOf v.cur.core else homeDie pa; let line := pa / 128 * 128
    bitOf ea 63 = false → ea.toNat % n = 0 → isVirtual ea = true → translate ea true s = .ok (pa, e) u → e.nc = false →
    Drained u w' → acquire home (coveOf v.cur.core) v.cur.core pa false e.sq true v = .ok () h →
    h.uncorrectable line 128 = false → h.poisonedBefore line 128 = false → h.task.stepping = false →
    let m := natOfBytes (h.physGet home pa n e.sq)
    ∀ f ∈ amoRows (ftzOf (s.coreAt s.cur.core).fpmode) d a b r q w n ((s.rg d).toNat % 256 ^ n) ((s.rg b).toNat % 256 ^ n) m,
      ∃ t, exec f.1 s = .next t ∧ t.pc = h.inSequence 4 ∧
        RegIs h t d (if n = 4 then BitVec.ofInt 64 (if m % 2 ^ 32 < 2 ^ 31 then (m % 2 ^ 32 : Nat) else (m % 2 ^ 32 : Nat) - 2 ^ 32)
          else BitVec.ofNat 64 m) ∧
        SameMemoryBut pa n h t ∧
        (h.Canonical → (∀ x, h.l2Line home (unitOf pa e.sq) = some x → x.nc = false) →
          cellsGet t.mem pa n = bytesOfNat n (f.2 % 256 ^ n))

/-- R161, R169: what an L2 control instruction waits for, of the units it acts on: the host link for a dirty host line, and, to
invalidate a tracked line, the end of a transaction of it. -/
def UnitsReady (d : Nat) (us : List Nat) (s : State) : Prop :=
  ∀ u ∈ us, (∀ l, s.l2Line d u = some l → isHostPa (u * 128) = true → l.state = .m → s.host.linkUp = true) ∧
    (isHostPa (u * 128) = true ∨ (∀ l, s.l2Line d u = some l → l.nc = true) ∨ s.quiet u = true)

/-- No NC line of a die's L2 holds bytes that memory does not have yet. -/
def NcClean (d : Nat) (s : State) : Prop := ∀ x ∈ (s.dieAt d).l2, x.2.nc = true → x.2.dirty = []

/-- Evicting units of a die sends no message to a home: each is NC, of host space, or held in S (R154). -/
def LeaveSilently (d : Nat) (us : List Nat) (s : State) : Prop :=
  ∀ u ∈ us, ∀ l, s.l2Line d u = some l → l.nc = true ∨ isHostPa (u * 128) = true ∨ l.state = .s

/-- R166, R167: l2fl, l2inv, rgrel and home have no effect on a local address; on an address that translates, l2fl writes back and
l2inv also removes the line (or, with .rgn, every line of the region) in the core's die, rgrel releases the region's entry, and
home moves the region to the slice nearest the named core of the die. l2inv evicts its units once, noted in its task, and completes
when no write-back or clean evict of them is on its way to a home: at once where none is sent. `v` is the state with the instruction
noted as issued (R169) and the store buffer drained. A line that has to leave a full set for a moved one is written
back, so that memory stays the same where no NC line holds newer bytes.
Which set a line falls in is open (logs 8, 20). -/
def Obligations.L2ControlActsOnItsLines : Prop :=
  ∀ (s u v : State) (a b : BitVec 5) (r : BitVec 1) (pa : Nat) (e : TlbEntry), s.task.stepping = false →
    (bitOf (s.rg a) 63 = true → ∀ i ∈ [Instr.l2fl a r, .l2inv a r, .rgrel a, .home a b],
      ∃ t, exec i s = .next t ∧ RegsSame s t ∧ t.pc = s.inSequence 4 ∧ ComputeFrame s t) ∧
    (bitOf (s.rg a) 63 = false → isVirtual (s.rg a) = true → translate (s.rg a) false s = .ok (pa, e) u → u.task.stepping = false →
      let d := dieOf u.cur.core
      (∃ t, exec (.rgrel a) s = .next t ∧ RegsSame u t ∧ t.pc = u.inSequence 4 ∧ (NcClean d u → SameMemory u t) ∧
        (tabFind (u.dieAt d).region (pa / 65536) ≠ none →
          (t.dieAt d).region = tabDel (u.dieAt d).region (pa / 65536))) ∧
      (∃ t, exec (.home a b) s = .next t ∧ RegsSame u t ∧ t.pc = u.inSequence 4 ∧ (NcClean d u → SameMemory u t) ∧
        (isCore (fieldOf (s.rg b) 10 0) = true → dieOf (fieldOf (s.rg b) 10 0) = d → (u.dieAt d).region.length < 16384 →
          tabFind (t.dieAt d).region (pa / 65536) = some (nearSlice (coveOf (fieldOf (s.rg b) 10 0))))) ∧
      (Drained (u.begin 1) v → v.task.stepping = false →
        let d := dieOf v.cur.core; let us := unitsAt d pa e.sq (r = 1) v; let coming := v.writingBack d pa e.sq (r = 1)
        (UnitsReady d us v → ∃ t, exec (.l2fl a r) s = .next t ∧ RegsSame v t ∧ t.pc = v.inSequence 4 ∧
          ∀ x ∈ us, ∀ l, t.l2Line d x = some l → (l.nc = true → l.dirty = []) ∧ (l.nc = false → l.state ≠ .m)) ∧
        (UnitsReady d us v → v.task.begunOf v.cur.a < 2 → ((v.dieAt d).l2.map (·.1)).Pairwise (· < ·) →
          (LeaveSilently d us v → coming = false →
            ∃ t, exec (.l2inv a r) s = .next t ∧ RegsSame v t ∧ t.pc = v.inSequence 4 ∧ ∀ x ∈ us, t.l2Line d x = none) ∧
          (¬ LeaveSilently d us v ∨ coming = true →
            ∃ t, exec (.l2inv a r) s = .next t ∧ RegsSame v t ∧ t.pc = v.pc ∧ t.task.begunOf t.cur.a = 2 ∧
              ∀ x ∈ us, t.l2Line d x = none)) ∧
        (2 ≤ v.task.begunOf v.cur.a → coming = false →
          ∃ t, exec (.l2inv a r) s = .next t ∧ RegsSame v t ∧ t.pc = v.inSequence 4 ∧ ComputeFrame v t)))

/-- R144: tlbw of a well-formed entry removes what it overlaps from its cove's TLB and the micro-TLBs, and makes it the most
recently used entry, with status 0; of an ill-formed one it gives status 1 and changes nothing. -/
def tlbwWritesTheTlb : Prop :=
  ∀ (s : State) (a b c : BitVec 5), s.task.stepping = false → s.task.priv = true →
    let e : TlbEntry := { w0 := s.rg a, w1 := s.rg b }; let v := coveOf s.cur.core
    (e.acceptable = true → ∃ t, exec (.tlbw a b c) s = .next t ∧ RegIs s t c 0 ∧ t.pc = s.inSequence 4 ∧ SameMemory s t ∧
      (t.coveAt v).tlb = (e :: (s.coveAt v).tlb.filter fun x => !e.overlaps x).take 1024 ∧
      ∀ x ∈ (t.coreAt t.cur.core).utlb, e.overlaps x = false) ∧
    (e.acceptable = false → ∃ t, exec (.tlbw a b c) s = .next t ∧ RegIs s t c 1 ∧ t.pc = s.inSequence 4 ∧ ComputeFrame s t)

/-- The tlbi forms, each with the entries that it removes (R145). -/
def tlbiForms (s : State) (a b : BitVec 5) : List (Instr × (TlbEntry → Bool)) :=
  [ (.tlbiVa a b, fun e => (e.g || e.asid == fieldOf (s.rg b) 11 0) && e.maps (s.rg a).toNat),
    (.tlbiAsid b, fun e => e.asid == fieldOf (s.rg b) 11 0), (.tlbiAll, fun _ => true) ]

/-- The queued memory commands of the matrix units of some cores do not use an entry that a tlbi removes (R145). -/
def MatrixDone (f : TlbEntry → Bool) (cores : List Nat) (u : State) : Prop :=
  ∀ c ∈ cores, ∀ x ∈ (u.coreAt c).mq, memoryMatrix x.instr = true → x.tlb.any f = false

/-- R145: each tlbi form, once the partition's store buffers have drained and no queued matrix command uses an entry that it removes,
leaves no matching entry in the TLB of a cove that the partition holds, and writes no register. A line that a released region moves
into a full set has another written back, so that memory stays the same where no NC line holds newer bytes. -/
def tlbiRemovesWhatMatches : Prop :=
  ∀ (s u : State) (a b : BitVec 5), let p := s.partOf s.cur.core
    s.task.priv = true → u.task.stepping = false → each (fun c => drainN c 16) (s.partCores p) s = .ok () u →
    ∀ f ∈ tlbiForms s a b, MatrixDone f.2 (u.partCores p) u →
      ∃ t, exec f.1 s = .next t ∧ RegsSame u t ∧ t.pc = u.inSequence 4 ∧ ((∀ d < 4, NcClean d u) → SameMemory u t) ∧
        ∀ v < 128, bitOf (nth (u.partAt p).pmap (v / 32) 0) (v % 32) = true → ∀ e ∈ (t.coveAt v).tlb, f.2 e = false

/-- R145: in the privileged view each tlbi form completes in every state in which the store buffers of the partition's cores are
empty and no queued matrix command of theirs uses an entry that it removes. -/
def tlbiCompletes : Prop :=
  ∀ (s : State) (a b : BitVec 5), let p := s.partOf s.cur.core
    s.task.priv = true → s.task.stepping = false → (∀ c ∈ s.partCores p, (s.coreAt c).sb = []) →
    ∀ f ∈ tlbiForms s a b, MatrixDone f.2 (s.partCores p) s →
      ∃ t, exec f.1 s = .next t ∧ RegsSame s t ∧ t.pc = s.inSequence 4 ∧ ((∀ d < 4, NcClean d s) → SameMemory s t) ∧
        ∀ v < 128, bitOf (nth (s.partAt p).pmap (v / 32) 0) (v % 32) = true → ∀ e ∈ (t.coveAt v).tlb, f.2 e = false

/-- What an answer of a walk does (R130, R146): at every access that waited for it, and the pilot's waiting records then enter. -/
def walkAnswered (k : Nat) (arg : Word) (ticket : Option Nat) (w : Walk) (cove : Nat) (s : State) : State :=
  pumpInbox (pilotOf cove) (w.waiters.foldl (fun s r => answerWaiter k arg ticket w.va r s) s)

/-- A walk of a cove ends (R146). -/
def walkGone (cove slot : Nat) (s : State) : State := s.modCove cove fun v => { v with
  walks := tabDel v.walks slot, walkQueue := v.walkQueue.filter (· ≠ slot) }

/-- R146: wret of an active walk, with an assigned outcome and, for a fault, an assigned cause, ends the walk and answers every access
that waited for it: outcomes 0, 1 and 4 with status 0, outcome 1 once the store buffers of the waiting tasks have drained; outcomes
2 and 3 open the lowest free ticket, of the kind and granule of the walk, whose number is the status, 3 with a page request to the
host. A walk that is not active gives status 1, no free ticket status 2, an unassigned field status 3, and none of these changes
anything else. -/
def wretAnswersItsWalk : Prop :=
  ∀ (s : State) (a b c : BitVec 5) (k : BitVec 3), s.task.priv = true → k.toNat ≤ 4 →
    let cove := coveOf s.cur.core; let v := s.coveAt cove; let slot := fieldOf (s.rg a) 4 0
    let bad := fieldOf (s.rg a) 63 5 ≠ 0 ∨ k.toNat = 4 ∧ fieldOf (s.rg b) 7 0 ∉ [0x11, 0x12, 0x13, 0x19, 0x27]
    let done (n : Nat) (u : State) : State := complete .other 4 .seq (u.wg c (BitVec.ofNat 64 n))
    (bad → s.task.stepping = false →
      ∃ t, exec (.wret a b c k) s = .next t ∧ RegIs s t c 3 ∧ t.pc = s.inSequence 4 ∧ ComputeFrame s t) ∧
    (¬ bad → tabFind v.walks slot = none → s.task.stepping = false →
      ∃ t, exec (.wret a b c k) s = .next t ∧ RegIs s t c 1 ∧ t.pc = s.inSequence 4 ∧ ComputeFrame s t) ∧
    (¬ bad → ∀ w, tabFind v.walks slot = some w →
      (k = 0 ∨ k = 4 →
        exec (.wret a b c k) s = .next (done 0 (walkAnswered k.toNat (s.rg b) none w cove (walkGone cove slot s)))) ∧
      (k = 1 → ∃ u, drainWaiters w s = .ok () u ∧
        ((∀ core tid x what pc ea, Requester.task core tid x what pc ea ∈ w.waiters → (s.coreAt core).sb = []) → u = s) ∧
        exec (.wret a b c k) s = .next (done 0 (walkAnswered 1 (s.rg b) none w cove (walkGone cove slot u)))) ∧
      (k = 2 ∨ k = 3 → ∀ n, tabFree v.tickets 64 0 = some n →
        let ticket : Ticket := { host := k == 3, va := w.va, asid := w.asid, engines := w.tags }
        let opened := (walkGone cove slot s).modCove cove fun v => { v with tickets := tabPut v.tickets n ticket }
        let asked := if k = 3 then { opened with host := { opened.host with
          pageRequests := opened.host.pageRequests ++ [(cove, n)] } } else opened
        exec (.wret a b c k) s =
          .next (done (n * 256) (walkAnswered k.toNat (s.rg b) (some (cove * 64 + n)) w cove asked))) ∧
      (k = 2 ∨ k = 3 → tabFree v.tickets 64 0 = none → s.task.stepping = false →
        ∃ t, exec (.wret a b c k) s = .next t ∧ RegIs s t c 2 ∧ t.pc = s.inSequence 4 ∧ ComputeFrame s t))

/-- R146: wret of a walk that no access waits for, or with outcome 0 of any walk, leaves memory and the registers but g[c] as they
were; the walk is over, and outcomes 2 and 3 leave the ticket open, with no engine. -/
def wretEndsItsWalk : Prop :=
  ∀ (s : State) (a b c : BitVec 5) (k : BitVec 3), s.task.stepping = false → s.task.priv = true →
    let cove := coveOf s.cur.core; let v := s.coveAt cove; let slot := fieldOf (s.rg a) 4 0
    fieldOf (s.rg a) 63 5 = 0 → (k = 4 → fieldOf (s.rg b) 7 0 ∈ [0x11, 0x12, 0x13, 0x19, 0x27]) →
    ∀ w, tabFind v.walks slot = some w →
      (k = 0 ∨ w.waiters = [] ∧ (k = 1 ∨ k = 4) →
        ∃ t, exec (.wret a b c k) s = .next t ∧ RegIs s t c 0 ∧ t.pc = s.inSequence 4 ∧ SameMemory s t ∧
          (t.coveAt cove).walks = tabDel v.walks slot ∧ (t.coveAt cove).tickets = v.tickets) ∧
      (∀ n, w.waiters = [] → k = 2 ∨ k = 3 → tabFree v.tickets 64 0 = some n →
        ∃ t, exec (.wret a b c k) s = .next t ∧ RegIs s t c (BitVec.ofNat 64 (n * 256)) ∧ t.pc = s.inSequence 4 ∧
          SameMemory s t ∧ (t.coveAt cove).walks = tabDel v.walks slot ∧
          tabFind (t.coveAt cove).tickets n = some { host := k == 3, va := w.va, asid := w.asid, engines := [] })

/-- R147: regdone with an assigned result ends its open ticket, with status 0: what waits for it goes on, or has the result raised;
where nothing waits, memory and the registers but g[c] stay as they were. A ticket that is not open gives status 1, an unassigned
field or result status 3, and neither changes anything else. -/
def regdoneEndsItsTicket : Prop :=
  ∀ (s : State) (a b c : BitVec 5), s.task.stepping = false → s.task.priv = true →
    let cove := coveOf s.cur.core; let v := s.coveAt cove; let n := fieldOf (s.rg a) 5 0
    let bad := fieldOf (s.rg a) 63 6 ≠ 0 ∨ (s.rg b).toNat ∉ [0x00, 0x15, 0x16, 0x27]
    (bad → ∃ t, exec (.regdone a b c) s = .next t ∧ RegIs s t c 3 ∧ t.pc = s.inSequence 4 ∧ ComputeFrame s t) ∧
    (¬ bad → tabFind v.tickets n = none →
      ∃ t, exec (.regdone a b c) s = .next t ∧ RegIs s t c 1 ∧ t.pc = s.inSequence 4 ∧ ComputeFrame s t) ∧
    (¬ bad → ∀ x, tabFind v.tickets n = some x →
      exec (.regdone a b c) s = .next (complete .other 4 .seq ((endTicket cove n (s.rg b).toNat true s).wg c 0)) ∧
      (x.engines = [] → s.ticketWaited (cove * 64 + n) x = false →
        ∃ t, exec (.regdone a b c) s = .next t ∧ RegIs s t c 0 ∧ t.pc = s.inSequence 4 ∧ SameMemory s t ∧
          (t.coveAt cove).tickets = tabDel v.tickets n))

/-- R144 to R147: the PAGE instructions, in the privileged view.
The order of the checks of wret and regdone is the model's reading (log 38). -/
def Obligations.PageInstructionsAct : Prop :=
  tlbwWritesTheTlb ∧ tlbiRemovesWhatMatches ∧ tlbiCompletes ∧ wretAnswersItsWalk ∧ wretEndsItsWalk ∧ regdoneEndsItsTicket

/-- R27 step 7, R28: executed in the unprivileged view, each supervisor-only instruction takes the trap of cause 0x02 on the state
as it was. -/
def Obligations.SupervisorOnlyInstructionsTrapForUsers : Prop :=
  ∀ (s : State) (a b c : BitVec 5) (k : BitVec 3) (e : BitVec 4) (q : BitVec 6), s.task.priv = false →
    ∀ i ∈ [Instr.tlbw a b c, .tlbiVa a b, .tlbiAsid b, .tlbiAll, .wret a b c k, .regdone a b c, .capmint a b e, .lnch a e q],
      TakesTrap i s s 0x02 0

/-- R303, R305: fence completes once the store buffer has drained, and leaves it empty; fence.acks also waits until the core's
journal is empty and nothing it injected is unacknowledged. -/
def fencesComplete : Prop :=
  ∀ (s u : State) (k : BitVec 3), drain s = .ok () u → u.task.stepping = false → u.cur = s.cur →
    (∃ t, exec (.fence k) s = .next t ∧ RegsSame u t ∧ t.pc = u.inSequence 4 ∧ ComputeFrame u t) ∧
    ((u.coreAt u.cur.core).journal = [] → (u.coreAt u.cur.core).outTide = 0 → u.inTransit u.cur.core = false →
      ∃ t, exec .fenceAcks s = .next t ∧ RegsSame u t ∧ t.pc = u.inSequence 4 ∧ ComputeFrame u t)

/-- R304: lda loads as ld does, after an earlier stl has drained; stl stores as st does, its entry marked a release. -/
def acquireAndReleaseAccess : Prop :=
  ∀ (s r u v : State) (a b c : BitVec 5) (p z : BitVec 3) (x : Place) (bytes : List Byte),
    ((s.coreAt s.cur.core).sb.any (·.release) = true → drain s = .ok () r) →
    ((s.coreAt s.cur.core).sb.any (·.release) = false → r = s) →
    ((r.rg a).toNat % szBytes z.toNat = 0 → placeOf (r.rg a) (szBytes z.toNat) false r = .ok x u →
      readPlace (r.rg a) (szBytes z.toNat) x u = .ok bytes v → v.task.stepping = false →
      ∃ t, exec (.lda a c p z) s = .next t ∧ RegIs v t c (loaded z.toNat bytes) ∧ t.pc = v.inSequence 4 ∧ ComputeFrame v t) ∧
    ((s.rg a).toNat % szBytes z.toNat = 0 → storePlace (s.rg a) (szBytes z.toNat) s = .ok x u →
      (u.coreAt u.cur.core).sb.length < 16 → u.task.stepping = false →
      ∃ t, exec (.stl a b p z) s = .next t ∧ RegsSame u t ∧ t.pc = u.inSequence 4 ∧ OnlyCore u t ∧ SameMemory u t ∧
        (t.coreAt t.cur.core).sb =
          (u.coreAt u.cur.core).sb ++ [storeEntry x ((bytesOf (s.rg b)).take (szBytes z.toNat)) true])

/-- R297, R299: watch notes the line of an address that resolves, not written; watch.off forgets it. -/
def watchNotesItsLine : Prop :=
  ∀ (s : State) (a : BitVec 5),
    (∀ off u, placeOf (s.rg a) 1 false s = .ok (.spm off) u → u.task.stepping = false → ∃ t, exec (.watch a) s = .next t ∧
      RegsSame u t ∧ t.pc = u.inSequence 4 ∧ OnlyTask u t ∧ t.task.watch = some { isLocal := true, line := off / 128 }) ∧
    (∀ pa nc sq u, placeOf (s.rg a) 1 false s = .ok (.phys pa nc sq) u → u.task.stepping = false → ∃ t,
      exec (.watch a) s = .next t ∧ RegsSame u t ∧ t.pc = u.inSequence 4 ∧ OnlyTask u t ∧
        t.task.watch = some { isLocal := false, line := pa / 128, nc := nc }) ∧
    (s.task.stepping = false → ∃ t, exec .watchOff s = .next t ∧ RegsSame s t ∧ t.pc = s.inSequence 4 ∧ OnlyTask s t ∧
      t.task.watch = none)

/-- R298: doze ends at once with 1 when its watch was written, else with 3 when it waits for a message and one is ready, else with 0
when there is nothing to wait for, and its watch is forgotten; else the task parks in the lowest free slot once no vector command of it
is left, and is held until then. Of the dozing tasks of a core whose counts have expired the one due first has its cause cleared, with
result 4. -/
def dozeEndsOrParks : Prop :=
  (∀ (s : State) (a c : BitVec 5) (m g t : BitVec 1), s.task.stepping = false →
    let written := (match s.task.watch with | some w => w.written | none => false) = true
    let message := m = 1 ∧ ((s.coreAt s.cur.core).selected s.task true 0).isSome = true
    let idle := s.task.watch = none ∧ g = 0 ∧ m = 0 ∧ s.rg a = 0
    let doze : Doze := { group := g = 1, message := m = 1, trap := t = 1, dest := c.toNat, limit := s.rg a, since := s.now }
    let causes := s.task.heldFor ++ [{ why := .doze, since := s.now }]
    let parks := (s.coreAt s.cur.core).freeSlot.isSome ∧ (s.coreAt s.cur.core).vectorDone s.task.tid = true
    (∀ r : Word, (written ∧ r = 1) ∨ (¬ written ∧ message ∧ r = 3) ∨ (¬ written ∧ ¬ message ∧ idle ∧ r = 0) →
      ∃ x, exec (.doze a c m g t) s = .next x ∧ RegIs s x c r ∧ x.pc = s.inSequence 4 ∧ OnlyTask s x ∧ x.task.watch = none) ∧
    (∀ i, ¬ written → ¬ message → ¬ idle → (s.coreAt s.cur.core).freeSlot = some i →
      (s.coreAt s.cur.core).vectorDone s.task.tid = true →
      ∃ x p, exec (.doze a c m g t) s = .next x ∧ tabFind (x.coreAt s.cur.core).parks i = some p ∧ p.task.tid = s.task.tid ∧
        p.task.pc = s.task.pc ∧ p.task.g = s.task.g ∧ p.task.doze = some doze ∧ p.causes = causes ∧ SameMemory s x) ∧
    (¬ written → ¬ message → ¬ idle → ¬ parks →
      ∃ x, exec (.doze a c m g t) s = .next x ∧ SameMemory s x ∧ let y := (x.coreAt s.cur.core).bank s.urgent
        y.status = .held ∧ y.tid = s.task.tid ∧ y.pc = s.task.pc ∧ y.g = s.task.g ∧ y.doze = some doze ∧ y.heldFor = causes)) ∧
  (∀ (s : State) (core : Nat) (z : Machine.Task), (s.coreAt core).firstDoze = some z → s.coreGoes core = true →
    z.dozeEnd ≤ 2 * (s.now + Config.elapsed s.tick) →
    ∃ t, exec (.dozeTimeout core) s = .next t ∧ SameMemory s t ∧
      (∀ i p, (i, p) ∈ (s.coreAt core).parks → p.task.tid = z.tid → p.task.dozesFor (fun _ => true) = true →
        ∃ q, (i, q) ∈ (t.coreAt core).parks ∧ q.task.doze = p.task.doze.map (fun d => { d with result := some 4 }) ∧
          q.task.pc = p.task.pc ∧ q.task.g = p.task.g ∧ ∀ c ∈ q.causes, c.why = .doze → c.cleared = true) ∧
      (∀ urg, let y := (s.coreAt core).bank urg; let x := (t.coreAt core).bank urg
        y.tid = z.tid → y.dozesFor (fun _ => true) = true →
        x.doze = y.doze.map (fun d => { d with result := some 4 }) ∧ x.pc = y.pc ∧ x.g = y.g ∧
          ∀ c ∈ x.heldFor, c.why = .doze → c.cleared = true)) ∧
  (∀ (k : Core) (z : Machine.Task), k.firstDoze = some z → let due (x : Machine.Task) := x.dozesFor (fun d => decide (d.limit ≠ 0)) = true
    z ∈ k.tasks ∧ due z ∧ ∀ x ∈ k.tasks, due x → z.dozeEnd ≤ x.dozeEnd)

/-- R297 to R305: the SYNC instructions.
One coherent memory (log 6), the wait of doze for a slot (log 43) and the moment of a time-out (log 4) are the model's choices. -/
def Obligations.SyncInstructionsOrderAndWait : Prop :=
  fencesComplete ∧ acquireAndReleaseAccess ∧ watchNotesItsLine ∧ dozeEndsOrParks

/-- A group after a member core has arrived once more (R292). -/
def arrived (x : Group) (core : Nat) : Group :=
  { x with members := x.members.map fun y => if y.core = core ∧ y.absent = false then { y with count := (y.count + 1) % 2 ^ 32 } else y }

/-- R292, R296: garr of a member that is not two ahead, with its stores performed, writes the number of its phase and counts the
arrival; where every member, present or absent, has then arrived the phase completes. A member that is two ahead, or whose posted
stores are not acknowledged, or whose die is fenced (R294), waits at the instruction. -/
def garrArrives : Prop :=
  ∀ (s u : State) (a c : BitVec 5) (m : Member), let g := fieldOf (s.rg a) 7 0; let core := s.cur.core
    (s.groupAt g).memberOf core = some m → Drained s u → u.cur = s.cur →
    ((s.groupAt g).ahead m ≠ 2 → (u.coreAt core).postedHere u.device = false → u.fence.getLsbD (dieOf core) = false → u.task.stepping = false →
      ∃ t, exec (.garr a c) s = .next t ∧ RegIs u t c (BitVec.ofNat 64 m.count) ∧ t.pc = u.inSequence 4 ∧ SameMemory u t ∧
        ((arrived (u.groupAt g) core).full = false → (t.groupAt g).phase = (u.groupAt g).phase ∧
          (t.groupAt g).members = (arrived (u.groupAt g) core).members) ∧
        ((arrived (u.groupAt g) core).full = true → ∃ n, 1 ≤ n ∧ (t.groupAt g).phase = ((u.groupAt g).phase + n) % 2 ^ 32)) ∧
    ((s.groupAt g).ahead m = 2 ∨ (u.coreAt core).postedHere u.device = true ∨ u.fence.getLsbD (dieOf core) = true →
      exec (.garr a c) s = .next u)

/-- R296: gwait of a phase that is complete goes on, and of one that is not waits at the instruction; gquery reads the phase, the
arrivals and the members; gwdog sets the limit and begins the measurement of the phase again. -/
def groupReads : Prop :=
  ∀ (s : State) (a b c : BitVec 5) (m : Member), s.task.stepping = false → let g := fieldOf (s.rg a) 7 0; let x := s.groupAt g
    x.memberOf s.cur.core = some m →
    let past := (x.phase + 2 * 2 ^ 32 - fieldOf (s.rg b) 31 0 - 1) % 2 ^ 32 < 2 ^ 31
    (past → ∃ t, exec (.gwait a b) s = .next t ∧ RegsSame s t ∧ t.pc = s.inSequence 4 ∧ OnlyTask s t ∧ t.task.gwait = none) ∧
    (¬ past → ∃ t, exec (.gwait a b) s = .next t ∧ RegsSame s t ∧ t.pc = s.pc ∧ OnlyTask s t ∧ t.task.gwait = some (s.pc, g, fieldOf (s.rg b) 31 0)) ∧
    (∃ t v, exec (.gquery a c) s = .next t ∧ RegIs s t c v ∧ t.pc = s.inSequence 4 ∧ ComputeFrame s t ∧ v = groupSnapshot g m s ∧
      (x.phase < 2 ^ 32 → fieldOf v 31 0 = x.phase ∧
        fieldOf v 42 32 = (x.members.filter fun y => x.ahead y ≥ 1).length % 2048 ∧ fieldOf v 53 43 = x.members.length % 2048)) ∧
    (∃ t, exec (.gwdog a b) s = .next t ∧ RegsSame s t ∧ t.pc = s.inSequence 4 ∧ SameMemory s t ∧
      t.groupAt g = { x with
        limit := fieldOf (s.rg b) 31 0, pausedAt := none
        since := if x.members.any fun m => x.ahead m ≥ 1 then some (s.now + Config.elapsed s.tick) else none })

/-- R295: garr, gwait, gquery and gwdog on a core that is no member of the group take the trap of cause 0x4D. -/
def groupStranger : Prop :=
  ∀ (s : State) (a b c : BitVec 5), (s.groupAt (fieldOf (s.rg a) 7 0)).memberOf s.cur.core = none →
    ∀ i ∈ [Instr.garr a c, .gwait a b, .gquery a c, .gwdog a b], TakesTrap i s s 0x4D 0

/-- R290 to R293: a supervisor's write of the groups its partition owns, which resets each that it gives or takes (of a table with one
entry a group), a core's join and leave, and the watchdog of a phase that is incomplete beyond its limit. -/
def groupEvents : Prop :=
  (∀ (s : State) (part index : Nat) (value : Word), part < 8 → index < (s.partAt part).gown.length → index < 4 →
    (s.groups.map (·.1)).Nodup →
    ∃ t, exec (.gownWrite part index value) s = .next t ∧ nth (t.partAt part).gown index 0 = value ∧ SameMemory s t ∧
      ∀ i < 64, bitOf (nth (s.partAt part).gown index 0) i ≠ bitOf value i → t.groupAt (64 * index + i) = {}) ∧
  (∀ (s : State) (g core : Nat), g < 256 → joinCause (s.partOf core) g core false s = none →
    ∃ t m, exec (.gjoinJoin g core) s = .next t ∧ (t.groupAt g).members = (s.groupAt g).members ++ [m] ∧ m.core = core ∧
      m.count = (s.groupAt g).phase ∧ m.absent = false ∧ some g ∈ (t.coreAt core).gslots ∧ SameMemory s t) ∧
  (∀ (s : State) (g core : Nat), g < 256 → joinCause (s.partOf core) g core true s = none →
    ∃ t, exec (.gjoinLeave g core) s = .next t ∧ (t.groupAt g).memberOf core = none ∧ some g ∉ (t.coreAt core).gslots ∧
      SameMemory s t) ∧
  (∀ (s : State) (g since : Nat), (s.groupAt g).since = some since → (s.groupAt g).limit ≠ 0 → (s.groupAt g).raised = false →
    s.groupPaused g = false → since + (s.groupAt g).limit * 1000 < s.now + Config.elapsed s.tick → (s.groupOwner g).isSome = true →
    ∃ t, exec (.groupWatchdogExpiry g) s = .next t ∧ (t.groupAt g).raised = true ∧ SameMemory s t)

/-- R290 to R296: groups.
The clock of the watchdog (log 4) and the posted stores that garr awaits (log 55) are the model's readings. -/
def Obligations.GroupsArriveWaitAndChange : Prop := garrArrives ∧ groupReads ∧ groupStranger ∧ groupEvents

/-- The causes of R286 do not hold for an endpoint: it is of this device, or its device has a route and is not down. -/
def CanReach (e : BitVec 29) (s : State) : Prop :=
  epDevice e = s.device ∨ s.noRoute (epDevice e) = false ∧ s.deviceDown (epDevice e) = false

/-- What lets a send of R249 start, in the state `s`: a send entry that is not being revoked, with the rights asked for, to an
endpoint that can be reached. -/
def SendMayStart (c : Nat) (urg ordered : Bool) (s : State) : Prop :=
  let e := s.cap0 s.cur.core c
  capKind e = 1 ∧ (s.coreAt s.cur.core).revoking.contains c = false ∧ capRight e 4 = true ∧
    (urg = true → capRight e 5 = true) ∧ (ordered = true → capRight e 6 = true) ∧ CanReach (capEp e) s

/-- The state of an instruction once it no longer counts as waiting under an entry. -/
def unwait (s : State) : State := s.modTask fun t => { t with sendWait := none }

/-- The instruction does not wait under an entry that has been revoked meanwhile. -/
def NotRevoked (s : State) : Prop := ∀ l, s.task.sendWait ≠ some (s.pc, l, true)

/-- Room on the way of an ordered send to another device (R288). -/
def OrderedRoom (ordered : Bool) (e : Word) (v : State) : Prop :=
  ordered = true → epDevice (capEp e) = v.device ∨ v.orderedRoom (epDevice (capEp e)) = true

/-- The sends without a grant: each with its order, and the register that it clears (R249). -/
def sendForms (a b : BitVec 5) (c k : BitVec 4) (x : BitVec 1) : List (Instr × Bool × BitVec 5) :=
  [(.send a c x k, false, 0), (.sendn a b c x k, false, b), (.sendo a c x k, true, 0)]
/-- The sends with a grant. -/
def grantForms (a b : BitVec 5) (c k : BitVec 4) (x : BitVec 1) : List (Instr × Bool) :=
  [(.sendG a b c x k, false), (.sendoG a b c x k, true)]

/-- The message that a send of k dwords under entry c makes (R243, R249): the header of its core, class and entry, the time in word 1,
and what it carries. `v` is the state before it leaves, `t` the one after. -/
def messageOf (v t : State) (c : Nat) (e : Word) (urg ordered grant : Bool) (k : Nat) (pl : List Word) : Packet :=
  let core := v.cur.core
  { kind := .message (header0 (v.endpointOf core) (capClass e) urg ordered c (fieldOf (t.cap1 core c) 7 0) k 0 grant)
      (BitVec.ofNat 64 t.now) pl true
    ep := capEp e, src := v.endpointOf core, core := core, tid := v.task.tid, part := v.partOf core, cls := capClass e
    stop := stopOf core, since := t.now }

/-- A send of `f` completes on the state `v` (R249): the used of its entry goes up by one, a message of the payload in the entry's
class starts from the core's die, and sendn writes 0. -/
def SendDone (f : Instr × Bool × BitVec 5) (s v : State) (c : Nat) (urg : Bool) (k : Nat) (e : Word) (pl : List Word) : Prop :=
  let core := s.cur.core
  ∃ t, exec f.1 s = .next t ∧ RegIs v t f.2.2 0 ∧ t.pc = v.inSequence 4 ∧ SameMemory v t ∧ OtherCoresSame core v t ∧
    (t.coreAt core).spm = cellsSet (v.coreAt core).spm (v.tableAt core + 16 * c)
      (bytesOf (bumpField e 25 19 1) ++ bytesOf (v.cap1 core c)) ∧
    StartsFrom v t (dieOf core) (messageOf v t c e urg f.2.1 false k (pad8 pl))

/-- A send of `f` with a grant completes on the state `v` (R249): payload dwords 6 and 7 hold the entry j, and it is invalid here. -/
def GrantDone (f : Instr × Bool) (s v : State) (c : Nat) (urg : Bool) (k j : Nat) (e h h1 : Word) (pl : List Word) : Prop :=
  let core := s.cur.core
  ∃ t, exec f.1 s = .next t ∧ RegsSame v t ∧ t.pc = v.inSequence 4 ∧ SameMemory v t ∧ OtherCoresSame core v t ∧
    (t.coreAt core).spm = cellsSet (cellsSet (v.coreAt core).spm (v.tableAt core + 16 * c)
      (bytesOf (bumpField e 25 19 1) ++ bytesOf (v.cap1 core c))) (v.tableAt core + 16 * j) (bytesOf 0 ++ bytesOf 0) ∧
    StartsFrom v t (dieOf core)
      (messageOf v t c e urg f.2 true k (((pad8 pl).set 6 (h &&& ~~~0x7C000000#64)).set 7 h1))

/-- The payload of a send of k dwords from the core's own scratchpad (R103, R249): none, or aligned dwords inside it that are not
poisoned. -/
def LocalPayload (s : State) (ea : Word) (k : Nat) (pl : List Word) : Prop :=
  let x := s.coreAt s.cur.core; let off := ea.toNat % 2 ^ 18
  k = 0 ∧ pl = [] ∨
    ea.toNat % 8 = 0 ∧ bitOf ea 63 = true ∧ fieldOf ea 62 18 = 0 ∧ off + 8 * k ≤ min x.spmSize (2 ^ 18) ∧
      x.spmBad off (8 * k) = false ∧ pl = (List.range k).map fun i => wordOfList (cellsGet x.spm (off + 8 * i) 8)

/-- R249: in every state with an empty store buffer and no read of an engine under way, a send of each form without a grant whose
payload stands in the core's scratchpad, under an entry that lets it start and has allowance left, completes. -/
def sendsComplete : Prop :=
  ∀ (s : State) (a b : BitVec 5) (c k : BitVec 4) (x : BitVec 1) (pl : List Word), let v := unwait s; let core := s.cur.core
    NotRevoked s → (s.coreAt core).sb = [] → (s.coreAt core).engineReads = false → s.task.stepping = false →
    LocalPayload v (s.rg a) k.toNat pl → let e := v.cap0 core c.toNat
    capUsed e ≠ capAllow e → ∀ f ∈ sendForms a b c k x, SendMayStart c.toNat (x = 1) f.2.1 v → OrderedRoom f.2.1 e v →
      SendDone f s v c.toNat (x = 1) k.toNat e pl

/-- What a send with a grant asks of the entry that it grants (R249, R259). -/
def Grantable (core c j : Nat) (h : Word) (u : State) : Prop :=
  capKind h ≠ 0 ∧ (u.coreAt core).revoking.contains j = false ∧ capRight h 10 = true ∧ j ≠ c

/-- R249: under the same conditions a send with a grant of an entry that may be granted and has no use outstanding completes. -/
def grantsComplete : Prop :=
  ∀ (s : State) (a b : BitVec 5) (c k : BitVec 4) (x : BitVec 1) (pl : List Word), let v := unwait s; let core := s.cur.core
    NotRevoked s → (s.coreAt core).sb = [] → (s.coreAt core).engineReads = false → s.task.stepping = false →
    LocalPayload v (s.rg a) k.toNat pl → let e := v.cap0 core c.toNat; let j := fieldOf (s.rg b) 3 0
    let h := v.cap0 core j; let h1 := v.cap1 core j
    capUsed e ≠ capAllow e → Grantable core c.toNat j h v → capUsed h = 0 →
    ∀ f ∈ grantForms a b c k x, SendMayStart c.toNat (x = 1) f.2 v → OrderedRoom f.2 e v →
      GrantDone f s v c.toNat (x = 1) k.toNat j e h h1 pl

/-- R249: a send of each form without a grant, with allowance left, completes. `u` is the state after the payload is read, `v` after
the earlier stores have drained and with no read of an engine under way. -/
def sendsSend : Prop :=
  ∀ (s u v : State) (a b : BitVec 5) (c k : BitVec 4) (x : BitVec 1) (pl : List Word),
    NotRevoked s → (k ≠ 0 → (s.rg a).toNat % 8 = 0) →
    loadWords (s.rg a) k.toNat (unwait s) = .ok pl u → drain u = .ok () v → u.cur = s.cur → v.cur = s.cur →
    v.task.stepping = false → (v.coreAt s.cur.core).engineReads = false → let e := (unwait s).cap0 s.cur.core c.toNat
    capUsed e ≠ capAllow e →
    ∀ f ∈ sendForms a b c k x, SendMayStart c.toNat (x = 1) f.2.1 (unwait s) → OrderedRoom f.2.1 e v →
      SendDone f s v c.toNat (x = 1) k.toNat e pl

/-- R249: with .g the entry that g[b] names moves into the message. -/
def sendsGrant : Prop :=
  ∀ (s u v : State) (a b : BitVec 5) (c k : BitVec 4) (x : BitVec 1) (pl : List Word),
    NotRevoked s → (k ≠ 0 → (s.rg a).toNat % 8 = 0) →
    loadWords (s.rg a) k.toNat (unwait s) = .ok pl u → drain u = .ok () v → u.cur = s.cur → v.cur = s.cur →
    v.task.stepping = false → let core := s.cur.core
    (v.coreAt core).engineReads = false → let e := (unwait s).cap0 core c.toNat; let j := fieldOf (u.rg b) 3 0
    let h := u.cap0 core j; let h1 := u.cap1 core j
    capUsed e ≠ capAllow e → Grantable core c.toNat j h u → capUsed h = 0 →
    ∀ f ∈ grantForms a b c k x, SendMayStart c.toNat (x = 1) f.2 (unwait s) → OrderedRoom f.2 e v →
      GrantDone f s v c.toNat (x = 1) k.toNat j e h h1 pl

/-- R249: a send under an entry that is no send entry takes the trap of cause 0x20, one under an entry being revoked, or that was
revoked while the send waited, that of 0x2C, one without the right S, and sendo without O, that of 0x21. -/
def sendsRefused : Prop :=
  ∀ (s : State) (a b : BitVec 5) (c k : BitVec 4) (x : BitVec 1),
    let core := s.cur.core; let e := (unwait s).cap0 core c.toNat; let r := ((unwait s).coreAt core).revoking.contains c.toNat
    (∀ i ∈ [Instr.send a c x k, .sendG a b c x k, .sendn a b c x k, .sendo a c x k, .sendoG a b c x k],
      (∀ l, s.task.sendWait = some (s.pc, l, true) → TakesTrap i s (unwait s) 0x2C 0) ∧
      (NotRevoked s → capKind e ≠ 1 → TakesTrap i s (unwait s) 0x20 0) ∧
      (NotRevoked s → capKind e = 1 → r = true → TakesTrap i s (unwait s) 0x2C 0) ∧
      (NotRevoked s → capKind e = 1 → r = false → capRight e 4 = false → TakesTrap i s (unwait s) 0x21 0)) ∧
    (∀ i ∈ [Instr.sendo a c x k, .sendoG a b c x k], NotRevoked s → capKind e = 1 → r = false → capRight e 6 = false →
      TakesTrap i s (unwait s) 0x21 0)

/-- R249: without allowance, with the stores drained and no read of an engine under way, sendn writes 1 and sends nothing, and the
other sends without a grant wait at the instruction, under their entry. -/
def sendsWithoutAllowance : Prop :=
  ∀ (s v : State) (a b : BitVec 5) (c k : BitVec 4) (x : BitVec 1) (pl : List Word), let core := s.cur.core
    let e := (unwait s).cap0 core c.toNat
    NotRevoked s → (s.coreAt core).sb = [] ∧ LocalPayload (unwait s) (s.rg a) k.toNat pl ∧ v = unwait s ∨
      (k ≠ 0 → (s.rg a).toNat % 8 = 0) ∧ (∃ u, loadWords (s.rg a) k.toNat (unwait s) = .ok pl u ∧ drain u = .ok () v) →
    v.cur = s.cur → v.task.stepping = false → (v.coreAt core).engineReads = false → capUsed e = capAllow e →
    (SendMayStart c.toNat (x = 1) false (unwait s) →
      (GoesOnWith (.sendn a b c x k) s v b 1 fun t => ComputeFrame v t) ∧
      ∃ t, exec (.send a c x k) s = .next t ∧ RegsSame v t ∧ t.pc = v.pc ∧ OnlyTask v t ∧
        t.task.sendWait = some (v.pc, [c.toNat], false)) ∧
    (SendMayStart c.toNat (x = 1) true (unwait s) → ∃ t, exec (.sendo a c x k) s = .next t ∧ RegsSame v t ∧ t.pc = v.pc ∧
      OnlyTask v t ∧ t.task.sendWait = some (v.pc, [c.toNat], false))

/-- R247 to R249: the sends.
The loop that visits two stops is open (log 41). -/
def Obligations.SendsMoveAMessage : Prop :=
  sendsComplete ∧ grantsComplete ∧ sendsSend ∧ sendsGrant ∧ sendsRefused ∧ sendsWithoutAllowance

/-- R250: recv of a selected entry stores header and payload where a is not 0, writes the header and sr.mhead with bit 63 set, keeps
the entry's grant as pending, and frees the entry. `u` is the state after the stores have entered the buffer. -/
def recvTakesItsEntry : Prop :=
  ∀ (s u : State) (a b : BitVec 5) (n y : BitVec 1) (c : BitVec 3) (e : InboxEntry), let core := s.cur.core
    (s.coreAt core).selected s.task (y = 1) c.toNat = some e →
    (a = 0 ∧ u = s ∨ a ≠ 0 ∧ (s.rg a).toNat % 16 = 0 ∧ ∃ w ps,
      checkStores (storePieces (s.rg a) ((e.shown :: e.h1 :: e.payload).flatMap bytesOf) 11) s = .ok ps w ∧
      enterStores ps w = .ok () u) → u.cur = s.cur → u.task.stepping = false →
    GoesOnWith (.recv a b n y c) s u b e.shown fun t => SameMemory u t ∧ t.task.mhead = e.shown ∧
      t.task.grant = (if bitOf e.h0 52 then some (nth e.payload 6 0, nth e.payload 7 0) else none) ∧
      (t.coreAt core).inbox = (u.coreAt core).inbox.filter fun z => z.id ≠ e.id

/-- R250, R450: in every state with an empty store buffer, recv of a selected entry into 80 bytes of the core's scratchpad that a
plain store may write completes: header and payload stand in the store buffer as ten entries. -/
def recvStoresItsEntry : Prop :=
  ∀ (s : State) (a b : BitVec 5) (n y : BitVec 1) (c : BitVec 3) (e : InboxEntry), let core := s.cur.core
    let ea := s.rg a; let off := ea.toNat % 2 ^ 18; let table := s.tableAt core
    (s.coreAt core).selected s.task (y = 1) c.toNat = some e → e.payload.length = 8 → s.task.stepping = false →
    (s.coreAt core).sb = [] → a ≠ 0 → ea.toNat % 16 = 0 → bitOf ea 63 = true → fieldOf ea 62 18 = 0 →
    off + 80 ≤ min (s.coreAt core).spmSize (2 ^ 18) → (s.task.priv = true ∨ table + 256 ≤ off ∨ off + 80 ≤ table) →
    GoesOnWith (.recv a b n y c) s s b e.shown fun t => SameMemory s t ∧ t.task.mhead = e.shown ∧
      (t.coreAt core).sb = (List.range 10).map (fun i => { isLocal := true, addr := off + 8 * i
                                                           bytes := bytesOf (nth (e.shown :: e.h1 :: e.payload) i 0) }) ∧
      (t.coreAt core).inbox = (s.coreAt core).inbox.filter fun z => z.id ≠ e.id

/-- R250: with nothing selected, recv.nw writes 0, and recv waits, nothing changed; peek writes the selected header word, or 0, and
changes nothing else. -/
def recvAndPeekOtherwise : Prop :=
  ∀ (s : State) (a b : BitVec 5) (y : BitVec 1) (c : BitVec 3), s.task.stepping = false →
    let sel := (s.coreAt s.cur.core).selected s.task (y = 1) c.toNat
    (a = 0 ∨ (s.rg a).toNat % 16 = 0 → sel = none →
      (GoesOnWith (.recv a b 1 y c) s s b 0 fun t => ComputeFrame s t) ∧ exec (.recv a b 0 y c) s = .next s) ∧
    (a ≠ 0 → (s.rg a).toNat % 16 ≠ 0 → ∀ n, TakesTrap (.recv a b n y c) s s 0x10 (s.rg a)) ∧
    GoesOnWith (.peek b y c) s s b (match sel with | some e => e.shown | none => 0) fun t => ComputeFrame s t

/-- R251, R245: cmask of a class below 7 sets its mask bit and notes the task; cunmask clears the bit and claims the held messages of
the class that have a handler. Of class 7, which is not held, the mask does not change. -/
def masksHoldAClass : Prop :=
  ∀ (s : State) (c : BitVec 3), s.task.stepping = false → let core := s.cur.core; let m := (s.coreAt core).mask
    let bit : BitVec 7 := BitVec.ofNat 7 (2 ^ c.toNat)
    (GoesOn (.cmask c) s s fun t => SameMemory s t ∧ OtherCoresSame core s t ∧
      (t.coreAt core).mask = (if c = 7 then m else m ||| bit) ∧ (t.coreAt core).inbox = (s.coreAt core).inbox) ∧
    (GoesOn (.cunmask c) s s fun t => SameMemory s t ∧ OtherCoresSame core s t ∧
      (t.coreAt core).mask = (if c = 7 then m else m &&& ~~~bit) ∧
      (c ≠ 7 → ∀ e ∈ (t.coreAt core).inbox, e.cls = c.toNat → e.handler ≠ 0 → e.forActor = none → e.claimed = true))

/-- R250, R251: taking messages.
That a held message keeps the handler found at its arrival is the model's reading (log 37). -/
def Obligations.ReceivesTakeMessages : Prop := recvTakesItsEntry ∧ recvStoresItsEntry ∧ recvAndPeekOtherwise ∧ masksHoldAClass

/-- The posted stores, each with its right, whether it counts nibbles, and how many bytes or nibbles it writes (R252, R253). -/
def postForms (a b : BitVec 5) (c n : BitVec 4) (z : BitVec 3) : List (Instr × Nat × Bool × Nat) :=
  [ (.pst a b c z, 7, false, szBytes z.toNat), (.pst4 a b c n, 8, true, n.toNat + 1) ]

/-- R252 to R254: a posted store inside its window, with the right and the alignment asked for, to a target that can be reached,
takes the lowest free journal entry after the earlier stores have drained, and its packet starts; the task goes on. With no entry
free it waits at the instruction, under its window. -/
def Obligations.PostedStoresTakeAJournalEntry : Prop :=
  ∀ (s u : State) (a b : BitVec 5) (c n : BitVec 4) (z : BitVec 3), let core := s.cur.core; let v := unwait s
    let e := s.cap0 core c.toNat; let w1 := s.cap1 core c.toNat; let x := s.rg a
    let r := (s.coreAt core).revoking.contains c.toNat
    ∀ f ∈ postForms a b c n z, let per := if f.2.2.1 then 2 else 1
      (∀ l, s.task.sendWait = some (s.pc, l, true) → TakesTrap f.1 s v 0x2C 0) ∧
      (NotRevoked s → capKind e ≠ 2 → TakesTrap f.1 s v 0x20 0) ∧
      (NotRevoked s → capKind e = 2 → r = true → TakesTrap f.1 s v 0x2C 0) ∧
      (NotRevoked s → capKind e = 2 → r = false → capRight e f.2.1 = false ∨ winLen w1 * per < x.toNat + f.2.2.2 →
        TakesTrap f.1 s v 0x21 0) ∧
      (NotRevoked s → capKind e = 2 → r = false → capRight e f.2.1 = true → x.toNat + f.2.2.2 ≤ winLen w1 * per →
        (if f.2.2.1 then x.toNat % 16 + f.2.2.2 ≤ 16 else x.toNat % f.2.2.2 = 0) → CanReach (capEp e) s →
        Drained v u → u.cur = s.cur →
        (∀ ix, tabFree (u.coreAt core).journal 32 0 = some ix → u.task.stepping = false →
          GoesOn f.1 s u fun t => SameMemory u t ∧ OtherCoresSame core u t ∧ ∃ j,
            (t.coreAt core).journal = tabPut (u.coreAt core).journal ix j ∧ j.id = u.nextUid ∧ j.ep = capEp e ∧
            j.off = winBase w1 * per + x.toNat ∧ j.size = f.2.2.2 ∧ j.nibble = f.2.2.1 ∧ j.data = s.rg b ∧ j.kept = false ∧
            j.since = u.now ∧ j.cls = capClass e ∧ StartsFrom u t (dieOf core)
              { kind := if f.2.2.1 then .pst4 j.id j.off j.size j.data else .pst j.id j.off j.size j.data
                ep := capEp e, src := u.endpointOf core, core := core, tid := u.task.tid, part := u.partOf core
                cls := capClass e, stop := stopOf core, since := u.now }) ∧
        (tabFree (u.coreAt core).journal 32 0 = none → ∃ t, exec f.1 s = .next t ∧ RegsSame u t ∧ t.pc = u.pc ∧ OnlyTask u t ∧
          t.task.sendWait = some (u.pc, [c.toNat], false)))

/-- The capability table of the current core with an entry written (R235). -/
def EntryWritten (s t : State) (j : Nat) (w0 w1 : Word) : Prop :=
  SameMemory s t ∧ OnlyCore s t ∧
    (t.coreAt t.cur.core).spm =
      cellsSet (s.coreAt s.cur.core).spm (s.tableAt s.cur.core + 16 * j) (bytesOf w0 ++ bytesOf w1)

/-- R257: capld of a template entry, or of the pending grant, writes an invalid entry with pv and used of zero; a valid one takes the
trap of cause 0x21, and with nothing to take that of 0x20. -/
def capldWritesItsEntry : Prop :=
  ∀ (s : State) (c k : BitVec 4), let core := s.cur.core; let e := s.cap0 core c.toNat
    (capKind e ≠ 0 → TakesTrap (.capld c k) s s 0x21 0 ∧ TakesTrap (.capldG c) s s 0x21 0) ∧
    (capKind e = 0 → s.task.grant = none → TakesTrap (.capldG c) s s 0x20 0) ∧
    (capKind e = 0 → s.templateQueue core = none → TakesTrap (.capld c k) s s 0x20 0) ∧
    (∀ p q w0 w1, capKind e = 0 → s.templateQueue core = some (p, q) → s.templateEntry p q k.toNat = (w0, w1) →
      (capKind w0 = 0 → TakesTrap (.capld c k) s s 0x20 0) ∧
      (capKind w0 ≠ 0 → s.task.stepping = false →
        GoesOn (.capld c k) s s fun t => EntryWritten s t c.toNat (withField w0 30 30 0) w1)) ∧
    (∀ w0 w1, capKind e = 0 → s.task.grant = some (w0, w1) → s.task.stepping = false →
      GoesOn (.capldG c) s s fun t => EntryWritten s t c.toNat (withField (withField w0 30 30 0) 25 19 0) w1 ∧
        t.task.grant = none)

/-- R258: caprs writes a narrower entry: of its parent's kind, the rights that g[a] keeps, used of zero, its parent named; of a send
entry with the allowance moved to it, of a window with the part asked for. -/
def caprsNarrows : Prop :=
  ∀ (s : State) (a : BitVec 5) (b c : BitVec 4), s.task.stepping = false → let core := s.cur.core; let x := s.rg a
    let e := s.cap0 core b.toNat; let e1 := s.cap1 core b.toNat; let mv := fieldOf x 14 8; let adj := fieldOf x 26 15
    let len := fieldOf x 38 27
    (capKind e = 0 → TakesTrap (.caprs a b c) s s 0x20 0) ∧
    (capKind e ≠ 0 → capRight e 10 = false ∨ capKind (s.cap0 core c.toNat) ≠ 0 ∨ fieldOf x 63 39 ≠ 0 →
      TakesTrap (.caprs a b c) s s 0x21 0) ∧
    (capRight e 10 = true → capKind (s.cap0 core c.toNat) = 0 → fieldOf x 63 39 = 0 →
      (capKind e = 1 → capAllow e < capUsed e + mv → TakesTrap (.caprs a b c) s s 0x22 0) ∧
      (capKind e = 1 → capUsed e + mv ≤ capAllow e → ∃ n, GoesOn (.caprs a b c) s s (fun t => SameMemory s t ∧ OnlyCore s t ∧
          (t.coreAt core).spm = cellsSet (cellsSet (s.coreAt core).spm (s.tableAt core + 16 * b.toNat)
            (bytesOf (withField e 18 12 (capAllow e - mv)) ++ bytesOf e1)) (s.tableAt core + 16 * c.toNat)
              (bytesOf n ++ bytesOf e1)) ∧
        capKind n = 1 ∧ fieldOf n 11 4 = fieldOf e 11 4 &&& fieldOf x 7 0 ∧ capAllow n = mv ∧ capUsed n = 0 ∧
        fieldOf n 29 26 = b.toNat ∧ bitOf n 30 = true ∧ capEp n = capEp e ∧ capClass n = capClass e) ∧
      (capKind e = 3 → mv = 0 → ∃ n, GoesOn (.caprs a b c) s s (fun t => EntryWritten s t c.toNat n e1) ∧
        capKind n = 3 ∧ fieldOf n 11 4 = fieldOf e 11 4 &&& fieldOf x 7 0 ∧ fieldOf n 29 26 = b.toNat ∧ bitOf n 30 = true) ∧
      (capKind e = 2 → mv = 0 → fieldOf e1 23 12 + 1 < adj + len + 1 → TakesTrap (.caprs a b c) s s 0x21 0) ∧
      (capKind e = 2 → mv = 0 → adj + len + 1 ≤ fieldOf e1 23 12 + 1 →
        ∃ n n1, GoesOn (.caprs a b c) s s (fun t => EntryWritten s t c.toNat n n1) ∧
          capKind n = 2 ∧ fieldOf n 11 4 = fieldOf e 11 4 &&& fieldOf x 7 0 ∧ fieldOf n 29 26 = b.toNat ∧ bitOf n 30 = true ∧
          capEp n = capEp e ∧ winBase n1 = (fieldOf e1 11 0 + adj) % 4096 * 64 ∧ winLen n1 = (len + 1) * 64) ∧
      (capKind e ≠ 0 → capKind e ≠ 1 → mv ≠ 0 → TakesTrap (.caprs a b c) s s 0x21 0))

/-- R259: caprv of an entry whose descendants hold no send without its credit clears it and them, and gives the allowance of a send
entry back to a send entry that is its parent; while one holds such a send, nothing new starts under them and the instruction waits.
Of an invalid entry it has no effect. -/
def caprvRevokes : Prop :=
  ∀ (s : State) (c : BitVec 4), s.task.stepping = false → let core := s.cur.core; let e := s.cap0 core c.toNat
    let hit (j : Nat) : Prop := capKind (s.cap0 core j) ≠ 0 ∧ s.descends core c.toNat 16 j = true
    (capKind e = 0 → GoesOn (.caprv c) s s fun t => ComputeFrame s t) ∧
    (∀ i < 16, hit i → capKind (s.cap0 core i) = 1 → capUsed (s.cap0 core i) ≠ 0 → capKind e ≠ 0 →
      ∃ t, exec (.caprv c) s = .next t ∧ RegsSame s t ∧ t.pc = s.pc ∧ SameMemory s t ∧ OtherCoresSame core s t ∧
        (t.coreAt core).spm = (s.coreAt core).spm ∧ ∀ j < 16, hit j → (t.coreAt core).revoking.contains j = true) ∧
    (capKind e ≠ 0 → Memory.wf (s.coreAt core).spm = true →
      (∀ j < 16, hit j → capKind (s.cap0 core j) = 1 → capUsed (s.cap0 core j) = 0) →
      GoesOn (.caprv c) s s fun t => SameMemory s t ∧ OtherCoresSame core s t ∧
        (∀ j < 16, hit j → t.cap0 core j = 0 ∧ t.cap1 core j = 0) ∧
        (∀ j < 16, ¬ hit j → (bitOf e 30 = true → j ≠ fieldOf e 29 26) → t.cap0 core j = s.cap0 core j) ∧
        (capKind e = 1 → bitOf e 30 = true → ¬ hit (fieldOf e 29 26) → capKind (s.cap0 core (fieldOf e 29 26)) = 1 →
          capAllow (t.cap0 core (fieldOf e 29 26)) = (capAllow (s.cap0 core (fieldOf e 29 26)) + capAllow e) % 128))

/-- R260, R261: capmint in the privileged view writes an acceptable pair of words to an invalid entry, and takes the trap of cause
0x21 for any other pair or a valid entry, of 0x29 for an endpoint of this device that no live block has; capq reads a word of an
entry, 0 of an invalid one. -/
def capmintAndCapq : Prop :=
  ∀ (s : State) (a b : BitVec 5) (c : BitVec 4) (w : BitVec 1), let core := s.cur.core; let e := s.cap0 core c.toNat
    let w0 := s.rg a; let here := (capKind w0 = 1 ∨ capKind w0 = 2) ∧ epDevice (capEp w0) = s.device
    (s.task.priv = true → mintable w0 (s.rg b) = false ∨ capKind e ≠ 0 → TakesTrap (.capmint a b c) s s 0x21 0) ∧
    (s.task.priv = true → mintable w0 (s.rg b) = true → capKind e = 0 → here → s.blockNamed (capEp w0) = none →
      TakesTrap (.capmint a b c) s s 0x29 0) ∧
    (s.task.priv = true → mintable w0 (s.rg b) = true → capKind e = 0 → s.task.stepping = false →
      (here → ∃ x, s.blockNamed (capEp w0) = some x ∧ (s.partOf core = 0 ∨ x.2.part = s.partOf core)) →
      GoesOn (.capmint a b c) s s fun t => EntryWritten s t c.toNat w0 (s.rg b)) ∧
    (s.task.stepping = false → GoesOnWith (.capq a c w) s s a
      (if capKind e = 0 then 0 else if w = 1 then s.cap1 core c.toNat else e) fun t => ComputeFrame s t)

/-- R257 to R261: the capability instructions. -/
def Obligations.CapabilityInstructionsAct : Prop := capldWritesItsEntry ∧ caprsNarrows ∧ caprvRevokes ∧ capmintAndCapq

/-- R262: a copy command has been queued behind those the engine has: its kind, ranges, notification, with nothing of it done. -/
def CopyQueued (u t : State) (kind : CopyKind) (dst src : Word) (rowBytes rows : Nat) (ds ss : Int) (n : BitVec 1) : Prop :=
  ∃ q : CopyCommand, (t.coreAt t.cur.core).cq = (u.coreAt u.cur.core).cq ++ [q] ∧ q.kind = kind ∧ q.dst = dst ∧ q.src = src ∧
    q.rowBytes = rowBytes ∧ q.rows = rows ∧ q.dstStride = ds ∧ q.srcStride = ss ∧ q.notify = decide (n = 1) ∧
    q.tid = u.task.tid ∧ q.pc = u.pc ∧ q.id = u.nextUid ∧ q.row = 0 ∧ q.done = 0 ∧ q.written = 0 ∧ q.status = 0 ∧
    q.revoked = false ∧ SameMemory u t ∧ OtherCoresSame u.cur.core u t

/-- A range of a copy passes the local checks (R264): it is not local, or inside the core's scratchpad and off its capability
table. -/
def RangeOk (s : State) (ea : Word) (n : Nat) : Prop :=
  let core := s.cur.core; let o := ea.toNat % 2 ^ 18; let t := s.tableAt core
  bitOf ea 63 = true → n ≠ 0 → fieldOf ea 62 18 = 0 ∧ o + n ≤ (s.coreAt core).spmSize ∧ (t + 256 ≤ o ∨ o + n ≤ t)

/-- R264: cpy of up to 2^24 - 1 bytes whose local ranges pass their checks is queued, once there is room and the earlier stores have
drained, and waits with nothing done until there is; a longer one takes the trap of cause 0x52, with sr.cflt of zero. -/
def cpyQueues : Prop :=
  ∀ (s u : State) (a b c : BitVec 5) (n : BitVec 1), let core := s.cur.core; let len := (s.rg c).toNat
    (2 ^ 24 ≤ len → TakesTrap (.cpy a b c n) s (s.modCore core fun k => { k with cflt := 0 }) 0x52 0) ∧
    (len < 2 ^ 24 → RangeOk s (s.rg a) len → RangeOk s (s.rg b) len →
      (3 ≤ (s.coreAt core).cq.length → exec (.cpy a b c n) s = .next s) ∧
      ((s.coreAt core).cq.length < 3 → Drained s u → u.cur = s.cur → u.task.stepping = false →
        GoesOn (.cpy a b c n) s u fun t => CopyQueued u t .copy (s.rg a) (s.rg b) len 1 0 0 n))

/-- The k words of a descriptor in memory: of the core's own scratchpad, which no store waits to change, or as its loads return
them, which leave the state `r`. -/
def Descriptor (s r : State) (ea : Word) (k : Nat) (w : List Word) : Prop :=
  (s.coreAt s.cur.core).sb = [] ∧ LocalPayload s ea k w ∧ r = s ∨ loadWords ea k s = .ok w r

/-- R264: cpy2 reads its descriptor, and queues a copy of its rows; a misaligned descriptor takes the trap of cause 0x10, a reserved
bit that of 0x01, rb or nr out of range that of 0x52. -/
def cpy2Queues : Prop :=
  ∀ (s r u : State) (a : BitVec 5) (n : BitVec 1) (w : List Word),
    ((s.rg a).toNat % 64 ≠ 0 → TakesTrap (.cpy2 a n) s s 0x10 (s.rg a)) ∧
    ((s.rg a).toNat % 64 = 0 → Descriptor s r (s.rg a) 8 w → r.cur = s.cur →
      let rb := fieldOf (nth w 2 0) 31 0; let nr := fieldOf (nth w 2 0) 63 32
      let ds := (nth w 3 0).toInt; let ss := (nth w 4 0).toInt
      let clear := nth w 5 0 = 0 ∧ nth w 6 0 = 0 ∧ nth w 7 0 = 0; let sized := 0 < rb ∧ rb < 2 ^ 24 ∧ 0 < nr ∧ nr ≤ 65536
      (¬ clear → TakesTrap (.cpy2 a n) s r 0x01 0) ∧
      (clear → ¬ sized → TakesTrap (.cpy2 a n) s (r.modCore s.cur.core fun k => { k with cflt := 0 }) 0x52 0) ∧
      (clear → sized →
        (∀ i < nr, RangeOk r (nth w 0 0 + wordOfInt (ds * i)) rb ∧ RangeOk r (nth w 1 0 + wordOfInt (ss * i)) rb) →
        (r.coreAt s.cur.core).cq.length < 3 → Drained r u → u.cur = s.cur → u.task.stepping = false →
        GoesOn (.cpy2 a n) s u fun t => CopyQueued u t .copy (nth w 0 0) (nth w 1 0) rb nr ds ss n))

/-- R265: cput and cget of a window that passes their checks are queued, the window's side at its base plus the offset; with no room
in the queue they wait under the window, and one that was revoked meanwhile takes the trap of cause 0x2C. -/
def windowCopiesQueue : Prop :=
  ∀ (s u : State) (a b c : BitVec 5) (o n : BitVec 1) (k : BitVec 4), let core := s.cur.core; let v := unwait s
    let e := s.cap0 core k.toNat; let w1 := s.cap1 core k.toNat; let r := (s.coreAt core).revoking.contains k.toNat
    let put : Instr := .cput a b c o n k; let get : Instr := .cget a b c n k
    let mayPut := capRight e 7 = true ∧ (o = 1 → capRight e 6 = true) ∧ (s.rg a).toNat + (s.rg c).toNat ≤ winLen w1
    let mayGet := capRight e 9 = true ∧ (s.rg b).toNat + (s.rg c).toNat ≤ winLen w1
    let waits (i : Instr) : Prop := ∃ t, exec i s = .next t ∧ RegsSame v t ∧ t.pc = s.pc ∧ OnlyTask v t ∧
      t.task.sendWait = some (s.pc, [k.toNat], false)
    ((∃ l, s.task.sendWait = some (s.pc, l, true)) → TakesTrap put s v 0x2C 0 ∧ TakesTrap get s v 0x2C 0) ∧
    (NotRevoked s → capKind e ≠ 2 → TakesTrap put s v 0x20 0 ∧ TakesTrap get s v 0x20 0) ∧
    (NotRevoked s → capKind e = 2 → r = true → TakesTrap put s v 0x2C 0 ∧ TakesTrap get s v 0x2C 0) ∧
    (NotRevoked s → capKind e = 2 → r = false → (¬ mayPut → TakesTrap put s v 0x21 0) ∧ (¬ mayGet → TakesTrap get s v 0x21 0)) ∧
    (NotRevoked s → capKind e = 2 → r = false → CanReach (capEp e) s →
      (3 ≤ (s.coreAt core).cq.length → (mayPut → waits put) ∧ (mayGet → waits get)) ∧
      ((s.coreAt core).cq.length < 3 → Drained v u → u.cur = s.cur → u.task.stepping = false →
        (mayPut → GoesOn put s u fun t => CopyQueued u t (.put (capEp e) (capClass e) k.toNat (o = 1))
          (BitVec.ofNat 64 (winBase w1) + s.rg a) (s.rg b) (s.rg c).toNat 1 0 0 n) ∧
        (mayGet → GoesOn get s u fun t => CopyQueued u t (.get (capEp e) (capClass e) k.toNat)
          (s.rg a) (BitVec.ofNat 64 (winBase w1) + s.rg b) (s.rg c).toNat 1 0 0 n)))

/-- R266: cbind binds an unbound q4 to q7 of a normal task to a stream with a count; cbind.off forgets an inbound stream, and an
outbound one whose elements are stored, for which it waits. The queues q0 to q3, a bound queue and a count of zero take the trap of cause 0x1F. -/
def bindsAStream : Prop :=
  ∀ (s u : State) (a b : BitVec 5) (q : BitVec 3) (inward : Bool),
    let i : Instr := if inward then .cbindIn a b q else .cbindOut a b q
    let w := s.rg b; let bound := tabFind s.task.streams q.toNat
    (s.urgent = true → TakesTrap i s s 0x0B 0 ∧ TakesTrap (.cbindOff q) s s 0x0B 0) ∧
    (s.urgent = false → q.toNat < 4 → TakesTrap i s s 0x1F 0 ∧ TakesTrap (.cbindOff q) s s 0x1F 0) ∧
    (s.urgent = false → 4 ≤ q.toNat → bound ≠ none ∨ fieldOf w 31 0 = 0 → TakesTrap i s s 0x1F 0) ∧
    (s.urgent = false → 4 ≤ q.toNat → bound = none → fieldOf w 31 0 ≠ 0 →
      ((s.rg a).toNat % 8 ≠ 0 ∨ fieldOf w 63 32 % 8 ≠ 0 → TakesTrap i s s 0x10 (s.rg a)) ∧
      ((s.rg a).toNat % 8 = 0 → fieldOf w 63 32 % 8 = 0 → Drained s u → u.task.stepping = false →
        GoesOn i s u fun t => OnlyTask u t ∧ SameMemory u t ∧ t.task.streams = tabPut u.task.streams q.toNat
          { inward := inward, base := s.rg a, stride := fieldOf w 63 32, count := fieldOf w 31 0 })) ∧
    (s.urgent = false → 4 ≤ q.toNat → s.task.stepping = false →
      (∀ x, bound = some x → x.inward = false → x.queue ≠ [] → x.fault = false → exec (.cbindOff q) s = .next s) ∧
      ((∀ x, bound = some x → x.inward = true ∨ x.queue = [] ∨ x.fault = true) →
      GoesOn (.cbindOff q) s s fun t => OnlyTask s t ∧ SameMemory s t ∧
        t.task.streams = (match bound with | some _ => tabDel s.task.streams q.toNat | none => s.task.streams)))

/-- R262 to R266: the CPY instructions queue their commands.
The capacity of the queue is the model's reading (log 19). -/
def Obligations.CopyInstructionsQueueCommands : Prop := cpyQueues ∧ cpy2Queues ∧ windowCopiesQueue ∧ bindsAStream

/-- The first command of a core's copy engine may go on: no completion of the engine waits, every earlier memory command of the core
has done its accesses, the command is neither revoked nor ended. -/
def CopyGoes (core : Nat) (c : CopyCommand) (r : List CopyCommand) (s : State) : Prop :=
  (s.coreAt core).cq = c :: r ∧ (s.coreAt core).completionWaits 2 = false ∧ (s.coreAt core).inOrder c.id = true ∧
    c.status = 0 ∧ c.revoked = false ∧ c.row < c.rows ∧ c.done < c.rowBytes

/-- R262: a step of a copy within the device reads one source range and then writes its destination sector, and the command has
advanced by its bytes. `u` is the state after the read, `v` after the write. -/
def copyStep : Prop :=
  ∀ (s u v : State) (core : Nat) (c : CopyCommand) (r : List CopyCommand) (bytes : List Byte), CopyGoes core c r s →
    c.kind = .copy → let n := min (32 - c.dstAt.toNat % 32) (c.rowBytes - c.done)
    copyRead core c c.srcAt n s = .ok (.ok bytes) u → copyWrite core c c.dstAt bytes u = .ok (.ok ()) v →
    (v.coreAt core).cq = c :: r →
    Happens (.copyCommandPerform core) s fun t => SameMemory v t ∧ OtherCoresSame core v t ∧
      (t.coreAt core).spm = (v.coreAt core).spm ∧ ∃ d, (t.coreAt core).cq = d :: r ∧ d.written = c.written + n ∧
        (if c.done + n = c.rowBytes then d.row = c.row + 1 ∧ d.done = 0 else d.row = c.row ∧ d.done = c.done + n)

/-- R262: between two local addresses that lie alike in their sectors, the step moves the scratchpad's bytes. -/
def copyStepLocal : Prop :=
  ∀ (s : State) (core : Nat) (c : CopyCommand) (r : List CopyCommand), CopyGoes core c r s → c.kind = .copy →
    let n := min (32 - c.dstAt.toNat % 32) (c.rowBytes - c.done); let k := s.coreAt core
    let from_ := c.srcAt.toNat % 2 ^ 18; let into := c.dstAt.toNat % 2 ^ 18
    bitOf c.srcAt 63 = true → bitOf c.dstAt 63 = true → fieldOf c.srcAt 62 18 = 0 → fieldOf c.dstAt 62 18 = 0 →
    c.srcAt.toNat % 32 = c.dstAt.toNat % 32 → from_ + n ≤ k.spmSize → into + n ≤ k.spmSize → k.spmBad from_ n = false →
    (s.tableAt core + 256 ≤ into ∨ into + n ≤ s.tableAt core) →
    Happens (.copyCommandPerform core) s fun t => SameMemory s t ∧
      (t.coreAt core).spm = cellsSet k.spm into (cellsGet k.spm from_ n)

/-- R262, R267: a command that has done its rows, or ended with a status, and has every packet answered, leaves the engine; one with
notification sends a completion of kind 2 with its status and the bytes written; a status other than 0 puts its cause in
sr.cflt. -/
def copyEnds : Prop :=
  ∀ (s : State) (core : Nat) (c : CopyCommand) (r : List CopyCommand), (s.coreAt core).cq = c :: r →
    (s.coreAt core).completionWaits 2 = false → (s.coreAt core).inOrder c.id = true → c.acked = c.sent →
    c.data = [] → c.status ≠ 0 ∨ c.row = c.rows ∨ c.rowBytes = 0 →
    Happens (.copyCommandPerform core) s fun t => SameMemory s t ∧ (t.coreAt core).cq = r ∧
      (c.status ≠ 0 → (t.coreAt core).cflt = BitVec.ofNat 64 c.cause) ∧
      (c.notify = true → (t.coreAt core).completions = (s.coreAt core).completions ++
        [{ core := core, tid := c.tid, payload :=
            [BitVec.ofNat 64 (2 + c.status * 256), c.pc, BitVec.ofNat 64 c.written, 0, 0, 0, 0, 0] }])

/-- The packet of a copy command that starts from its core (R265). -/
def copyPacket (s : State) (core : Nat) (c : CopyCommand) (ep : BitVec 29) (cls : Nat) (k : PacketKind) : Packet :=
  { kind := k, ep := ep, src := s.endpointOf core, core := core, tid := c.tid, part := s.partOf core, cls := cls, stop := stopOf core
    since := s.now }

/-- R265, R273, R288: a cput sends the next whole sectors of its range, at most eight, to its window's core, one packet after the
answer to the one before within the device, the last one with .o to another device while there is room in the counts; a cget with
nothing outstanding asks for them. `u` is the state after the source is read; sectors of the core's own scratchpad that the packet
itself writes are read as the sectors before them leave them. -/
def copyPackets : Prop :=
  ∀ (s : State) (core : Nat) (c : CopyCommand) (r : List CopyCommand) (ep : BitVec 29) (cls cap : Nat), CopyGoes core c r s →
    epDevice ep = s.device ∨ s.deviceDown (epDevice ep) = false → let n := min (c.rowBytes - c.done) (256 - c.dstAt.toNat % 32)
    (∀ o u bytes, c.kind = .put ep cls cap o → (epDevice ep = s.device → c.acked = c.sent) →
      (o = true → c.done + n = c.rowBytes → epDevice ep = s.device ∨ s.orderedRoom (epDevice ep) = true) →
      readPieces core c (if ep = s.endpointOf core then some c.dstAt.toNat else none) [] c.srcAt (sectors c.dstAt n 10) s =
        .ok (bytes, none) u → bytes.length = n → (u.coreAt core).cq = c :: r →
      Happens (.copyCommandPerform core) s fun t => ∃ d, SameMemory u t ∧
        StartsFrom u t (dieOf core)
          (copyPacket u core c ep cls (.put c.id c.dstAt.toNat bytes [] (decide (c.done + n = c.rowBytes)))) ∧
        (t.coreAt core).cq = d :: r ∧ d.sent = c.sent + 1 ∧
        (if c.done + n = c.rowBytes then d.row = c.row + 1 ∧ d.done = 0 else d.row = c.row ∧ d.done = c.done + n)) ∧
    (c.kind = .get ep cls cap → c.data = [] → c.acked = c.sent →
      Happens (.copyCommandPerform core) s fun t => ∃ d, SameMemory s t ∧
        StartsFrom s t (dieOf core) (copyPacket s core c ep cls (.getRequest c.id c.srcAt.toNat n)) ∧
        (t.coreAt core).cq = d :: r ∧ d.sent = c.sent + 1)

/-- R266: an element of an inbound stream with room is loaded and pushed; one that an outbound stream holds is stored, and the last
one unbinds it. -/
def streamsMoveElements : Prop :=
  ∀ (s u : State) (core q : Nat) (x : Stream), (s.coreAt core).b0.status ≠ .empty →
    tabFind (s.coreAt core).b0.streams q = some x → x.fault = false → x.pos < x.count →
    let ea := x.base + BitVec.ofNat 64 (x.pos * x.stride); let priv := (s.coreAt core).b0.priv
    (∀ bytes, x.inward = true → x.queue.length < 32 →
      engineLoad (coreTag core q) core (s.asidOf core) priv ea 8 s = .ok (.ok (bytes, false)) u →
      Happens (.streamElement core q) s fun t => SameMemory u t ∧ (t.coreAt core).spm = (u.coreAt core).spm ∧
        tabFind (t.coreAt core).b0.streams q = some { x with pos := x.pos + 1, queue := x.queue ++ [wordOfList bytes] }) ∧
    (∀ v r, x.inward = false → x.queue = v :: r → s.engineTable core ea 8 = false →
      engineStore (coreTag core q) core (s.asidOf core) priv ea (bytesOf v) s = .ok (.ok ()) u →
      Happens (.streamElement core q) s fun t => SameMemory u t ∧ (t.coreAt core).spm = (u.coreAt core).spm ∧
        (t.coreAt core).b0.streams = (if x.pos + 1 = x.count then tabDel (u.coreAt core).b0.streams q
          else tabPut (u.coreAt core).b0.streams q { x with pos := x.pos + 1, queue := r }))

/-- R188: the first completion of a core's engines enters its inbox, in class 7 and for its task only, while there is room; that of a
task that has left the core is discarded, and one of the vector engine counted in sr.vstat. -/
def completionsAreDelivered : Prop :=
  ∀ (s : State) (core : Nat) (c : Completion) (r : List Completion), (s.coreAt core).completions = c :: r →
    let live := (s.coreAt core).tasks.any fun t => t.tid == c.tid
    (live = true → (s.coreAt core).inboxRoom 7 = true →
      Happens (.engineCompletionDelivery core) s fun t => SameMemory s t ∧ (t.coreAt core).completions = r ∧
        ∃ e ∈ (t.coreAt core).inbox, e.payload = c.payload ∧ e.owner = some c.tid ∧ e.cls = 7 ∧ e.claimed = false ∧
          e.id = (s.coreAt core).inboxNext) ∧
    (live = false → Happens (.engineCompletionDelivery core) s fun t => SameMemory s t ∧ OtherCoresSame core s t ∧
      (t.coreAt core).completions = r ∧ (t.coreAt core).inbox = (s.coreAt core).inbox ∧
      (t.coreAt core).vstat = (if c.kind = 1 then bumpField (s.coreAt core).vstat 15 8 1 else (s.coreAt core).vstat))

/-- R188, R262 to R267: the copy engine and the completions.
One sector a step is the model's choice; the statuses of some causes are its reading (log 42). -/
def Obligations.CopyEngineMovesItsBytes : Prop :=
  copyStep ∧ copyStepLocal ∧ copyEnds ∧ copyPackets ∧ streamsMoveElements ∧ completionsAreDelivered

/-- The vector register that a field names: renamed in a frame pass (R71). -/
def vectorNamed (s : State) (f : Nat) : Nat :=
  if s.task.frame.act then (f + s.task.frame.k * s.task.frame.rot) % 32 else f

/-- R187: a command has entered the vector engine's queue, behind what is there: its instruction, its registers, the words of its
general registers, its task; no register of the engine and no byte of memory has changed. -/
def VectorQueued (u t : State) (i : Instr) (d a b : Nat) (x y : Word) (notify : Bool) : Prop :=
  ∃ q : VecCommand, (t.coreAt t.cur.core).vq = (u.coreAt u.cur.core).vq ++ [q] ∧ q.instr = i ∧ q.vd = d ∧ q.va = a ∧ q.vb = b ∧
    q.x = x ∧ q.y = y ∧ q.notify = notify ∧ q.tid = u.task.tid ∧ q.pc = u.pc ∧ q.pos = 0 ∧ q.withheld = 0 ∧
    (t.coreAt t.cur.core).v = (u.coreAt u.cur.core).v ∧ (t.coreAt t.cur.core).m = (u.coreAt u.cur.core).m ∧
    SameMemory u t ∧ OtherCoresSame u.cur.core u t

/-- The register commands of VEC and VCVT, each with the vector registers that its fields d, va and vb name. -/
def vectorForms (d a b t q : BitVec 5) (h : BitVec 1) (d4 k : BitVec 4) (d3 p m e : BitVec 3) :
    List (Instr × Nat × Nat × Nat) :=
  let two (i : Instr) := (i, d.toNat, a.toNat, b.toNat)
  let one (i : Instr) := (i, d.toNat, a.toNat, 0)
  let cmp (i : Instr) := (i, 0, a.toNat, b.toNat)
  [ two (.vadd d a b m e), two (.vsub d a b m e), two (.vmul d a b m e), two (.vfma d a b m e), two (.vfms d a b m e),
    two (.vmin d a b m e), two (.vmax d a b m e), one (.vabs d a m e), one (.vneg d a m e), two (.vdiv d a b m),
    one (.vsqrt d a m), one (.vrsq d a m), one (.vexp2 d a m), one (.vlog2 d a m),
    cmp (.vcmpEq d3 a b m e), cmp (.vcmpNe d3 a b m e), cmp (.vcmpLt d3 a b m e), cmp (.vcmpLe d3 a b m e),
    two (.vsel d a b m e), two (.vand d a b m e), two (.vor d a b m e), two (.vxor d a b m e), two (.vshl d a b m e),
    two (.vshr d a b m e), two (.vperm d a b m e), one (.vmov d a m e),
    one (.vcvt d a p m t e), one (.vcvtFromFp4 d a p m e), two (.vquantFp4 d a b q), two (.vquantInt4x d a b),
    one (.vdeqFp4 d a h m q e), one (.vdeqInt4x d a h m e), one (.vredSum d a m e), one (.vredMax d a m e),
    one (.vredMin d a m e), (.vtopk d4 a k m e, 2 * d4.toNat, a.toNat, 0) ]

/-- R187, R71: every register command of the vector engine is accepted while its queue has room, with its registers as the frame
renames them; vbcast takes the word of its general register with it. -/
def registerCommandsQueue : Prop :=
  ∀ (s : State) (d a b t q : BitVec 5) (h : BitVec 1) (d4 k : BitVec 4) (d3 p m e : BitVec 3),
    (s.coreAt s.cur.core).vq.length < 3 → s.task.stepping = false →
    (∀ f ∈ vectorForms d a b t q h d4 k d3 p m e, GoesOn f.1 s s fun w =>
      VectorQueued s w f.1 (vectorNamed s f.2.1) (vectorNamed s f.2.2.1) (vectorNamed s f.2.2.2) 0 0 false) ∧
    GoesOn (.vbcast d a m e) s s fun w => VectorQueued s w (.vbcast d a m e) (vectorNamed s d.toNat) 0 0 (s.rg a) 0 false

/-- R197: the contiguous and strided memory commands, each with the address of its element i. -/
def vectorMemoryForms (s : State) (d a b : BitVec 5) (m : BitVec 3) (n : BitVec 1) (e : BitVec 3) :
    List (Instr × Bool × (Nat → Word)) :=
  let w := elWidth e.toNat
  [ (.vld d a b m n e, false, fun i => s.rg a + s.rg b + BitVec.ofNat 64 (i * w / 8)),
    (.vst d a b m n e, true, fun i => s.rg a + s.rg b + BitVec.ofNat 64 (i * w / 8)),
    (.vlds d a b m n e, false, fun i => s.rg a + BitVec.ofNat 64 i * s.rg b) ]

/-- R198, R236: what an element's address must meet at issue: alignment, in local space the range of R103, and for a store of the
unprivileged view no byte of the capability table. -/
def ElementAccepted (s : State) (store : Bool) (n : Nat) (ea : Word) : Prop :=
  ea.toNat % n = 0 ∧ (bitOf ea 63 = true → localBad (s.coreAt s.cur.core) ea n = false ∧
    (store = true → s.task.priv = true ∨ s.engineTable s.cur.core ea n = false))

/-- R187, R188, R198: a memory command whose active elements meet the checks of issue is accepted once the earlier stores have left
the buffer; gathers and scatters are checked in the engine. vopt of an aligned descriptor is accepted likewise, and of a misaligned
one takes the trap of cause 0x10. -/
def memoryCommandsQueue : Prop :=
  ∀ (s u : State) (d a b : BitVec 5) (m : BitVec 3) (n : BitVec 1) (e : BitVec 3), (s.coreAt s.cur.core).vq.length < 3 →
    Drained s u → u.cur = s.cur → u.task.stepping = false →
    (∀ f ∈ vectorMemoryForms s d a b m n e,
      (∀ i < 512 / elWidth e.toNat, (s.coreAt s.cur.core).active m.toNat (elWidth e.toNat) i = true →
        ElementAccepted s f.2.1 (elWidth e.toNat / 8) (f.2.2 i)) →
      GoesOn f.1 s u fun t =>
        VectorQueued u t f.1 (vectorNamed s d.toNat) 0 (vectorNamed s b.toNat) (s.rg a) (s.rg b) (n = 1)) ∧
    (∀ i ∈ [Instr.vgat d a b m n e, .vsca d a b m n e], GoesOn i s u fun t =>
      VectorQueued u t i (vectorNamed s d.toNat) 0 (vectorNamed s b.toNat) (s.rg a) 0 (n = 1)) ∧
    ((s.rg a).toNat % 128 = 0 → GoesOn (.vopt a) s u fun t => VectorQueued u t (.vopt a) 0 0 0 (s.rg a) 0 true) ∧
    ((s.rg a).toNat % 128 ≠ 0 → TakesTrap (.vopt a) s s 0x10 (s.rg a))

/-- R196, R205: vmov to a general register and vargmax, with the engine empty and nothing they read poisoned, write their register:
an element, extended as its type says, and the lowest index of the greatest active number, −1 with none. -/
def synchronousFormsWrite : Prop :=
  ∀ (s : State) (d a k : BitVec 5) (m e : BitVec 3), let c := s.coreAt s.cur.core; let w := elWidth e.toNat
    let r := vectorNamed s a.toNat
    c.vq = [] → c.completionWaits 1 = false → s.task.stepping = false →
    (c.elemPoison r w k.toNat = true → TakesTrap (.vmovToG d a k e) s s 0x19 0) ∧
    (c.elemPoison r w k.toNat = false → GoesOnWith (.vmovToG d a k e) s s d
      (let v := c.elem r w k.toNat
       if 5 ≤ e.toNat then BitVec.ofInt 64 (if v < 2 ^ (w - 1) then v else (v : Int) - 2 ^ w) else BitVec.ofNat 64 v)
      fun t => ComputeFrame s t) ∧
    ((∀ i < 512 / w, c.active m.toNat w i = true → c.elemPoison r w i = false) → ∃ v, GoesOnWith (.vargmax d a m e) s s d v
      (fun t => ComputeFrame s t) ∧
      (let num (i : Nat) : Machine.Num := valueEl c.fpmode e.toNat (c.elem r w i)
       let live (i : Nat) : Prop := i < 512 / w ∧ c.active m.toNat w i = true ∧ (num i).isNan = false
       (∀ i, ¬ live i) ∧ v = -1 ∨
        ∃ i, live i ∧ v = BitVec.ofNat 64 i ∧ ∀ j, live j → (num i).lt (num j) = false ∧ (j < i → (num j).lt (num i) = true)))

/-- R187, R197, R206: the vector instructions.
The capacity of the queue is the model's reading (log 19). -/
def Obligations.VectorInstructionsQueueCommands : Prop :=
  registerCommandsQueue ∧ memoryCommandsQueue ∧ synchronousFormsWrite

/-- R192 to R196: what a command on integers, or on bits, writes to element i of its destination, with the mask it obeys and the
poison of what it read. -/
def laneRows (k : Core) (c : VecCommand) (d a b : BitVec 5) (m e : BitVec 3) : List (Instr × Nat × (Nat → Int) × (Nat → Bool)) :=
  let w := elWidth e.toNat
  let x (i : Nat) : Int := k.elem c.va w i; let y (i : Nat) : Int := k.elem c.vb w i; let z (i : Nat) : Int := k.elem c.vd w i
  let sg (v : Int) : Int := if v < 2 ^ (w - 1) then v else v - 2 ^ w
  let pa (i : Nat) := k.elemPoison c.va w i; let pab (i : Nat) := k.elemPoison c.va w i || k.elemPoison c.vb w i
  let pabd (i : Nat) := pab i || k.elemPoison c.vd w i
  (if 5 ≤ e.toNat then
    [ (.vadd d a b m e, m.toNat, fun i => x i + y i, pab), (.vsub d a b m e, m.toNat, fun i => x i - y i, pab),
      (.vmul d a b m e, m.toNat, fun i => x i * y i, pab), (.vfma d a b m e, m.toNat, fun i => x i * y i + z i, pabd),
      (.vfms d a b m e, m.toNat, fun i => z i - x i * y i, pabd),
      (.vmin d a b m e, m.toNat, fun i => if sg (x i) ≤ sg (y i) then x i else y i, pab),
      (.vmax d a b m e, m.toNat, fun i => if sg (x i) ≤ sg (y i) then y i else x i, pab),
      (.vabs d a m e, m.toNat, fun i => if 0 ≤ sg (x i) then x i else - x i, pa), (.vneg d a m e, m.toNat, fun i => - x i, pa) ]
   else []) ++
  [ (.vand d a b m e, m.toNat, fun i => ((k.elem c.va w i &&& k.elem c.vb w i : Nat) : Int), pab),
    (.vor d a b m e, m.toNat, fun i => ((k.elem c.va w i ||| k.elem c.vb w i : Nat) : Int), pab),
    (.vxor d a b m e, m.toNat, fun i => ((k.elem c.va w i ^^^ k.elem c.vb w i : Nat) : Int), pab),
    (.vshl d a b m e, m.toNat, fun i => x i * 2 ^ (k.elem c.vb w i % w), pab),
    (.vshr d a b m e, m.toNat, fun i => x i / 2 ^ (k.elem c.vb w i % w), pab),
    (.vmov d a m e, m.toNat, x, pa), (.vbcast d a m e, m.toNat, fun _ => (c.x.toNat : Int), fun _ => false),
    (.vperm d a b m e, m.toNat, fun i => x (k.elem c.vb w i % (512 / w)), fun i => pa (k.elem c.vb w i % (512 / w))),
    (.vsel d a b m e, 0, fun i => if k.active m.toNat w i then x i else y i,
      fun i => if k.active m.toNat w i then pa i else k.elemPoison c.vb w i) ]

/-- No task of a core is held until its last command is done, when it takes its vector registers to a park slot (R84, R190). -/
def NoneHeld (k : Core) : Prop := k.b0.status ≠ .held ∧ k.b1.status ≠ .held

/-- The engine performs its first command: it has one, and no completion of its own waits (R188). -/
def VectorFirst (core : Nat) (c : VecCommand) (r : List VecCommand) (s : State) : Prop :=
  (s.coreAt core).vq = c :: r ∧ (s.coreAt core).completionWaits 1 = false

/-- R187, R190: the engine completes its first command, of every register form, whatever task is held for it. -/
def registerCommandsComplete : Prop :=
  ∀ (s : State) (core : Nat) (c : VecCommand) (r : List VecCommand), VectorFirst core c r s → memoryVector c.instr = false →
    Happens (.vectorCommandPerform core) s fun t => (t.coreAt core).vq = r ∧ SameMemory s t

/-- R185, R186, R192 to R196: a command on integers or bits writes each active element of its destination, modulo its width, and
keeps every other element; a lane is poisoned when an element it wrote read poison, or one it kept was poisoned. It sets no flag,
and writes no other register, no mask and no memory. -/
def lanesFollowTheirRow : Prop :=
  ∀ (s : State) (core : Nat) (c : VecCommand) (r : List VecCommand) (d a b : BitVec 5) (m e : BitVec 3), VectorFirst core c r s →
    NoneHeld (s.coreAt core) → let k := s.coreAt core; let w := elWidth e.toNat; c.vd < 32 → ∀ f ∈ laneRows k c d a b m e, c.instr = f.1 →
    Happens (.vectorCommandPerform core) s fun t => let k' := t.coreAt core
      k'.vq = r ∧ SameMemory s t ∧ OtherCoresSame core s t ∧ k'.m = k.m ∧ k'.fpmode = k.fpmode ∧
      (∀ j, j ≠ c.vd → k'.v[j]? = k.v[j]? ∧ k'.vPoison[j]? = k.vPoison[j]?) ∧
      (∀ i < 512 / w, k'.elem c.vd w i =
        if k.active f.2.1 w i then (f.2.2.1 i % 2 ^ w).toNat else k.elem c.vd w i) ∧
      (∀ l < 16, (k'.vPoison[c.vd]?.getD 0).getLsbD l = (List.range (32 / w)).any fun j =>
        let i := l * (32 / w) + j; if k.active f.2.1 w i then f.2.2.2 i else (k.vPoison[c.vd]?.getD 0).getLsbD l)

/-- R185 to R196: the register commands of the vector engine.
Which positions of vtopk are free values is said in log 45. -/
def Obligations.VectorLanesFollowTheirRow : Prop := registerCommandsComplete ∧ lanesFollowTheirRow

/-- R193: what a floating-point command computes of its elements, exactly, before its one rounding. -/
def floatRows (rdn : Bool) (d a b : BitVec 5) (m e : BitVec 3) (x y z : Machine.Num) : List (Instr × Machine.Num) :=
  [ (.vadd d a b m e, (x.add rdn y).1), (.vsub d a b m e, (x.add rdn y.negate).1), (.vmul d a b m e, (x.mul y).1),
    (.vfma d a b m e, (Machine.Num.fma rdn x y z).1), (.vfms d a b m e, (Machine.Num.fma rdn x.negate y z).1),
    (.vmin d a b m e, (x.minimum y).1), (.vmax d a b m e, (x.maximum y).1) ] ++
  (if e = 0 then [ (.vdiv d a b m, (x.div y).1), (.vsqrt d a m, x.sqrt.1), (.vrsq d a m, x.rsqrt.1), (.vexp2 d a m, x.exp2.1),
    (.vlog2 d a m, x.log2.1) ] else [])

/-- R193, R180: a floating-point command writes each active element with its exact result rounded once, in the mode and with the
flushing of sr.fpmode, and keeps the others; flags of sr.fpmode are set and never cleared, and nothing else of it changes. -/
def floatLanes : Prop :=
  ∀ (s : State) (core : Nat) (c : VecCommand) (r : List VecCommand) (d a b : BitVec 5) (m e : BitVec 3) (f : Format),
    VectorFirst core c r s → NoneHeld (s.coreAt core) →
    let k := s.coreAt core; let w := elWidth e.toNat; c.vd < 32 → elFormat e.toNat = some f →
    let num (v i : Nat) : Machine.Num := f.decode (ftzOf k.fpmode) (k.elem v w i)
    (∃ g ∈ floatRows (rdnOf k.fpmode) d a b m e (.zero false) (.zero false) (.zero false), c.instr = g.1) →
    Happens (.vectorCommandPerform core) s fun t => let k' := t.coreAt core
      k'.vq = r ∧ SameMemory s t ∧ k'.m = k.m ∧ (∃ fl < 64, k'.fpmode = k.fpmode ||| BitVec.ofNat 64 (fl * 2 ^ 16)) ∧
      ∀ i < 512 / w, (k.active m.toNat w i = false → k'.elem c.vd w i = k.elem c.vd w i) ∧
        (k.active m.toNat w i = true →
          ∀ g ∈ floatRows (rdnOf k.fpmode) d a b m e (num c.va i) (num c.vb i) (num c.vd i), c.instr = g.1 →
            k'.elem c.vd w i = (f.round (rmPlain k.fpmode) (ftzOf k.fpmode) none g.2).1 % 2 ^ w)

/-- R195: vcmp writes a mask register of m1 to m7: the bits of an active element's bytes hold whether the relation holds, every other
bit is 0; of m0 it writes nothing. -/
def compareMasks : Prop :=
  ∀ (s : State) (core : Nat) (c : VecCommand) (r : List VecCommand) (d : BitVec 3) (a b : BitVec 5) (m e : BitVec 3),
    VectorFirst core c r s → NoneHeld (s.coreAt core) → let k := s.coreAt core; let w := elWidth e.toNat
    let x (i : Nat) : Machine.Num := valueEl k.fpmode e.toNat (k.elem c.va w i); let y (i : Nat) : Machine.Num := valueEl k.fpmode e.toNat (k.elem c.vb w i)
    let nan (i : Nat) := (x i).isNan || (y i).isNan
    ∀ f ∈ [ (Instr.vcmpEq d a b m e, fun i => !nan i && !(x i).lt (y i) && !(y i).lt (x i)),
            (.vcmpNe d a b m e, fun i => nan i || (x i).lt (y i) || (y i).lt (x i)),
            (.vcmpLt d a b m e, fun i => !nan i && (x i).lt (y i)), (.vcmpLe d a b m e, fun i => !nan i && !(y i).lt (x i)) ],
      c.instr = f.1 → Happens (.vectorCommandPerform core) s fun t => let k' := t.coreAt core
        k'.vq = r ∧ SameMemory s t ∧ k'.v = k.v ∧ (d = 0 → k'.m = k.m) ∧
        (d ≠ 0 → ∀ j < 64, (k'.m[d.toNat]?.getD 0).getLsbD j = (k.active m.toNat w (j * 8 / w) && f.2 (j * 8 / w)))

/-- R193, R195: floating-point lanes and comparisons. -/
def floatLanesRoundTheirResult : Prop := floatLanes ∧ compareMasks

/-- R181: rounding in any mode keeps a finite value that the format holds, and sets no flag. -/
def roundingKeepsWhatTheFormatHolds : Prop :=
  ∀ f ∈ [fp32, bf16, fp16, e4m3, e5m2, fp4], ∀ (mode code : Nat) (u : Option Nat), code < 2 ^ f.width →
    (∃ n x y z, f.decode false code = .fin n x y z) → f.round mode false u (f.decode false code) = (code, 0)

/-- R171 to R174, R193: one rounding of each exact result.
The precision behind the irrational results and the flag of infinity times zero plus NaN are in log 45; the flag of an exact zero under ftz in log 58. -/
def Obligations.VectorFloatsRoundOnce : Prop := floatLanesRoundTheirResult ∧ roundingKeepsWhatTheFormatHolds

/-- R198, R433: a vector load whose elements meet their checks and translate writes each active element with the bytes read, and
keeps the others and every other register; a lane of it is poisoned where bytes read into it were, or where an element that it keeps
was. `u` is the state after the translation, `v` after the reads. -/
def vectorLoads : Prop :=
  ∀ (s u v : State) (core : Nat) (c : VecCommand) (r : List VecCommand) (e m : Nat) (g : Bool)
    (l : List (Nat × Word × Place)) (vs : List (Nat × Nat × Bool)),
    VectorFirst core c r s → (s.coreAt core).inOrder c.id = true → vmemShape c.instr = some (e, m, false, g) → c.vd < 32 →
    let k := s.coreAt core; let w := elWidth e; let els := k.vmemElems c e m
    (∀ x ∈ els, vmemCheck core c (w / 8) false x.2 s = none) → placeElems core c (w / 8) false els s = .ok (.ok l) u →
    readElems core (w / 8) l u = .ok (.ok vs) v → NoneHeld (v.coreAt core) →
    Happens (.vectorCommandPerform core) s fun t => SameMemory v t ∧ OtherCoresSame core v t ∧
      (t.coreAt core).vq = (v.coreAt core).vq.drop 1 ∧
      (∀ i < 512 / w, (t.coreAt core).elem c.vd w i = match vs.find? (fun x => x.1 == i) with
        | some x => x.2.1 % 2 ^ w | none => (v.coreAt core).elem c.vd w i) ∧
      (∀ n < 16, ((t.coreAt core).vPoison[c.vd]?.getD 0).getLsbD n = (List.range (32 / w)).any fun j =>
        match vs.find? (fun x => x.1 == n * (32 / w) + j) with
        | some x => x.2.2 | none => ((v.coreAt core).vPoison[c.vd]?.getD 0).getLsbD n) ∧
      (∀ j, j ≠ c.vd → (t.coreAt core).v[j]? = (v.coreAt core).v[j]? ∧ (t.coreAt core).vPoison[j]? = (v.coreAt core).vPoison[j]?) ∧
      (t.coreAt core).m = (v.coreAt core).m ∧
      (c.notify = true → (t.coreAt core).completions = (v.coreAt core).completions ++
        [{ core := core, tid := c.tid, payload := [1, c.pc, 0, 0, 0, 0, 0, 0] }])

/-- R198: a vector store whose elements meet their checks, translate and can be written writes them and nothing of its registers;
one that meets a failed check, at its first such element, writes nothing, ends with status 1 or 2, and keeps its cause. -/
def vectorStoresAndFaults : Prop :=
  ∀ (s u v : State) (core : Nat) (c : VecCommand) (r : List VecCommand) (e m : Nat) (st g : Bool)
    (l : List (Nat × Word × Place)),
    VectorFirst core c r s → (s.coreAt core).inOrder c.id = true → vmemShape c.instr = some (e, m, st, g) →
    let k := s.coreAt core; let w := elWidth e; let els := k.vmemElems c e m
    (st = true → (∀ x ∈ els, vmemCheck core c (w / 8) true x.2 s = none) →
      placeElems core c (w / 8) true els s = .ok (.ok l) u →
      writeElems core (w / 8) (fun i => (k.elem c.vd w i, k.elemPoison c.vd w i)) l u = .ok (.ok ()) v → NoneHeld (v.coreAt core) →
      Happens (.vectorCommandPerform core) s fun t => SameMemory v t ∧ OtherCoresSame core v t ∧
        (t.coreAt core).spm = (v.coreAt core).spm ∧ (t.coreAt core).v = (v.coreAt core).v ∧
        (t.coreAt core).vq = (v.coreAt core).vq.drop 1) ∧
    (∀ code ea, NoneHeld k → els.findSome? (fun x => (vmemCheck core c (w / 8) st x.2 s).map fun y => (y, x.2)) = some (code, ea) →
      Happens (.vectorCommandPerform core) s fun t => SameMemory s t ∧ (t.coreAt core).spm = k.spm ∧ (t.coreAt core).v = k.v ∧
        (t.coreAt core).vq = r ∧ bitOf (t.coreAt core).vstat 16 = true ∧ fieldOf (t.coreAt core).vflt 63 56 = code ∧
        (c.notify = true → ∃ status, (status = 1 ∨ status = 2) ∧ (t.coreAt core).completions = k.completions ++
          [{ core := core, tid := c.tid, payload := [BitVec.ofNat 64 (1 + status * 256), c.pc, 0, 0, 0, 0, 0, 0] }]))

/-- R206, R207: a vopt whose descriptor has been read, and whose next group's four arrays have been read: a group that reads poison
is withheld and writes nothing; else the group's new weights, momentum and variance are written where they translate. Either way
one more group is processed. `r` is the state after the reads, `p` after the translations, `w` after the writes. -/
def voptGroups : Prop :=
  ∀ (s r0 r1 r2 r p0 p1 p w0 w1 w : State) (core : Nat) (c : VecCommand) (q : List VecCommand) (a : BitVec 5)
    (x0 x1 x2 x3 : List Nat) (b0 b1 b2 b3 : Bool) (l0 l1 l2 : List (Nat × Word × Place)),
    VectorFirst core c q s → (s.coreAt core).inOrder c.id = true → c.instr = .vopt a → c.desc ≠ [] → c.fault = none →
    16 * c.pos < optCount c.desc →
    let at_ (i : Nat) : Word := optAddr c.desc i + BitVec.ofNat 64 (64 * c.pos)
    optRead core c (at_ 0) s = .ok (.ok (x0, b0)) r0 → optRead core c (at_ 1) r0 = .ok (.ok (x1, b1)) r1 →
    optRead core c (at_ 2) r1 = .ok (.ok (x2, b2)) r2 → optRead core c (at_ 3) r2 = .ok (.ok (x3, b3)) r →
    ((b0 || b1 || b2 || b3) = true → (r.coreAt core).vq = c :: q →
      Happens (.vectorCommandPerform core) s fun t => SameMemory r t ∧ OtherCoresSame core r t ∧
        ∃ d, (t.coreAt core).vq = d :: q ∧ d.pos = c.pos + 1 ∧ d.withheld = c.withheld + 1 ∧ d.bitmap = c.bitmap + 2 ^ c.pos) ∧
    ((b0 || b1 || b2 || b3) = false →
      optPlaces core c (at_ 0) 64 r = .ok (.ok l0) p0 → optPlaces core c (at_ 1) 64 p0 = .ok (.ok l1) p1 →
      optPlaces core c (at_ 2) 64 p1 = .ok (.ok l2) p →
      let el (i : Nat) := optElement c.desc (nth x0 i 0) (nth x1 i 0) (nth x2 i 0) (nth x3 i 0)
      writePlaces core l0 ((List.range 16).flatMap fun i => bytesOfNat 4 (el i).1) p = .ok () w0 →
      writePlaces core l1 ((List.range 16).flatMap fun i => bytesOfNat 4 (el i).2.1) w0 = .ok () w1 →
      writePlaces core l2 ((List.range 16).flatMap fun i => bytesOfNat 4 (el i).2.2) w1 = .ok () w →
      (w.coreAt core).vq = c :: q →
      Happens (.vectorCommandPerform core) s fun t => SameMemory w t ∧ OtherCoresSame core w t ∧
        ∃ d, (t.coreAt core).vq = d :: q ∧ d.pos = c.pos + 1 ∧ d.withheld = c.withheld)

/-- R198, R207: the memory commands of the vector engine.
Which stores clear a poison mark is the model's reading (log 39). -/
def Obligations.VectorMemoryCommandsAct : Prop := vectorLoads ∧ vectorStoresAndFaults ∧ voptGroups

/-- The core is a work core, which has a port of its cove's matrix unit (R214), and its current task runs. -/
def HasPort (s : State) : Prop := slotOf s.cur.core < 8 ∧ s.task.status = .running

/-- R211, R222: a command has entered an empty port queue: its instruction and the words of its registers, the format context that
was in force, the task; no byte of memory, no tile and no operand slot has changed. -/
def MatrixQueued (u t : State) (i : Instr) (x y z : Word) : Prop :=
  let k := u.coreAt u.cur.core; let k' := t.coreAt u.cur.core
  ∃ m : MatCommand, k'.mq = [m] ∧ m.instr = i ∧ m.x = x ∧ m.y = y ∧ m.z = z ∧ m.w0 = k.mctx0 ∧ m.w1 = k.mctx1 ∧
    m.mode = k.fpmode ∧ m.tid = u.task.tid ∧ m.pc = u.pc ∧ m.granted = false ∧ m.pos = 0 ∧
    k'.acc0 = k.acc0 ∧ k'.acc1 = k.acc1 ∧ k'.slots = k.slots ∧ k'.mret = k.mret ∧ SameMemory u t

/-- R222, R215: mctx of valid words takes effect at the head of the queue; of other words it takes the trap of cause 0x34. -/
def mctxSetsTheContext : Prop :=
  ∀ (s : State) (a b : BitVec 5), let k := s.coreAt s.cur.core
    (ctxValid (s.rg a) (s.rg b) = false → TakesTrap (.mctx a b) s s 0x34 0) ∧
    (ctxValid (s.rg a) (s.rg b) = true → HasPort s → k.mq = [] → s.task.stepping = false →
      GoesOn (.mctx a b) s s fun t => let k' := t.coreAt s.cur.core
        k'.mctx0 = s.rg a ∧ k'.mctx1 = s.rg b ∧ k'.mctxVal = true ∧ k'.mq = [] ∧ k'.acc0 = k.acc0 ∧ k'.acc1 = k.acc1 ∧
        k'.slots = k.slots ∧ SameMemory s t)

/-- R225, R226, R228: mma and mzero need a valid context, and wait in the queue for their grant; mrel and mrel.all of slots that no
accepted mma names empty them at the head of the queue. -/
def mmaMzeroMrelQueue : Prop :=
  ∀ (s : State) (p q : BitVec 7) (n r l : BitVec 1) (i : BitVec 4), let k := s.coreAt s.cur.core; k.mq = [] →
    (∀ f ∈ [Instr.mma p q n r l, .mzero n],
      (k.mctxVal = false → TakesTrap f s s 0x34 0) ∧
      (k.mctxVal = true → HasPort s → s.task.stepping = false → GoesOn f s s fun t => MatrixQueued s t f 0 0 0)) ∧
    (HasPort s → s.task.stepping = false → (∀ x ∈ s.mates s.cur.core, (s.coreAt x).mq = [] ∧ (s.coreAt x).mret = []) →
      ∀ f ∈ [(Instr.mrel i, tabDel k.slots i.toNat), (.mrelAll, [])],
        GoesOn f.1 s s fun t => let k' := t.coreAt s.cur.core
          k'.slots = f.2 ∧ k'.mq = [] ∧ k'.acc0 = k.acc0 ∧ k'.acc1 = k.acc1 ∧ k'.mctx0 = k.mctx0 ∧ SameMemory s t)

/-- R228: mstat, once every earlier command has retired, writes the status of the two tiles, of the context and of the slots. -/
def mstatReads : Prop :=
  ∀ (s : State) (a : BitVec 5), let k := s.coreAt s.cur.core; k.mq = [] → k.mret = [] → s.task.stepping = false →
    ∃ v, GoesOnWith (.mstat a) s s a v (fun t => ComputeFrame s t) ∧
      bitOf v 0 = k.acc0.inx ∧ bitOf v 4 = k.acc1.inx ∧
      bitOf v 1 = (k.acc0.cells.any fun c => c.2.ovf) ∧ bitOf v 5 = (k.acc1.cells.any fun c => c.2.ovf) ∧
      bitOf v 2 = (k.acc0.cells.any fun c => c.2.cls ≠ 0) ∧ bitOf v 6 = (k.acc1.cells.any fun c => c.2.cls ≠ 0) ∧
      bitOf v 3 = k.acc0.float ∧ bitOf v 7 = k.acc1.float ∧ bitOf v 8 = k.mctxVal ∧ fieldOf v 15 9 = 0 ∧ fieldOf v 63 48 = 0 ∧
      ∀ i < 16, bitOf v (16 + i) = ((k.slotAt i).state == 2) ∧ bitOf v (32 + i) = !(k.slotAt i).poison.isEmpty

/-- R223: the pieces of memory, within 32-byte sectors, that an mfetch reads: its memory lines, and its scales where its format has
scales of their own. -/
def tilePieces (w0 x y z : Word) (role col : Bool) : List (Word × Nat) :=
  let fmt := ctxFmt w0 role; let d := ctxDepth w0; let shape := ctxShape w0 role
  (((List.range (if col then d else 32)).map fun l =>
      (x + BitVec.ofNat 64 (l * fieldOf y 31 0), lineBytes fmt (if col then 32 else d))) ++
    (if ctxScale w0 role ≠ 0 ∧ fmt ≠ 1 then (List.range (scaleGrid shape col d).1).map fun g =>
      (z + BitVec.ofNat 64 (g * fieldOf y 63 32), (scaleGrid shape col d).2) else [])).flatMap
        fun p => sectors p.1 p.2 (p.2 / 32 + 2)

/-- The pieces that a MAT instruction checks at its issue pass (R211, R223): each is local, in range and, to be written, off the
capability table of an unprivileged task; or they translate by the entries `tlb`, which leaves the state `r`. -/
def PiecesPass (write : Bool) (what : Nat) (ps : List (Word × Nat)) (s r : State) (tlb : List TlbEntry) : Prop :=
  (∀ p ∈ ps, bitOf p.1 63 = true ∧ localBad (s.coreAt s.cur.core) p.1 p.2 = false ∧
      (write = true → s.task.priv = true ∨ s.engineTable s.cur.core p.1 p.2 = false)) ∧ tlb = [] ∧ r = s ∨
    matEntries write what ps s = .ok (.ok tlb) r

/-- R223, R224: mfetch whose checks pass and whose pieces all translate is accepted once the earlier stores have drained; one whose
first faulting byte fails with a cause takes the trap of cause 0x50 with that address, and sr.mflt keeps the cause and the slot. `r`
is the state after the translation, `u` after the drain. -/
def mfetchQueues : Prop :=
  ∀ (s r u : State) (a b c : BitVec 5) (o l : BitVec 1) (sl : BitVec 4), let k := s.coreAt s.cur.core; let w0 := k.mctx0
    let own : Bool := ctxScale w0 (l = 1) ≠ 0 && ctxFmt w0 (l = 1) ≠ 1; let i : Instr := .mfetch a b c o l sl
    let ps := tilePieces w0 (s.rg a) (s.rg b) (s.rg c) (l = 1) (o = 1)
    k.mq = [] → (k.mctxVal = false → TakesTrap i s s 0x34 0) ∧
    (k.mctxVal = true →
      (ctxFmt w0 (l = 1) = 1 ∧ o = 1 ∨ own = true ∧ c = 0 → TakesTrap i s s 0x3C 0) ∧
      (¬ (ctxFmt w0 (l = 1) = 1 ∧ o = 1) → own = false → c ≠ 0 → TakesTrap i s s 0x01 0) ∧
      (¬ (ctxFmt w0 (l = 1) = 1 ∧ o = 1) → (own = true ↔ c ≠ 0) →
        ((s.rg a).toNat % 16 ≠ 0 ∨ fieldOf (s.rg b) 31 0 % 16 ≠ 0 → TakesTrap i s s 0x10 (s.rg a)) ∧
        ((s.rg a).toNat % 16 = 0 → fieldOf (s.rg b) 31 0 % 16 = 0 →
          (∀ tlb, PiecesPass false (2 + sl.toNat) ps s r tlb → Drained r u → HasPort u → r.cur = s.cur →
            u.cur = s.cur → u.task.stepping = false → (r.coreAt s.cur.core).mq = [] → (u.coreAt s.cur.core).mq = [] →
            GoesOn i s u fun t => MatrixQueued u t i (s.rg a) (s.rg b) (s.rg c)) ∧
          (∀ code ea, matEntries false (2 + sl.toNat) ps s = .ok (.error (code, ea)) r → r.cur = s.cur →
            exec i s = .next (takeTrap s.cur.core s.urgent
              { code := 0x50, kind := .p, addr := ea, sub := code + sl.toNat * 256, aSeq := s.cur.a }
              (r.modCore s.cur.core fun k => { k with mflt := BitVec.ofNat 64 (code + sl.toNat * 256) }))))))

/-- R227: mrd and mwr whose checks pass and whose pieces all translate are accepted once the earlier stores have drained; an address
or a row stride not a multiple of 64 takes the trap of cause 0x10. -/
def mrdAndMwrQueue : Prop :=
  ∀ (s r u : State) (a b : BitVec 5) (n z : BitVec 1) (f : BitVec 2) (tlb : List TlbEntry), let k := s.coreAt s.cur.core
    k.mq = [] → (f ≠ 2 → k.mctxVal = true) →
    let rows : List (Word × Nat) := if f = 2 then (List.range 35).map fun j => (s.rg a + BitVec.ofNat 64 (512 * j), min 512 (17472 - 512 * j))
      else (List.range 32).map fun j => (s.rg a + BitVec.ofNat 64 j * s.rg b, if f = 0 then 128 else 64)
    let image : List (Word × Nat) := (List.range 35).map fun j => (s.rg a + BitVec.ofNat 64 (512 * j), min 512 (17472 - 512 * j))
    ((s.rg a).toNat % 64 ≠ 0 → TakesTrap (.mrd a b n z f) s s 0x10 (s.rg a) ∧ TakesTrap (.mwr a n) s s 0x10 (s.rg a)) ∧
    (f ≠ 2 → (s.rg b).toNat % 64 ≠ 0 → TakesTrap (.mrd a b n z f) s s 0x10 (s.rg a)) ∧
    ((s.rg a).toNat % 64 = 0 → HasPort u → Drained r u → r.cur = s.cur → u.cur = s.cur → u.task.stepping = false →
      (r.coreAt s.cur.core).mq = [] → (u.coreAt s.cur.core).mq = [] →
      (PiecesPass true 0 (rows.flatMap fun p => sectors p.1 p.2 (p.2 / 32 + 2)) s r tlb →
        (f ≠ 2 → (s.rg b).toNat % 64 = 0) →
        GoesOn (.mrd a b n z f) s u fun t => MatrixQueued u t (.mrd a b n z f) (s.rg a) (s.rg b) 0) ∧
      (PiecesPass false 0 (image.flatMap fun p => sectors p.1 p.2 (p.2 / 32 + 2)) s r tlb →
        GoesOn (.mwr a n) s u fun t => MatrixQueued u t (.mwr a n) (s.rg a) 0 0))

/-- R221 to R228: the MAT instructions.
That the queue holds two is the spec's; the entries kept from issue are the model's reading (log 22). -/
def Obligations.MatrixInstructionsQueueCommands : Prop :=
  mctxSetsTheContext ∧ mmaMzeroMrelQueue ∧ mstatReads ∧ mfetchQueues ∧ mrdAndMwrQueue

/-- The core that an arbiter of a cove grants next, none being in progress, and the command at the head of its queue (R212). -/
def Granted (s : State) (cove next c : Nat) (fetch : Bool) (ready : Nat → Bool) (m : MatCommand) (r : List MatCommand) : Prop :=
  let order := (List.range 8).map fun i => cove * 16 + (next + i) % 8
  order.find? (s.inProgress fetch) = none ∧ order.find? ready = some c ∧ (s.coreAt c).mq = m :: r

/-- R220, R226: a granted mzero clears its tile, in the mode of its context, and is performed. -/
def mzeroClears : Prop :=
  ∀ (s : State) (cove c : Nat) (m : MatCommand) (r : List MatCommand) (n : BitVec 1),
    Granted s cove (s.coveAt cove).arrayNext c false s.arrayReady m r → m.instr = .mzero n →
    Happens (.arrayGrant cove) s fun t => SameMemory s t ∧ (t.coreAt c).acc n = { float := ctxFloat m.w0 } ∧
      (t.coreAt c).acc (n + 1) = (s.coreAt c).acc (n + 1) ∧
      ∃ x, (t.coreAt c).mret = (s.coreAt c).mret ++ [x] ∧ x.id = m.id ∧ x.cause = m.cause

/-- R225: a granted mma whose slots do not suit its context, or whose tile has another mode, leaves the tile as it is and will raise
0x51 when it retires. -/
def mmaConflicts : Prop :=
  ∀ (s : State) (cove c : Nat) (m : MatCommand) (r : List MatCommand) (p q : BitVec 7) (n ra rb : BitVec 1),
    Granted s cove (s.coveAt cove).arrayNext c false s.arrayReady m r → m.instr = .mma p q n ra rb →
    let sa := s.slotOfRank c (p.toNat / 16, p.toNat % 16); let sb := s.slotOfRank c (q.toNat / 16, q.toNat % 16)
    sa.suits m.w0 false = false ∨ sb.suits m.w0 true = false ∨ ((s.coreAt c).acc n).float ≠ ctxFloat m.w0 →
    Happens (.arrayGrant cove) s fun t => SameMemory s t ∧ (t.coreAt c).acc0 = (s.coreAt c).acc0 ∧
      (t.coreAt c).acc1 = (s.coreAt c).acc1 ∧ ∃ x, (t.coreAt c).mret = (s.coreAt c).mret ++ [x] ∧ x.cause = some (0x51, m.pc)

/-- The INT8 element of a row-major slot at row x and depth k (R218). -/
def int8At (o : OperandSlot) (x k : Nat) : Int :=
  let b := (nth o.data (if o.col then k * 32 + x else x * o.depth + k) 0).toNat
  if b < 128 then b else (b : Int) - 256

/-- R176, R177, R225: a granted mma of two unscaled INT8 operands adds to every element of its tile the exact sum of the products of
its row and column; the tile's numbers are in units of 2^-64. Said of elements of at most 2^126, which no such sum saturates. -/
def mmaAddsProducts : Prop :=
  ∀ (s : State) (cove c : Nat) (m : MatCommand) (r : List MatCommand) (p q : BitVec 7) (n ra rb : BitVec 1),
    Granted s cove (s.coveAt cove).arrayNext c false s.arrayReady m r → m.instr = .mma p q n ra rb →
    let sa := s.slotOfRank c (p.toNat / 16, p.toNat % 16); let sb := s.slotOfRank c (q.toNat / 16, q.toNat % 16)
    let old (e : Nat) : AccCell := tabGet ((s.coreAt c).acc n).cells e {}
    fieldOf m.w0 17 0 = 4 + 4 * 16 → sa.suits m.w0 false = true → sb.suits m.w0 true = true → ((s.coreAt c).acc n).float = false →
    sa.poison = [] → sb.poison = [] → (∀ e < 1024, (old e).cls = 0 ∧ (old e).value.toInt.natAbs ≤ 2 ^ 126) →
    Happens (.arrayGrant cove) s fun t => SameMemory s t ∧ (t.coreAt c).acc (n + 1) = (s.coreAt c).acc (n + 1) ∧
      ∀ i < 32, ∀ j < 32, let x := tabGet ((t.coreAt c).acc n).cells (32 * i + j) {}
        x.cls = 0 ∧ x.ovf = (old (32 * i + j)).ovf ∧ x.value.toInt = (old (32 * i + j)).value.toInt +
          2 ^ 64 * ((List.range 64).map fun k => int8At sa i k * int8At sb j k).sum

/-- R212, R217, R223: a granted mfetch takes its slot, which is filling from then on, with the record of the fetch; a further event of
the fetch reads a memory line, and the last one makes the slot full. -/
def mfetchFills : Prop :=
  ∀ (s u : State) (cove c : Nat) (m : MatCommand) (r : List MatCommand) (a b d : BitVec 5) (o l : BitVec 1) (sl : BitVec 4)
    (bytes : List (Byte × Bool)), m.instr = .mfetch a b d o l sl →
    let fmt := ctxFmt m.w0 (l = 1); let n := if o = 1 then ctxDepth m.w0 else 32
    let line := fetchLine m.x m.y fmt (o = 1) (ctxDepth m.w0) m.pos
    (Granted s cove (s.coveAt cove).fetchNext c true s.fetchReady m r → m.pos = 0 →
      (∀ p ∈ matPieces line.1 line.2, bitOf p.1 63 = true) →
      Happens (.tileFetchGrant cove) s fun t => SameMemory s t ∧ let x := (t.coreAt c).slotAt sl.toNat
        x.state = 1 ∧ x.roleB = decide (l = 1) ∧ x.fmt = fmt ∧ x.scale = ctxScale m.w0 (l = 1) ∧ x.shape = ctxShape m.w0 (l = 1) ∧
        x.depth = ctxDepth m.w0 ∧ x.col = decide (o = 1) ∧ x.fetch = [m.x, m.y, m.z] ∧ x.pins = [] ∧
        (t.coveAt cove).fetchNext = (c % 16 + 1) % 8) ∧
    ((((List.range 8).map fun i => cove * 16 + ((s.coveAt cove).fetchNext + i) % 8).find? (s.inProgress true)) = some c →
      (s.coreAt c).mq = m :: r →
      (m.pos < n → fetchPieces c sl.toNat m (matPieces line.1 line.2) s = .ok bytes u →
        Happens (.tileFetchGrant cove) s fun t => SameMemory u t ∧
          ((t.coreAt c).slotAt sl.toNat).data = ((u.coreAt c).slotAt sl.toNat).data ++ bytes.map (·.1)) ∧
      (r = [] → n ≤ m.pos → ctxScale m.w0 (l = 1) = 0 ∨ fmt = 1 →
        Happens (.tileFetchGrant cove) s fun t => SameMemory s t ∧ ((t.coreAt c).slotAt sl.toNat).state = 2 ∧
          ((t.coreAt c).slotAt sl.toNat).data = ((s.coreAt c).slotAt sl.toNat).data ∧
          ∃ x, (t.coreAt c).mret = (s.coreAt c).mret ++ [x] ∧ x.id = m.id))

/-- R211, R219, R225: the oldest performed command of a core retires: an mma without a cause empties the slot that its release bit
names, one that raised 0x51 is counted. -/
def commandsRetire : Prop :=
  ∀ (s : State) (c : Nat) (m : MatCommand) (r : List MatCommand), (s.coreAt c).mret = m :: r →
    Happens (.matRetire c) s fun t => SameMemory s t ∧ (t.coreAt c).mret = r ∧ (t.coreAt c).acc0 = (s.coreAt c).acc0 ∧
      (t.coreAt c).acc1 = (s.coreAt c).acc1 ∧
      ((∃ a, m.cause = some (0x51, a)) → fieldOf (t.coreAt c).mxstat 47 32 = (fieldOf (s.coreAt c).mxstat 47 32 + 1) % 65536) ∧
      (∀ p q n rb, m.cause = none → m.instr = .mma p q n 1 rb → ∀ x, (s.mates c)[p.toNat / 16]? = some x →
        (s.coreAt x).mq = [] → (∀ y, (s.mates c)[q.toNat / 16]? = some y → rb = 1 → y ≠ x) →
        (t.coreAt x).slots = tabDel (s.coreAt x).slots (p.toNat % 16))

/-- R227: what mwr makes of the image that mrd.raw makes of a tile is the tile; the cells of a tile are listed in order, none of them
in the state of mzero. -/
def imageRoundTrip : Prop :=
  ∀ t : AccTile, (∀ e, (tabGet t.cells e {}).cls < 4) →
    t.cells = ((List.range 1024).map fun e => (e, tabGet t.cells e {})).filter (fun c => c.2 ≠ {}) →
    t.image.length = 17472 ∧ tileOfImage t.image = some t

/-- R211 to R228: the matrix unit.
The progress of a fetch line by line is the model's choice (log 22), the slots after 0x51 its reading (log 47). -/
def Obligations.MatrixUnitPerformsItsCommands : Prop :=
  mzeroClears ∧ mmaConflicts ∧ mmaAddsProducts ∧ mfetchFills ∧ commandsRetire ∧ imageRoundTrip

/-- A trap that names an expert name, a group, a bucket or a count in the detail of its record (R404). -/
def TakesTrapOf (i : Instr) (s u : State) (code detail : Nat) : Prop :=
  exec i s = .next (takeTrap s.cur.core s.urgent
    { code := code, kind := .p, addr := 0, sub := 0, detail := BitVec.ofNat 64 detail, aSeq := s.cur.a } u)

/-- The partition of the issuing core holds a name, which is defined (R327, R345). -/
def Named (s : State) (n : Nat) (x : Name) : Prop :=
  (s.partAt (s.partOf s.cur.core)).holdsName n = true ∧ s.nameAt n = some x

/-- No request of the issuing core for one of the names f to f + m − 1 is still on its way to a selector (R421). -/
def RequestsArrived (s : State) (f m : Nat) : Prop :=
  ∀ d < 4, ∀ r ∈ (s.dieAt d).requests, sender r.core r.src = sender s.cur.core (s.endpointOf s.cur.core) →
    ¬ (f ≤ r.name ∧ r.name < f + m)

/-- A request that waits for its answer may reach the selector: no held work of the name is in its way (R448), and, where the order of
the core's requests binds it, none of them is still on its way and no accepted close is due (R421). -/
def MayReach (s : State) (n : Nat) (ordered : Bool) : Prop :=
  s.nameOpen n s.ownWork = true ∧ (ordered = true → RequestsArrived s n 1 ∧ s.closing n = false)

/-- R347, R351: xsend and xjoin of a defined name, after the earlier stores have drained, put their request on its way to the name's
selector: the token's or the partial's step is the open one, or the one before with .p. With eight tokens of the core not yet
forwarded xsend waits. -/
def requestsAreSent : Prop :=
  ∀ (s u : State) (a b : BitVec 5) (p bk m : BitVec 1) (n : Nat) (x : Name), let w := s.rg b; let core := s.cur.core
    n = fieldOf w 11 0 → Named s n x → Drained s u → u.cur = s.cur → u.task.stepping = false →
    let step := if p = 1 then (x.step + 65535) % 65536 else x.step
    let seen := (u.causalAt (dieOf core) (u.partOf core)).m
    (fieldOf w 63 49 = 0 → fieldOf w 31 12 / x.width < x.nslice → (u.coreAt core).xsends < 8 →
      GoesOn (.xsend a b p bk) s u fun t => SameMemory u t ∧ (t.coreAt core).xsends = (u.coreAt core).xsends + 1 ∧
        (t.dieAt (n % 4)).requests = (u.dieAt (n % 4)).requests ++ [.token n step (fieldOf w 31 12 / x.width)
          (if bk = 1 then withField w 49 49 1 else w) (s.rg a) core u.task.tid (u.endpointOf core) seen]) ∧
    (fieldOf w 63 49 = 0 → fieldOf w 31 12 / x.width < x.nslice → 8 ≤ (u.coreAt core).xsends →
      exec (.xsend a b p bk) s = .next s) ∧
    (fieldOf w 63 49 = 0 → x.nslice ≤ fieldOf w 31 12 / x.width → TakesTrap (.xsend a b p bk) s s 0x5A 0) ∧
    (fieldOf w 63 28 = 0 → (s.rg a).toNat % 64 = 0 →
      GoesOn (.xjoin a b m p) s u fun t => SameMemory u t ∧ OtherCoresSame core u t ∧
        (t.dieAt (n % 4)).requests = (u.dieAt (n % 4)).requests ++ [.join n step (fieldOf w 27 12) (s.rg a) (m = 1) core u.task.tid
          u.pc (u.endpointOf core) seen]) ∧
    (fieldOf w 63 28 = 0 → (s.rg a).toNat % 64 ≠ 0 → TakesTrap (.xjoin a b m p) s s 0x10 (s.rg a))

/-- R345: an instruction on a name outside its partition's range, or not defined, takes the trap of cause 0x55, which names it. -/
def unknownNamesTrap : Prop :=
  ∀ (s : State) (a b c : BitVec 5) (q : BitVec 3), fieldOf (s.rg a) 63 12 = 0 → let n := fieldOf (s.rg a) 11 0
    (s.partAt (s.partOf s.cur.core)).holdsName n = false ∨ s.nameAt n = none →
    TakesTrapOf (.xrep a c) s s 0x55 n ∧ TakesTrapOf (.xown a b c q) s s 0x55 n ∧
      (s.task.begunOf s.cur.a < 4 → TakesTrapOf (.xupd a b c) s s 0x55 n) ∧
      (fieldOf (s.rg b) 63 3 = 0 → TakesTrapOf (.xret a b c) s s 0x55 n)

/-- R346: xdef with g0 undefines an idle name with status 0, answers 2 for a busy one and 3 for one not defined; with a readable,
well-formed descriptor and owner record it defines a name that is not defined, at its descriptor's version, with the owner at index
0 live, its pin banks zeroed, and answers 1 for a name that is defined. While the name's work is held (R448) the undefinition waits at
the instruction. `o` is the state after the loads, `u` after the zeroing. -/
def xdefDefines : Prop :=
  ∀ (s r o u : State) (a b c : BitVec 5) (w rec : List Word), let n := fieldOf (s.rg b) 11 0; fieldOf (s.rg b) 63 12 = 0 →
    (s.partAt (s.partOf s.cur.core)).holdsName n = true →
    (s.task.stepping = false →
      (s.nameAt n = none → GoesOnWith (.xdef 0 b c) s s c 3 fun t => ComputeFrame s t) ∧
      (∀ x, s.nameAt n = some x → ¬ MayReach s n false → exec (.xdef 0 b c) s = .next s) ∧
      (∀ x, s.nameAt n = some x → MayReach s n false → x.idle = false → GoesOnWith (.xdef 0 b c) s s c 2 fun t => ComputeFrame s t) ∧
      (∀ x, s.nameAt n = some x → MayReach s n false → x.idle = true →
        GoesOnWith (.xdef 0 b c) s s c 0 fun t => SameMemory s t ∧ t.names = tabDel s.names n)) ∧
    (a ≠ 0 → (s.rg a).toNat % 64 = 0 → Descriptor s r (s.rg a) 16 w → Descriptor r o (nth w 0 0) 16 rec →
      (nth w 0 0).toNat % 128 = 0 → (∀ i ∈ [1, 2, 3, 9], (nth w i 0).toNat % 64 = 0) → descriptorBad w = false →
      nth w 9 0 = nth rec 0 0 → o.cur = s.cur →
      (∀ x, o.nameAt n = some x → o.task.stepping = false → GoesOnWith (.xdef a b c) s o c 1 fun t => ComputeFrame o t) ∧
      (tabFind o.names n = none →
        let fresh : Name := { words := w, asid := o.asidOf o.cur.core, part := o.partOf o.cur.core, priv := o.task.priv }
        nameWrite n o.ownWork (nth w 1 0) (clean (List.replicate (2 * (fieldOf (nth w 5 0) 15 0 + 1)) 0))
          (({ o with names := tabPut o.names n fresh } : State).begin 3) = .ok () u → u.task.stepping = false →
        GoesOnWith (.xdef a b c) s u c 0 fun t => SameMemory u t ∧ ∃ x, t.nameAt n = some x ∧ x.words = w ∧
          x.version = fieldOf (nth w 7 0) 15 0 ∧ x.step = x.version ∧ x.owner = 0 ∧ x.optd = nth w 0 0 ∧ x.joinDone = true ∧
          (x.rep 0).state = .live ∧ (x.rep 0).record = (w.drop 8).take 4 ∧ (∀ q, q ≠ 0 → (x.rep q).state = .gone) ∧
          x.entries = [] ∧ x.closes = 0))

/-- R348, R349: xrep answers 1 while a replica fills and 2 with no index free, else starts a fill and answers its index, or takes the
trap of cause 0x56 with no usable record; xret makes a live replica drain, ends a filling one with no growth deferred behind it, and
answers 1 or 2 for a draining or gone one; of the owner it takes the trap of cause 0x58. Each waits at the instruction while it may not
reach the selector, and xrep while a deferred growth is to be decided first (R335). -/
def replicasComeAndGo : Prop :=
  ∀ (s u : State) (a b c : BitVec 5) (x : Name), let n := fieldOf (s.rg a) 11 0; fieldOf (s.rg a) 63 12 = 0 → Named s n x →
    s.task.stepping = false →
    (¬ MayReach s n false → exec (.xrep a c) s = .next s) ∧
    (MayReach s n false →
      ((∃ q < 8, (x.rep q).state = .filling) → GoesOnWith (.xrep a c) s s c 1 fun t => ComputeFrame s t) ∧
      ((∀ q < 8, (x.rep q).state ≠ .filling) → x.deferred = true → exec (.xrep a c) s = .next s) ∧
      ((∀ q < 8, (x.rep q).state ≠ .filling ∧ (x.rep q).state ≠ .gone) → x.deferred = false →
        GoesOnWith (.xrep a c) s s c 2 fun t => ComputeFrame s t) ∧
      ((∀ q < 8, (x.rep q).state ≠ .filling) → (∃ q < 8, (x.rep q).state = .gone) → x.deferred = false →
        (∀ i, createReplica n s.ownWork (s.begin 3) = .ok (some i) u → u.task.stepping = false →
          GoesOnWith (.xrep a c) s u c (BitVec.ofNat 64 (8 * i)) fun t => SameMemory u t ∧ t.names = u.names) ∧
        (createReplica n s.ownWork (s.begin 3) = .ok none u → TakesTrapOf (.xrep a c) s u 0x56 n))) ∧
    (fieldOf (s.rg b) 63 3 = 0 → ¬ MayReach s n true → exec (.xret a b c) s = .next s) ∧
    (fieldOf (s.rg b) 63 3 = 0 → MayReach s n true → let q := fieldOf (s.rg b) 2 0
      (q = x.owner → TakesTrapOf (.xret a b c) s (s.begin 3) 0x58 n) ∧
      (q ≠ x.owner → (x.rep q).state = .live → GoesOnWith (.xret a b c) s s c 0 fun t => SameMemory s t ∧
        ∃ y, t.nameAt n = some y ∧ (y.rep q) = { x.rep q with state := .draining } ∧ ∀ k, k ≠ q → y.rep k = x.rep k) ∧
      (q ≠ x.owner → (x.rep q).state = .filling → x.deferred = false →
        GoesOnWith (.xret a b c) s s c 0 fun t => SameMemory s t ∧
          ∃ y, t.nameAt n = some y ∧ (y.rep q).state = .gone ∧ ∀ k ∈ y.copies, k.replica ≠ q) ∧
      (q ≠ x.owner → (x.rep q).state = .draining → GoesOnWith (.xret a b c) s s c 1 fun t => ComputeFrame s t) ∧
      (q ≠ x.owner → (x.rep q).state = .gone → GoesOnWith (.xret a b c) s s c 2 fun t => ComputeFrame s t))

/-- R350: xown makes a live replica of the current version the owner, when its descriptor names the replica's weights and no update or
join is under way, and answers 1, 3 or 2 otherwise; while it may not reach the selector it waits at the instruction. -/
def ownersChange : Prop :=
  ∀ (s u : State) (a b c : BitVec 5) (q : BitVec 3) (x : Name) (bytes : List (Byte × Bool)), let n := fieldOf (s.rg a) 11 0
    fieldOf (s.rg a) 63 12 = 0 → Named s n x → s.task.stepping = false →
    let started := x.joined = true ∨ x.joinStep = x.version ∧ (x.joinZeroed = true ∨ x.joinPos ≠ 0)
    let updating := (x.rep q.toNat).version ≠ x.version ∨ ∃ k ∈ x.copies, k.fill = false
    (¬ MayReach s n false → exec (.xown a b c q) s = .next s) ∧
    (MayReach s n false →
      ((x.rep q.toNat).state ≠ .live ∨ q.toNat = x.owner → GoesOnWith (.xown a b c q) s s c 1 fun t => ComputeFrame s t) ∧
      ((x.rep q.toNat).state = .live → q.toNat ≠ x.owner →
        ((s.rg b).toNat % 128 ≠ 0 → GoesOnWith (.xown a b c q) s s c 3 fun t => ComputeFrame s t) ∧
        ((s.rg b).toNat % 128 = 0 → nameRead n s.ownWork (s.rg b) 8 (s.begin 3) = .ok bytes u → u.task.stepping = false →
          let wad := wordOfList (bytes.map (·.1))
          (wad ≠ (x.rep q.toNat).wad → GoesOnWith (.xown a b c q) s u c 3 fun t => ComputeFrame u t) ∧
          (wad = (x.rep q.toNat).wad → started ∨ updating → GoesOnWith (.xown a b c q) s u c 2 fun t => ComputeFrame u t) ∧
          (∀ y, wad = (x.rep q.toNat).wad → ¬ started → ¬ updating → u.nameAt n = some y →
            GoesOnWith (.xown a b c q) s u c 0 fun t => SameMemory u t ∧
              t.nameAt n = some { y with owner := q.toNat, optd := s.rg b }))))

/-- A name has been published at its next version (R341): the owner has it at once, and every other live replica its copy, with the
groups withheld that the map says. -/
def Published (n : Nat) (x : Name) (bits : List Byte) (t : State) : Prop :=
  ∃ y, t.nameAt n = some y ∧ y.version = (x.version + 1) % 65536 ∧ (y.rep x.owner).version = y.version ∧
    y.copies = x.copies ++ (((List.range 8).filter fun k => (x.rep k).state = .live ∧ k ≠ x.owner).map fun k =>
      { replica := k, version := y.version, fill := false, withheld := bits })

/-- R352: xupd of a name whose join is done publishes the next version after the earlier stores have drained, and completes once no
update copy of the name runs (assumption 81); it answers 3 for a misaligned map and 1 before the join is done. While it may not reach
the selector, and while the copies run, it waits at the instruction. -/
def updatesPublish : Prop :=
  ∀ (s u : State) (a b c : BitVec 5) (x : Name), let n := fieldOf (s.rg a) 11 0
    fieldOf (s.rg a) 63 12 = 0 →
    (s.task.begunOf s.cur.a < 4 → Named s n x → Drained s u → u.task.stepping = false →
      (¬ MayReach u n true → exec (.xupd a b c) s = .next s) ∧
      (MayReach u n true →
        ((s.rg b).toNat % 64 ≠ 0 → GoesOnWith (.xupd a b c) s u c 3 fun t => ComputeFrame u t) ∧
        ((s.rg b).toNat % 64 = 0 → x.joined = false → GoesOnWith (.xupd a b c) s u c 1 fun t => ComputeFrame u t) ∧
        (∀ v bits y, b = 0 ∧ bits = [] ∧ v = u.begin 3 ∨
            b ≠ 0 ∧ nameRead n s.ownWork (s.rg b) ((x.wlen / 64 + 7) / 8) (u.begin 3) = .ok bits v →
          (s.rg b).toNat % 64 = 0 → x.joined = true → v.nameAt n = some y → v.task.stepping = false →
          let alone := (∀ k < 8, k ≠ y.owner → (y.rep k).state ≠ .live) ∧ ∀ k ∈ y.copies, k.fill = true
          (alone → GoesOnWith (.xupd a b c) s v c 0 fun t => SameMemory v t ∧ Published n y (bits.map (·.1)) t) ∧
          (¬ alone → ∃ t, exec (.xupd a b c) s = .next t ∧ RegsSame v t ∧ t.pc = v.pc ∧ SameMemory v t ∧
            4 ≤ t.task.begunOf t.cur.a ∧ Published n y (bits.map (·.1)) t)))) ∧
    (4 ≤ s.task.begunOf s.cur.a → s.task.stepping = false →
      (s.updating n = false → GoesOnWith (.xupd a b c) s s c 0 fun t => ComputeFrame s t) ∧
      (s.updating n = true → exec (.xupd a b c) s = .next s))

/-- R353, R354: xcnt stores the counters of its range of names, which the partition holds, 16 bytes each, and clears them: in every
state with nothing of the core's under way where the bytes lie in its scratchpad, from where a load then reads the counters, those of
up to eight names as they stand in the store buffer; and as its stores enter elsewhere. xq writes what it shows of an index or of the
name, and 0 for a name that the partition does not hold or that is not defined. -/
def countersAndQueries : Prop :=
  (∀ (s p u v t' : State) (a b : BitVec 5) (ps : List (Place × List Byte)), let w := s.rg b; let f := fieldOf w 11 0
    let m := fieldOf w 24 12; let core := s.cur.core; let die := dieOf core; m ≠ 0 → fieldOf w 63 25 = 0 →
    (s.partAt (s.partOf core)).holdsNames f m = true → (s.rg a).toNat % 16 = 0 →
    let cleared (c : Nat × BitVec 96) : Bool := !(f ≤ c.1 && c.1 < f + m)
    let counters := (List.range m).flatMap fun i => bytesOfNat 16 (tabGet (s.dieAt die).gateCount (f + i) 0).toNat
    (let off := (s.rg a).toNat % 2 ^ 18; let table := s.tableAt core
      bitOf (s.rg a) 63 = true → fieldOf (s.rg a) 62 18 = 0 → off + 16 * m ≤ min (s.coreAt core).spmSize (2 ^ 18) →
      (s.task.priv = true ∨ table + 256 ≤ off ∨ off + 16 * m ≤ table) → (s.coreAt core).sb = [] →
      (s.coreAt core).memoryBusy = false → s.task.stepping = false →
      GoesOn (.xcnt a b) s s fun t => SameMemory s t ∧ (t.dieAt die).gateCount = (s.dieAt die).gateCount.filter cleared ∧
        (m ≤ 8 → (t.coreAt core).spm = (s.coreAt core).spm ∧ (t.coreAt core).sb = (List.range (2 * m)).map fun i =>
          { isLocal := true, addr := off + 8 * i, bytes := (counters.drop (8 * i)).take 8 }) ∧
        ∀ j < 16 * m, (sbByte (t.coreAt core).sb true (off + j)).getD (cellGet (t.coreAt core).spm (off + j)) =
          nth counters j 0) ∧
    (checkStores (storePieces (s.rg a) counters (2 * m + 1)) s = .ok ps p →
      drain p = .ok () u → u.cur = s.cur → (u.coreAt core).memoryBusy = false → ownStores ps u = .ok () v →
      enterStores ps v = .ok () t' → t'.task.stepping = false →
      GoesOn (.xcnt a b) s t' fun t => SameMemory t' t ∧ (t.coreAt core).sb = (t'.coreAt core).sb ∧
        (t.coreAt core).spm = (t'.coreAt core).spm ∧ (t.dieAt die).gateCount = (t'.dieAt die).gateCount.filter cleared)) ∧
  (∀ (s : State) (a c : BitVec 5) (k : BitVec 4), fieldOf (s.rg a) 63 12 = 0 → s.task.stepping = false →
    let n := fieldOf (s.rg a) 11 0
    ((∀ x, ¬ Named s n x) → GoesOnWith (.xq a c k) s s c 0 fun t => ComputeFrame s t) ∧
    (∀ x, Named s n x → ∃ v, GoesOnWith (.xq a c k) s s c v (fun t => ComputeFrame s t) ∧
      (k.toNat < 8 → (x.rep k.toNat).version < 65536 → let r := x.rep k.toNat
        fieldOf v 1 0 = (match r.state with | .gone => 0 | .filling => 1 | .live => 2 | .draining => 3) ∧
        bitOf v 2 = decide (k.toNat = x.owner) ∧ fieldOf v 18 3 = r.version ∧ fieldOf v 24 19 = r.pending % 64) ∧
      (8 ≤ k.toNat → x.version < 65536 → x.step < 65536 → x.owner < 8 →
        fieldOf v 15 0 = x.version ∧ fieldOf v 31 16 = x.step ∧ fieldOf v 34 32 = x.owner ∧ bitOf v 43 = true)))

/-- R344 to R354: the expert instructions.
The order of the answers of xown is the model's reading (log 48). -/
def Obligations.ExpertInstructionsAct : Prop :=
  requestsAreSent ∧ unknownNamesTrap ∧ xdefDefines ∧ replicasComeAndGo ∧ ownersChange ∧ updatesPublish ∧ countersAndQueries

/-- A state once one free value has been taken. -/
def ticked (s : State) : State := { s with tick := s.tick + 1 }

/-- A message to a replica's endpoint can start: it is of this device, or a path to its device is up (R286). -/
def ReplicaReached (r : Replica) (s : State) : Prop :=
  let dev := epDevice (BitVec.ofNat 29 (fieldOf (nth r.record 0 0) 28 0)); dev = s.device ∨ s.bestPath dev ≠ none

/-- The message in which a selector sends a token to replica q of a name (R333): to the endpoint, in the class and with the tag of the
replica's record, its payload the token's words; `t` is the state once it has left. -/
def tokenMessage (t : State) (n q : Nat) (x : Name) (word row : Word) (slice step core tid : Nat) (src : BitVec 29) : Packet :=
  let w := nth (x.rep q).record 0 0; let cls := fieldOf w 31 29
  { kind := .message (header0 src cls false false 0 (fieldOf w 39 32) 3 0 false) (BitVec.ofNat 64 t.now)
      (pad8 (tokenWords word row q slice step)) false
    ep := BitVec.ofNat 29 (fieldOf w 28 0), src := src, core := core, tid := tid, part := x.part, cls := cls, token := some (n, q)
    since := t.now }

/-- R332: the one token that may arrive at a die's selector, for a defined name whose pin names a replica with room and the right
version, goes to that replica: a message to its endpoint starts from the die, and its pending count goes up. For a name not defined,
or with a slice that the name as it stands does not have (assumption 80), the token leaves the selector and is counted there. -/
def tokensAreForwarded : Prop :=
  ∀ (s u : State) (die n step old core tid : Nat) (w row : Word) (src : BitVec 29) (seen : List Nat)
    (bytes : List (Byte × Bool)), let r : ExpertRequest := .token n step old w row core tid src seen
    (s.arriving die).filter (·.isToken) = [r] →
    (∀ x, (s.nameAt n = none ∨ s.nameAt n = some x ∧ x.nslice ≤ fieldOf w 31 12 / x.width) →
      Happens (.selectorToken die) s fun t => SameMemory s t ∧
        (die = n % 4 → fieldOf (t.dieAt die).xstat 47 40 = (fieldOf (s.dieAt die).xstat 47 40 + 1) % 256 ∧
          (t.dieAt die).requests = (s.dieAt die).requests.erase r)) ∧
    (∀ x y q, s.nameAt n = some x → let slice := fieldOf w 31 12 / x.width
      slice < x.nslice → nameRead n (.request r) (x.pinAt step slice) 1 (ticked s) = .ok bytes u → u.nameAt n = some y →
      natOfBytes (bytes.map (·.1)) = 128 + q → q < 8 → (y.rep q).held = [] → y.mayForward q (bitOf w 49) step = true →
      y.grow ≠ (y.rep q).pending + 1 → ReplicaReached (y.rep q) u →
      Happens (.selectorToken die) s fun t => SameMemory u t ∧ (t.dieAt die).requests = (u.dieAt die).requests.erase r ∧
        StartsFrom u t (n % 4) (tokenMessage t n q y w row slice step core tid src) ∧
        ∃ z, t.nameAt n = some z ∧ (z.rep q).pending = (y.rep q).pending + 1 ∧ ∀ k, k ≠ q → z.rep k = y.rep k)

/-- R332: the first token held for a replica goes to it once there is room for it, the version is right and no held work of the name is
in its way (R448): a message to the replica's endpoint starts from the name's die. -/
def heldTokensAreReleased : Prop :=
  ∀ (s : State) (n q m step slice core tid : Nat) (x : Name) (w row : Word) (src : BitVec 29) (seen : List Nat)
    (r : List ExpertRequest), s.nameAt n = some x → s.nameOpen n (.release q) = true →
    (x.rep q).held = .token m step slice w row core tid src seen :: r → x.mayForward q (bitOf w 49) step = true →
    x.grow ≠ (x.rep q).pending + 1 → ReplicaReached (x.rep q) s →
    Happens (.selectorTokenRelease n q) s fun t => SameMemory s t ∧
      StartsFrom s t (n % 4) (tokenMessage t n q x w row slice step core tid src) ∧
      ∃ y, t.nameAt n = some y ∧ (y.rep q).held = r ∧ (y.rep q).pending = (x.rep q).pending + 1

/-- R331, R334: an accepted close of a step ends the step: the pins that the old bank held are cleared, the pinned slices become the
set that the join awaits, and the next step opens. `u` is the state after the old bank is zeroed, `v` after the pins are read. -/
def stepsClose : Prop :=
  ∀ (s u v : State) (n : Nat) (x z : Name) (pins : List (Nat × Nat)), s.nameAt n = some x → x.closes ≠ 0 → x.joinDone = true →
    s.nameOpen n .close = true → nameWrite n .close (x.pinAt ((x.step + 65535) % 65536) 0) (clean (List.replicate x.nslice 0)) s = .ok () u →
    pinsOf n x.step .close u = .ok pins v → v.nameAt n = some z →
    Happens (.selectorStepClose n) s fun t => SameMemory v t ∧ ∃ a, t.nameAt n = some a ∧ a.step = (z.step + 1) % 65536 ∧
      a.joinStep = z.step ∧ a.joinDone = false ∧ a.joinZeroed = false ∧ a.joinSet = pins.map (·.1) ∧ a.joinNext = 0 ∧
      a.closes = z.closes - 1 ∧ ∀ q, (a.rep q).forwarded = 0

/-- R330, R335, R336, R341: a fill and an update copy move their replica's weights sector by sector, while no held work of the name is
in their way (R448); a finished fill of the current version makes the replica live, one of an older version begins again, a finished
update copy gives the replica its version; a withheld group is skipped; a growth deferred while no fill is in progress is decided. -/
def copiesAdvance : Prop :=
  ∀ (s u : State) (n : Nat) (x y : Name) (c : ExpertCopy), s.nameAt n = some x →
    (x.copies.find? (·.fill) = none → x.deferred = true → s.nameOpen n .growth = true → decideDeferred n s = .ok () u →
      Happens (.replicaFillComplete n) s fun t => t = u) ∧
    (x.copies.find? (·.fill) = some c → (x.deferred = true → x.holder ≠ some .growth) → s.nameOpen n (.copy c.replica) = true →
      (c.pos < x.wlen → copySector n c.replica c.pos s = .ok () u → u.nameAt n = some y → y.copies = [c] →
        Happens (.replicaFillComplete n) s fun t => SameMemory u t ∧
          t.nameAt n = some { y with copies := [{ c with pos := c.pos + 32 }] }) ∧
      (x.wlen ≤ c.pos → x.copies = [c] → c.version = x.version → x.deferred = false → Happens (.replicaFillComplete n) s fun t => SameMemory s t ∧
        ∃ z, t.nameAt n = some z ∧ z.copies = [] ∧ (z.rep c.replica).state = .live ∧ (z.rep c.replica).version = x.version) ∧
      (x.wlen ≤ c.pos → x.copies = [c] → c.version ≠ x.version → Happens (.replicaFillComplete n) s fun t => SameMemory s t ∧
        ∃ z, t.nameAt n = some z ∧ z.copies = [{ c with version := x.version, refills := c.refills + 1, pos := 0 }] ∧
          fieldOf (t.dieAt (n % 4)).xstat 15 0 = (fieldOf (s.dieAt (n % 4)).xstat 15 0 + 1) % 65536)) ∧
    (c.fill = false → x.copies = [c] → s.nameOpen n (.copy c.replica) = true →
      (c.pos < x.wlen → (nth c.withheld (c.pos / 64 / 8) 0).getLsbD (c.pos / 64 % 8) = false →
        copySector n c.replica c.pos s = .ok () u → u.nameAt n = some y → y.copies = [c] →
        Happens (.updateCopyComplete n c.replica) s fun t => SameMemory u t ∧
          t.nameAt n = some { y with copies := [{ c with pos := c.pos + 32 }] }) ∧
      (c.pos < x.wlen → (nth c.withheld (c.pos / 64 / 8) 0).getLsbD (c.pos / 64 % 8) = true →
        Happens (.updateCopyComplete n c.replica) s fun t => SameMemory s t ∧
          t.nameAt n = some { x with copies := [{ c with pos := c.pos + 64 }] }) ∧
      (x.wlen ≤ c.pos → Happens (.updateCopyComplete n c.replica) s fun t => SameMemory s t ∧
        ∃ z, t.nameAt n = some z ∧ z.copies = [] ∧ (z.rep c.replica).version = c.version))

/-- R340, R351: the one partial that may arrive is refused for a name not defined; one that its name awaits, of a slice pinned to the
replica that sends it, not yet added nor sent before, waits in the join's buffer while that has room. -/
def partialsArrive : Prop :=
  ∀ (s u : State) (die n step slice core tid : Nat) (addr pc : Word) (notify : Bool) (src : BitVec 29)
    (seen : List Nat) (bytes : List (Byte × Bool)), let r : ExpertRequest := .join n step slice addr notify core tid pc src seen
    (s.arriving die).filter (fun q => q.isToken == false) = [r] →
    (s.nameAt n = none → die = n % 4 → Happens (.joinEntryArrival die) s fun t => SameMemory s t ∧
      fieldOf (t.dieAt die).xstat 47 40 = (fieldOf (s.dieAt die).xstat 47 40 + 1) % 256) ∧
    (∀ x y pin, s.nameAt n = some x → nameRead n (.request r) (x.pinAt step slice) 1 (ticked s) = .ok bytes u → u.nameAt n = some y →
      pin = natOfBytes (bytes.map (·.1)) → pin / 128 = 1 → slice < x.nslice →
      fieldOf (nth (x.rep (pin % 8)).record 0 0) 28 0 = src.toNat →
      (∀ e ∈ x.entries, e.step ≠ step ∨ e.slice ≠ slice) → step = x.step ∨ step = x.joinStep ∧ x.joinDone = false →
      (step = x.joinStep → slice ∉ x.joinSet.take x.joinNext) → (x.entries.filter (!·.spilled)).length < 256 →
      Happens (.joinEntryArrival die) s fun t => SameMemory u t ∧ (t.dieAt die).requests = (u.dieAt die).requests.erase r ∧
        ∃ z, t.nameAt n = some z ∧ z.entries = y.entries ++ [{
          step := step, slice := slice, replica := pin % 8, addr := addr, notify := notify, core := core, tid := tid, pc := pc }])

/-- R339: a join first zeroes the gradients, then adds the partials in ascending slice order, and ends when its set is added: when the
gradients are zeroed, sector by sector, the adding begins, when a partial is added its entry goes, when none is left the join is done. -/
def joinsAdd : Prop :=
  ∀ (s : State) (n : Nat) (x : Name), s.nameAt n = some x → x.joinDone = false → x.version = x.joinStep →
    s.nameOpen n .join = true →
    (∀ g u v y, x.joinZeroed = false → x.joinPos < x.wlen → gradAddr n s = .ok g u →
      nameWrite n .join (g + BitVec.ofNat 64 x.joinPos) (clean (List.replicate (min 32 (x.wlen - x.joinPos)) 0)) u = .ok () v →
      v.nameAt n = some y → Happens (.joinAdd n) s fun t => SameMemory v t ∧
        t.nameAt n = some { y with joinPos := y.joinPos + 32 }) ∧
    (x.joinZeroed = false → x.wlen ≤ x.joinPos → Happens (.joinAdd n) s fun t => SameMemory s t ∧
      t.nameAt n = some { x with joinZeroed := true, joinPos := 0 }) ∧
    (x.joinZeroed = true → x.joinSet[x.joinNext]? = none → Happens (.joinAdd n) s fun t => SameMemory s t ∧
      ∃ z, t.nameAt n = some z ∧ z.joinDone = true ∧ ∀ e ∈ z.entries, e.step ≠ x.joinStep) ∧
    (∀ slice e, x.joinZeroed = true → x.joinSet[x.joinNext]? = some slice →
      x.entries.find? (fun e => e.step == x.joinStep && e.slice == slice) = some e → x.wlen ≤ x.joinPos →
      Happens (.joinAdd n) s fun t => SameMemory s t ∧
        t.nameAt n = some { x with entries := x.entries.erase e, joinNext := x.joinNext + 1, joinPos := 0 }) ∧
    (∀ slice e g u o v p w, x.joinZeroed = true → x.joinSet[x.joinNext]? = some slice →
      x.entries.find? (fun e => e.step == x.joinStep && e.slice == slice) = some e → e.spilled = false → x.joinPos < x.wlen →
      gradAddr n s = .ok g u → let a := g + BitVec.ofNat 64 x.joinPos; let k := min 32 (x.wlen - x.joinPos)
      nameRead n .join a k u = .ok o v → nameRead n .join (e.addr + BitVec.ofNat 64 x.joinPos) k v = .ok p w →
      ∀ z y, nameWrite n .join a (addSector o p) w = .ok () z → z.nameAt n = some y →
      Happens (.joinAdd n) s fun t => SameMemory z t ∧ t.nameAt n = some { y with joinPos := y.joinPos + 32 })

/-- R338, R448: a draining replica with no token pending or held, no slice pinned to it in the open step and every slice of the step
before joined is gone; a faulted access of a name may walk again 100 microseconds after its fault. -/
def replicasEndAndWalksRetry : Prop :=
  (∀ (s u v : State) (n q : Nat) (x y : Name) (now before : List (Nat × Nat)), s.nameAt n = some x →
    s.nameOpen n (.gone q) = true → (x.rep q).state = .draining →
    (x.rep q).pending = 0 → (x.rep q).held = [] → pinsOf n x.step (.gone q) s = .ok now u →
    pinsOf n ((x.step + 65535) % 65536) (.gone q) u = .ok before v → v.nameAt n = some y → (∀ p ∈ now, p.2 ≠ q) →
    (∀ p ∈ before, p.2 = q → p.1 ∈ (if x.joinDone = true then x.joinSet else x.joinSet.take x.joinNext)) →
    Happens (.replicaGone n q) s fun t => SameMemory v t ∧ ∃ z, t.nameAt n = some z ∧ (z.rep q).state = .gone ∧
      ∀ k, k ≠ q → z.rep k = y.rep k) ∧
  (∀ (s : State) (n : Nat) (x : Name), tabFind s.names n = some x → x.walkFault = true →
    x.faultSince + 100000 ≤ s.now + Config.elapsed s.tick →
    Happens (.expertWalkRetry n) s fun t => SameMemory s t ∧ tabFind t.names n = some { x with walkFault := false } ∧
      CoresSame s t)

/-- R327 to R343: what the selectors do.
The order of requests of different cores is free (log 23); the free fields of control messages are in log 48. -/
def Obligations.ExpertUnitsServeTheirNames : Prop :=
  tokensAreForwarded ∧ heldTokensAreReleased ∧ stepsClose ∧ copiesAdvance ∧ partialsArrive ∧ joinsAdd ∧ replicasEndAndWalksRetry

/-- R361: gpush of an aligned, well-formed entry to a die of the partition, with room in its gate queue, starts the entry on its way
after the earlier stores have drained, and waits at the instruction without room; of a die whose cove 0 is not the partition's it
takes the trap of cause 0x29. `u` is the state after the entry is read, `v` after the stores have drained. -/
def gateEntriesAreSent : Prop :=
  ∀ (s u v : State) (a b : BitVec 5) (e : List Word), let core := s.cur.core; let die := (s.rg b).toNat
    (4 ≤ die → TakesTrap (.gpush a b) s s 0x01 0) ∧
    (die < 4 → s.partOf (routingCore die) ≠ s.partOf core → TakesTrap (.gpush a b) s s 0x29 0) ∧
    (die < 4 → s.partOf (routingCore die) = s.partOf core →
      ((s.rg a).toNat % 16 ≠ 0 → TakesTrap (.gpush a b) s s 0x10 (s.rg a)) ∧
      ((s.rg a).toNat % 16 = 0 → Descriptor s u (s.rg a) 10 e → u.cur = s.cur → gateCheck e u = .ok () u →
        Drained u v → v.cur = s.cur →
        (512 ≤ (v.dieAt die).gate.length → exec (.gpush a b) s = .next s) ∧
        ((v.dieAt die).gate.length < 512 → v.task.stepping = false →
        GoesOn (.gpush a b) s v fun t => SameMemory v t ∧ OtherCoresSame core v t ∧ StartsFrom v t (dieOf core)
          { kind := .gate e die, ep := endpoint 0 0 die s.device, home := some (routingCore die), src := s.endpointOf core
            core := core, part := s.partOf core, cls := 0, stop := stopOf core, since := v.now })))

/-- R361: the first gate packet of a die's loops that may leave its loop enters the die's gate queue behind what is there, once there
is room, where this is the die that it is for, and else goes on. -/
def gateEntriesArrive : Prop :=
  ∀ (s : State) (die ix : Nat) (f : Flight) (e : List Word) (k : Nat),
    (s.dieAt die).ring[ix]? = some f → f.packet.kind = .gate e k → s.flightFree die ix = true →
    (∀ j < ix, ∀ g x n, (s.dieAt die).ring[j]? = some g → g.packet.kind = .gate x n → s.flightFree die j = false) →
    ((s.target die f.packet).goesOn = false → s.target die f.packet ≠ .gone →
      ((s.dieAt die).gate.length < 512 → Happens (.gateAppend die) s fun t => SameMemory s t ∧ CoresSame s t ∧
        (t.dieAt die).gate = (s.dieAt die).gate ++ [e] ∧ (t.dieAt die).ring = (s.dieAt die).ring.eraseIdx ix) ∧
      (512 ≤ (s.dieAt die).gate.length → exec (.gateAppend die) s = .next s)) ∧
    ((s.target die f.packet).goesOn = true → Happens (.gateAppend die) s fun t => SameMemory s t ∧
      (t.dieAt die).gate = (s.dieAt die).gate ∧ (t.dieAt die).ring = (s.dieAt die).ring.eraseIdx ix)

/-- R362: gpop stores the oldest entry of the die's gate queue, takes it away, and writes its header word 0 with bit 63 set; of an
empty queue it writes 0 with .nw, and waits without. `p` is the state after the checks, `v` after the stores have entered. -/
def gateEntriesAreTaken : Prop :=
  ∀ (s p v : State) (a c : BitVec 5) (x : BitVec 1) (ps : List (Place × List Byte)), let die := dieOf s.cur.core
    ((s.rg a).toNat % 16 ≠ 0 → TakesTrap (.gpop a c x) s s 0x10 (s.rg a)) ∧
    ((s.rg a).toNat % 16 = 0 → (s.dieAt die).gate = [] →
      checkStores (storePieces (s.rg a) (List.replicate 80 0) 10) s = .ok ps p → p.task.stepping = false →
      GoesOnWith (.gpop a c 1) s p c 0 (fun t => ComputeFrame p t) ∧ exec (.gpop a c 0) s = .next s) ∧
    (∀ e r, (s.rg a).toNat % 16 = 0 → (s.dieAt die).gate = e :: r → e.length = 10 →
      checkStores (storePieces (s.rg a) (e.flatMap bytesOf) 10) s = .ok ps p → enterStores ps p = .ok () v →
      v.cur = s.cur → v.task.stepping = false →
      GoesOnWith (.gpop a c x) s v c (nth e 0 0 ||| 0x8000000000000000#64) fun t => SameMemory v t ∧
        (t.coreAt s.cur.core).sb = (v.coreAt s.cur.core).sb ∧ t.dies = (v.modDie die fun d => { d with gate := r }).dies)

/-- R362, R450: in every state with an empty store buffer, gpop of an entry into 80 bytes of the core's scratchpad that a plain store
may write completes: the entry stands in the store buffer as ten stores, and has left the gate queue. -/
def gpopStoresItsEntry : Prop :=
  ∀ (s : State) (a c : BitVec 5) (x : BitVec 1) (e : List Word) (r : List (List Word)), let core := s.cur.core
    let ea := s.rg a; let off := ea.toNat % 2 ^ 18; let table := s.tableAt core
    (s.dieAt (dieOf core)).gate = e :: r → e.length = 10 → s.task.stepping = false → (s.coreAt core).sb = [] →
    ea.toNat % 16 = 0 → bitOf ea 63 = true → fieldOf ea 62 18 = 0 → off + 80 ≤ min (s.coreAt core).spmSize (2 ^ 18) →
    (s.task.priv = true ∨ table + 256 ≤ off ∨ off + 80 ≤ table) →
    GoesOnWith (.gpop a c x) s s c (nth e 0 0 ||| 0x8000000000000000#64) fun t => SameMemory s t ∧
      (t.coreAt core).sb = (List.range 10).map (fun i => { isLocal := true, addr := off + 8 * i, bytes := bytesOf (nth e i 0) }) ∧
      t.dies = (s.modDie (dieOf core) fun d => { d with gate := r }).dies

/-- What remit has read: its entry `e`, well formed and of a slot of the buffer, the scores, and the 64 bytes of the slot. -/
def RemitReads (a : BitVec 5) (e : List Word) (scores : List Machine.Num) (slot : Word) (bytes : List Byte) (s u : State) : Prop :=
  (s.rg a).toNat % 16 = 0 ∧ ∃ v w ws, Descriptor s v (s.rg a) 10 e ∧ gateCheck e v = .ok () v ∧ v.cur = s.cur ∧
    (let die := v.dieAt (dieOf s.cur.core);
      die.tbase ≤ gateTok (nth e 0 0) ∧ gateTok (nth e 0 0) - die.tbase ≤ die.slotCap ∧
      slot = die.slotAddr (gateTok (nth e 0 0) - die.tbase)) ∧
    gateScores e v = .ok scores w ∧ loadWords slot 8 w = .ok ws u ∧ ws.flatMap bytesOf = bytes ∧ u.cur = s.cur

/-- The scores in the order of R364, each with its index: those chosen. -/
def chosen (e : List Word) (scores : List Machine.Num) : List (Machine.Num × Nat) :=
  ((scores.zip (List.range scores.length)).foldl (fun l x => rankInsert x l) []).take (gateK (nth e 0 0) + 1)

/-- R364, R365: remit of a half that is valid answers 3; of a tentative entry whose true half is known it counts the names as
predicted and squashed, and answers 2; of a new half it writes the record of the chosen names and weights and counts them, marks
the tentative routes that a true record confirms or squashes, and answers 0, or 1 with the squash mask. Its stores enter, in ascending
address order, once the earlier ones have drained and no memory command of the core is unfinished. -/
def remitsWriteTheirRecord : Prop :=
  ∀ (s u : State) (a c : BitVec 5) (e : List Word) (scores : List Machine.Num) (slot : Word) (bytes : List Byte),
    RemitReads a e scores slot bytes s u →
    let d := dieOf s.cur.core; let w := nth e 0 0; let tent := bitOf w 45
    let names := (chosen e scores).map fun x => gateBase w + x.2
    let own := halfOf (if tent then bytes.take 32 else bytes.drop 32)
    let oth := halfOf (if tent then bytes.drop 32 else bytes.take 32)
    (own.v = true → u.task.stepping = false → GoesOnWith (.remit a c) s u c 3 fun t => ComputeFrame u t) ∧
    (own.v = false → tent = true → oth.v = true → u.task.stepping = false →
      GoesOnWith (.remit a c) s u c 2 fun t => SameMemory u t ∧ OtherCoresSame s.cur.core u t ∧
        t.dies = (countRoutes d 2 names (countRoutes d 1 names u)).dies) ∧
    (∀ half ps p v x y z, own.v = false → (tent = true → oth.v = false) →
      half = ({ k := gateK w, v := true, names := names
                wts := routeWeights (bitOf w 44) ((chosen e scores).map (·.1)) } : RouteHalf) →
      let known := !tent && oth.v
      let squash := oth.sq ||| (((List.range oth.names.length).filter fun j => !names.contains (nth oth.names j 0)).foldl
        (fun t j => t + 2 ^ j) 0)
      let confirm := oth.cf ||| (((List.range oth.names.length).filter fun j => names.contains (nth oth.names j 0)).foldl
        (fun t j => t + 2 ^ j) 0)
      checkStores ((if known then [(slot, bytesOfNat 4 ({ oth with cf := confirm, sq := squash } : RouteHalf).flags)] else []) ++
        storePieces (if tent then slot else slot + 32) half.bytes 4) u = .ok ps p →
      Drained p v → v.cur = s.cur → (v.coreAt s.cur.core).memoryBusy = false →
      ownStores ps v = .ok () x → enterStores ps x = .ok () y → drain y = .ok () z →
      z.cur = s.cur → z.task.stepping = false →
      GoesOnWith (.remit a c) s z c (if known then BitVec.ofNat 64 (1 + 256 * squash) else 0) fun t => SameMemory z t ∧
        t.dies = (if tent then countRoutes d 1 names z
          else if oth.v then countRoutes d 2 (oth.names.filter fun n => !names.contains n) (countRoutes d 0 names z)
          else countRoutes d 0 names z).dies)

/-- R364: an entry of a token outside the buffer takes the trap of cause 0x5A, and one whose scores stand in memory at no multiple of
4 that of 0x10 (R114). -/
def remitOutsideTheBufferTraps : Prop :=
  ∀ (s u : State) (a c : BitVec 5) (e : List Word), (s.rg a).toNat % 16 = 0 → Descriptor s u (s.rg a) 10 e →
    gateCheck e u = .ok () u → u.cur = s.cur →
    let die := u.dieAt (dieOf s.cur.core)
    (gateTok (nth e 0 0) < die.tbase ∨ die.tbase + die.slotCap < gateTok (nth e 0 0) → TakesTrap (.remit a c) s u 0x5A 0) ∧
    (die.tbase ≤ gateTok (nth e 0 0) → gateTok (nth e 0 0) ≤ die.tbase + die.slotCap → bitOf (nth e 0 0) 40 = false →
      (nth e 1 0).toNat % 4 ≠ 0 → TakesTrap (.remit a c) s u 0x10 (nth e 1 0))

/-- R359 to R365: the gate queue and the routing records.
That no other event comes between the stores of remit is the model's choice (log 49). -/
def Obligations.GateEntriesBecomeRoutingRecords : Prop :=
  gateEntriesAreSent ∧ gateEntriesArrive ∧ gateEntriesAreTaken ∧ gpopStoresItsEntry ∧ remitsWriteTheirRecord ∧ remitOutsideTheBufferTraps

/-- A command has been queued at the die's sort engine. -/
def SortQueued (u t : State) (i : Instr) (w : List Word) : Prop :=
  SameMemory u t ∧ OtherCoresSame u.cur.core u t ∧ ∃ q : SortCommand,
    (t.dieAt (dieOf u.cur.core)).sort = (u.dieAt (dieOf u.cur.core)).sort ++ [q] ∧ q.instr = i ∧ q.words = w ∧ q.core = u.cur.core ∧
    q.tid = u.task.tid ∧ q.pc = u.pc ∧ q.pos = 0 ∧ q.pairs = [] ∧ q.left = 0 ∧ q.source = none

/-- R367 to R369: rsort and rmap of a well-formed descriptor are queued after the earlier stores have drained, while the engine holds
fewer than 16, and wait at the instruction while it holds them; an rsort of tokens outside the buffer takes the trap of cause 0x5A, of names outside the partition's range that of
0x55; a reserved bit or a field out of range that of 0x01. -/
def sortCommandsAreQueued : Prop :=
  ∀ (s u v : State) (a : BitVec 5) (w : List Word), let core := s.cur.core
    ((s.rg a).toNat % 64 ≠ 0 → TakesTrap (.rsort a) s s 0x10 (s.rg a) ∧ ∀ d, TakesTrap (.rmap a d) s s 0x10 (s.rg a)) ∧
    ((s.rg a).toNat % 64 = 0 → Descriptor s u (s.rg a) 8 w → u.cur = s.cur →
      ((∃ x ∈ w.take 3, x.toNat % 64 ≠ 0) → TakesTrap (.rsort a) s u 0x10 (s.rg a)) ∧
      (let t0 := half32 w 24; let n := half32 w 28; let nb := fieldOf (nth w 4 0) 15 0; let nn := fieldOf (nth w 4 0) 31 16
        let die := u.dieAt (dieOf core);
        let fine := fieldOf (nth w 4 0) 63 40 = 0 ∧ (∀ x ∈ w.drop 5, x = 0) ∧ 0 < n ∧ n ≤ 8192 ∧ 0 < nn ∧ nn ≤ 4096 ∧
          fieldOf (nth w 4 0) 39 32 ≤ 2;
        (∀ x ∈ w.take 3, x.toNat % 64 = 0) →
          (¬ fine → TakesTrap (.rsort a) s u 0x01 0) ∧
          (fine → t0 < die.tbase ∨ die.slotCap + 1 < t0 - die.tbase + n → TakesTrap (.rsort a) s u 0x5A 0) ∧
          (fine → die.tbase ≤ t0 → t0 - die.tbase + n ≤ die.slotCap + 1 →
            ((u.partAt (u.partOf core)).holdsNames nb nn = false → TakesTrapOf (.rsort a) s u 0x55 nb) ∧
            ((u.partAt (u.partOf core)).holdsNames nb nn = true → Drained u v → v.cur = s.cur →
              (16 ≤ (v.dieAt (dieOf core)).sort.length → exec (.rsort a) s = .next s) ∧
              ((v.dieAt (dieOf core)).sort.length < 16 → v.task.stepping = false →
                GoesOn (.rsort a) s v fun t => SortQueued v t (.rsort a) w)))) ∧
      (∀ d : BitVec 1, let n := half32 w 24; let rl := half32 w 32
        let fine := fieldOf (nth w 5 0) 63 40 = 0 ∧ nth w 6 0 = 0 ∧ nth w 7 0 = 0 ∧ 0 < n ∧
          n ≤ (if d = 1 then 65536 else 8192) ∧ 0 < rl ∧ rl ≤ 65536 ∧ rl % 32 = 0 ∧ half32 w 36 % 32 = 0 ∧ half32 w 40 % 32 = 0 ∧
          fieldOf (nth w 5 0) 39 32 ≤ (if d = 1 then 0 else 1)
        let even := (nth w 0 0).toNat % (if d = 1 then 8 else 32) = 0 ∧ (nth w 1 0).toNat % 32 = 0 ∧ (nth w 2 0).toNat % 32 = 0
        (¬ even → TakesTrap (.rmap a d) s u 0x10 (s.rg a)) ∧
        (even → ¬ fine → TakesTrap (.rmap a d) s u 0x01 0) ∧
        (even → fine → Drained u v → v.cur = s.cur →
          (16 ≤ (v.dieAt (dieOf core)).sort.length → exec (.rmap a d) s = .next s) ∧
          ((v.dieAt (dieOf core)).sort.length < 16 → v.task.stepping = false →
            GoesOn (.rmap a d) s v fun t => SortQueued v t (.rmap a d) w))))

/-- The first command of a die's sort engine, whose task stands where it issued. -/
def SortFirst (d : Nat) (c : SortCommand) (r : List SortCommand) (s : State) : Prop :=
  (s.dieAt d).sort = c :: r ∧ s.coreOfTask c.tid = some c.core

/-- R368: the engine reads the slots of an rsort one by one and keeps the pairs its mode selects; with more pairs than 65,536 in all
it ends with nothing written; else the list, the offsets and the map are written and counted. -/
def rsortRuns : Prop :=
  ∀ (s u v : State) (d : Nat) (c : SortCommand) (r : List SortCommand) (a : BitVec 5), SortFirst d c r s → c.instr = .rsort a →
    let n := half32 c.words 28; let t0 := half32 c.words 24; let nb := fieldOf (nth c.words 4 0) 15 0
    let nn := fieldOf (nth c.words 4 0) 31 16; let pairs := fieldOf (s.dieAt d).rstep 36 20
    (∀ tent tru, c.pos < n → readSlot d ((s.dieAt d).slotAddr (t0 + c.pos - (s.dieAt d).tbase)) s = .ok (.ok (tent, tru)) u → (u.dieAt d).sort = c :: r →
      let k := tokenPairs (fieldOf (nth c.words 4 0) 39 32) nb nn (t0 + c.pos) tent tru
      Happens (.sortEnginePerform d) s fun t => SameMemory u t ∧ CoresSame u t ∧
        (t.dieAt d).sort = { c with pos := c.pos + 1, pairs := c.pairs ++ k.1, left := c.left + k.2 } :: r) ∧
    (n ≤ c.pos → 65536 < pairs + c.pairs.length → Happens (.sortEnginePerform d) s fun t => SameMemory s t ∧
      (t.dieAt d).sort = r ∧ (t.dieAt d).rstep = (s.dieAt d).rstep) ∧
    (∀ places, n ≤ c.pos → pairs + c.pairs.length ≤ 65536 →
      let l := sortPairs nb nn c.pairs
      sortPlaces d c (rangePieces (nth c.words 0 0) (8 * l.length) ++ rangePieces (nth c.words 2 0) (4 * (nn + 1))
        ++ rangePieces (nth c.words 1 0) (32 * n)) s = .ok (.ok places) u →
      c.write places (l.flatMap bytesOf ++ sortOffsets nb nn l ++ returnMap t0 n l) u = .ok () v →
      (v.dieAt d).sort = c :: r →
      Happens (.sortEnginePerform d) s fun t => SameMemory v t ∧ (t.dieAt d).sort = r ∧
        (t.dieAt d).rstep = withField (v.dieAt d).rstep 36 20 (pairs + l.length))

/-- R368: the dispatch list of pairs of a name range is in name order, and keeps the order of the pairs of each name. -/
def dispatchListIsAStableSort : Prop :=
  ∀ (nb nn : Nat) (l : List Word), (∀ w ∈ l, nb ≤ pairName w ∧ pairName w < nb + nn) →
    (sortPairs nb nn l).Pairwise (fun v w => pairName v ≤ pairName w) ∧ (sortPairs nb nn l).length = l.length ∧
      ∀ x, (sortPairs nb nn l).filter (fun w => pairName w == x) = l.filter fun w => pairName w == x

/-- R369: the engine moves the sectors of an rmap one by one: the bytes of the source row, or zeros, to the destination row; where
the row comes from is found once, at its first sector; the command ends when every row is written. -/
def rmapRuns : Prop :=
  ∀ (s u v w x : State) (d : Nat) (c : SortCommand) (r : List SortCommand) (a : BitVec 5) (disp : BitVec 1), SortFirst d c r s →
    c.instr = .rmap a disp →
    let n := half32 c.words 24; let per := half32 c.words 32 / 32; let rows := if disp = 1 then n else 8 * n
    let row := c.pos / per; let off := BitVec.ofNat 64 (c.pos % per * 32)
    let dst := nth c.words 2 0 + BitVec.ofNat 64 (row * half32 c.words 40) + off
    (rows ≤ row → Happens (.sortEnginePerform d) s fun t => SameMemory s t ∧ (t.dieAt d).sort = r) ∧
    (∀ source bytes places, row < rows → currentRow d c (disp = 1) row s = .ok (.ok source) u →
      (match source with
        | none => bytes = List.replicate 32 0 ∧ v = u
        | some ea => sortRead c d [(ea + off, 32)] u = .ok (.ok (bytes, false)) v) →
      sortPlaces d c [(dst, 32)] v = .ok (.ok places) w → c.write places bytes w = .ok () x →
      (x.dieAt d).sort = c :: r →
      Happens (.sortEnginePerform d) s fun t => SameMemory x t ∧ CoresSame x t ∧
        (t.dieAt d).sort = { c with pos := c.pos + 1, source := if (c.pos + 1) % per = 0 then none else some source } :: r)

/-- The state once the selectors have accepted a close of each name of a range that is defined (R370). -/
def closeRange (f m : Nat) (s : State) : State :=
  { s with names := s.names.map fun x =>
      if f ≤ x.1 && x.1 < f + m && x.2.defined then (x.1, { x.2 with closes := x.2.closes + 1 }) else x }

/-- R370: rclose of names of the partition's range sends a close to each that is defined, once the earlier stores have drained; while
an earlier request of the core for one of the names is on its way, it waits at the instruction (R421). With .buf it then waits for
the commands that the sort engine already holds, and clears the flags of every slot and the count of pairs; the slots are owned
first, so that a fault of one comes before any close. -/
def rcloseClosesTheStep : Prop :=
  ∀ (s o u v w : State) (a : BitVec 5), let x := s.rg a; let f := fieldOf x 11 0; let m := fieldOf x 24 12; let d := dieOf s.cur.core
    let slots := List.range ((s.dieAt d).slotCap + 1)
    let cleared (y w : State) : Prop := clearSlots d false slots y = .ok () v → clearSlots d true slots v = .ok () w →
      w.task.stepping = false → GoesOn (.rclose a 1) s w fun t => SameMemory w t ∧ t.names = w.names ∧
        (t.dieAt d).rstep = withField (w.dieAt d).rstep 36 20 0
    (∀ b, fieldOf x 63 25 ≠ 0 ∨ m = 0 → TakesTrap (.rclose a b) s s 0x01 0) ∧
    (fieldOf x 63 25 = 0 → 0 < m → (∀ b, (s.partAt (s.partOf s.cur.core)).holdsNames f m = false →
      TakesTrapOf (.rclose a b) s s 0x55 f)) ∧
    (fieldOf x 63 25 = 0 → 0 < m → (s.partAt (s.partOf s.cur.core)).holdsNames f m = true →
      (s.task.begunOf s.cur.a < 5 → u.cur = s.cur →
        (¬ RequestsArrived s f m → exec (.rclose a 0) s = .next s) ∧
        (RequestsArrived s f m → Drained s u → u.task.stepping = false →
          GoesOn (.rclose a 0) s u fun t => SameMemory u t ∧ t.names = (closeRange f m u).names) ∧
        (clearSlots d false slots s = .ok () o → o.cur = s.cur →
          (¬ RequestsArrived o f m → exec (.rclose a 1) s = .next s) ∧
          (RequestsArrived o f m → Drained o u → let y := (closeRange f m u).begin (5 + u.nextUid)
            ((∃ c ∈ (u.dieAt d).sort, c.id < u.nextUid) → exec (.rclose a 1) s = .next y) ∧
            ((∀ c ∈ (u.dieAt d).sort, u.nextUid ≤ c.id) → cleared y w)))) ∧
      (5 ≤ s.task.begunOf s.cur.a →
        ((∃ c ∈ (s.dieAt d).sort, c.id + 5 < s.task.begunOf s.cur.a) → exec (.rclose a 1) s = .next s) ∧
        ((∀ c ∈ (s.dieAt d).sort, s.task.begunOf s.cur.a ≤ c.id + 5) → cleared s w)))

/-- R367 to R370: the sort engine, and the close of a step.
The progress by slots and sectors is the model's choice (log 24). -/
def Obligations.SortEngineOrdersAndMovesRows : Prop :=
  sortCommandsAreQueued ∧ rsortRuns ∧ dispatchListIsAStableSort ∧ rmapRuns ∧ rcloseClosesTheStep

/-- An rput that has been accepted: its ranges, its role, its task, with nothing read. -/
def FreshPut (w : List Word) (n : BitVec 1) (v : State) (p : ReducePut) : Prop :=
  p.id = v.nextUid ∧ p.backup = bitOf (nth w 5 0) 36 ∧ p.src = nth w 0 0 ∧ p.dst = nth w 1 0 ∧ p.res = nth w 2 0 ∧
    p.scl = nth w 3 0 ∧ p.notify = decide (n = 1) ∧ p.core = v.cur.core ∧ p.tid = v.task.tid ∧ p.pos = 0 ∧ p.arrived = false

/-- R393: rput of a misaligned descriptor or range takes the trap of cause 0x10, of a reserved bit or of thinning with no residual
buffer that of 0x01, of a ring entry not configured, or of a role that is held, that of 0x53 with sr.rflt naming the bucket. -/
def rputsAreChecked : Prop :=
  ∀ (s u : State) (a : BitVec 5) (n : BitVec 1) (w : List Word), let core := s.cur.core
    ((s.rg a).toNat % 64 ≠ 0 → TakesTrap (.rput a n) s s 0x10 (s.rg a)) ∧
    ((s.rg a).toNat % 64 = 0 → Descriptor s u (s.rg a) 8 w → u.cur = s.cur →
      let f := nth w 5 0; let bid := fieldOf f 15 0; let ring := fieldOf f 35 32; let tk := fieldOf f 44 40
      let aligned := ∀ x ∈ w.take 3, x.toNat % 64 = 0
      let fine := fieldOf f 31 28 = 0 ∧ bitOf f 38 = false ∧ fieldOf f 63 45 = 0 ∧ nth w 6 0 = 0 ∧ nth w 7 0 = 0 ∧
        (tk ≠ 0 → nth w 2 0 ≠ 0)
      let held := u.bucketOf (dieOf core) (u.partOf core) ring bid
      (¬ aligned → TakesTrap (.rput a n) s u 0x10 (s.rg a)) ∧
      (aligned → ¬ fine → TakesTrap (.rput a n) s u 0x01 0) ∧
      (aligned → fine → (ringOn (u.ringOf (dieOf core) (u.partOf core) ring) = false ∨
          ∃ b, held = some b ∧ (bitOf f 36 ∈ b.roles ∨ ∃ p ∈ b.puts, p.backup = bitOf f 36)) →
        TakesTrapOf (.rput a n) s (setRflt core 0 bid u) 0x53 bid))

/-- R391, R393: an accepted rput opens its bucket, whose length, format, thinning and roles it fixes; or joins it, where it agrees with
them; one that differs leaves the bucket as it was. With all 256 buckets of
the die held and none of them its own it waits at the instruction. `u` is the state after the descriptor is read, `v` after the stores drained. -/
def rputsJoinTheirBucket : Prop :=
  ∀ (s u v : State) (a : BitVec 5) (n : BitVec 1) (w : List Word), let core := s.cur.core; let d := dieOf core
    (s.rg a).toNat % 64 = 0 → Descriptor s u (s.rg a) 8 w → u.cur = s.cur →
    let f := nth w 5 0; let bid := fieldOf f 15 0; let ring := fieldOf f 35 32; let tk := fieldOf f 44 40
    let nch := fieldOf f 27 16 + 1; let fmt := fieldOf f 37 37; let bk := bitOf f 39; let part := u.partOf core
    (∀ x ∈ w.take 3, x.toNat % 64 = 0) → fieldOf f 31 28 = 0 → bitOf f 38 = false → fieldOf f 63 45 = 0 → nth w 6 0 = 0 →
    nth w 7 0 = 0 → (tk ≠ 0 → nth w 2 0 ≠ 0) → ringOn (u.ringOf d part ring) = true →
    (u.bucketOf d part ring bid = none → 256 ≤ (u.dieAt d).buckets.length → exec (.rput a n) s = .next s) ∧
    (Drained u v → v.cur = s.cur → v.task.stepping = false →
    (u.bucketOf d part ring bid = none → (u.dieAt d).buckets.length < 256 →
      GoesOn (.rput a n) s v fun t => SameMemory v t ∧ OtherCoresSame core v t ∧ ∃ b p,
        (t.dieAt d).buckets = (v.dieAt d).buckets ++ [b] ∧ b.named part ring bid = true ∧ b.nch = nch ∧ b.fmt = fmt ∧ b.tk = tk ∧
        b.bk = bk ∧ b.deadline = (nth w 4 0).toNat ∧ b.core = core ∧ b.puts = [p] ∧ FreshPut w n v p ∧ b.roles = [] ∧
        b.taken = none ∧ b.sent = [] ∧ b.finals = [] ∧ b.written = false ∧
        (t.coreAt core).rputs = (v.coreAt core).rputs ++ [p.id]) ∧
    (∀ b x, u.bucketOf d part ring bid = some b → bitOf f 36 ∉ b.roles → (∀ p ∈ b.puts, p.backup ≠ bitOf f 36) →
      v.bucketOf d part ring bid = some x →
      (b.nch = nch ∧ b.fmt = fmt ∧ b.tk = tk ∧ b.bk = bk →
        GoesOn (.rput a n) s v fun t => SameMemory v t ∧ OtherCoresSame core v t ∧ ∃ p, FreshPut w n v p ∧
          t.bucketOf d part ring bid = some { x with puts := x.puts ++ [p] }) ∧
      (¬ (b.nch = nch ∧ b.fmt = fmt ∧ b.tk = tk ∧ b.bk = bk) → v.coreOfTask v.task.tid = some core →
        GoesOn (.rput a n) s v fun t => SameMemory v t ∧ (t.dieAt d).buckets = (v.dieAt d).buckets ∧
          (t.coreAt core).rflt = BitVec.ofNat 64 (256 * bid))))

/-- R394: rcfg writes or clears the entry of the issuing partition on the issuing die and answers 0; an entry that holds a bucket stays
as it is, and rcfg answers 1; a reserved bit, a position beyond the ring or a next position that does not fit take 0x01, a device to which no path is valid 0x47. -/
def rcfgWritesTheEntry : Prop :=
  ∀ (s : State) (a c : BitVec 5) (r : BitVec 4), let w := s.rg a; let d := dieOf s.cur.core; let part := s.partOf s.cur.core
    let here := ringDevice w = s.device ∧ ringDie w = d
    (fieldOf w 62 42 ≠ 0 ∨ ringCount w ≤ ringPos w → TakesTrap (.rcfg a c r) s s 0x01 0) ∧
    (fieldOf w 62 42 = 0 → ringPos w < ringCount w →
      (¬ (here ↔ ringCount w = 1) → TakesTrap (.rcfg a c r) s s 0x01 0) ∧
      ((here ↔ ringCount w = 1) → ringDevice w ≠ s.device → s.noRoute (ringDevice w) = true →
        TakesTrap (.rcfg a c r) s s 0x47 0) ∧
      ((here ↔ ringCount w = 1) → (ringDevice w ≠ s.device → s.noRoute (ringDevice w) = false) → s.task.stepping = false →
        ((∃ b ∈ (s.dieAt d).buckets, b.part = part ∧ b.ring = r.toNat) →
          GoesOnWith (.rcfg a c r) s s c 1 fun t => ComputeFrame s t) ∧
        ((∀ b ∈ (s.dieAt d).buckets, ¬ (b.part = part ∧ b.ring = r.toNat)) →
          GoesOnWith (.rcfg a c r) s s c 0 fun t => SameMemory s t ∧ OtherCoresSame s.cur.core s t ∧
            (ringOn w = true → t.ringOf d part r.toNat = w) ∧
            (ringOn w = false → ((s.dieAt d).rings.map (·.1)).Nodup → t.ringOf d part r.toNat = 0) ∧
            (∀ q, q ≠ 16 * part + r.toNat → tabFind (t.dieAt d).rings q = tabFind (s.dieAt d).rings q))))

/-- R395: rstat describes a bucket of the issuing die, and writes 0 for one not held; rstat.sum writes the number of buckets held. -/
def rstatsDescribe : Prop :=
  ∀ (s : State) (a c : BitVec 5) (r : BitVec 4), s.task.stepping = false → let d := dieOf s.cur.core
    (fieldOf (s.rg a) 63 16 ≠ 0 → TakesTrap (.rstat a c r) s s 0x01 0) ∧
    (fieldOf (s.rg a) 63 16 = 0 → let held := s.bucketOf d (s.partOf s.cur.core) r.toNat (fieldOf (s.rg a) 15 0)
      (held = none → GoesOnWith (.rstat a c r) s s c 0 fun t => ComputeFrame s t) ∧
      (∀ b, held = some b → ∃ v, GoesOnWith (.rstat a c r) s s c v (fun t => ComputeFrame s t) ∧
        fieldOf v 1 0 = (if b.written = true then 3 else if b.taken.isSome then 2 else 1) ∧
        bitOf v 2 = b.seen.contains false ∧ bitOf v 3 = b.seen.contains true ∧
        bitOf v 4 = (match b.taken with | some p => p.backup | none => false) ∧ fieldOf v 16 5 = min b.sent.length 4095 ∧
        bitOf v 17 = b.rescaledHere ∧ bitOf v 18 = b.deadlineMissed ∧ fieldOf v 63 19 = 0)) ∧
    GoesOnWith (.rstatSum c) s s c (BitVec.ofNat 64 (s.dieAt d).buckets.length) fun t => ComputeFrame s t

/-- R391 to R395: the reduce instructions.
Corners of rcfg are in log 49, that the first rput fixes the deadline in log 50: the model's readings. -/
def Obligations.ReduceInstructionsAct : Prop :=
  rputsAreChecked ∧ rputsJoinTheirBucket ∧ rcfgWritesTheEntry ∧ rstatsDescribe

/-- R385: a chunk of scale 255, or with its NaN flag set, or a sum that is no number, gives a NaN chunk, and so do
values that fit under no scale up to 254; else the scale rises by the
least that lets every value fit, every code is the sum rounded once under the new scale, and a rise sets rescaled. -/
def chunksAreSummedExactly : Prop :=
  ∀ (inc : Option Chunk) (agreed : Nat) (g : List Nat) (bad : Bool),
    let base : Chunk := inc.getD { codes := List.replicate 32 0, scale := agreed }
    let mine := g.map fun x => fp32.decode false x
    let t := match inc with
      | none => mine
      | some c => (List.range 32).map fun k => ((c.value k).add false (nth mine k (Machine.Num.zero false))).1
    let out := (reduceChunk inc agreed g bad).1; let rose := (reduceChunk inc agreed g bad).2
    (base.scale = 255 ∨ base.nan = true ∨ (∃ x ∈ t, x.isNan = true ∨ x.isInf = true) →
      out.nan = true ∧ out.scale = 255 ∧ out.codes = List.replicate 32 0x7F ∧ rose = false) ∧
    (out.nan = true → base.scale = 255 ∨ base.nan = true ∨ (∃ x ∈ t, x.isNan = true ∨ x.isInf = true) ∨
      ∀ e, base.scale ≤ e → e ≤ 254 → ∃ x ∈ t, fitsE4m3 x e = false) ∧
    (out.nan = false → base.scale ≤ out.scale ∧ (∀ x ∈ t, fitsE4m3 x out.scale = true) ∧
      (∀ e, base.scale ≤ e → e < out.scale → ∃ x ∈ t, fitsE4m3 x e = false) ∧ rose = decide (base.scale < out.scale) ∧
      out.rescaled = (base.rescaled || rose) ∧ out.poisoned = (base.poisoned || bad) ∧
      out.codes = t.map fun x => presentCode x out.scale)

/-- The contribution that the engine reads next is `p` of bucket `b`: of those that R188 lets it read the one accepted first. -/
def PutNext (d : Nat) (b : Bucket) (p : ReducePut) (s : State) : Prop :=
  ((((s.dieAt d).buckets ++ (s.dieAt d).strays).flatMap fun b => b.puts.map fun p => (b, p)).filter fun x =>
      !x.2.arrived && (match s.rputHolder x.2.id with | some k => k.inOrder x.2.id | none => true)).foldl firstPut none = some (b, p)

/-- R390, R393: the engine reads a contribution chunk by chunk; after the last chunk a primary before any deadline is taken at once; a
fault completes the rput, and the bucket no longer holds it; without a deadline a fault of the primary lets the backup that has
arrived be taken (log 71). `x` is the bucket after the read. -/
def contributionsArrive : Prop :=
  ∀ (s u : State) (d : Nat) (b x : Bucket) (p : ReducePut), PutNext d b p s → u.bucketOf d b.part b.ring b.bid = some x →
    (u.dieAt d).bucketOfPut p.id = some x →
    let of (t : State) := t.bucketOf d b.part b.ring b.bid
    (∀ q, readChunk d b p s = .ok (.ok q) u →
      (q.pos < b.nch → Happens (.rputArrival d) s fun t => SameMemory u t ∧ CoresSame u t ∧
        of t = some { x with puts := x.puts.map fun y => if y.id = q.id then q else y }) ∧
      (b.nch ≤ q.pos → q.backup = false → x.deadline = 0 → x.writing = none → x.taken = none → x.partials = [] →
        ringPos (u.ringOf d b.part b.ring) ≠ 0 → Happens (.rputArrival d) s fun t => SameMemory u t ∧
          ∃ y z, of t = some y ∧ y.taken = some z ∧ z.id = q.id ∧ z.values = q.values ∧ z.arrived = true ∧
            y.roles = x.roles ++ [false] ∧ y.seen = x.seen ++ [false] ∧ ∀ c k, tabFind t.cores c = some k → q.id ∉ k.rputs)) ∧
    (∀ c ea, readChunk d b p s = .ok (.error (c, ea)) u → x.written = false →
      let left := x.puts.filter fun y => y.id ≠ p.id
      let waiting := left.find? fun y => y.arrived && y.backup
      (x.taken ≠ none ∨ x.deadline ≠ 0 ∨ waiting = none ∨ false ∈ x.seen ∨ p.backup = true ∧ false ∉ x.roles →
        Happens (.rputArrival d) s fun t => SameMemory u t ∧
          of t = some { x with puts := left, roles := x.roles ++ [p.backup] }) ∧
      (∀ y, x.taken = none → x.deadline = 0 → waiting = some y → false ∉ x.seen → p.backup = false ∨ false ∈ x.roles →
        x.partials = [] → ringPos (u.ringOf d b.part b.ring) ≠ 0 → Happens (.rputArrival d) s fun t => SameMemory u t ∧
          of t = some { x with puts := left, roles := x.roles ++ [p.backup], taken := some y }))

/-- R390: the deadline of a bucket passes with nothing taken: the backup that has arrived is taken and counted, and with none the
passing is noted, with sr.rflt of the core that opened the bucket. -/
def deadlinesPass : Prop :=
  ∀ (s : State) (d ix : Nat) (b : Bucket), (s.dieAt d).buckets[ix]? = some b → s.bucketOf d b.part b.ring b.bid = some b →
    b.deadline ≠ 0 → b.taken = none → b.deadlineMissed = false → b.deadline < s.now + Config.elapsed s.tick →
    (∀ p, b.puts.find? (fun p => p.arrived && p.backup) = some p → b.partials = [] →
      ringPos (s.ringOf d b.part b.ring) ≠ 0 → Happens (.reduceDeadline d ix) s fun t => SameMemory s t ∧
        t.bucketOf d b.part b.ring b.bid = some { b with taken := some p } ∧
        (t.dieAt d).redstat = bumpField (s.dieAt d).redstat 31 16 1) ∧
    (b.puts.find? (fun p => p.arrived && p.backup) = none → Happens (.reduceDeadline d ix) s fun t => SameMemory s t ∧
      t.bucketOf d b.part b.ring b.bid = some { b with deadlineMissed := true } ∧
      (t.coreAt b.core).rflt = BitVec.ofNat 64 (0x2B + 256 * b.bid))

/-- A chunk packet has gone on towards the position it names (R383): the chunks that stand before the dies of this device take it, or the
egress port of the path to another device that it takes, of those that are up the one with the fewest bytes queued (R286); while that
device is down it waits (R398). `rest` are the chunks that stood before the dies. -/
def ChunkSent (s t : State) (rest : List ChunkPacket) (q : ChunkPacket) : Prop :=
  (q.device = s.device → t.chunks = rest ++ [q]) ∧
  (q.device ≠ s.device → t.chunks = rest ∧
    (s.deviceDown q.device = true → t.chunksOut = s.chunksOut ++ [{ q with path := 0 }]) ∧
    (s.deviceDown q.device = false → ∀ k, s.bestPath q.device = some k → let port := s.pathPort q.device k
      tabGet t.chunkPorts port [] = tabGet s.chunkPorts port [] ++ [{ q with path := k }]))

/-- R383: the one chunk that stands before a die with no complete bucket is received: a partial of a bucket with a contribution goes
on, summed, to the next position; one of a bucket with none waits; a final chunk is kept to be written, and passed on unless the
next position is the last. -/
def chunksAreReceived : Prop :=
  ∀ (s : State) (d : Nat) (p : ChunkPacket) (b : Bucket), (s.dieAt d).buckets.find? Bucket.complete = none →
    s.bucketOf d p.part p.ring p.bid = some b → b.accepts p = true → p.device = s.device → p.die = d →
    (s.chunks.filter fun q => q.device == s.device && q.die == d &&
      (match s.bucketOf d q.part q.ring q.bid with | some b => b.accepts q | none => false)) = [p] →
    let w := s.ringOf d p.part p.ring; let of (t : State) := t.bucketOf d p.part p.ring p.bid
    (p.final = false → b.taken = none → Happens (.reduceChunkArrival d) s fun t => SameMemory s t ∧ CoresSame s t ∧
      t.chunks = s.chunks.erase p ∧ of t = some { b with partials := b.partials ++ [p] }) ∧
    (∀ put, p.final = false → b.taken = some put → ringPos w + 1 ≠ ringCount w →
      Happens (.reduceChunkArrival d) s fun t => SameMemory s t ∧ ∃ q y, ChunkSent s t (s.chunks.erase p) q ∧ q.final = false ∧
        q.device = ringDevice w ∧ q.die = ringDie w ∧ q.index = p.index ∧ q.bid = b.bid ∧
        q.chunk = (reduceChunk (some p.chunk) (nth put.scales p.index 0).toNat (nth put.values p.index [])
          (put.poison.contains p.index)).1 ∧
        q.backups = p.backups + (if put.backup then 1 else 0) ∧ of t = some y ∧ y.sent = b.sent ++ [p.index]) ∧
    (p.final = true → p.transit = false → Happens (.reduceChunkArrival d) s fun t => SameMemory s t ∧
      (∃ y, of t = some y ∧ y.finals = tabPut b.finals p.index p) ∧
      ((ringPos w + 1) % ringCount w = ringCount w - 1 → t.chunks = s.chunks.erase p) ∧
      ((ringPos w + 1) % ringCount w ≠ ringCount w - 1 →
        ChunkSent s t (s.chunks.erase p) { p with device := ringDevice w, die := ringDie w, final := true }))

/-- R389, R390: of a bucket whose final chunks are all here the result is written to its next rput that arrived, which leaves the
bucket; with none left the bucket is written. `u` is the state once the time of the result is fixed, `v` after the places are owned,
`w` after the bytes are written. -/
def resultsAreWritten : Prop :=
  ∀ (s : State) (d : Nat) (b : Bucket), (s.dieAt d).buckets.find? Bucket.complete = some b → b.writing = none →
    let time := s.now + Config.elapsed s.tick; let of (t : State) := t.bucketOf d b.part b.ring b.bid
    let u := modBucket d b.part b.ring b.bid (fun b => { b with writing := some time })
      { s with now := time, tick := s.tick + 1 }
    (b.puts.find? (·.arrived) = none → Happens (.reduceChunkArrival d) s fun t => SameMemory s t ∧ CoresSame s t ∧
      ∀ y, of t = some y → y.written = true) ∧
    (∀ p v w x places, b.puts.find? (·.arrived) = some p → b.tk = 0 →
      (∀ c ∈ b.finals, c.2.chunk.poisoned = false) → let bytes := b.header time ++ b.data
      withIssuer p.core p.tid (fun k => issuerPlaces (dieTag d 1) k p.asid p.priv
        (rangePieces p.dst bytes.length ++ rangePieces p.res 0)) u = .ok (.ok places) v →
      withIssuer p.core p.tid (fun k => sortWrite k places bytes) v = .ok () w → of w = some x → p ∈ x.puts → x.written = false →
      Happens (.reduceChunkArrival d) s fun t => SameMemory w t ∧
        of t = some { x with puts := x.puts.filter fun y => y.id ≠ p.id, roles := x.roles ++ [p.backup] })

/-- R383 to R393: the reduce engine.
The progress by chunks (log 26) and the corners of log 50 are the model's choices; the clock is free (log 4). -/
def Obligations.ReduceEngineSumsAndWrites : Prop :=
  chunksAreSummedExactly ∧ contributionsArrive ∧ deadlinesPass ∧ chunksAreReceived ∧ resultsAreWritten

/-- What taking a trap finds: the task at its place, its partition, the entry of the action table, the copies of the record. -/
structure TrapSite where
  core : Nat
  urg : Bool
  cause : Cause
  task : Task
  part : Nat
  entry : Nat
  copies : Nat

/-- The site of a cause raised against the task of a bank, whose entry is not a forward: one copy of the record where it reports. -/
def TrapSite.At (x : TrapSite) (s : State) : Prop :=
  x.task = (s.coreAt x.core).bank x.urg ∧ x.part = s.partOf x.core ∧ x.entry = (s.partAt x.part).actionOf x.cause.code ∧
    x.entry % 4 ≠ 2 ∧ x.copies = (if x.entry / 4 % 2 = 1 then 1 else 0)

/-- A trap is taken at once: its task is not pre-empted, and the die has room for the copies of its record (R84, R405). -/
def TrapSite.Room (x : TrapSite) (s : State) : Prop :=
  let d := s.dieAt (dieOf x.core)
  x.task.status ≠ .preempted ∧ d.recordsOf x.part < 64 ∧ d.roomFor x.part x.copies = true

/-- R401 to R405: a trap that finds no room for its record, or whose task is pre-empted, waits at its boundary, behind those that wait
there, and nothing else changes; one that finds room makes its record, counted in made and seqno, and a copy of it waits on the die
where the entry reports. -/
def trapsMakeTheirRecord : Prop :=
  ∀ (s : State) (x : TrapSite), x.At s → let u := takeTrap x.core x.urg x.cause s; let d := dieOf x.core
    (¬ x.Room s → SameMemory s u ∧ u.dies = s.dies ∧ u.parts = s.parts ∧ OtherCoresSame x.core s u ∧
      (u.coreAt x.core).bank x.urg = { x.task with
        status := if x.task.status = .running then .waitsRecord else x.task.status, raising := x.task.raising ++ [x.cause]
        loadNoted := [], begun := 0, begunA := 0 }) ∧
    (x.Room s → (x.entry % 4 = 0 → x.cause.code ≠ 0x24 ∧ x.cause.code ≠ 0x25) →
      SameMemory s u ∧ (u.partAt x.part).made = ((s.partAt x.part).made + 1) % 65536 ∧
      (u.partAt x.part).seqno = (s.partAt x.part).seqno + 1 ∧ (u.partAt x.part).lost = (s.partAt x.part).lost ∧
      (x.entry / 4 % 2 ≠ 1 → (u.dieAt d).records = (s.dieAt d).records) ∧
      (x.entry / 4 % 2 = 1 → ∃ r : RecordCopy,
        (u.dieAt d).records = (s.dieAt d).records ++ [r] ∧ r.part = x.part ∧ r.core = x.core ∧ r.forward = none ∧
        nth r.words 1 0 = x.task.pcOf x.cause.aSeq ∧ nth r.words 2 0 = x.cause.addr ∧ nth r.words 3 0 = x.task.g.get 29 ∧
        nth r.words 5 0 = BitVec.ofNat 64 (s.now + Config.elapsed s.tick) ∧ nth r.words 6 0 = x.cause.detail ∧
        nth r.words 7 0 = (s.partAt x.part).seqno + 1))

/-- R404: word 0 of a record holds the cause, its kind, the sequencer, the bank, the view, the partition, the core, the slot, the
action, ffail and the crew, each in its field. -/
def recordsHoldTheirFields : Prop :=
  ∀ (c : Cause) (urg priv ffail : Bool) (part core slot act crew : Nat) (pc task seqno : Word) (time : Nat), c.code < 256 →
    part < 8 → core < 2048 → slot < 8 → act < 4 → crew < 4096 →
    let w := nth (recordWords c urg priv part core slot act ffail crew pc task time seqno) 0 0
    fieldOf w 7 0 = c.code ∧ fieldOf w 9 8 = (match c.kind with | .p => 0 | .n => 1 | .a => 2 | .r => 3) ∧ bitOf w 10 = c.aSeq ∧
      bitOf w 11 = urg ∧ bitOf w 12 = priv ∧ fieldOf w 15 13 = part ∧ fieldOf w 26 16 = core ∧ fieldOf w 29 27 = slot ∧
      fieldOf w 31 30 = act ∧ bitOf w 32 = ffail ∧ fieldOf w 44 33 = crew ∧ fieldOf w 63 45 = 0

/-- R402: the action of the entry. A replay leaves the task at its PC, after the brk for cause 0x06, to wait for the open ticket of
its cause, and sends the journal entry of a refused store again; a park puts it into the lowest free slot, with all that it is held
for, and frees the bank, or holds it there until a slot is free and its vector and matrix commands are done; a kill ends it. -/
def trapsApplyTheirAction : Prop :=
  ∀ (s : State) (x : TrapSite), x.At s → let u := takeTrap x.core x.urg x.cause s
    let c := s.coreAt x.core; let k := u.coreAt x.core; let now := s.now + Config.elapsed s.tick
    let status := if x.task.status = .waitsRecord ∧ x.task.raising = [] then BankStatus.running else x.task.status
    let why (w : ParkCause) : Prop := w.why = .cause x.cause.code x.cause.kind ∧ w.addr = x.cause.addr ∧
      w.cleared = x.cause.cleared ∧ w.ticket = x.cause.ticket ∧ w.aSeq = x.cause.aSeq ∧ w.sub = x.cause.sub
    let wide := (s.frameAt x.core x.task.pc).getD false
    x.Room s →
    (∀ j y, x.entry % 4 = 0 → x.cause.code = 0x24 ∨ x.cause.code = 0x25 → x.cause.jix = some j →
      tabFind c.journal j = some y → ∃ z, tabFind k.journal j = some z ∧ z.kept = false ∧ z.data = y.data ∧
        z.ep = y.ep ∧ z.off = y.off) ∧
    (x.entry % 4 = 0 → x.cause.code ≠ 0x24 → x.cause.code ≠ 0x25 → OtherCoresSame x.core s u ∧ ∃ l,
      k.bank x.urg = { x.task with
        status := status, joined := x.task.joined ++ l, frame := { x.task.frame with recheck := x.task.frame.act }
        loadNoted := [], begun := 0, begunA := 0
        pc := if x.cause.kind = .p ∧ x.cause.code = 0x06 then x.task.pc + 4 else x.task.pc } ∧
      (x.cause.ticket = none ∨ x.cause.cleared = true → l = []) ∧
      (x.cause.ticket ≠ none → x.cause.cleared = false → ∃ w, l = [w] ∧ why w)) ∧
    (∀ i, x.entry % 4 = 1 → c.freeSlot = some i → c.vectorDone x.task.tid = true →
      OtherCoresSame x.core s u ∧ k.bank x.urg = {} ∧ ∃ p, tabFind k.parks i = some p ∧
        p.task = { x.task with
          status := .empty, heldFor := [], loadNoted := [], begun := 0, begunA := 0, wide := wide } ∧ p.v = (c.vectorsOf x.urg).v ∧ p.m = (c.vectorsOf x.urg).m ∧
        p.since = now ∧ ∃ w, p.causes = x.task.heldFor ++ [w] ∧ why w) ∧
    (x.entry % 4 = 1 → c.freeSlot = none ∨ c.vectorDone x.task.tid = false →
      OtherCoresSame x.core s u ∧ k.parks = c.parks ∧ ∃ w, why w ∧
        k.bank x.urg = { x.task with
          status := .held, heldFor := x.task.heldFor ++ [w], loadNoted := [], begun := 0, begunA := 0, wide := wide }) ∧
    (x.entry % 4 = 3 → OtherCoresSame x.core s u ∧ k.bank x.urg = {} ∧ x.task.tid ∈ u.killed)

/-- R410: trap and sys complete and then raise 0x07 and 0x08 with k in the detail, and where they are stepped leave 0x0D pending at the
boundary behind them (R406); brk raises 0x06 with k at its own PC. -/
def trapInstructionsRaise : Prop :=
  ∀ (s : State) (k : BitVec 6),
    (∀ f ∈ [ (Instr.trap k, 0x07), (Instr.sys k, 0x08) ], ∃ u, RegsSame s u ∧ u.pc = s.inSequence 4 ∧ SameMemory s u ∧ OnlyTask s u ∧
      (s.task.stepping = false → ComputeFrame s u) ∧
      (s.task.stepping = true → u.task.pending = s.task.pending ++ [{ code := 0x0D, kind := .n, aSeq := s.cur.a }]) ∧
      exec f.1 s = .next (takeTrap s.cur.core s.urgent
        { code := f.2, kind := .n, detail := k.setWidth 64, aSeq := s.cur.a } u)) ∧
    TakesTrapOf (.brk k) s s 0x06 k.toNat

/-- R84, R405: the first trap that waits at a task's boundary is taken once the die has room for every copy of its record: nothing of
it is lost. A task waits in its bank, held or for a record, or in the park slot to which it went meanwhile. -/
def waitingTrapsAreTaken : Prop :=
  ∀ (s : State) (core bank : Nat) (c : Cause) (rest : List Cause), isCore core = true → bank < 10 →
    let place := placeOfBank bank; let t := (s.coreAt core).taskAt place; let d := s.dieAt (dieOf core)
    t.raising = c :: rest → (bank < 2 → t.status = .waitsRecord ∨ t.status = .held) → t.status ≠ .preempted →
    d.recordsOf (s.partOf core) < 64 → d.roomFor (s.partOf core) 2 = true →
    Happens (.trapAction core bank) s fun u => u = takeTrapAt core place c (s.modCore core fun k => k.modTaskAt place fun t =>
      { t with raising := rest })

/-- The message of k = 8 and kind 0 in which the copy of a record leaves (R405). -/
def recordMessage (r : RecordCopy) (now : Nat) (words : List Word) (ep : BitVec 29) (cls tag j : Nat) : Packet :=
  { kind := .message (header0 r.src cls false false j tag 8 0 false) (BitVec.ofNat 64 now) words (j ≠ 0)
    ep := ep, src := r.src, core := r.core, part := r.part, cls := cls, since := now }

/-- R402, R405: the first copy of a die that may go starts as a message with the record as payload, and leaves the store: to the
endpoint, class and tag of sr.supep, once no forward of its record waits; under the capability of its core that the action names, whose
allowance it uses; or, where that is no send entry any more, to sr.supep with ffail set, in place of the report of its record. -/
def recordsAreDelivered : Prop :=
  ∀ (s : State) (die : Nat) (r : RecordCopy) (l : List RecordCopy), (s.dieAt die).records = r :: l →
    let now := s.now + Config.elapsed s.tick; let e := (s.partAt r.part).supep
    let supEp := BitVec.ofNat 29 (fieldOf e 28 0); let supCls := fieldOf e 31 29; let supTag := fieldOf e 39 32
    (r.forward = none → r.follows l = false → bitOf e 40 = true → s.recordRoom supEp supCls = true →
      Happens (.trapRecordDelivery die) s fun t => SameMemory s t ∧ CoresSame s t ∧ (t.dieAt die).records = l ∧
        StartsFrom s t die (recordMessage r now r.words supEp supCls supTag 0)) ∧
    (∀ j, r.forward = some j → j ≠ 0 → j < 16 → let w := s.cap0 r.core j
      s.sendable r.core j = true → capUsed w < capAllow w → s.recordRoom (capEp w) (capClass w) = true →
      Happens (.trapRecordDelivery die) s fun t => SameMemory s t ∧ OtherCoresSame r.core s t ∧ (t.dieAt die).records = l ∧
        (t.coreAt r.core).spm = cellsSet (s.coreAt r.core).spm (s.tableAt r.core + 16 * j)
          (bytesOf (withField w 25 19 (capUsed w + 1)) ++ bytesOf (s.cap1 r.core j)) ∧
        StartsFrom s t die (recordMessage r now r.words (capEp w) (capClass w) (fieldOf (s.cap1 r.core j) 7 0) j)) ∧
    (∀ j, r.forward = some j → s.sendable r.core j = false → bitOf e 40 = true → s.recordRoom supEp supCls = true →
      Happens (.trapRecordDelivery die) s fun t => SameMemory s t ∧ CoresSame s t ∧
        (t.dieAt die).records = l.filter (fun q => !q.follows [r]) ∧
        StartsFrom s t die (recordMessage r now ((nth r.words 0 0 ||| atBit 1 32) :: r.words.drop 1) supEp supCls supTag 0))

/-- R399 to R405, R410: taking a trap.
Waiting for room for every copy is the model's reading (log 32); the time is free (log 4). -/
def Obligations.TrapsMakeARecordAndApplyTheirAction : Prop :=
  trapsMakeTheirRecord ∧ recordsHoldTheirFields ∧ trapsApplyTheirAction ∧ trapInstructionsRaise ∧ waitingTrapsAreTaken ∧
    recordsAreDelivered

/-- The value of a register that reading does not change. -/
def regShown (s : State) (n : Nat) : Word :=
  let r : Reach := { core := s.cur.core, urg := s.urgent, priv := s.task.priv }
  if n < 0x100 then s.coreReg r n else if n < 0x200 then s.partReg r 0 n else s.deviceReg r n

/-- R411, R4: rdsr of a number that names no register takes the trap of cause 0x00, of a register all S from the unprivileged view that
of 0x02; else it writes the register, without its S fields from the unprivileged view, once what R187 and R216 await is done. -/
def rdsrReads : Prop :=
  ∀ (s : State) (a : BitVec 5) (n : BitVec 16), let k := s.coreAt s.cur.core
    (regMap n.toNat = none → TakesTrap (.rdsr a n) s s 0x00 0 ∧ TakesTrap (.wrsr a n) s s 0x00 0) ∧
    (∀ m, regMap n.toNat = some m → m.allS = true → s.task.priv = false →
      TakesTrap (.rdsr a n) s s 0x02 0 ∧ TakesTrap (.wrsr a n) s s 0x02 0) ∧
    (∀ m, regMap n.toNat = some m → m.allS = false ∨ s.task.priv = true → s.task.stepping = false →
      (n.toNat = 0x0A ∨ n.toNat = 0x0B → k.vq = [] ∧ k.mq = [] ∧ k.mret = []) →
      (n.toNat = 0x0E ∨ n.toNat = 0x0F → ∀ q ∈ k.mq, match q.instr with | .mctx .. => False | _ => True) →
      (n.toNat ≠ 0x23 → n.toNat ≠ 0x118 →
        GoesOnWith (.rdsr a n) s s a (m.readable s.task.priv (regShown s n.toNat)) fun t => ComputeFrame s t) ∧
      (n.toNat = 0x23 → let now := s.now + Config.elapsed s.tick; let u : State := { s with now := now, tick := s.tick + 1 }
        GoesOnWith (.rdsr a n) s u a (BitVec.ofNat 64 now) fun t => ComputeFrame u t) ∧
      (n.toNat = 0x118 → ∃ free, GoesOnWith (.rdsr a n) s (ticked s) a (s.tctl (s.partOf s.cur.core) free) fun t =>
        ComputeFrame (ticked s) t))

/-- R412: what some registers hold: the loop, the queues of bq and parks, the carve, the format context, the view, the action table,
the buffers of a die, the partition's coves. -/
def registersShowTheState : Prop :=
  ∀ (s : State), let k := s.coreAt s.cur.core; let t := s.task; let p := s.partAt (s.partOf s.cur.core)
    regShown s 0x00 = t.lc ∧ regShown s 0x01 = t.ls ∧ regShown s 0x02 = t.le ∧
      regShown s 0x0A = k.fpmode ∧ regShown s 0x0B = k.seed ∧ regShown s 0x1A = t.mhead ∧ regShown s 0x22 = Word.ofBool t.priv ∧
      (∀ i < 12, regShown s (0x100 + i) = nth p.act i 0) ∧ (∀ i : Fin 7, regShown s (0x13 + i) = k.hand.get i) ∧
      regShown s 0x10C = p.supep ∧ regShown s 0x120 = (s.dieAt (dieOf s.cur.core)).rbuf ∧
      (∀ i < 4, regShown s (0x201 + i) = nth (s.partAt (s.reachPart s.cur.core)).pmap i 0)

/-- R4: a write sets the RW fields that its view reaches, clears the bits of W1C fields where it holds a 1, and leaves every other
bit; a read from the unprivileged view shows the S fields as zero. -/
def fieldsFollowTheirAccess : Prop :=
  ∀ (m : RegMap) (priv : Bool) (old new : Word) (i : Nat), i < 64 → (∀ f ∈ m.rw ++ m.w1c ++ m.sup, f.2 ≤ f.1 ∧ f.1 < 64) →
    let within (l : List (Nat × Nat)) : Prop := ∃ f ∈ l, f.2 ≤ i ∧ i ≤ f.1
    let hidden := priv = false ∧ within m.sup
    (within m.rw → ¬ hidden → (m.merge priv old new).getLsbD i = new.getLsbD i) ∧
    (within m.w1c → ¬ within m.rw → ¬ hidden → (m.merge priv old new).getLsbD i = (old.getLsbD i && !new.getLsbD i)) ∧
    (hidden ∨ (¬ within m.rw ∧ ¬ within m.w1c) → (m.merge priv old new).getLsbD i = old.getLsbD i) ∧
    (m.readable priv old).getLsbD i = (old.getLsbD i &&
      (priv || decide (∀ f ∈ m.sup, ¬ (f.2 ≤ i ∧ i ≤ f.1))))

/-- R411, R67: wrsr of a register that its view reaches writes it and goes on; of sr.ls or sr.le inside a running loop it takes the
trap of cause 0x09, and of sr.lc there the write waits for the end of the body; of a device-wide register from outside the root it
changes nothing. -/
def wrsrWrites : Prop :=
  ∀ (s u : State) (a : BitVec 5) (n : BitVec 16) (m : RegMap), regMap n.toNat = some m →
    (m.allS = false ∨ s.task.priv = true) →
    (writeReg { core := s.cur.core, urg := s.urgent, priv := s.task.priv } n.toNat m (s.rg a) s = .ok () u →
      u.task.stepping = false → GoesOn (.wrsr a n) s u fun t => OnlyTask u t ∧ SameMemory u t) ∧
    (n.toNat = 0x01 ∨ n.toNat = 0x02 → s.task.lc ≠ 0 → TakesTrap (.wrsr a n) s s 0x09 0) ∧
    (s.task.stepping = false →
      (n.toNat = 0x00 → s.cur.a = false → s.task.frame.act = false → s.pc ≠ s.task.le →
        GoesOn (.wrsr a n) s s fun t => SameMemory s t ∧ (s.task.lc ≠ 0 → t.task.lc = s.task.lc ∧ t.task.lcNext = some (s.rg a)) ∧
          (s.task.lc = 0 → t.task.lc = s.rg a)) ∧
      (n.toNat = 0x0B → let k := s.coreAt s.cur.core; k.vq = [] → k.mq = [] → k.mret = [] →
        GoesOn (.wrsr a n) s s fun t => SameMemory s t ∧ OtherCoresSame s.cur.core s t ∧
          (fieldOf (s.rg a) 31 0 = 0 → (t.coreAt s.cur.core).seed = 1) ∧
          (fieldOf (s.rg a) 31 0 ≠ 0 → fieldOf (t.coreAt s.cur.core).seed 31 0 = fieldOf (s.rg a) 31 0)) ∧
      (0x200 ≤ n.toNat → s.partOf s.cur.core ≠ 0 → GoesOn (.wrsr a n) s s fun t => ComputeFrame s t))

/-- R4, R427, R435: a register is also written from the host, through the management window, and from a privileged view on its core. A
threshold lowered to a count that has been reached raises its reason. -/
def registersAreWrittenOutside : Prop :=
  (∀ (s : State) (v : BitVec 64),
    (Happens (.registerWrite true 0 0x008 v) s fun t => SameMemory s t ∧ CoresSame s t ∧
      t.host.fwaddr = v) ∧
    (Happens (.registerWrite true 0 0x010 v) s fun t => SameMemory s t ∧ CoresSame s t ∧ t.host.fwlen.toNat = fieldOf v 31 0) ∧
    (Happens (.registerWrite true 0 0x028 v) s fun t => SameMemory s t ∧ CoresSame s t ∧
      ∀ i < 8, t.host.repl.getLsbD i = (s.host.repl.getLsbD i && !v.getLsbD i)) ∧
    (Happens (.registerWrite true 0 0x030 v) s fun t => SameMemory s t ∧ CoresSame s t ∧ t.host.thr = withField v 63 56 0 ∧
      ∀ d < 4, ∀ i b, reasonOf i = some b → let n := nth (s.inHour.dieAt d).eh i 0
        thresholdOf t.host.thr b ≤ n → n < thresholdOf s.host.thr b → t.host.repl.getLsbD b = true) ∧
    (Happens (.registerWrite true 0 0x038 v) s fun t => SameMemory s t ∧ CoresSame s t ∧
      t.host.cap = fieldOf v 31 20 ∧ t.host.tlim = fieldOf v 39 32)) ∧
  (∀ (s u : State) (core n : Nat) (v : BitVec 64) (m : RegMap), isCore core = true → plainReg n = true → regMap n = some m →
    writeReg { core := core, urg := (s.coreAt core).b1.status == .running, priv := true } n m v s = .ok () u →
    Happens (.registerWrite false core n v) s fun t => t = u)

/-- R4, R410 to R412: the system registers.
The free field of sr.tctl is in log 53, who may write the registers of a die in log 54. -/
def Obligations.SystemRegistersFollowTheirMaps : Prop :=
  rdsrReads ∧ registersShowTheState ∧ fieldsFollowTheirAccess ∧ wrsrWrites ∧ registersAreWrittenOutside

/-- R77: the reasons 1 to 5 for which a launch record is refused, the lowest first; `launchReason` finds none where none holds. -/
def launchesAreChecked : Prop :=
  ∀ (s : State) (part : Nat) (w : List Word), let a := nth w 1 0; let b := nth w 2 0
    let used (k : Nat) : Bool := bitOf b (32 + k); let group (k : Nat) : Nat := fieldOf b (8 * k + 7) (8 * k)
    let size := fieldOf a 22 19 < 1 ∨ 8 < fieldOf a 22 19 ∨ fieldOf a 27 23 < 1 ∨ 25 < fieldOf a 27 23 ∨
      fieldOf a 22 19 * 32768 < 10 * fieldOf a 27 23 * 1024 + 64 * fieldOf a 47 32
    let groups := (∃ k < 4, used k = true ∧ s.ownsGroup part (group k) = false) ∨
      ∃ k < 4, ∃ j < k, used k = true ∧ used j = true ∧ group k = group j
    let dies := ∀ v < 128, bitOf (nth (s.partAt part).pmap (v / 32) 0) (v % 32) = true →
      fieldOf a 31 28 ≠ 0 ∧ fieldOf a 31 28 / 2 ^ (v / 32) % 2 = 0
    let entry := 2 ^ 56 ≤ (nth w 0 0).toNat ∨ (nth w 0 0).toNat % 4 ≠ 0
    let reserved := fieldOf a 63 48 ≠ 0 ∨ fieldOf b 63 36 ≠ 0
    (size → launchReason s part w = some 1) ∧ (¬ size → groups → launchReason s part w = some 2) ∧
      (¬ size → ¬ groups → dies → launchReason s part w = some 3) ∧
      (¬ size → ¬ groups → ¬ dies → entry → launchReason s part w = some 4) ∧
      (¬ size → ¬ groups → ¬ dies → ¬ entry → reserved → launchReason s part w = some 5) ∧
      (¬ size → ¬ groups → ¬ dies → ¬ entry → ¬ reserved → launchReason s part w = none)

/-- R77: a launch record with no status word, dependence or image that passes the checks is held by its queue behind what is there; one
that fails a check is refused and changes nothing. -/
def recordsEnterTheirQueue : Prop :=
  ∀ (s : State) (part queue : Nat) (w : List Word), nth w 5 0 = 0 →
    (∀ r, launchReason s part w = some r → enterLaunch part queue w s = .ok () s) ∧
    (launchReason s part w = none → nth w 3 0 = 0 → fieldOf (nth w 1 0) 47 32 = 0 →
      ∃ t, enterLaunch part queue w s = .ok () t ∧ SameMemory s t ∧ CoresSame s t ∧
        (t.queueAt part queue).held = (s.queueAt part queue).held ++ [{ words := w }] ∧
        ∀ q, q ≠ queue → t.queueAt part q = s.queueAt part q)

/-- R100: lnch in the unprivileged view takes the trap of cause 0x02, of a misaligned record that of 0x10, without a launch capability
that of 0x2E; else, once the queue has room, the record enters the queue of the capability's partition and lnch goes on; without room
it waits at the instruction. `u` is the state after the stores have drained, `v` after the record is read. -/
def lnchEntersItsLaunch : Prop :=
  ∀ (s u v t' : State) (a : BitVec 5) (k : BitVec 4) (q : BitVec 6) (w : List Word),
    (s.task.priv = false → TakesTrap (.lnch a k q) s s 0x02 0) ∧
    (s.task.priv = true → Drained s u → u.cur = s.cur →
      ((u.rg a).toNat % 64 ≠ 0 → TakesTrap (.lnch a k q) s u 0x10 (u.rg a)) ∧
      ((u.rg a).toNat % 64 = 0 → Descriptor u v (u.rg a) 8 w → v.cur = s.cur →
        let e := v.cap0 v.cur.core k.toNat; let part := fieldOf (v.cap1 v.cur.core k.toNat) 2 0
        (capKind e ≠ 3 ∨ bitOf e 11 = false → TakesTrap (.lnch a k q) s v 0x2E 0) ∧
        (capKind e = 3 → bitOf e 11 = true → 16 ≤ (v.queueAt part q.toNat).held.length → exec (.lnch a k q) s = .next s) ∧
        (capKind e = 3 → bitOf e 11 = true → (v.queueAt part q.toNat).held.length < 16 →
          enterLaunch part q.toNat w v = .ok () t' → t'.task.stepping = false →
          GoesOn (.lnch a k q) s t' fun t => OnlyTask t' t ∧ SameMemory t' t)))

/-- R77, R100: in the privileged view, with an empty store buffer and a launch capability, lnch of a record of the core's scratchpad
that names no status word completes: refused, it changes nothing else; with no dependence and no image, it is held by its queue. -/
def lnchCompletes : Prop :=
  ∀ (s : State) (a : BitVec 5) (k : BitVec 4) (q : BitVec 6) (w : List Word), let core := s.cur.core
    let e := s.cap0 core k.toNat; let part := fieldOf (s.cap1 core k.toNat) 2 0
    s.task.priv = true → s.task.stepping = false → (s.coreAt core).sb = [] → (s.rg a).toNat % 64 = 0 →
    LocalPayload s (s.rg a) 8 w → capKind e = 3 → bitOf e 11 = true → (s.queueAt part q.toNat).held.length < 16 →
    nth w 5 0 = 0 →
    (∀ r, launchReason s part w = some r → GoesOn (.lnch a k q) s s fun t => ComputeFrame s t) ∧
    (launchReason s part w = none → nth w 3 0 = 0 → fieldOf (nth w 1 0) 47 32 = 0 →
      GoesOn (.lnch a k q) s s fun t => SameMemory s t ∧ OtherCoresSame core s t ∧
        (t.queueAt part q.toNat).held = (s.queueAt part q.toNat).held ++ [{ words := w }])

/-- R428: a write of 64 bytes, aligned to 64, to the slot of a queue in a partition's launch window enters its data as a record; a write
of another size or alignment, one before bring-up is complete, one for a partition with no cove and one to a full queue enter nothing and
are counted as refused. A read of the slot shows the records in the queue and that count. -/
def windowsTakeRecords : Prop :=
  ∀ (s u : State) (offset size : Nat) (record : BitVec 512), let part := offset / 4096; let queue := offset % 4096 / 64
    part < 8 →
    (size ≠ 64 ∨ offset % 64 ≠ 0 ∨ s.host.boot ≠ 4 ∨ s.covesOf part = [] ∨ 16 ≤ (s.queueAt part queue).held.length →
      Happens (.launchWindowWrite offset size record) s fun t => SameMemory s t ∧ CoresSame s t ∧
        (t.queueAt part queue).refused = ((s.queueAt part queue).refused + 1) % 256 ∧
        (t.queueAt part queue).held = (s.queueAt part queue).held) ∧
    (size = 64 → offset % 64 = 0 → s.host.boot = 4 → s.covesOf part ≠ [] → (s.queueAt part queue).held.length < 16 →
      enterLaunch part queue ((List.range 8).map fun i => record.extractLsb' (64 * i) 64) s = .ok () u →
      Happens (.launchWindowWrite offset size record) s fun t => t = u) ∧
    ((s.queueAt part queue).held.length ≤ 16 → fieldOf (s.launchSlot part queue) 4 0 = (s.queueAt part queue).held.length ∧
      fieldOf (s.launchSlot part queue) 7 5 = 0 ∧ fieldOf (s.launchSlot part queue) 15 8 = (s.queueAt part queue).refused % 256 ∧
      fieldOf (s.launchSlot part queue) 63 16 = 0)

/-- R78, R79: the die's scheduler places the next block of the first partition that has one for its die: of a launch that is placing, or
of one without a status word whose first block it is, and with no image and no group. The block takes the lowest free slots of its cove
and the lowest free crew id; its queue's launch leaves with its last block. Each core holds one root record with the arguments of R79
and the capability table of R240 in a scratchpad that is otherwise zero, and the launch's carve; everything else of it that is not kept
across blocks is at its placement value. `u` is the state after the choice. That partitions are served in the order of their numbers is
the model's choice (assumption 67). -/
def blocksArePlaced : Prop :=
  ∀ (s u : State) (d part queue launch v crew id : Nat) (w : List Word) (x : Service) (started : Option Nat), d < 4 → part < 8 →
    (∀ p < part, (s.partAt p).swState ≠ 0 ∨ ∃ o, nextPlacement d p 8 s = .ok o s ∧ ∀ q l n c, o ≠ some (.new q l n c)) →
    (s.partAt part).swState = 0 → nextPlacement d part 8 s = .ok (some (.new queue w started v)) u → v / 32 = d →
    (started = some launch ∧ tabFind u.services launch = some x ∧ id = u.nextUid ∨
      started = none ∧ nth w 5 0 = 0 ∧ launch = u.nextUid ∧ x = { part := part, queue := queue, words := w } ∧
        id = u.nextUid + 1) →
    fieldOf (nth w 1 0) 47 32 = 0 → let n := fieldOf (nth w 1 0) 18 16 + 1; n ≤ (u.freeCores v).length → v < 128 →
    u.freeCrew d = some crew →
    (∀ k < 4, bitOf (nth w 2 0) (32 + k) = false) →
    Happens (.blockPlacement d) s fun t => SameMemory u t ∧ ∃ b, tabFind t.blocks id = some b ∧
      b.launch = launch ∧
      b.index = x.next ∧ b.part = part ∧ b.queue = queue ∧ b.die = v / 32 ∧ b.cores = (u.freeCores v).take n ∧
      b.originCores = b.cores ∧ b.crew = crew ∧ b.carve = fieldOf (nth w 1 0) 22 19 ∧
      b.slice = fieldOf (nth w 1 0) 27 23 ∧ b.absent = false ∧
      b.asid = fieldOf (u.queueAt part queue).cfg 14 3 ∧ b.priv = bitOf (u.queueAt part queue).cfg 15 ∧
      tabFind t.services launch = some { x with part := part, queue := queue, words := w, next := x.next + 1 } ∧
      (t.queueAt part queue).held = (match (u.queueAt part queue).held with
        | l :: r => if x.next = fieldOf (nth w 1 0) 15 0 then r else { l with started := some launch } :: r
        | [] => []) ∧
      ∀ r, r < n → let c := nth b.cores r 0; let k := t.coreAt c; ∃ j : Job,
        k = { (u.coreAt c).fresh with
          carveSize := b.carve, carveBase := b.carve, block := some (id, r), runN := [j], icacheFrom := u.stores
          spm := cellsSet [] b.table (placedTable u part queue b.carve (endpoint r crew d u.device)), gslots := k.gslots } ∧
        j = { record := j.record } ∧ j.record.src = 0 ∧ j.record.entry = nth w 0 0 ∧ j.record.argc = 4 ∧ j.record.urg = false ∧
        j.record.args = [nth w 7 0, BitVec.ofNat 64 b.index, BitVec.ofNat 64 r,
          BitVec.ofNat 64 (fieldOf (nth w 1 0) 15 0 + 1)] ∧
        j.record.crew = b.crew ∧ j.record.jhome = slotOf c ∧ j.record.ctab = BitVec.ofNat 10 (b.table / 256)

/-- R80, R77: a block whose cores hold no work ends: its cores are free, members of no group, with no operand slots, and it is gone; the
launch ends with its last block, whose end writes the status. -/
def blocksEnd : Prop :=
  ∀ (s u : State) (id : Nat) (b : Block) (x : Service), tabFind s.blocks id = some b → b.absent = false →
    (∀ c ∈ b.cores, (s.coreAt c).idle = true) → (∀ y ∈ s.ships, y.1 ∉ b.cores) → tabFind s.services b.launch = some x →
    let n := fieldOf (nth x.words 1 0) 15 0 + 1
    let gone (o t : State) : Prop := SameMemory o t ∧ ((o.blocks.map (·.1)).Nodup → tabFind t.blocks id = none) ∧
      ∀ c ∈ b.cores, (t.coreAt c).block = none ∧ (t.coreAt c).slots = [] ∧ ∀ g, (t.groupAt g).memberOf c = none
    (x.ended + 1 ≠ n → Happens (.blockEnd id) s fun t => gone s t ∧
      tabFind t.services b.launch = some { x with ended := x.ended + 1 }) ∧
    (x.ended + 1 = n → writeStatus b.part b.queue (nth x.words 5 0) 3 s = .ok () u → Happens (.blockEnd id) s fun t =>
      gone u t ∧ t.services = tabDel u.services b.launch)

/-- R76 to R80, R100: launches and blocks.
The cove through which the scheduler accesses memory (log 28) and the order among queues (log 51) are the model's readings. -/
def Obligations.LaunchesPlaceTheirBlocks : Prop :=
  launchesAreChecked ∧ recordsEnterTheirQueue ∧ lnchEntersItsLaunch ∧ lnchCompletes ∧ windowsTakeRecords ∧ blocksArePlaced ∧ blocksEnd

/-- R34, R81, R82: a task that has started from a record: at its entry, on the lowest free slice, whose top 64 bytes hold the record,
with g1 on from the arguments and g29 and g30 at the record. -/
def Started (c : Nat) (urg : Bool) (j : Job) (s t : State) : Prop :=
  let k := s.coreAt c; let b := (t.coreAt c).bank urg
  let off := (s.stackGeometry c).1 - k.freeSlice * (s.stackGeometry c).2 - 64
  b.status = .running ∧ b.pc = j.record.entry ∧ b.slice = k.freeSlice ∧ b.job.record = j.record ∧ b.lc = 0 ∧
    b.frame = {} ∧ b.a.active = false ∧ b.streams = [] ∧ b.watch = none ∧
    b.g.get 29 = BitVec.ofNat 64 (2 ^ 63 + off) ∧ b.g.get 30 = BitVec.ofNat 64 (2 ^ 63 + off) ∧
    (∀ i : Fin 8, b.g.get ⟨i + 1, by omega⟩ = nth (pad8 (j.record.args.take j.record.argc ++ j.more)) i 0) ∧
    (t.coreAt c).spm = cellsSet k.spm off j.record.bytes

/-- R86: a core with both banks free, no parked task ready and no urgent record starts the oldest normal record; with a parked task
ready it resumes the one whose cause cleared first. -/
def normalWorkStarts : Prop :=
  ∀ (s : State) (c : Nat), let k := s.coreAt c; isCore c = true → s.coreGoes c = true → k.b0.status = .empty →
    k.b1.status = .empty → k.firstReady true = none → k.runU = [] → k.inbox = [] →
    (∀ j r, k.firstReady false = none → k.runN = j :: r → j.message = none → j.shipped = none →
      Happens (.taskStart c) s fun t => SameMemory s t ∧ OtherCoresSame c s t ∧ Started c false j s t ∧
        (t.coreAt c).runN = r ∧ (t.coreAt c).b0.tid = s.nextTid ∧ t.nextTid = s.nextTid + 1) ∧
    (∀ i p, k.firstReady false = some i → tabFind k.parks i = some p → p.task.job.record.urg = false →
      (∀ z, p.task.doze = some z → z.result = none) → p.task.raising = [] → p.task.heldFor = [] →
      Happens (.taskStart c) s fun t => SameMemory s t ∧ OtherCoresSame c s t ∧
        (t.coreAt c).b0 = { p.task with
          status := .running, doze := none, frame := { p.task.frame with recheck := p.task.frame.act } } ∧
        (t.coreAt c).v = p.v ∧ (t.coreAt c).m = p.m ∧ (t.coreAt c).parks = tabDel k.parks i)

/-- R87: urgent work stops a normal task with no sheltered window open and no instruction that waits once issued, starts, and is counted; 32 such starts hold urgent starts back
until 8,192 cycles have passed and no normal work waits. -/
def urgentWorkPreempts : Prop :=
  (∀ (s : State) (c : Nat) (j : Job) (r : List Job), let k := s.coreAt c; isCore c = true → s.coreGoes c = true →
    k.b0.status = .running → k.b0.begins = false → k.b1.status = .empty → k.b0.lee = 0 → k.streak < 32 → k.firstReady true = none → k.runU = j :: r →
    k.inbox = [] → isPilot c = false → k.b0.watch = none → j.message = none → j.shipped = none →
    Happens (.urgentPreempt c) s fun t => SameMemory s t ∧ OtherCoresSame c s t ∧ Started c true j s t ∧
      (t.coreAt c).b0 = { k.b0 with status := .preempted } ∧ (t.coreAt c).runU = r ∧ (t.coreAt c).streak = k.streak + 1) ∧
  (∀ (s : State) (c : Nat), (s.coreAt c).streak = 32 → (s.coreAt c).b0.status ≠ .preempted →
    ((s.coreAt c).b0.status = .empty → (s.coreAt c).normalWaits = false) → Happens (.urgentHoldExpiry c) s fun t => SameMemory s t ∧
    OtherCoresSame c s t ∧ t.coreAt c = { s.coreAt c with streak := 0 }) ∧
  (∀ (s : State) (c : Nat), (s.coreAt c).b0.lee ≠ 0 → Happens (.leeWindowExpiry c) s fun t => SameMemory s t ∧
    OtherCoresSame c s t ∧ t.coreAt c = { s.coreAt c with b0 := { (s.coreAt c).b0 with lee := 0 } })

/-- R99: the first actor that may fire puts its record behind those of its level, with its arguments and its firing number, so that its firing is ready, and takes
its inputs' messages from the counts. -/
def actorsFire : Prop :=
  ∀ (s : State) (c e : Nat) (x : Actor) (b : Block), let k := s.coreAt c; isWork c = true →
    k.actors.find? (fun x => s.canFire c x.1 x.2) = some (e, x) → s.blockOf c = some b →
    Happens (.actorFire c) s fun t => SameMemory s t ∧ OtherCoresSame c s t ∧ ∃ j : Job,
      j.record.entry = x.entry ∧ j.record.args = x.args ++ [BitVec.ofNat 64 x.firing] ∧ j.record.crew = b.crew ∧
      j.record.src = 4 ∧ j.record.argc = 6 ∧
      (x.urg = true → (t.coreAt c).runU = k.runU ++ [j] ∧ (t.coreAt c).runN = k.runN) ∧
      (x.urg = false → (t.coreAt c).runN = k.runN ++ [j] ∧ (t.coreAt c).runU = k.runU) ∧
      (t.coreAt c).firingReady e = true ∧ ∃ y, tabFind (t.coreAt c).actors e = some y ∧ y.firing = x.firing + 1 ∧ y.ins = x.ins ∧
        ∀ i < 4, ∀ tag rate, nth x.ins i none = some (tag, rate) → nth y.counts i 0 = nth x.counts i 0 - rate

/-- R73, R74: a task whose spin count has reached 64 is counted and takes the trap of cause 0x4F, of kind N, with its count cleared;
where the action parks it, the cause of its park holds the watched line. -/
def slackWaterParks : Prop :=
  ∀ (s : State) (c : Nat), let k := s.coreAt c; s.coreGoes c = true → k.slackDue true = true ∨ k.slackDue false = true →
    let urg := k.slackDue true; let b := k.bank urg
    Happens (.slackWaterPark c) s fun t => SameMemory s t ∧ (t.coreAt c).slackCount = k.slackCount + 1 ∧
      ∀ i, (s.partAt (s.partOf c)).actionOf 0x4F = 1 → k.freeSlot = some i → k.vectorDone b.tid = true →
        (s.dieAt (dieOf c)).recordsOf (s.partOf c) < 64 → (s.dieAt (dieOf c)).roomFor (s.partOf c) 0 = true →
        ∃ p, tabFind (t.coreAt c).parks i = some p ∧ p.task.pc = b.pc ∧ p.task.g = b.g ∧ p.task.spin = {} ∧
          (∃ w, p.causes = b.heldFor ++ [w] ∧ w.why = .cause 0x4F .n ∧ w.line = b.spin.line ∧ w.cleared = false) ∧ (t.coreAt c).bank urg = {}

/-- R132: a shipped context enters the run queue of its level on its landing core, once there is room. -/
def shippedContextsArrive : Prop :=
  ∀ (s : State) (c : Nat) (x : Nat × Job), let k := s.coreAt c; s.ships.find? (fun x => x.1 == c) = some x →
    (x.2.record.urg = true → k.runU.length < 8) → (x.2.record.urg = false → k.runN.length < 24) →
    Happens (.shipContextArrival c) s fun t => SameMemory s t ∧ OtherCoresSame c s t ∧ t.ships = s.ships.erase x ∧
      t.coreAt c = (if x.2.record.urg then { k with runU := k.runU ++ [x.2] } else { k with runN := k.runN ++ [x.2] })

/-- R73, R84 to R89, R99, R132: the events of a core's scheduler.
That a resume waits for the vector engine (log 18) and the moments of expiries (log 4) are the model's readings. -/
def Obligations.CoresStartAndStopTheirTasks : Prop :=
  normalWorkStarts ∧ urgentWorkPreempts ∧ actorsFire ∧ slackWaterParks ∧ shippedContextsArrive

/-- R138 to R140, R149: a block that meets the count trigger with a frame free, before the time of a gang switch (R418), is saved once its
accepted vector and granted matrix commands are done and no instruction of it waits once issued: its cores are free, its frame's header holds
1, the old crew, the time and the parks, the contexts shipped to it go with it; with no frame free it stays, and the event is counted.
`w` is the state once the time is fixed, `u` after the stores have drained, `v` after the header is written. -/
def blocksEbb : Prop :=
  ∀ (s u v : State) (id : Nat) (b : Block), tabFind s.blocks id = some b → b.absent = false → (s.partAt b.part).swState = 0 →
    s.countTrigger b = true → let first := nth b.cores 0 0; let p := s.partAt b.part
    let frame := (List.range (fieldOf p.ebbarea 15 0)).find? fun i => !s.frames.contains (b.part, i)
    let w : State := { s with now := s.now + Config.elapsed s.tick, tick := s.tick + 1 }
    (p.switchAt = 0 ∨ w.now < p.switchAt.toNat) →
    (frame = none → b.ebbNoted = false → Happens (.ebb id) s fun t => SameMemory s t ∧ OtherCoresSame first s t ∧
      t.coreAt first = { s.coreAt first with pgstat := bumpField (s.coreAt first).pgstat 59 52 1 }) ∧
    (∀ i, frame = some i → (∀ c ∈ b.cores, w.coreStopped c = true ∧ (s.coreAt c).begun = false) →
      drainCores b.cores w = .ok () u →
      let bar := (List.range 4).foldl (fun n i => if u.holdsBarrier id b i then n + 2 ^ i else n) 0
      writeHeader (coveOf first) (p.frameAt i) [(0, 1),
        (1, BitVec.ofNat 64 (b.crew + b.part * 2 ^ 12 + b.queue * 2 ^ 15 + (b.cores.length - 1) * 2 ^ 21)),
        (2, BitVec.ofNat 64 w.now), (3, BitVec.ofNat 64 (u.blockParks b)), (4, BitVec.ofNat 64 bar), (5, 0), (6, 0), (7, 0)] u
        = .ok () v →
      Happens (.ebb id) s fun t => SameMemory v t ∧ (∀ c ∈ b.cores, (t.coreAt c).block = none ∧ (t.coreAt c).tasks = []) ∧
        t.frames = v.frames ++ [(b.part, i)] ∧ (t.ships = v.ships.filter fun x => !b.cores.contains x.1) ∧
        ∃ y, tabFind t.blocks id = some y ∧ y.absent = true ∧ y.frame = some i ∧
          y.saved = b.cores.map fun c => (v.coreAt c).asSaved)

/-- R142: an ebbed block that its partition places next is restored before any of its tasks issues: on the lowest free slots of its
cove with a new crew id, each core as it was saved but for what R142 resets, and its frame is free. -/
def blocksFlood : Prop :=
  ∀ (s u w : State) (id i v at_ crew : Nat) (b : Block), tabFind s.blocks id = some b → b.absent = true → b.gang = none →
    (s.partAt b.part).swState = 0 →
    let o : State := { s with now := s.now + Config.elapsed s.tick, tick := s.tick + 1 }
    o.coveFor b.part b.dies b.cores.length = some at_ → nextPlacement (at_ / 32) b.part 8 o = .ok (some (.flood id v)) u →
    b.frame = some i → writeHeader v ((s.partAt b.part).frameAt i) [(0, 0)] u = .ok () w → v < 128 →
    b.cores.length ≤ (w.freeCores v).length → w.freeCrew (v / 32) = some crew →
    Happens (.flood id) s fun t => SameMemory w t ∧ t.frames = w.frames.erase (b.part, i) ∧
      ∃ y, tabFind t.blocks id = some y ∧ y.absent = false ∧ y.frame = none ∧ y.cores = (w.freeCores v).take b.cores.length ∧
        y.crew = crew ∧ y.originCores = b.originCores ∧ y.originCrew = b.originCrew ∧
        ∀ r < b.cores.length, let k := t.coreAt (nth y.cores r 0); let o := nth b.saved r {}
          k.b0.pc = o.b0.pc ∧ k.b0.g = o.b0.g ∧ k.b1.g = o.b1.g ∧ k.v = o.v ∧ k.m = o.m ∧ k.spm = o.spm ∧
            k.acc0 = o.acc0 ∧ k.acc1 = o.acc1 ∧ k.fpmode = o.fpmode ∧ k.journal = o.journal ∧ k.rflt = 0 ∧ k.pgstat = 0 ∧
            (k.inbox.map fun e => (e.h0, e.h1, e.payload)) = o.inbox.map fun e => (e.h0, e.h1, e.payload)

/-- R138 to R142: ebb and flood.
The body of a frame in State and the counts of log 52 are the model's choices. -/
def Obligations.BlocksEbbAndFlood : Prop := blocksEbb ∧ blocksFlood

/-- The first coherence message from one agent to another that asks something is of this line and kind (R154, R155). -/
def CohFirst (s : State) (src dst line : Nat) (k : CohKind) (m : CohMessage) : Prop :=
  s.firstCoh src dst = some m ∧ m.line = line ∧ m.kind = k

/-- The entry of a line in its home's directory. -/
def dirEntry (s : State) (line : Nat) : Option DirEntry := tabFind (s.dieAt (homeDie (line * 128))).dir line

/-- The coherence messages of `s` once the first of a pair of agents is taken: without the acknowledgements before it. -/
def cohTaken (s : State) (m : CohMessage) (src dst : Nat) : List CohMessage :=
  (s.coh.filter fun x => !(x.src == src && x.dst == dst && x.kind == .ack)).erase m

/-- The messages of the home of a line to each agent of a list. -/
def cohSent (line : Nat) (k : CohKind) (dests : List Nat) : List CohMessage :=
  dests.map fun a => { src := homeDie (line * 128), dst := a, line := line, kind := k }

/-- A unit that a die does not hold fits into its set without another leaving it (R150). -/
def SetRoom (s : State) (d u : Nat) (sq : Bool) : Prop :=
  s.l2Line d u = none → let l : L2Line := { state := .e, slice := (s.dieAt d).placeOf u, sq := sq }
    ((s.dieAt d).setMates u l).foldl (fun n e => n + e.2.ways) l.ways ≤ 16

/-- R155: the request of an agent reaches the home of a line: with no entry the line is granted to it, E for a read and M for a write; a
shared line is granted shared, or, once no other agent shares it, owned; one that its entry has the requester own is granted again; of
a line others hold, the home sends Inv to each sharer, or a forward to the owner; behind a transaction or a recall the request waits.
Where the line's set has room in the requester's L2, that holds the line granted, and nothing else changes. -/
def requestsReachTheHome : Prop :=
  ∀ (s : State) (i line : Nat) (up : Bool) (m : CohMessage), isHbmLine line = true → i < 4 → let h := homeDie (line * 128)
    let own (f : Bool) : CohKind := if f then .rdx up else .rds
    let ev (f : Bool) : Instr := if f then .dirRdx i line up else .dirRds i line
    let left := cohTaken s m i h; let sq := m.sq || s.sqUnit line
    ∀ f, CohFirst s i h line (own f) m →
    let r : CohRequest := { agent := i, line := line, own := f, upgrade := f && up, sq := sq, asker := m.asker }
    let after (coh : List CohMessage) (P : State → Prop) : Prop := Happens (ev f) s fun t => P t ∧
      (SetRoom s i line sq → SameMemory s t ∧ CoresSame s t ∧ t.coh = coh)
    let has (t : State) (st : LineState) (d : DirState) : Prop :=
      (SetRoom s i line sq → ∃ l, t.l2Line i line = some l ∧ l.state = st) ∧ ∃ e, dirEntry t line = some e ∧ e.state = d
    (s.recallOf line = none → s.clash line sq = none →
      (dirEntry s line = none → s.setFull line = false → after left fun t => has t (if f then .m else .e) (.x i)) ∧
      (∀ e mask, dirEntry s line = some e → e.state = .s mask →
        (f = false → after left fun t => has t .s (.s (mask ||| BitVec.ofNat 5 (2 ^ i)))) ∧
        (let others := (List.range 5).filter fun a => mask.getLsbD a && a ≠ i;
          f = true → (others = [] → after left fun t => has t .m (.x i)) ∧
            (others ≠ [] → after (left ++ cohSent line .inv others) fun t =>
              ∃ e, dirEntry t line = some e ∧ e.state = .p i true up mask others))) ∧
      (∀ e, dirEntry s line = some e → e.state = .x i → after left fun t => has t (if f then .m else .e) (.x i)) ∧
      (∀ e o, dirEntry s line = some e → e.state = .x o → o ≠ i →
        after (left ++ cohSent line (if f then .fwdx i else .fwds i) [o]) fun t =>
          ∃ e, dirEntry t line = some e ∧ e.state = .p i f (f && up) (BitVec.ofNat 5 (2 ^ o)) [o])) ∧
    (∀ e, dirEntry s line = some e → (match e.state with | .p .. => True | .r .. => True | _ => False) →
      after left fun t => dirEntry t line = some { e with waiting := e.waiting ++ [r] }) ∧
    (∀ e v, (∀ x, dirEntry s line = some x → x.idle = true) → s.recallOf line = some v → homeDie (v * 128) = h →
      dirEntry s v = some e → after left fun t => dirEntry t v = some { e with waiting := e.waiting ++ [r] })

/-- R155: a WB or CE of the owner that reaches the home frees the entry and is acknowledged; of a line that is shared, or not held,
it is counted as a protocol error. -/
def evictionsReachTheHome : Prop :=
  ∀ (s : State) (i line : Nat) (m : CohMessage), isHbmLine line = true → let h := homeDie (line * 128)
    ∀ f ∈ [ (Instr.dirWb i line, CohKind.wb), (.dirCe i line, .ce) ], CohFirst s i h line f.2 m →
      (∀ e, dirEntry s line = some e → e.state = .x i → Happens f.1 s fun t => SameMemory s t ∧
        t.coh = cohTaken s m i h ++ cohSent line .ack [i] ∧ (t.dieAt h).dir = tabDel (s.dieAt h).dir line) ∧
      ((∀ e, dirEntry s line = some e → ∃ mask, e.state = .s mask) → Happens f.1 s fun t => SameMemory s t ∧
        t.coh = cohTaken s m i h ∧ (t.dieAt h).dir = (s.dieAt h).dir ∧
        nth (t.dieAt h).eh 5 0 = (if 5 < (s.dieAt h).eh.length then min (nth (s.dieAt h).eh 5 0 + 1) 255 else 0))

/-- R154, R156, R158: the eviction of a tracked line that waits for no access it was granted for and that a die holds modified sends WB, with HBM brought up to date, of one it holds
exclusive CE; of a shared one nothing is sent; the line is gone. -/
def linesAreEvicted : Prop :=
  ∀ (s : State) (d line : Nat) (l : L2Line), d < 4 → s.l2Line d line = some l → l.nc = false → isHostPa (line * 128) = false →
    line ∉ s.pinned d → s.owes line l = false → s.nextCoh d line .wb = false → s.nextCoh d line .ce = false → s.host.linkUp = true →
    let sent (k : CohKind) : List CohMessage := [{ src := d, dst := homeDie (line * 128), line := line, kind := k }]
    (l.state = .m → Happens (.dirWb d line) s fun t => SameMemory s t ∧ t.coh = s.coh ++ sent .wb ∧
      (∀ x ∈ t.stale, x.1 / 128 ∉ unitLines line l.sq) ∧ ∀ v, v ≠ line → t.l2Line d v = s.l2Line d v) ∧
    (l.state ≠ .m → Happens (.dirCe d line) s fun t => SameMemory s t ∧ t.stale = s.stale ∧
      t.coh = s.coh ++ (if l.state = .e then sent .ce else []) ∧ (t.dieAt d).l2 = tabDel (s.dieAt d).l2 line)

/-- R155, R156: an InvAck or an owner's answer that a transaction awaits is counted; the last one grants the line and ends it. A WB or
CE that crossed what it answers does the same, its sender holding no copy any more, and is acknowledged. A Gone is consumed. -/
def answersComplete : Prop :=
  ∀ (s : State) (a line : Nat) (m : CohMessage), isHbmLine line = true → let h := homeDie (line * 128); let left := cohTaken s m a h
    (CohFirst s a h line .gone m → Happens (.dirOwnerReply a line) s fun t => t = { s with coh := left }) ∧
    (∀ f ∈ [ (Instr.dirInvack a line, CohKind.invAck, false), (.dirOwnerReply a line, .ownerAck, false),
        (.dirOwnerReply a line, .ownerWb, false), (.dirWb a line, .wb, true), (.dirCe a line, .ce, true) ],
      CohFirst s a h line f.2.1 m → ∀ e i own up mask wait, dirEntry s line = some e → e.state = .p i own up mask wait →
        a ∈ wait → let coh := left ++ (if f.2.2 then cohSent line .ack [a] else [])
        let mask := if f.2.2 then mask &&& ~~~(BitVec.ofNat 5 (2 ^ a)) else mask
        (wait.erase a ≠ [] → Happens f.1 s fun t => SameMemory s t ∧ t.coh = coh ∧
          dirEntry t line = some { e with state := .p i own up mask (wait.erase a) }) ∧
        (wait.erase a = [] → e.waiting = [] → Happens f.1 s fun t =>
          dirEntry t line = some { e with state := if own then .x i else .s (mask ||| BitVec.ofNat 5 (2 ^ i)) } ∧
          (i = 4 ∨ SetRoom s i line e.sq → SameMemory s t ∧ t.coh = coh) ∧
          (i = 4 → tabFind t.hostLines line = some own) ∧
          (i ≠ 4 → SetRoom s i line e.sq → ∃ l, t.l2Line i line = some l ∧ l.state = if own then .m else .s)))

/-- R155: an owner answers a FwdS with its data, keeps a shared copy and, when it held the line modified, brings HBM up to date; it
answers a FwdX and a Recall and gives the line up; without the line it answers Gone. An Inv is answered with InvAck. A line that was
granted for an access which has not been made yet is answered for once it has (R156). -/
def ownersAnswer : Prop :=
  ∀ (s : State) (d line : Nat) (m : CohMessage), isHbmLine line = true → d < 4 → let h := homeDie (line * 128)
    let answer (k : CohKind) : List CohMessage := cohTaken s m h d ++ [{ src := d, dst := h, line := line, kind := k }]
    let clean (t : State) (l : L2Line) : Prop := ∀ x ∈ t.stale, x.1 / 128 ∉ unitLines line l.sq
    let gone (t : State) : Prop := (t.dieAt d).l2 = tabDel (s.dieAt d).l2 line
    (s.l2Line d line = none → ∀ f ∈ [ (Instr.ownerFwds d line, CohKind.fwds 0), (.ownerFwdx d line, .fwdx 0),
        (.ownerRecall d line, .recall) ], ∀ dest, CohFirst s h d line (match f.2 with
          | .fwds _ => .fwds dest | .fwdx _ => .fwdx dest | k => k) m →
      Happens f.1 s fun t => t = { s with coh := answer .gone }) ∧
    (∀ l, s.l2Line d line = some l → s.owes line l = true →
      ∀ f ∈ [Instr.ownerFwds d line, .ownerFwdx d line, .ownerRecall d line, .inv d line], exec f s = .next s) ∧
    (∀ l, s.l2Line d line = some l → s.owes line l = false →
      (∀ dest, CohFirst s h d line (.fwds dest) m → Happens (.ownerFwds d line) s fun t => SameMemory s t ∧ clean t l ∧
        t.coh = answer (if l.state = .m then .ownerWb else .ownerAck) ∧ t.l2Line d line = some { l with state := .s }) ∧
      (∀ dest, CohFirst s h d line (.fwdx dest) m → Happens (.ownerFwdx d line) s fun t => SameMemory s t ∧ gone t ∧
        t.coh = answer .ownerAck ∧ t.stale = s.stale) ∧
      (CohFirst s h d line .recall m → Happens (.ownerRecall d line) s fun t => SameMemory s t ∧ gone t ∧ clean t l ∧
        t.coh = answer (if l.state = .m then .ownerWb else .ownerAck))) ∧
    (s.lineOwed d line = false → CohFirst s h d line .inv m → Happens (.inv d line) s fun t => SameMemory s t ∧ gone t ∧ t.coh = answer .invAck)

/-- R157: a recall that takes longer than 20,000 ns is counted in sr.l2stat, once, and 0x1D is reported while sls is clear. -/
def slowRecallsAreCounted : Prop :=
  ∀ (s : State) (line since : Nat) (e : DirEntry) (wait : List Nat), isHbmLine line = true → dirEntry s line = some e →
    e.state = .r wait since false → since + 20000 < s.now + Config.elapsed s.tick →
    Happens (.recallSlow line) s fun t => SameMemory s t ∧ CoresSame s t ∧
      dirEntry t line = some { e with state := .r wait since true } ∧
      let h := homeDie (line * 128)
      fieldOf (t.dieAt h).l2stat 39 32 = (fieldOf (s.dieAt h).l2stat 39 32 + 1) % 256 ∧ bitOf (t.dieAt h).l2stat 61 = true

/-- R154, R160, R430: the host, as agent 4, asks through the committed HDM decoder for a line of device HBM, or for the square sector that holds it; its snoop of a host line
leaves the dies shared copies, and an invalidation none. -/
def hostAsksAndSnoops : Prop :=
  (∀ (s : State) (line : Nat) (ex : Bool), let u := s.cohUnit line; let h := homeDie (line * 128)
    isHbmLine line = true → s.host.linkUp = true → s.host.hdm = true → (∀ m ∈ s.coh, m.src ≠ 4 ∨ m.line ≠ u) →
    (∀ x ∈ (s.dieAt h).dir, ∀ r ∈ x.2.waiting, r.agent ≠ 4 ∨ r.line ≠ u) →
    (∀ e, tabFind (s.dieAt h).dir u = some e → ∀ own up mask w, e.state ≠ .p 4 own up mask w) →
    let asks (k : CohKind) : Prop := Happens (.hostMemRequest line ex) s fun t =>
      t = { s with coh := s.coh ++ [{ src := 4, dst := h, line := u, kind := k }] }
    (tabFind s.hostLines u = none → asks (if ex then .rdx false else .rds)) ∧
    (tabFind s.hostLines u = some false → ex = true → asks (.rdx true))) ∧
  (∀ (s : State) (line : Nat) (shared : Bool), isHostPa (line * 128) = true → s.host.linkUp = true →
    Happens (.cxlCacheInvalidation line shared) s fun t => t.names = s.names ∧ t.groups = s.groups ∧ ∀ d < 4,
      (∀ u ∈ hostUnits line s d,
        (shared = true → ∃ x, t.l2Line d u = some x ∧ x.state = .s) ∧
        (shared = false → ((s.dieAt d).l2.map (·.1)).Pairwise (· < ·) → t.l2Line d u = none)) ∧
      ∀ u, u ∉ hostUnits line s d → t.l2Line d u = s.l2Line d u)

/-- R154 to R160: coherence.
When a line is evicted is the schedule's (log 8), what the host wrote is free (log 27). -/
def Obligations.DirectoryKeepsItsTable : Prop :=
  requestsReachTheHome ∧ evictionsReachTheHome ∧ linesAreEvicted ∧ answersComplete ∧ ownersAnswer ∧ slowRecallsAreCounted ∧
    hostAsksAndSnoops

/-- The flight at an index of a die's ring, which may leave it: nothing before it on its loop holds it, its stop takes it, and what was
forwarded before it has arrived (R246, R273, R274). -/
def FlightReady (s : State) (d ix : Nat) (f : Flight) : Prop := s.flightFree d ix = true ∧ (s.dieAt d).ring[ix]? = some f

/-- The state once the flight has left its ring. -/
def offRing (d ix : Nat) (s : State) : State := s.modDie d fun x => { x with ring := x.ring.eraseIdx ix }

/-- The answer to a packet starts from a stop of die `d`, on its way to the packet's sender (R254, R265). -/
def Answers (u t : State) (d : Nat) (p : Packet) (k : PacketKind) (stop : Nat) : Prop :=
  StartsFrom u t d { p.reply (p.senderHome u) k with stop := stop, since := u.now }

/-- R242 to R246: a message whose core has room enters its inbox, where it waits for recv, or is claimed for its class's handler whose
record enters the run queue of its level; with no room it waits at the stop, which sets iovf; behind an earlier one of its source that
waits at a stop, it waits there too, or, where that stop is another die's, on its loop. That of an absent block enters the saved inbox. -/
def messagesEnterTheInbox : Prop :=
  ∀ (s : State) (d ix : Nat) (f : Flight) (h0 h1 : Word) (pl : List Word), FlightReady s d ix f →
    f.packet.kind = .message h0 h1 pl true → f.packet.tide = none → fieldOf h0 51 50 = 0 →
    let u := offRing d ix s; let cls := fieldOf h0 31 29
    let shown (e : InboxEntry) : Prop := e.h0 = h0 ∧ e.h1 = h1 ∧ e.payload = pl ∧ e.credit = true
    (∀ c, s.target d f.packet = .core c → let k := s.coreAt c
      let ofSource (g : Flight) : Prop := g.packet.ep = f.packet.ep ∧ g.packet.src = f.packet.src
      let here := tabGet (s.dieAt d).spill (stopOf c) []; let behindHere := ∃ g ∈ here, ofSource g
      let behind := f.packet.home = none ∧ ∃ x ∈ s.dies, ∃ q ∈ x.2.spill, ∃ g ∈ q.2, ofSource g
      (k.inboxRoom f.packet.cls = true → ¬ behind → k.actors = [] →
        (cls = 7 ∨ nth k.hand.toList cls 0 &&& 0x00FFFFFFFFFFFFFC#64 = 0 ∨ k.mask.getLsbD cls = true) →
        (∀ x ∈ k.inbox, x.claimed = false ∨ x.queued = true) →
        Happens (.messageArrival d ix) s fun t => SameMemory u t ∧ OtherCoresSame c u t ∧
          (t.dieAt d).ring = (u.dieAt d).ring ∧ ∃ e, shown e ∧ e.claimed = false ∧ e.id = k.inboxNext ∧
            (t.coreAt c).inbox = k.inbox ++ [e]) ∧
      (k.inboxRoom f.packet.cls = true → ¬ behind → k.actors = [] → cls < 7 → k.mask.getLsbD cls = false →
        nth k.hand.toList cls 0 &&& 0x00FFFFFFFFFFFFFC#64 ≠ 0 → (∀ x ∈ k.inbox, x.claimed = false ∨ x.queued = true) →
        (∀ x ∈ k.inbox, x.id ≠ k.inboxNext) → bitOf h0 32 = false → k.runN.length < 24 →
        Happens (.messageArrival d ix) s fun t => SameMemory u t ∧ OtherCoresSame c u t ∧ ∃ e j, shown e ∧ e.claimed = true ∧
          e.queued = true ∧ (t.coreAt c).inbox = k.inbox ++ [e] ∧ (t.coreAt c).runN = k.runN ++ [j] ∧
          j.record.entry = nth k.hand.toList cls 0 &&& 0x00FFFFFFFFFFFFFC#64 ∧ j.record.args = pl.take 6 ∧ j.more = pl.drop 6 ∧
          j.record.src = 1 ∧ j.record.argc = 6 ∧ j.message = some e.id) ∧
      (k.inboxRoom f.packet.cls = false ∨ behind → ¬ behind ∨ behindHere →
        Happens (.messageArrival d ix) s fun t => SameMemory u t ∧ (t.coreAt c).inbox = k.inbox ∧
          (t.coreAt c).iovf = (k.iovf || !k.inboxRoom f.packet.cls) ∧ tabGet (t.dieAt d).spill (stopOf c) [] = here ++ [f]) ∧
      (behind → ¬ behindHere → exec (.messageArrival d ix) s = .next s)) ∧
    (∀ b r y k, s.target d f.packet = .saved b r → tabFind s.blocks b = some y → y.saved[r]? = some k →
      k.inboxRoom f.packet.cls = true → s.behindSpilled f.packet = false → k.actors = [] →
      Happens (.messageArrival d ix) s fun t => SameMemory u t ∧ CoresSame u t ∧ ∃ z x e, tabFind t.blocks b = some z ∧
        z.saved[r]? = some x ∧ shown e ∧ x.inbox = k.inbox ++ [e])

/-- R246: a message whose endpoint names no live block returns to its sender as a bounce with the original header; a bounce gives the
credit back, enters the inbox as class 7 and raises its cause against the sending task. -/
def packetsBounce : Prop :=
  ∀ (s : State) (d ix : Nat) (f : Flight), FlightReady s d ix f → let u := offRing d ix s; let p := f.packet
    (∀ h0 h1 pl, p.kind = .message h0 h1 pl true → p.notice = none → p.token = none → p.tide = none → s.target d p = .gone →
      epDevice p.ep = s.device →
      let h := withField h0 51 50 2
      Happens (.bounce d ix) s fun t => SameMemory u t ∧ CoresSame u t ∧ fieldOf h 51 50 = 2 ∧ fieldOf h 49 0 = fieldOf h0 49 0 ∧
        fieldOf h 63 52 = fieldOf h0 63 52 ∧ Answers u t d p (.bounceBack h h1 pl 0x29 0 true none) unitStop) ∧
    (∀ h0 h1 pl code detail c, p.kind = .bounceBack h0 h1 pl code detail true none → p.tide = none → s.flagLate p = false →
      s.target d p = .core c → s.killed.contains p.tid = false → (s.coreAt c).inboxRoom 7 = true → fieldOf h0 51 50 = 2 →
      code = 0 ∨ s.coreOfTask p.tid = some c → let j := fieldOf h0 37 34; let w := s.cap0 c j
      Happens (.messageArrival d ix) s fun t => SameMemory u t ∧ OtherCoresSame c u t ∧
        (t.coreAt c).inbox.map (fun (e : InboxEntry) => (e.h0, e.payload)) =
          (s.coreAt c).inbox.map (fun (e : InboxEntry) => (e.h0, e.payload)) ++ [(h0, pl)] ∧
        (code ≠ 0 → ∀ x ∈ (t.coreAt c).tasks, x.tid = p.tid → ∃ y ∈ x.pending, y.code = code) ∧
        (capKind w = 1 → capUsed w ≠ 0 → (t.coreAt c).spm = cellsSet (s.coreAt c).spm (s.tableAt c + 16 * j)
          (bytesOf (withField w 25 19 (capUsed w - 1)))))

/-- R265: a target accepts the sectors of a range up to the first that it refuses; `n` bytes of which it refuses none, up to 256, it
accepts whole. -/
def sectorsAreAccepted : Prop :=
  ∀ (k : Core) (table off n : Nat), n ≤ 256 →
    (refusalOf k table off n = 0 → acceptedBytes k table off n 10 = (n, 0)) ∧
    (n ≠ 0 → let m := min n (32 - off % 32)
      (refusalOf k table off m ≠ 0 → acceptedBytes k table off n 10 = (0, refusalOf k table off m)) ∧
      (∀ x, refusalOf k table off m = 0 → acceptedBytes k table (off + m) (n - m) 9 = x →
        acceptedBytes k table off n 10 = (m + x.1, x.2)))

/-- R252 to R254, R265: a posted store that its target's checks pass writes its bytes, or replaces its nibbles, and is acknowledged; a
store beyond the carve is refused with 0x25, one into a capability table or a poisoned word with 0x24, and writes nothing. Of a put the
sectors before the first refused one are written, of a get they are returned. -/
def postedStoresArePerformed : Prop :=
  ∀ (s : State) (d ix : Nat) (f : Flight) (c : Nat), FlightReady s d ix f → f.packet.tide = none → s.target d f.packet = .core c →
    let u := offRing d ix s; let p := f.packet; let k := s.coreAt c; let table := s.tableAt c
    (∀ j off n data, p.kind = .pst j off n data →
      (k.spmSize < off + n → refusalOf k table off n = 0x25) ∧
      (off + n ≤ k.spmSize → (off < table + 256 ∧ table < off + n) ∨ k.spmBad off n = true → refusalOf k table off n = 0x24) ∧
      (refusalOf k table off n ≠ 0 → Happens (.postedStoreArrival d ix) s fun t => SameMemory u t ∧ CoresSame u t ∧
        Answers u t d p (.refusal j (refusalOf k table off n)) (stopOf c)) ∧
      (refusalOf k table off n = 0 → Happens (.postedStoreArrival d ix) s fun t => SameMemory u t ∧ OtherCoresSame c u t ∧
        (t.coreAt c).spm = cellsSet k.spm off ((bytesOf data).take n) ∧ Answers u t d p (.ack j) (stopOf c))) ∧
    (∀ j off n data, p.kind = .pst4 j off n data → let w := off / 16 * 8
      (refusalOf k table w 8 ≠ 0 → Happens (.nibbleStoreArrival d ix) s fun t => SameMemory u t ∧ CoresSame u t ∧
        Answers u t d p (.refusal j (refusalOf k table w 8)) (stopOf c)) ∧
      (refusalOf k table w 8 = 0 → Happens (.nibbleStoreArrival d ix) s fun t => SameMemory u t ∧ OtherCoresSame c u t ∧
        (t.coreAt c).spm = cellsSet k.spm w (bytesOfNat 8 (putNibbles (natOfBytes (cellsGet k.spm w 8)) (off % 16) data.toNat n)) ∧
        Answers u t d p (.ack j) (stopOf c))) ∧
    (∀ id off bytes poison stop, p.kind = .put id off bytes poison stop → let n := acceptedBytes k table off bytes.length 10
      Happens (.postedStoreArrival d ix) s fun t => SameMemory u t ∧ OtherCoresSame c u t ∧
        (t.coreAt c).spm = cellsSet k.spm off (bytes.take n.1) ∧
        (∀ w, w ∈ (t.coreAt c).spmPoison ↔ (w ∈ poison ∧ 8 * w < off + n.1) ∨
          (w ∈ k.spmPoison ∧ ¬ (off ≤ 8 * w ∧ 8 * w + 8 ≤ off + n.1))) ∧
        Answers u t d p (.putAck id n.1 (if n.2 = 0 then 0 else 5) n.2 (off + n.1)) (stopOf c)) ∧
    (∀ id off len, p.kind = .getRequest id off len → let n := acceptedBytes k table off len 10
      Happens (.cgetRequest d ix) s fun t => SameMemory u t ∧ CoresSame u t ∧
        let data : PacketKind := .getData id (cellsGet k.spm off n.1) [] (if n.2 = 0 then 0 else 5) n.2 (off + n.1)
        StartsFrom u t d { p.reply (p.senderHome u) data with cls := p.cls, stop := stopOf c, since := u.now })

/-- R253: `n` nibbles written from nibble `i` of a word: nibble i + x becomes nibble x of the data, every other one stays. -/
def nibblesAreReplaced : Prop :=
  ∀ (w i data n y : Nat), putNibbles w i data n / 16 ^ y % 16 =
    (if i ≤ y ∧ y < i + n then data / 16 ^ (y - i) % 16 else w / 16 ^ y % 16)

/-- R241, R254: a credit takes one from its send entry's used count, but one that tells a selector of a freed token (log 48), with which
that replica's pending count falls; an acknowledgement frees the journal entry that it names, if that
is still held, and a refusal keeps it; an entry not acknowledged within sr.acktmo is kept and reported. -/
def answersReachTheSender : Prop :=
  (∀ (s : State) (d ix c : Nat) (f : Flight), FlightReady s d ix f → s.target d f.packet = .core c →
    let u := offRing d ix s; let k := s.coreAt c
    (∀ j n q, f.packet.kind = .credit j → f.packet.token = some (n, q) → Happens (.creditArrival d ix) s fun t => SameMemory u t ∧
      CoresSame u t ∧ ∀ x, tabFind s.names n = some x → ∃ y, tabFind t.names n = some y ∧
        (tabGet y.replicas q {}).pending = (tabGet x.replicas q {}).pending - 1) ∧
    (∀ j, f.packet.kind = .credit j → f.packet.token = none → let w := s.cap0 c j; Happens (.creditArrival d ix) s fun t => SameMemory u t ∧
      OtherCoresSame c u t ∧ (t.coreAt c).spm = (if capKind w = 1 ∧ capUsed w ≠ 0 then
        cellsSet k.spm (s.tableAt c + 16 * j) (bytesOf (withField w 25 19 (capUsed w - 1))) else k.spm)) ∧
    (∀ j, f.packet.kind = .ack j → Happens (.journalAck d ix) s fun t => SameMemory u t ∧ OtherCoresSame c u t ∧
      (t.coreAt c).journal = (match k.entryOf j with | some (i, _) => tabDel k.journal i | none => k.journal)) ∧
    (∀ j code i x, f.packet.kind = .refusal j code → k.entryOf j = some (i, x) →
      Happens (.journalRefusal d ix) s fun t => SameMemory u t ∧
        tabFind (t.coreAt c).journal i = some { x with kept := true, answered := true })) ∧
  (∀ (s : State) (c ix : Nat) (x : JournalEntry), tabFind (s.coreAt c).journal ix = some x → x.late = false → x.kept = false →
    let lim := fieldOf (s.partAt (s.partOf c)).acktmo 31 0
    lim ≠ 0 → x.since + lim * 1000 < s.now + Config.elapsed s.tick → Happens (.ackTimeout c ix) s fun t => SameMemory s t ∧
      OtherCoresSame c s t ∧ tabFind (t.coreAt c).journal ix = some { x with late := true, kept := true })

/-- R246, R274: the first spilled message of a stop that finds room enters its inbox and leaves the spill store; one whose block has
gone, or has moved to another die, leaves it as well. -/
def spilledMessagesEnter : Prop :=
  ∀ (s : State) (d stop : Nat) (f : Flight) (r : List Flight), tabGet (s.dieAt d).spill stop [] = f :: r →
    (∀ c h0 h1 pl, f.packet.kind = .message h0 h1 pl true → f.packet.tide = none →
      s.target d f.packet = .core c → (s.coreAt c).inboxRoom f.packet.cls = true → (s.coreAt c).actors = [] →
      Happens (.spillRetry d stop) s fun t => SameMemory s t ∧ OtherCoresSame c s t ∧
        tabGet (t.dieAt d).spill stop [] = r ∧ ∃ e : InboxEntry, e.h0 = h0 ∧ e.h1 = h1 ∧ e.payload = pl ∧ e.credit = true ∧
          (t.coreAt c).inbox.map (fun (x : InboxEntry) => (x.id, x.h0, x.payload)) =
            (s.coreAt c).inbox.map (fun (x : InboxEntry) => (x.id, x.h0, x.payload)) ++ [(e.id, e.h0, e.payload)]) ∧
    ((s.target d f.packet = .gone ∨ ∃ e, s.target d f.packet = .moved e) → Happens (.spillRetry d stop) s fun t =>
      SameMemory s t ∧ tabGet (t.dieAt d).spill stop [] = r)

/-- R241 to R254, R274: the arrivals of the message class.
The conventions of arrival are in log 30, which packets are stamped in log 31. -/
def Obligations.PacketsActWhereTheyArrive : Prop :=
  messagesEnterTheInbox ∧ packetsBounce ∧ sectorsAreAccepted ∧ postedStoresArePerformed ∧ nibblesAreReplaced ∧ answersReachTheSender ∧
    spilledMessagesEnter

/-- A cause of kind R is counted by a partition; where its entry reports and the die has room, a record of that cause waits on the
die (R402, R404, R405). -/
def Reported (part d code : Nat) (s t : State) : Prop :=
  (t.partAt part).seqno = (s.partAt part).seqno + 1 ∧
    ((s.partAt part).actionOf code / 4 % 2 = 1 → (s.dieAt d).roomFor part 1 = true →
      ∃ r, (t.dieAt d).records = (s.dieAt d).records ++ [r] ∧ r.part = part ∧ fieldOf (nth r.words 0 0) 7 0 = code)

/-- R275, R277, R279: what arrives next on a link is its first packet that is no credit or acknowledgement and that the link does not
hold back, or any credit or acknowledgement, for these keep no order; which of several is free. With none of either nothing happens. An
unstamped packet enters the ring of the die, at the stop of the link's port. -/
def linksChoose : Prop :=
  ∀ (s : State) (i j : Nat), let q := tabGet s.links (portKey i j) []; let l := s.linkChoices i j q
    (l = [] → exec (.linlosArrival i j) s = .next s) ∧
    (∀ k p, q[k]? = some p → p.isFree = true → k ∈ l) ∧
    (l ≠ [] → (∀ k ∈ l, ∀ p, q[k]? = some p → p.stamp = none) → Happens (.linlosArrival i j) s fun t =>
      SameMemory s t ∧ CoresSame s t ∧ ∃ k ∈ l, ∃ p, q[k]? = some p ∧ tabGet t.links (portKey i j) [] = q.eraseIdx k ∧
        let x := { p with stop := linkStop j i }
        (t.dieAt j).ring = (s.dieAt j).ring ++ [{ loop := s.loopFor j x, packet := x }])

/-- R277, R279, R280, R283: the first packet of a link arrives, where the link holds no credit or acknowledgement: an unstamped one enters
the ring; a deliverable one too, and D, M and the unacknowledged count follow; one that is not yet deliverable waits in its share of the
pool, and on the link while the share is full, where an unstamped one behind it passes; one outside the window is held and reported with
0x40; one of a stale epoch is counted, reported with 0x42 and returned to its sender. -/
def packetsCrossLinlos : Prop :=
  ∀ (s : State) (i j : Nat) (p : Packet) (r : List Packet), tabGet s.links (portKey i j) [] = p :: r →
    (∀ q ∈ p :: r, q.isFree = false) → let at_ (q : Packet) : Packet := { q with stop := linkStop j i }
    let ringOf (q : Packet) : List Flight := (s.dieAt j).ring ++ [{ loop := s.loopFor j q, packet := q }]
    let c := s.causalAt j p.part; let share := 512 / max s.liveParts 1; let used := (s.dieAt j).poolUsed p.part i
    (p.stamp = none → Happens (.linlosArrival i j) s fun t => SameMemory s t ∧ CoresSame s t ∧
      tabGet t.links (portKey i j) [] = r ∧ (t.dieAt j).ring = ringOf (at_ p)) ∧
    (∀ st, p.stamp = some st → st.epoch = c.epoch → let ahead := (nth st.cnt (pairIndex i j) 0 + 4096 - nth c.d i 0) % 4096
      (ahead < 2048 → s.deliverable i j p = true → tabGet s.ports (portKey i j) [] = [] →
        (∀ e ∈ (s.dieAt j).pool, e.2.part ≠ p.part) →
        Happens (.linlosArrival i j) s fun t => SameMemory s t ∧ CoresSame s t ∧ tabGet t.links (portKey i j) [] = r ∧
          (t.dieAt j).ring = ringOf { at_ p with stamp := none } ∧ (t.causalAt j p.part).d = bumpNth c.d i 1 4096 ∧
          (∀ k < 12, nth (t.causalAt j p.part).m k 0 = stampMax (nth c.m k 0) (nth st.cnt k 0)) ∧
          tabGet t.unacked (p.part * 16 + portKey i j) 0 = tabGet s.unacked (p.part * 16 + portKey i j) 0 - 1) ∧
      (ahead < 2048 → s.deliverable i j p = false → used < share →
        Happens (.linlosArrival i j) s fun t => SameMemory s t ∧ CoresSame s t ∧ tabGet t.links (portKey i j) [] = r ∧
          (t.dieAt j).ring = (s.dieAt j).ring ∧ t.causalAt j p.part = c ∧
          (t.dieAt j).pool = (s.dieAt j).pool ++ [(i, { p with since := s.now })]) ∧
      (s.deliverable i j p = false → share ≤ used →
        ((∀ q ∈ r, q.stamp ≠ none ∧ q.part = p.part) → exec (.linlosArrival i j) s = .next s) ∧
        (∀ q r', r = q :: r' → q.stamp = none → Happens (.linlosArrival i j) s fun t => SameMemory s t ∧
          CoresSame s t ∧ tabGet t.links (portKey i j) [] = p :: r' ∧ (t.dieAt j).ring = ringOf (at_ q))) ∧
      (2048 ≤ ahead → used < share → Happens (.linlosArrival i j) s fun t => SameMemory s t ∧ CoresSame s t ∧
        tabGet t.links (portKey i j) [] = r ∧ (t.dieAt j).ring = (s.dieAt j).ring ∧ t.causalAt j p.part = c ∧
        (t.dieAt j).pool = (s.dieAt j).pool ++ [(i, { p with stamp := none, since := s.now })] ∧
        (t.dieAt j).lnkcnt = bumpField (s.dieAt j).lnkcnt 39 32 1 ∧ Reported p.part j 0x40 s t)) ∧
    (∀ st h0 h1 pl, p.stamp = some st → st.epoch ≠ c.epoch → p.kind = .message h0 h1 pl true → p.notice = none →
      p.token = none → p.tide = none → epDevice p.src = s.device → Happens (.linlosArrival i j) s fun t => SameMemory s t ∧
        (t.dieAt j).pool = (s.dieAt j).pool ∧ (t.causalAt j p.part).d = c.d ∧
        StartsFrom s t j { p.reply (p.senderHome s) (.bounceBack (withField h0 51 50 2) h1 pl 0 0 true none) with since := t.now } ∧
        (t.dieAt j).lnkcnt = bumpField (s.dieAt j).lnkcnt 31 16 1 ∧ Reported p.part j 0x42 s t)

/-- R277: a packet is deliverable exactly when it is the next of its pair and no count of another source to this die runs ahead of
what has been delivered. -/
def deliverableAsStated : Prop :=
  ∀ (s : State) (i j : Nat) (p : Packet) (st : Stamp), p.stamp = some st → let c := s.causalAt j p.part
    (s.deliverable i j p = true ↔ nth st.cnt (pairIndex i j) 0 = (nth c.d i 0 + 1) % 4096 ∧
      ∀ a < 4, a ≠ i → a ≠ j → (nth c.d a 0 + 4096 - nth st.cnt (pairIndex a j) 0) % 4096 < 2048)

/-- R275, R285: a failed flit is replayed, and its failures are counted, up to the first and 16 replays; nothing else changes. After
those the link retrains: counted on its dies and reported with 0x48 (where its own count raises no replacement reason too). That a
failure is of the flit that failed before, or of another, is free (log 70). A count falls in the hour of the retrain (R427). -/
def linksReplayAndRetrain : Prop :=
  ∀ (s : State) (link : Nat), link < 23 → let n := tabGet s.replays link 0
    (n < 17 → Happens (.flitCrcFail link) s fun t => ∃ m, (m = 1 ∨ m = n + 1) ∧
      t = { s with tick := s.tick + 1, replays := tabPut s.replays link m }) ∧
    (n = 17 → exec (.flitCrcFail link) s = .next s ∧
      Happens (.linkRetrain link) s fun t => SameMemory s t ∧ CoresSame s t ∧ t.replays = tabDel s.replays link ∧
        (s.host.repl.getLsbD 4 = true → let v := { s with now := s.now + Config.elapsed s.tick }.inHour
          (∀ d ∈ linkDies link, (s.dieAt d).eh.length = 6 → nth (t.dieAt d).eh 3 0 = min (nth (v.dieAt d).eh 3 0 + 1) 255) ∧
          (∀ d r, linkDies link = d :: r → Reported 0 d 0x48 s t))) ∧
    (n ≠ 17 → exec (.linkRetrain link) s = .next s)

/-- R281, R284: a packet pooled longer than sr.tpage is reported once and stays; a die out of agreement sets its tsl bit. -/
def holdsAndTimeAreReported : Prop :=
  (∀ (s : State) (die n : Nat) (e : Nat × Packet), (s.dieAt die).pool[n]? = some e → e.2.paged = false →
    let lim := fieldOf (s.partAt e.2.part).tpage 31 0
    lim ≠ 0 → e.2.since + lim * 1000 < s.now + Config.elapsed s.tick → Happens (.tidePoolHoldExpiry die n) s fun t =>
      SameMemory s t ∧ CoresSame s t ∧ (t.dieAt die).pool = (s.dieAt die).pool.set n (e.1, { e.2 with paged := true }) ∧
      (t.dieAt die).lnkcnt = bumpField (s.dieAt die).lnkcnt 47 40 1 ∧ Reported e.2.part die 0x41 s t) ∧
  (∀ (s : State) (die : Nat), die < 4 → Happens (.timeSyncLoss die) s fun t => SameMemory s t ∧ CoresSame s t ∧
    t.tsl = s.tsl ||| BitVec.ofNat 4 (2 ^ die) ∧ Reported 0 die 0x49 s t)

/-- R282: setting a fence bit takes effect at once, clearing one only while the selected partition is quiesced; nothing leaves a port
that a fence or a quiesce holds; a quiesce holds no packet on its way between two other devices. -/
def fencesHoldTraffic : Prop :=
  (∀ (s : State) (mask : BitVec 4), Happens (.lnkctlFence mask) s fun t => SameMemory s t ∧ CoresSame s t ∧
    t.fence = if (s.partAt s.lnkSel).quiesce = true then mask else s.fence ||| mask) ∧
  (∀ (s : State) (i j n : Nat), s.fenced i j = true ∨ (∀ p ∈ tabGet s.ports (portKey i j) [], (s.partAt p.part).quiesce = true ∧
      (epDevice p.src = s.device ∨ epDevice p.ep = s.device ∨ p.home.isSome = true)) → pumpPort i j n s = s)

/-- R283: the steps of a resync: quiesce holds or releases a partition; drain leaves none of its packets pooled on, or at a port of, a live die; clear
zeroes M and D on every die once drained, and else sets err; epadv advances the epoch on every die once cleared, and else sets err. -/
def resyncRestoresDelivery : Prop :=
  ∀ (s : State) (part : Nat), part < 8 →
    (∀ v, Happens (.lnkctlQuiesce part v) s fun t => SameMemory s t ∧ CoresSame s t ∧ t.lnkSel = part ∧
      (t.partAt part).quiesce = v) ∧
    (Happens (.lnkctlDrain part) s fun t => SameMemory s t ∧ t.lnkSel = part ∧ (t.partAt part).drained = true ∧
      ∀ d < 4, s.fence.getLsbD d = false → (∀ e ∈ (t.dieAt d).pool, e.2.part ≠ part) ∧
        ∀ j < 4, ∀ p ∈ tabGet t.ports (portKey d j) [], p.part ≠ part) ∧
    (s.drained part = false → exec (.lnkctlClear part) s = .next { s with lnkSel := part, lnkErr := true }) ∧
    (s.drained part = true → Happens (.lnkctlClear part) s fun t => SameMemory s t ∧ CoresSame s t ∧
      (t.partAt part).cleared = true ∧
      ∀ d < 4, t.causalAt d part = { ({} : Causal) with epoch := (s.causalAt d part).epoch }) ∧
    ((s.partAt part).cleared = false → exec (.lnkctlEpadv part) s = .next { s with lnkSel := part, lnkErr := true }) ∧
    ((s.partAt part).cleared = true → Happens (.lnkctlEpadv part) s fun t => SameMemory s t ∧ CoresSame s t ∧
      ∀ d < 4, t.causalAt d part = { s.causalAt d part with epoch := ((s.causalAt d part).epoch + 1) % 16 })

/-- R275 to R284: packets cross Linlos in causal order, fences hold them, a resync restores delivery.
Which packets are stamped (log 31), the drained bit (log 56), the fields of 0x4A (log 46) and the numbers of links (log 44) are the model's readings. -/
def Obligations.LinlosDeliversInCausalOrder : Prop :=
  linksChoose ∧ packetsCrossLinlos ∧ deliverableAsStated ∧ linksReplayAndRetrain ∧ holdsAndTimeAreReported ∧ fencesHoldTraffic ∧
    resyncRestoresDelivery

/-- R286: a packet at a tide port enters the die of the port, at the port's stop, whether it is for this device or goes on along its path;
with no valid path 0x47 is reported, and a message returns to its sender. -/
def portsForwardPackets : Prop :=
  ∀ (s : State) (port : Nat) (p : Packet) (r : List Packet) (i : TideInfo), port < 16 → tabGet s.tideIn port [] = p :: r →
    p.tide = some i → let die := port / 4; let dev := epDevice p.ep; let base := { p with tide := none }
    let enters (q : Packet) : Prop := Happens (.tideTransit port) s fun t => SameMemory s t ∧ CoresSame s t ∧
      tabGet t.tideIn port [] = r ∧ (t.dieAt die).ring = (s.dieAt die).ring ++ [{ loop := s.loopFor die q, packet := q }]
    (dev = s.device → enters { p with stop := tideStop port, tide := some { i with seq := s.nextUid } }) ∧
    (dev ≠ s.device → s.pathValid dev i.path = true →
      enters { p with stop := tideStop port, tide := some { i with device := dev, seq := s.nextUid } }) ∧
    (∀ h0 h1 pl, dev ≠ s.device → s.pathValid dev i.path = false → p.kind = .message h0 h1 pl true → p.notice = none →
      p.token = none → epDevice p.src = s.device ∨ (s.bestPath (epDevice p.src)).isSome = true →
      Happens (.tideTransit port) s fun t => SameMemory s t ∧ Reported 0 die 0x47 s t ∧ StartsFrom s t die
        { base.reply (base.senderHome s) (.bounceBack (withField h0 51 50 2) h1 pl 0 0 true none) with since := t.now })

/-- R276, R278, R286: a message whose way goes on leaves the ring: to the tide port of its path, unless its device is down; or to the port
of the next die, and with nothing before it there, no fence and no quiesce, on its link, stamped with the counts of its partition, in
which it is counted, or unstamped where it came over a tide link. -/
def messagesGoOn : Prop :=
  ∀ (s : State) (d ix : Nat) (f : Flight) (h0 h1 : Word) (pl : List Word) (c : Bool), FlightReady s d ix f →
    f.packet.kind = .message h0 h1 pl c → let p := f.packet
    (∀ n, s.target d p = .port n → p.notice.isSome = true ∨ (s.peerAt (epDevice p.ep)).down = false →
      Happens (.messageArrival d ix) s fun t => SameMemory s t ∧ CoresSame s t ∧
        (t.dieAt d).ring = (s.dieAt d).ring.eraseIdx ix ∧ tabGet t.tideOut n [] = tabGet s.tideOut n [] ++ [p]) ∧
    (∀ e, s.target d p = .away e → tabGet s.ports (portKey d e) [] = [] → s.fenced d e = false → s.quiets p = false →
      let linked (x : Packet) (P : State → Prop) : Prop := Happens (.messageArrival d ix) s fun t => SameMemory s t ∧ CoresSame s t ∧
        (t.dieAt d).ring = (s.dieAt d).ring.eraseIdx ix ∧ tabGet t.links (portKey d e) [] = tabGet s.links (portKey d e) [] ++ [x] ∧ P t
      (p.tide.isSome = true → epDevice p.src ≠ s.device → linked { p with stamp := none } fun _ => True) ∧
      (p.tide = none ∨ epDevice p.src = s.device → let u := p.part * 16 + portKey d e; tabGet s.unacked u 0 < 2047 →
        let k := s.causalAt d p.part; let m := bumpNth k.m (pairIndex d e) 1 4096
        linked { p with stamp := some { cnt := m, epoch := k.epoch } } fun t =>
          (t.causalAt d p.part).m = m ∧ tabGet t.unacked u 0 = tabGet s.unacked u 0 + 1))

/-- R286, R287: a path goes down and is reported once; the first path up again to a device whose every path was down, or a peer that
acknowledges again, zeroes the counts. -/
def pathsGoDownAndUp : Prop :=
  ∀ (s : State) (peer path : Nat), path < 4 → let x := s.peerAt peer
    (s.pathValid peer path = true → nth x.up path true = true → path < x.up.length →
      Happens (.pathDown peer path) s fun t => SameMemory s t ∧ CoresSame s t ∧ nth (t.peerAt peer).up path true = false ∧
        Reported 0 (s.pathPort peer path / 4) 0x46 s t) ∧
    (s.pathValid peer path = true → bitOf s.tidecfg (12 + s.pathPort peer path) = true → nth x.up path true = false →
      (∀ q ∈ s.stranded, q.2.stays = true ∧ epDevice q.2.ep ≠ peer) →
      Happens (.pathUp peer path) s fun t => SameMemory s t ∧ CoresSame s t ∧ nth (t.peerAt peer).up path true = true ∧
        ((∀ k < 4, s.pathUp peer k = false) → x.down = false →
          (t.peerAt peer).sent = [0, 0, 0, 0] ∧ (t.peerAt peer).got = [0, 0, 0, 0] ∧ (t.peerAt peer).acked = [0, 0, 0, 0])) ∧
    (x.down = true → s.pathUp peer path = true → Happens (.peerUp peer) s fun t => SameMemory s t ∧ CoresSame s t ∧
      (t.peerAt peer).down = false ∧ (t.peerAt peer).up = x.up ∧
      (t.peerAt peer).sent = [0, 0, 0, 0] ∧ (t.peerAt peer).got = [0, 0, 0, 0] ∧ (t.peerAt peer).acked = [0, 0, 0, 0])

/-- R255, R287, R289: a device whose every valid path is down, or that has acknowledged nothing for sr.acktmo of the root, is down: every
journal entry to it becomes kept; no message or store for it stays at a port; an ordered message to it that it has not acknowledged
returns to its sender. -/
def peersGoDown : Prop :=
  ∀ (s : State) (peer : Nat), let x := s.peerAt peer
    peer ≠ s.device → x.down = false → s.noRoute peer = false → (∀ k < 4, s.pathUp peer k = false) ∨
      (x.sent ≠ x.acked ∧ let lim := fieldOf (s.partAt 0).acktmo 31 0
        lim ≠ 0 ∧ x.ackedAt + lim * 1000 < s.now + Config.elapsed s.tick) →
    Happens (.peerDown peer) s fun t => SameMemory s t ∧ (t.peerAt peer).down = true ∧ (t.peerAt peer).flags = [] ∧
      (∀ c j y, tabFind (s.coreAt c).journal j = some y → tabFind (t.coreAt c).journal j =
        some (if epDevice y.ep = peer then { y with kept := true, answered := true } else y)) ∧
      (∀ n, ∀ q ∈ tabGet t.tideOut n [], epDevice q.ep = peer → q.home = none → q.stays = true) ∧
      (∀ p ∈ x.flags, ∀ h0 h1 pl, p.kind = .message h0 h1 pl true → p.notice = none → p.token = none → epDevice p.src = s.device →
        epDevice p.ep = peer → let y := t.dieAt (dieOf p.core)
        ∃ q : Packet, q.kind = .bounceBack (withField h0 51 50 2) h1 pl 0 0 true none ∧ q.ep = p.src ∧ q.tid = p.tid ∧
          (q ∈ y.ring.map (·.packet) ∨ q ∈ y.quiet))

/-- R288: an ordered packet is held until, on every path, got has reached its counts; then it is performed, and counted. -/
def orderedPacketsWait : Prop :=
  (∀ (s : State) (p : Packet) (i : TideInfo) (cs : List Nat), p.tide = some i → i.ordered = some cs →
    (s.countsMet p = true ↔ ∀ k < 4, (nth (s.peerAt i.device).got k 0 + 65536 - nth cs k 0) % 65536 < 32768)) ∧
  (∀ (s : State) (d ix c : Nat) (f : Flight), FlightReady s d ix f → epDevice f.packet.ep = s.device →
    s.countsMet f.packet = false → s.target d f.packet = .core c →
    Happens (.orderedFlagArrival d ix) s fun t => SameMemory s t ∧ CoresSame s t ∧
      (t.dieAt d).flags = (s.dieAt d).flags ++ [f.packet] ∧ (t.dieAt d).ring = (s.dieAt d).ring.eraseIdx ix) ∧
  (∀ (s : State) (d c : Nat) (p : Packet) (r : List Packet) (i : TideInfo) (h0 h1 : Word) (pl : List Word),
    (s.dieAt d).flags = p :: r → s.countsMet p = true → s.target d p = .core c → p.kind = .message h0 h1 pl true →
    p.tide = some i → p.home = none → epDevice p.ep = s.device → (s.coreAt c).inboxRoom p.cls = true →
    Happens (.orderedFlagRelease d) s fun t => SameMemory s t ∧ OtherCoresSame c s t ∧ (t.dieAt d).flags = r ∧
      (t.coreAt c).inbox.length = (s.coreAt c).inbox.length + 1 ∧
      (t.peerAt i.device).got = bumpNth (s.peerAt i.device).got i.path 1 65536)

/-- R285 to R288: the tide links carry packets between devices.
The bytes by which paths are compared are the model's reading (log 12); when paths and devices go down is in log 60. -/
def Obligations.TidesCarryPackets : Prop :=
  portsForwardPackets ∧ messagesGoOn ∧ pathsGoDownAndUp ∧ peersGoDown ∧ orderedPacketsWait

/-- R406: sr.tsel takes a core of the partition and a place below 10; a place of 10 to 15 leaves it as it was, and so does a write
that names no core of the partition. -/
def tselSelects : Prop :=
  ∀ (s : State) (core : Nat) (value : BitVec 64), isCore core = true → s.partOf core < 8 → let c := fieldOf value 10 0
    (isCore c = true → s.partOf c = s.partOf core → fieldOf value 14 11 < 10 →
      exec (.tselWrite core value) s =
        .next (s.modPart (s.partOf core) fun p => { p with tsel := value &&& 0x7FFF#64 })) ∧
    (isCore c = false ∨ s.partOf c ≠ s.partOf core ∨ 10 ≤ fieldOf value 14 11 →
      exec (.tselWrite core value) s = .next s)

/-- R406, R403: resume and step clear the causes of a task parked with a pending cause, which goes on from its saved PC; skip also moves
that PC past its instruction, 8 bytes for FRAME and 4 for any other (of a page that no entry maps any more, by what stood there as the
task parked); kill ends the task of states 2 to 6; halt parks a running or pre-empted task as halted, with no record, or
holds it until it can park, and one whose instruction waits once issued after that (R16); icache empties the instruction cache in any state; an operation in another state only sets terr. -/
def tctlActs : Prop :=
  ∀ (s : State) (core c place : Nat), isCore core = true → let part := s.partOf core
    part < 8 → (s.partAt part).selected = (c, place) → let k := s.coreAt c; let st := k.taskState place
    let terr : Host.Outcome State Fault Refusal := .next (s.modPart part fun p => { p with terr := true })
    let resumes (i : Instr) (step : Bool) (from_ : Parked → Word → Prop) : Prop := ∀ p, tabFind k.parks place = some p →
      Happens i s fun t => SameMemory s t ∧ OtherCoresSame c s t ∧ ∃ q, tabFind (t.coreAt c).parks place = some q ∧
        q.causes.all (·.cleared) = true ∧ q.task.stepping = step ∧ q.task.g = p.task.g ∧ from_ p q.task.pc
    (st ≠ 3 → st ≠ 5 → exec (.tctlResume core) s = terr ∧ exec (.tctlSkip core) s = terr) ∧
    (st = 3 ∨ st = 5 → resumes (.tctlResume core) false fun p pc => pc = p.task.pc) ∧
    (st = 3 ∨ st = 5 → resumes (.tctlSkip core) false fun p pc =>
      p.task.frame.act = false → (∀ x ∈ p.causes, x.aSeq = false) →
        (∀ w, s.wordAt c p.task.pc = some w → pc = p.task.pc + if isFrameWord w = true then 8 else 4) ∧
        (s.wordAt c p.task.pc = none → pc = p.task.pc + if p.task.wide = true then 8 else 4)) ∧
    (st < 3 ∨ 5 < st → exec (.tctlStep core) s = terr) ∧
    (3 ≤ st → st ≤ 5 → resumes (.tctlStep core) true fun p pc => pc = p.task.pc) ∧
    (st < 2 → exec (.tctlKill core) s = terr) ∧
    (2 ≤ st → place = 8 → Happens (.tctlKill core) s fun t => SameMemory s t ∧ OtherCoresSame c s t ∧
      t.killed = k.b0.tid :: s.killed ∧ (t.coreAt c).b0 = {}) ∧
    (∀ p, 2 ≤ st → place < 8 → tabFind k.parks place = some p → p.task.job.actor = none → k.b0.status ≠ .held →
      k.b1.status ≠ .held → Happens (.tctlKill core) s fun t => SameMemory s t ∧ OtherCoresSame c s t ∧
        t.killed = p.task.tid :: s.killed ∧ (t.coreAt c).parks = tabDel k.parks place) ∧
    (st ≠ 1 → st ≠ 2 → exec (.tctlHalt core) s = terr) ∧
    (st = 1 → (k.bank (place == 9)).begins = true → exec (.tctlHalt core) s =
      .next (s.modCore c fun k => k.modTaskAt place fun t => { t with halting := true })) ∧
    (∀ i, (st = 1 ∧ (k.bank (place == 9)).begins = false) ∨ st = 2 → k.vectorDone (k.bank (place == 9)).tid = true → k.freeSlot = some i →
      Happens (.tctlHalt core) s fun t => SameMemory s t ∧ OtherCoresSame c s t ∧ t.dies = s.dies ∧
        ∃ p, tabFind (t.coreAt c).parks i = some p ∧ p.debug = true ∧
          p.causes = (k.bank (place == 9)).heldFor ++ [{ why := .halt, since := s.now }] ∧
          p.task.pc = (k.bank (place == 9)).pc ∧ p.task.g = (k.bank (place == 9)).g) ∧
    ((st = 1 ∧ (k.bank (place == 9)).begins = false) ∨ st = 2 → k.vectorDone (k.bank (place == 9)).tid = false ∨ k.freeSlot = none →
      Happens (.tctlHalt core) s fun t => SameMemory s t ∧ OtherCoresSame c s t ∧ t.dies = s.dies ∧
        ((t.coreAt c).bank (place == 9)).status = .held ∧ (t.coreAt c).parks = k.parks) ∧
    exec (.tctlIcache core) s = .next (s.modCore c fun k => { k with icache := [], icacheBad := [], icacheFrom := s.stores })

/-- R408: the core watchdog raises 0x5E against the running task. -/
def watchdogRaises : Prop :=
  ∀ (s : State) (core : Nat), isCore core = true → fieldOf (s.partAt (s.partOf core)).cwdog 31 0 ≠ 0 →
    let urg := (s.coreAt core).b1.status == .running
    ((s.coreAt core).bank urg).status = .running → s.coreOfTask ((s.coreAt core).bank urg).tid = some core →
    Happens (.coreWatchdog core) s fun t => SameMemory s t ∧ OtherCoresSame core s t ∧
      ∃ x ∈ ((t.coreAt core).bank urg).pending, x.code = 0x5E

/-- R413: a write of sr.pmapd that takes a cove another partition holds, or gives up a busy one, changes nothing; any other takes
effect, and every cove that changes has its TLB and micro-TLBs emptied. One of sr.pasid beyond 4,095, or that overlaps another set,
changes nothing. -/
def partitionsTakeCovesAndAsids : Prop :=
  (∀ (s : State) (part die : Nat) (value : BitVec 64), part < 8 → die < 4 → die < (s.partAt part).pmap.length →
    let old := nth (s.partAt part).pmap die 0
    let taken := ∃ k < 32, bitOf value k = true ∧ bitOf old k = false ∧ ∃ p < 8, p ≠ part ∧
      bitOf (nth (s.partAt p).pmap die 0) k = true
    let busy := ∃ k < 32, bitOf old k = true ∧ bitOf value k = false ∧ s.coveFree (32 * die + k) = false
    (taken ∨ busy → exec (.pmapWrite part die value) s = .next s) ∧
    (¬ taken → ¬ busy → Happens (.pmapWrite part die value) s fun t =>
      nth (t.partAt part).pmap die 0 = value &&& 0xFFFFFFFF#64 ∧
      ∀ k < 32, bitOf value k ≠ bitOf old k → (t.coveAt (32 * die + k)).tlb = [] ∧
        ∀ c, coveOf c = 32 * die + k → (t.coreAt c).utlb = [])) ∧
  (∀ (s : State) (part : Nat) (value : BitVec 64), part < 8 → let v := value &&& 0x1FFFFFF#64
    let lo (w : Word) : Nat := fieldOf w 11 0; let hi (w : Word) : Nat := fieldOf w 11 0 + fieldOf w 24 12
    let overlaps := ∃ p < 8, p ≠ part ∧ ∃ a, lo v ≤ a ∧ a < hi v ∧ lo (s.partAt p).pasid ≤ a ∧ a < hi (s.partAt p).pasid
    (4096 < hi v ∨ overlaps → exec (.pasidWrite part value) s = .next s) ∧
    (hi v ≤ 4096 → ¬ overlaps → exec (.pasidWrite part value) s = .next (s.modPart part fun p => { p with pasid := v })))

/-- R358: sr.rcore.run starts the routing core's root task where none exists: at its entry, in the unprivileged view, with the arg field
in g1, and with entry k of the launch queue's template, its pv zero, in entry k of the table. -/
def routingCoresStart : Prop :=
  ∀ (s : State) (die : Nat), die < 4 → let c := routingCore die; let r := (s.dieAt die).rcore
    (s.routingIdle die = false → exec (.rcoreRun die) s = .next s) ∧
    (s.routingIdle die = true → (s.coreAt c).block = none → Memory.wf (s.coreAt c).spm = true →
      Happens (.rcoreRun die) s fun t => SameMemory s t ∧ OtherCoresSame c s t ∧ let k := (t.coreAt c).b0
        k.status = .running ∧ k.pc = r &&& 0x00FFFFFFFFFFFFFC#64 ∧ k.priv = false ∧
        k.g.get 1 = BitVec.ofNat 64 (fieldOf r 63 56) ∧
        ∀ j < 16, let e := s.templateEntry (s.partOf c) (fieldOf (s.dieAt die).rcq 5 0) j
          t.cap0 c j = withField e.1 30 30 0 ∧ t.cap1 c j = e.2)

/-- R358, R403, R406, R408, R413: what supervisor software does to tasks and partitions.
Corners of skip are in log 53: the model's readings. -/
def Obligations.SupervisorsSteerTasksAndPartitions : Prop :=
  tselSelects ∧ tctlActs ∧ watchdogRaises ∧ partitionsTakeCovesAndAsids ∧ routingCoresStart

/-- R415, R416: at sr.switch_at the partition begins to stop; stopped, it saves and loads: first it shows that state, then, drained, it
switches: its areas exchange, done is set, its coves' translations are emptied, its blocks are lost, or saved where sr.swout names an
area, and with no gang to load it runs on empty, or holds no gang where none is named. -/
def gangsSwitch : Prop :=
  ∀ (s u : State) (part : Nat), part < 8 → let x := s.partAt part; let now := s.now + Config.elapsed s.tick
    (x.swState ≠ 1 → x.swState ≠ 2 → x.switchAt ≠ 0 → x.switchAt.toNat ≤ now → Happens (.gangSwitch part) s fun t =>
      SameMemory s t ∧ CoresSame s t ∧ (t.partAt part).swState = 1 ∧ (t.partAt part).switchAt = 0) ∧
    (x.swState ≠ 1 → x.swState ≠ 2 → x.switchAt = 0 ∨ now < x.switchAt.toNat → exec (.gangSwitch part) s = .next s) ∧
    (x.swState = 1 → s.stopped part = true → exec (.gangSwitch part) s = .next (s.modPart part fun y => { y with swState := 2 })) ∧
    (x.swState = 1 ∨ x.swState = 2 → s.stopped part = false → exec (.gangSwitch part) s = .next s) ∧
    (x.swState = 2 → s.stopped part = true → drainCores (s.partCores part) s = .ok () u →
      let y := u.partAt part; let inn := imageArea y.swin
      let switched (t : State) : Prop := (t.partAt part).swout = y.swin ∧ (t.partAt part).swin = y.swout ∧
        (t.partAt part).swDone = true ∧ (t.partAt part).swState = (if inn.isSome then 0 else 3)
      let emptied (t : State) : Prop := (∀ v ∈ u.covesOf part, (t.coveAt v).tlb = []) ∧
        ∀ b ∈ t.blocks, b.2.part = part → b.2.gang.isSome = true
      let v := { u with now := u.now + Config.elapsed u.tick, tick := u.tick + 1 }
      (imageArea y.swout = none ∨ v.firstCove part = none → Happens (.gangSwitch part) s fun t => switched t ∧ (inn.bind u.gangIn = none → emptied t)) ∧
      (∀ a cove w, imageArea y.swout = some a → v.firstCove part = some cove →
        writeHeader cove a (imageHeader v.now (u.residentOf part).length) v = .ok () w → inn.bind w.gangIn = none →
        Happens (.gangSwitch part) s fun t => switched t ∧ emptied t ∧
          ∃ g, tabFind t.gangs a = some g ∧ g.part.acktmo = (w.partAt part).acktmo))

/-- R416: a partition that has not stopped within sr.swlim of its switch sets ovr and reports 0x5D, once. -/
def switchesOverrun : Prop :=
  ∀ (s : State) (part : Nat), part < 8 → let x := s.partAt part; let lim := fieldOf x.swlim 31 0
    x.swState = 1 → lim ≠ 0 → x.switchedAt + lim < s.now + Config.elapsed s.tick →
    (x.swNoted = false → Happens (.gangSwitchOverrun part) s fun t => SameMemory s t ∧ CoresSame s t ∧
      (t.partAt part).swOver = true ∧ (t.partAt part).swNoted = true ∧ (t.partAt part).swState = 1 ∧ Reported part 0 0x5D s t) ∧
    (x.swNoted = true → exec (.gangSwitchOverrun part) s = .next s)

/-- R415, R416: a partition switches its gang.
The two events of a switch and the saved gang in State are the model's choices (log 29). -/
def Obligations.GangsSwitchAtTheirTime : Prop := gangsSwitch ∧ switchesOverrun

/-- R135, R161, R426: link loss takes the link down; it and a host reset remove every translation of host space; the reset and the
return of the link leave it up. A loss, and a reset that finds no line in an L2, leave memory as it reads. -/
def hostLinkComesAndGoes : Prop :=
  ∀ (s : State), let noHost (t : State) : Prop := (∀ v, ∀ e ∈ (t.coveAt v).tlb, isHostPa (e.ppn * 65536) = false) ∧
      (∀ c, ∀ e ∈ (t.coreAt c).utlb, isHostPa (e.ppn * 65536) = false) ∧ t.host.pageRequests = []
    (s.host.linkUp = true → Happens .hostLinkLoss s fun t => SameMemory s t ∧ t.host.linkUp = false ∧ noHost t) ∧
    (s.host.linkUp = false → exec .hostLinkLoss s = .next s ∧ Happens .hostLinkReturn s fun t => t.host.linkUp = true) ∧
    (s.host.linkUp = true → exec .hostLinkReturn s = .next s) ∧
    Happens .hostReset s fun t => t.host.linkUp = true ∧ noHost t ∧ ((∀ d < 4, (s.dieAt d).l2 = []) → SameMemory s t)

/-- R426: a device reset loses every job, register and cached line; memory holds what HBM and the host hold; the fused leaves and the
fused floor stay. -/
def deviceResetLosesAll : Prop :=
  ∀ (s : State), Happens .deviceReset s fun t => (∀ a, (∀ x ∈ s.stale, x.1 ≠ a) → cellGet t.mem a = cellGet s.mem a) ∧
    t.cores = State.reset.cores ∧ t.coves = State.reset.coves ∧ t.dies = State.reset.dies ∧ t.parts = State.reset.parts ∧
    t.blocks = State.reset.blocks ∧ t.host.boot = State.reset.host.boot ∧ t.host.leaves = s.host.leaves ∧ t.host.floor = s.host.floor

/-- R135, R417: the host's answer to a page request that is open reaches the walk firmware's inbox, once it has room; that to a request
of a saved gang ends the ticket in its image (log 82). -/
def pageRequestsAreAnswered : Prop :=
  ∀ (s : State) (cove ticket : Nat) (success : Bool), (∀ area g, s.host.pageRequests.contains (cove, ticket) = false →
      s.gangs.find? (fun x => x.2.awaits cove ticket) = some (area, g) → tabFind s.gangs area = some g →
      Happens (.prgResponse cove ticket success) s fun t => SameMemory s t ∧ ∃ y, tabFind t.gangs area = some y ∧
        (tabGet y.coves cove {}).tickets = tabDel (tabGet g.coves cove {}).tickets ticket) ∧
    (s.host.pageRequests.contains (cove, ticket) = true →
    (tabFind (s.coveAt cove).tickets ticket).isSome = true → (s.coreAt (pilotOf cove)).inboxRoom 0 = true →
    Happens (.prgResponse cove ticket success) s fun t => SameMemory s t ∧ OtherCoresSame (pilotOf cove) s t ∧
      t.host.pageRequests = s.host.pageRequests.filter (· ≠ (cove, ticket)) ∧
      (t.coreAt (pilotOf cove)).inbox.map (·.payload) =
        (s.coreAt (pilotOf cove)).inbox.map (·.payload) ++ [pad8 [BitVec.ofNat 64 ticket, Word.ofBool success]])

/-- R430, R431: go is acted on in states 0 and 5 alone. State 1 ends with the image read into HBM, or in recovery where it could not be
read or its length is none that it may have; state 2 with a valid signature and a version not below the floor, else in recovery; state 3
with the firmware running, the HDM decoder committed and the floor raised to its version, or in recovery. That uses one identity leaf
for the certificate, with 1,024 attestation leaves, or, with none left, makes neither. Each change of state signals MSI-X vector 1. What
a header says, and whether a signature is valid, are functions of the image (log 84). -/
def bringUpEndsInRunningOrRecovery : Prop :=
  ∀ (s : State), let h := s.host; let img := s.hostImage; let left := h.leaves - 1
    let fits := h.fwlen ≠ 0 ∧ h.fwlen.toNat ≤ 64 * 2 ^ 20
    let ends (why : Nat) (P : State → Prop) : Prop :=
      Happens (.bringUpComplete why) s fun t => t.host.msix1 = h.msix1 + 1 ∧ CoresSame s t ∧ P t
    let recovers (why : Nat) : Prop := ends why fun t => t.host.boot = 5 ∧ t.host.why = why ∧ t.host.floor = h.floor ∧
      (h.boot ≠ 1 ∨ why = 1 ∨ ¬ fits → SameMemory s t)
    (h.boot = 0 ∨ h.boot = 5 → exec .firmwareGo s =
      .next { s with host := { h with boot := 1, msix1 := h.msix1 + 1 } }) ∧
    (h.boot ≠ 0 → h.boot ≠ 5 → exec .firmwareGo s = .next s) ∧
    (h.boot = 1 → fits → Config.imageLength img = h.fwlen.toNat → ends 0 fun t => t.host.boot = 2 ∧ t.host.image = img ∧
      t.host.ver = Config.imageVersion img ∧ t.mem = cellsSet s.mem (Config.imageBase % hbmEnd / 32 * 32) img) ∧
    (h.boot = 1 → recovers 1) ∧
    (h.boot = 1 → ¬ fits ∨ Config.imageLength img ≠ h.fwlen.toNat → recovers 2 ∧ exec (.bringUpComplete 0) s = .next s) ∧
    (h.boot = 2 → Config.imageValid h.image = true → h.floor.toNat ≤ h.ver.toNat → ends 0 fun t => t.host.boot = 3 ∧ SameMemory s t) ∧
    (h.boot = 2 → Config.imageValid h.image = false → recovers 3 ∧ exec (.bringUpComplete 0) s = .next s) ∧
    (h.boot = 2 → Config.imageValid h.image = true → h.ver.toNat < h.floor.toNat → recovers 4 ∧ exec (.bringUpComplete 0) s = .next s) ∧
    (h.boot = 3 → recovers 5) ∧
    (h.boot = 3 → ends 0 fun t => SameMemory s t ∧ t.host.boot = 4 ∧ t.host.floor = h.ver ∧ t.host.hdm = true ∧
      (h.leaves ≠ 0 → t.host.leaves = left ∧ t.host.idl = left ∧ t.host.bcnt = 2 ^ 20 - left ∧ t.host.atl = 1024 ∧
        (List.range 8).map (fun i => tabGet t.host.buffer (0x2044 + i) 0) = bytesOfNat 8 (2 ^ 20 - left) ∧
        (List.range 8).map (fun i => tabGet t.host.buffer (0x204C + i) 0) = bytesOf Config.serial) ∧
      (h.leaves = 0 → t.host.leaves = 0 ∧ t.host.idl = 0 ∧ t.host.atl = 0) ∧ (t.host.idl ≤ 52428 → t.host.repl.getLsbD 5 = true))

/-- R427, R431: the management window shows its registers, and the identity public key in every state. -/
def windowShowsItsRegisters : Prop :=
  ∀ (s : State), let h := s.host; let v := s.managementWord
    (h.boot < 16 → fieldOf (v 0x000) 3 0 = h.boot) ∧ (h.boot < 16 → h.why < 256 → fieldOf (v 0x000) 11 4 = h.why ∧
      fieldOf (v 0x000) 43 12 = h.ver.toNat) ∧ v 0x008 = h.fwaddr ∧ fieldOf (v 0x010) 31 0 = h.fwlen.toNat ∧
    (h.idl < 2 ^ 21 → h.atl < 2 ^ 11 → h.bcnt < 2 ^ 32 →
      fieldOf (v 0x018) 20 0 = h.idl ∧ fieldOf (v 0x018) 31 21 = h.atl ∧ fieldOf (v 0x018) 63 32 = h.bcnt) ∧
    (h.ast < 4 → fieldOf (v 0x020) 2 1 = h.ast) ∧ v 0x028 = h.repl.setWidth 64 ∧ v 0x030 = h.thr ∧
    ∀ i < 8, (BitVec.extractLsb' (8 * i) 8 (v 0x3000)) = Config.identityKey i

/-- R432, R435, R438: a go while busy changes nothing, one with no leaf left, or before the firmware runs, is refused; a report gives the
digest of the running image, the boot count, the serial number and the leaf, uses that leaf and is ready; at 51 leaves reason 6 is
raised. -/
def reportsUseTheirLeaf : Prop :=
  ∀ (s : State), let h := s.host
    let bytes (t : State) (a n : Nat) : List Byte := (List.range n).map fun i => tabGet t.host.buffer (a + i) 0
    (h.ast = 1 → exec .attestGo s = .next s) ∧
    (h.ast ≠ 1 → exec .attestGo s = .next { s with host := { h with ast := if h.atl = 0 ∨ h.boot ≠ 4 then 3 else 1 } }) ∧
    (h.ast = 1 → h.atl ≠ 0 → Happens .attestReportReady s fun t => SameMemory s t ∧ CoresSame s t ∧
      t.host.ast = 2 ∧ t.host.atl = h.atl - 1 ∧ (h.atl ≤ 52 → t.host.repl.getLsbD 6 = true) ∧
      bytes t 0x1000 32 = bytes s 0x1000 32 ∧ bytes t 0x1020 64 = (List.range 64).map (Config.imageDigest h.image) ∧
      bytes t 0x1060 8 = bytesOfNat 8 h.bcnt ∧ bytes t 0x1068 8 = bytesOf Config.serial ∧
      bytes t 0x1070 4 = bytesOfNat 4 (1024 - h.atl) ∧ bytes t 0x1074 68 = List.replicate 68 0)

/-- R427, R433, R435: a correctable error is counted, saturating, for its die in the hour it falls in, and raises its reason at the threshold; an uncorrectable
one poisons its sector, its scratchpad word or its captured word; an error of logic is counted and reported as its cause. At an hour
the counts of every die return to zero; an error at the boundary itself falls in the hour that ends (R438). -/
def errorsAreCounted : Prop :=
  ∀ (s : State), let count (i max d : Nat) (t : State) : Prop :=
      (s.dieAt d).eh.length = 6 → nth (t.dieAt d).eh i 0 = min (nth (s.inHour.dieAt d).eh i 0 + 1) max
    (∀ place a, a < hbmEnd → Happens (.memoryError 0 place a true) s fun t => SameMemory s t ∧ CoresSame s t ∧
      t.hbmBad = s.hbmBad ∧ count 0 65535 (homeDie a) t ∧
      (thresholdOf s.host.thr 0 ≤ nth (t.dieAt (homeDie a)).eh 0 0 → t.host.repl.getLsbD 0 = true)) ∧
    (∀ place a, a < hbmEnd → Happens (.memoryError 0 place a false) s fun t => SameMemory s t ∧ CoresSame s t ∧
      t.hbmBad = markPut s.hbmBad (a / 32) ∧ count 4 255 (homeDie a) t) ∧
    (∀ d a l, d < 4 → l ∈ (s.dieAt d).l2 → a / 128 ∈ unitLines l.1 l.2.sq →
      (Happens (.memoryError 1 d a true) s fun t => t.poison = s.poison ∧ SameMemory s t ∧ CoresSame s t ∧ count 1 65535 d t) ∧
      exec (.memoryError 1 d a false) s = .next { s with poison := markPut s.poison (a / 32) }) ∧
    (∀ c a, isCore c = true → a < 262144 →
      (Happens (.memoryError 2 c a true) s fun t => SameMemory s t ∧ CoresSame s t ∧ count 1 65535 (dieOf c) t) ∧
      exec (.memoryError 2 c a false) s = .next (s.modCore c fun k => { k with spmPoison := markPut k.spmPoison (a / 8) })) ∧
    (∀ c a, isCore c = true → (tabFind (s.coreAt c).icache (a / 4)).isSome = true →
      (Happens (.memoryError 3 c a true) s fun t => SameMemory s t ∧ CoresSame s t ∧ count 1 65535 (dieOf c) t) ∧
      exec (.memoryError 3 c a false) s = .next (s.modCore c fun k => { k with icacheBad := markPut k.icacheBad (a / 4) })) ∧
    (∀ c cause v, isCore c = true → cause = 0x0E ∨ cause = 0x19 ∨ cause = 0x1E → s.host.repl.getLsbD 3 = true →
      Happens (.memoryError 4 c cause v) s fun t => SameMemory s t ∧ CoresSame s t ∧ count 2 255 (dieOf c) t ∧
        Reported (s.partOf c) (dieOf c) cause s t) ∧
    (let hour := (s.now + Config.elapsed s.tick - 1) / 3600000000000;
      (s.host.hour < hour → Happens .hourBoundary s fun t => SameMemory s t ∧ CoresSame s t ∧
        t.host.hour = hour ∧ ∀ d < 4, (t.dieAt d).eh = [0, 0, 0, 0, 0, 0] ∧ (t.dieAt d).et = (s.dieAt d).et) ∧
      (hour ≤ s.host.hour → exec .hourBoundary s = .next s))

/-- R436: the device throttles while its power exceeds the cap (0 means 3,200 W) or its temperature reaches the limit, until that has been
clear for 1 ms. -/
def throttlingFollowsHeat : Prop :=
  ∀ (s : State), let h := s.host; let hot := (if h.cap = 0 then 3200 else h.cap) < h.power ∨ h.tlim ≤ h.temp
    let now := s.now + Config.elapsed s.tick
    (hot → h.throttled = false → exec .throttleStart s = .next { s with host := { h with throttled := true } }) ∧
    (¬ hot → exec .throttleStart s = .next s) ∧
    (¬ hot → h.throttled = true → h.hotAt + 1000000 ≤ now → Happens .throttleEnd s fun t => SameMemory s t ∧ CoresSame s t ∧
      t.host = { h with throttled := false }) ∧
    (hot ∨ h.throttled = false ∨ now < h.hotAt + 1000000 → exec .throttleEnd s = .next s)

/-- R135, R161, R426 to R436: the host link, bring-up, attestation and health of the device.
The outcome of a bring-up comes from the schedule (log 13); the corners of reset and health are in log 59, the message of a page answer in log 21: the model's choices. -/
def Obligations.HostAndHealthEventsAct : Prop :=
  hostLinkComesAndGoes ∧ deviceResetLosesAll ∧ pageRequestsAreAnswered ∧ bringUpEndsInRunningOrRecovery ∧ windowShowsItsRegisters ∧
    reportsUseTheirLeaf ∧ errorsAreCounted ∧ throttlingFollowsHeat

/-- The agent (core, sequencer) whose turn a step is, and the state in which it issues: the head of the schedule, or, with no schedule, the
current agent. -/
def TurnOf (s n : State) (c : Nat) (a : Bool) : Prop :=
  (s.sched = [] ∧ s.cur = { core := c, a := a } ∧ n = s) ∨
    ∃ r, s.sched = .issue c a :: r ∧ n = { s with sched := r, cur := { core := c, a := a } }

/-- An agent that may issue: an instruction of it waits once issued (R16), or no slack water is met (R73), no halt stands (R406) and no
asynchronous cause is pending (R418). -/
def Issues (n : State) (c : Nat) (a : Bool) : Prop :=
  n.mayIssue c a = true ∧ (n.task.begunOf a ≠ 0 ∨
    ((a = false → (n.coreAt c).slackDue n.urgent = false) ∧ n.task.halting = false ∧ n.task.nextPending = none))

/-- R15, R26, R27, R71: outside a frame the word at the PC, and for FRAME the next one too, is fetched and decoded, and the step is `exec`
of the instruction on the state after the fetch, with what stands in step with the state brought up to date (`settled`); of an undefined encoding, or an instruction that this core or sequencer has not, it
takes the trap of cause 0x00, of a reserved field that is not zero that of 0x01. Inside a frame the word is the captured one. -/
def stepsRunTheDecoded : Prop :=
  ∀ (s n u v : State) (c : Nat) (a : Bool) (w w' : BitVec 32) (i : Instr), TurnOf s n c a → Issues n c a →
    let trap (code : Nat) (x : State) : Host.Outcome State Fault Refusal :=
      settled (.next (takeTrap c n.urgent { code := code, kind := .p, aSeq := a } x))
    ((n.task.frame.act && !a) = false → fetchWord n.pc (if a then n.task.a.via else n.task.via) n = .ok w u →
      (isFrameWord w = false →
        (decode (bytesOfWord w) = .ok (i, []) → allowedHere c a i = true → step s = settled (exec i u)) ∧
        (decode (bytesOfWord w) = .ok (i, []) → allowedHere c a i = false → step s = trap 0x00 u) ∧
        (decode (bytesOfWord w) = .error .undefinedEncoding → step s = trap 0x00 u) ∧
        (decodeWords w 0 = some (i, false) → allowedHere c a i = true → step s = trap 0x01 u)) ∧
      (isFrameWord w = true → fetchWord (n.pc + 4) (some (n.pc + 4)) u = .ok w' v → u.cur = n.cur → v.cur = n.cur →
        (decode (bytesOfWord w ++ bytesOfWord w') = .ok (i, []) → allowedHere c a i = true → step s = settled (exec i v)) ∧
        (decode (bytesOfWord w ++ bytesOfWord w') = .error .undefinedEncoding → step s = trap 0x00 v))) ∧
    (n.task.frame.act = true → a = false → n.task.frame.recheck = false →
      decode (bytesOfWord (nth n.task.frame.body n.task.frame.idx 0)) = .ok (i, []) → allowedHere c a i = true →
      step s = settled (exec i n))

/-- R27, R30: a fetch through a TLB entry that may execute, of a word that is neither captured nor rewritten since the instruction
cache was emptied, returns the four bytes that memory holds at the physical address, and captures it. One of a captured word that memory
holds still returns it; one of a word that has been rewritten returns the old or the new one, and no other. -/
def fetchesReadMemory : Prop :=
  ∀ (s t : State) (p : Word) (via : Option Word) (e : TlbEntry), p.toNat % 4 = 0 → isVirtual p = true → s.task.shipTo = none →
    tlbSearch s.cur.core (s.asidOf s.cur.core) p.toNat true s = .ok (some e) t → t.cur = s.cur → e.x = true →
    (e.u = true ∨ s.task.priv = true) → let c := s.cur.core; let ix := e.paOf p.toNat / 4
    (∀ u, tabFind (t.coreAt c).icache ix = none →
      acquire (dieOf c) (coveOf c) c (e.paOf p.toNat) e.nc e.sq false t = .ok () u → u.cur = s.cur →
      u.uncorrectable (e.paOf p.toNat) 4 = false → u.poisoned (e.paOf p.toNat) 4 = false → u.oldWord c ix = none →
      let w := u.codeWord (dieOf c) (e.paOf p.toNat) e.sq
      fetchWord p via s = .ok w (u.modCore c fun k => k.capture ix w)) ∧
    (∀ o, tabFind (t.coreAt c).icache ix = some o → (t.coreAt c).icacheBad.contains ix = false →
      ∃ x u, fetchWord p via s = .ok x u ∧ (x = o ∨ x = t.codeWord (dieOf c) (e.paOf p.toNat) e.sq) ∧ SameMemory s u)

/-- The turns of a schedule that are no issue: an event of the opcode table is `exec` of it; an agent that may not issue does nothing. -/
def otherTurns : Prop :=
  (∀ (s : State) (i : Instr) (r : List Turn), s.sched = .event i :: r → i.encoded = false → step s = settled (exec i { s with sched := r })) ∧
  (∀ (s n : State) (c : Nat) (a : Bool), TurnOf s n c a → n.mayIssue c a = false →
    step s = settled (.next { n with cur := s.cur }))

/-- R140, R141: bringing a state up to date leaves the registers, the PC and the status of every running task, every local SRAM, cove, die and
partition as they were; with no block in an ebb frame it changes only the groups' clocks, the model's count of steps, what HBM held
uncorrectable for the access that the step made (R433), and which blocks have met a trigger with no frame free (R138). -/
def settlingKeeps : Prop :=
  ∀ (s : State), let t := s.settle; let same (x y : Task) : Prop := x.g = y.g ∧ x.pc = y.pc ∧ x.status = y.status
    (∀ c, same (t.coreAt c).b0 (s.coreAt c).b0 ∧ same (t.coreAt c).b1 (s.coreAt c).b1 ∧ (t.coreAt c).spm = (s.coreAt c).spm) ∧
    t.coves = s.coves ∧ t.dies = s.dies ∧ t.parts = s.parts ∧
    (∀ k ∈ t.hbmMet, k ∈ s.hbmMet) ∧ ((∀ b ∈ s.blocks, b.2.frame = none) →
      t = { s with groups := t.groups, turns := s.turns + 1, hbmMet := t.hbmMet, blocks := t.blocks } ∧
      ∃ f : Nat × Block → Bool, t.blocks = s.blocks.map fun b => (b.1, { b.2 with ebbNoted := f b }))

/-- R15, R26, R27: a step runs the decoded instruction.
The schedule is the model's own (log 3); the word returned after a rewrite is free (log 7). -/
def Obligations.StepRunsTheDecodedInstruction : Prop := stepsRunTheDecoded ∧ fetchesReadMemory ∧ otherTurns ∧ settlingKeeps

/-- Decoding the encoding of any well-formed instruction, whatever bytes follow it, gives the instruction back and leaves those bytes. -/
def Obligations.DecodeOfEncodeIsTheInstruction : Prop :=
  ∀ (i : Instr) (rest : List (BitVec 8)), WellFormed i = true → decode (encodeBytes i ++ rest) = .ok (i, rest)

/-- Every step that answers a next state keeps the memory in its canonical form.
The canonical form is the model's own; what an unlisted byte reads as is its choice (log 1). -/
def Obligations.StepKeepsMemoryCanonical : Prop := ∀ s t : State, s.Canonical → step s = .next t → t.Canonical

/-- The four bytes of a word written out from the spec decode to the instruction, with nothing left over. -/
def Reads (w : BitVec 32) (i : Instr) : Prop := decode (bytesOfWord w) = .ok (i, [])

/-- R21, R24 and the chapters' tables: words of each kind, written field by field, decode to the instructions they stand for; an unassigned
major or sub-operation, the all-zero and the all-ones word are undefined encodings, and a reserved field that is not zero is refused
as such. -/
def Obligations.WordsOfTheTablesDecode : Prop :=
  Reads 0b000001_00011_00001_00010_00000_000000#32 (.add 3 1 2) ∧
  Reads 0b000001_00011_00001_00010_00001_000000#32 (.sub 3 1 2) ∧
  Reads 0b001001_00101_111111111111111111110#32 (.lhi 5 0x1FFFFE) ∧
  Reads 0b001100_00001_00010_1111111111111111#32 (.beq 1 2 0xFFFF) ∧
  Reads 0b010101_00000_00100_0000000000000110#32 (.loop 4 6) ∧
  Reads 0b010111_00000_01001_00_101_00000000000#32 (.qget 9 5) ∧
  Reads 0b011010_00101_00100_011_0000000001000#32 (.ld 5 4 3 8) ∧
  Reads 0b100000_00001_00010_00011_01001_000_1_0_1#32 (.amoCas 1 2 3 1 0 1) ∧
  Reads 0b100100_00000_00111_000000_0011_0_1_0010#32 (.send 7 3 1 2) ∧
  Reads 0b100110_00010_00001_00010_00011_1_0_0101#32 (.cput 1 2 3 1 0 5) ∧
  Reads 0b101000_00001_00010_00011_100_01000_101#32 (.vld 1 2 3 4 1 5) ∧
  Reads 0b101011_00010_0000010_0000011_1_0_1_0000#32 (.mma 2 3 1 0 1) ∧
  Reads 0b101100_00111_00011_00100_00000000000#32 (.xcnt 3 4) ∧
  Reads 0b101101_00000_00110_00101_00000000000#32 (.gpush 6 5) ∧
  Reads 0b101110_00000_01000_000000000000000_1#32 (.rput 8 1) ∧
  Reads 0b000000_00100_00001_0000000100000100#32 (.rdsr 1 0x104) ∧
  decode (bytesOfWord 0b010110_00011_00000_0010_000000000000#32 ++ bytesOfWord 0b111111_0000000000000111_00001_00000#32) =
    .ok (.frame 3 0 2 7 1, []) ∧
  decode (bytesOfWord 0x00000000#32) = .error .undefinedEncoding ∧ decode (bytesOfWord 0xFFFFFFFF#32) = .error .undefinedEncoding ∧
  decode (bytesOfWord 0b000001_00011_00001_00010_11111_000000#32) = .error .undefinedEncoding ∧
  decode (bytesOfWord 0b000001_00011_00001_00010_00000_000001#32) = .error .reservedField

/-- R4, R401, R413, R416, R426, R427 and the reset columns of their registers: after a device reset the boot ROM waits in state 0 and no task
runs on any core; partition 0 holds every cove, every ASID and every expert name, the others none; every action entry parks and
reports; the limits of ebb, acknowledgement, pool hold and switch stop, the carve, the format, rounding seed, thresholds and
temperature limit hold their reset values; M, D and epoch are zero; memory is in its canonical form.
Only values that the spec states are named, but for the form of the memory, which is the model's own (log 1). -/
def Obligations.ResetLeavesTheStatedValues : Prop :=
  let s := State.reset
  (∀ c, (s.coreAt c).b0.status = .empty ∧ (s.coreAt c).b1.status = .empty ∧ (s.coreAt c).parks = [] ∧ (s.coreAt c).inbox = [] ∧
    (s.coreAt c).carveSize = 8 ∧ (s.coreAt c).fpmode = 0xA0 ∧ (s.coreAt c).seed = 1 ∧ (s.coreAt c).slackOn = true) ∧
  (∀ d < 4, nth (s.partAt 0).pmap d 0 = 0xFFFFFFFF) ∧ fieldOf (s.partAt 0).pasid 11 0 = 0 ∧ fieldOf (s.partAt 0).pasid 24 12 = 4096 ∧
  fieldOf (s.partAt 0).xrange 11 0 = 0 ∧ fieldOf (s.partAt 0).xrange 24 12 = 4096 ∧
  (∀ n < 4096, (s.partAt 0).holdsName n = true ∧ ∀ p, p ≠ 0 → (s.partAt p).holdsName n = false) ∧
  (∀ p, p ≠ 0 → (∀ d < 4, nth (s.partAt p).pmap d 0 = 0) ∧ (s.partAt p).pasid = 0 ∧ (s.partAt p).xrange = 0) ∧
  (∀ p, (∀ code < 96, (s.partAt p).actionOf code = 5) ∧ (s.partAt p).ebbCount = 4 ∧ (s.partAt p).ebbAge = 200000 ∧
    (s.partAt p).acktmo = 1000 ∧ (s.partAt p).tpage = 100 ∧ (s.partAt p).swlim = 20000 ∧ (s.partAt p).swState = 0) ∧
  (∀ d p, s.causalAt d p = { m := List.replicate 12 0, d := List.replicate 4 0, epoch := 0 }) ∧
  s.host.boot = 0 ∧ s.host.idl = 0 ∧ s.host.atl = 0 ∧ s.host.bcnt = 0 ∧ s.host.hdm = false ∧ s.host.tlim = 105 ∧ s.host.cap = 0 ∧
  thresholdOf s.host.thr 0 = 10000 ∧ thresholdOf s.host.thr 1 = 1 ∧ thresholdOf s.host.thr 2 = 1000 ∧
  thresholdOf s.host.thr 3 = 10 ∧ thresholdOf s.host.thr 4 = 8 ∧ s.fence = 0 ∧ s.tidecfg = 0 ∧ Memory.wf s.mem = true
end

