-- ==== Sys2Proof/Laws/Tables.lean ====
section
/-! SUPPORT. The sparse tables and the byte memories: what is read after a write, and that every operation of a memory keeps its
canonical form. -/

namespace Sys2Proof.Machine

variable {α : Type}

@[simp] theorem tabFind_tabPut_same (t : Tab α) (k : Nat) (a : α) : tabFind (tabPut t k a) k = some a := by
  induction t with
  | nil => simp [tabPut, tabFind]
  | cons x r ih =>
    obtain ⟨i, b⟩ := x
    simp only [tabPut]
    split
    · simp [tabFind]
    · split
      · simp [tabFind]
      · rename_i h
        rw [tabFind, if_neg (fun h' => h h'.symm)]
        exact ih

theorem tabFind_tabPut_ne (t : Tab α) {k l : Nat} (a : α) (h : l ≠ k) : tabFind (tabPut t k a) l = tabFind t l := by
  induction t with
  | nil => simp [tabPut, tabFind, h.symm]
  | cons x r ih =>
    obtain ⟨i, b⟩ := x
    simp only [tabPut]
    split
    · rw [tabFind, if_neg h.symm]
    · split
      · rename_i e
        subst e
        simp [tabFind, h.symm]
      · simp only [tabFind]
        split
        · rfl
        · exact ih

@[simp] theorem tabGet_tabPut_same (t : Tab α) (k : Nat) (a d : α) : tabGet (tabPut t k a) k d = a := by
  simp [tabGet]

theorem tabGet_tabPut_ne (t : Tab α) {k l : Nat} (a d : α) (h : l ≠ k) : tabGet (tabPut t k a) l d = tabGet t l d := by
  simp [tabGet, tabFind_tabPut_ne t a h]

/-- A second write of the same entry replaces the first. -/
@[simp] theorem tabPut_tabPut_same (t : Tab α) (k : Nat) (a b : α) : tabPut (tabPut t k a) k b = tabPut t k b := by
  induction t with
  | nil => simp [tabPut]
  | cons x r ih =>
    obtain ⟨i, c⟩ := x
    simp only [tabPut]
    split
    · simp [tabPut]
    · split
      · simp [tabPut]
      · rename_i h1 h2
        rw [tabPut, if_neg h1, if_neg h2, ih]

theorem cellsRising_mono {lo lo' : Nat} {m : List Host.Cell} (h : lo' ≤ lo) (w : cellsRising (some lo) m = true) :
    cellsRising (some lo') m = true := by
  cases m with
  | nil => rfl
  | cons x r =>
    obtain ⟨a, b⟩ := x
    simp only [cellsRising, Bool.and_eq_true, decide_eq_true_eq] at w ⊢
    exact ⟨⟨by omega, w.1.2⟩, w.2⟩

theorem cellsRising_none {lo : Nat} {m : List Host.Cell} (w : cellsRising (some lo) m = true) : cellsRising none m = true := by
  cases m with
  | nil => rfl
  | cons x r =>
    obtain ⟨a, b⟩ := x
    simp only [cellsRising, Bool.and_eq_true, decide_eq_true_eq] at w ⊢
    exact ⟨⟨trivial, w.1.2⟩, w.2⟩

theorem cellsRising_tabDel {lo : Option Nat} {m : List Host.Cell} (k : Nat) (w : cellsRising lo m = true) :
    cellsRising lo (tabDel m k) = true := by
  induction m generalizing lo with
  | nil => exact w
  | cons x r ih =>
    obtain ⟨a, b⟩ := x
    simp only [cellsRising, Bool.and_eq_true] at w
    simp only [tabDel]
    split
    · cases lo with
      | none => exact cellsRising_none w.2
      | some l => exact cellsRising_mono (by have := w.1.1; simp at this; omega) w.2
    · simp only [cellsRising, Bool.and_eq_true]
      exact ⟨w.1, ih w.2⟩

theorem cellsRising_tabPut {lo : Option Nat} {m : List Host.Cell} (k : Nat) (v : Byte) (hv : v ≠ blankByte)
    (hk : ∀ l, lo = some l → l < k) (w : cellsRising lo m = true) : cellsRising lo (tabPut m k v) = true := by
  have low (r : List Host.Cell) (h : cellsRising (some k) r = true) : cellsRising lo ((k, v) :: r) = true := by
    cases lo with
    | none => simp [cellsRising, hv, h]
    | some l => simp [cellsRising, hv, h, hk l rfl]
  induction m generalizing lo with
  | nil => exact low [] rfl
  | cons x r ih =>
    obtain ⟨a, b⟩ := x
    simp only [cellsRising, Bool.and_eq_true] at w
    simp only [tabPut]
    split
    · rename_i h
      apply low
      simp only [cellsRising, Bool.and_eq_true]
      exact ⟨⟨by simpa using h, w.1.2⟩, w.2⟩
    · split
      · rename_i h
        subst h
        exact low r w.2
      · simp only [cellsRising, Bool.and_eq_true]
        have hak : ∀ l, some a = some l → l < k := by
          intro l h
          cases h
          omega
        refine ⟨w.1, ih hak w.2 ?_⟩
        intro r h
        simp only [cellsRising, Bool.and_eq_true, h]
        exact ⟨⟨by simpa using hak a rfl, by simpa using hv⟩, trivial⟩

/-- Writing a byte keeps the canonical form. -/
theorem wf_cellSet {m : List Host.Cell} (a : Nat) (b : Byte) (w : Memory.wf m = true) : Memory.wf (cellSet m a b) = true := by
  unfold cellSet
  split
  · exact cellsRising_tabDel a w
  · exact cellsRising_tabPut a b ‹_› (by simp) w

/-- Writing consecutive bytes keeps the canonical form. -/
theorem wf_cellsSet {m : List Host.Cell} (a : Nat) (l : List Byte) (w : Memory.wf m = true) :
    Memory.wf (cellsSet m a l) = true := by
  induction l generalizing m a with
  | nil => exact w
  | cons b r ih => exact ih (a + 1) (wf_cellSet a b w)

theorem tabFind_none_of_rising {lo : Nat} {m : List Host.Cell} (w : cellsRising (some lo) m = true) {a : Nat} (h : a ≤ lo) :
    tabFind m a = none := by
  induction m generalizing lo with
  | nil => rfl
  | cons x r ih =>
    obtain ⟨i, b⟩ := x
    simp only [cellsRising, Bool.and_eq_true, decide_eq_true_eq] at w
    rw [tabFind, if_neg (by omega)]
    exact ih w.2 (by omega)

theorem tabFind_tabDel_same {lo : Option Nat} {m : List Host.Cell} (w : cellsRising lo m = true) (k : Nat) :
    tabFind (tabDel m k) k = none := by
  induction m generalizing lo with
  | nil => rfl
  | cons x r ih =>
    obtain ⟨i, b⟩ := x
    simp only [cellsRising, Bool.and_eq_true] at w
    simp only [tabDel]
    split
    · exact tabFind_none_of_rising w.2 (by omega)
    · rename_i h
      rw [tabFind, if_neg h]
      exact ih w.2

theorem tabFind_tabDel_ne (m : Tab α) {k l : Nat} (h : l ≠ k) : tabFind (tabDel m k) l = tabFind m l := by
  induction m with
  | nil => rfl
  | cons x r ih =>
    obtain ⟨i, b⟩ := x
    simp only [tabDel]
    split
    · rename_i e
      subst e
      rw [tabFind, if_neg h.symm]
    · simp only [tabFind]
      split
      · rfl
      · exact ih

/-- A byte reads as what was written last. -/
theorem cellGet_cellSet_same {m : List Host.Cell} (w : Memory.wf m = true) (a : Nat) (b : Byte) :
    cellGet (cellSet m a b) a = b := by
  unfold cellSet cellGet tabGet
  split
  · rename_i h
    rw [tabFind_tabDel_same w, h]
    rfl
  · simp

/-- A write leaves every other byte as it was. -/
theorem cellGet_cellSet_ne (m : List Host.Cell) {a k : Nat} (b : Byte) (h : a ≠ k) :
    cellGet (cellSet m k b) a = cellGet m a := by
  unfold cellSet cellGet tabGet
  split
  · rw [tabFind_tabDel_ne m h]
  · rw [tabFind_tabPut_ne m b h]

/-- A write of consecutive bytes leaves every byte outside them as it was. -/
theorem cellGet_cellsSet_out (m : List Host.Cell) (lo : Nat) (l : List Byte) {a : Nat} (h : a < lo ∨ lo + l.length ≤ a) :
    cellGet (cellsSet m lo l) a = cellGet m a := by
  induction l generalizing m lo with
  | nil => rfl
  | cons b r ih =>
    simp only [List.length_cons] at h
    rw [cellsSet, ih _ _ (by omega), cellGet_cellSet_ne m b (by omega)]

/-- A byte written among consecutive bytes reads back. -/
theorem cellGet_cellsSet_in {m : List Host.Cell} (w : Memory.wf m = true) (lo : Nat) (l : List Byte) {i : Nat}
    (h : i < l.length) : cellGet (cellsSet m lo l) (lo + i) = l[i] := by
  induction l generalizing m lo i with
  | nil => simp at h
  | cons b r ih =>
    rw [cellsSet]
    cases i with
    | zero => rw [cellGet_cellsSet_out _ _ _ (by omega)]; simpa using cellGet_cellSet_same w lo b
    | succ j =>
      have := ih (wf_cellSet lo b w) (lo + 1) (i := j) (by simpa using h)
      simpa [Nat.add_comm, Nat.add_left_comm, Nat.add_assoc] using this

end Sys2Proof.Machine
end

