-- ==== Sys2Proof/Laws/State.lean ====
section
/-! SUPPORT. The fields of the state after each of its updates: one small lemma per field and update (true by unfolding), so that
no proof unfolds a record update. -/

namespace Sys2Proof.Machine

variable (s : State)

@[simp] theorem State.setCore_mem (c : Nat) (k : Core) : (s.setCore c k).mem = s.mem := rfl
@[simp] theorem State.setCore_stores (c : Nat) (k : Core) : (s.setCore c k).stores = s.stores := rfl
@[simp] theorem State.setCore_rewritten (c : Nat) (k : Core) : (s.setCore c k).rewritten = s.rewritten := rfl
@[simp] theorem State.setCore_stale (c : Nat) (k : Core) : (s.setCore c k).stale = s.stale := rfl
@[simp] theorem State.setCore_poison (c : Nat) (k : Core) : (s.setCore c k).poison = s.poison := rfl
@[simp] theorem State.setCore_hbmBad (c : Nat) (k : Core) : (s.setCore c k).hbmBad = s.hbmBad := rfl
@[simp] theorem State.setCore_hbmMet (c : Nat) (k : Core) : (s.setCore c k).hbmMet = s.hbmMet := rfl
@[simp] theorem State.setCore_coves (c : Nat) (k : Core) : (s.setCore c k).coves = s.coves := rfl
@[simp] theorem State.setCore_dies (c : Nat) (k : Core) : (s.setCore c k).dies = s.dies := rfl
@[simp] theorem State.setCore_parts (c : Nat) (k : Core) : (s.setCore c k).parts = s.parts := rfl
@[simp] theorem State.setCore_coh (c : Nat) (k : Core) : (s.setCore c k).coh = s.coh := rfl
@[simp] theorem State.setCore_hostLines (c : Nat) (k : Core) : (s.setCore c k).hostLines = s.hostLines := rfl
@[simp] theorem State.setCore_ports (c : Nat) (k : Core) : (s.setCore c k).ports = s.ports := rfl
@[simp] theorem State.setCore_links (c : Nat) (k : Core) : (s.setCore c k).links = s.links := rfl
@[simp] theorem State.setCore_unacked (c : Nat) (k : Core) : (s.setCore c k).unacked = s.unacked := rfl
@[simp] theorem State.setCore_tideIn (c : Nat) (k : Core) : (s.setCore c k).tideIn = s.tideIn := rfl
@[simp] theorem State.setCore_tideOut (c : Nat) (k : Core) : (s.setCore c k).tideOut = s.tideOut := rfl
@[simp] theorem State.setCore_stranded (c : Nat) (k : Core) : (s.setCore c k).stranded = s.stranded := rfl
@[simp] theorem State.setCore_replays (c : Nat) (k : Core) : (s.setCore c k).replays = s.replays := rfl
@[simp] theorem State.setCore_chunks (c : Nat) (k : Core) : (s.setCore c k).chunks = s.chunks := rfl
@[simp] theorem State.setCore_chunksOut (c : Nat) (k : Core) : (s.setCore c k).chunksOut = s.chunksOut := rfl
@[simp] theorem State.setCore_chunkPorts (c : Nat) (k : Core) : (s.setCore c k).chunkPorts = s.chunkPorts := rfl
@[simp] theorem State.setCore_ships (c : Nat) (k : Core) : (s.setCore c k).ships = s.ships := rfl
@[simp] theorem State.setCore_blocks (c : Nat) (k : Core) : (s.setCore c k).blocks = s.blocks := rfl
@[simp] theorem State.setCore_services (c : Nat) (k : Core) : (s.setCore c k).services = s.services := rfl
@[simp] theorem State.setCore_groups (c : Nat) (k : Core) : (s.setCore c k).groups = s.groups := rfl
@[simp] theorem State.setCore_names (c : Nat) (k : Core) : (s.setCore c k).names = s.names := rfl
@[simp] theorem State.setCore_peers (c : Nat) (k : Core) : (s.setCore c k).peers = s.peers := rfl
@[simp] theorem State.setCore_gangs (c : Nat) (k : Core) : (s.setCore c k).gangs = s.gangs := rfl
@[simp] theorem State.setCore_frames (c : Nat) (k : Core) : (s.setCore c k).frames = s.frames := rfl
@[simp] theorem State.setCore_answers (c : Nat) (k : Core) : (s.setCore c k).answers = s.answers := rfl
@[simp] theorem State.setCore_heldTags (c : Nat) (k : Core) : (s.setCore c k).heldTags = s.heldTags := rfl
@[simp] theorem State.setCore_killed (c : Nat) (k : Core) : (s.setCore c k).killed = s.killed := rfl
@[simp] theorem State.setCore_psel (c : Nat) (k : Core) : (s.setCore c k).psel = s.psel := rfl
@[simp] theorem State.setCore_fence (c : Nat) (k : Core) : (s.setCore c k).fence = s.fence := rfl
@[simp] theorem State.setCore_lnkSel (c : Nat) (k : Core) : (s.setCore c k).lnkSel = s.lnkSel := rfl
@[simp] theorem State.setCore_lnkErr (c : Nat) (k : Core) : (s.setCore c k).lnkErr = s.lnkErr := rfl
@[simp] theorem State.setCore_tsl (c : Nat) (k : Core) : (s.setCore c k).tsl = s.tsl := rfl
@[simp] theorem State.setCore_tidecfg (c : Nat) (k : Core) : (s.setCore c k).tidecfg = s.tidecfg := rfl
@[simp] theorem State.setCore_rtbase (c : Nat) (k : Core) : (s.setCore c k).rtbase = s.rtbase := rfl
@[simp] theorem State.setCore_peerSel (c : Nat) (k : Core) : (s.setCore c k).peerSel = s.peerSel := rfl
@[simp] theorem State.setCore_host (c : Nat) (k : Core) : (s.setCore c k).host = s.host := rfl
@[simp] theorem State.setCore_now (c : Nat) (k : Core) : (s.setCore c k).now = s.now := rfl
@[simp] theorem State.setCore_turns (c : Nat) (k : Core) : (s.setCore c k).turns = s.turns := rfl
@[simp] theorem State.setCore_tick (c : Nat) (k : Core) : (s.setCore c k).tick = s.tick := rfl
@[simp] theorem State.setCore_nextTid (c : Nat) (k : Core) : (s.setCore c k).nextTid = s.nextTid := rfl
@[simp] theorem State.setCore_nextUid (c : Nat) (k : Core) : (s.setCore c k).nextUid = s.nextUid := rfl
@[simp] theorem State.setCore_cur (c : Nat) (k : Core) : (s.setCore c k).cur = s.cur := rfl
@[simp] theorem State.setCore_sched (c : Nat) (k : Core) : (s.setCore c k).sched = s.sched := rfl

@[simp] theorem State.modCore_mem (c : Nat) (f : Core → Core) : (s.modCore c f).mem = s.mem := rfl
@[simp] theorem State.modCore_stores (c : Nat) (f : Core → Core) : (s.modCore c f).stores = s.stores := rfl
@[simp] theorem State.modCore_rewritten (c : Nat) (f : Core → Core) : (s.modCore c f).rewritten = s.rewritten := rfl
@[simp] theorem State.modCore_stale (c : Nat) (f : Core → Core) : (s.modCore c f).stale = s.stale := rfl
@[simp] theorem State.modCore_poison (c : Nat) (f : Core → Core) : (s.modCore c f).poison = s.poison := rfl
@[simp] theorem State.modCore_hbmBad (c : Nat) (f : Core → Core) : (s.modCore c f).hbmBad = s.hbmBad := rfl
@[simp] theorem State.modCore_hbmMet (c : Nat) (f : Core → Core) : (s.modCore c f).hbmMet = s.hbmMet := rfl
@[simp] theorem State.modCore_coves (c : Nat) (f : Core → Core) : (s.modCore c f).coves = s.coves := rfl
@[simp] theorem State.modCore_dies (c : Nat) (f : Core → Core) : (s.modCore c f).dies = s.dies := rfl
@[simp] theorem State.modCore_parts (c : Nat) (f : Core → Core) : (s.modCore c f).parts = s.parts := rfl
@[simp] theorem State.modCore_coh (c : Nat) (f : Core → Core) : (s.modCore c f).coh = s.coh := rfl
@[simp] theorem State.modCore_hostLines (c : Nat) (f : Core → Core) : (s.modCore c f).hostLines = s.hostLines := rfl
@[simp] theorem State.modCore_ports (c : Nat) (f : Core → Core) : (s.modCore c f).ports = s.ports := rfl
@[simp] theorem State.modCore_links (c : Nat) (f : Core → Core) : (s.modCore c f).links = s.links := rfl
@[simp] theorem State.modCore_unacked (c : Nat) (f : Core → Core) : (s.modCore c f).unacked = s.unacked := rfl
@[simp] theorem State.modCore_tideIn (c : Nat) (f : Core → Core) : (s.modCore c f).tideIn = s.tideIn := rfl
@[simp] theorem State.modCore_tideOut (c : Nat) (f : Core → Core) : (s.modCore c f).tideOut = s.tideOut := rfl
@[simp] theorem State.modCore_stranded (c : Nat) (f : Core → Core) : (s.modCore c f).stranded = s.stranded := rfl
@[simp] theorem State.modCore_replays (c : Nat) (f : Core → Core) : (s.modCore c f).replays = s.replays := rfl
@[simp] theorem State.modCore_chunks (c : Nat) (f : Core → Core) : (s.modCore c f).chunks = s.chunks := rfl
@[simp] theorem State.modCore_chunksOut (c : Nat) (f : Core → Core) : (s.modCore c f).chunksOut = s.chunksOut := rfl
@[simp] theorem State.modCore_chunkPorts (c : Nat) (f : Core → Core) : (s.modCore c f).chunkPorts = s.chunkPorts := rfl
@[simp] theorem State.modCore_ships (c : Nat) (f : Core → Core) : (s.modCore c f).ships = s.ships := rfl
@[simp] theorem State.modCore_blocks (c : Nat) (f : Core → Core) : (s.modCore c f).blocks = s.blocks := rfl
@[simp] theorem State.modCore_services (c : Nat) (f : Core → Core) : (s.modCore c f).services = s.services := rfl
@[simp] theorem State.modCore_groups (c : Nat) (f : Core → Core) : (s.modCore c f).groups = s.groups := rfl
@[simp] theorem State.modCore_names (c : Nat) (f : Core → Core) : (s.modCore c f).names = s.names := rfl
@[simp] theorem State.modCore_peers (c : Nat) (f : Core → Core) : (s.modCore c f).peers = s.peers := rfl
@[simp] theorem State.modCore_gangs (c : Nat) (f : Core → Core) : (s.modCore c f).gangs = s.gangs := rfl
@[simp] theorem State.modCore_frames (c : Nat) (f : Core → Core) : (s.modCore c f).frames = s.frames := rfl
@[simp] theorem State.modCore_answers (c : Nat) (f : Core → Core) : (s.modCore c f).answers = s.answers := rfl
@[simp] theorem State.modCore_heldTags (c : Nat) (f : Core → Core) : (s.modCore c f).heldTags = s.heldTags := rfl
@[simp] theorem State.modCore_killed (c : Nat) (f : Core → Core) : (s.modCore c f).killed = s.killed := rfl
@[simp] theorem State.modCore_psel (c : Nat) (f : Core → Core) : (s.modCore c f).psel = s.psel := rfl
@[simp] theorem State.modCore_fence (c : Nat) (f : Core → Core) : (s.modCore c f).fence = s.fence := rfl
@[simp] theorem State.modCore_lnkSel (c : Nat) (f : Core → Core) : (s.modCore c f).lnkSel = s.lnkSel := rfl
@[simp] theorem State.modCore_lnkErr (c : Nat) (f : Core → Core) : (s.modCore c f).lnkErr = s.lnkErr := rfl
@[simp] theorem State.modCore_tsl (c : Nat) (f : Core → Core) : (s.modCore c f).tsl = s.tsl := rfl
@[simp] theorem State.modCore_tidecfg (c : Nat) (f : Core → Core) : (s.modCore c f).tidecfg = s.tidecfg := rfl
@[simp] theorem State.modCore_rtbase (c : Nat) (f : Core → Core) : (s.modCore c f).rtbase = s.rtbase := rfl
@[simp] theorem State.modCore_peerSel (c : Nat) (f : Core → Core) : (s.modCore c f).peerSel = s.peerSel := rfl
@[simp] theorem State.modCore_host (c : Nat) (f : Core → Core) : (s.modCore c f).host = s.host := rfl
@[simp] theorem State.modCore_now (c : Nat) (f : Core → Core) : (s.modCore c f).now = s.now := rfl
@[simp] theorem State.modCore_turns (c : Nat) (f : Core → Core) : (s.modCore c f).turns = s.turns := rfl
@[simp] theorem State.modCore_tick (c : Nat) (f : Core → Core) : (s.modCore c f).tick = s.tick := rfl
@[simp] theorem State.modCore_nextTid (c : Nat) (f : Core → Core) : (s.modCore c f).nextTid = s.nextTid := rfl
@[simp] theorem State.modCore_nextUid (c : Nat) (f : Core → Core) : (s.modCore c f).nextUid = s.nextUid := rfl
@[simp] theorem State.modCore_cur (c : Nat) (f : Core → Core) : (s.modCore c f).cur = s.cur := rfl
@[simp] theorem State.modCore_sched (c : Nat) (f : Core → Core) : (s.modCore c f).sched = s.sched := rfl

@[simp] theorem State.modCove_mem (v : Nat) (f : Cove → Cove) : (s.modCove v f).mem = s.mem := rfl
@[simp] theorem State.modCove_stores (v : Nat) (f : Cove → Cove) : (s.modCove v f).stores = s.stores := rfl
@[simp] theorem State.modCove_rewritten (v : Nat) (f : Cove → Cove) : (s.modCove v f).rewritten = s.rewritten := rfl
@[simp] theorem State.modCove_stale (v : Nat) (f : Cove → Cove) : (s.modCove v f).stale = s.stale := rfl
@[simp] theorem State.modCove_poison (v : Nat) (f : Cove → Cove) : (s.modCove v f).poison = s.poison := rfl
@[simp] theorem State.modCove_hbmBad (v : Nat) (f : Cove → Cove) : (s.modCove v f).hbmBad = s.hbmBad := rfl
@[simp] theorem State.modCove_hbmMet (v : Nat) (f : Cove → Cove) : (s.modCove v f).hbmMet = s.hbmMet := rfl
@[simp] theorem State.modCove_cores (v : Nat) (f : Cove → Cove) : (s.modCove v f).cores = s.cores := rfl
@[simp] theorem State.modCove_dies (v : Nat) (f : Cove → Cove) : (s.modCove v f).dies = s.dies := rfl
@[simp] theorem State.modCove_parts (v : Nat) (f : Cove → Cove) : (s.modCove v f).parts = s.parts := rfl
@[simp] theorem State.modCove_coh (v : Nat) (f : Cove → Cove) : (s.modCove v f).coh = s.coh := rfl
@[simp] theorem State.modCove_hostLines (v : Nat) (f : Cove → Cove) : (s.modCove v f).hostLines = s.hostLines := rfl
@[simp] theorem State.modCove_ports (v : Nat) (f : Cove → Cove) : (s.modCove v f).ports = s.ports := rfl
@[simp] theorem State.modCove_links (v : Nat) (f : Cove → Cove) : (s.modCove v f).links = s.links := rfl
@[simp] theorem State.modCove_unacked (v : Nat) (f : Cove → Cove) : (s.modCove v f).unacked = s.unacked := rfl
@[simp] theorem State.modCove_tideIn (v : Nat) (f : Cove → Cove) : (s.modCove v f).tideIn = s.tideIn := rfl
@[simp] theorem State.modCove_tideOut (v : Nat) (f : Cove → Cove) : (s.modCove v f).tideOut = s.tideOut := rfl
@[simp] theorem State.modCove_stranded (v : Nat) (f : Cove → Cove) : (s.modCove v f).stranded = s.stranded := rfl
@[simp] theorem State.modCove_replays (v : Nat) (f : Cove → Cove) : (s.modCove v f).replays = s.replays := rfl
@[simp] theorem State.modCove_chunks (v : Nat) (f : Cove → Cove) : (s.modCove v f).chunks = s.chunks := rfl
@[simp] theorem State.modCove_chunksOut (v : Nat) (f : Cove → Cove) : (s.modCove v f).chunksOut = s.chunksOut := rfl
@[simp] theorem State.modCove_chunkPorts (v : Nat) (f : Cove → Cove) : (s.modCove v f).chunkPorts = s.chunkPorts := rfl
@[simp] theorem State.modCove_ships (v : Nat) (f : Cove → Cove) : (s.modCove v f).ships = s.ships := rfl
@[simp] theorem State.modCove_blocks (v : Nat) (f : Cove → Cove) : (s.modCove v f).blocks = s.blocks := rfl
@[simp] theorem State.modCove_services (v : Nat) (f : Cove → Cove) : (s.modCove v f).services = s.services := rfl
@[simp] theorem State.modCove_groups (v : Nat) (f : Cove → Cove) : (s.modCove v f).groups = s.groups := rfl
@[simp] theorem State.modCove_names (v : Nat) (f : Cove → Cove) : (s.modCove v f).names = s.names := rfl
@[simp] theorem State.modCove_peers (v : Nat) (f : Cove → Cove) : (s.modCove v f).peers = s.peers := rfl
@[simp] theorem State.modCove_gangs (v : Nat) (f : Cove → Cove) : (s.modCove v f).gangs = s.gangs := rfl
@[simp] theorem State.modCove_frames (v : Nat) (f : Cove → Cove) : (s.modCove v f).frames = s.frames := rfl
@[simp] theorem State.modCove_answers (v : Nat) (f : Cove → Cove) : (s.modCove v f).answers = s.answers := rfl
@[simp] theorem State.modCove_heldTags (v : Nat) (f : Cove → Cove) : (s.modCove v f).heldTags = s.heldTags := rfl
@[simp] theorem State.modCove_killed (v : Nat) (f : Cove → Cove) : (s.modCove v f).killed = s.killed := rfl
@[simp] theorem State.modCove_psel (v : Nat) (f : Cove → Cove) : (s.modCove v f).psel = s.psel := rfl
@[simp] theorem State.modCove_fence (v : Nat) (f : Cove → Cove) : (s.modCove v f).fence = s.fence := rfl
@[simp] theorem State.modCove_lnkSel (v : Nat) (f : Cove → Cove) : (s.modCove v f).lnkSel = s.lnkSel := rfl
@[simp] theorem State.modCove_lnkErr (v : Nat) (f : Cove → Cove) : (s.modCove v f).lnkErr = s.lnkErr := rfl
@[simp] theorem State.modCove_tsl (v : Nat) (f : Cove → Cove) : (s.modCove v f).tsl = s.tsl := rfl
@[simp] theorem State.modCove_tidecfg (v : Nat) (f : Cove → Cove) : (s.modCove v f).tidecfg = s.tidecfg := rfl
@[simp] theorem State.modCove_rtbase (v : Nat) (f : Cove → Cove) : (s.modCove v f).rtbase = s.rtbase := rfl
@[simp] theorem State.modCove_peerSel (v : Nat) (f : Cove → Cove) : (s.modCove v f).peerSel = s.peerSel := rfl
@[simp] theorem State.modCove_host (v : Nat) (f : Cove → Cove) : (s.modCove v f).host = s.host := rfl
@[simp] theorem State.modCove_now (v : Nat) (f : Cove → Cove) : (s.modCove v f).now = s.now := rfl
@[simp] theorem State.modCove_turns (v : Nat) (f : Cove → Cove) : (s.modCove v f).turns = s.turns := rfl
@[simp] theorem State.modCove_tick (v : Nat) (f : Cove → Cove) : (s.modCove v f).tick = s.tick := rfl
@[simp] theorem State.modCove_nextTid (v : Nat) (f : Cove → Cove) : (s.modCove v f).nextTid = s.nextTid := rfl
@[simp] theorem State.modCove_nextUid (v : Nat) (f : Cove → Cove) : (s.modCove v f).nextUid = s.nextUid := rfl
@[simp] theorem State.modCove_cur (v : Nat) (f : Cove → Cove) : (s.modCove v f).cur = s.cur := rfl
@[simp] theorem State.modCove_sched (v : Nat) (f : Cove → Cove) : (s.modCove v f).sched = s.sched := rfl

@[simp] theorem State.modDie_mem (d : Nat) (f : Die → Die) : (s.modDie d f).mem = s.mem := rfl
@[simp] theorem State.modDie_stores (d : Nat) (f : Die → Die) : (s.modDie d f).stores = s.stores := rfl
@[simp] theorem State.modDie_rewritten (d : Nat) (f : Die → Die) : (s.modDie d f).rewritten = s.rewritten := rfl
@[simp] theorem State.modDie_stale (d : Nat) (f : Die → Die) : (s.modDie d f).stale = s.stale := rfl
@[simp] theorem State.modDie_poison (d : Nat) (f : Die → Die) : (s.modDie d f).poison = s.poison := rfl
@[simp] theorem State.modDie_hbmBad (d : Nat) (f : Die → Die) : (s.modDie d f).hbmBad = s.hbmBad := rfl
@[simp] theorem State.modDie_hbmMet (d : Nat) (f : Die → Die) : (s.modDie d f).hbmMet = s.hbmMet := rfl
@[simp] theorem State.modDie_cores (d : Nat) (f : Die → Die) : (s.modDie d f).cores = s.cores := rfl
@[simp] theorem State.modDie_coves (d : Nat) (f : Die → Die) : (s.modDie d f).coves = s.coves := rfl
@[simp] theorem State.modDie_parts (d : Nat) (f : Die → Die) : (s.modDie d f).parts = s.parts := rfl
@[simp] theorem State.modDie_coh (d : Nat) (f : Die → Die) : (s.modDie d f).coh = s.coh := rfl
@[simp] theorem State.modDie_hostLines (d : Nat) (f : Die → Die) : (s.modDie d f).hostLines = s.hostLines := rfl
@[simp] theorem State.modDie_ports (d : Nat) (f : Die → Die) : (s.modDie d f).ports = s.ports := rfl
@[simp] theorem State.modDie_links (d : Nat) (f : Die → Die) : (s.modDie d f).links = s.links := rfl
@[simp] theorem State.modDie_unacked (d : Nat) (f : Die → Die) : (s.modDie d f).unacked = s.unacked := rfl
@[simp] theorem State.modDie_tideIn (d : Nat) (f : Die → Die) : (s.modDie d f).tideIn = s.tideIn := rfl
@[simp] theorem State.modDie_tideOut (d : Nat) (f : Die → Die) : (s.modDie d f).tideOut = s.tideOut := rfl
@[simp] theorem State.modDie_stranded (d : Nat) (f : Die → Die) : (s.modDie d f).stranded = s.stranded := rfl
@[simp] theorem State.modDie_replays (d : Nat) (f : Die → Die) : (s.modDie d f).replays = s.replays := rfl
@[simp] theorem State.modDie_chunks (d : Nat) (f : Die → Die) : (s.modDie d f).chunks = s.chunks := rfl
@[simp] theorem State.modDie_chunksOut (d : Nat) (f : Die → Die) : (s.modDie d f).chunksOut = s.chunksOut := rfl
@[simp] theorem State.modDie_chunkPorts (d : Nat) (f : Die → Die) : (s.modDie d f).chunkPorts = s.chunkPorts := rfl
@[simp] theorem State.modDie_ships (d : Nat) (f : Die → Die) : (s.modDie d f).ships = s.ships := rfl
@[simp] theorem State.modDie_blocks (d : Nat) (f : Die → Die) : (s.modDie d f).blocks = s.blocks := rfl
@[simp] theorem State.modDie_services (d : Nat) (f : Die → Die) : (s.modDie d f).services = s.services := rfl
@[simp] theorem State.modDie_groups (d : Nat) (f : Die → Die) : (s.modDie d f).groups = s.groups := rfl
@[simp] theorem State.modDie_names (d : Nat) (f : Die → Die) : (s.modDie d f).names = s.names := rfl
@[simp] theorem State.modDie_peers (d : Nat) (f : Die → Die) : (s.modDie d f).peers = s.peers := rfl
@[simp] theorem State.modDie_gangs (d : Nat) (f : Die → Die) : (s.modDie d f).gangs = s.gangs := rfl
@[simp] theorem State.modDie_frames (d : Nat) (f : Die → Die) : (s.modDie d f).frames = s.frames := rfl
@[simp] theorem State.modDie_answers (d : Nat) (f : Die → Die) : (s.modDie d f).answers = s.answers := rfl
@[simp] theorem State.modDie_heldTags (d : Nat) (f : Die → Die) : (s.modDie d f).heldTags = s.heldTags := rfl
@[simp] theorem State.modDie_killed (d : Nat) (f : Die → Die) : (s.modDie d f).killed = s.killed := rfl
@[simp] theorem State.modDie_psel (d : Nat) (f : Die → Die) : (s.modDie d f).psel = s.psel := rfl
@[simp] theorem State.modDie_fence (d : Nat) (f : Die → Die) : (s.modDie d f).fence = s.fence := rfl
@[simp] theorem State.modDie_lnkSel (d : Nat) (f : Die → Die) : (s.modDie d f).lnkSel = s.lnkSel := rfl
@[simp] theorem State.modDie_lnkErr (d : Nat) (f : Die → Die) : (s.modDie d f).lnkErr = s.lnkErr := rfl
@[simp] theorem State.modDie_tsl (d : Nat) (f : Die → Die) : (s.modDie d f).tsl = s.tsl := rfl
@[simp] theorem State.modDie_tidecfg (d : Nat) (f : Die → Die) : (s.modDie d f).tidecfg = s.tidecfg := rfl
@[simp] theorem State.modDie_rtbase (d : Nat) (f : Die → Die) : (s.modDie d f).rtbase = s.rtbase := rfl
@[simp] theorem State.modDie_peerSel (d : Nat) (f : Die → Die) : (s.modDie d f).peerSel = s.peerSel := rfl
@[simp] theorem State.modDie_host (d : Nat) (f : Die → Die) : (s.modDie d f).host = s.host := rfl
@[simp] theorem State.modDie_now (d : Nat) (f : Die → Die) : (s.modDie d f).now = s.now := rfl
@[simp] theorem State.modDie_turns (d : Nat) (f : Die → Die) : (s.modDie d f).turns = s.turns := rfl
@[simp] theorem State.modDie_tick (d : Nat) (f : Die → Die) : (s.modDie d f).tick = s.tick := rfl
@[simp] theorem State.modDie_nextTid (d : Nat) (f : Die → Die) : (s.modDie d f).nextTid = s.nextTid := rfl
@[simp] theorem State.modDie_nextUid (d : Nat) (f : Die → Die) : (s.modDie d f).nextUid = s.nextUid := rfl
@[simp] theorem State.modDie_cur (d : Nat) (f : Die → Die) : (s.modDie d f).cur = s.cur := rfl
@[simp] theorem State.modDie_sched (d : Nat) (f : Die → Die) : (s.modDie d f).sched = s.sched := rfl

@[simp] theorem State.modPart_mem (p : Nat) (f : Part → Part) : (s.modPart p f).mem = s.mem := rfl
@[simp] theorem State.modPart_stores (p : Nat) (f : Part → Part) : (s.modPart p f).stores = s.stores := rfl
@[simp] theorem State.modPart_rewritten (p : Nat) (f : Part → Part) : (s.modPart p f).rewritten = s.rewritten := rfl
@[simp] theorem State.modPart_stale (p : Nat) (f : Part → Part) : (s.modPart p f).stale = s.stale := rfl
@[simp] theorem State.modPart_poison (p : Nat) (f : Part → Part) : (s.modPart p f).poison = s.poison := rfl
@[simp] theorem State.modPart_hbmBad (p : Nat) (f : Part → Part) : (s.modPart p f).hbmBad = s.hbmBad := rfl
@[simp] theorem State.modPart_hbmMet (p : Nat) (f : Part → Part) : (s.modPart p f).hbmMet = s.hbmMet := rfl
@[simp] theorem State.modPart_cores (p : Nat) (f : Part → Part) : (s.modPart p f).cores = s.cores := rfl
@[simp] theorem State.modPart_coves (p : Nat) (f : Part → Part) : (s.modPart p f).coves = s.coves := rfl
@[simp] theorem State.modPart_dies (p : Nat) (f : Part → Part) : (s.modPart p f).dies = s.dies := rfl
@[simp] theorem State.modPart_coh (p : Nat) (f : Part → Part) : (s.modPart p f).coh = s.coh := rfl
@[simp] theorem State.modPart_hostLines (p : Nat) (f : Part → Part) : (s.modPart p f).hostLines = s.hostLines := rfl
@[simp] theorem State.modPart_ports (p : Nat) (f : Part → Part) : (s.modPart p f).ports = s.ports := rfl
@[simp] theorem State.modPart_links (p : Nat) (f : Part → Part) : (s.modPart p f).links = s.links := rfl
@[simp] theorem State.modPart_unacked (p : Nat) (f : Part → Part) : (s.modPart p f).unacked = s.unacked := rfl
@[simp] theorem State.modPart_tideIn (p : Nat) (f : Part → Part) : (s.modPart p f).tideIn = s.tideIn := rfl
@[simp] theorem State.modPart_tideOut (p : Nat) (f : Part → Part) : (s.modPart p f).tideOut = s.tideOut := rfl
@[simp] theorem State.modPart_stranded (p : Nat) (f : Part → Part) : (s.modPart p f).stranded = s.stranded := rfl
@[simp] theorem State.modPart_replays (p : Nat) (f : Part → Part) : (s.modPart p f).replays = s.replays := rfl
@[simp] theorem State.modPart_chunks (p : Nat) (f : Part → Part) : (s.modPart p f).chunks = s.chunks := rfl
@[simp] theorem State.modPart_chunksOut (p : Nat) (f : Part → Part) : (s.modPart p f).chunksOut = s.chunksOut := rfl
@[simp] theorem State.modPart_chunkPorts (p : Nat) (f : Part → Part) : (s.modPart p f).chunkPorts = s.chunkPorts := rfl
@[simp] theorem State.modPart_ships (p : Nat) (f : Part → Part) : (s.modPart p f).ships = s.ships := rfl
@[simp] theorem State.modPart_blocks (p : Nat) (f : Part → Part) : (s.modPart p f).blocks = s.blocks := rfl
@[simp] theorem State.modPart_services (p : Nat) (f : Part → Part) : (s.modPart p f).services = s.services := rfl
@[simp] theorem State.modPart_groups (p : Nat) (f : Part → Part) : (s.modPart p f).groups = s.groups := rfl
@[simp] theorem State.modPart_names (p : Nat) (f : Part → Part) : (s.modPart p f).names = s.names := rfl
@[simp] theorem State.modPart_peers (p : Nat) (f : Part → Part) : (s.modPart p f).peers = s.peers := rfl
@[simp] theorem State.modPart_gangs (p : Nat) (f : Part → Part) : (s.modPart p f).gangs = s.gangs := rfl
@[simp] theorem State.modPart_frames (p : Nat) (f : Part → Part) : (s.modPart p f).frames = s.frames := rfl
@[simp] theorem State.modPart_answers (p : Nat) (f : Part → Part) : (s.modPart p f).answers = s.answers := rfl
@[simp] theorem State.modPart_heldTags (p : Nat) (f : Part → Part) : (s.modPart p f).heldTags = s.heldTags := rfl
@[simp] theorem State.modPart_killed (p : Nat) (f : Part → Part) : (s.modPart p f).killed = s.killed := rfl
@[simp] theorem State.modPart_psel (p : Nat) (f : Part → Part) : (s.modPart p f).psel = s.psel := rfl
@[simp] theorem State.modPart_fence (p : Nat) (f : Part → Part) : (s.modPart p f).fence = s.fence := rfl
@[simp] theorem State.modPart_lnkSel (p : Nat) (f : Part → Part) : (s.modPart p f).lnkSel = s.lnkSel := rfl
@[simp] theorem State.modPart_lnkErr (p : Nat) (f : Part → Part) : (s.modPart p f).lnkErr = s.lnkErr := rfl
@[simp] theorem State.modPart_tsl (p : Nat) (f : Part → Part) : (s.modPart p f).tsl = s.tsl := rfl
@[simp] theorem State.modPart_tidecfg (p : Nat) (f : Part → Part) : (s.modPart p f).tidecfg = s.tidecfg := rfl
@[simp] theorem State.modPart_rtbase (p : Nat) (f : Part → Part) : (s.modPart p f).rtbase = s.rtbase := rfl
@[simp] theorem State.modPart_peerSel (p : Nat) (f : Part → Part) : (s.modPart p f).peerSel = s.peerSel := rfl
@[simp] theorem State.modPart_host (p : Nat) (f : Part → Part) : (s.modPart p f).host = s.host := rfl
@[simp] theorem State.modPart_now (p : Nat) (f : Part → Part) : (s.modPart p f).now = s.now := rfl
@[simp] theorem State.modPart_turns (p : Nat) (f : Part → Part) : (s.modPart p f).turns = s.turns := rfl
@[simp] theorem State.modPart_tick (p : Nat) (f : Part → Part) : (s.modPart p f).tick = s.tick := rfl
@[simp] theorem State.modPart_nextTid (p : Nat) (f : Part → Part) : (s.modPart p f).nextTid = s.nextTid := rfl
@[simp] theorem State.modPart_nextUid (p : Nat) (f : Part → Part) : (s.modPart p f).nextUid = s.nextUid := rfl
@[simp] theorem State.modPart_cur (p : Nat) (f : Part → Part) : (s.modPart p f).cur = s.cur := rfl
@[simp] theorem State.modPart_sched (p : Nat) (f : Part → Part) : (s.modPart p f).sched = s.sched := rfl

@[simp] theorem State.modQueue_mem (p q : Nat) (f : LaunchQueue → LaunchQueue) : (s.modQueue p q f).mem = s.mem := rfl
@[simp] theorem State.modQueue_stores (p q : Nat) (f : LaunchQueue → LaunchQueue) : (s.modQueue p q f).stores = s.stores := rfl
@[simp] theorem State.modQueue_rewritten (p q : Nat) (f : LaunchQueue → LaunchQueue) : (s.modQueue p q f).rewritten = s.rewritten := rfl
@[simp] theorem State.modQueue_stale (p q : Nat) (f : LaunchQueue → LaunchQueue) : (s.modQueue p q f).stale = s.stale := rfl
@[simp] theorem State.modQueue_poison (p q : Nat) (f : LaunchQueue → LaunchQueue) : (s.modQueue p q f).poison = s.poison := rfl
@[simp] theorem State.modQueue_hbmBad (p q : Nat) (f : LaunchQueue → LaunchQueue) : (s.modQueue p q f).hbmBad = s.hbmBad := rfl
@[simp] theorem State.modQueue_hbmMet (p q : Nat) (f : LaunchQueue → LaunchQueue) : (s.modQueue p q f).hbmMet = s.hbmMet := rfl
@[simp] theorem State.modQueue_cores (p q : Nat) (f : LaunchQueue → LaunchQueue) : (s.modQueue p q f).cores = s.cores := rfl
@[simp] theorem State.modQueue_coves (p q : Nat) (f : LaunchQueue → LaunchQueue) : (s.modQueue p q f).coves = s.coves := rfl
@[simp] theorem State.modQueue_dies (p q : Nat) (f : LaunchQueue → LaunchQueue) : (s.modQueue p q f).dies = s.dies := rfl
@[simp] theorem State.modQueue_coh (p q : Nat) (f : LaunchQueue → LaunchQueue) : (s.modQueue p q f).coh = s.coh := rfl
@[simp] theorem State.modQueue_hostLines (p q : Nat) (f : LaunchQueue → LaunchQueue) : (s.modQueue p q f).hostLines = s.hostLines := rfl
@[simp] theorem State.modQueue_ports (p q : Nat) (f : LaunchQueue → LaunchQueue) : (s.modQueue p q f).ports = s.ports := rfl
@[simp] theorem State.modQueue_links (p q : Nat) (f : LaunchQueue → LaunchQueue) : (s.modQueue p q f).links = s.links := rfl
@[simp] theorem State.modQueue_unacked (p q : Nat) (f : LaunchQueue → LaunchQueue) : (s.modQueue p q f).unacked = s.unacked := rfl
@[simp] theorem State.modQueue_tideIn (p q : Nat) (f : LaunchQueue → LaunchQueue) : (s.modQueue p q f).tideIn = s.tideIn := rfl
@[simp] theorem State.modQueue_tideOut (p q : Nat) (f : LaunchQueue → LaunchQueue) : (s.modQueue p q f).tideOut = s.tideOut := rfl
@[simp] theorem State.modQueue_stranded (p q : Nat) (f : LaunchQueue → LaunchQueue) : (s.modQueue p q f).stranded = s.stranded := rfl
@[simp] theorem State.modQueue_replays (p q : Nat) (f : LaunchQueue → LaunchQueue) : (s.modQueue p q f).replays = s.replays := rfl
@[simp] theorem State.modQueue_chunks (p q : Nat) (f : LaunchQueue → LaunchQueue) : (s.modQueue p q f).chunks = s.chunks := rfl
@[simp] theorem State.modQueue_chunksOut (p q : Nat) (f : LaunchQueue → LaunchQueue) : (s.modQueue p q f).chunksOut = s.chunksOut := rfl
@[simp] theorem State.modQueue_chunkPorts (p q : Nat) (f : LaunchQueue → LaunchQueue) : (s.modQueue p q f).chunkPorts = s.chunkPorts := rfl
@[simp] theorem State.modQueue_ships (p q : Nat) (f : LaunchQueue → LaunchQueue) : (s.modQueue p q f).ships = s.ships := rfl
@[simp] theorem State.modQueue_blocks (p q : Nat) (f : LaunchQueue → LaunchQueue) : (s.modQueue p q f).blocks = s.blocks := rfl
@[simp] theorem State.modQueue_services (p q : Nat) (f : LaunchQueue → LaunchQueue) : (s.modQueue p q f).services = s.services := rfl
@[simp] theorem State.modQueue_groups (p q : Nat) (f : LaunchQueue → LaunchQueue) : (s.modQueue p q f).groups = s.groups := rfl
@[simp] theorem State.modQueue_names (p q : Nat) (f : LaunchQueue → LaunchQueue) : (s.modQueue p q f).names = s.names := rfl
@[simp] theorem State.modQueue_peers (p q : Nat) (f : LaunchQueue → LaunchQueue) : (s.modQueue p q f).peers = s.peers := rfl
@[simp] theorem State.modQueue_gangs (p q : Nat) (f : LaunchQueue → LaunchQueue) : (s.modQueue p q f).gangs = s.gangs := rfl
@[simp] theorem State.modQueue_frames (p q : Nat) (f : LaunchQueue → LaunchQueue) : (s.modQueue p q f).frames = s.frames := rfl
@[simp] theorem State.modQueue_answers (p q : Nat) (f : LaunchQueue → LaunchQueue) : (s.modQueue p q f).answers = s.answers := rfl
@[simp] theorem State.modQueue_heldTags (p q : Nat) (f : LaunchQueue → LaunchQueue) : (s.modQueue p q f).heldTags = s.heldTags := rfl
@[simp] theorem State.modQueue_killed (p q : Nat) (f : LaunchQueue → LaunchQueue) : (s.modQueue p q f).killed = s.killed := rfl
@[simp] theorem State.modQueue_psel (p q : Nat) (f : LaunchQueue → LaunchQueue) : (s.modQueue p q f).psel = s.psel := rfl
@[simp] theorem State.modQueue_fence (p q : Nat) (f : LaunchQueue → LaunchQueue) : (s.modQueue p q f).fence = s.fence := rfl
@[simp] theorem State.modQueue_lnkSel (p q : Nat) (f : LaunchQueue → LaunchQueue) : (s.modQueue p q f).lnkSel = s.lnkSel := rfl
@[simp] theorem State.modQueue_lnkErr (p q : Nat) (f : LaunchQueue → LaunchQueue) : (s.modQueue p q f).lnkErr = s.lnkErr := rfl
@[simp] theorem State.modQueue_tsl (p q : Nat) (f : LaunchQueue → LaunchQueue) : (s.modQueue p q f).tsl = s.tsl := rfl
@[simp] theorem State.modQueue_tidecfg (p q : Nat) (f : LaunchQueue → LaunchQueue) : (s.modQueue p q f).tidecfg = s.tidecfg := rfl
@[simp] theorem State.modQueue_rtbase (p q : Nat) (f : LaunchQueue → LaunchQueue) : (s.modQueue p q f).rtbase = s.rtbase := rfl
@[simp] theorem State.modQueue_peerSel (p q : Nat) (f : LaunchQueue → LaunchQueue) : (s.modQueue p q f).peerSel = s.peerSel := rfl
@[simp] theorem State.modQueue_host (p q : Nat) (f : LaunchQueue → LaunchQueue) : (s.modQueue p q f).host = s.host := rfl
@[simp] theorem State.modQueue_now (p q : Nat) (f : LaunchQueue → LaunchQueue) : (s.modQueue p q f).now = s.now := rfl
@[simp] theorem State.modQueue_turns (p q : Nat) (f : LaunchQueue → LaunchQueue) : (s.modQueue p q f).turns = s.turns := rfl
@[simp] theorem State.modQueue_tick (p q : Nat) (f : LaunchQueue → LaunchQueue) : (s.modQueue p q f).tick = s.tick := rfl
@[simp] theorem State.modQueue_nextTid (p q : Nat) (f : LaunchQueue → LaunchQueue) : (s.modQueue p q f).nextTid = s.nextTid := rfl
@[simp] theorem State.modQueue_nextUid (p q : Nat) (f : LaunchQueue → LaunchQueue) : (s.modQueue p q f).nextUid = s.nextUid := rfl
@[simp] theorem State.modQueue_cur (p q : Nat) (f : LaunchQueue → LaunchQueue) : (s.modQueue p q f).cur = s.cur := rfl
@[simp] theorem State.modQueue_sched (p q : Nat) (f : LaunchQueue → LaunchQueue) : (s.modQueue p q f).sched = s.sched := rfl

@[simp] theorem State.setTask_mem (t : Task) : (s.setTask t).mem = s.mem := rfl
@[simp] theorem State.setTask_stores (t : Task) : (s.setTask t).stores = s.stores := rfl
@[simp] theorem State.setTask_rewritten (t : Task) : (s.setTask t).rewritten = s.rewritten := rfl
@[simp] theorem State.setTask_stale (t : Task) : (s.setTask t).stale = s.stale := rfl
@[simp] theorem State.setTask_poison (t : Task) : (s.setTask t).poison = s.poison := rfl
@[simp] theorem State.setTask_hbmBad (t : Task) : (s.setTask t).hbmBad = s.hbmBad := rfl
@[simp] theorem State.setTask_hbmMet (t : Task) : (s.setTask t).hbmMet = s.hbmMet := rfl
@[simp] theorem State.setTask_coves (t : Task) : (s.setTask t).coves = s.coves := rfl
@[simp] theorem State.setTask_dies (t : Task) : (s.setTask t).dies = s.dies := rfl
@[simp] theorem State.setTask_parts (t : Task) : (s.setTask t).parts = s.parts := rfl
@[simp] theorem State.setTask_coh (t : Task) : (s.setTask t).coh = s.coh := rfl
@[simp] theorem State.setTask_hostLines (t : Task) : (s.setTask t).hostLines = s.hostLines := rfl
@[simp] theorem State.setTask_ports (t : Task) : (s.setTask t).ports = s.ports := rfl
@[simp] theorem State.setTask_links (t : Task) : (s.setTask t).links = s.links := rfl
@[simp] theorem State.setTask_unacked (t : Task) : (s.setTask t).unacked = s.unacked := rfl
@[simp] theorem State.setTask_tideIn (t : Task) : (s.setTask t).tideIn = s.tideIn := rfl
@[simp] theorem State.setTask_tideOut (t : Task) : (s.setTask t).tideOut = s.tideOut := rfl
@[simp] theorem State.setTask_stranded (t : Task) : (s.setTask t).stranded = s.stranded := rfl
@[simp] theorem State.setTask_replays (t : Task) : (s.setTask t).replays = s.replays := rfl
@[simp] theorem State.setTask_chunks (t : Task) : (s.setTask t).chunks = s.chunks := rfl
@[simp] theorem State.setTask_chunksOut (t : Task) : (s.setTask t).chunksOut = s.chunksOut := rfl
@[simp] theorem State.setTask_chunkPorts (t : Task) : (s.setTask t).chunkPorts = s.chunkPorts := rfl
@[simp] theorem State.setTask_ships (t : Task) : (s.setTask t).ships = s.ships := rfl
@[simp] theorem State.setTask_blocks (t : Task) : (s.setTask t).blocks = s.blocks := rfl
@[simp] theorem State.setTask_services (t : Task) : (s.setTask t).services = s.services := rfl
@[simp] theorem State.setTask_groups (t : Task) : (s.setTask t).groups = s.groups := rfl
@[simp] theorem State.setTask_names (t : Task) : (s.setTask t).names = s.names := rfl
@[simp] theorem State.setTask_peers (t : Task) : (s.setTask t).peers = s.peers := rfl
@[simp] theorem State.setTask_gangs (t : Task) : (s.setTask t).gangs = s.gangs := rfl
@[simp] theorem State.setTask_frames (t : Task) : (s.setTask t).frames = s.frames := rfl
@[simp] theorem State.setTask_answers (t : Task) : (s.setTask t).answers = s.answers := rfl
@[simp] theorem State.setTask_heldTags (t : Task) : (s.setTask t).heldTags = s.heldTags := rfl
@[simp] theorem State.setTask_killed (t : Task) : (s.setTask t).killed = s.killed := rfl
@[simp] theorem State.setTask_psel (t : Task) : (s.setTask t).psel = s.psel := rfl
@[simp] theorem State.setTask_fence (t : Task) : (s.setTask t).fence = s.fence := rfl
@[simp] theorem State.setTask_lnkSel (t : Task) : (s.setTask t).lnkSel = s.lnkSel := rfl
@[simp] theorem State.setTask_lnkErr (t : Task) : (s.setTask t).lnkErr = s.lnkErr := rfl
@[simp] theorem State.setTask_tsl (t : Task) : (s.setTask t).tsl = s.tsl := rfl
@[simp] theorem State.setTask_tidecfg (t : Task) : (s.setTask t).tidecfg = s.tidecfg := rfl
@[simp] theorem State.setTask_rtbase (t : Task) : (s.setTask t).rtbase = s.rtbase := rfl
@[simp] theorem State.setTask_peerSel (t : Task) : (s.setTask t).peerSel = s.peerSel := rfl
@[simp] theorem State.setTask_host (t : Task) : (s.setTask t).host = s.host := rfl
@[simp] theorem State.setTask_now (t : Task) : (s.setTask t).now = s.now := rfl
@[simp] theorem State.setTask_turns (t : Task) : (s.setTask t).turns = s.turns := rfl
@[simp] theorem State.setTask_tick (t : Task) : (s.setTask t).tick = s.tick := rfl
@[simp] theorem State.setTask_nextTid (t : Task) : (s.setTask t).nextTid = s.nextTid := rfl
@[simp] theorem State.setTask_nextUid (t : Task) : (s.setTask t).nextUid = s.nextUid := rfl
@[simp] theorem State.setTask_cur (t : Task) : (s.setTask t).cur = s.cur := rfl
@[simp] theorem State.setTask_sched (t : Task) : (s.setTask t).sched = s.sched := rfl

@[simp] theorem State.modTask_mem (f : Task → Task) : (s.modTask f).mem = s.mem := rfl
@[simp] theorem State.modTask_stores (f : Task → Task) : (s.modTask f).stores = s.stores := rfl
@[simp] theorem State.modTask_rewritten (f : Task → Task) : (s.modTask f).rewritten = s.rewritten := rfl
@[simp] theorem State.modTask_stale (f : Task → Task) : (s.modTask f).stale = s.stale := rfl
@[simp] theorem State.modTask_poison (f : Task → Task) : (s.modTask f).poison = s.poison := rfl
@[simp] theorem State.modTask_hbmBad (f : Task → Task) : (s.modTask f).hbmBad = s.hbmBad := rfl
@[simp] theorem State.modTask_hbmMet (f : Task → Task) : (s.modTask f).hbmMet = s.hbmMet := rfl
@[simp] theorem State.modTask_coves (f : Task → Task) : (s.modTask f).coves = s.coves := rfl
@[simp] theorem State.modTask_dies (f : Task → Task) : (s.modTask f).dies = s.dies := rfl
@[simp] theorem State.modTask_parts (f : Task → Task) : (s.modTask f).parts = s.parts := rfl
@[simp] theorem State.modTask_coh (f : Task → Task) : (s.modTask f).coh = s.coh := rfl
@[simp] theorem State.modTask_hostLines (f : Task → Task) : (s.modTask f).hostLines = s.hostLines := rfl
@[simp] theorem State.modTask_ports (f : Task → Task) : (s.modTask f).ports = s.ports := rfl
@[simp] theorem State.modTask_links (f : Task → Task) : (s.modTask f).links = s.links := rfl
@[simp] theorem State.modTask_unacked (f : Task → Task) : (s.modTask f).unacked = s.unacked := rfl
@[simp] theorem State.modTask_tideIn (f : Task → Task) : (s.modTask f).tideIn = s.tideIn := rfl
@[simp] theorem State.modTask_tideOut (f : Task → Task) : (s.modTask f).tideOut = s.tideOut := rfl
@[simp] theorem State.modTask_stranded (f : Task → Task) : (s.modTask f).stranded = s.stranded := rfl
@[simp] theorem State.modTask_replays (f : Task → Task) : (s.modTask f).replays = s.replays := rfl
@[simp] theorem State.modTask_chunks (f : Task → Task) : (s.modTask f).chunks = s.chunks := rfl
@[simp] theorem State.modTask_chunksOut (f : Task → Task) : (s.modTask f).chunksOut = s.chunksOut := rfl
@[simp] theorem State.modTask_chunkPorts (f : Task → Task) : (s.modTask f).chunkPorts = s.chunkPorts := rfl
@[simp] theorem State.modTask_ships (f : Task → Task) : (s.modTask f).ships = s.ships := rfl
@[simp] theorem State.modTask_blocks (f : Task → Task) : (s.modTask f).blocks = s.blocks := rfl
@[simp] theorem State.modTask_services (f : Task → Task) : (s.modTask f).services = s.services := rfl
@[simp] theorem State.modTask_groups (f : Task → Task) : (s.modTask f).groups = s.groups := rfl
@[simp] theorem State.modTask_names (f : Task → Task) : (s.modTask f).names = s.names := rfl
@[simp] theorem State.modTask_peers (f : Task → Task) : (s.modTask f).peers = s.peers := rfl
@[simp] theorem State.modTask_gangs (f : Task → Task) : (s.modTask f).gangs = s.gangs := rfl
@[simp] theorem State.modTask_frames (f : Task → Task) : (s.modTask f).frames = s.frames := rfl
@[simp] theorem State.modTask_answers (f : Task → Task) : (s.modTask f).answers = s.answers := rfl
@[simp] theorem State.modTask_heldTags (f : Task → Task) : (s.modTask f).heldTags = s.heldTags := rfl
@[simp] theorem State.modTask_killed (f : Task → Task) : (s.modTask f).killed = s.killed := rfl
@[simp] theorem State.modTask_psel (f : Task → Task) : (s.modTask f).psel = s.psel := rfl
@[simp] theorem State.modTask_fence (f : Task → Task) : (s.modTask f).fence = s.fence := rfl
@[simp] theorem State.modTask_lnkSel (f : Task → Task) : (s.modTask f).lnkSel = s.lnkSel := rfl
@[simp] theorem State.modTask_lnkErr (f : Task → Task) : (s.modTask f).lnkErr = s.lnkErr := rfl
@[simp] theorem State.modTask_tsl (f : Task → Task) : (s.modTask f).tsl = s.tsl := rfl
@[simp] theorem State.modTask_tidecfg (f : Task → Task) : (s.modTask f).tidecfg = s.tidecfg := rfl
@[simp] theorem State.modTask_rtbase (f : Task → Task) : (s.modTask f).rtbase = s.rtbase := rfl
@[simp] theorem State.modTask_peerSel (f : Task → Task) : (s.modTask f).peerSel = s.peerSel := rfl
@[simp] theorem State.modTask_host (f : Task → Task) : (s.modTask f).host = s.host := rfl
@[simp] theorem State.modTask_now (f : Task → Task) : (s.modTask f).now = s.now := rfl
@[simp] theorem State.modTask_turns (f : Task → Task) : (s.modTask f).turns = s.turns := rfl
@[simp] theorem State.modTask_tick (f : Task → Task) : (s.modTask f).tick = s.tick := rfl
@[simp] theorem State.modTask_nextTid (f : Task → Task) : (s.modTask f).nextTid = s.nextTid := rfl
@[simp] theorem State.modTask_nextUid (f : Task → Task) : (s.modTask f).nextUid = s.nextUid := rfl
@[simp] theorem State.modTask_cur (f : Task → Task) : (s.modTask f).cur = s.cur := rfl
@[simp] theorem State.modTask_sched (f : Task → Task) : (s.modTask f).sched = s.sched := rfl

@[simp] theorem State.wg_mem (i : BitVec 5) (v : Word) : (s.wg i v).mem = s.mem := rfl
@[simp] theorem State.wg_stores (i : BitVec 5) (v : Word) : (s.wg i v).stores = s.stores := rfl
@[simp] theorem State.wg_rewritten (i : BitVec 5) (v : Word) : (s.wg i v).rewritten = s.rewritten := rfl
@[simp] theorem State.wg_stale (i : BitVec 5) (v : Word) : (s.wg i v).stale = s.stale := rfl
@[simp] theorem State.wg_poison (i : BitVec 5) (v : Word) : (s.wg i v).poison = s.poison := rfl
@[simp] theorem State.wg_hbmBad (i : BitVec 5) (v : Word) : (s.wg i v).hbmBad = s.hbmBad := rfl
@[simp] theorem State.wg_hbmMet (i : BitVec 5) (v : Word) : (s.wg i v).hbmMet = s.hbmMet := rfl
@[simp] theorem State.wg_coves (i : BitVec 5) (v : Word) : (s.wg i v).coves = s.coves := rfl
@[simp] theorem State.wg_dies (i : BitVec 5) (v : Word) : (s.wg i v).dies = s.dies := rfl
@[simp] theorem State.wg_parts (i : BitVec 5) (v : Word) : (s.wg i v).parts = s.parts := rfl
@[simp] theorem State.wg_coh (i : BitVec 5) (v : Word) : (s.wg i v).coh = s.coh := rfl
@[simp] theorem State.wg_hostLines (i : BitVec 5) (v : Word) : (s.wg i v).hostLines = s.hostLines := rfl
@[simp] theorem State.wg_ports (i : BitVec 5) (v : Word) : (s.wg i v).ports = s.ports := rfl
@[simp] theorem State.wg_links (i : BitVec 5) (v : Word) : (s.wg i v).links = s.links := rfl
@[simp] theorem State.wg_unacked (i : BitVec 5) (v : Word) : (s.wg i v).unacked = s.unacked := rfl
@[simp] theorem State.wg_tideIn (i : BitVec 5) (v : Word) : (s.wg i v).tideIn = s.tideIn := rfl
@[simp] theorem State.wg_tideOut (i : BitVec 5) (v : Word) : (s.wg i v).tideOut = s.tideOut := rfl
@[simp] theorem State.wg_stranded (i : BitVec 5) (v : Word) : (s.wg i v).stranded = s.stranded := rfl
@[simp] theorem State.wg_replays (i : BitVec 5) (v : Word) : (s.wg i v).replays = s.replays := rfl
@[simp] theorem State.wg_chunks (i : BitVec 5) (v : Word) : (s.wg i v).chunks = s.chunks := rfl
@[simp] theorem State.wg_chunksOut (i : BitVec 5) (v : Word) : (s.wg i v).chunksOut = s.chunksOut := rfl
@[simp] theorem State.wg_chunkPorts (i : BitVec 5) (v : Word) : (s.wg i v).chunkPorts = s.chunkPorts := rfl
@[simp] theorem State.wg_ships (i : BitVec 5) (v : Word) : (s.wg i v).ships = s.ships := rfl
@[simp] theorem State.wg_blocks (i : BitVec 5) (v : Word) : (s.wg i v).blocks = s.blocks := rfl
@[simp] theorem State.wg_services (i : BitVec 5) (v : Word) : (s.wg i v).services = s.services := rfl
@[simp] theorem State.wg_groups (i : BitVec 5) (v : Word) : (s.wg i v).groups = s.groups := rfl
@[simp] theorem State.wg_names (i : BitVec 5) (v : Word) : (s.wg i v).names = s.names := rfl
@[simp] theorem State.wg_peers (i : BitVec 5) (v : Word) : (s.wg i v).peers = s.peers := rfl
@[simp] theorem State.wg_gangs (i : BitVec 5) (v : Word) : (s.wg i v).gangs = s.gangs := rfl
@[simp] theorem State.wg_frames (i : BitVec 5) (v : Word) : (s.wg i v).frames = s.frames := rfl
@[simp] theorem State.wg_answers (i : BitVec 5) (v : Word) : (s.wg i v).answers = s.answers := rfl
@[simp] theorem State.wg_heldTags (i : BitVec 5) (v : Word) : (s.wg i v).heldTags = s.heldTags := rfl
@[simp] theorem State.wg_killed (i : BitVec 5) (v : Word) : (s.wg i v).killed = s.killed := rfl
@[simp] theorem State.wg_psel (i : BitVec 5) (v : Word) : (s.wg i v).psel = s.psel := rfl
@[simp] theorem State.wg_fence (i : BitVec 5) (v : Word) : (s.wg i v).fence = s.fence := rfl
@[simp] theorem State.wg_lnkSel (i : BitVec 5) (v : Word) : (s.wg i v).lnkSel = s.lnkSel := rfl
@[simp] theorem State.wg_lnkErr (i : BitVec 5) (v : Word) : (s.wg i v).lnkErr = s.lnkErr := rfl
@[simp] theorem State.wg_tsl (i : BitVec 5) (v : Word) : (s.wg i v).tsl = s.tsl := rfl
@[simp] theorem State.wg_tidecfg (i : BitVec 5) (v : Word) : (s.wg i v).tidecfg = s.tidecfg := rfl
@[simp] theorem State.wg_rtbase (i : BitVec 5) (v : Word) : (s.wg i v).rtbase = s.rtbase := rfl
@[simp] theorem State.wg_peerSel (i : BitVec 5) (v : Word) : (s.wg i v).peerSel = s.peerSel := rfl
@[simp] theorem State.wg_host (i : BitVec 5) (v : Word) : (s.wg i v).host = s.host := rfl
@[simp] theorem State.wg_now (i : BitVec 5) (v : Word) : (s.wg i v).now = s.now := rfl
@[simp] theorem State.wg_turns (i : BitVec 5) (v : Word) : (s.wg i v).turns = s.turns := rfl
@[simp] theorem State.wg_tick (i : BitVec 5) (v : Word) : (s.wg i v).tick = s.tick := rfl
@[simp] theorem State.wg_nextTid (i : BitVec 5) (v : Word) : (s.wg i v).nextTid = s.nextTid := rfl
@[simp] theorem State.wg_nextUid (i : BitVec 5) (v : Word) : (s.wg i v).nextUid = s.nextUid := rfl
@[simp] theorem State.wg_cur (i : BitVec 5) (v : Word) : (s.wg i v).cur = s.cur := rfl
@[simp] theorem State.wg_sched (i : BitVec 5) (v : Word) : (s.wg i v).sched = s.sched := rfl

@[simp] theorem State.modBlock_mem (u : Nat) (f : Block → Block) : (s.modBlock u f).mem = s.mem := by
  unfold State.modBlock; split <;> rfl
@[simp] theorem State.modBlock_stores (u : Nat) (f : Block → Block) : (s.modBlock u f).stores = s.stores := by
  unfold State.modBlock; split <;> rfl
@[simp] theorem State.modBlock_rewritten (u : Nat) (f : Block → Block) : (s.modBlock u f).rewritten = s.rewritten := by
  unfold State.modBlock; split <;> rfl
@[simp] theorem State.modBlock_stale (u : Nat) (f : Block → Block) : (s.modBlock u f).stale = s.stale := by
  unfold State.modBlock; split <;> rfl
@[simp] theorem State.modBlock_poison (u : Nat) (f : Block → Block) : (s.modBlock u f).poison = s.poison := by
  unfold State.modBlock; split <;> rfl
@[simp] theorem State.modBlock_hbmBad (u : Nat) (f : Block → Block) : (s.modBlock u f).hbmBad = s.hbmBad := by
  unfold State.modBlock; split <;> rfl
@[simp] theorem State.modBlock_hbmMet (u : Nat) (f : Block → Block) : (s.modBlock u f).hbmMet = s.hbmMet := by
  unfold State.modBlock; split <;> rfl
@[simp] theorem State.modBlock_cores (u : Nat) (f : Block → Block) : (s.modBlock u f).cores = s.cores := by
  unfold State.modBlock; split <;> rfl
@[simp] theorem State.modBlock_coves (u : Nat) (f : Block → Block) : (s.modBlock u f).coves = s.coves := by
  unfold State.modBlock; split <;> rfl
@[simp] theorem State.modBlock_dies (u : Nat) (f : Block → Block) : (s.modBlock u f).dies = s.dies := by
  unfold State.modBlock; split <;> rfl
@[simp] theorem State.modBlock_parts (u : Nat) (f : Block → Block) : (s.modBlock u f).parts = s.parts := by
  unfold State.modBlock; split <;> rfl
@[simp] theorem State.modBlock_coh (u : Nat) (f : Block → Block) : (s.modBlock u f).coh = s.coh := by
  unfold State.modBlock; split <;> rfl
@[simp] theorem State.modBlock_hostLines (u : Nat) (f : Block → Block) : (s.modBlock u f).hostLines = s.hostLines := by
  unfold State.modBlock; split <;> rfl
@[simp] theorem State.modBlock_ports (u : Nat) (f : Block → Block) : (s.modBlock u f).ports = s.ports := by
  unfold State.modBlock; split <;> rfl
@[simp] theorem State.modBlock_links (u : Nat) (f : Block → Block) : (s.modBlock u f).links = s.links := by
  unfold State.modBlock; split <;> rfl
@[simp] theorem State.modBlock_unacked (u : Nat) (f : Block → Block) : (s.modBlock u f).unacked = s.unacked := by
  unfold State.modBlock; split <;> rfl
@[simp] theorem State.modBlock_tideIn (u : Nat) (f : Block → Block) : (s.modBlock u f).tideIn = s.tideIn := by
  unfold State.modBlock; split <;> rfl
@[simp] theorem State.modBlock_tideOut (u : Nat) (f : Block → Block) : (s.modBlock u f).tideOut = s.tideOut := by
  unfold State.modBlock; split <;> rfl
@[simp] theorem State.modBlock_stranded (u : Nat) (f : Block → Block) : (s.modBlock u f).stranded = s.stranded := by
  unfold State.modBlock; split <;> rfl
@[simp] theorem State.modBlock_replays (u : Nat) (f : Block → Block) : (s.modBlock u f).replays = s.replays := by
  unfold State.modBlock; split <;> rfl
@[simp] theorem State.modBlock_chunks (u : Nat) (f : Block → Block) : (s.modBlock u f).chunks = s.chunks := by
  unfold State.modBlock; split <;> rfl
@[simp] theorem State.modBlock_chunksOut (u : Nat) (f : Block → Block) : (s.modBlock u f).chunksOut = s.chunksOut := by
  unfold State.modBlock; split <;> rfl
@[simp] theorem State.modBlock_chunkPorts (u : Nat) (f : Block → Block) : (s.modBlock u f).chunkPorts = s.chunkPorts := by
  unfold State.modBlock; split <;> rfl
@[simp] theorem State.modBlock_ships (u : Nat) (f : Block → Block) : (s.modBlock u f).ships = s.ships := by
  unfold State.modBlock; split <;> rfl
@[simp] theorem State.modBlock_services (u : Nat) (f : Block → Block) : (s.modBlock u f).services = s.services := by
  unfold State.modBlock; split <;> rfl
@[simp] theorem State.modBlock_groups (u : Nat) (f : Block → Block) : (s.modBlock u f).groups = s.groups := by
  unfold State.modBlock; split <;> rfl
@[simp] theorem State.modBlock_names (u : Nat) (f : Block → Block) : (s.modBlock u f).names = s.names := by
  unfold State.modBlock; split <;> rfl
@[simp] theorem State.modBlock_peers (u : Nat) (f : Block → Block) : (s.modBlock u f).peers = s.peers := by
  unfold State.modBlock; split <;> rfl
@[simp] theorem State.modBlock_gangs (u : Nat) (f : Block → Block) : (s.modBlock u f).gangs = s.gangs := by
  unfold State.modBlock; split <;> rfl
@[simp] theorem State.modBlock_frames (u : Nat) (f : Block → Block) : (s.modBlock u f).frames = s.frames := by
  unfold State.modBlock; split <;> rfl
@[simp] theorem State.modBlock_answers (u : Nat) (f : Block → Block) : (s.modBlock u f).answers = s.answers := by
  unfold State.modBlock; split <;> rfl
@[simp] theorem State.modBlock_heldTags (u : Nat) (f : Block → Block) : (s.modBlock u f).heldTags = s.heldTags := by
  unfold State.modBlock; split <;> rfl
@[simp] theorem State.modBlock_killed (u : Nat) (f : Block → Block) : (s.modBlock u f).killed = s.killed := by
  unfold State.modBlock; split <;> rfl
@[simp] theorem State.modBlock_psel (u : Nat) (f : Block → Block) : (s.modBlock u f).psel = s.psel := by
  unfold State.modBlock; split <;> rfl
@[simp] theorem State.modBlock_fence (u : Nat) (f : Block → Block) : (s.modBlock u f).fence = s.fence := by
  unfold State.modBlock; split <;> rfl
@[simp] theorem State.modBlock_lnkSel (u : Nat) (f : Block → Block) : (s.modBlock u f).lnkSel = s.lnkSel := by
  unfold State.modBlock; split <;> rfl
@[simp] theorem State.modBlock_lnkErr (u : Nat) (f : Block → Block) : (s.modBlock u f).lnkErr = s.lnkErr := by
  unfold State.modBlock; split <;> rfl
@[simp] theorem State.modBlock_tsl (u : Nat) (f : Block → Block) : (s.modBlock u f).tsl = s.tsl := by
  unfold State.modBlock; split <;> rfl
@[simp] theorem State.modBlock_tidecfg (u : Nat) (f : Block → Block) : (s.modBlock u f).tidecfg = s.tidecfg := by
  unfold State.modBlock; split <;> rfl
@[simp] theorem State.modBlock_rtbase (u : Nat) (f : Block → Block) : (s.modBlock u f).rtbase = s.rtbase := by
  unfold State.modBlock; split <;> rfl
@[simp] theorem State.modBlock_peerSel (u : Nat) (f : Block → Block) : (s.modBlock u f).peerSel = s.peerSel := by
  unfold State.modBlock; split <;> rfl
@[simp] theorem State.modBlock_host (u : Nat) (f : Block → Block) : (s.modBlock u f).host = s.host := by
  unfold State.modBlock; split <;> rfl
@[simp] theorem State.modBlock_now (u : Nat) (f : Block → Block) : (s.modBlock u f).now = s.now := by
  unfold State.modBlock; split <;> rfl
@[simp] theorem State.modBlock_turns (u : Nat) (f : Block → Block) : (s.modBlock u f).turns = s.turns := by
  unfold State.modBlock; split <;> rfl
@[simp] theorem State.modBlock_tick (u : Nat) (f : Block → Block) : (s.modBlock u f).tick = s.tick := by
  unfold State.modBlock; split <;> rfl
@[simp] theorem State.modBlock_nextTid (u : Nat) (f : Block → Block) : (s.modBlock u f).nextTid = s.nextTid := by
  unfold State.modBlock; split <;> rfl
@[simp] theorem State.modBlock_nextUid (u : Nat) (f : Block → Block) : (s.modBlock u f).nextUid = s.nextUid := by
  unfold State.modBlock; split <;> rfl
@[simp] theorem State.modBlock_cur (u : Nat) (f : Block → Block) : (s.modBlock u f).cur = s.cur := by
  unfold State.modBlock; split <;> rfl
@[simp] theorem State.modBlock_sched (u : Nat) (f : Block → Block) : (s.modBlock u f).sched = s.sched := by
  unfold State.modBlock; split <;> rfl

end Sys2Proof.Machine
end

