-- ==== Sys2Proof/Laws/Access.lean ====
section
/-! SUPPORT. The accessors after the updates: cores, coves, dies, partitions, the running task and its registers. -/

namespace Sys2Proof.Machine

variable (s : State)

@[simp] theorem coreAt_setCore_same (c : Nat) (k : Core) : (s.setCore c k).coreAt c = k := by
  simp [State.setCore, State.coreAt]

theorem coreAt_setCore_ne {c d : Nat} (k : Core) (h : d ≠ c) : (s.setCore c k).coreAt d = s.coreAt d := by
  simp [State.setCore, State.coreAt, tabGet_tabPut_ne _ _ _ h]

@[simp] theorem coreAt_modCore_same (c : Nat) (f : Core → Core) : (s.modCore c f).coreAt c = f (s.coreAt c) := by
  simp [State.modCore]

theorem coreAt_modCore_ne {c d : Nat} (f : Core → Core) (h : d ≠ c) : (s.modCore c f).coreAt d = s.coreAt d :=
  coreAt_setCore_ne s _ h

@[simp] theorem coveAt_modCove_same (v : Nat) (f : Cove → Cove) : (s.modCove v f).coveAt v = f (s.coveAt v) := by
  simp [State.modCove, State.coveAt]

theorem coveAt_modCove_ne {v w : Nat} (f : Cove → Cove) (h : w ≠ v) : (s.modCove v f).coveAt w = s.coveAt w := by
  simp [State.modCove, State.coveAt, tabGet_tabPut_ne _ _ _ h]

@[simp] theorem dieAt_modDie_same (d : Nat) (f : Die → Die) : (s.modDie d f).dieAt d = f (s.dieAt d) := by
  simp [State.modDie, State.dieAt]

theorem dieAt_modDie_ne {d e : Nat} (f : Die → Die) (h : e ≠ d) : (s.modDie d f).dieAt e = s.dieAt e := by
  simp [State.modDie, State.dieAt, tabGet_tabPut_ne _ _ _ h]

@[simp] theorem partAt_modPart_same (p : Nat) (f : Part → Part) : (s.modPart p f).partAt p = f (s.partAt p) := by
  simp [State.modPart, State.partAt]

theorem partAt_modPart_ne {p q : Nat} (f : Part → Part) (h : q ≠ p) : (s.modPart p f).partAt q = s.partAt q := by
  simp [State.modPart, State.partAt, tabGet_tabPut_ne _ _ _ h]

/-- Updates of one kind of table leave the other accessors as they were. -/
@[simp] theorem coreAt_modCove (v : Nat) (f : Cove → Cove) (c : Nat) : (s.modCove v f).coreAt c = s.coreAt c := rfl
@[simp] theorem coreAt_modDie (d : Nat) (f : Die → Die) (c : Nat) : (s.modDie d f).coreAt c = s.coreAt c := rfl
@[simp] theorem coreAt_modPart (p : Nat) (f : Part → Part) (c : Nat) : (s.modPart p f).coreAt c = s.coreAt c := rfl
@[simp] theorem coveAt_setCore (c : Nat) (k : Core) (v : Nat) : (s.setCore c k).coveAt v = s.coveAt v := rfl
@[simp] theorem coveAt_modCore (c : Nat) (f : Core → Core) (v : Nat) : (s.modCore c f).coveAt v = s.coveAt v := rfl
@[simp] theorem coveAt_modDie (d : Nat) (f : Die → Die) (v : Nat) : (s.modDie d f).coveAt v = s.coveAt v := rfl
@[simp] theorem coveAt_modPart (p : Nat) (f : Part → Part) (v : Nat) : (s.modPart p f).coveAt v = s.coveAt v := rfl
@[simp] theorem dieAt_setCore (c : Nat) (k : Core) (d : Nat) : (s.setCore c k).dieAt d = s.dieAt d := rfl
@[simp] theorem dieAt_modCore (c : Nat) (f : Core → Core) (d : Nat) : (s.modCore c f).dieAt d = s.dieAt d := rfl
@[simp] theorem dieAt_modCove (v : Nat) (f : Cove → Cove) (d : Nat) : (s.modCove v f).dieAt d = s.dieAt d := rfl
@[simp] theorem dieAt_modPart (p : Nat) (f : Part → Part) (d : Nat) : (s.modPart p f).dieAt d = s.dieAt d := rfl
@[simp] theorem partAt_setCore (c : Nat) (k : Core) (p : Nat) : (s.setCore c k).partAt p = s.partAt p := rfl
@[simp] theorem partAt_modCore (c : Nat) (f : Core → Core) (p : Nat) : (s.modCore c f).partAt p = s.partAt p := rfl
@[simp] theorem partAt_modCove (v : Nat) (f : Cove → Cove) (p : Nat) : (s.modCove v f).partAt p = s.partAt p := rfl
@[simp] theorem partAt_modDie (d : Nat) (f : Die → Die) (p : Nat) : (s.modDie d f).partAt p = s.partAt p := rfl

/-- A task replaced: the core that holds it. -/
theorem setTask_eq (t : Task) : s.setTask t = s.setCore s.cur.core ((s.coreAt s.cur.core).setBank s.urgent t) := rfl

@[simp] theorem coreAt_setTask (t : Task) : (s.setTask t).coreAt s.cur.core = (s.coreAt s.cur.core).setBank s.urgent t := by
  simp [State.setTask]

@[simp] theorem bank_setBank (k : Core) (u : Bool) (t : Task) : (k.setBank u t).bank u = t := by
  cases u <;> rfl

theorem setBank_setBank (k : Core) (u : Bool) (t t' : Task) : (k.setBank u t).setBank u t' = k.setBank u t' := by
  cases u <;> rfl

/-- A change of the running task that keeps its status keeps which bank runs. -/
theorem urgent_setTask {t : Task} (h : t.status = s.task.status) : (s.setTask t).urgent = s.urgent := by
  unfold State.urgent
  rw [State.setTask_cur, coreAt_setTask]
  cases hu : s.urgent
  · simp [Core.setBank]
  · simp only [Core.setBank, if_true]
    simp only [State.task, hu, if_true] at h
    rw [h]

theorem task_setTask {t : Task} (h : t.status = s.task.status) : (s.setTask t).task = t := by
  unfold State.task
  rw [urgent_setTask s h, State.setTask_cur, coreAt_setTask]
  cases s.urgent <;> rfl

theorem setCore_setCore (c : Nat) (k k' : Core) : (s.setCore c k).setCore c k' = s.setCore c k' := by
  simp [State.setCore]

theorem setTask_setTask {t : Task} (t' : Task) (h : t.status = s.task.status) : (s.setTask t).setTask t' = s.setTask t' := by
  rw [setTask_eq (s.setTask t), urgent_setTask s h, State.setTask_cur, coreAt_setTask, setBank_setBank, setTask_eq, setCore_setCore,
    ← setTask_eq]

@[simp] theorem writeReg_status (t : Task) (a : Bool) (i : BitVec 5) (v : Word) : (t.writeReg a i v).status = t.status := by
  unfold Task.writeReg; split
  · rfl
  · split <;> rfl

@[simp] theorem writeReg_stepping (t : Task) (a : Bool) (i : BitVec 5) (v : Word) : (t.writeReg a i v).stepping = t.stepping := by
  unfold Task.writeReg; split
  · rfl
  · split <;> rfl

@[simp] theorem task_wg (i : BitVec 5) (v : Word) : (s.wg i v).task = s.task.writeReg s.cur.a i v :=
  task_setTask s (by simp)

@[simp] theorem urgent_wg (i : BitVec 5) (v : Word) : (s.wg i v).urgent = s.urgent := urgent_setTask s (by simp)

/-- The registers of E or A of a task. -/
def Task.regsOf (t : Task) (a : Bool) : Vector Word 32 := if a then t.a.g else t.g

theorem regs_eq : s.regs = s.task.regsOf s.cur.a := by
  unfold State.regs Task.regsOf; rfl

theorem writeReg_zero (t : Task) (a : Bool) (v : Word) : t.writeReg a 0 v = t := rfl

theorem writeReg_ne (t : Task) (a : Bool) {i : BitVec 5} (v : Word) (h : i ≠ 0) :
    t.writeReg a i v = if a then { t with a := { t.a with g := t.a.g.set i.toNat v i.isLt } }
      else { t with g := t.g.set i.toNat v i.isLt } := by
  unfold Task.writeReg
  rw [if_neg h]

theorem get_set_reg (g : Vector Word 32) (i j : BitVec 5) (v : Word) :
    (g.set i.toNat v i.isLt).get j.toFin = if j = i then v else g.get j.toFin := by
  have e : ∀ (x : Vector Word 32), x.get j.toFin = x[j.toNat]'j.isLt := fun _ => rfl
  rw [e, e, Vector.getElem_set]
  by_cases h : j = i
  · subst h
    simp
  · have hne : i.toNat ≠ j.toNat := fun e => h (BitVec.eq_of_toNat_eq e.symm)
    rw [if_neg h, if_neg hne]

/-- What a register reads after a write of a task's register. -/
theorem regsOf_writeReg (t : Task) (a : Bool) (i j : BitVec 5) (v : Word) (hj : j ≠ 0) :
    ((t.writeReg a i v).regsOf a).get j.toFin = if j = i then v else (t.regsOf a).get j.toFin := by
  by_cases hi : i = 0
  · subst hi
    rw [if_neg hj]
    rfl
  · rw [writeReg_ne t a v hi]
    cases a
    · exact get_set_reg t.g i j v
    · exact get_set_reg t.a.g i j v

end Sys2Proof.Machine
end

