-- ==== Sys2Proof/Laws/Issue.lean ====
section
/-! SUPPORT. The shared ends of the meanings: what an issue, an event and the completion of an instruction answer. -/

namespace Sys2Proof.Machine

variable {s t : State} {m : M Ctl} {e : M Unit} {cls : SpinClass} {len : Nat}

theorem issue_ok {ctl : Ctl} (h : m s = .ok ctl t) : issue cls len m s = .next (complete cls len ctl t) := by
  simp only [issue, h]

theorem issue_trap {c : Cause} (h : m s = .error (.trap c) t) :
    issue cls len m s = .next (takeTrap s.cur.core s.urgent { c with aSeq := s.cur.a } t) := by
  simp only [issue, h]

theorem issue_wait (h : m s = .error .wait t) : issue cls len m s = .next s := by
  simp only [issue, h]

theorem issue_stall (h : m s = .error .stall t) : issue cls len m s = .next t := by
  simp only [issue, h]

theorem issue_ship {l : Option Nat} {ea : Word} (h : m s = .error (.ship l ea) t) :
    issue cls len m s = .next (shipTask s.cur.core s.urgent l ea t) := by
  simp only [issue, h]

/-- An issue answers a next state or the fault of a physical address that is not there; it is never refused. -/
theorem issue_cases (cls : SpinClass) (len : Nat) (m : M Ctl) (s : State) :
    (∃ t, issue cls len m s = .next t) ∨ ∃ f, issue cls len m s = .fault f := by
  unfold issue
  split <;> first | exact .inl ⟨_, rfl⟩ | exact .inr ⟨_, rfl⟩

theorem event_ok (h : e s = .ok () t) : event e s = .next t := by
  simp only [event, h]

theorem event_no (h : e s = .error .no t) : event e s = .next s := by
  simp only [event, h]

theorem event_stall (h : e s = .error .stall t) : event e s = .next t := by
  simp only [event, h]

/-- An event answers a next state or the fault of a physical address that is not there. -/
theorem event_cases (e : M Unit) (s : State) : (∃ t, event e s = .next t) ∨ ∃ f, event e s = .fault f := by
  unfold event
  split <;> first | exact .inl ⟨_, rfl⟩ | exact .inr ⟨_, rfl⟩

/-- A task after one of its instructions has completed in sequence; `on` says that its core counts spins. -/
def Task.inSeq (t : Task) (a on : Bool) (cls : SpinClass) (len : Nat) : Task :=
  if a then { (t.advanceA len) with
    lee := t.lee - 1, stepping := false, shipNoted := [], shipTo := none, loadNoted := t.loadNoted.filter fun x => x.1 ≠ true, begunA := 0 }
  else { (t.advance len) with
    spin := if on then t.spin.note cls else {}, lee := t.lee - 1, stepping := false, shipNoted := [], shipTo := none
    loadNoted := t.loadNoted.filter fun x => x.1 ≠ false, begun := 0 }

theorem advance_lee (t : Task) (len : Nat) : (t.advance len).lee = t.lee := by
  unfold Task.advance; dsimp only; split
  · split
    · rfl
    · split <;> rfl
  · rfl

theorem complete_seq (cls : SpinClass) (len : Nat) (h : s.task.stepping = false) :
    complete cls len .seq s = s.setTask (s.task.inSeq s.cur.a (s.coreAt s.cur.core).slackOn cls len) := by
  unfold complete Task.inSeq
  simp only [h, Bool.false_eq_true, if_false]
  cases s.cur.a
  · simp only [Bool.false_eq_true, if_false, advance_lee]
  · rfl

@[simp] theorem advance_g (t : Task) (len : Nat) : (t.advance len).g = t.g := by
  unfold Task.advance; dsimp only; split
  · split
    · rfl
    · split <;> rfl
  · rfl

@[simp] theorem advance_a (t : Task) (len : Nat) : (t.advance len).a = t.a := by
  unfold Task.advance; dsimp only; split
  · split
    · rfl
    · split <;> rfl
  · rfl

@[simp] theorem advance_status (t : Task) (len : Nat) : (t.advance len).status = t.status := by
  unfold Task.advance; dsimp only; split
  · split
    · rfl
    · split <;> rfl
  · rfl

/-- Of a task its advance changes the program counter, the way it got there, the loop count and the frame. -/
theorem advance_frame (t : Task) (len : Nat) :
    t.advance len = { t with
      pc := (t.advance len).pc, via := (t.advance len).via, lc := (t.advance len).lc
      lcNext := (t.advance len).lcNext, frame := (t.advance len).frame } := by
  unfold Task.advance; dsimp only; split
  · split
    · rfl
    · split <;> rfl
  · rfl

@[simp] theorem inSeq_status (t : Task) (a on : Bool) : (t.inSeq a on cls len).status = t.status := by
  unfold Task.inSeq; split
  · rfl
  · simp

theorem inSeq_regsOf (t : Task) (a on : Bool) : (t.inSeq a on cls len).regsOf a = t.regsOf a := by
  cases a <;> simp [Task.inSeq, Task.regsOf, Task.advanceA]

theorem rg_of_task {i : BitVec 5} (h : i ≠ 0) : s.rg i = (s.task.regsOf s.cur.a).get i.toFin := by
  unfold State.rg
  rw [if_neg h, regs_eq]

@[simp] theorem rg_zero : s.rg 0#5 = 0 := by simp [State.rg]

theorem rg_setTask {u : Task} (h : u.status = s.task.status) (i : BitVec 5) (hi : i ≠ 0) :
    (s.setTask u).rg i = (u.regsOf s.cur.a).get i.toFin := by
  rw [rg_of_task hi, task_setTask s h]
  rfl

/-- A register written: it reads as its new value, every other one as before. -/
theorem rg_wg (d i : BitVec 5) (v : Word) : (s.wg d v).rg i = if i = 0 then 0 else if i = d then v else s.rg i := by
  by_cases hi : i = 0
  · subst hi; rfl
  · rw [if_neg hi, rg_of_task hi, task_wg, rg_of_task hi]
    exact regsOf_writeReg s.task s.cur.a d i v hi

end Sys2Proof.Machine
end

