-- ==== Sys2Proof/Laws/Compute.lean ====
section
/-! SUPPORT. An instruction that writes one general register, or none, and completes in sequence: everything it does. -/

namespace Sys2Proof.Machine

variable {s : State}

/-- The advance of a task does not read its registers. -/
theorem inSeq_writeReg (u : Task) (a on : Bool) (cls : SpinClass) (len : Nat) (d : BitVec 5) (v : Word) :
    (u.writeReg a d v).inSeq a on cls len = (u.inSeq a on cls len).writeReg a d v := by
  by_cases hd : d = 0
  · subst hd; rfl
  · rw [writeReg_ne _ _ _ hd, writeReg_ne _ _ _ hd]
    cases a
    · simp only [Task.inSeq, Task.advance, Bool.false_eq_true, if_false]
      split
      · split
        · rfl
        · split <;> rfl
      · rfl
    · rfl

/-- A register write does not touch whether a core counts spins. -/
theorem wg_slackOn (d : BitVec 5) (v : Word) :
    ((s.wg d v).coreAt (s.wg d v).cur.core).slackOn = (s.coreAt s.cur.core).slackOn := by
  rw [State.wg_cur]
  unfold State.wg State.modTask
  rw [coreAt_setTask]
  unfold Core.setBank
  split <;> rfl

/-- The state after an instruction that writes register `d` and completes in sequence. -/
theorem complete_wg (cls : SpinClass) (len : Nat) (d : BitVec 5) (v : Word) (h : s.task.stepping = false) :
    complete cls len .seq (s.wg d v) = s.setTask ((s.task.inSeq s.cur.a (s.coreAt s.cur.core).slackOn cls len).writeReg s.cur.a d v) := by
  have e : (s.wg d v).task = s.task.writeReg s.cur.a d v := task_wg s d v
  rw [complete_seq cls len (by rw [e]; simpa using h), e, wg_slackOn, State.wg_cur, inSeq_writeReg]
  exact setTask_setTask s _ (by simp)

theorem inSeq_pc (u : Task) (on : Bool) (cls : SpinClass) (len : Nat) : (u.inSeq false on cls len).pc = (u.advance len).pc := rfl

theorem inSeq_apc (u : Task) (on : Bool) (cls : SpinClass) (len : Nat) : (u.inSeq true on cls len).a.pc = (u.advanceA len).a.pc := rfl

theorem writeReg_pc (u : Task) (a : Bool) (d : BitVec 5) (v : Word) : (u.writeReg a d v).pc = u.pc := by
  unfold Task.writeReg; split
  · rfl
  · split <;> rfl

theorem writeReg_apc (u : Task) (a : Bool) (d : BitVec 5) (v : Word) : (u.writeReg a d v).a.pc = u.a.pc := by
  unfold Task.writeReg; split
  · rfl
  · split <;> rfl

/-- Of a task the issue of one instruction changes only what an issue may change. -/
theorem inSeq_issueOnly (u : Task) (a on : Bool) (cls : SpinClass) (len : Nat) (d : BitVec 5) (v : Word) :
    IssueOnly u ((u.inSeq a on cls len).writeReg a d v) := by
  unfold IssueOnly
  by_cases hd : d = 0
  · subst hd
    rw [writeReg_zero]
    cases a
    · simp only [Task.inSeq, Task.advance, Bool.false_eq_true, if_false]
      split
      · split
        · rfl
        · split <;> rfl
      · rfl
    · rfl
  · rw [writeReg_ne _ _ _ hd]
    cases a
    · simp only [Task.inSeq, Task.advance, Bool.false_eq_true, if_false]
      split
      · split
        · rfl
        · split <;> rfl
      · rfl
    · rfl

/-- An instruction that writes register `d` and completes in sequence: the register, every other register, the program counter,
and the frame. -/
theorem wrote (cls : SpinClass) (len : Nat) (d : BitVec 5) (v : Word) (h : s.task.stepping = false) :
    RegIs s (complete cls len .seq (s.wg d v)) d v ∧ (complete cls len .seq (s.wg d v)).pc = s.inSequence len ∧
      ComputeFrame s (complete cls len .seq (s.wg d v)) := by
  rw [complete_wg cls len d v h]
  have hs : ((s.task.inSeq s.cur.a (s.coreAt s.cur.core).slackOn cls len).writeReg s.cur.a d v).status = s.task.status := by simp
  have ht := task_setTask s hs
  have hr (j : BitVec 5) : (s.setTask ((s.task.inSeq s.cur.a (s.coreAt s.cur.core).slackOn cls len).writeReg s.cur.a d v)).rg j =
      if j = 0 then 0 else if j = d then v else s.rg j := by
    by_cases hj : j = 0
    · subst hj; rfl
    · rw [rg_setTask hs j hj, regsOf_writeReg _ _ _ _ _ hj, if_neg hj, inSeq_regsOf, ← rg_of_task hj]
  refine ⟨⟨?_, ?_⟩, ?_, ?_, ?_, ?_, fun _ => rfl⟩
  · rw [hr d]; simp
  · intro j hj
    rw [hr j]
    by_cases h0 : j = 0
    · subst h0; rfl
    · rw [if_neg h0, if_neg hj]
  · unfold State.pc State.inSequence
    rw [ht, State.setTask_cur, writeReg_pc, writeReg_apc]
    cases s.cur.a <;> rfl
  · unfold OnlyTask
    rw [ht]
  · rw [ht]
    exact inSeq_issueOnly _ _ _ _ _ _ _
  · unfold OtherSequencerSame
    rw [ht]
    by_cases hd : d = 0
    · subst hd
      rw [writeReg_zero]
      cases s.cur.a <;> simp [Task.inSeq, Task.advanceA]
    · rw [writeReg_ne _ _ _ hd]
      cases s.cur.a <;> simp [Task.inSeq, Task.advanceA]

/-- An instruction that writes no register and completes in sequence. -/
theorem passed (cls : SpinClass) (len : Nat) (h : s.task.stepping = false) :
    RegsSame s (complete cls len .seq s) ∧ (complete cls len .seq s).pc = s.inSequence len ∧
      ComputeFrame s (complete cls len .seq s) := by
  have w := wrote cls len 0 0 h
  rw [complete_wg cls len 0 0 h, writeReg_zero, ← complete_seq cls len h] at w
  exact ⟨fun j => by
    by_cases hj : j = 0
    · subst hj; rfl
    · exact w.1.2 j hj, w.2⟩

/-- A task after control has gone to a target. -/
def Task.gone (t : Task) (a : Bool) (x : Word) (ends : Bool) (spin : Spin) : Task :=
  { (t.transfer a x ends) with
    spin := spin, lee := t.lee - 1, stepping := false, shipNoted := [], shipTo := none, loadNoted := t.loadNoted.filter fun x => x.1 ≠ a
    begun := if a then (t.transfer a x ends).begun else 0, begunA := if a then 0 else (t.transfer a x ends).begunA }

/-- How control goes to a target. -/
def Ctl.GoesTo (c : Ctl) (x : Word) : Prop := c = .branch x ∨ c = .jump x ∨ c = .leave x

theorem transfer_lee (t : Task) (a : Bool) (x : Word) (ends : Bool) : (t.transfer a x ends).lee = t.lee := by
  unfold Task.transfer; split <;> rfl

theorem complete_go (cls : SpinClass) (len : Nat) {c : Ctl} {x : Word} (hc : c.GoesTo x) (h : s.task.stepping = false) :
    ∃ ends spin, complete cls len c s = s.setTask (s.task.gone s.cur.a x ends spin) := by
  obtain rfl | rfl | rfl := hc
  · exact ⟨true, _, by unfold complete Task.gone; simp only [h, transfer_lee, Bool.false_eq_true, if_false]; rfl⟩
  · exact ⟨true, _, by unfold complete Task.gone; simp only [h, transfer_lee, Bool.false_eq_true, if_false]; rfl⟩
  · exact ⟨false, _, by unfold complete Task.gone; simp only [h, transfer_lee, Bool.false_eq_true, if_false]; rfl⟩

theorem gone_status (t : Task) (a : Bool) (x : Word) (ends : Bool) (spin : Spin) :
    (t.gone a x ends spin).status = t.status := by
  cases a <;> rfl

/-- A running task replaced by one that differs in what an issue may change: its registers, its program counter, and the frame. -/
theorem control_frame {u : Task} {d : BitVec 5} {v : Word} (hs : u.status = s.task.status) (hi : IssueOnly s.task u)
    (ho : if s.cur.a then u.g = s.task.g ∧ u.pc = s.task.pc ∧ u.lc = s.task.lc ∧ u.frame = s.task.frame else u.a = s.task.a)
    (hr : ∀ j : BitVec 5, j ≠ 0 → (u.regsOf s.cur.a).get j.toFin = if j = d then v else (s.task.regsOf s.cur.a).get j.toFin) :
    RegIs s (s.setTask u) d v ∧ (s.setTask u).pc = (if s.cur.a then u.a.pc else u.pc) ∧ ComputeFrame s (s.setTask u) := by
  have ht := task_setTask s hs
  have hr' (j : BitVec 5) : (s.setTask u).rg j = if j = 0 then 0 else if j = d then v else s.rg j := by
    by_cases hj : j = 0
    · subst hj; rfl
    · rw [rg_setTask hs j hj, hr j hj, if_neg hj, ← rg_of_task hj]
  refine ⟨⟨?_, ?_⟩, ?_, ?_, ?_, ?_, fun _ => rfl⟩
  · rw [hr' d]; simp
  · intro j hj
    rw [hr' j]
    by_cases h0 : j = 0
    · subst h0; rfl
    · rw [if_neg h0, if_neg hj]
  · unfold State.pc
    rw [ht, State.setTask_cur]
  · unfold OnlyTask
    rw [ht]
  · rw [ht]; exact hi
  · unfold OtherSequencerSame
    rw [ht]; exact ho

theorem gone_issueOnly (t : Task) (a : Bool) (x : Word) (ends : Bool) (spin : Spin) (d : BitVec 5) (v : Word) :
    IssueOnly t ((t.writeReg a d v).gone a x ends spin) := by
  by_cases hd : d = 0
  · subst hd
    rw [writeReg_zero]
    cases a <;> simp only [IssueOnly, Task.gone, Task.transfer, Bool.false_eq_true, if_true, if_false]
  · rw [writeReg_ne _ _ _ hd]
    cases a <;> simp only [IssueOnly, Task.gone, Task.transfer, Bool.false_eq_true, if_true, if_false]

theorem gone_other (t : Task) (a : Bool) (x : Word) (ends : Bool) (spin : Spin) (d : BitVec 5) (v : Word) :
    if a then
      ((t.writeReg a d v).gone a x ends spin).g = t.g ∧ ((t.writeReg a d v).gone a x ends spin).pc = t.pc ∧
        ((t.writeReg a d v).gone a x ends spin).lc = t.lc ∧ ((t.writeReg a d v).gone a x ends spin).frame = t.frame
    else ((t.writeReg a d v).gone a x ends spin).a = t.a := by
  by_cases hd : d = 0
  · subst hd
    rw [writeReg_zero]
    cases a <;> simp [Task.gone, Task.transfer]
  · rw [writeReg_ne _ _ _ hd]
    cases a <;> simp [Task.gone, Task.transfer]

theorem gone_regsOf (t : Task) (a : Bool) (x : Word) (ends : Bool) (spin : Spin) : (t.gone a x ends spin).regsOf a = t.regsOf a := by
  cases a <;> simp [Task.gone, Task.transfer, Task.regsOf]

theorem gone_pc (t : Task) (a : Bool) (x : Word) (ends : Bool) (spin : Spin) :
    (if a then (t.gone a x ends spin).a.pc else (t.gone a x ends spin).pc) = x := by
  cases a <;> simp [Task.gone, Task.transfer]

/-- An instruction that writes register `d` and sends control to a target: the register, every other register, the program
counter, and the frame. -/
theorem went (cls : SpinClass) (len : Nat) {c : Ctl} {x : Word} (hc : c.GoesTo x) (d : BitVec 5) (v : Word)
    (h : s.task.stepping = false) :
    RegIs s (complete cls len c (s.wg d v)) d v ∧ (complete cls len c (s.wg d v)).pc = x ∧
      ComputeFrame s (complete cls len c (s.wg d v)) := by
  have e : (s.wg d v).task = s.task.writeReg s.cur.a d v := task_wg s d v
  obtain ⟨ends, spin, hg⟩ := complete_go (s := s.wg d v) cls len hc (by rw [e]; simpa using h)
  rw [hg, e, State.wg_cur]
  have hset : (s.wg d v).setTask ((s.task.writeReg s.cur.a d v).gone s.cur.a x ends spin) =
      s.setTask ((s.task.writeReg s.cur.a d v).gone s.cur.a x ends spin) := setTask_setTask s _ (by simp)
  rw [hset]
  have w := control_frame (s := s) (d := d) (v := v) (by rw [gone_status, writeReg_status])
    (gone_issueOnly s.task s.cur.a x ends spin d v) (gone_other s.task s.cur.a x ends spin d v)
    (fun j hj => by rw [gone_regsOf]; exact regsOf_writeReg _ _ _ _ _ hj)
  rw [gone_pc] at w
  exact w

/-- An instruction that writes no register and sends control to a target. -/
theorem jumped (cls : SpinClass) (len : Nat) {c : Ctl} {x : Word} (hc : c.GoesTo x) (h : s.task.stepping = false) :
    RegsSame s (complete cls len c s) ∧ (complete cls len c s).pc = x ∧ ComputeFrame s (complete cls len c s) := by
  obtain ⟨ends, spin, hg⟩ := complete_go (s := s) cls len hc h
  have w := control_frame (s := s) (d := 0) (v := 0) (u := s.task.gone s.cur.a x ends spin) (gone_status _ _ _ _ _)
    (by simpa only [writeReg_zero] using gone_issueOnly s.task s.cur.a x ends spin 0 0)
    (by simpa only [writeReg_zero] using gone_other s.task s.cur.a x ends spin 0 0)
    (fun j hj => by rw [gone_regsOf, if_neg hj])
  rw [hg]
  rw [gone_pc] at w
  exact ⟨fun j => by
    by_cases hj : j = 0
    · subst hj; rfl
    · exact w.1.2 j hj, w.2⟩

end Sys2Proof.Machine
end

