-- ==== Sys2Proof/Laws/Memory.lean ====
section
/-! SUPPORT. What the shared operations do to memory: `f_mem` says that an operation leaves the bytes of memory alone, `f_canonical`
that one that writes keeps the canonical form. -/

namespace Sys2Proof.Machine

variable (s : State)

theorem reset_canonical : State.reset.Canonical := rfl

/-- A fold of operations that leave memory alone leaves it alone. -/
theorem foldl_mem {α : Type} {f : State → α → State} (h : ∀ s a, (f s a).mem = s.mem) (l : List α) (s : State) :
    (l.foldl f s).mem = s.mem := by
  induction l generalizing s with
  | nil => rfl
  | cons a r ih => rw [List.foldl_cons, ih, h]

/-- A fold of operations that keep the canonical form keeps it. -/
theorem foldl_canonical {α : Type} {f : State → α → State} (h : ∀ s a, s.Canonical → (f s a).Canonical) (l : List α) {s : State}
    (hs : s.Canonical) : (l.foldl f s).Canonical := by
  induction l generalizing s with
  | nil => exact hs
  | cons a r ih => exact ih (h s a hs)

/-- What has the same memory is canonical when the other is. -/
theorem canonical_of_mem {s t : State} (h : t.mem = s.mem) (hs : s.Canonical) : t.Canonical := by
  unfold State.Canonical at *; rw [h]; exact hs

@[simp] theorem setCore_mem (c : Nat) (k : Core) : (s.setCore c k).mem = s.mem := rfl
@[simp] theorem modCore_mem (c : Nat) (f : Core → Core) : (s.modCore c f).mem = s.mem := rfl
@[simp] theorem modCove_mem (v : Nat) (f : Cove → Cove) : (s.modCove v f).mem = s.mem := rfl
@[simp] theorem modDie_mem (d : Nat) (f : Die → Die) : (s.modDie d f).mem = s.mem := rfl
@[simp] theorem modPart_mem (p : Nat) (f : Part → Part) : (s.modPart p f).mem = s.mem := rfl
@[simp] theorem modQueue_mem (p q : Nat) (f : LaunchQueue → LaunchQueue) : (s.modQueue p q f).mem = s.mem := rfl
@[simp] theorem modBlock_mem (u : Nat) (f : Block → Block) : (s.modBlock u f).mem = s.mem := by unfold State.modBlock; split <;> rfl
@[simp] theorem setTask_mem (t : Task) : (s.setTask t).mem = s.mem := rfl
@[simp] theorem modTask_mem (f : Task → Task) : (s.modTask f).mem = s.mem := rfl
@[simp] theorem wg_mem (i : BitVec 5) (v : Word) : (s.wg i v).mem = s.mem := rfl
@[simp] theorem setCap_mem (c j : Nat) (w0 w1 : Word) : (s.setCap c j w0 w1).mem = s.mem := rfl
@[simp] theorem setL2_mem (d u : Nat) (l : L2Line) : (s.setL2 d u l).mem = s.mem := rfl
@[simp] theorem modCausal_mem (d p : Nat) (f : Causal → Causal) : (s.modCausal d p f).mem = s.mem := rfl
@[simp] theorem modPeer_mem (d : Nat) (f : Peer → Peer) : (s.modPeer d f).mem = s.mem := rfl
@[simp] theorem parkTask_mem (c : Nat) (u : Bool) (w : ParkCause) : (s.parkTask c u w).mem = s.mem := rfl
@[simp] theorem dropL1_mem (d u : Nat) (sq : Bool) (e : Option Nat) : (dropL1 d u sq e s).mem = s.mem := rfl
@[simp] theorem noteWrite_mem (l : Nat) (nc : Option Nat) : (noteWrite l nc s).mem = s.mem := rfl
@[simp] theorem writeBack_mem (u : Nat) (sq : Bool) : (writeBack u sq s).mem = s.mem := rfl
@[simp] theorem ringPut_mem (d : Nat) (p : Packet) : (ringPut d p s).mem = s.mem := rfl
@[simp] theorem countBounce_mem (n : Nat) : (countBounce n s).mem = s.mem := rfl
@[simp] theorem spmPut_mem (c o : Nat) (b : List Byte) : (spmPut c o b s).mem = s.mem := rfl

@[simp] theorem pumpPilot_mem (v n : Nat) : (pumpPilot v n s).mem = s.mem := by
  induction n generalizing s with
  | zero => rfl
  | succ n ih =>
    unfold pumpPilot; dsimp only
    repeat' split
    all_goals simp [ih]

@[simp] theorem pumpInbox_mem (c : Nat) : (pumpInbox c s).mem = s.mem := by
  unfold pumpInbox; dsimp only; split <;> simp
@[simp] theorem endTask_mem (c : Nat) (u : Bool) : (s.endTask c u).mem = s.mem := by unfold State.endTask; simp
@[simp] theorem killParked_mem (c j : Nat) : (s.killParked c j).mem = s.mem := by unfold State.killParked; simp

@[simp] theorem modTarget_mem (t : Target) (f : Core → Core) : (s.modTarget t f).mem = s.mem := by
  unfold State.modTarget; split <;> simp

@[simp] theorem reportFrom_mem (e : BitVec 29) (p d c : Nat) (x : Cause) (w : Nat) (t : Word) :
    (reportFrom e p d c x w t s).mem = s.mem := by
  unfold reportFrom; dsimp only; split
  · simp
  · split <;> simp
@[simp] theorem report_mem (p d c : Nat) (x : Cause) (w : Nat) (t : Word) : (report p d c x w t s).mem = s.mem := reportFrom_mem ..
@[simp] theorem reportOn_mem (c : Nat) (x : Cause) (w : Nat) (t : Word) : (reportOn c x w t s).mem = s.mem := reportFrom_mem ..

@[simp] theorem reportCore_mem (c : Nat) (x : Cause) : (reportCore c x s).mem = s.mem := by unfold reportCore; simp

@[simp] theorem killAt_mem (c p : Nat) : (killAt c p s).mem = s.mem := by
  unfold killAt; dsimp only; split <;> simp

@[simp] theorem fenceHeld_mem (d p n : Nat) (f : List Nat) : (fenceHeld d p n f s).mem = s.mem := by
  unfold fenceHeld; exact (foldl_mem (fun s f => by split <;> simp) _ _).trans rfl

@[simp] theorem pumpPort_mem (i j n : Nat) : (pumpPort i j n s).mem = s.mem := by
  induction n generalizing s with
  | zero => rfl
  | succ n ih =>
    unfold pumpPort; dsimp only
    split
    · rfl
    · split <;> exact (ih _).trans rfl

@[simp] theorem portPut_mem (i j : Nat) (p : Packet) : (portPut i j p s).mem = s.mem := by
  unfold portPut; dsimp only; rw [pumpPort_mem]; split <;> simp

@[simp] theorem startPacket_mem (d : Nat) (p : Packet) : (startPacket d p s).mem = s.mem := by unfold startPacket; split <;> simp

@[simp] theorem freeToken_mem (t : Option (Nat × Nat)) : (freeToken t s).mem = s.mem := by
  unfold freeToken; split
  · rfl
  · split <;> rfl

@[simp] theorem settleTide_mem (p : Packet) : (settleTide p s).mem = s.mem := by unfold settleTide; split <;> simp

/-- What is returned goes by ways that leave memory alone. -/
theorem returnPacket_mem {w : Ways} (hp : ∀ p s, (w.put p s).mem = s.mem) (hq : ∀ s, (w.performed s).mem = s.mem) (d : Nat)
    (p : Packet) (c : Nat) (r : Bool) : (returnPacket w d p c r s).mem = s.mem := by
  unfold returnPacket; dsimp only
  repeat' split
  all_goals simp [hp, hq]

@[simp] theorem takePath_mem (d k : Nat) (p : Packet) : (takePath d k p s).mem = s.mem := by
  unfold takePath; dsimp only; simp [apply_ite State.mem]

@[simp] theorem tideSend_mem (d : Nat) (p : Packet) : (tideSend d p s).mem = s.mem := by
  unfold tideSend; split
  · simp
  · split
    · exact returnPacket_mem _ (fun _ _ => startPacket_mem ..) (fun _ => rfl) _ _ _ _
    · split <;> simp

@[simp] theorem inject_mem (d : Nat) (p : Packet) : (inject d p s).mem = s.mem := by
  unfold inject; dsimp only; split <;> simp

@[simp] theorem resend_mem (c j : Nat) : (resend c j s).mem = s.mem := by
  unfold resend; split <;> simp

@[simp] theorem applyAction_mem (c p : Nat) (x : Cause) (a : Nat) : (applyAction c p x a s).mem = s.mem := by
  unfold applyAction; dsimp only; split
  · split
    · split <;> simp
    · simp
  · simp
  · split <;> simp

/-- Taking a trap writes no byte of memory. -/
@[simp] theorem takeTrapAt_mem (c p : Nat) (x : Cause) : (takeTrapAt c p x s).mem = s.mem := by
  unfold takeTrapAt; dsimp only
  refine (apply_ite State.mem _ _ _).trans ?_
  simp only [modCore_mem, modDie_mem, applyAction_mem, modPart_mem, ite_self]

@[simp] theorem takeTrap_mem (c : Nat) (u : Bool) (x : Cause) : (takeTrap c u x s).mem = s.mem := by unfold takeTrap; simp

/-- The completion of an instruction writes no byte of memory. -/
@[simp] theorem complete_mem (cls : SpinClass) (len : Nat) (ctl : Ctl) : (complete cls len ctl s).mem = s.mem := by
  unfold complete; split
  · rfl
  · dsimp only; split
    · simp
    · split <;> simp

@[simp] theorem shipTask_mem (c : Nat) (u : Bool) (l : Option Nat) (a : Word) : (shipTask c u l a s).mem = s.mem := by
  unfold shipTask; split <;> simp

@[simp] theorem raiseAsync_mem (c t : Nat) (x : Cause) : (raiseAsync c t x s).mem = s.mem := by
  unfold raiseAsync; dsimp only; split
  · simp
  · split <;> simp

@[simp] theorem startWalk_mem (c a : Nat) (va : Word) (k : Nat) (p r : Bool) (x : Nat) (w : Requester) :
    (startWalk c a va k p r x w s).mem = s.mem := by
  unfold startWalk; dsimp only; split
  · split <;> simp
  · split <;> simp

@[simp] theorem giveVictim_mem (c l : Nat) : (giveVictim c l s).mem = s.mem := by
  unfold giveVictim; dsimp only; repeat' split
  all_goals simp

@[simp] theorem unpin_mem (d u : Nat) : (unpin d u s).mem = s.mem := by
  unfold unpin; split <;> rfl
@[simp] theorem dropL2_mem (d u : Nat) : (s.dropL2 d u).mem = s.mem := by unfold State.dropL2; repeat' split <;> simp
@[simp] theorem fillFromHbm_mem (u : Nat) (sq : Bool) : (fillFromHbm u sq s).mem = s.mem := by
  rfl

@[simp] theorem performed_mem (d : Nat) (p : Packet) : (performed d p s).mem = s.mem := by
  unfold performed; split
  · split <;> simp
  · rfl

@[simp] theorem sendCoh_mem (a b l : Nat) (k : CohKind) : (sendCoh a b l k s).mem = s.mem := rfl
@[simp] theorem modDir_mem (u : Nat) (f : DirEntry → DirEntry) : (modDir u f s).mem = s.mem := by
  unfold modDir; repeat' split
  all_goals simp

@[simp] theorem turnBack_mem (d : Nat) (p : Packet) (c : Nat) (r : Bool) : (turnBack d p c s r).mem = s.mem :=
  returnPacket_mem _ (fun _ _ => inject_mem ..) (fun _ => performed_mem ..) _ _ _ _

@[simp] theorem deliver_mem (i j : Nat) (p : Packet) : (deliver i j p s).mem = s.mem := by unfold deliver; simp

@[simp] theorem retest_mem (j p n : Nat) : (retest j p n s).mem = s.mem := by
  induction n generalizing s with
  | zero => rfl
  | succ n ih => unfold retest; split <;> simp [ih]

@[simp] theorem poolPut_mem (i j : Nat) (p : Packet) : (poolPut i j p s).mem = s.mem := by
  unfold poolPut; dsimp only; split <;> simp

@[simp] theorem arriveStamped_mem (i j : Nat) (p : Packet) (st : Stamp) : (arriveStamped i j p st s).mem = s.mem := by
  unfold arriveStamped; dsimp only
  repeat' split
  all_goals simp

@[simp] theorem heldOverflow_mem (c : Nat) : (heldOverflow c s).mem = s.mem := by unfold heldOverflow; dsimp only; repeat' split <;> simp
@[simp] theorem heldOverflowSaved_mem (u r : Nat) : (heldOverflowSaved u r s).mem = s.mem := by
  unfold heldOverflowSaved; dsimp only; repeat' split
  all_goals simp
@[simp] theorem inboxArrive_mem (t : Target) (e : InboxEntry) : (inboxArrive t e s).mem = s.mem := by
  unfold inboxArrive; dsimp only; split <;> simp
@[simp] theorem tokenFreed_mem (c : Nat) (e : InboxEntry) : (tokenFreed c e s).mem = s.mem := by
  unfold tokenFreed; dsimp only; split <;> simp
@[simp] theorem creditBack_mem (c : Nat) (e : InboxEntry) : (creditBack c e s).mem = s.mem := by unfold creditBack; split <;> simp
@[simp] theorem freeEntry_mem (c : Nat) (e : InboxEntry) : (freeEntry c e s).mem = s.mem := by unfold freeEntry; simp
@[simp] theorem poisonPlace_mem (c : Nat) (p : Place) (n : Nat) : (poisonPlace c p n s).mem = s.mem := by unfold poisonPlace; split <;> simp

/-! The operations that write. -/

theorem putHbm_canonical {s : State} (a : Nat) (b : Byte) (h : s.Canonical) : (s.putHbm a b).Canonical := by
  unfold State.putHbm; split
  · exact h
  · exact wf_cellSet a b h

theorem putTracked_canonical {s : State} (a : Nat) (l : List Byte) (h : s.Canonical) : (putTracked a l s).Canonical := by
  induction l generalizing a s with
  | nil => exact h
  | cons b r ih => exact ih (a + 1) (wf_cellSet a b h)

theorem ncFlush_canonical {s : State} (d u : Nat) (h : s.Canonical) : (ncFlush d u s).Canonical := by
  unfold ncFlush; split
  · exact canonical_of_mem (setL2_mem ..) (foldl_canonical (fun s a hs => putHbm_canonical a _ hs) _ h)
  · exact h

theorem flushLine_canonical {s : State} (d u : Nat) (h : s.Canonical) : (flushLine d u s).Canonical := by
  unfold flushLine; split
  · exact h
  · split
    · exact ncFlush_canonical d u h
    · split <;> exact h

theorem evictLine_canonical {s : State} (d u : Nat) (h : s.Canonical) : (evictLine d u s).Canonical := by
  unfold evictLine; split
  · exact h
  · have hf := flushLine_canonical d u h
    dsimp only; split <;> exact canonical_of_mem (by simp) hf

theorem hostData_canonical {s : State} (u : Nat) (sq : Bool) (h : s.Canonical) : (hostData u sq s).Canonical := by
  unfold hostData
  exact canonical_of_mem (foldl_mem (by simp) _ _) (putTracked_canonical _ _ h)

theorem hostYield_canonical {s : State} (u : Nat) (sq sh : Bool) (h : s.Canonical) : (hostYield u sq sh s).2.Canonical := by
  unfold hostYield; split
  · exact h
  · dsimp only; split
    · exact hostData_canonical u sq h
    · exact h

theorem yieldLine_canonical {s : State} (a u : Nat) (sq sh : Bool) (h : s.Canonical) : (yieldLine a u sq sh s).Canonical := by
  unfold yieldLine; split
  · have := hostYield_canonical u sq sh h
    dsimp only; split <;> exact this
  · have hw : (if sh = true then writeBack u sq s else s).Canonical := by split <;> exact h
    dsimp only
    generalize (if sh = true then writeBack u sq s else s) = v at hw
    split
    · split
      · exact hw
      · exact canonical_of_mem (dropL2_mem ..) hw
    · exact hw

/-- Evicting down to sixteen lines keeps the canonical form. -/
theorem trimSet_canonical {s : State} (d u n : Nat) (h : s.Canonical) : (trimSet d u n s).Canonical := by
  induction n generalizing s with
  | zero => exact h
  | succ n ih =>
    unfold trimSet; dsimp only
    repeat' split
    all_goals first
      | exact h
      | exact ih (evictLine_canonical _ _ h)
      | exact evictLine_canonical _ _ h

theorem fillL2_canonical {s : State} (d u : Nat) (l : L2Line) (h : s.Canonical) : (s.fillL2 d u l).Canonical :=
  trimSet_canonical d u 24 h

theorem moveLines_canonical {s : State} (d r : Nat) (f : Nat → Bool) (g : Nat → Nat) (h : s.Canonical) :
    (moveLines d r f g s).Canonical := by
  unfold moveLines
  refine foldl_canonical (fun s u hs => ?_) _ h
  split
  · exact trimSet_canonical _ _ _ hs
  · exact hs

theorem retireForward_canonical {s : State} (d sl : Nat) (h : s.Canonical) : (retireForward d sl s).Canonical := by
  unfold retireForward; dsimp only; split
  · exact h
  · split
    · exact h
    · exact trimSet_canonical _ _ _ h

theorem moveLine_canonical {s : State} (d u t : Nat) (l : L2Line) (h : s.Canonical) : (moveLine d u t l s).Canonical := by
  have hs : ((if (s.dieAt d).forward.contains (t, u) then s else retireForward d l.slice s)).Canonical := by
    split
    · exact h
    · exact retireForward_canonical _ _ h
  exact trimSet_canonical _ _ _ hs

theorem touchLine_canonical {s : State} (o : Bool) (d v u : Nat) (h : s.Canonical) : (touchLine o d v u s).Canonical := by
  unfold touchLine; split
  · exact h
  · rename_i l _
    have ht (l : L2Line) (n : Nat) : ((s.setL2 d u l).modDie d fun x => { x with l2Clock := n }).Canonical := h
    dsimp only
    refine iteInduction (fun _ => ?_) fun _ => ht _ _
    exact moveLine_canonical _ _ _ _ (ht _ _)

@[simp] theorem meetLine_mem (d u : Nat) : (meetLine d u s).mem = s.mem := by
  unfold meetLine; split
  · split <;> rfl
  · rfl

theorem touchRegion_canonical {s : State} (d v c u : Nat) (h : s.Canonical) : (touchRegion d v c u s).Canonical := by
  unfold touchRegion; dsimp only; split
  · exact h
  · split
    · exact moveLines_canonical _ _ _ _ h
    · split
      · exact h
      · split
        · exact canonical_of_mem (reportOn_mem ..) h
        · exact h

theorem transact_canonical {s : State} (i u : Nat) (sq own : Bool) (h : s.Canonical) : (transact i u sq own s).Canonical := by
  have hh : (match (Option.map (fun (e : DirEntry) => e.state) (tabFind (s.dieAt (homeDie (u * 128))).dir u)) with
      | none => fillFromHbm u sq s
      | some (.s m) =>
        let s := if (s.l2Line i u).isNone then fillFromHbm u sq s else s
        if own then ((maskAgents m).filter (· ≠ i)).foldl (fun s a => yieldLine a u sq false s) s else s
      | some (.x o) => if o = i then s else yieldLine o u sq (!own) s
      | _ => s).Canonical := by
    split
    · exact canonical_of_mem (by simp) h
    · have hf : (if (s.l2Line i u).isNone = true then fillFromHbm u sq s else s).Canonical := by
        split
        · exact canonical_of_mem (by simp) h
        · exact h
      dsimp only
      split
      · exact foldl_canonical (fun s a hs => yieldLine_canonical a u sq false hs) _ hf
      · exact hf
    · split
      · exact h
      · exact yieldLine_canonical _ u sq _ h
    · exact h
  unfold transact; dsimp only
  split
  · exact hh
  · exact fillL2_canonical _ _ _ hh

theorem grantLine_canonical {s : State} (i u : Nat) (sq e o : Bool) (k : Option Asker) (h : s.Canonical) :
    (grantLine i u sq e o k s).Canonical := by
  unfold grantLine; split
  · exact h
  · dsimp only; split
    · exact h
    · exact fillL2_canonical _ _ _ h

theorem serveRequest_canonical {s : State} (r : CohRequest) (h : s.Canonical) : (serveRequest r s).Canonical := by
  unfold serveRequest; dsimp only
  repeat' split
  all_goals first
    | exact grantLine_canonical _ _ _ _ _ _ h
    | exact h
    | exact canonical_of_mem (foldl_mem (fun _ _ => sendCoh_mem ..) _ _) (canonical_of_mem (modDie_mem ..) h)

theorem recallEntry_mem (a v : Nat) (e : DirEntry) (s : State) : (recallEntry a v e s).mem = s.mem := rfl

@[simp] theorem startRecall_mem (h u : Nat) (s : State) : (startRecall h u s).mem = s.mem := by
  unfold startRecall; dsimp only; split
  · rfl
  · exact recallEntry_mem ..

theorem dirRequest_canonical {s : State} (r : CohRequest) (h : s.Canonical) : (dirRequest r s).Canonical := by
  unfold dirRequest; dsimp only
  repeat' split
  all_goals first
    | exact serveRequest_canonical r h
    | exact serveRequest_canonical r (canonical_of_mem (startRecall_mem ..) h)
    | exact h
    | exact canonical_of_mem (by simp) h

theorem hostLine_canonical {s : State} (d u : Nat) (sq own : Bool) (h : s.Canonical) : (hostLine d u sq own s).Canonical := by
  have h1 := foldl_canonical (fun (s : State) (e : Nat) hs => flushLine_canonical e u (s := s) hs)
    ((List.range 4).filter fun e => e ≠ d && (s.l2Line e u).isSome) h
  have h2 := foldl_canonical (f := fun (s : State) (e : Nat) => if own then s.dropL2 e u
      else match s.l2Line e u with | some l => s.setL2 e u { l with state := .s } | none => s)
    (fun s e hs => by
      split
      · exact canonical_of_mem (dropL2_mem ..) hs
      · split <;> exact hs)
    ((List.range 4).filter fun e => e ≠ d && (s.l2Line e u).isSome) h1
  unfold hostLine; dsimp only
  split
  · exact h2
  · exact fillL2_canonical _ _ _ h2

/-- Writing the bytes of a line keeps the canonical form. -/
theorem physWrite_canonical {s : State} (d : Nat) (c : Option Nat) (pa : Nat) (sq : Bool) (b : List Byte) (h : s.Canonical) :
    (physWrite d c pa sq b s).Canonical := by
  have hp := putTracked_canonical pa b
    (s := dropL1 d (unitOf pa sq) sq c { s with poison := clearPoison s.poison pa b.length }) h
  unfold physWrite; dsimp only; split
  · split
    · exact h
    · refine canonical_of_mem (noteWrite_mem ..) ?_
      split <;> exact hp
  · exact canonical_of_mem (noteWrite_mem ..) hp

theorem physPut_canonical {s : State} (d : Nat) (c : Option Nat) (pa : Nat) (sq : Bool) (b : List Byte) (h : s.Canonical) :
    (physPut d c pa sq b s).Canonical := physWrite_canonical d c pa sq b h

/-- What is kept in step with the state keeps the canonical form. -/
theorem settle_canonical {s : State} (h : s.Canonical) : s.settle.Canonical := by
  have hw (pa : Nat) (w : Word) {s : State} (h : s.Canonical) : (postWord pa w s).Canonical := by
    unfold postWord; split
    · exact h
    · exact canonical_of_mem (noteWrite_mem ..) (wf_cellsSet _ _ (canonical_of_mem (foldl_mem (fun _ _ => dropL1_mem ..) _ _) h))
  unfold State.settle settleFrames
  refine foldl_canonical (fun s b hs => ?_) _ (canonical_of_mem (t := settleGroups s) rfl h)
  split
  · exact hw _ _ (hw _ _ hs)
  · exact hs

/-! The operations of M. -/

/-- However an operation ends, it keeps the canonical form of memory. -/
def Keeps {α : Type} (m : M α) : Prop :=
  ∀ s : State, s.Canonical → match m s with | .ok _ t => t.Canonical | .error _ t => t.Canonical

section
variable {α β : Type} {m : M α}

theorem keeps_pure (a : α) : Keeps (pure a : M α) := fun _ h => h
theorem keeps_throw (e : Stop) : Keeps (throw e : M α) := fun _ h => h
theorem keeps_get : Keeps (get : M State) := fun _ h => h

theorem keeps_bind {f : α → M β} (h : Keeps m) (hf : ∀ a, Keeps (f a)) : Keeps (m >>= f) := by
  intro s hs
  have := h s hs
  show match (EStateM.bind m f) s with | .ok _ t => t.Canonical | .error _ t => t.Canonical
  unfold EStateM.bind
  cases hm : m s with
  | ok a t => rw [hm] at this; exact hf a t this
  | error e t => rw [hm] at this; exact this

theorem keeps_map {f : α → β} (h : Keeps m) : Keeps (f <$> m) := by
  intro s hs
  have := h s hs
  show match (EStateM.map f m) s with | .ok _ t => t.Canonical | .error _ t => t.Canonical
  unfold EStateM.map
  cases hm : m s with
  | ok a t => rw [hm] at this; exact this
  | error e t => rw [hm] at this; exact this

theorem keeps_modify {f : State → State} (h : ∀ s, s.Canonical → (f s).Canonical) : Keeps (modify f : M PUnit) := h
theorem keeps_modify_mem {f : State → State} (h : ∀ s, (f s).mem = s.mem) : Keeps (modify f : M PUnit) :=
  fun s hs => canonical_of_mem (h s) hs
theorem keeps_ite {c : Prop} [Decidable c] {n : M α} (h : Keeps m) (h' : Keeps n) : Keeps (if c then m else n) := by
  split <;> assumption
theorem keeps_each {f : β → M Unit} (h : ∀ b, Keeps (f b)) : ∀ l : List β, Keeps (each f l)
  | [] => keeps_pure ()
  | b :: r => keeps_bind (h b) fun _ => keeps_each h r
theorem keeps_mapEach {f : β → M α} (h : ∀ b, Keeps (f b)) : ∀ l : List β, Keeps (mapEach f l)
  | [] => keeps_pure []
  | b :: r => keeps_bind (h b) fun _ => keeps_bind (keeps_mapEach h r) fun _ => keeps_pure _

theorem keeps_check (b : Bool) (c : Nat) (a : Word) : Keeps (check b c a) := by
  cases b <;> exact fun _ h => h
theorem keeps_checkOf (b : Bool) (c d : Nat) : Keeps (checkOf b c d) := by cases b <;> exact fun _ h => h
theorem keeps_waitUntil (b : Bool) : Keeps (waitUntil b) := by cases b <;> exact fun _ h => h
theorem keeps_enabled (b : Bool) : Keeps (enabled b) := by cases b <;> exact fun _ h => h
theorem keeps_orNo (o : Option α) : Keeps (orNo o) := by cases o <;> exact fun _ h => h
theorem keeps_trapP (c : Nat) (a : Word) (n : Nat) (d : Word) : Keeps (trapP c a n d : M α) := fun _ h => h
theorem keeps_curCore : Keeps curCore := fun _ h => h
theorem keeps_coreM (c : Nat) : Keeps (coreM c) := fun _ h => h
theorem keeps_cc : Keeps cc := fun _ h => h
theorem keeps_modCC (f : Core → Core) : Keeps (modCC f) := fun _ h => h
theorem keeps_taskM : Keeps taskM := fun _ h => h
theorem keeps_modTaskM (f : Task → Task) : Keeps (modTaskM f) := fun _ h => h
theorem keeps_rg (i : BitVec 5) : Keeps (rg i) := fun _ h => h
theorem keeps_wg (i : BitVec 5) (v : Word) : Keeps (wg i v) := fun _ h => h
theorem keeps_pcM : Keeps pcM := fun _ h => h
theorem keeps_partM : Keeps partM := fun _ h => h
theorem keeps_readClock : Keeps readClock := fun _ h => h
theorem keeps_freshWord : Keeps freshWord := fun _ h => h

/-- What has been read of a canonical state is canonical. -/
theorem keeps_get_bind {f : State → M β} (hf : ∀ s : State, s.Canonical → Keeps (f s)) : Keeps (get >>= f) :=
  fun s hs => hf s hs s hs
theorem keeps_set {t : State} (h : t.Canonical) : Keeps (set t : M PUnit) := fun _ _ => h

/-- The issue of an instruction whose effect keeps the canonical form keeps it. -/
theorem issue_keeps {cls : SpinClass} {len : Nat} {m : M Ctl} {s t : State} (h : Keeps m) (hs : s.Canonical)
    (ht : issue cls len m s = .next t) : t.Canonical := by
  have hm := h s hs
  unfold issue at ht
  split at ht <;> (rename_i heq; rw [heq] at hm)
  · cases ht; exact canonical_of_mem (complete_mem ..) hm
  · cases ht; exact canonical_of_mem (takeTrap_mem ..) hm
  · cases ht; exact hs
  · cases ht; exact hs
  · cases ht; exact hm
  · cases ht; exact canonical_of_mem (shipTask_mem ..) hm
  · cases ht

/-- An event whose effect keeps the canonical form keeps it. -/
theorem event_keeps {m : M Unit} {s t : State} (h : Keeps m) (hs : s.Canonical) (ht : event m s = .next t) : t.Canonical := by
  have hm := h s hs
  unfold event at ht
  split at ht
  · rename_i heq; rw [heq] at hm; cases ht; exact hm
  · cases ht
  · rename_i heq; rw [heq] at hm; cases ht; exact hm
  · cases ht; exact hs

theorem keeps_requestLine (d u c : Nat) (sq own up : Bool) : Keeps (requestLine d u c sq own up) := by
  unfold requestLine
  repeat' first
    | (with_reducible refine keeps_get_bind fun _ _ => ?_)
    | (refine keeps_set (canonical_of_mem ?_ ‹State.Canonical _›); rfl)
    | with_reducible exact keeps_pure _
    | with_reducible exact keeps_throw _
    | with_reducible exact keeps_get
    | (with_reducible refine keeps_modify fun _ h => ?_; apply transact_canonical; assumption)
    | (with_reducible refine keeps_modify fun _ h => ?_; apply dirRequest_canonical; assumption)
    | with_reducible refine keeps_bind ?_ fun _ => ?_
    | split
    | dsimp only

theorem keeps_bringLine (d v c pa : Nat) (nc sq own : Bool) : Keeps (bringLine d v c pa nc sq own) := by
  unfold bringLine
  dsimp only
  repeat' first
    | with_reducible exact keeps_pure _
    | with_reducible exact keeps_throw _
    | with_reducible exact keeps_get
    | with_reducible exact keeps_check _ _ _
    | with_reducible exact keeps_curCore
    | with_reducible exact keeps_coreM _
    | with_reducible exact keeps_cc
    | with_reducible exact keeps_modCC _
    | with_reducible exact keeps_taskM
    | with_reducible exact keeps_modTaskM _
    | with_reducible exact keeps_waitUntil _
    | with_reducible exact keeps_trapP _ _ _ _
    | (with_reducible refine keeps_modify_mem fun _ => ?_; simp; done)
    | with_reducible exact keeps_requestLine _ _ _ _ _ _
    | (with_reducible refine keeps_modify fun _ h => ?_; apply touchRegion_canonical; assumption)
    | (with_reducible refine keeps_modify fun _ h => ?_; apply hostLine_canonical; assumption)
    | (with_reducible refine keeps_modify fun _ h => ?_; apply fillL2_canonical; assumption)
    | assumption
    | with_reducible refine keeps_bind ?_ fun _ => ?_
    | split

theorem keeps_acquire (d v c pa : Nat) (nc sq own : Bool) : Keeps (acquire d v c pa nc sq own) :=
  keeps_bind (keeps_bringLine _ _ _ _ _ _ _) fun _ => keeps_modify fun _ h => touchLine_canonical _ _ _ _ h
theorem keeps_acquireOnce (d v c pa : Nat) (nc sq own : Bool) : Keeps (acquireOnce d v c pa nc sq own) :=
  keeps_bind (keeps_bringLine _ _ _ _ _ _ _) fun _ => keeps_modify fun _ h => touchLine_canonical _ _ _ _ h

theorem keeps_neverFaults {m : M α} (h : Keeps m) : Keeps (neverFaults m) := by
  intro s hs
  have := h s hs
  unfold neverFaults
  simp only [tryCatch, tryCatchThe, MonadExceptOf.tryCatch, EStateM.tryCatch]
  cases hm : m s with
  | ok a t => rw [hm] at this; exact this
  | error e t => rw [hm] at this; cases e <;> exact this

theorem keeps_drainOne (c : Nat) : Keeps (drainOne c) := by
  unfold drainOne
  repeat' first
    | with_reducible exact keeps_pure _
    | with_reducible exact keeps_throw _
    | with_reducible exact keeps_get
    | with_reducible exact keeps_check _ _ _
    | with_reducible exact keeps_curCore
    | with_reducible exact keeps_coreM _
    | with_reducible exact keeps_cc
    | with_reducible exact keeps_modCC _
    | with_reducible exact keeps_taskM
    | with_reducible exact keeps_modTaskM _
    | with_reducible exact keeps_waitUntil _
    | with_reducible exact keeps_trapP _ _ _ _
    | with_reducible exact keeps_modify fun _ h => physPut_canonical _ _ _ _ _ h
    | (with_reducible refine keeps_modify_mem fun _ => ?_; simp; done)
    | with_reducible exact keeps_neverFaults (keeps_acquire _ _ _ _ _ _ _)
    | with_reducible refine keeps_bind ?_ fun _ => ?_
    | split

theorem keeps_drainN (c : Nat) : ∀ n, Keeps (drainN c n)
  | 0 => keeps_pure ()
  | n + 1 => keeps_bind (keeps_drainOne c) fun _ => keeps_drainN c n

theorem keeps_drain : Keeps drain := keeps_bind keeps_curCore fun _ => keeps_drainN _ _

theorem keeps_tlbSearch (c a va : Nat) (u : Bool) : Keeps (tlbSearch c a va u) := by
  unfold tlbSearch
  repeat' first
    | with_reducible exact keeps_pure _
    | with_reducible exact keeps_throw _
    | with_reducible exact keeps_get
    | with_reducible exact keeps_check _ _ _
    | with_reducible exact keeps_curCore
    | with_reducible exact keeps_coreM _
    | with_reducible exact keeps_cc
    | with_reducible exact keeps_modCC _
    | with_reducible exact keeps_taskM
    | with_reducible exact keeps_modTaskM _
    | with_reducible exact keeps_waitUntil _
    | with_reducible exact keeps_trapP _ _ _ _
    | (with_reducible refine keeps_modify_mem fun _ => ?_; simp; done)
    | assumption
    | with_reducible refine keeps_bind ?_ fun _ => ?_
    | split

theorem keeps_noteShip (ea : Word) : Keeps (noteShip ea) := by
  unfold noteShip
  repeat' first
    | with_reducible exact keeps_pure _
    | with_reducible exact keeps_modCC _
    | with_reducible exact keeps_taskM
    | with_reducible exact keeps_modTaskM _
    | with_reducible refine keeps_bind ?_ fun _ => ?_
    | split

theorem keeps_shipAnswered (va : Word) : Keeps (shipAnswered va) := by
  unfold shipAnswered
  repeat' first
    | with_reducible exact keeps_pure _
    | with_reducible exact keeps_throw _
    | with_reducible exact keeps_get
    | with_reducible exact keeps_drain
    | with_reducible refine keeps_bind ?_ fun _ => ?_
    | split

theorem keeps_translate (ea : Word) (w : Bool) : Keeps (translate ea w) := by
  unfold translate
  dsimp only
  repeat' first
    | with_reducible exact keeps_pure _
    | with_reducible exact keeps_throw _
    | with_reducible exact keeps_get
    | with_reducible exact keeps_check _ _ _
    | with_reducible exact keeps_curCore
    | with_reducible exact keeps_coreM _
    | with_reducible exact keeps_cc
    | with_reducible exact keeps_modCC _
    | with_reducible exact keeps_taskM
    | with_reducible exact keeps_modTaskM _
    | with_reducible exact keeps_waitUntil _
    | with_reducible exact keeps_trapP _ _ _ _
    | (with_reducible refine keeps_modify_mem fun _ => ?_; simp; done)
    | with_reducible exact keeps_tlbSearch _ _ _ _
    | with_reducible exact keeps_drain
    | with_reducible exact keeps_noteShip _
    | with_reducible exact keeps_shipAnswered _
    | with_reducible refine keeps_bind ?_ fun _ => ?_
    | split

theorem keeps_placeOf (ea : Word) (n : Nat) (w : Bool) : Keeps (placeOf ea n w) := by
  unfold placeOf
  repeat' first
    | with_reducible exact keeps_pure _
    | with_reducible exact keeps_throw _
    | with_reducible exact keeps_get
    | with_reducible exact keeps_check _ _ _
    | with_reducible exact keeps_curCore
    | with_reducible exact keeps_coreM _
    | with_reducible exact keeps_cc
    | with_reducible exact keeps_modCC _
    | with_reducible exact keeps_taskM
    | with_reducible exact keeps_modTaskM _
    | with_reducible exact keeps_waitUntil _
    | with_reducible exact keeps_trapP _ _ _ _
    | (with_reducible refine keeps_modify_mem fun _ => ?_; simp; done)
    | with_reducible exact keeps_translate _ _
    | with_reducible refine keeps_bind ?_ fun _ => ?_
    | split

theorem keeps_enqueue (p : Place) (b : List Byte) (r : Bool) : Keeps (enqueue p b r) := by
  unfold enqueue
  repeat' first
    | with_reducible exact keeps_pure _
    | with_reducible exact keeps_throw _
    | with_reducible exact keeps_get
    | with_reducible exact keeps_check _ _ _
    | with_reducible exact keeps_curCore
    | with_reducible exact keeps_coreM _
    | with_reducible exact keeps_cc
    | with_reducible exact keeps_modCC _
    | with_reducible exact keeps_taskM
    | with_reducible exact keeps_modTaskM _
    | with_reducible exact keeps_waitUntil _
    | with_reducible exact keeps_trapP _ _ _ _
    | (with_reducible refine keeps_modify_mem fun _ => ?_; simp; done)
    | assumption
    | with_reducible refine keeps_bind ?_ fun _ => ?_
    | split

theorem keeps_storePlace (ea : Word) (n : Nat) : Keeps (storePlace ea n) := by
  unfold storePlace tableBad
  repeat' first
    | with_reducible exact keeps_pure _
    | with_reducible exact keeps_throw _
    | with_reducible exact keeps_get
    | with_reducible exact keeps_check _ _ _
    | with_reducible exact keeps_curCore
    | with_reducible exact keeps_coreM _
    | with_reducible exact keeps_cc
    | with_reducible exact keeps_modCC _
    | with_reducible exact keeps_taskM
    | with_reducible exact keeps_modTaskM _
    | with_reducible exact keeps_waitUntil _
    | with_reducible exact keeps_trapP _ _ _ _
    | (with_reducible refine keeps_modify_mem fun _ => ?_; simp; done)
    | with_reducible exact keeps_placeOf _ _ _
    | with_reducible refine keeps_bind ?_ fun _ => ?_
    | split

theorem keeps_storeBytes (ea : Word) (b : List Byte) (r : Bool) : Keeps (storeBytes ea b r) :=
  keeps_bind (keeps_storePlace _ _) fun _ => keeps_enqueue _ _ _
@[simp] theorem l1Load_mem (c l : Nat) (s : State) : (l1Load c l s).1.mem = s.mem := by
  unfold l1Load; dsimp only
  repeat' split
  all_goals simp

theorem keeps_countLoad (c pa : Nat) : Keeps (countLoad c pa) := by
  unfold countLoad
  refine keeps_bind keeps_get fun s => keeps_bind keeps_taskM fun t => keeps_bind (keeps_modify_mem fun s => ?_) fun _ => keeps_modTaskM _
  dsimp only; split <;> simp

theorem keeps_readPlace (ea : Word) (n : Nat) (p : Place) : Keeps (readPlace ea n p) := by
  unfold readPlace
  repeat' first
    | with_reducible exact keeps_pure _
    | with_reducible exact keeps_throw _
    | with_reducible exact keeps_get
    | (with_reducible refine keeps_get_bind fun _ _ => ?_)
    | (with_reducible refine keeps_set (canonical_of_mem (l1Load_mem ..) ?_); assumption)
    | with_reducible exact keeps_check _ _ _
    | with_reducible exact keeps_curCore
    | with_reducible exact keeps_coreM _
    | with_reducible exact keeps_cc
    | with_reducible exact keeps_modCC _
    | with_reducible exact keeps_taskM
    | with_reducible exact keeps_modTaskM _
    | with_reducible exact keeps_waitUntil _
    | with_reducible exact keeps_trapP _ _ _ _
    | with_reducible exact keeps_wg _ _
    | with_reducible exact keeps_acquire _ _ _ _ _ _ _
    | with_reducible exact keeps_placeOf _ _ _
    | with_reducible exact keeps_drainOne _
    | with_reducible exact keeps_enqueue _ _ _
    | with_reducible exact keeps_storePlace _ _
    | with_reducible exact keeps_storeBytes _ _ _
    | with_reducible exact keeps_tlbSearch _ _ _ _
    | (with_reducible refine keeps_modify_mem fun _ => ?_; simp; done)
    | assumption
    | with_reducible refine keeps_bind ?_ fun _ => ?_
    | with_reducible exact keeps_countLoad _ _
    | split
    | dsimp only

theorem keeps_loadBytes (ea : Word) (n : Nat) : Keeps (loadBytes ea n) :=
  keeps_bind (keeps_placeOf _ _ _) fun _ => keeps_readPlace _ _ _

theorem keeps_loadWords (ea : Word) : ∀ n, Keeps (loadWords ea n)
  | 0 => keeps_pure []
  | n + 1 => keeps_bind (keeps_map (keeps_loadBytes ea 8)) fun _ => keeps_bind (keeps_loadWords _ n) fun _ => keeps_pure _

theorem keeps_checkStores (ps : List (Word × List Byte)) : Keeps (checkStores ps) :=
  keeps_mapEach (fun _ => keeps_bind (keeps_storePlace _ _) fun _ => keeps_pure _) ps

theorem keeps_engineTranslate (t c a : Nat) (p : Bool) (ea : Word) (w : Bool) : Keeps (engineTranslate t c a p ea w) := by
  unfold engineTranslate
  repeat' first
    | with_reducible exact keeps_pure _
    | with_reducible exact keeps_throw _
    | with_reducible exact keeps_get
    | (with_reducible refine keeps_get_bind fun _ _ => ?_)
    | with_reducible exact keeps_check _ _ _
    | with_reducible exact keeps_coreM _
    | with_reducible exact keeps_acquireOnce _ _ _ _ _ _ _
    | with_reducible exact keeps_tlbSearch _ _ _ _
    | (with_reducible refine keeps_set ?_; refine canonical_of_mem ?_ ‹State.Canonical _›; rfl)
    | (with_reducible refine keeps_modify_mem fun _ => ?_; simp; done)
    | assumption
    | with_reducible refine keeps_bind ?_ fun _ => ?_
    | split

theorem keeps_answering {m : M (Except Nat α)} (h : Keeps m) : Keeps (answering m) := by
  intro s hs
  have := h s hs
  unfold answering
  simp only [tryCatch, tryCatchThe, MonadExceptOf.tryCatch, EStateM.tryCatch]
  cases hm : m s with
  | ok a t => rw [hm] at this; exact this
  | error e t => rw [hm] at this; cases e <;> exact this

theorem keeps_enginePlace (t c a : Nat) (p : Bool) (ea : Word) (n : Nat) (w : Bool) : Keeps (enginePlace t c a p ea n w) := by
  unfold enginePlace
  repeat' first
    | with_reducible exact keeps_pure _
    | with_reducible exact keeps_throw _
    | with_reducible exact keeps_get
    | (with_reducible refine keeps_get_bind fun _ _ => ?_)
    | with_reducible exact keeps_check _ _ _
    | with_reducible exact keeps_coreM _
    | with_reducible exact keeps_acquireOnce _ _ _ _ _ _ _
    | with_reducible exact keeps_tlbSearch _ _ _ _
    | (with_reducible refine keeps_set ?_; refine canonical_of_mem ?_ ‹State.Canonical _›; rfl)
    | (with_reducible refine keeps_modify_mem fun _ => ?_; simp; done)
    | with_reducible exact keeps_engineTranslate _ _ _ _ _ _
    | with_reducible refine keeps_bind ?_ fun _ => ?_
    | split

theorem keeps_engineReadAs (m : Bool) (c n : Nat) (p : Place) : Keeps (engineReadAs m c n p) := by
  unfold engineReadAs
  refine keeps_answering ?_
  repeat' first
    | with_reducible exact keeps_pure _
    | with_reducible exact keeps_throw _
    | with_reducible exact keeps_get
    | (with_reducible refine keeps_get_bind fun _ _ => ?_)
    | with_reducible exact keeps_check _ _ _
    | with_reducible exact keeps_coreM _
    | with_reducible exact keeps_acquireOnce _ _ _ _ _ _ _
    | with_reducible exact keeps_tlbSearch _ _ _ _
    | (with_reducible refine keeps_set ?_; refine canonical_of_mem ?_ ‹State.Canonical _›; rfl)
    | (with_reducible refine keeps_modify_mem fun _ => ?_; simp; done)
    | assumption
    | with_reducible refine keeps_bind ?_ fun _ => ?_
    | split

theorem keeps_engineWrite (c : Nat) (p : Place) (b : List Byte) : Keeps (engineWrite c p b) := by
  unfold engineWrite
  refine keeps_answering ?_
  repeat' first
    | with_reducible exact keeps_pure _
    | with_reducible exact keeps_throw _
    | with_reducible exact keeps_get
    | (with_reducible refine keeps_get_bind fun _ _ => ?_)
    | with_reducible exact keeps_check _ _ _
    | with_reducible exact keeps_coreM _
    | with_reducible exact keeps_acquireOnce _ _ _ _ _ _ _
    | with_reducible exact keeps_tlbSearch _ _ _ _
    | (with_reducible refine keeps_set ?_; refine canonical_of_mem ?_ ‹State.Canonical _›; rfl)
    | (with_reducible refine keeps_modify_mem fun _ => ?_; simp; done)
    | (with_reducible refine keeps_modify fun _ h => ?_; apply physPut_canonical; assumption)
    | with_reducible refine keeps_bind ?_ fun _ => ?_
    | split

theorem keeps_readRange (m : Bool) (t c a : Nat) (p : Bool) : ∀ l, Keeps (readRange m t c a p l)
  | [] => keeps_pure _
  | (ea, n) :: r => by
    have ih := keeps_readRange m t c a p r
    unfold readRange
    repeat' first
      | with_reducible exact keeps_pure _
      | with_reducible exact keeps_enginePlace _ _ _ _ _ _ _
      | with_reducible exact keeps_engineReadAs _ _ _ _
      | assumption
      | with_reducible refine keeps_bind ?_ fun _ => ?_
      | split

theorem keeps_writeRange (t c a : Nat) (p : Bool) : ∀ l b, Keeps (writeRange t c a p l b)
  | [], _ => keeps_pure _
  | (ea, n) :: r, b => by
    have ih := keeps_writeRange t c a p r (b.drop n)
    unfold writeRange
    repeat' first
      | with_reducible exact keeps_pure _
      | with_reducible exact keeps_enginePlace _ _ _ _ _ _ _
      | with_reducible exact keeps_engineWrite _ _ _
      | assumption
      | with_reducible refine keeps_bind ?_ fun _ => ?_
      | split
end

end Sys2Proof.Machine
end

