-- ==== Sys2Proof/Laws/Words.lean ====
section
/-! SUPPORT. The fields of a word that is put together field by field, and the decoder on such a word. -/

namespace Sys2Proof

/-- The field put last stands lowest. -/
theorem word_put_field {n : Nat} (h : Nat) (x : BitVec n) (hn : n ≤ 32) : (word (put h x)).extractLsb' 0 n = x := by
  apply BitVec.eq_of_toNat_eq
  simp only [word, put, BitVec.extractLsb'_toNat, BitVec.toNat_ofNat, Nat.shiftRight_zero]
  rw [Nat.mod_mod_of_dvd _ (Nat.pow_dvd_pow 2 hn), Nat.mul_add_mod_self_right, Nat.mod_eq_of_lt x.isLt]

/-- A bit of a word is the bit of its number. -/
theorem word_bit (m : Nat) {j : Nat} (hj : j < 32) : (word m).getLsbD j = m.testBit j := by
  rw [word, BitVec.getLsbD_ofNat]; simp [hj]

/-- A field above the one put last is a field of what was put before. -/
theorem word_put_above {n : Nat} (h : Nat) (x : BitVec n) (lo k : Nat) (hlo : n ≤ lo) (hk : lo + k ≤ 32) :
    (word (put h x)).extractLsb' lo k = (word h).extractLsb' (lo - n) k := by
  apply BitVec.eq_of_getLsbD_eq
  intro i hi
  rw [BitVec.getLsbD_extractLsb', BitVec.getLsbD_extractLsb', word_bit _ (by omega), word_bit _ (by omega),
    show lo + i = (lo - n + i) + n by omega, put, Nat.mul_comm, Nat.testBit_two_pow_mul_add _ x.isLt]
  simp

/-- A part of the field put last. -/
theorem word_put_below {n : Nat} (h : Nat) (x : BitVec n) (lo k : Nat) (hlo : lo + k ≤ n) (hn : n ≤ 32) :
    (word (put h x)).extractLsb' lo k = x.extractLsb' lo k := by
  apply BitVec.eq_of_getLsbD_eq
  intro i hi
  rw [BitVec.getLsbD_extractLsb', BitVec.getLsbD_extractLsb', word_bit _ (by omega), put, Nat.mul_comm,
    Nat.testBit_two_pow_mul_add _ x.isLt]
  simp [show lo + i < n by omega, BitVec.getElem_eq_testBit_toNat]

/-- The bytes of a word make the word. -/
theorem wordOfBytes_bytes (w : BitVec 32) :
    wordOfBytes (w.extractLsb' 0 8) (w.extractLsb' 8 8) (w.extractLsb' 16 8) (w.extractLsb' 24 8) = w := by
  unfold wordOfBytes
  apply BitVec.eq_of_getLsbD_eq
  intro i hi
  simp only [BitVec.getLsbD_append, BitVec.getLsbD_extractLsb']
  split
  · simp [*]
  · split
    · rename_i a b; simp [b, show 8 + (i - 8) = i by omega]
    · split
      · rename_i a b c; simp [c, show 16 + (i - 8 - 8) = i by omega]
      · rename_i a b c; simp [show i - 8 - 8 - 8 < 8 by omega, show 24 + (i - 8 - 8 - 8) = i by omega]

/-- The decoder on the bytes of a well-formed instruction of one word whose major opcode is `k`. -/
theorem decode_word (k : Nat) {i : Instr} {w : BitVec 32} (he : encode i = [w]) (hk : (w.extractLsb' 26 6).toNat = k)
    (hf : k ≠ 0x16) (hm : decodeMajor k w 0 = some (i, true)) (h : WellFormed i = true) (rest : List (BitVec 8)) :
    decode (encodeBytes i ++ rest) = .ok (i, rest) := by
  have h0 : (w.extractLsb' 26 6 == 0x16#6) = false := by
    rw [beq_eq_false_iff_ne]
    intro e; apply hf; rw [← hk, e]; rfl
  have hd : i.defined = true ∧ i.reservedZero = true := by
    simp only [WellFormed, Bool.and_eq_true] at h; exact ⟨h.1.2, h.2⟩
  simp only [encodeBytes, he, List.flatMap_cons, List.flatMap_nil, List.append_nil, bytesOfWord, decode, List.cons_append,
    List.nil_append, wordOfBytes_bytes, h0, decodeWords, hk, hm, hd.1, hd.2]
  rfl

end Sys2Proof
end

