-- ==== Sys2Proof/Laws/PerInstr.lean ====
section
/-! SUPPORT. The family Encoding, one lemma for each instruction: the decoder reads the encoding of a well-formed instruction back. An event
has no encoding and is not well-formed. -/

namespace Sys2Proof.Laws.Encoding

/-- The bytes of a well-formed instruction, whatever follows them, decode to the instruction and leave what follows. -/
def Statement (i : Instr) : Prop := WellFormed i = true → ∀ rest : List (BitVec 8), decode (encodeBytes i ++ rest) = .ok (i, rest)

theorem add (d : BitVec 5) (a : BitVec 5) (b : BitVec 5) : Statement (.add d a b) := fun h rest => by
  refine decode_word 1 rfl ?_ (by decide) ?_ h rest
  · simp [word_put_above]; decide
  · simp [show ∀ w v, decodeMajor 1 w v = decodeAlu (w.extractLsb' 6 5).toNat w from fun _ _ => rfl,
      show ∀ w, decodeAlu 0 w = some (.add (w.extractLsb' 21 5) (w.extractLsb' 16 5) (w.extractLsb' 11 5), w.extractLsb' 0 6 == 0) from fun _ => rfl, word_put_above, word_put_below]

theorem sub (d : BitVec 5) (a : BitVec 5) (b : BitVec 5) : Statement (.sub d a b) := fun h rest => by
  refine decode_word 1 rfl ?_ (by decide) ?_ h rest
  · simp [word_put_above]; decide
  · simp [show ∀ w v, decodeMajor 1 w v = decodeAlu (w.extractLsb' 6 5).toNat w from fun _ _ => rfl,
      show ∀ w, decodeAlu 1 w = some (.sub (w.extractLsb' 21 5) (w.extractLsb' 16 5) (w.extractLsb' 11 5), w.extractLsb' 0 6 == 0) from fun _ => rfl, word_put_above, word_put_below]

theorem mul (d : BitVec 5) (a : BitVec 5) (b : BitVec 5) : Statement (.mul d a b) := fun h rest => by
  refine decode_word 1 rfl ?_ (by decide) ?_ h rest
  · simp [word_put_above]; decide
  · simp [show ∀ w v, decodeMajor 1 w v = decodeAlu (w.extractLsb' 6 5).toNat w from fun _ _ => rfl,
      show ∀ w, decodeAlu 2 w = some (.mul (w.extractLsb' 21 5) (w.extractLsb' 16 5) (w.extractLsb' 11 5), w.extractLsb' 0 6 == 0) from fun _ => rfl, word_put_above, word_put_below]

theorem mulh (d : BitVec 5) (a : BitVec 5) (b : BitVec 5) : Statement (.mulh d a b) := fun h rest => by
  refine decode_word 1 rfl ?_ (by decide) ?_ h rest
  · simp [word_put_above]; decide
  · simp [show ∀ w v, decodeMajor 1 w v = decodeAlu (w.extractLsb' 6 5).toNat w from fun _ _ => rfl,
      show ∀ w, decodeAlu 3 w = some (.mulh (w.extractLsb' 21 5) (w.extractLsb' 16 5) (w.extractLsb' 11 5), w.extractLsb' 0 6 == 0) from fun _ => rfl, word_put_above, word_put_below]

theorem mulhz (d : BitVec 5) (a : BitVec 5) (b : BitVec 5) : Statement (.mulhz d a b) := fun h rest => by
  refine decode_word 1 rfl ?_ (by decide) ?_ h rest
  · simp [word_put_above]; decide
  · simp [show ∀ w v, decodeMajor 1 w v = decodeAlu (w.extractLsb' 6 5).toNat w from fun _ _ => rfl,
      show ∀ w, decodeAlu 4 w = some (.mulhz (w.extractLsb' 21 5) (w.extractLsb' 16 5) (w.extractLsb' 11 5), w.extractLsb' 0 6 == 0) from fun _ => rfl, word_put_above, word_put_below]

theorem div (d : BitVec 5) (a : BitVec 5) (b : BitVec 5) : Statement (.div d a b) := fun h rest => by
  refine decode_word 1 rfl ?_ (by decide) ?_ h rest
  · simp [word_put_above]; decide
  · simp [show ∀ w v, decodeMajor 1 w v = decodeAlu (w.extractLsb' 6 5).toNat w from fun _ _ => rfl,
      show ∀ w, decodeAlu 5 w = some (.div (w.extractLsb' 21 5) (w.extractLsb' 16 5) (w.extractLsb' 11 5), w.extractLsb' 0 6 == 0) from fun _ => rfl, word_put_above, word_put_below]

theorem divz (d : BitVec 5) (a : BitVec 5) (b : BitVec 5) : Statement (.divz d a b) := fun h rest => by
  refine decode_word 1 rfl ?_ (by decide) ?_ h rest
  · simp [word_put_above]; decide
  · simp [show ∀ w v, decodeMajor 1 w v = decodeAlu (w.extractLsb' 6 5).toNat w from fun _ _ => rfl,
      show ∀ w, decodeAlu 6 w = some (.divz (w.extractLsb' 21 5) (w.extractLsb' 16 5) (w.extractLsb' 11 5), w.extractLsb' 0 6 == 0) from fun _ => rfl, word_put_above, word_put_below]

theorem rem (d : BitVec 5) (a : BitVec 5) (b : BitVec 5) : Statement (.rem d a b) := fun h rest => by
  refine decode_word 1 rfl ?_ (by decide) ?_ h rest
  · simp [word_put_above]; decide
  · simp [show ∀ w v, decodeMajor 1 w v = decodeAlu (w.extractLsb' 6 5).toNat w from fun _ _ => rfl,
      show ∀ w, decodeAlu 7 w = some (.rem (w.extractLsb' 21 5) (w.extractLsb' 16 5) (w.extractLsb' 11 5), w.extractLsb' 0 6 == 0) from fun _ => rfl, word_put_above, word_put_below]

theorem remz (d : BitVec 5) (a : BitVec 5) (b : BitVec 5) : Statement (.remz d a b) := fun h rest => by
  refine decode_word 1 rfl ?_ (by decide) ?_ h rest
  · simp [word_put_above]; decide
  · simp [show ∀ w v, decodeMajor 1 w v = decodeAlu (w.extractLsb' 6 5).toNat w from fun _ _ => rfl,
      show ∀ w, decodeAlu 8 w = some (.remz (w.extractLsb' 21 5) (w.extractLsb' 16 5) (w.extractLsb' 11 5), w.extractLsb' 0 6 == 0) from fun _ => rfl, word_put_above, word_put_below]

theorem and (d : BitVec 5) (a : BitVec 5) (b : BitVec 5) : Statement (.and d a b) := fun h rest => by
  refine decode_word 1 rfl ?_ (by decide) ?_ h rest
  · simp [word_put_above]; decide
  · simp [show ∀ w v, decodeMajor 1 w v = decodeAlu (w.extractLsb' 6 5).toNat w from fun _ _ => rfl,
      show ∀ w, decodeAlu 9 w = some (.and (w.extractLsb' 21 5) (w.extractLsb' 16 5) (w.extractLsb' 11 5), w.extractLsb' 0 6 == 0) from fun _ => rfl, word_put_above, word_put_below]

theorem or (d : BitVec 5) (a : BitVec 5) (b : BitVec 5) : Statement (.or d a b) := fun h rest => by
  refine decode_word 1 rfl ?_ (by decide) ?_ h rest
  · simp [word_put_above]; decide
  · simp [show ∀ w v, decodeMajor 1 w v = decodeAlu (w.extractLsb' 6 5).toNat w from fun _ _ => rfl,
      show ∀ w, decodeAlu 10 w = some (.or (w.extractLsb' 21 5) (w.extractLsb' 16 5) (w.extractLsb' 11 5), w.extractLsb' 0 6 == 0) from fun _ => rfl, word_put_above, word_put_below]

theorem xor (d : BitVec 5) (a : BitVec 5) (b : BitVec 5) : Statement (.xor d a b) := fun h rest => by
  refine decode_word 1 rfl ?_ (by decide) ?_ h rest
  · simp [word_put_above]; decide
  · simp [show ∀ w v, decodeMajor 1 w v = decodeAlu (w.extractLsb' 6 5).toNat w from fun _ _ => rfl,
      show ∀ w, decodeAlu 11 w = some (.xor (w.extractLsb' 21 5) (w.extractLsb' 16 5) (w.extractLsb' 11 5), w.extractLsb' 0 6 == 0) from fun _ => rfl, word_put_above, word_put_below]

theorem andn (d : BitVec 5) (a : BitVec 5) (b : BitVec 5) : Statement (.andn d a b) := fun h rest => by
  refine decode_word 1 rfl ?_ (by decide) ?_ h rest
  · simp [word_put_above]; decide
  · simp [show ∀ w v, decodeMajor 1 w v = decodeAlu (w.extractLsb' 6 5).toNat w from fun _ _ => rfl,
      show ∀ w, decodeAlu 12 w = some (.andn (w.extractLsb' 21 5) (w.extractLsb' 16 5) (w.extractLsb' 11 5), w.extractLsb' 0 6 == 0) from fun _ => rfl, word_put_above, word_put_below]

theorem orn (d : BitVec 5) (a : BitVec 5) (b : BitVec 5) : Statement (.orn d a b) := fun h rest => by
  refine decode_word 1 rfl ?_ (by decide) ?_ h rest
  · simp [word_put_above]; decide
  · simp [show ∀ w v, decodeMajor 1 w v = decodeAlu (w.extractLsb' 6 5).toNat w from fun _ _ => rfl,
      show ∀ w, decodeAlu 13 w = some (.orn (w.extractLsb' 21 5) (w.extractLsb' 16 5) (w.extractLsb' 11 5), w.extractLsb' 0 6 == 0) from fun _ => rfl, word_put_above, word_put_below]

theorem shl (d : BitVec 5) (a : BitVec 5) (b : BitVec 5) : Statement (.shl d a b) := fun h rest => by
  refine decode_word 1 rfl ?_ (by decide) ?_ h rest
  · simp [word_put_above]; decide
  · simp [show ∀ w v, decodeMajor 1 w v = decodeAlu (w.extractLsb' 6 5).toNat w from fun _ _ => rfl,
      show ∀ w, decodeAlu 14 w = some (.shl (w.extractLsb' 21 5) (w.extractLsb' 16 5) (w.extractLsb' 11 5), w.extractLsb' 0 6 == 0) from fun _ => rfl, word_put_above, word_put_below]

theorem shr (d : BitVec 5) (a : BitVec 5) (b : BitVec 5) : Statement (.shr d a b) := fun h rest => by
  refine decode_word 1 rfl ?_ (by decide) ?_ h rest
  · simp [word_put_above]; decide
  · simp [show ∀ w v, decodeMajor 1 w v = decodeAlu (w.extractLsb' 6 5).toNat w from fun _ _ => rfl,
      show ∀ w, decodeAlu 15 w = some (.shr (w.extractLsb' 21 5) (w.extractLsb' 16 5) (w.extractLsb' 11 5), w.extractLsb' 0 6 == 0) from fun _ => rfl, word_put_above, word_put_below]

theorem sha (d : BitVec 5) (a : BitVec 5) (b : BitVec 5) : Statement (.sha d a b) := fun h rest => by
  refine decode_word 1 rfl ?_ (by decide) ?_ h rest
  · simp [word_put_above]; decide
  · simp [show ∀ w v, decodeMajor 1 w v = decodeAlu (w.extractLsb' 6 5).toNat w from fun _ _ => rfl,
      show ∀ w, decodeAlu 16 w = some (.sha (w.extractLsb' 21 5) (w.extractLsb' 16 5) (w.extractLsb' 11 5), w.extractLsb' 0 6 == 0) from fun _ => rfl, word_put_above, word_put_below]

theorem rol (d : BitVec 5) (a : BitVec 5) (b : BitVec 5) : Statement (.rol d a b) := fun h rest => by
  refine decode_word 1 rfl ?_ (by decide) ?_ h rest
  · simp [word_put_above]; decide
  · simp [show ∀ w v, decodeMajor 1 w v = decodeAlu (w.extractLsb' 6 5).toNat w from fun _ _ => rfl,
      show ∀ w, decodeAlu 17 w = some (.rol (w.extractLsb' 21 5) (w.extractLsb' 16 5) (w.extractLsb' 11 5), w.extractLsb' 0 6 == 0) from fun _ => rfl, word_put_above, word_put_below]

theorem ror (d : BitVec 5) (a : BitVec 5) (b : BitVec 5) : Statement (.ror d a b) := fun h rest => by
  refine decode_word 1 rfl ?_ (by decide) ?_ h rest
  · simp [word_put_above]; decide
  · simp [show ∀ w v, decodeMajor 1 w v = decodeAlu (w.extractLsb' 6 5).toNat w from fun _ _ => rfl,
      show ∀ w, decodeAlu 18 w = some (.ror (w.extractLsb' 21 5) (w.extractLsb' 16 5) (w.extractLsb' 11 5), w.extractLsb' 0 6 == 0) from fun _ => rfl, word_put_above, word_put_below]

theorem slt (d : BitVec 5) (a : BitVec 5) (b : BitVec 5) : Statement (.slt d a b) := fun h rest => by
  refine decode_word 1 rfl ?_ (by decide) ?_ h rest
  · simp [word_put_above]; decide
  · simp [show ∀ w v, decodeMajor 1 w v = decodeAlu (w.extractLsb' 6 5).toNat w from fun _ _ => rfl,
      show ∀ w, decodeAlu 19 w = some (.slt (w.extractLsb' 21 5) (w.extractLsb' 16 5) (w.extractLsb' 11 5), w.extractLsb' 0 6 == 0) from fun _ => rfl, word_put_above, word_put_below]

theorem sltz (d : BitVec 5) (a : BitVec 5) (b : BitVec 5) : Statement (.sltz d a b) := fun h rest => by
  refine decode_word 1 rfl ?_ (by decide) ?_ h rest
  · simp [word_put_above]; decide
  · simp [show ∀ w v, decodeMajor 1 w v = decodeAlu (w.extractLsb' 6 5).toNat w from fun _ _ => rfl,
      show ∀ w, decodeAlu 20 w = some (.sltz (w.extractLsb' 21 5) (w.extractLsb' 16 5) (w.extractLsb' 11 5), w.extractLsb' 0 6 == 0) from fun _ => rfl, word_put_above, word_put_below]

theorem seq (d : BitVec 5) (a : BitVec 5) (b : BitVec 5) : Statement (.seq d a b) := fun h rest => by
  refine decode_word 1 rfl ?_ (by decide) ?_ h rest
  · simp [word_put_above]; decide
  · simp [show ∀ w v, decodeMajor 1 w v = decodeAlu (w.extractLsb' 6 5).toNat w from fun _ _ => rfl,
      show ∀ w, decodeAlu 21 w = some (.seq (w.extractLsb' 21 5) (w.extractLsb' 16 5) (w.extractLsb' 11 5), w.extractLsb' 0 6 == 0) from fun _ => rfl, word_put_above, word_put_below]

theorem min (d : BitVec 5) (a : BitVec 5) (b : BitVec 5) : Statement (.min d a b) := fun h rest => by
  refine decode_word 1 rfl ?_ (by decide) ?_ h rest
  · simp [word_put_above]; decide
  · simp [show ∀ w v, decodeMajor 1 w v = decodeAlu (w.extractLsb' 6 5).toNat w from fun _ _ => rfl,
      show ∀ w, decodeAlu 22 w = some (.min (w.extractLsb' 21 5) (w.extractLsb' 16 5) (w.extractLsb' 11 5), w.extractLsb' 0 6 == 0) from fun _ => rfl, word_put_above, word_put_below]

theorem max (d : BitVec 5) (a : BitVec 5) (b : BitVec 5) : Statement (.max d a b) := fun h rest => by
  refine decode_word 1 rfl ?_ (by decide) ?_ h rest
  · simp [word_put_above]; decide
  · simp [show ∀ w v, decodeMajor 1 w v = decodeAlu (w.extractLsb' 6 5).toNat w from fun _ _ => rfl,
      show ∀ w, decodeAlu 23 w = some (.max (w.extractLsb' 21 5) (w.extractLsb' 16 5) (w.extractLsb' 11 5), w.extractLsb' 0 6 == 0) from fun _ => rfl, word_put_above, word_put_below]

theorem minz (d : BitVec 5) (a : BitVec 5) (b : BitVec 5) : Statement (.minz d a b) := fun h rest => by
  refine decode_word 1 rfl ?_ (by decide) ?_ h rest
  · simp [word_put_above]; decide
  · simp [show ∀ w v, decodeMajor 1 w v = decodeAlu (w.extractLsb' 6 5).toNat w from fun _ _ => rfl,
      show ∀ w, decodeAlu 24 w = some (.minz (w.extractLsb' 21 5) (w.extractLsb' 16 5) (w.extractLsb' 11 5), w.extractLsb' 0 6 == 0) from fun _ => rfl, word_put_above, word_put_below]

theorem maxz (d : BitVec 5) (a : BitVec 5) (b : BitVec 5) : Statement (.maxz d a b) := fun h rest => by
  refine decode_word 1 rfl ?_ (by decide) ?_ h rest
  · simp [word_put_above]; decide
  · simp [show ∀ w v, decodeMajor 1 w v = decodeAlu (w.extractLsb' 6 5).toNat w from fun _ _ => rfl,
      show ∀ w, decodeAlu 25 w = some (.maxz (w.extractLsb' 21 5) (w.extractLsb' 16 5) (w.extractLsb' 11 5), w.extractLsb' 0 6 == 0) from fun _ => rfl, word_put_above, word_put_below]

theorem clz (d : BitVec 5) (a : BitVec 5) : Statement (.clz d a) := fun h rest => by
  refine decode_word 1 rfl ?_ (by decide) ?_ h rest
  · simp [word_put_above]; decide
  · simp [show ∀ w v, decodeMajor 1 w v = decodeAlu (w.extractLsb' 6 5).toNat w from fun _ _ => rfl,
      show ∀ w, decodeAlu 26 w = some (.clz (w.extractLsb' 21 5) (w.extractLsb' 16 5), w.extractLsb' 11 5 == 0 && w.extractLsb' 0 6 == 0) from fun _ => rfl, word_put_above, word_put_below]

theorem ctz (d : BitVec 5) (a : BitVec 5) : Statement (.ctz d a) := fun h rest => by
  refine decode_word 1 rfl ?_ (by decide) ?_ h rest
  · simp [word_put_above]; decide
  · simp [show ∀ w v, decodeMajor 1 w v = decodeAlu (w.extractLsb' 6 5).toNat w from fun _ _ => rfl,
      show ∀ w, decodeAlu 27 w = some (.ctz (w.extractLsb' 21 5) (w.extractLsb' 16 5), w.extractLsb' 11 5 == 0 && w.extractLsb' 0 6 == 0) from fun _ => rfl, word_put_above, word_put_below]

theorem popc (d : BitVec 5) (a : BitVec 5) : Statement (.popc d a) := fun h rest => by
  refine decode_word 1 rfl ?_ (by decide) ?_ h rest
  · simp [word_put_above]; decide
  · simp [show ∀ w v, decodeMajor 1 w v = decodeAlu (w.extractLsb' 6 5).toNat w from fun _ _ => rfl,
      show ∀ w, decodeAlu 28 w = some (.popc (w.extractLsb' 21 5) (w.extractLsb' 16 5), w.extractLsb' 11 5 == 0 && w.extractLsb' 0 6 == 0) from fun _ => rfl, word_put_above, word_put_below]

theorem bswap (d : BitVec 5) (a : BitVec 5) : Statement (.bswap d a) := fun h rest => by
  refine decode_word 1 rfl ?_ (by decide) ?_ h rest
  · simp [word_put_above]; decide
  · simp [show ∀ w v, decodeMajor 1 w v = decodeAlu (w.extractLsb' 6 5).toNat w from fun _ _ => rfl,
      show ∀ w, decodeAlu 29 w = some (.bswap (w.extractLsb' 21 5) (w.extractLsb' 16 5), w.extractLsb' 11 5 == 0 && w.extractLsb' 0 6 == 0) from fun _ => rfl, word_put_above, word_put_below]

theorem addi (d : BitVec 5) (a : BitVec 5) (i : BitVec 16) : Statement (.addi d a i) := fun h rest => by
  refine decode_word 2 rfl ?_ (by decide) ?_ h rest
  · simp [word_put_above]; decide
  · simp [show ∀ w v, decodeMajor 2 w v = some (.addi (w.extractLsb' 21 5) (w.extractLsb' 16 5) (w.extractLsb' 0 16), true) from fun _ _ => rfl, word_put_above, word_put_below]

theorem andi (d : BitVec 5) (a : BitVec 5) (i : BitVec 16) : Statement (.andi d a i) := fun h rest => by
  refine decode_word 3 rfl ?_ (by decide) ?_ h rest
  · simp [word_put_above]; decide
  · simp [show ∀ w v, decodeMajor 3 w v = some (.andi (w.extractLsb' 21 5) (w.extractLsb' 16 5) (w.extractLsb' 0 16), true) from fun _ _ => rfl, word_put_above, word_put_below]

theorem ori (d : BitVec 5) (a : BitVec 5) (i : BitVec 16) : Statement (.ori d a i) := fun h rest => by
  refine decode_word 4 rfl ?_ (by decide) ?_ h rest
  · simp [word_put_above]; decide
  · simp [show ∀ w v, decodeMajor 4 w v = some (.ori (w.extractLsb' 21 5) (w.extractLsb' 16 5) (w.extractLsb' 0 16), true) from fun _ _ => rfl, word_put_above, word_put_below]

theorem xori (d : BitVec 5) (a : BitVec 5) (i : BitVec 16) : Statement (.xori d a i) := fun h rest => by
  refine decode_word 5 rfl ?_ (by decide) ?_ h rest
  · simp [word_put_above]; decide
  · simp [show ∀ w v, decodeMajor 5 w v = some (.xori (w.extractLsb' 21 5) (w.extractLsb' 16 5) (w.extractLsb' 0 16), true) from fun _ _ => rfl, word_put_above, word_put_below]

theorem slti (d : BitVec 5) (a : BitVec 5) (i : BitVec 16) : Statement (.slti d a i) := fun h rest => by
  refine decode_word 6 rfl ?_ (by decide) ?_ h rest
  · simp [word_put_above]; decide
  · simp [show ∀ w v, decodeMajor 6 w v = some (.slti (w.extractLsb' 21 5) (w.extractLsb' 16 5) (w.extractLsb' 0 16), true) from fun _ _ => rfl, word_put_above, word_put_below]

theorem sltiz (d : BitVec 5) (a : BitVec 5) (i : BitVec 16) : Statement (.sltiz d a i) := fun h rest => by
  refine decode_word 7 rfl ?_ (by decide) ?_ h rest
  · simp [word_put_above]; decide
  · simp [show ∀ w v, decodeMajor 7 w v = some (.sltiz (w.extractLsb' 21 5) (w.extractLsb' 16 5) (w.extractLsb' 0 16), true) from fun _ _ => rfl, word_put_above, word_put_below]

theorem shli (d : BitVec 5) (a : BitVec 5) (n : BitVec 6) : Statement (.shli d a n) := fun h rest => by
  refine decode_word 8 rfl ?_ (by decide) ?_ h rest
  · simp [word_put_above]; decide
  · simp [show ∀ w v, decodeMajor 8 w v = decodeShi (w.extractLsb' 6 2).toNat w from fun _ _ => rfl,
      show ∀ w, decodeShi 0 w = some (.shli (w.extractLsb' 21 5) (w.extractLsb' 16 5) (w.extractLsb' 0 6), w.extractLsb' 8 8 == 0) from fun _ => rfl, word_put_above, word_put_below]

theorem shri (d : BitVec 5) (a : BitVec 5) (n : BitVec 6) : Statement (.shri d a n) := fun h rest => by
  refine decode_word 8 rfl ?_ (by decide) ?_ h rest
  · simp [word_put_above]; decide
  · simp [show ∀ w v, decodeMajor 8 w v = decodeShi (w.extractLsb' 6 2).toNat w from fun _ _ => rfl,
      show ∀ w, decodeShi 1 w = some (.shri (w.extractLsb' 21 5) (w.extractLsb' 16 5) (w.extractLsb' 0 6), w.extractLsb' 8 8 == 0) from fun _ => rfl, word_put_above, word_put_below]

theorem shai (d : BitVec 5) (a : BitVec 5) (n : BitVec 6) : Statement (.shai d a n) := fun h rest => by
  refine decode_word 8 rfl ?_ (by decide) ?_ h rest
  · simp [word_put_above]; decide
  · simp [show ∀ w v, decodeMajor 8 w v = decodeShi (w.extractLsb' 6 2).toNat w from fun _ _ => rfl,
      show ∀ w, decodeShi 2 w = some (.shai (w.extractLsb' 21 5) (w.extractLsb' 16 5) (w.extractLsb' 0 6), w.extractLsb' 8 8 == 0) from fun _ => rfl, word_put_above, word_put_below]

theorem roli (d : BitVec 5) (a : BitVec 5) (n : BitVec 6) : Statement (.roli d a n) := fun h rest => by
  refine decode_word 8 rfl ?_ (by decide) ?_ h rest
  · simp [word_put_above]; decide
  · simp [show ∀ w v, decodeMajor 8 w v = decodeShi (w.extractLsb' 6 2).toNat w from fun _ _ => rfl,
      show ∀ w, decodeShi 3 w = some (.roli (w.extractLsb' 21 5) (w.extractLsb' 16 5) (w.extractLsb' 0 6), w.extractLsb' 8 8 == 0) from fun _ => rfl, word_put_above, word_put_below]

theorem lhi (d : BitVec 5) (i : BitVec 21) : Statement (.lhi d i) := fun h rest => by
  refine decode_word 9 rfl ?_ (by decide) ?_ h rest
  · simp [word_put_above]; decide
  · simp [show ∀ w v, decodeMajor 9 w v = some (.lhi (w.extractLsb' 21 5) (w.extractLsb' 0 21), true) from fun _ _ => rfl, word_put_above, word_put_below]

theorem ldl (d : BitVec 5) (o : BitVec 21) : Statement (.ldl d o) := fun h rest => by
  refine decode_word 10 rfl ?_ (by decide) ?_ h rest
  · simp [word_put_above]; decide
  · simp [show ∀ w v, decodeMajor 10 w v = some (.ldl (w.extractLsb' 21 5) (w.extractLsb' 0 21), true) from fun _ _ => rfl, word_put_above, word_put_below]

theorem ext (d : BitVec 5) (a : BitVec 5) (p : BitVec 5) (q : BitVec 1) (l : BitVec 6) : Statement (.ext d a p q l) := fun h rest => by
  refine decode_word 11 rfl ?_ (by decide) ?_ h rest
  · simp [word_put_above]; decide
  · simp [show ∀ w v, decodeMajor 11 w v = decodeBitf (w.extractLsb' 7 4).toNat w from fun _ _ => rfl,
      show ∀ w, decodeBitf 0 w = some (.ext (w.extractLsb' 21 5) (w.extractLsb' 16 5) (w.extractLsb' 11 5) (w.extractLsb' 6 1) (w.extractLsb' 0 6), true) from fun _ => rfl, word_put_above, word_put_below]

theorem extz (d : BitVec 5) (a : BitVec 5) (p : BitVec 5) (q : BitVec 1) (l : BitVec 6) : Statement (.extz d a p q l) := fun h rest => by
  refine decode_word 11 rfl ?_ (by decide) ?_ h rest
  · simp [word_put_above]; decide
  · simp [show ∀ w v, decodeMajor 11 w v = decodeBitf (w.extractLsb' 7 4).toNat w from fun _ _ => rfl,
      show ∀ w, decodeBitf 1 w = some (.extz (w.extractLsb' 21 5) (w.extractLsb' 16 5) (w.extractLsb' 11 5) (w.extractLsb' 6 1) (w.extractLsb' 0 6), true) from fun _ => rfl, word_put_above, word_put_below]

theorem ins (d : BitVec 5) (a : BitVec 5) (p : BitVec 5) (q : BitVec 1) (l : BitVec 6) : Statement (.ins d a p q l) := fun h rest => by
  refine decode_word 11 rfl ?_ (by decide) ?_ h rest
  · simp [word_put_above]; decide
  · simp [show ∀ w v, decodeMajor 11 w v = decodeBitf (w.extractLsb' 7 4).toNat w from fun _ _ => rfl,
      show ∀ w, decodeBitf 2 w = some (.ins (w.extractLsb' 21 5) (w.extractLsb' 16 5) (w.extractLsb' 11 5) (w.extractLsb' 6 1) (w.extractLsb' 0 6), true) from fun _ => rfl, word_put_above, word_put_below]

theorem beq (a : BitVec 5) (b : BitVec 5) (o : BitVec 16) : Statement (.beq a b o) := fun h rest => by
  refine decode_word 12 rfl ?_ (by decide) ?_ h rest
  · simp [word_put_above]; decide
  · simp [show ∀ w v, decodeMajor 12 w v = some (.beq (w.extractLsb' 21 5) (w.extractLsb' 16 5) (w.extractLsb' 0 16), true) from fun _ _ => rfl, word_put_above, word_put_below]

theorem bne (a : BitVec 5) (b : BitVec 5) (o : BitVec 16) : Statement (.bne a b o) := fun h rest => by
  refine decode_word 13 rfl ?_ (by decide) ?_ h rest
  · simp [word_put_above]; decide
  · simp [show ∀ w v, decodeMajor 13 w v = some (.bne (w.extractLsb' 21 5) (w.extractLsb' 16 5) (w.extractLsb' 0 16), true) from fun _ _ => rfl, word_put_above, word_put_below]

theorem blt (a : BitVec 5) (b : BitVec 5) (o : BitVec 16) : Statement (.blt a b o) := fun h rest => by
  refine decode_word 14 rfl ?_ (by decide) ?_ h rest
  · simp [word_put_above]; decide
  · simp [show ∀ w v, decodeMajor 14 w v = some (.blt (w.extractLsb' 21 5) (w.extractLsb' 16 5) (w.extractLsb' 0 16), true) from fun _ _ => rfl, word_put_above, word_put_below]

theorem bge (a : BitVec 5) (b : BitVec 5) (o : BitVec 16) : Statement (.bge a b o) := fun h rest => by
  refine decode_word 15 rfl ?_ (by decide) ?_ h rest
  · simp [word_put_above]; decide
  · simp [show ∀ w v, decodeMajor 15 w v = some (.bge (w.extractLsb' 21 5) (w.extractLsb' 16 5) (w.extractLsb' 0 16), true) from fun _ _ => rfl, word_put_above, word_put_below]

theorem bltz (a : BitVec 5) (o : BitVec 16) : Statement (.bltz a o) := fun h rest => by
  refine decode_word 16 rfl ?_ (by decide) ?_ h rest
  · simp [word_put_above]; decide
  · simp [show ∀ w v, decodeMajor 16 w v = some (.bltz (w.extractLsb' 21 5) (w.extractLsb' 0 16), w.extractLsb' 16 5 == 0) from fun _ _ => rfl, word_put_above, word_put_below]

theorem bgez (a : BitVec 5) (o : BitVec 16) : Statement (.bgez a o) := fun h rest => by
  refine decode_word 17 rfl ?_ (by decide) ?_ h rest
  · simp [word_put_above]; decide
  · simp [show ∀ w v, decodeMajor 17 w v = some (.bgez (w.extractLsb' 21 5) (w.extractLsb' 0 16), w.extractLsb' 16 5 == 0) from fun _ _ => rfl, word_put_above, word_put_below]

theorem j (o : BitVec 26) : Statement (.j o) := fun h rest => by
  refine decode_word 18 rfl ?_ (by decide) ?_ h rest
  · simp [word_put_above]; decide
  · simp [show ∀ w v, decodeMajor 18 w v = some (.j (w.extractLsb' 0 26), true) from fun _ _ => rfl, word_put_below]

theorem call (o : BitVec 26) : Statement (.call o) := fun h rest => by
  refine decode_word 19 rfl ?_ (by decide) ?_ h rest
  · simp [word_put_above]; decide
  · simp [show ∀ w v, decodeMajor 19 w v = some (.call (w.extractLsb' 0 26), true) from fun _ _ => rfl, word_put_below]

theorem jr (d : BitVec 5) (a : BitVec 5) : Statement (.jr d a) := fun h rest => by
  refine decode_word 20 rfl ?_ (by decide) ?_ h rest
  · simp [word_put_above]; decide
  · simp [show ∀ w v, decodeMajor 20 w v = decodeJr (w.extractLsb' 6 5).toNat w from fun _ _ => rfl,
      show ∀ w, decodeJr 0 w = some (.jr (w.extractLsb' 21 5) (w.extractLsb' 16 5), w.extractLsb' 11 5 == 0 && w.extractLsb' 0 6 == 0) from fun _ => rfl, word_put_above, word_put_below]

theorem loop (a : BitVec 5) (i : BitVec 16) : Statement (.loop a i) := fun h rest => by
  refine decode_word 21 rfl ?_ (by decide) ?_ h rest
  · simp [word_put_above]; decide
  · simp [show ∀ w v, decodeMajor 21 w v = some (.loop (w.extractLsb' 16 5) (w.extractLsb' 0 16), w.extractLsb' 21 5 == 0) from fun _ _ => rfl, word_put_above, word_put_below]

theorem frame (len : BitVec 5) (ra : BitVec 5) (stg : BitVec 4) (cnt : BitVec 16) (rot : BitVec 5) :
    Statement (.frame len ra stg cnt rot) := fun h rest => by
  have hd : Instr.reservedZero (.frame len ra stg cnt rot) = true := by
    simp only [WellFormed, Bool.and_eq_true] at h; exact h.2
  have he : encode (.frame len ra stg cnt rot) =
    [word (put (put (put (put 22 len) ra) stg) 0#12), word (put (put (put 63 cnt) rot) 0#5)] := rfl
  generalize hw : word (put (put (put (put 22 len) ra) stg) 0#12) = w at he
  generalize hv : word (put (put (put 63 cnt) rot) 0#5) = v at he
  have hk : w.extractLsb' 26 6 = 22#6 := by rw [← hw]; simp [word_put_above]; decide
  have hf : decodeFrame w v = some (.frame len ra stg cnt rot, true) := by
    have hk : v.extractLsb' 26 6 = 63#6 := by rw [← hv]; simp [word_put_above]; decide
    rw [decodeFrame, hk, ← hw, ← hv]
    simp [word_put_above, word_put_field]
  have hm : decodeMajor (w.extractLsb' 26 6).toNat w v = some (.frame len ra stg cnt rot, true) := by
    rw [hk, ← hf]; rfl
  simp only [encodeBytes, he, List.flatMap_cons, List.flatMap_nil, List.append_nil, bytesOfWord, decode, List.cons_append,
    List.nil_append, wordOfBytes_bytes, decodeWords, hm, Instr.defined, hd]
  rw [hk]
  rfl

theorem qget (a : BitVec 5) (q : BitVec 3) : Statement (.qget a q) := fun h rest => by
  refine decode_word 23 rfl ?_ (by decide) ?_ h rest
  · simp [word_put_above]; decide
  · simp [show ∀ w v, decodeMajor 23 w v = decodeQop (w.extractLsb' 21 5).toNat w from fun _ _ => rfl,
      show ∀ w, decodeQop 0 w = some (.qget (w.extractLsb' 16 5) (w.extractLsb' 11 3), w.extractLsb' 14 2 == 0 && w.extractLsb' 0 11 == 0) from fun _ => rfl, word_put_above, word_put_below]

theorem qset (a : BitVec 5) (q : BitVec 3) : Statement (.qset a q) := fun h rest => by
  refine decode_word 23 rfl ?_ (by decide) ?_ h rest
  · simp [word_put_above]; decide
  · simp [show ∀ w v, decodeMajor 23 w v = decodeQop (w.extractLsb' 21 5).toNat w from fun _ _ => rfl,
      show ∀ w, decodeQop 1 w = some (.qset (w.extractLsb' 16 5) (w.extractLsb' 11 3), w.extractLsb' 14 2 == 0 && w.extractLsb' 0 11 == 0) from fun _ => rfl, word_put_above, word_put_below]

theorem qlen (a : BitVec 5) (q : BitVec 3) : Statement (.qlen a q) := fun h rest => by
  refine decode_word 23 rfl ?_ (by decide) ?_ h rest
  · simp [word_put_above]; decide
  · simp [show ∀ w v, decodeMajor 23 w v = decodeQop (w.extractLsb' 21 5).toNat w from fun _ _ => rfl,
      show ∀ w, decodeQop 2 w = some (.qlen (w.extractLsb' 16 5) (w.extractLsb' 11 3), w.extractLsb' 14 2 == 0 && w.extractLsb' 0 11 == 0) from fun _ => rfl, word_put_above, word_put_below]

theorem bqp (a : BitVec 5) : Statement (.bqp a) := fun h rest => by
  refine decode_word 23 rfl ?_ (by decide) ?_ h rest
  · simp [word_put_above]; decide
  · simp [show ∀ w v, decodeMajor 23 w v = decodeQop (w.extractLsb' 21 5).toNat w from fun _ _ => rfl,
      show ∀ w, decodeQop 3 w = some (.bqp (w.extractLsb' 16 5), w.extractLsb' 0 16 == 0) from fun _ => rfl, word_put_above, word_put_below]

theorem bqb (o : BitVec 16) : Statement (.bqb o) := fun h rest => by
  refine decode_word 23 rfl ?_ (by decide) ?_ h rest
  · simp [word_put_above]; decide
  · simp [show ∀ w v, decodeMajor 23 w v = decodeQop (w.extractLsb' 21 5).toNat w from fun _ _ => rfl,
      show ∀ w, decodeQop 4 w = some (.bqb (w.extractLsb' 0 16), w.extractLsb' 16 5 == 0) from fun _ => rfl, word_put_above, word_put_below]

theorem split (i : BitVec 21) : Statement (.split i) := fun h rest => by
  refine decode_word 24 rfl ?_ (by decide) ?_ h rest
  · simp [word_put_above]; decide
  · simp [show ∀ w v, decodeMajor 24 w v = decodeSplit (w.extractLsb' 21 5).toNat w from fun _ _ => rfl,
      show ∀ w, decodeSplit 0 w = some (.split (w.extractLsb' 0 21), true) from fun _ => rfl, word_put_above, word_put_below]

theorem aend : Statement .aend := fun h rest => by
  refine decode_word 24 rfl ?_ (by decide) ?_ h rest
  · simp [word_put_above]; decide
  · simp [show ∀ w v, decodeMajor 24 w v = decodeSplit (w.extractLsb' 21 5).toNat w from fun _ _ => rfl,
      show ∀ w, decodeSplit 1 w = some (.aend, w.extractLsb' 0 21 == 0) from fun _ => rfl, word_put_above, word_put_below]

theorem spawn (a : BitVec 5) : Statement (.spawn a) := fun h rest => by
  refine decode_word 25 rfl ?_ (by decide) ?_ h rest
  · simp [word_put_above]; decide
  · simp [show ∀ w v, decodeMajor 25 w v = decodeTask (w.extractLsb' 21 5).toNat w from fun _ _ => rfl,
      show ∀ w, decodeTask 0 w = some (.spawn (w.extractLsb' 16 5), w.extractLsb' 0 16 == 0) from fun _ => rfl, word_put_above, word_put_below]

theorem fork (a : BitVec 5) (o : BitVec 16) : Statement (.fork a o) := fun h rest => by
  refine decode_word 25 rfl ?_ (by decide) ?_ h rest
  · simp [word_put_above]; decide
  · simp [show ∀ w v, decodeMajor 25 w v = decodeTask (w.extractLsb' 21 5).toNat w from fun _ _ => rfl,
      show ∀ w, decodeTask 1 w = some (.fork (w.extractLsb' 16 5) (w.extractLsb' 0 16), true) from fun _ => rfl, word_put_above, word_put_below]

theorem join (a : BitVec 5) (o : BitVec 16) : Statement (.join a o) := fun h rest => by
  refine decode_word 25 rfl ?_ (by decide) ?_ h rest
  · simp [word_put_above]; decide
  · simp [show ∀ w v, decodeMajor 25 w v = decodeTask (w.extractLsb' 21 5).toNat w from fun _ _ => rfl,
      show ∀ w, decodeTask 2 w = some (.join (w.extractLsb' 16 5) (w.extractLsb' 0 16), true) from fun _ => rfl, word_put_above, word_put_below]

theorem done : Statement .done := fun h rest => by
  refine decode_word 25 rfl ?_ (by decide) ?_ h rest
  · simp [word_put_above]; decide
  · simp [show ∀ w v, decodeMajor 25 w v = decodeTask (w.extractLsb' 21 5).toNat w from fun _ _ => rfl,
      show ∀ w, decodeTask 3 w = some (.done, w.extractLsb' 0 21 == 0) from fun _ => rfl, word_put_above, word_put_below]

theorem yield : Statement .yield := fun h rest => by
  refine decode_word 25 rfl ?_ (by decide) ?_ h rest
  · simp [word_put_above]; decide
  · simp [show ∀ w v, decodeMajor 25 w v = decodeTask (w.extractLsb' 21 5).toNat w from fun _ _ => rfl,
      show ∀ w, decodeTask 4 w = some (.yield, w.extractLsb' 0 21 == 0) from fun _ => rfl, word_put_above, word_put_below]

theorem lee (n : BitVec 6) : Statement (.lee n) := fun h rest => by
  refine decode_word 25 rfl ?_ (by decide) ?_ h rest
  · simp [word_put_above]; decide
  · simp [show ∀ w v, decodeMajor 25 w v = decodeTask (w.extractLsb' 21 5).toNat w from fun _ _ => rfl,
      show ∀ w, decodeTask 5 w = some (.lee (w.extractLsb' 0 6), w.extractLsb' 6 15 == 0) from fun _ => rfl, word_put_above, word_put_below]

theorem areg (a : BitVec 5) (k : BitVec 3) : Statement (.areg a k) := fun h rest => by
  refine decode_word 25 rfl ?_ (by decide) ?_ h rest
  · simp [word_put_above]; decide
  · simp [show ∀ w v, decodeMajor 25 w v = decodeTask (w.extractLsb' 21 5).toNat w from fun _ _ => rfl,
      show ∀ w, decodeTask 6 w = some (.areg (w.extractLsb' 16 5) (w.extractLsb' 0 3), w.extractLsb' 3 13 == 0) from fun _ => rfl, word_put_above, word_put_below]

theorem lnch (a : BitVec 5) (k : BitVec 4) (q : BitVec 6) : Statement (.lnch a k q) := fun h rest => by
  refine decode_word 25 rfl ?_ (by decide) ?_ h rest
  · simp [word_put_above]; decide
  · simp [show ∀ w v, decodeMajor 25 w v = decodeTask (w.extractLsb' 21 5).toNat w from fun _ _ => rfl,
      show ∀ w, decodeTask 7 w = some (.lnch (w.extractLsb' 16 5) (w.extractLsb' 6 4) (w.extractLsb' 0 6), w.extractLsb' 10 6 == 0) from fun _ => rfl, word_put_above, word_put_below]

theorem ld (d : BitVec 5) (a : BitVec 5) (s : BitVec 3) (o : BitVec 13) : Statement (.ld d a s o) := fun h rest => by
  refine decode_word 26 rfl ?_ (by decide) ?_ h rest
  · simp [word_put_above]; decide
  · simp [show ∀ w v, decodeMajor 26 w v = some (.ld (w.extractLsb' 21 5) (w.extractLsb' 16 5) (w.extractLsb' 13 3) (w.extractLsb' 0 13), true) from fun _ _ => rfl, word_put_above, word_put_below]

theorem st (d : BitVec 5) (a : BitVec 5) (s : BitVec 3) (o : BitVec 13) : Statement (.st d a s o) := fun h rest => by
  refine decode_word 27 rfl ?_ (by decide) ?_ h rest
  · simp [word_put_above]; decide
  · simp [show ∀ w v, decodeMajor 27 w v = some (.st (w.extractLsb' 21 5) (w.extractLsb' 16 5) (w.extractLsb' 13 3) (w.extractLsb' 0 13), true) from fun _ _ => rfl, word_put_above, word_put_below]

theorem ldx (d : BitVec 5) (a : BitVec 5) (b : BitVec 5) (c : BitVec 1) (s : BitVec 3) : Statement (.ldx d a b c s) := fun h rest => by
  refine decode_word 28 rfl ?_ (by decide) ?_ h rest
  · simp [word_put_above]; decide
  · simp [show ∀ w v, decodeMajor 28 w v = some (.ldx (w.extractLsb' 21 5) (w.extractLsb' 16 5) (w.extractLsb' 11 5) (w.extractLsb' 9 1) (w.extractLsb' 6 3), w.extractLsb' 10 1 == 0 && w.extractLsb' 0 6 == 0) from fun _ _ => rfl, word_put_above, word_put_below]

theorem stx (d : BitVec 5) (a : BitVec 5) (b : BitVec 5) (c : BitVec 1) (s : BitVec 3) : Statement (.stx d a b c s) := fun h rest => by
  refine decode_word 29 rfl ?_ (by decide) ?_ h rest
  · simp [word_put_above]; decide
  · simp [show ∀ w v, decodeMajor 29 w v = some (.stx (w.extractLsb' 21 5) (w.extractLsb' 16 5) (w.extractLsb' 11 5) (w.extractLsb' 9 1) (w.extractLsb' 6 3), w.extractLsb' 10 1 == 0 && w.extractLsb' 0 6 == 0) from fun _ _ => rfl, word_put_above, word_put_below]

theorem carve (k : BitVec 4) : Statement (.carve k) := fun h rest => by
  refine decode_word 30 rfl ?_ (by decide) ?_ h rest
  · simp [word_put_above]; decide
  · simp [show ∀ w v, decodeMajor 30 w v = decodeLsc (w.extractLsb' 21 5).toNat w from fun _ _ => rfl,
      show ∀ w, decodeLsc 0 w = some (.carve (w.extractLsb' 0 4), w.extractLsb' 4 17 == 0) from fun _ => rfl, word_put_above, word_put_below]

theorem pool (a : BitVec 5) : Statement (.pool a) := fun h rest => by
  refine decode_word 30 rfl ?_ (by decide) ?_ h rest
  · simp [word_put_above]; decide
  · simp [show ∀ w v, decodeMajor 30 w v = decodeLsc (w.extractLsb' 21 5).toNat w from fun _ _ => rfl,
      show ∀ w, decodeLsc 1 w = some (.pool (w.extractLsb' 16 5), w.extractLsb' 0 16 == 0) from fun _ => rfl, word_put_above, word_put_below]

theorem pref (a : BitVec 5) (l : BitVec 1) (o : BitVec 6) : Statement (.pref a l o) := fun h rest => by
  refine decode_word 30 rfl ?_ (by decide) ?_ h rest
  · simp [word_put_above]; decide
  · simp [show ∀ w v, decodeMajor 30 w v = decodeLsc (w.extractLsb' 21 5).toNat w from fun _ _ => rfl,
      show ∀ w, decodeLsc 2 w = some (.pref (w.extractLsb' 16 5) (w.extractLsb' 6 1) (w.extractLsb' 0 6), w.extractLsb' 7 9 == 0) from fun _ => rfl, word_put_above, word_put_below]

theorem l1fl (a : BitVec 5) : Statement (.l1fl a) := fun h rest => by
  refine decode_word 30 rfl ?_ (by decide) ?_ h rest
  · simp [word_put_above]; decide
  · simp [show ∀ w v, decodeMajor 30 w v = decodeLsc (w.extractLsb' 21 5).toNat w from fun _ _ => rfl,
      show ∀ w, decodeLsc 3 w = decodeLsc3 (w.extractLsb' 6 1).toNat w from fun _ => rfl,
      show ∀ w, decodeLsc3 0 w = some (.l1fl (w.extractLsb' 16 5), w.extractLsb' 7 9 == 0 && w.extractLsb' 0 6 == 0) from fun _ => rfl, word_put_above, word_put_below]

theorem l1flAll : Statement .l1flAll := fun h rest => by
  refine decode_word 30 rfl ?_ (by decide) ?_ h rest
  · simp [word_put_above]; decide
  · simp [show ∀ w v, decodeMajor 30 w v = decodeLsc (w.extractLsb' 21 5).toNat w from fun _ _ => rfl,
      show ∀ w, decodeLsc 3 w = decodeLsc3 (w.extractLsb' 6 1).toNat w from fun _ => rfl,
      show ∀ w, decodeLsc3 1 w = some (.l1flAll, w.extractLsb' 7 14 == 0 && w.extractLsb' 0 6 == 0) from fun _ => rfl, word_put_above, word_put_below]

theorem tlbw (a : BitVec 5) (b : BitVec 5) (c : BitVec 5) : Statement (.tlbw a b c) := fun h rest => by
  refine decode_word 31 rfl ?_ (by decide) ?_ h rest
  · simp [word_put_above]; decide
  · simp [show ∀ w v, decodeMajor 31 w v = decodePage (w.extractLsb' 21 5).toNat w from fun _ _ => rfl,
      show ∀ w, decodePage 0 w = some (.tlbw (w.extractLsb' 16 5) (w.extractLsb' 11 5) (w.extractLsb' 6 5), w.extractLsb' 0 6 == 0) from fun _ => rfl, word_put_above, word_put_below]

theorem tlbiVa (a : BitVec 5) (b : BitVec 5) : Statement (.tlbiVa a b) := fun h rest => by
  refine decode_word 31 rfl ?_ (by decide) ?_ h rest
  · simp [word_put_above]; decide
  · simp [show ∀ w v, decodeMajor 31 w v = decodePage (w.extractLsb' 21 5).toNat w from fun _ _ => rfl,
      show ∀ w, decodePage 1 w = decodePage1 (w.extractLsb' 0 2).toNat w from fun _ => rfl,
      show ∀ w, decodePage1 0 w = some (.tlbiVa (w.extractLsb' 16 5) (w.extractLsb' 11 5), w.extractLsb' 2 9 == 0) from fun _ => rfl, word_put_above, word_put_below]

theorem tlbiAsid (b : BitVec 5) : Statement (.tlbiAsid b) := fun h rest => by
  refine decode_word 31 rfl ?_ (by decide) ?_ h rest
  · simp [word_put_above]; decide
  · simp [show ∀ w v, decodeMajor 31 w v = decodePage (w.extractLsb' 21 5).toNat w from fun _ _ => rfl,
      show ∀ w, decodePage 1 w = decodePage1 (w.extractLsb' 0 2).toNat w from fun _ => rfl,
      show ∀ w, decodePage1 1 w = some (.tlbiAsid (w.extractLsb' 11 5), w.extractLsb' 16 5 == 0 && w.extractLsb' 2 9 == 0) from fun _ => rfl, word_put_above, word_put_below]

theorem tlbiAll : Statement .tlbiAll := fun h rest => by
  refine decode_word 31 rfl ?_ (by decide) ?_ h rest
  · simp [word_put_above]; decide
  · simp [show ∀ w v, decodeMajor 31 w v = decodePage (w.extractLsb' 21 5).toNat w from fun _ _ => rfl,
      show ∀ w, decodePage 1 w = decodePage1 (w.extractLsb' 0 2).toNat w from fun _ => rfl,
      show ∀ w, decodePage1 2 w = some (.tlbiAll, w.extractLsb' 2 19 == 0) from fun _ => rfl, word_put_above, word_put_below]

theorem wret (a : BitVec 5) (b : BitVec 5) (c : BitVec 5) (k : BitVec 3) : Statement (.wret a b c k) := fun h rest => by
  refine decode_word 31 rfl ?_ (by decide) ?_ h rest
  · simp [word_put_above]; decide
  · simp [show ∀ w v, decodeMajor 31 w v = decodePage (w.extractLsb' 21 5).toNat w from fun _ _ => rfl,
      show ∀ w, decodePage 2 w = some (.wret (w.extractLsb' 16 5) (w.extractLsb' 11 5) (w.extractLsb' 6 5) (w.extractLsb' 0 3), w.extractLsb' 3 3 == 0) from fun _ => rfl, word_put_above, word_put_below]

theorem regdone (a : BitVec 5) (b : BitVec 5) (c : BitVec 5) : Statement (.regdone a b c) := fun h rest => by
  refine decode_word 31 rfl ?_ (by decide) ?_ h rest
  · simp [word_put_above]; decide
  · simp [show ∀ w v, decodeMajor 31 w v = decodePage (w.extractLsb' 21 5).toNat w from fun _ _ => rfl,
      show ∀ w, decodePage 3 w = some (.regdone (w.extractLsb' 16 5) (w.extractLsb' 11 5) (w.extractLsb' 6 5), w.extractLsb' 0 6 == 0) from fun _ => rfl, word_put_above, word_put_below]

theorem amoAdd (d : BitVec 5) (a : BitVec 5) (b : BitVec 5) (r : BitVec 1) (q : BitVec 1) (w : BitVec 1) : Statement (.amoAdd d a b r q w) := fun h rest => by
  refine decode_word 32 rfl ?_ (by decide) ?_ h rest
  · simp [word_put_above]; decide
  · simp [show ∀ w v, decodeMajor 32 w v = decodeAmo (w.extractLsb' 6 5).toNat w from fun _ _ => rfl,
      show ∀ w, decodeAmo 0 w = some (.amoAdd (w.extractLsb' 21 5) (w.extractLsb' 16 5) (w.extractLsb' 11 5) (w.extractLsb' 2 1) (w.extractLsb' 1 1) (w.extractLsb' 0 1), w.extractLsb' 3 3 == 0) from fun _ => rfl, word_put_above, word_put_below]

theorem amoMin (d : BitVec 5) (a : BitVec 5) (b : BitVec 5) (r : BitVec 1) (q : BitVec 1) (w : BitVec 1) : Statement (.amoMin d a b r q w) := fun h rest => by
  refine decode_word 32 rfl ?_ (by decide) ?_ h rest
  · simp [word_put_above]; decide
  · simp [show ∀ w v, decodeMajor 32 w v = decodeAmo (w.extractLsb' 6 5).toNat w from fun _ _ => rfl,
      show ∀ w, decodeAmo 1 w = some (.amoMin (w.extractLsb' 21 5) (w.extractLsb' 16 5) (w.extractLsb' 11 5) (w.extractLsb' 2 1) (w.extractLsb' 1 1) (w.extractLsb' 0 1), w.extractLsb' 3 3 == 0) from fun _ => rfl, word_put_above, word_put_below]

theorem amoMax (d : BitVec 5) (a : BitVec 5) (b : BitVec 5) (r : BitVec 1) (q : BitVec 1) (w : BitVec 1) : Statement (.amoMax d a b r q w) := fun h rest => by
  refine decode_word 32 rfl ?_ (by decide) ?_ h rest
  · simp [word_put_above]; decide
  · simp [show ∀ w v, decodeMajor 32 w v = decodeAmo (w.extractLsb' 6 5).toNat w from fun _ _ => rfl,
      show ∀ w, decodeAmo 2 w = some (.amoMax (w.extractLsb' 21 5) (w.extractLsb' 16 5) (w.extractLsb' 11 5) (w.extractLsb' 2 1) (w.extractLsb' 1 1) (w.extractLsb' 0 1), w.extractLsb' 3 3 == 0) from fun _ => rfl, word_put_above, word_put_below]

theorem amoMinz (d : BitVec 5) (a : BitVec 5) (b : BitVec 5) (r : BitVec 1) (q : BitVec 1) (w : BitVec 1) : Statement (.amoMinz d a b r q w) := fun h rest => by
  refine decode_word 32 rfl ?_ (by decide) ?_ h rest
  · simp [word_put_above]; decide
  · simp [show ∀ w v, decodeMajor 32 w v = decodeAmo (w.extractLsb' 6 5).toNat w from fun _ _ => rfl,
      show ∀ w, decodeAmo 3 w = some (.amoMinz (w.extractLsb' 21 5) (w.extractLsb' 16 5) (w.extractLsb' 11 5) (w.extractLsb' 2 1) (w.extractLsb' 1 1) (w.extractLsb' 0 1), w.extractLsb' 3 3 == 0) from fun _ => rfl, word_put_above, word_put_below]

theorem amoMaxz (d : BitVec 5) (a : BitVec 5) (b : BitVec 5) (r : BitVec 1) (q : BitVec 1) (w : BitVec 1) : Statement (.amoMaxz d a b r q w) := fun h rest => by
  refine decode_word 32 rfl ?_ (by decide) ?_ h rest
  · simp [word_put_above]; decide
  · simp [show ∀ w v, decodeMajor 32 w v = decodeAmo (w.extractLsb' 6 5).toNat w from fun _ _ => rfl,
      show ∀ w, decodeAmo 4 w = some (.amoMaxz (w.extractLsb' 21 5) (w.extractLsb' 16 5) (w.extractLsb' 11 5) (w.extractLsb' 2 1) (w.extractLsb' 1 1) (w.extractLsb' 0 1), w.extractLsb' 3 3 == 0) from fun _ => rfl, word_put_above, word_put_below]

theorem amoAnd (d : BitVec 5) (a : BitVec 5) (b : BitVec 5) (r : BitVec 1) (q : BitVec 1) (w : BitVec 1) : Statement (.amoAnd d a b r q w) := fun h rest => by
  refine decode_word 32 rfl ?_ (by decide) ?_ h rest
  · simp [word_put_above]; decide
  · simp [show ∀ w v, decodeMajor 32 w v = decodeAmo (w.extractLsb' 6 5).toNat w from fun _ _ => rfl,
      show ∀ w, decodeAmo 5 w = some (.amoAnd (w.extractLsb' 21 5) (w.extractLsb' 16 5) (w.extractLsb' 11 5) (w.extractLsb' 2 1) (w.extractLsb' 1 1) (w.extractLsb' 0 1), w.extractLsb' 3 3 == 0) from fun _ => rfl, word_put_above, word_put_below]

theorem amoOr (d : BitVec 5) (a : BitVec 5) (b : BitVec 5) (r : BitVec 1) (q : BitVec 1) (w : BitVec 1) : Statement (.amoOr d a b r q w) := fun h rest => by
  refine decode_word 32 rfl ?_ (by decide) ?_ h rest
  · simp [word_put_above]; decide
  · simp [show ∀ w v, decodeMajor 32 w v = decodeAmo (w.extractLsb' 6 5).toNat w from fun _ _ => rfl,
      show ∀ w, decodeAmo 6 w = some (.amoOr (w.extractLsb' 21 5) (w.extractLsb' 16 5) (w.extractLsb' 11 5) (w.extractLsb' 2 1) (w.extractLsb' 1 1) (w.extractLsb' 0 1), w.extractLsb' 3 3 == 0) from fun _ => rfl, word_put_above, word_put_below]

theorem amoXor (d : BitVec 5) (a : BitVec 5) (b : BitVec 5) (r : BitVec 1) (q : BitVec 1) (w : BitVec 1) : Statement (.amoXor d a b r q w) := fun h rest => by
  refine decode_word 32 rfl ?_ (by decide) ?_ h rest
  · simp [word_put_above]; decide
  · simp [show ∀ w v, decodeMajor 32 w v = decodeAmo (w.extractLsb' 6 5).toNat w from fun _ _ => rfl,
      show ∀ w, decodeAmo 7 w = some (.amoXor (w.extractLsb' 21 5) (w.extractLsb' 16 5) (w.extractLsb' 11 5) (w.extractLsb' 2 1) (w.extractLsb' 1 1) (w.extractLsb' 0 1), w.extractLsb' 3 3 == 0) from fun _ => rfl, word_put_above, word_put_below]

theorem amoSwap (d : BitVec 5) (a : BitVec 5) (b : BitVec 5) (r : BitVec 1) (q : BitVec 1) (w : BitVec 1) : Statement (.amoSwap d a b r q w) := fun h rest => by
  refine decode_word 32 rfl ?_ (by decide) ?_ h rest
  · simp [word_put_above]; decide
  · simp [show ∀ w v, decodeMajor 32 w v = decodeAmo (w.extractLsb' 6 5).toNat w from fun _ _ => rfl,
      show ∀ w, decodeAmo 8 w = some (.amoSwap (w.extractLsb' 21 5) (w.extractLsb' 16 5) (w.extractLsb' 11 5) (w.extractLsb' 2 1) (w.extractLsb' 1 1) (w.extractLsb' 0 1), w.extractLsb' 3 3 == 0) from fun _ => rfl, word_put_above, word_put_below]

theorem amoCas (d : BitVec 5) (a : BitVec 5) (b : BitVec 5) (r : BitVec 1) (q : BitVec 1) (w : BitVec 1) : Statement (.amoCas d a b r q w) := fun h rest => by
  refine decode_word 32 rfl ?_ (by decide) ?_ h rest
  · simp [word_put_above]; decide
  · simp [show ∀ w v, decodeMajor 32 w v = decodeAmo (w.extractLsb' 6 5).toNat w from fun _ _ => rfl,
      show ∀ w, decodeAmo 9 w = some (.amoCas (w.extractLsb' 21 5) (w.extractLsb' 16 5) (w.extractLsb' 11 5) (w.extractLsb' 2 1) (w.extractLsb' 1 1) (w.extractLsb' 0 1), w.extractLsb' 3 3 == 0) from fun _ => rfl, word_put_above, word_put_below]

theorem amoFadd (d : BitVec 5) (a : BitVec 5) (b : BitVec 5) (r : BitVec 1) (q : BitVec 1) (w : BitVec 1) : Statement (.amoFadd d a b r q w) := fun h rest => by
  refine decode_word 32 rfl ?_ (by decide) ?_ h rest
  · simp [word_put_above]; decide
  · simp [show ∀ w v, decodeMajor 32 w v = decodeAmo (w.extractLsb' 6 5).toNat w from fun _ _ => rfl,
      show ∀ w, decodeAmo 10 w = some (.amoFadd (w.extractLsb' 21 5) (w.extractLsb' 16 5) (w.extractLsb' 11 5) (w.extractLsb' 2 1) (w.extractLsb' 1 1) (w.extractLsb' 0 1), w.extractLsb' 3 3 == 0) from fun _ => rfl, word_put_above, word_put_below]

theorem l2fl (a : BitVec 5) (r : BitVec 1) : Statement (.l2fl a r) := fun h rest => by
  refine decode_word 33 rfl ?_ (by decide) ?_ h rest
  · simp [word_put_above]; decide
  · simp [show ∀ w v, decodeMajor 33 w v = decodeL2c (w.extractLsb' 21 5).toNat w from fun _ _ => rfl,
      show ∀ w, decodeL2c 0 w = some (.l2fl (w.extractLsb' 16 5) (w.extractLsb' 0 1), w.extractLsb' 1 15 == 0) from fun _ => rfl, word_put_above, word_put_below]

theorem l2inv (a : BitVec 5) (r : BitVec 1) : Statement (.l2inv a r) := fun h rest => by
  refine decode_word 33 rfl ?_ (by decide) ?_ h rest
  · simp [word_put_above]; decide
  · simp [show ∀ w v, decodeMajor 33 w v = decodeL2c (w.extractLsb' 21 5).toNat w from fun _ _ => rfl,
      show ∀ w, decodeL2c 1 w = some (.l2inv (w.extractLsb' 16 5) (w.extractLsb' 0 1), w.extractLsb' 1 15 == 0) from fun _ => rfl, word_put_above, word_put_below]

theorem rgrel (a : BitVec 5) : Statement (.rgrel a) := fun h rest => by
  refine decode_word 33 rfl ?_ (by decide) ?_ h rest
  · simp [word_put_above]; decide
  · simp [show ∀ w v, decodeMajor 33 w v = decodeL2c (w.extractLsb' 21 5).toNat w from fun _ _ => rfl,
      show ∀ w, decodeL2c 2 w = some (.rgrel (w.extractLsb' 16 5), w.extractLsb' 0 16 == 0) from fun _ => rfl, word_put_above, word_put_below]

theorem home (a : BitVec 5) (b : BitVec 5) : Statement (.home a b) := fun h rest => by
  refine decode_word 33 rfl ?_ (by decide) ?_ h rest
  · simp [word_put_above]; decide
  · simp [show ∀ w v, decodeMajor 33 w v = decodeL2c (w.extractLsb' 21 5).toNat w from fun _ _ => rfl,
      show ∀ w, decodeL2c 3 w = some (.home (w.extractLsb' 16 5) (w.extractLsb' 11 5), w.extractLsb' 0 11 == 0) from fun _ => rfl, word_put_above, word_put_below]

theorem fence (s : BitVec 3) : Statement (.fence s) := fun h rest => by
  refine decode_word 34 rfl ?_ (by decide) ?_ h rest
  · simp [word_put_above]; decide
  · simp [show ∀ w v, decodeMajor 34 w v = decodeSync (w.extractLsb' 21 5).toNat w from fun _ _ => rfl,
      show ∀ w, decodeSync 0 w = some (.fence (w.extractLsb' 0 3), w.extractLsb' 3 18 == 0) from fun _ => rfl, word_put_above, word_put_below]

theorem fenceAcks : Statement .fenceAcks := fun h rest => by
  refine decode_word 34 rfl ?_ (by decide) ?_ h rest
  · simp [word_put_above]; decide
  · simp [show ∀ w v, decodeMajor 34 w v = decodeSync (w.extractLsb' 21 5).toNat w from fun _ _ => rfl,
      show ∀ w, decodeSync 1 w = some (.fenceAcks, w.extractLsb' 0 21 == 0) from fun _ => rfl, word_put_above, word_put_below]

theorem lda (a : BitVec 5) (c : BitVec 5) (p : BitVec 3) (z : BitVec 3) : Statement (.lda a c p z) := fun h rest => by
  refine decode_word 34 rfl ?_ (by decide) ?_ h rest
  · simp [word_put_above]; decide
  · simp [show ∀ w v, decodeMajor 34 w v = decodeSync (w.extractLsb' 21 5).toNat w from fun _ _ => rfl,
      show ∀ w, decodeSync 2 w = some (.lda (w.extractLsb' 16 5) (w.extractLsb' 6 5) (w.extractLsb' 3 3) (w.extractLsb' 0 3), w.extractLsb' 11 5 == 0) from fun _ => rfl, word_put_above, word_put_below]

theorem stl (a : BitVec 5) (b : BitVec 5) (p : BitVec 3) (z : BitVec 3) : Statement (.stl a b p z) := fun h rest => by
  refine decode_word 34 rfl ?_ (by decide) ?_ h rest
  · simp [word_put_above]; decide
  · simp [show ∀ w v, decodeMajor 34 w v = decodeSync (w.extractLsb' 21 5).toNat w from fun _ _ => rfl,
      show ∀ w, decodeSync 3 w = some (.stl (w.extractLsb' 16 5) (w.extractLsb' 11 5) (w.extractLsb' 3 3) (w.extractLsb' 0 3), w.extractLsb' 6 5 == 0) from fun _ => rfl, word_put_above, word_put_below]

theorem watch (a : BitVec 5) : Statement (.watch a) := fun h rest => by
  refine decode_word 34 rfl ?_ (by decide) ?_ h rest
  · simp [word_put_above]; decide
  · simp [show ∀ w v, decodeMajor 34 w v = decodeSync (w.extractLsb' 21 5).toNat w from fun _ _ => rfl,
      show ∀ w, decodeSync 4 w = decodeSync4 (w.extractLsb' 0 1).toNat w from fun _ => rfl,
      show ∀ w, decodeSync4 0 w = some (.watch (w.extractLsb' 16 5), w.extractLsb' 1 15 == 0) from fun _ => rfl, word_put_above, word_put_below]

theorem watchOff : Statement .watchOff := fun h rest => by
  refine decode_word 34 rfl ?_ (by decide) ?_ h rest
  · simp [word_put_above]; decide
  · simp [show ∀ w v, decodeMajor 34 w v = decodeSync (w.extractLsb' 21 5).toNat w from fun _ _ => rfl,
      show ∀ w, decodeSync 4 w = decodeSync4 (w.extractLsb' 0 1).toNat w from fun _ => rfl,
      show ∀ w, decodeSync4 1 w = some (.watchOff, w.extractLsb' 1 20 == 0) from fun _ => rfl, word_put_above, word_put_below]

theorem doze (a : BitVec 5) (c : BitVec 5) (m : BitVec 1) (g : BitVec 1) (t : BitVec 1) : Statement (.doze a c m g t) := fun h rest => by
  refine decode_word 34 rfl ?_ (by decide) ?_ h rest
  · simp [word_put_above]; decide
  · simp [show ∀ w v, decodeMajor 34 w v = decodeSync (w.extractLsb' 21 5).toNat w from fun _ _ => rfl,
      show ∀ w, decodeSync 5 w = some (.doze (w.extractLsb' 16 5) (w.extractLsb' 6 5) (w.extractLsb' 2 1) (w.extractLsb' 1 1) (w.extractLsb' 0 1), w.extractLsb' 11 5 == 0 && w.extractLsb' 3 3 == 0) from fun _ => rfl, word_put_above, word_put_below]

theorem dozeTimeout (core : Nat) : Statement (.dozeTimeout core) := by intro h; cases h

theorem garr (a : BitVec 5) (c : BitVec 5) : Statement (.garr a c) := fun h rest => by
  refine decode_word 35 rfl ?_ (by decide) ?_ h rest
  · simp [word_put_above]; decide
  · simp [show ∀ w v, decodeMajor 35 w v = decodeGrp (w.extractLsb' 21 5).toNat w from fun _ _ => rfl,
      show ∀ w, decodeGrp 0 w = some (.garr (w.extractLsb' 16 5) (w.extractLsb' 6 5), w.extractLsb' 11 5 == 0 && w.extractLsb' 0 6 == 0) from fun _ => rfl, word_put_above, word_put_below]

theorem gwait (a : BitVec 5) (b : BitVec 5) : Statement (.gwait a b) := fun h rest => by
  refine decode_word 35 rfl ?_ (by decide) ?_ h rest
  · simp [word_put_above]; decide
  · simp [show ∀ w v, decodeMajor 35 w v = decodeGrp (w.extractLsb' 21 5).toNat w from fun _ _ => rfl,
      show ∀ w, decodeGrp 1 w = some (.gwait (w.extractLsb' 16 5) (w.extractLsb' 11 5), w.extractLsb' 0 11 == 0) from fun _ => rfl, word_put_above, word_put_below]

theorem gquery (a : BitVec 5) (c : BitVec 5) : Statement (.gquery a c) := fun h rest => by
  refine decode_word 35 rfl ?_ (by decide) ?_ h rest
  · simp [word_put_above]; decide
  · simp [show ∀ w v, decodeMajor 35 w v = decodeGrp (w.extractLsb' 21 5).toNat w from fun _ _ => rfl,
      show ∀ w, decodeGrp 2 w = some (.gquery (w.extractLsb' 16 5) (w.extractLsb' 6 5), w.extractLsb' 11 5 == 0 && w.extractLsb' 0 6 == 0) from fun _ => rfl, word_put_above, word_put_below]

theorem gwdog (a : BitVec 5) (b : BitVec 5) : Statement (.gwdog a b) := fun h rest => by
  refine decode_word 35 rfl ?_ (by decide) ?_ h rest
  · simp [word_put_above]; decide
  · simp [show ∀ w v, decodeMajor 35 w v = decodeGrp (w.extractLsb' 21 5).toNat w from fun _ _ => rfl,
      show ∀ w, decodeGrp 3 w = some (.gwdog (w.extractLsb' 16 5) (w.extractLsb' 11 5), w.extractLsb' 0 11 == 0) from fun _ => rfl, word_put_above, word_put_below]

theorem send (a : BitVec 5) (c : BitVec 4) (u : BitVec 1) (k : BitVec 4) : Statement (.send a c u k) := fun h rest => by
  refine decode_word 36 rfl ?_ (by decide) ?_ h rest
  · simp [word_put_above]; decide
  · simp [show ∀ w v, decodeMajor 36 w v = decodeMsg (w.extractLsb' 21 5).toNat w from fun _ _ => rfl,
      show ∀ w, decodeMsg 0 w = decodeMsg0 (w.extractLsb' 5 1).toNat w from fun _ => rfl,
      show ∀ w, decodeMsg0 0 w = some (.send (w.extractLsb' 16 5) (w.extractLsb' 6 4) (w.extractLsb' 4 1) (w.extractLsb' 0 4), w.extractLsb' 10 6 == 0) from fun _ => rfl, word_put_above, word_put_below]

theorem sendG (a : BitVec 5) (b : BitVec 5) (c : BitVec 4) (u : BitVec 1) (k : BitVec 4) : Statement (.sendG a b c u k) := fun h rest => by
  refine decode_word 36 rfl ?_ (by decide) ?_ h rest
  · simp [word_put_above]; decide
  · simp [show ∀ w v, decodeMajor 36 w v = decodeMsg (w.extractLsb' 21 5).toNat w from fun _ _ => rfl,
      show ∀ w, decodeMsg 0 w = decodeMsg0 (w.extractLsb' 5 1).toNat w from fun _ => rfl,
      show ∀ w, decodeMsg0 1 w = some (.sendG (w.extractLsb' 16 5) (w.extractLsb' 11 5) (w.extractLsb' 6 4) (w.extractLsb' 4 1) (w.extractLsb' 0 4), w.extractLsb' 10 1 == 0) from fun _ => rfl, word_put_above, word_put_below]

theorem sendn (a : BitVec 5) (b : BitVec 5) (c : BitVec 4) (u : BitVec 1) (k : BitVec 4) : Statement (.sendn a b c u k) := fun h rest => by
  refine decode_word 36 rfl ?_ (by decide) ?_ h rest
  · simp [word_put_above]; decide
  · simp [show ∀ w v, decodeMajor 36 w v = decodeMsg (w.extractLsb' 21 5).toNat w from fun _ _ => rfl,
      show ∀ w, decodeMsg 1 w = some (.sendn (w.extractLsb' 16 5) (w.extractLsb' 11 5) (w.extractLsb' 6 4) (w.extractLsb' 4 1) (w.extractLsb' 0 4), w.extractLsb' 10 1 == 0 && w.extractLsb' 5 1 == 0) from fun _ => rfl, word_put_above, word_put_below]

theorem sendo (a : BitVec 5) (c : BitVec 4) (u : BitVec 1) (k : BitVec 4) : Statement (.sendo a c u k) := fun h rest => by
  refine decode_word 36 rfl ?_ (by decide) ?_ h rest
  · simp [word_put_above]; decide
  · simp [show ∀ w v, decodeMajor 36 w v = decodeMsg (w.extractLsb' 21 5).toNat w from fun _ _ => rfl,
      show ∀ w, decodeMsg 2 w = decodeMsg2 (w.extractLsb' 5 1).toNat w from fun _ => rfl,
      show ∀ w, decodeMsg2 0 w = some (.sendo (w.extractLsb' 16 5) (w.extractLsb' 6 4) (w.extractLsb' 4 1) (w.extractLsb' 0 4), w.extractLsb' 10 6 == 0) from fun _ => rfl, word_put_above, word_put_below]

theorem sendoG (a : BitVec 5) (b : BitVec 5) (c : BitVec 4) (u : BitVec 1) (k : BitVec 4) : Statement (.sendoG a b c u k) := fun h rest => by
  refine decode_word 36 rfl ?_ (by decide) ?_ h rest
  · simp [word_put_above]; decide
  · simp [show ∀ w v, decodeMajor 36 w v = decodeMsg (w.extractLsb' 21 5).toNat w from fun _ _ => rfl,
      show ∀ w, decodeMsg 2 w = decodeMsg2 (w.extractLsb' 5 1).toNat w from fun _ => rfl,
      show ∀ w, decodeMsg2 1 w = some (.sendoG (w.extractLsb' 16 5) (w.extractLsb' 11 5) (w.extractLsb' 6 4) (w.extractLsb' 4 1) (w.extractLsb' 0 4), w.extractLsb' 10 1 == 0) from fun _ => rfl, word_put_above, word_put_below]

theorem recv (a : BitVec 5) (b : BitVec 5) (n : BitVec 1) (y : BitVec 1) (c : BitVec 3) : Statement (.recv a b n y c) := fun h rest => by
  refine decode_word 36 rfl ?_ (by decide) ?_ h rest
  · simp [word_put_above]; decide
  · simp [show ∀ w v, decodeMajor 36 w v = decodeMsg (w.extractLsb' 21 5).toNat w from fun _ _ => rfl,
      show ∀ w, decodeMsg 3 w = some (.recv (w.extractLsb' 16 5) (w.extractLsb' 11 5) (w.extractLsb' 4 1) (w.extractLsb' 3 1) (w.extractLsb' 0 3), w.extractLsb' 5 6 == 0) from fun _ => rfl, word_put_above, word_put_below]

theorem peek (b : BitVec 5) (y : BitVec 1) (c : BitVec 3) : Statement (.peek b y c) := fun h rest => by
  refine decode_word 36 rfl ?_ (by decide) ?_ h rest
  · simp [word_put_above]; decide
  · simp [show ∀ w v, decodeMajor 36 w v = decodeMsg (w.extractLsb' 21 5).toNat w from fun _ _ => rfl,
      show ∀ w, decodeMsg 4 w = some (.peek (w.extractLsb' 11 5) (w.extractLsb' 3 1) (w.extractLsb' 0 3), w.extractLsb' 16 5 == 0 && w.extractLsb' 4 7 == 0) from fun _ => rfl, word_put_above, word_put_below]

theorem cmask (c : BitVec 3) : Statement (.cmask c) := fun h rest => by
  refine decode_word 36 rfl ?_ (by decide) ?_ h rest
  · simp [word_put_above]; decide
  · simp [show ∀ w v, decodeMajor 36 w v = decodeMsg (w.extractLsb' 21 5).toNat w from fun _ _ => rfl,
      show ∀ w, decodeMsg 5 w = some (.cmask (w.extractLsb' 0 3), w.extractLsb' 3 18 == 0) from fun _ => rfl, word_put_above, word_put_below]

theorem cunmask (c : BitVec 3) : Statement (.cunmask c) := fun h rest => by
  refine decode_word 36 rfl ?_ (by decide) ?_ h rest
  · simp [word_put_above]; decide
  · simp [show ∀ w v, decodeMajor 36 w v = decodeMsg (w.extractLsb' 21 5).toNat w from fun _ _ => rfl,
      show ∀ w, decodeMsg 6 w = some (.cunmask (w.extractLsb' 0 3), w.extractLsb' 3 18 == 0) from fun _ => rfl, word_put_above, word_put_below]

theorem pst (a : BitVec 5) (b : BitVec 5) (c : BitVec 4) (s : BitVec 3) : Statement (.pst a b c s) := fun h rest => by
  refine decode_word 36 rfl ?_ (by decide) ?_ h rest
  · simp [word_put_above]; decide
  · simp [show ∀ w v, decodeMajor 36 w v = decodeMsg (w.extractLsb' 21 5).toNat w from fun _ _ => rfl,
      show ∀ w, decodeMsg 7 w = some (.pst (w.extractLsb' 16 5) (w.extractLsb' 11 5) (w.extractLsb' 6 4) (w.extractLsb' 0 3), w.extractLsb' 10 1 == 0 && w.extractLsb' 3 3 == 0) from fun _ => rfl, word_put_above, word_put_below]

theorem pst4 (a : BitVec 5) (b : BitVec 5) (c : BitVec 4) (n : BitVec 4) : Statement (.pst4 a b c n) := fun h rest => by
  refine decode_word 36 rfl ?_ (by decide) ?_ h rest
  · simp [word_put_above]; decide
  · simp [show ∀ w v, decodeMajor 36 w v = decodeMsg (w.extractLsb' 21 5).toNat w from fun _ _ => rfl,
      show ∀ w, decodeMsg 8 w = some (.pst4 (w.extractLsb' 16 5) (w.extractLsb' 11 5) (w.extractLsb' 6 4) (w.extractLsb' 0 4), w.extractLsb' 10 1 == 0 && w.extractLsb' 4 2 == 0) from fun _ => rfl, word_put_above, word_put_below]

theorem capld (c : BitVec 4) (k : BitVec 4) : Statement (.capld c k) := fun h rest => by
  refine decode_word 37 rfl ?_ (by decide) ?_ h rest
  · simp [word_put_above]; decide
  · simp [show ∀ w v, decodeMajor 37 w v = decodeCap (w.extractLsb' 21 5).toNat w from fun _ _ => rfl,
      show ∀ w, decodeCap 0 w = decodeCap0 (w.extractLsb' 4 1).toNat w from fun _ => rfl,
      show ∀ w, decodeCap0 0 w = some (.capld (w.extractLsb' 6 4) (w.extractLsb' 0 4), w.extractLsb' 10 11 == 0 && w.extractLsb' 5 1 == 0) from fun _ => rfl, word_put_above, word_put_below]

theorem capldG (c : BitVec 4) : Statement (.capldG c) := fun h rest => by
  refine decode_word 37 rfl ?_ (by decide) ?_ h rest
  · simp [word_put_above]; decide
  · simp [show ∀ w v, decodeMajor 37 w v = decodeCap (w.extractLsb' 21 5).toNat w from fun _ _ => rfl,
      show ∀ w, decodeCap 0 w = decodeCap0 (w.extractLsb' 4 1).toNat w from fun _ => rfl,
      show ∀ w, decodeCap0 1 w = some (.capldG (w.extractLsb' 6 4), w.extractLsb' 10 11 == 0 && w.extractLsb' 5 1 == 0 && w.extractLsb' 0 4 == 0) from fun _ => rfl, word_put_above, word_put_below]

theorem caprs (a : BitVec 5) (b : BitVec 4) (c : BitVec 4) : Statement (.caprs a b c) := fun h rest => by
  refine decode_word 37 rfl ?_ (by decide) ?_ h rest
  · simp [word_put_above]; decide
  · simp [show ∀ w v, decodeMajor 37 w v = decodeCap (w.extractLsb' 21 5).toNat w from fun _ _ => rfl,
      show ∀ w, decodeCap 1 w = some (.caprs (w.extractLsb' 16 5) (w.extractLsb' 11 4) (w.extractLsb' 6 4), w.extractLsb' 15 1 == 0 && w.extractLsb' 10 1 == 0 && w.extractLsb' 0 6 == 0) from fun _ => rfl, word_put_above, word_put_below]

theorem caprv (c : BitVec 4) : Statement (.caprv c) := fun h rest => by
  refine decode_word 37 rfl ?_ (by decide) ?_ h rest
  · simp [word_put_above]; decide
  · simp [show ∀ w v, decodeMajor 37 w v = decodeCap (w.extractLsb' 21 5).toNat w from fun _ _ => rfl,
      show ∀ w, decodeCap 2 w = some (.caprv (w.extractLsb' 6 4), w.extractLsb' 10 11 == 0 && w.extractLsb' 0 6 == 0) from fun _ => rfl, word_put_above, word_put_below]

theorem capmint (a : BitVec 5) (b : BitVec 5) (c : BitVec 4) : Statement (.capmint a b c) := fun h rest => by
  refine decode_word 37 rfl ?_ (by decide) ?_ h rest
  · simp [word_put_above]; decide
  · simp [show ∀ w v, decodeMajor 37 w v = decodeCap (w.extractLsb' 21 5).toNat w from fun _ _ => rfl,
      show ∀ w, decodeCap 3 w = some (.capmint (w.extractLsb' 16 5) (w.extractLsb' 11 5) (w.extractLsb' 6 4), w.extractLsb' 10 1 == 0 && w.extractLsb' 0 6 == 0) from fun _ => rfl, word_put_above, word_put_below]

theorem capq (a : BitVec 5) (c : BitVec 4) (w : BitVec 1) : Statement (.capq a c w) := fun h rest => by
  refine decode_word 37 rfl ?_ (by decide) ?_ h rest
  · simp [word_put_above]; decide
  · simp [show ∀ w v, decodeMajor 37 w v = decodeCap (w.extractLsb' 21 5).toNat w from fun _ _ => rfl,
      show ∀ w, decodeCap 4 w = some (.capq (w.extractLsb' 16 5) (w.extractLsb' 6 4) (w.extractLsb' 0 1), w.extractLsb' 10 6 == 0 && w.extractLsb' 1 5 == 0) from fun _ => rfl, word_put_above, word_put_below]

theorem cpy (a : BitVec 5) (b : BitVec 5) (c : BitVec 5) (n : BitVec 1) : Statement (.cpy a b c n) := fun h rest => by
  refine decode_word 38 rfl ?_ (by decide) ?_ h rest
  · simp [word_put_above]; decide
  · simp [show ∀ w v, decodeMajor 38 w v = decodeCpy (w.extractLsb' 21 5).toNat w from fun _ _ => rfl,
      show ∀ w, decodeCpy 0 w = some (.cpy (w.extractLsb' 16 5) (w.extractLsb' 11 5) (w.extractLsb' 6 5) (w.extractLsb' 0 1), w.extractLsb' 1 5 == 0) from fun _ => rfl, word_put_above, word_put_below]

theorem cpy2 (a : BitVec 5) (n : BitVec 1) : Statement (.cpy2 a n) := fun h rest => by
  refine decode_word 38 rfl ?_ (by decide) ?_ h rest
  · simp [word_put_above]; decide
  · simp [show ∀ w v, decodeMajor 38 w v = decodeCpy (w.extractLsb' 21 5).toNat w from fun _ _ => rfl,
      show ∀ w, decodeCpy 1 w = some (.cpy2 (w.extractLsb' 16 5) (w.extractLsb' 0 1), w.extractLsb' 1 15 == 0) from fun _ => rfl, word_put_above, word_put_below]

theorem cput (a : BitVec 5) (b : BitVec 5) (c : BitVec 5) (o : BitVec 1) (n : BitVec 1) (k : BitVec 4) : Statement (.cput a b c o n k) := fun h rest => by
  refine decode_word 38 rfl ?_ (by decide) ?_ h rest
  · simp [word_put_above]; decide
  · simp [show ∀ w v, decodeMajor 38 w v = decodeCpy (w.extractLsb' 21 5).toNat w from fun _ _ => rfl,
      show ∀ w, decodeCpy 2 w = some (.cput (w.extractLsb' 16 5) (w.extractLsb' 11 5) (w.extractLsb' 6 5) (w.extractLsb' 5 1) (w.extractLsb' 4 1) (w.extractLsb' 0 4), true) from fun _ => rfl, word_put_above, word_put_below]

theorem cget (a : BitVec 5) (b : BitVec 5) (c : BitVec 5) (n : BitVec 1) (k : BitVec 4) : Statement (.cget a b c n k) := fun h rest => by
  refine decode_word 38 rfl ?_ (by decide) ?_ h rest
  · simp [word_put_above]; decide
  · simp [show ∀ w v, decodeMajor 38 w v = decodeCpy (w.extractLsb' 21 5).toNat w from fun _ _ => rfl,
      show ∀ w, decodeCpy 3 w = some (.cget (w.extractLsb' 16 5) (w.extractLsb' 11 5) (w.extractLsb' 6 5) (w.extractLsb' 4 1) (w.extractLsb' 0 4), w.extractLsb' 5 1 == 0) from fun _ => rfl, word_put_above, word_put_below]

theorem cbindIn (a : BitVec 5) (b : BitVec 5) (q : BitVec 3) : Statement (.cbindIn a b q) := fun h rest => by
  refine decode_word 38 rfl ?_ (by decide) ?_ h rest
  · simp [word_put_above]; decide
  · simp [show ∀ w v, decodeMajor 38 w v = decodeCpy (w.extractLsb' 21 5).toNat w from fun _ _ => rfl,
      show ∀ w, decodeCpy 4 w = decodeCpy4 (w.extractLsb' 0 2).toNat w from fun _ => rfl,
      show ∀ w, decodeCpy4 1 w = some (.cbindIn (w.extractLsb' 16 5) (w.extractLsb' 11 5) (w.extractLsb' 6 3), w.extractLsb' 9 2 == 0 && w.extractLsb' 2 4 == 0) from fun _ => rfl, word_put_above, word_put_below]

theorem cbindOut (a : BitVec 5) (b : BitVec 5) (q : BitVec 3) : Statement (.cbindOut a b q) := fun h rest => by
  refine decode_word 38 rfl ?_ (by decide) ?_ h rest
  · simp [word_put_above]; decide
  · simp [show ∀ w v, decodeMajor 38 w v = decodeCpy (w.extractLsb' 21 5).toNat w from fun _ _ => rfl,
      show ∀ w, decodeCpy 4 w = decodeCpy4 (w.extractLsb' 0 2).toNat w from fun _ => rfl,
      show ∀ w, decodeCpy4 2 w = some (.cbindOut (w.extractLsb' 16 5) (w.extractLsb' 11 5) (w.extractLsb' 6 3), w.extractLsb' 9 2 == 0 && w.extractLsb' 2 4 == 0) from fun _ => rfl, word_put_above, word_put_below]

theorem cbindOff (q : BitVec 3) : Statement (.cbindOff q) := fun h rest => by
  refine decode_word 38 rfl ?_ (by decide) ?_ h rest
  · simp [word_put_above]; decide
  · simp [show ∀ w v, decodeMajor 38 w v = decodeCpy (w.extractLsb' 21 5).toNat w from fun _ _ => rfl,
      show ∀ w, decodeCpy 4 w = decodeCpy4 (w.extractLsb' 0 2).toNat w from fun _ => rfl,
      show ∀ w, decodeCpy4 0 w = some (.cbindOff (w.extractLsb' 6 3), w.extractLsb' 9 12 == 0 && w.extractLsb' 2 4 == 0) from fun _ => rfl, word_put_above, word_put_below]

theorem vadd (d : BitVec 5) (a : BitVec 5) (b : BitVec 5) (m : BitVec 3) (e : BitVec 3) : Statement (.vadd d a b m e) := fun h rest => by
  refine decode_word 39 rfl ?_ (by decide) ?_ h rest
  · simp [word_put_above]; decide
  · simp [show ∀ w v, decodeMajor 39 w v = decodeVec (w.extractLsb' 3 5).toNat w from fun _ _ => rfl,
      show ∀ w, decodeVec 0 w = some (.vadd (w.extractLsb' 21 5) (w.extractLsb' 16 5) (w.extractLsb' 11 5) (w.extractLsb' 8 3) (w.extractLsb' 0 3), true) from fun _ => rfl, word_put_above, word_put_below]

theorem vsub (d : BitVec 5) (a : BitVec 5) (b : BitVec 5) (m : BitVec 3) (e : BitVec 3) : Statement (.vsub d a b m e) := fun h rest => by
  refine decode_word 39 rfl ?_ (by decide) ?_ h rest
  · simp [word_put_above]; decide
  · simp [show ∀ w v, decodeMajor 39 w v = decodeVec (w.extractLsb' 3 5).toNat w from fun _ _ => rfl,
      show ∀ w, decodeVec 1 w = some (.vsub (w.extractLsb' 21 5) (w.extractLsb' 16 5) (w.extractLsb' 11 5) (w.extractLsb' 8 3) (w.extractLsb' 0 3), true) from fun _ => rfl, word_put_above, word_put_below]

theorem vmul (d : BitVec 5) (a : BitVec 5) (b : BitVec 5) (m : BitVec 3) (e : BitVec 3) : Statement (.vmul d a b m e) := fun h rest => by
  refine decode_word 39 rfl ?_ (by decide) ?_ h rest
  · simp [word_put_above]; decide
  · simp [show ∀ w v, decodeMajor 39 w v = decodeVec (w.extractLsb' 3 5).toNat w from fun _ _ => rfl,
      show ∀ w, decodeVec 2 w = some (.vmul (w.extractLsb' 21 5) (w.extractLsb' 16 5) (w.extractLsb' 11 5) (w.extractLsb' 8 3) (w.extractLsb' 0 3), true) from fun _ => rfl, word_put_above, word_put_below]

theorem vfma (d : BitVec 5) (a : BitVec 5) (b : BitVec 5) (m : BitVec 3) (e : BitVec 3) : Statement (.vfma d a b m e) := fun h rest => by
  refine decode_word 39 rfl ?_ (by decide) ?_ h rest
  · simp [word_put_above]; decide
  · simp [show ∀ w v, decodeMajor 39 w v = decodeVec (w.extractLsb' 3 5).toNat w from fun _ _ => rfl,
      show ∀ w, decodeVec 3 w = some (.vfma (w.extractLsb' 21 5) (w.extractLsb' 16 5) (w.extractLsb' 11 5) (w.extractLsb' 8 3) (w.extractLsb' 0 3), true) from fun _ => rfl, word_put_above, word_put_below]

theorem vfms (d : BitVec 5) (a : BitVec 5) (b : BitVec 5) (m : BitVec 3) (e : BitVec 3) : Statement (.vfms d a b m e) := fun h rest => by
  refine decode_word 39 rfl ?_ (by decide) ?_ h rest
  · simp [word_put_above]; decide
  · simp [show ∀ w v, decodeMajor 39 w v = decodeVec (w.extractLsb' 3 5).toNat w from fun _ _ => rfl,
      show ∀ w, decodeVec 4 w = some (.vfms (w.extractLsb' 21 5) (w.extractLsb' 16 5) (w.extractLsb' 11 5) (w.extractLsb' 8 3) (w.extractLsb' 0 3), true) from fun _ => rfl, word_put_above, word_put_below]

theorem vmin (d : BitVec 5) (a : BitVec 5) (b : BitVec 5) (m : BitVec 3) (e : BitVec 3) : Statement (.vmin d a b m e) := fun h rest => by
  refine decode_word 39 rfl ?_ (by decide) ?_ h rest
  · simp [word_put_above]; decide
  · simp [show ∀ w v, decodeMajor 39 w v = decodeVec (w.extractLsb' 3 5).toNat w from fun _ _ => rfl,
      show ∀ w, decodeVec 5 w = some (.vmin (w.extractLsb' 21 5) (w.extractLsb' 16 5) (w.extractLsb' 11 5) (w.extractLsb' 8 3) (w.extractLsb' 0 3), true) from fun _ => rfl, word_put_above, word_put_below]

theorem vmax (d : BitVec 5) (a : BitVec 5) (b : BitVec 5) (m : BitVec 3) (e : BitVec 3) : Statement (.vmax d a b m e) := fun h rest => by
  refine decode_word 39 rfl ?_ (by decide) ?_ h rest
  · simp [word_put_above]; decide
  · simp [show ∀ w v, decodeMajor 39 w v = decodeVec (w.extractLsb' 3 5).toNat w from fun _ _ => rfl,
      show ∀ w, decodeVec 6 w = some (.vmax (w.extractLsb' 21 5) (w.extractLsb' 16 5) (w.extractLsb' 11 5) (w.extractLsb' 8 3) (w.extractLsb' 0 3), true) from fun _ => rfl, word_put_above, word_put_below]

theorem vabs (d : BitVec 5) (a : BitVec 5) (m : BitVec 3) (e : BitVec 3) : Statement (.vabs d a m e) := fun h rest => by
  refine decode_word 39 rfl ?_ (by decide) ?_ h rest
  · simp [word_put_above]; decide
  · simp [show ∀ w v, decodeMajor 39 w v = decodeVec (w.extractLsb' 3 5).toNat w from fun _ _ => rfl,
      show ∀ w, decodeVec 7 w = some (.vabs (w.extractLsb' 21 5) (w.extractLsb' 16 5) (w.extractLsb' 8 3) (w.extractLsb' 0 3), w.extractLsb' 11 5 == 0) from fun _ => rfl, word_put_above, word_put_below]

theorem vneg (d : BitVec 5) (a : BitVec 5) (m : BitVec 3) (e : BitVec 3) : Statement (.vneg d a m e) := fun h rest => by
  refine decode_word 39 rfl ?_ (by decide) ?_ h rest
  · simp [word_put_above]; decide
  · simp [show ∀ w v, decodeMajor 39 w v = decodeVec (w.extractLsb' 3 5).toNat w from fun _ _ => rfl,
      show ∀ w, decodeVec 8 w = some (.vneg (w.extractLsb' 21 5) (w.extractLsb' 16 5) (w.extractLsb' 8 3) (w.extractLsb' 0 3), w.extractLsb' 11 5 == 0) from fun _ => rfl, word_put_above, word_put_below]

theorem vdiv (d : BitVec 5) (a : BitVec 5) (b : BitVec 5) (m : BitVec 3) : Statement (.vdiv d a b m) := fun h rest => by
  refine decode_word 39 rfl ?_ (by decide) ?_ h rest
  · simp [word_put_above]; decide
  · simp [show ∀ w v, decodeMajor 39 w v = decodeVec (w.extractLsb' 3 5).toNat w from fun _ _ => rfl,
      show ∀ w, decodeVec 9 w = decodeVec9 (w.extractLsb' 0 3).toNat w from fun _ => rfl,
      show ∀ w, decodeVec9 0 w = some (.vdiv (w.extractLsb' 21 5) (w.extractLsb' 16 5) (w.extractLsb' 11 5) (w.extractLsb' 8 3), true) from fun _ => rfl, word_put_above, word_put_below]

theorem vsqrt (d : BitVec 5) (a : BitVec 5) (m : BitVec 3) : Statement (.vsqrt d a m) := fun h rest => by
  refine decode_word 39 rfl ?_ (by decide) ?_ h rest
  · simp [word_put_above]; decide
  · simp [show ∀ w v, decodeMajor 39 w v = decodeVec (w.extractLsb' 3 5).toNat w from fun _ _ => rfl,
      show ∀ w, decodeVec 10 w = decodeVec10 (w.extractLsb' 0 3).toNat w from fun _ => rfl,
      show ∀ w, decodeVec10 0 w = some (.vsqrt (w.extractLsb' 21 5) (w.extractLsb' 16 5) (w.extractLsb' 8 3), w.extractLsb' 11 5 == 0) from fun _ => rfl, word_put_above, word_put_below]

theorem vrsq (d : BitVec 5) (a : BitVec 5) (m : BitVec 3) : Statement (.vrsq d a m) := fun h rest => by
  refine decode_word 39 rfl ?_ (by decide) ?_ h rest
  · simp [word_put_above]; decide
  · simp [show ∀ w v, decodeMajor 39 w v = decodeVec (w.extractLsb' 3 5).toNat w from fun _ _ => rfl,
      show ∀ w, decodeVec 11 w = decodeVec11 (w.extractLsb' 0 3).toNat w from fun _ => rfl,
      show ∀ w, decodeVec11 0 w = some (.vrsq (w.extractLsb' 21 5) (w.extractLsb' 16 5) (w.extractLsb' 8 3), w.extractLsb' 11 5 == 0) from fun _ => rfl, word_put_above, word_put_below]

theorem vexp2 (d : BitVec 5) (a : BitVec 5) (m : BitVec 3) : Statement (.vexp2 d a m) := fun h rest => by
  refine decode_word 39 rfl ?_ (by decide) ?_ h rest
  · simp [word_put_above]; decide
  · simp [show ∀ w v, decodeMajor 39 w v = decodeVec (w.extractLsb' 3 5).toNat w from fun _ _ => rfl,
      show ∀ w, decodeVec 12 w = decodeVec12 (w.extractLsb' 0 3).toNat w from fun _ => rfl,
      show ∀ w, decodeVec12 0 w = some (.vexp2 (w.extractLsb' 21 5) (w.extractLsb' 16 5) (w.extractLsb' 8 3), w.extractLsb' 11 5 == 0) from fun _ => rfl, word_put_above, word_put_below]

theorem vlog2 (d : BitVec 5) (a : BitVec 5) (m : BitVec 3) : Statement (.vlog2 d a m) := fun h rest => by
  refine decode_word 39 rfl ?_ (by decide) ?_ h rest
  · simp [word_put_above]; decide
  · simp [show ∀ w v, decodeMajor 39 w v = decodeVec (w.extractLsb' 3 5).toNat w from fun _ _ => rfl,
      show ∀ w, decodeVec 13 w = decodeVec13 (w.extractLsb' 0 3).toNat w from fun _ => rfl,
      show ∀ w, decodeVec13 0 w = some (.vlog2 (w.extractLsb' 21 5) (w.extractLsb' 16 5) (w.extractLsb' 8 3), w.extractLsb' 11 5 == 0) from fun _ => rfl, word_put_above, word_put_below]

theorem vcmpEq (d : BitVec 3) (a : BitVec 5) (b : BitVec 5) (m : BitVec 3) (e : BitVec 3) : Statement (.vcmpEq d a b m e) := fun h rest => by
  refine decode_word 39 rfl ?_ (by decide) ?_ h rest
  · simp [word_put_above]; decide
  · simp [show ∀ w v, decodeMajor 39 w v = decodeVec (w.extractLsb' 3 5).toNat w from fun _ _ => rfl,
      show ∀ w, decodeVec 14 w = some (.vcmpEq (w.extractLsb' 21 3) (w.extractLsb' 16 5) (w.extractLsb' 11 5) (w.extractLsb' 8 3) (w.extractLsb' 0 3), w.extractLsb' 24 2 == 0) from fun _ => rfl, word_put_above, word_put_below]

theorem vcmpNe (d : BitVec 3) (a : BitVec 5) (b : BitVec 5) (m : BitVec 3) (e : BitVec 3) : Statement (.vcmpNe d a b m e) := fun h rest => by
  refine decode_word 39 rfl ?_ (by decide) ?_ h rest
  · simp [word_put_above]; decide
  · simp [show ∀ w v, decodeMajor 39 w v = decodeVec (w.extractLsb' 3 5).toNat w from fun _ _ => rfl,
      show ∀ w, decodeVec 15 w = some (.vcmpNe (w.extractLsb' 21 3) (w.extractLsb' 16 5) (w.extractLsb' 11 5) (w.extractLsb' 8 3) (w.extractLsb' 0 3), w.extractLsb' 24 2 == 0) from fun _ => rfl, word_put_above, word_put_below]

theorem vcmpLt (d : BitVec 3) (a : BitVec 5) (b : BitVec 5) (m : BitVec 3) (e : BitVec 3) : Statement (.vcmpLt d a b m e) := fun h rest => by
  refine decode_word 39 rfl ?_ (by decide) ?_ h rest
  · simp [word_put_above]; decide
  · simp [show ∀ w v, decodeMajor 39 w v = decodeVec (w.extractLsb' 3 5).toNat w from fun _ _ => rfl,
      show ∀ w, decodeVec 16 w = some (.vcmpLt (w.extractLsb' 21 3) (w.extractLsb' 16 5) (w.extractLsb' 11 5) (w.extractLsb' 8 3) (w.extractLsb' 0 3), w.extractLsb' 24 2 == 0) from fun _ => rfl, word_put_above, word_put_below]

theorem vcmpLe (d : BitVec 3) (a : BitVec 5) (b : BitVec 5) (m : BitVec 3) (e : BitVec 3) : Statement (.vcmpLe d a b m e) := fun h rest => by
  refine decode_word 39 rfl ?_ (by decide) ?_ h rest
  · simp [word_put_above]; decide
  · simp [show ∀ w v, decodeMajor 39 w v = decodeVec (w.extractLsb' 3 5).toNat w from fun _ _ => rfl,
      show ∀ w, decodeVec 17 w = some (.vcmpLe (w.extractLsb' 21 3) (w.extractLsb' 16 5) (w.extractLsb' 11 5) (w.extractLsb' 8 3) (w.extractLsb' 0 3), w.extractLsb' 24 2 == 0) from fun _ => rfl, word_put_above, word_put_below]

theorem vsel (d : BitVec 5) (a : BitVec 5) (b : BitVec 5) (m : BitVec 3) (e : BitVec 3) : Statement (.vsel d a b m e) := fun h rest => by
  refine decode_word 39 rfl ?_ (by decide) ?_ h rest
  · simp [word_put_above]; decide
  · simp [show ∀ w v, decodeMajor 39 w v = decodeVec (w.extractLsb' 3 5).toNat w from fun _ _ => rfl,
      show ∀ w, decodeVec 18 w = some (.vsel (w.extractLsb' 21 5) (w.extractLsb' 16 5) (w.extractLsb' 11 5) (w.extractLsb' 8 3) (w.extractLsb' 0 3), true) from fun _ => rfl, word_put_above, word_put_below]

theorem vand (d : BitVec 5) (a : BitVec 5) (b : BitVec 5) (m : BitVec 3) (e : BitVec 3) : Statement (.vand d a b m e) := fun h rest => by
  refine decode_word 39 rfl ?_ (by decide) ?_ h rest
  · simp [word_put_above]; decide
  · simp [show ∀ w v, decodeMajor 39 w v = decodeVec (w.extractLsb' 3 5).toNat w from fun _ _ => rfl,
      show ∀ w, decodeVec 19 w = some (.vand (w.extractLsb' 21 5) (w.extractLsb' 16 5) (w.extractLsb' 11 5) (w.extractLsb' 8 3) (w.extractLsb' 0 3), true) from fun _ => rfl, word_put_above, word_put_below]

theorem vor (d : BitVec 5) (a : BitVec 5) (b : BitVec 5) (m : BitVec 3) (e : BitVec 3) : Statement (.vor d a b m e) := fun h rest => by
  refine decode_word 39 rfl ?_ (by decide) ?_ h rest
  · simp [word_put_above]; decide
  · simp [show ∀ w v, decodeMajor 39 w v = decodeVec (w.extractLsb' 3 5).toNat w from fun _ _ => rfl,
      show ∀ w, decodeVec 20 w = some (.vor (w.extractLsb' 21 5) (w.extractLsb' 16 5) (w.extractLsb' 11 5) (w.extractLsb' 8 3) (w.extractLsb' 0 3), true) from fun _ => rfl, word_put_above, word_put_below]

theorem vxor (d : BitVec 5) (a : BitVec 5) (b : BitVec 5) (m : BitVec 3) (e : BitVec 3) : Statement (.vxor d a b m e) := fun h rest => by
  refine decode_word 39 rfl ?_ (by decide) ?_ h rest
  · simp [word_put_above]; decide
  · simp [show ∀ w v, decodeMajor 39 w v = decodeVec (w.extractLsb' 3 5).toNat w from fun _ _ => rfl,
      show ∀ w, decodeVec 21 w = some (.vxor (w.extractLsb' 21 5) (w.extractLsb' 16 5) (w.extractLsb' 11 5) (w.extractLsb' 8 3) (w.extractLsb' 0 3), true) from fun _ => rfl, word_put_above, word_put_below]

theorem vshl (d : BitVec 5) (a : BitVec 5) (b : BitVec 5) (m : BitVec 3) (e : BitVec 3) : Statement (.vshl d a b m e) := fun h rest => by
  refine decode_word 39 rfl ?_ (by decide) ?_ h rest
  · simp [word_put_above]; decide
  · simp [show ∀ w v, decodeMajor 39 w v = decodeVec (w.extractLsb' 3 5).toNat w from fun _ _ => rfl,
      show ∀ w, decodeVec 22 w = some (.vshl (w.extractLsb' 21 5) (w.extractLsb' 16 5) (w.extractLsb' 11 5) (w.extractLsb' 8 3) (w.extractLsb' 0 3), true) from fun _ => rfl, word_put_above, word_put_below]

theorem vshr (d : BitVec 5) (a : BitVec 5) (b : BitVec 5) (m : BitVec 3) (e : BitVec 3) : Statement (.vshr d a b m e) := fun h rest => by
  refine decode_word 39 rfl ?_ (by decide) ?_ h rest
  · simp [word_put_above]; decide
  · simp [show ∀ w v, decodeMajor 39 w v = decodeVec (w.extractLsb' 3 5).toNat w from fun _ _ => rfl,
      show ∀ w, decodeVec 23 w = some (.vshr (w.extractLsb' 21 5) (w.extractLsb' 16 5) (w.extractLsb' 11 5) (w.extractLsb' 8 3) (w.extractLsb' 0 3), true) from fun _ => rfl, word_put_above, word_put_below]

theorem vperm (d : BitVec 5) (a : BitVec 5) (b : BitVec 5) (m : BitVec 3) (e : BitVec 3) : Statement (.vperm d a b m e) := fun h rest => by
  refine decode_word 39 rfl ?_ (by decide) ?_ h rest
  · simp [word_put_above]; decide
  · simp [show ∀ w v, decodeMajor 39 w v = decodeVec (w.extractLsb' 3 5).toNat w from fun _ _ => rfl,
      show ∀ w, decodeVec 24 w = some (.vperm (w.extractLsb' 21 5) (w.extractLsb' 16 5) (w.extractLsb' 11 5) (w.extractLsb' 8 3) (w.extractLsb' 0 3), true) from fun _ => rfl, word_put_above, word_put_below]

theorem vbcast (d : BitVec 5) (a : BitVec 5) (m : BitVec 3) (e : BitVec 3) : Statement (.vbcast d a m e) := fun h rest => by
  refine decode_word 39 rfl ?_ (by decide) ?_ h rest
  · simp [word_put_above]; decide
  · simp [show ∀ w v, decodeMajor 39 w v = decodeVec (w.extractLsb' 3 5).toNat w from fun _ _ => rfl,
      show ∀ w, decodeVec 25 w = some (.vbcast (w.extractLsb' 21 5) (w.extractLsb' 16 5) (w.extractLsb' 8 3) (w.extractLsb' 0 3), w.extractLsb' 11 5 == 0) from fun _ => rfl, word_put_above, word_put_below]

theorem vmov (d : BitVec 5) (a : BitVec 5) (m : BitVec 3) (e : BitVec 3) : Statement (.vmov d a m e) := fun h rest => by
  refine decode_word 39 rfl ?_ (by decide) ?_ h rest
  · simp [word_put_above]; decide
  · simp [show ∀ w v, decodeMajor 39 w v = decodeVec (w.extractLsb' 3 5).toNat w from fun _ _ => rfl,
      show ∀ w, decodeVec 26 w = some (.vmov (w.extractLsb' 21 5) (w.extractLsb' 16 5) (w.extractLsb' 8 3) (w.extractLsb' 0 3), w.extractLsb' 11 5 == 0) from fun _ => rfl, word_put_above, word_put_below]

theorem vmovToG (d : BitVec 5) (a : BitVec 5) (k : BitVec 5) (e : BitVec 3) : Statement (.vmovToG d a k e) := fun h rest => by
  refine decode_word 39 rfl ?_ (by decide) ?_ h rest
  · simp [word_put_above]; decide
  · simp [show ∀ w v, decodeMajor 39 w v = decodeVec (w.extractLsb' 3 5).toNat w from fun _ _ => rfl,
      show ∀ w, decodeVec 27 w = some (.vmovToG (w.extractLsb' 21 5) (w.extractLsb' 16 5) (w.extractLsb' 11 5) (w.extractLsb' 0 3), w.extractLsb' 8 3 == 0) from fun _ => rfl, word_put_above, word_put_below]

theorem vld (d : BitVec 5) (a : BitVec 5) (b : BitVec 5) (m : BitVec 3) (n : BitVec 1) (e : BitVec 3) : Statement (.vld d a b m n e) := fun h rest => by
  refine decode_word 40 rfl ?_ (by decide) ?_ h rest
  · simp [word_put_above]; decide
  · simp [show ∀ w v, decodeMajor 40 w v = decodeVmem (w.extractLsb' 3 3).toNat w from fun _ _ => rfl,
      show ∀ w, decodeVmem 0 w = decodeVmem0 (w.extractLsb' 7 1).toNat w from fun _ => rfl,
      show ∀ w, decodeVmem0 0 w = some (.vld (w.extractLsb' 21 5) (w.extractLsb' 16 5) (w.extractLsb' 11 5) (w.extractLsb' 8 3) (w.extractLsb' 6 1) (w.extractLsb' 0 3), true) from fun _ => rfl, word_put_above, word_put_below]

theorem vst (d : BitVec 5) (a : BitVec 5) (b : BitVec 5) (m : BitVec 3) (n : BitVec 1) (e : BitVec 3) : Statement (.vst d a b m n e) := fun h rest => by
  refine decode_word 40 rfl ?_ (by decide) ?_ h rest
  · simp [word_put_above]; decide
  · simp [show ∀ w v, decodeMajor 40 w v = decodeVmem (w.extractLsb' 3 3).toNat w from fun _ _ => rfl,
      show ∀ w, decodeVmem 1 w = decodeVmem1 (w.extractLsb' 7 1).toNat w from fun _ => rfl,
      show ∀ w, decodeVmem1 0 w = some (.vst (w.extractLsb' 21 5) (w.extractLsb' 16 5) (w.extractLsb' 11 5) (w.extractLsb' 8 3) (w.extractLsb' 6 1) (w.extractLsb' 0 3), true) from fun _ => rfl, word_put_above, word_put_below]

theorem vlds (d : BitVec 5) (a : BitVec 5) (b : BitVec 5) (m : BitVec 3) (n : BitVec 1) (e : BitVec 3) : Statement (.vlds d a b m n e) := fun h rest => by
  refine decode_word 40 rfl ?_ (by decide) ?_ h rest
  · simp [word_put_above]; decide
  · simp [show ∀ w v, decodeMajor 40 w v = decodeVmem (w.extractLsb' 3 3).toNat w from fun _ _ => rfl,
      show ∀ w, decodeVmem 2 w = decodeVmem2 (w.extractLsb' 7 1).toNat w from fun _ => rfl,
      show ∀ w, decodeVmem2 0 w = some (.vlds (w.extractLsb' 21 5) (w.extractLsb' 16 5) (w.extractLsb' 11 5) (w.extractLsb' 8 3) (w.extractLsb' 6 1) (w.extractLsb' 0 3), true) from fun _ => rfl, word_put_above, word_put_below]

theorem vgat (d : BitVec 5) (a : BitVec 5) (b : BitVec 5) (m : BitVec 3) (n : BitVec 1) (e : BitVec 3) : Statement (.vgat d a b m n e) := fun h rest => by
  refine decode_word 40 rfl ?_ (by decide) ?_ h rest
  · simp [word_put_above]; decide
  · simp [show ∀ w v, decodeMajor 40 w v = decodeVmem (w.extractLsb' 3 3).toNat w from fun _ _ => rfl,
      show ∀ w, decodeVmem 3 w = decodeVmem3 (w.extractLsb' 7 1).toNat w from fun _ => rfl,
      show ∀ w, decodeVmem3 0 w = some (.vgat (w.extractLsb' 21 5) (w.extractLsb' 16 5) (w.extractLsb' 11 5) (w.extractLsb' 8 3) (w.extractLsb' 6 1) (w.extractLsb' 0 3), true) from fun _ => rfl, word_put_above, word_put_below]

theorem vsca (d : BitVec 5) (a : BitVec 5) (b : BitVec 5) (m : BitVec 3) (n : BitVec 1) (e : BitVec 3) : Statement (.vsca d a b m n e) := fun h rest => by
  refine decode_word 40 rfl ?_ (by decide) ?_ h rest
  · simp [word_put_above]; decide
  · simp [show ∀ w v, decodeMajor 40 w v = decodeVmem (w.extractLsb' 3 3).toNat w from fun _ _ => rfl,
      show ∀ w, decodeVmem 4 w = decodeVmem4 (w.extractLsb' 7 1).toNat w from fun _ => rfl,
      show ∀ w, decodeVmem4 0 w = some (.vsca (w.extractLsb' 21 5) (w.extractLsb' 16 5) (w.extractLsb' 11 5) (w.extractLsb' 8 3) (w.extractLsb' 6 1) (w.extractLsb' 0 3), true) from fun _ => rfl, word_put_above, word_put_below]

theorem vcvt (d : BitVec 5) (a : BitVec 5) (p : BitVec 3) (m : BitVec 3) (t : BitVec 5) (e : BitVec 3) : Statement (.vcvt d a p m t e) :=
  fun h rest => by
  refine decode_word 41 rfl ?_ (by decide) ?_ h rest
  · simp [word_put_above]; decide
  · have ht : t.toNat ≤ 8 := by
      simp only [WellFormed, Instr.defined, Bool.and_eq_true] at h
      have := h.1.2.1
      simp at this; omega
    simp [show ∀ w v, decodeMajor 41 w v = decodeVcvt (w.extractLsb' 3 5).toNat w from fun _ _ => rfl, decodeVcvt, ht,
      word_put_above, word_put_field]


theorem vcvtFromFp4 (d : BitVec 5) (a : BitVec 5) (p : BitVec 3) (m : BitVec 3) (e : BitVec 3) : Statement (.vcvtFromFp4 d a p m e) :=
  fun h rest => by
  refine decode_word 41 rfl ?_ (by decide) ?_ h rest
  · simp [word_put_above]; decide
  · simp [show ∀ w v, decodeMajor 41 w v = decodeVcvt (w.extractLsb' 3 5).toNat w from fun _ _ => rfl, decodeVcvt,
      word_put_above, word_put_field]


theorem vquantFp4 (d : BitVec 5) (a : BitVec 5) (b : BitVec 5) (q : BitVec 5) : Statement (.vquantFp4 d a b q) := fun h rest => by
  refine decode_word 41 rfl ?_ (by decide) ?_ h rest
  · simp [word_put_above]; decide
  · have hq : 10 ≤ q.toNat ∧ q.toNat ≤ 15 := by simpa [WellFormed, Instr.defined, Instr.encoded, Instr.reservedZero] using h
    have h1 : ¬ q.toNat ≤ 8 := by omega
    have h2 : q.toNat ≠ 9 := by omega
    simp [show ∀ w v, decodeMajor 41 w v = decodeVcvt (w.extractLsb' 3 5).toNat w from fun _ _ => rfl, decodeVcvt, h1, h2, hq.2,
      word_put_above, word_put_field]


theorem vquantInt4x (d : BitVec 5) (a : BitVec 5) (b : BitVec 5) : Statement (.vquantInt4x d a b) := fun h rest => by
  refine decode_word 41 rfl ?_ (by decide) ?_ h rest
  · simp [word_put_above]; decide
  · simp [show ∀ w v, decodeMajor 41 w v = decodeVcvt (w.extractLsb' 3 5).toNat w from fun _ _ => rfl, decodeVcvt,
      word_put_above, word_put_field]


theorem vdeqFp4 (d : BitVec 5) (a : BitVec 5) (h : BitVec 1) (m : BitVec 3) (q : BitVec 5) (e : BitVec 3) :
    Statement (.vdeqFp4 d a h m q e) := fun hw rest => by
  refine decode_word 41 rfl ?_ (by decide) ?_ hw rest
  · simp [word_put_above]; decide
  · have hq : 17 ≤ q.toNat ∧ q.toNat ≤ 22 := by
      simp only [WellFormed, Instr.defined, Bool.and_eq_true, decide_eq_true_eq] at hw; exact hw.1.2.1
    have h1 : ¬ q.toNat ≤ 8 := by omega
    have h2 : q.toNat ≠ 9 := by omega
    have h3 : ¬ q.toNat ≤ 15 := by omega
    have h4 : q.toNat ≠ 16 := by omega
    simp [show ∀ w v, decodeMajor 41 w v = decodeVcvt (w.extractLsb' 3 5).toNat w from fun _ _ => rfl, decodeVcvt, h1, h2, h3, h4,
      hq.2, word_put_above, word_put_field]


theorem vdeqInt4x (d : BitVec 5) (a : BitVec 5) (h : BitVec 1) (m : BitVec 3) (e : BitVec 3) : Statement (.vdeqInt4x d a h m e) :=
  fun hw rest => by
  refine decode_word 41 rfl ?_ (by decide) ?_ hw rest
  · simp [word_put_above]; decide
  · simp [show ∀ w v, decodeMajor 41 w v = decodeVcvt (w.extractLsb' 3 5).toNat w from fun _ _ => rfl, decodeVcvt,
      word_put_above, word_put_field]


theorem vredSum (d : BitVec 5) (a : BitVec 5) (m : BitVec 3) (e : BitVec 3) : Statement (.vredSum d a m e) := fun h rest => by
  refine decode_word 42 rfl ?_ (by decide) ?_ h rest
  · simp [word_put_above]; decide
  · simp [show ∀ w v, decodeMajor 42 w v = decodeVred (w.extractLsb' 3 5).toNat w from fun _ _ => rfl,
      show ∀ w, decodeVred 0 w = some (.vredSum (w.extractLsb' 21 5) (w.extractLsb' 16 5) (w.extractLsb' 8 3) (w.extractLsb' 0 3), w.extractLsb' 11 5 == 0) from fun _ => rfl, word_put_above, word_put_below]

theorem vredMax (d : BitVec 5) (a : BitVec 5) (m : BitVec 3) (e : BitVec 3) : Statement (.vredMax d a m e) := fun h rest => by
  refine decode_word 42 rfl ?_ (by decide) ?_ h rest
  · simp [word_put_above]; decide
  · simp [show ∀ w v, decodeMajor 42 w v = decodeVred (w.extractLsb' 3 5).toNat w from fun _ _ => rfl,
      show ∀ w, decodeVred 1 w = some (.vredMax (w.extractLsb' 21 5) (w.extractLsb' 16 5) (w.extractLsb' 8 3) (w.extractLsb' 0 3), w.extractLsb' 11 5 == 0) from fun _ => rfl, word_put_above, word_put_below]

theorem vredMin (d : BitVec 5) (a : BitVec 5) (m : BitVec 3) (e : BitVec 3) : Statement (.vredMin d a m e) := fun h rest => by
  refine decode_word 42 rfl ?_ (by decide) ?_ h rest
  · simp [word_put_above]; decide
  · simp [show ∀ w v, decodeMajor 42 w v = decodeVred (w.extractLsb' 3 5).toNat w from fun _ _ => rfl,
      show ∀ w, decodeVred 2 w = some (.vredMin (w.extractLsb' 21 5) (w.extractLsb' 16 5) (w.extractLsb' 8 3) (w.extractLsb' 0 3), w.extractLsb' 11 5 == 0) from fun _ => rfl, word_put_above, word_put_below]

theorem vtopk (d : BitVec 4) (a : BitVec 5) (k : BitVec 4) (m : BitVec 3) (e : BitVec 3) : Statement (.vtopk d a k m e) := fun h rest => by
  refine decode_word 42 rfl ?_ (by decide) ?_ h rest
  · simp [word_put_above]; decide
  · simp [show ∀ w v, decodeMajor 42 w v = decodeVred (w.extractLsb' 3 5).toNat w from fun _ _ => rfl,
      show ∀ w, decodeVred 3 w = some (.vtopk (w.extractLsb' 22 4) (w.extractLsb' 16 5) (w.extractLsb' 11 4) (w.extractLsb' 8 3) (w.extractLsb' 0 3), w.extractLsb' 21 1 == 0 && w.extractLsb' 15 1 == 0) from fun _ => rfl, word_put_above, word_put_below]

theorem vargmax (d : BitVec 5) (a : BitVec 5) (m : BitVec 3) (e : BitVec 3) : Statement (.vargmax d a m e) := fun h rest => by
  refine decode_word 42 rfl ?_ (by decide) ?_ h rest
  · simp [word_put_above]; decide
  · simp [show ∀ w v, decodeMajor 42 w v = decodeVred (w.extractLsb' 3 5).toNat w from fun _ _ => rfl,
      show ∀ w, decodeVred 4 w = some (.vargmax (w.extractLsb' 21 5) (w.extractLsb' 16 5) (w.extractLsb' 8 3) (w.extractLsb' 0 3), w.extractLsb' 11 5 == 0) from fun _ => rfl, word_put_above, word_put_below]

theorem vopt (a : BitVec 5) : Statement (.vopt a) := fun h rest => by
  refine decode_word 42 rfl ?_ (by decide) ?_ h rest
  · simp [word_put_above]; decide
  · simp [show ∀ w v, decodeMajor 42 w v = decodeVred (w.extractLsb' 3 5).toNat w from fun _ _ => rfl,
      show ∀ w, decodeVred 5 w = decodeVred5 (w.extractLsb' 0 3).toNat w from fun _ => rfl,
      show ∀ w, decodeVred5 0 w = some (.vopt (w.extractLsb' 16 5), w.extractLsb' 21 5 == 0 && w.extractLsb' 8 8 == 0) from fun _ => rfl, word_put_above, word_put_below]

theorem vectorCommandPerform (core : Nat) : Statement (.vectorCommandPerform core) := by intro h; cases h

theorem engineCompletionDelivery (core : Nat) : Statement (.engineCompletionDelivery core) := by intro h; cases h

theorem mctx (a : BitVec 5) (b : BitVec 5) : Statement (.mctx a b) := fun h rest => by
  refine decode_word 43 rfl ?_ (by decide) ?_ h rest
  · simp [word_put_above]; decide
  · simp [show ∀ w v, decodeMajor 43 w v = decodeMat (w.extractLsb' 21 5).toNat w from fun _ _ => rfl,
      show ∀ w, decodeMat 0 w = some (.mctx (w.extractLsb' 16 5) (w.extractLsb' 11 5), w.extractLsb' 0 11 == 0) from fun _ => rfl, word_put_above, word_put_below]

theorem mfetch (a : BitVec 5) (b : BitVec 5) (c : BitVec 5) (o : BitVec 1) (r : BitVec 1) (s : BitVec 4) : Statement (.mfetch a b c o r s) := fun h rest => by
  refine decode_word 43 rfl ?_ (by decide) ?_ h rest
  · simp [word_put_above]; decide
  · simp [show ∀ w v, decodeMajor 43 w v = decodeMat (w.extractLsb' 21 5).toNat w from fun _ _ => rfl,
      show ∀ w, decodeMat 1 w = some (.mfetch (w.extractLsb' 16 5) (w.extractLsb' 11 5) (w.extractLsb' 6 5) (w.extractLsb' 5 1) (w.extractLsb' 4 1) (w.extractLsb' 0 4), true) from fun _ => rfl, word_put_above, word_put_below]

theorem mma (p : BitVec 7) (q : BitVec 7) (n : BitVec 1) (r : BitVec 1) (l : BitVec 1) : Statement (.mma p q n r l) := fun h rest => by
  refine decode_word 43 rfl ?_ (by decide) ?_ h rest
  · simp [word_put_above]; decide
  · simp [show ∀ w v, decodeMajor 43 w v = decodeMat (w.extractLsb' 21 5).toNat w from fun _ _ => rfl,
      show ∀ w, decodeMat 2 w = some (.mma (w.extractLsb' 14 7) (w.extractLsb' 7 7) (w.extractLsb' 6 1) (w.extractLsb' 5 1) (w.extractLsb' 4 1), w.extractLsb' 0 4 == 0) from fun _ => rfl, word_put_above, word_put_below]

theorem mzero (t : BitVec 1) : Statement (.mzero t) := fun h rest => by
  refine decode_word 43 rfl ?_ (by decide) ?_ h rest
  · simp [word_put_above]; decide
  · simp [show ∀ w v, decodeMajor 43 w v = decodeMat (w.extractLsb' 21 5).toNat w from fun _ _ => rfl,
      show ∀ w, decodeMat 3 w = some (.mzero (w.extractLsb' 16 1), w.extractLsb' 17 4 == 0 && w.extractLsb' 0 16 == 0) from fun _ => rfl, word_put_above, word_put_below]

theorem mrd (a : BitVec 5) (b : BitVec 5) (t : BitVec 1) (z : BitVec 1) (f : BitVec 2) : Statement (.mrd a b t z f) := fun h rest => by
  refine decode_word 43 rfl ?_ (by decide) ?_ h rest
  · simp [word_put_above]; decide
  · simp [show ∀ w v, decodeMajor 43 w v = decodeMat (w.extractLsb' 21 5).toNat w from fun _ _ => rfl,
      show ∀ w, decodeMat 4 w = some (.mrd (w.extractLsb' 16 5) (w.extractLsb' 11 5) (w.extractLsb' 6 1) (w.extractLsb' 2 1) (w.extractLsb' 0 2), w.extractLsb' 7 4 == 0 && w.extractLsb' 3 3 == 0) from fun _ => rfl, word_put_above, word_put_below]

theorem mwr (a : BitVec 5) (t : BitVec 1) : Statement (.mwr a t) := fun h rest => by
  refine decode_word 43 rfl ?_ (by decide) ?_ h rest
  · simp [word_put_above]; decide
  · simp [show ∀ w v, decodeMajor 43 w v = decodeMat (w.extractLsb' 21 5).toNat w from fun _ _ => rfl,
      show ∀ w, decodeMat 5 w = some (.mwr (w.extractLsb' 16 5) (w.extractLsb' 6 1), w.extractLsb' 7 9 == 0 && w.extractLsb' 0 6 == 0) from fun _ => rfl, word_put_above, word_put_below]

theorem mrel (i : BitVec 4) : Statement (.mrel i) := fun h rest => by
  refine decode_word 43 rfl ?_ (by decide) ?_ h rest
  · simp [word_put_above]; decide
  · simp [show ∀ w v, decodeMajor 43 w v = decodeMat (w.extractLsb' 21 5).toNat w from fun _ _ => rfl,
      show ∀ w, decodeMat 6 w = decodeMat6 (w.extractLsb' 4 1).toNat w from fun _ => rfl,
      show ∀ w, decodeMat6 0 w = some (.mrel (w.extractLsb' 0 4), w.extractLsb' 5 16 == 0) from fun _ => rfl, word_put_above, word_put_below]

theorem mrelAll : Statement .mrelAll := fun h rest => by
  refine decode_word 43 rfl ?_ (by decide) ?_ h rest
  · simp [word_put_above]; decide
  · simp [show ∀ w v, decodeMajor 43 w v = decodeMat (w.extractLsb' 21 5).toNat w from fun _ _ => rfl,
      show ∀ w, decodeMat 6 w = decodeMat6 (w.extractLsb' 4 1).toNat w from fun _ => rfl,
      show ∀ w, decodeMat6 1 w = some (.mrelAll, w.extractLsb' 5 16 == 0 && w.extractLsb' 0 4 == 0) from fun _ => rfl, word_put_above, word_put_below]

theorem mstat (a : BitVec 5) : Statement (.mstat a) := fun h rest => by
  refine decode_word 43 rfl ?_ (by decide) ?_ h rest
  · simp [word_put_above]; decide
  · simp [show ∀ w v, decodeMajor 43 w v = decodeMat (w.extractLsb' 21 5).toNat w from fun _ _ => rfl,
      show ∀ w, decodeMat 7 w = some (.mstat (w.extractLsb' 16 5), w.extractLsb' 0 16 == 0) from fun _ => rfl, word_put_above, word_put_below]

theorem arrayGrant (cove : Nat) : Statement (.arrayGrant cove) := by intro h; cases h

theorem tileFetchGrant (cove : Nat) : Statement (.tileFetchGrant cove) := by intro h; cases h

theorem matRetire (core : Nat) : Statement (.matRetire core) := by intro h; cases h

theorem xdef (a : BitVec 5) (b : BitVec 5) (c : BitVec 5) : Statement (.xdef a b c) := fun h rest => by
  refine decode_word 44 rfl ?_ (by decide) ?_ h rest
  · simp [word_put_above]; decide
  · simp [show ∀ w v, decodeMajor 44 w v = decodeExp (w.extractLsb' 21 5).toNat w from fun _ _ => rfl,
      show ∀ w, decodeExp 0 w = some (.xdef (w.extractLsb' 16 5) (w.extractLsb' 11 5) (w.extractLsb' 6 5), w.extractLsb' 0 6 == 0) from fun _ => rfl, word_put_above, word_put_below]

theorem xsend (a : BitVec 5) (b : BitVec 5) (p : BitVec 1) (bk : BitVec 1) : Statement (.xsend a b p bk) := fun h rest => by
  refine decode_word 44 rfl ?_ (by decide) ?_ h rest
  · simp [word_put_above]; decide
  · simp [show ∀ w v, decodeMajor 44 w v = decodeExp (w.extractLsb' 21 5).toNat w from fun _ _ => rfl,
      show ∀ w, decodeExp 1 w = some (.xsend (w.extractLsb' 16 5) (w.extractLsb' 11 5) (w.extractLsb' 1 1) (w.extractLsb' 0 1), w.extractLsb' 2 9 == 0) from fun _ => rfl, word_put_above, word_put_below]

theorem xrep (a : BitVec 5) (c : BitVec 5) : Statement (.xrep a c) := fun h rest => by
  refine decode_word 44 rfl ?_ (by decide) ?_ h rest
  · simp [word_put_above]; decide
  · simp [show ∀ w v, decodeMajor 44 w v = decodeExp (w.extractLsb' 21 5).toNat w from fun _ _ => rfl,
      show ∀ w, decodeExp 2 w = some (.xrep (w.extractLsb' 16 5) (w.extractLsb' 6 5), w.extractLsb' 11 5 == 0 && w.extractLsb' 0 6 == 0) from fun _ => rfl, word_put_above, word_put_below]

theorem xret (a : BitVec 5) (b : BitVec 5) (c : BitVec 5) : Statement (.xret a b c) := fun h rest => by
  refine decode_word 44 rfl ?_ (by decide) ?_ h rest
  · simp [word_put_above]; decide
  · simp [show ∀ w v, decodeMajor 44 w v = decodeExp (w.extractLsb' 21 5).toNat w from fun _ _ => rfl,
      show ∀ w, decodeExp 3 w = some (.xret (w.extractLsb' 16 5) (w.extractLsb' 11 5) (w.extractLsb' 6 5), w.extractLsb' 0 6 == 0) from fun _ => rfl, word_put_above, word_put_below]

theorem xown (a : BitVec 5) (b : BitVec 5) (c : BitVec 5) (q : BitVec 3) : Statement (.xown a b c q) := fun h rest => by
  refine decode_word 44 rfl ?_ (by decide) ?_ h rest
  · simp [word_put_above]; decide
  · simp [show ∀ w v, decodeMajor 44 w v = decodeExp (w.extractLsb' 21 5).toNat w from fun _ _ => rfl,
      show ∀ w, decodeExp 4 w = some (.xown (w.extractLsb' 16 5) (w.extractLsb' 11 5) (w.extractLsb' 6 5) (w.extractLsb' 0 3), w.extractLsb' 3 3 == 0) from fun _ => rfl, word_put_above, word_put_below]

theorem xjoin (a : BitVec 5) (b : BitVec 5) (n : BitVec 1) (p : BitVec 1) : Statement (.xjoin a b n p) := fun h rest => by
  refine decode_word 44 rfl ?_ (by decide) ?_ h rest
  · simp [word_put_above]; decide
  · simp [show ∀ w v, decodeMajor 44 w v = decodeExp (w.extractLsb' 21 5).toNat w from fun _ _ => rfl,
      show ∀ w, decodeExp 5 w = some (.xjoin (w.extractLsb' 16 5) (w.extractLsb' 11 5) (w.extractLsb' 1 1) (w.extractLsb' 0 1), w.extractLsb' 2 9 == 0) from fun _ => rfl, word_put_above, word_put_below]

theorem xupd (a : BitVec 5) (b : BitVec 5) (c : BitVec 5) : Statement (.xupd a b c) := fun h rest => by
  refine decode_word 44 rfl ?_ (by decide) ?_ h rest
  · simp [word_put_above]; decide
  · simp [show ∀ w v, decodeMajor 44 w v = decodeExp (w.extractLsb' 21 5).toNat w from fun _ _ => rfl,
      show ∀ w, decodeExp 6 w = some (.xupd (w.extractLsb' 16 5) (w.extractLsb' 11 5) (w.extractLsb' 6 5), w.extractLsb' 0 6 == 0) from fun _ => rfl, word_put_above, word_put_below]

theorem xcnt (a : BitVec 5) (b : BitVec 5) : Statement (.xcnt a b) := fun h rest => by
  refine decode_word 44 rfl ?_ (by decide) ?_ h rest
  · simp [word_put_above]; decide
  · simp [show ∀ w v, decodeMajor 44 w v = decodeExp (w.extractLsb' 21 5).toNat w from fun _ _ => rfl,
      show ∀ w, decodeExp 7 w = some (.xcnt (w.extractLsb' 16 5) (w.extractLsb' 11 5), w.extractLsb' 0 11 == 0) from fun _ => rfl, word_put_above, word_put_below]

theorem xq (a : BitVec 5) (c : BitVec 5) (k : BitVec 4) : Statement (.xq a c k) := fun h rest => by
  refine decode_word 44 rfl ?_ (by decide) ?_ h rest
  · simp [word_put_above]; decide
  · simp [show ∀ w v, decodeMajor 44 w v = decodeExp (w.extractLsb' 21 5).toNat w from fun _ _ => rfl,
      show ∀ w, decodeExp 8 w = some (.xq (w.extractLsb' 16 5) (w.extractLsb' 6 5) (w.extractLsb' 0 4), w.extractLsb' 11 5 == 0 && w.extractLsb' 4 2 == 0) from fun _ => rfl, word_put_above, word_put_below]

theorem selectorToken (die : Nat) : Statement (.selectorToken die) := by intro h; cases h

theorem selectorTokenRelease (name : Nat) (replica : Nat) : Statement (.selectorTokenRelease name replica) := by intro h; cases h

theorem selectorStepClose (name : Nat) : Statement (.selectorStepClose name) := by intro h; cases h

theorem replicaFillComplete (name : Nat) : Statement (.replicaFillComplete name) := by intro h; cases h

theorem joinEntryArrival (die : Nat) : Statement (.joinEntryArrival die) := by intro h; cases h

theorem joinAdd (name : Nat) : Statement (.joinAdd name) := by intro h; cases h

theorem updateCopyComplete (name : Nat) (replica : Nat) : Statement (.updateCopyComplete name replica) := by intro h; cases h

theorem replicaGone (name : Nat) (replica : Nat) : Statement (.replicaGone name replica) := by intro h; cases h

theorem expertWalkRetry (name : Nat) : Statement (.expertWalkRetry name) := by intro h; cases h

theorem gpush (a : BitVec 5) (b : BitVec 5) : Statement (.gpush a b) := fun h rest => by
  refine decode_word 45 rfl ?_ (by decide) ?_ h rest
  · simp [word_put_above]; decide
  · simp [show ∀ w v, decodeMajor 45 w v = decodeRte (w.extractLsb' 21 5).toNat w from fun _ _ => rfl,
      show ∀ w, decodeRte 0 w = some (.gpush (w.extractLsb' 16 5) (w.extractLsb' 11 5), w.extractLsb' 0 11 == 0) from fun _ => rfl, word_put_above, word_put_below]

theorem gpop (a : BitVec 5) (c : BitVec 5) (w : BitVec 1) : Statement (.gpop a c w) := fun h rest => by
  refine decode_word 45 rfl ?_ (by decide) ?_ h rest
  · simp [word_put_above]; decide
  · simp [show ∀ w v, decodeMajor 45 w v = decodeRte (w.extractLsb' 21 5).toNat w from fun _ _ => rfl,
      show ∀ w, decodeRte 1 w = some (.gpop (w.extractLsb' 16 5) (w.extractLsb' 6 5) (w.extractLsb' 0 1), w.extractLsb' 11 5 == 0 && w.extractLsb' 1 5 == 0) from fun _ => rfl, word_put_above, word_put_below]

theorem remit (a : BitVec 5) (c : BitVec 5) : Statement (.remit a c) := fun h rest => by
  refine decode_word 45 rfl ?_ (by decide) ?_ h rest
  · simp [word_put_above]; decide
  · simp [show ∀ w v, decodeMajor 45 w v = decodeRte (w.extractLsb' 21 5).toNat w from fun _ _ => rfl,
      show ∀ w, decodeRte 2 w = some (.remit (w.extractLsb' 16 5) (w.extractLsb' 6 5), w.extractLsb' 11 5 == 0 && w.extractLsb' 0 6 == 0) from fun _ => rfl, word_put_above, word_put_below]

theorem rsort (a : BitVec 5) : Statement (.rsort a) := fun h rest => by
  refine decode_word 45 rfl ?_ (by decide) ?_ h rest
  · simp [word_put_above]; decide
  · simp [show ∀ w v, decodeMajor 45 w v = decodeRte (w.extractLsb' 21 5).toNat w from fun _ _ => rfl,
      show ∀ w, decodeRte 3 w = some (.rsort (w.extractLsb' 16 5), w.extractLsb' 0 16 == 0) from fun _ => rfl, word_put_above, word_put_below]

theorem rmap (a : BitVec 5) (d : BitVec 1) : Statement (.rmap a d) := fun h rest => by
  refine decode_word 45 rfl ?_ (by decide) ?_ h rest
  · simp [word_put_above]; decide
  · simp [show ∀ w v, decodeMajor 45 w v = decodeRte (w.extractLsb' 21 5).toNat w from fun _ _ => rfl,
      show ∀ w, decodeRte 4 w = some (.rmap (w.extractLsb' 16 5) (w.extractLsb' 0 1), w.extractLsb' 1 15 == 0) from fun _ => rfl, word_put_above, word_put_below]

theorem rclose (a : BitVec 5) (u : BitVec 1) : Statement (.rclose a u) := fun h rest => by
  refine decode_word 45 rfl ?_ (by decide) ?_ h rest
  · simp [word_put_above]; decide
  · simp [show ∀ w v, decodeMajor 45 w v = decodeRte (w.extractLsb' 21 5).toNat w from fun _ _ => rfl,
      show ∀ w, decodeRte 5 w = some (.rclose (w.extractLsb' 16 5) (w.extractLsb' 0 1), w.extractLsb' 1 15 == 0) from fun _ => rfl, word_put_above, word_put_below]

theorem sortEnginePerform (die : Nat) : Statement (.sortEnginePerform die) := by intro h; cases h

theorem rput (a : BitVec 5) (n : BitVec 1) : Statement (.rput a n) := fun h rest => by
  refine decode_word 46 rfl ?_ (by decide) ?_ h rest
  · simp [word_put_above]; decide
  · simp [show ∀ w v, decodeMajor 46 w v = decodeRed (w.extractLsb' 21 5).toNat w from fun _ _ => rfl,
      show ∀ w, decodeRed 0 w = some (.rput (w.extractLsb' 16 5) (w.extractLsb' 0 1), w.extractLsb' 1 15 == 0) from fun _ => rfl, word_put_above, word_put_below]

theorem rcfg (a : BitVec 5) (c : BitVec 5) (r : BitVec 4) : Statement (.rcfg a c r) := fun h rest => by
  refine decode_word 46 rfl ?_ (by decide) ?_ h rest
  · simp [word_put_above]; decide
  · simp [show ∀ w v, decodeMajor 46 w v = decodeRed (w.extractLsb' 21 5).toNat w from fun _ _ => rfl,
      show ∀ w, decodeRed 1 w = some (.rcfg (w.extractLsb' 16 5) (w.extractLsb' 6 5) (w.extractLsb' 0 4), w.extractLsb' 11 5 == 0 && w.extractLsb' 4 2 == 0) from fun _ => rfl, word_put_above, word_put_below]

theorem rstat (a : BitVec 5) (c : BitVec 5) (r : BitVec 4) : Statement (.rstat a c r) := fun h rest => by
  refine decode_word 46 rfl ?_ (by decide) ?_ h rest
  · simp [word_put_above]; decide
  · simp [show ∀ w v, decodeMajor 46 w v = decodeRed (w.extractLsb' 21 5).toNat w from fun _ _ => rfl,
      show ∀ w, decodeRed 2 w = decodeRed2 (w.extractLsb' 4 1).toNat w from fun _ => rfl,
      show ∀ w, decodeRed2 0 w = some (.rstat (w.extractLsb' 16 5) (w.extractLsb' 6 5) (w.extractLsb' 0 4), w.extractLsb' 11 5 == 0 && w.extractLsb' 5 1 == 0) from fun _ => rfl, word_put_above, word_put_below]

theorem rstatSum (c : BitVec 5) : Statement (.rstatSum c) := fun h rest => by
  refine decode_word 46 rfl ?_ (by decide) ?_ h rest
  · simp [word_put_above]; decide
  · simp [show ∀ w v, decodeMajor 46 w v = decodeRed (w.extractLsb' 21 5).toNat w from fun _ _ => rfl,
      show ∀ w, decodeRed 2 w = decodeRed2 (w.extractLsb' 4 1).toNat w from fun _ => rfl,
      show ∀ w, decodeRed2 1 w = some (.rstatSum (w.extractLsb' 6 5), w.extractLsb' 11 10 == 0 && w.extractLsb' 5 1 == 0 && w.extractLsb' 0 4 == 0) from fun _ => rfl, word_put_above, word_put_below]

theorem rputArrival (die : Nat) : Statement (.rputArrival die) := by intro h; cases h

theorem reduceChunkArrival (die : Nat) : Statement (.reduceChunkArrival die) := by intro h; cases h

theorem reduceDeadline (die : Nat) (bucket : Nat) : Statement (.reduceDeadline die bucket) := by intro h; cases h

theorem trap (k : BitVec 6) : Statement (.trap k) := fun h rest => by
  refine decode_word 0 rfl ?_ (by decide) ?_ h rest
  · simp [word_put_above]; decide
  · simp [show ∀ w v, decodeMajor 0 w v = decodeSys (w.extractLsb' 21 5).toNat w from fun _ _ => rfl,
      show ∀ w, decodeSys 1 w = some (.trap (w.extractLsb' 0 6), w.extractLsb' 6 15 == 0) from fun _ => rfl, word_put_above, word_put_below]

theorem sys (k : BitVec 6) : Statement (.sys k) := fun h rest => by
  refine decode_word 0 rfl ?_ (by decide) ?_ h rest
  · simp [word_put_above]; decide
  · simp [show ∀ w v, decodeMajor 0 w v = decodeSys (w.extractLsb' 21 5).toNat w from fun _ _ => rfl,
      show ∀ w, decodeSys 2 w = some (.sys (w.extractLsb' 0 6), w.extractLsb' 6 15 == 0) from fun _ => rfl, word_put_above, word_put_below]

theorem brk (k : BitVec 6) : Statement (.brk k) := fun h rest => by
  refine decode_word 0 rfl ?_ (by decide) ?_ h rest
  · simp [word_put_above]; decide
  · simp [show ∀ w v, decodeMajor 0 w v = decodeSys (w.extractLsb' 21 5).toNat w from fun _ _ => rfl,
      show ∀ w, decodeSys 3 w = some (.brk (w.extractLsb' 0 6), w.extractLsb' 6 15 == 0) from fun _ => rfl, word_put_above, word_put_below]

theorem rdsr (a : BitVec 5) (n : BitVec 16) : Statement (.rdsr a n) := fun h rest => by
  refine decode_word 0 rfl ?_ (by decide) ?_ h rest
  · simp [word_put_above]; decide
  · simp [show ∀ w v, decodeMajor 0 w v = decodeSys (w.extractLsb' 21 5).toNat w from fun _ _ => rfl,
      show ∀ w, decodeSys 4 w = some (.rdsr (w.extractLsb' 16 5) (w.extractLsb' 0 16), true) from fun _ => rfl, word_put_above, word_put_below]

theorem wrsr (a : BitVec 5) (n : BitVec 16) : Statement (.wrsr a n) := fun h rest => by
  refine decode_word 0 rfl ?_ (by decide) ?_ h rest
  · simp [word_put_above]; decide
  · simp [show ∀ w v, decodeMajor 0 w v = decodeSys (w.extractLsb' 21 5).toNat w from fun _ _ => rfl,
      show ∀ w, decodeSys 5 w = some (.wrsr (w.extractLsb' 16 5) (w.extractLsb' 0 16), true) from fun _ => rfl, word_put_above, word_put_below]

theorem registerWrite (management : Bool) (core : Nat) (number : Nat) (value : BitVec 64) : Statement (.registerWrite management core number value) := by intro h; cases h

theorem storeBufferDrain (core : Nat) : Statement (.storeBufferDrain core) := by intro h; cases h

theorem blockPlacement (die : Nat) : Statement (.blockPlacement die) := by intro h; cases h

theorem blockEnd (block : Nat) : Statement (.blockEnd block) := by intro h; cases h

theorem taskStart (core : Nat) : Statement (.taskStart core) := by intro h; cases h

theorem urgentPreempt (core : Nat) : Statement (.urgentPreempt core) := by intro h; cases h

theorem urgentHoldExpiry (core : Nat) : Statement (.urgentHoldExpiry core) := by intro h; cases h

theorem leeWindowExpiry (core : Nat) : Statement (.leeWindowExpiry core) := by intro h; cases h

theorem actorFire (core : Nat) : Statement (.actorFire core) := by intro h; cases h

theorem slackWaterPark (core : Nat) : Statement (.slackWaterPark core) := by intro h; cases h

theorem shipContextArrival (core : Nat) : Statement (.shipContextArrival core) := by intro h; cases h

theorem ebb (block : Nat) : Statement (.ebb block) := by intro h; cases h

theorem flood (block : Nat) : Statement (.flood block) := by intro h; cases h

theorem dirRds (die : Nat) (line : Nat) : Statement (.dirRds die line) := by intro h; cases h

theorem dirRdx (die : Nat) (line : Nat) (upgrade : Bool) : Statement (.dirRdx die line upgrade) := by intro h; cases h

theorem dirWb (die : Nat) (line : Nat) : Statement (.dirWb die line) := by intro h; cases h

theorem dirCe (die : Nat) (line : Nat) : Statement (.dirCe die line) := by intro h; cases h

theorem dirInvack (die : Nat) (line : Nat) : Statement (.dirInvack die line) := by intro h; cases h

theorem dirOwnerReply (die : Nat) (line : Nat) : Statement (.dirOwnerReply die line) := by intro h; cases h

theorem ownerFwds (die : Nat) (line : Nat) : Statement (.ownerFwds die line) := by intro h; cases h

theorem ownerFwdx (die : Nat) (line : Nat) : Statement (.ownerFwdx die line) := by intro h; cases h

theorem ownerRecall (die : Nat) (line : Nat) : Statement (.ownerRecall die line) := by intro h; cases h

theorem inv (die : Nat) (line : Nat) : Statement (.inv die line) := by intro h; cases h

theorem recallSlow (line : Nat) : Statement (.recallSlow line) := by intro h; cases h

theorem hostMemRequest (line : Nat) (exclusive : Bool) : Statement (.hostMemRequest line exclusive) := by intro h; cases h

theorem copyCommandPerform (core : Nat) : Statement (.copyCommandPerform core) := by intro h; cases h

theorem streamElement (core : Nat) (queue : Nat) : Statement (.streamElement core queue) := by intro h; cases h

theorem messageArrival (die : Nat) (index : Nat) : Statement (.messageArrival die index) := by intro h; cases h

theorem bounce (die : Nat) (index : Nat) : Statement (.bounce die index) := by intro h; cases h

theorem creditArrival (die : Nat) (index : Nat) : Statement (.creditArrival die index) := by intro h; cases h

theorem postedStoreArrival (die : Nat) (index : Nat) : Statement (.postedStoreArrival die index) := by intro h; cases h

theorem nibbleStoreArrival (die : Nat) (index : Nat) : Statement (.nibbleStoreArrival die index) := by intro h; cases h

theorem cgetRequest (die : Nat) (index : Nat) : Statement (.cgetRequest die index) := by intro h; cases h

theorem journalAck (die : Nat) (index : Nat) : Statement (.journalAck die index) := by intro h; cases h

theorem journalRefusal (die : Nat) (index : Nat) : Statement (.journalRefusal die index) := by intro h; cases h

theorem ackTimeout (core : Nat) (index : Nat) : Statement (.ackTimeout core index) := by intro h; cases h

theorem spillRetry (die : Nat) (stop : Nat) : Statement (.spillRetry die stop) := by intro h; cases h

theorem linlosArrival (source : Nat) (die : Nat) : Statement (.linlosArrival source die) := by intro h; cases h

theorem flitCrcFail (link : Nat) : Statement (.flitCrcFail link) := by intro h; cases h

theorem linkRetrain (link : Nat) : Statement (.linkRetrain link) := by intro h; cases h

theorem tidePoolHoldExpiry (die : Nat) (packet : Nat) : Statement (.tidePoolHoldExpiry die packet) := by intro h; cases h

theorem lnkctlFence (mask : BitVec 4) : Statement (.lnkctlFence mask) := by intro h; cases h

theorem lnkctlQuiesce (part : Nat) (value : Bool) : Statement (.lnkctlQuiesce part value) := by intro h; cases h

theorem lnkctlDrain (part : Nat) : Statement (.lnkctlDrain part) := by intro h; cases h

theorem lnkctlClear (part : Nat) : Statement (.lnkctlClear part) := by intro h; cases h

theorem lnkctlEpadv (part : Nat) : Statement (.lnkctlEpadv part) := by intro h; cases h

theorem timeSyncLoss (die : Nat) : Statement (.timeSyncLoss die) := by intro h; cases h

theorem tideTransit (port : Nat) : Statement (.tideTransit port) := by intro h; cases h

theorem pathDown (peer : Nat) (path : Nat) : Statement (.pathDown peer path) := by intro h; cases h

theorem peerDown (peer : Nat) : Statement (.peerDown peer) := by intro h; cases h

theorem peerUp (peer : Nat) : Statement (.peerUp peer) := by intro h; cases h

theorem orderedFlagArrival (die : Nat) (index : Nat) : Statement (.orderedFlagArrival die index) := by intro h; cases h

theorem orderedFlagRelease (die : Nat) : Statement (.orderedFlagRelease die) := by intro h; cases h

theorem gownWrite (part : Nat) (index : Nat) (value : BitVec 64) : Statement (.gownWrite part index value) := by intro h; cases h

theorem gjoinJoin (group : Nat) (core : Nat) : Statement (.gjoinJoin group core) := by intro h; cases h

theorem gjoinLeave (group : Nat) (core : Nat) : Statement (.gjoinLeave group core) := by intro h; cases h

theorem groupWatchdogExpiry (group : Nat) : Statement (.groupWatchdogExpiry group) := by intro h; cases h

theorem gateAppend (die : Nat) : Statement (.gateAppend die) := by intro h; cases h

theorem trapAction (core : Nat) (bank : Nat) : Statement (.trapAction core bank) := by intro h; cases h

theorem trapRecordDelivery (die : Nat) : Statement (.trapRecordDelivery die) := by intro h; cases h

theorem tselWrite (core : Nat) (value : BitVec 64) : Statement (.tselWrite core value) := by intro h; cases h

theorem tctlResume (core : Nat) : Statement (.tctlResume core) := by intro h; cases h

theorem tctlSkip (core : Nat) : Statement (.tctlSkip core) := by intro h; cases h

theorem tctlKill (core : Nat) : Statement (.tctlKill core) := by intro h; cases h

theorem tctlHalt (core : Nat) : Statement (.tctlHalt core) := by intro h; cases h

theorem tctlStep (core : Nat) : Statement (.tctlStep core) := by intro h; cases h

theorem tctlIcache (core : Nat) : Statement (.tctlIcache core) := by intro h; cases h

theorem coreWatchdog (core : Nat) : Statement (.coreWatchdog core) := by intro h; cases h

theorem pmapWrite (part : Nat) (die : Nat) (value : BitVec 64) : Statement (.pmapWrite part die value) := by intro h; cases h

theorem pasidWrite (part : Nat) (value : BitVec 64) : Statement (.pasidWrite part value) := by intro h; cases h

theorem rcoreRun (die : Nat) : Statement (.rcoreRun die) := by intro h; cases h

theorem gangSwitch (part : Nat) : Statement (.gangSwitch part) := by intro h; cases h

theorem gangSwitchOverrun (part : Nat) : Statement (.gangSwitchOverrun part) := by intro h; cases h

theorem deviceReset : Statement .deviceReset := by intro h; cases h

theorem hostReset : Statement .hostReset := by intro h; cases h

theorem hostLinkLoss : Statement .hostLinkLoss := by intro h; cases h

theorem prgResponse (cove : Nat) (ticket : Nat) (success : Bool) : Statement (.prgResponse cove ticket success) := by intro h; cases h

theorem firmwareGo : Statement .firmwareGo := by intro h; cases h

theorem attestGo : Statement .attestGo := by intro h; cases h

theorem attestReportReady : Statement .attestReportReady := by intro h; cases h

theorem launchWindowWrite (part : Nat) (queue : Nat) (record : BitVec 512) : Statement (.launchWindowWrite part queue record) := by intro h; cases h

theorem hourBoundary : Statement .hourBoundary := by intro h; cases h

theorem memoryError (kind : Nat) (place : Nat) (address : Nat) (correctable : Bool) : Statement (.memoryError kind place address correctable) := by intro h; cases h

theorem throttleStart : Statement .throttleStart := by intro h; cases h

theorem throttleEnd : Statement .throttleEnd := by intro h; cases h

theorem hostLinkReturn : Statement .hostLinkReturn := by intro h; cases h

theorem pathUp (peer : Nat) (path : Nat) : Statement (.pathUp peer path) := by intro h; cases h

theorem cxlCacheInvalidation (line : Nat) (shared : Bool) : Statement (.cxlCacheInvalidation line shared) := by intro h; cases h

theorem bringUpComplete (why : Nat) : Statement (.bringUpComplete why) := by intro h; cases h

end Sys2Proof.Laws.Encoding
end

