-- ==== Sys2Proof/Laws/Run.lean ====
section
/-! SUPPORT. Running the computations in which the meanings are written: what each primitive answers. -/

namespace Sys2Proof.Machine

variable {α β : Type} (s t : State)

@[simp] theorem run_bind (m : M α) (f : α → M β) :
    (m >>= f) s = match m s with | .ok a t => f a t | .error e t => .error e t := by
  show EStateM.bind m f s = _
  unfold EStateM.bind
  split <;> simp_all

@[simp] theorem run_map (f : α → β) (m : M α) :
    (f <$> m) s = match m s with | .ok a t => .ok (f a) t | .error e t => .error e t := by
  show EStateM.map f m s = _
  unfold EStateM.map
  split <;> simp_all

theorem run_bind_ok {m : M α} {f : α → M β} {a : α} (h : m s = .ok a t) : (m >>= f) s = f a t := by
  rw [run_bind, h]

theorem run_bind_error {m : M α} {f : α → M β} {e : Stop} (h : m s = .error e t) : (m >>= f) s = .error e t := by
  rw [run_bind, h]

@[simp] theorem run_pure (a : α) : (pure a : M α) s = .ok a s := rfl
@[simp] theorem run_get : (get : M State) s = .ok s s := rfl
@[simp] theorem run_set : (set t : M PUnit) s = .ok ⟨⟩ t := rfl
@[simp] theorem run_modify (f : State → State) : (modify f : M PUnit) s = .ok ⟨⟩ (f s) := rfl
@[simp] theorem run_modifyGet (f : State → α × State) : (modifyGet f : M α) s = .ok (f s).1 (f s).2 := rfl
@[simp] theorem run_throw (e : Stop) : (throw e : M α) s = .error e s := rfl
@[simp] theorem run_ite (c : Prop) [Decidable c] (x y : M α) : (if c then x else y) s = if c then x s else y s := by
  split <;> rfl

@[simp] theorem run_check_false (code : Nat) (a : Word) : check false code a s = .ok () s := rfl
@[simp] theorem run_check_true (code : Nat) (a : Word) :
    check true code a s = .error (.trap { code := code, kind := .p, addr := a }) s := rfl
@[simp] theorem run_trapP (code : Nat) (a : Word) (sub : Nat) (d : Word) :
    (trapP code a sub d : M α) s = .error (.trap { code := code, kind := .p, addr := a, sub := sub, detail := d }) s := rfl
@[simp] theorem run_checkOf_false (code d : Nat) : checkOf false code d s = .ok () s := rfl
@[simp] theorem run_checkOf_true (code d : Nat) :
    checkOf true code d s = .error (.trap { code := code, kind := .p, detail := BitVec.ofNat 64 d }) s := rfl
@[simp] theorem run_waitUntil_true : waitUntil true s = .ok () s := rfl
@[simp] theorem run_waitUntil_false : waitUntil false s = .error .wait s := rfl
@[simp] theorem run_enabled_true : enabled true s = .ok () s := rfl
@[simp] theorem run_enabled_false : enabled false s = .error .no s := rfl
@[simp] theorem run_orNo_some (a : α) : orNo (some a) s = .ok a s := rfl
@[simp] theorem run_orNo_none : (orNo none : M α) s = .error .no s := rfl
@[simp] theorem run_curCore : curCore s = .ok s.cur.core s := rfl
@[simp] theorem run_coreM (c : Nat) : coreM c s = .ok (s.coreAt c) s := rfl
@[simp] theorem run_cc : cc s = .ok (s.coreAt s.cur.core) s := rfl
@[simp] theorem run_modCC (f : Core → Core) : modCC f s = .ok ⟨⟩ (s.modCore s.cur.core f) := rfl
@[simp] theorem run_taskM : taskM s = .ok s.task s := rfl
@[simp] theorem run_modTaskM (f : Task → Task) : modTaskM f s = .ok ⟨⟩ (s.modTask f) := rfl
@[simp] theorem run_rg (i : BitVec 5) : rg i s = .ok (s.rg i) s := rfl
@[simp] theorem run_wg (i : BitVec 5) (v : Word) : wg i v s = .ok ⟨⟩ (s.wg i v) := rfl
@[simp] theorem run_pcM : pcM s = .ok s.pc s := rfl
@[simp] theorem run_partM : partM s = .ok (s.partOf s.cur.core) s := rfl
@[simp] theorem run_each_nil (f : α → M Unit) : each f [] s = .ok () s := rfl
@[simp] theorem run_mapEach_nil (f : α → M β) : mapEach f [] s = .ok [] s := rfl
theorem run_each_cons (f : α → M Unit) (a : α) (r : List α) : each f (a :: r) = (do f a; each f r) := rfl
theorem run_mapEach_cons (f : α → M β) (a : α) (r : List α) :
    mapEach f (a :: r) = (do let b ← f a; let bs ← mapEach f r; return b :: bs) := rfl

/-- An empty store buffer drains at once. -/
theorem run_drainOne_empty {c : Nat} (h : (s.coreAt c).sb = []) : drainOne c s = .ok () s := by
  simp [drainOne, h]

theorem run_drainN_empty {c : Nat} (h : (s.coreAt c).sb = []) (n : Nat) : drainN c n s = .ok () s := by
  induction n with
  | zero => rfl
  | succ n ih =>
    show (drainOne c >>= fun _ => drainN c n) s = _
    rw [run_bind_ok s s (run_drainOne_empty s h), ih]

theorem run_drain_empty (h : (s.coreAt s.cur.core).sb = []) : drain s = .ok () s := by
  show (curCore >>= fun c => drainN c 16) s = _
  rw [run_bind_ok s s (run_curCore s), run_drainN_empty s h]

end Sys2Proof.Machine
end

