-- ==== Sys2Proof/Tests/Slice0.lean ====
section
/-! SUPPORT. The model's own tests: words of the spec's encodings, ill-formed operands, a witness for the hypotheses of each
statement, and values that the spec works out. -/

open Sys2Proof Sys2Proof.Machine
set_option Elab.async false
namespace Sys2Proof.Tests

/-- A word decodes to an instruction, with nothing left over, and is the instruction's encoding. -/
def reads (w : BitVec 32) (i : Instr) : Bool :=
  (match decode (bytesOfWord w) with | .ok (j, []) => j == i | _ => false) && encode i == [w]

/-- A word is refused for a reason. -/
def refuses (w : BitVec 32) (e : DecodeError) : Bool := match decode (bytesOfWord w) with | .error f => f == e | .ok _ => false

/-! The words that the chapters' own examples give. -/

theorem test_words_of_chapters_2_to_5 : ([
    (0x08A6FFFD#32, .addi 5 6 0xFFFD), (0x3022FFFD#32, .beq 1 2 0xFFFD), (0x40600002#32, .bltz 3 2), (0x48000010#32, .j 16),
    (0x4C000400#32, .call 1024), (0x6864C003#32, .ld 3 4 6 3), (0x04000000#32, .add 0 0 0), (0x04640280#32, .or 3 4 0),
    (0x04642800#32, .add 3 4 5), (0x20E70083#32, .shai 7 7 3), (0x24AABCDE#32, .lhi 5 0xABCDE), (0x10A51234#32, .ori 5 5 0x1234),
    (0x5C070000#32, .qget 7 0), (0x5C2C0000#32, .qset 12 0), (0x501F0000#32, .jr 0 31), (0x53E90000#32, .jr 31 9), (0x6000000B#32, .split 11),
    (0x54050003#32, .loop 5 3), (0x3560FFFC#32, .bne 11 0 0xFFFC), (0x64600000#32, .done), (0x64800000#32, .yield), (0x64A00008#32, .lee 8),
    (0x64210004#32, .fork 1 4), (0x64410004#32, .join 1 4)] : List (BitVec 32 × Instr)).all (fun p => reads p.1 p.2) = true := by decide +kernel

theorem test_words_of_chapters_6_to_8 : ([
    (0x6CC8C008#32, .st 6 8 6 8), (0x70642AC0#32, .ldx 3 4 5 1 3), (0x74642980#32, .stx 3 4 5 0 6), (0x78000003#32, .carve 3), (0x78250000#32, .pool 5),
    (0x78460002#32, .pref 6 0 2), (0x78670000#32, .l1fl 7), (0x78600040#32, .l1flAll), (0x706112C0#32, .ldx 3 1 2 1 3), (0x6C644001#32, .st 3 4 2 1),
    (0x7C0110C0#32, .tlbw 1 2 3), (0x7C211000#32, .tlbiVa 1 2), (0x7C200002#32, .tlbiAll), (0x7C4110C3#32, .wret 1 2 3 3), (0x7C6110C0#32, .regdone 1 2 3),
    (0x80642800#32, .amoAdd 3 4 5 0 0 0), (0x80642A43#32, .amoCas 3 4 5 0 1 1), (0x84040000#32, .l2fl 4 0), (0x84040001#32, .l2fl 4 1), (0x84240000#32, .l2inv 4 0),
    (0x84440000#32, .rgrel 4), (0x84642800#32, .home 4 5)] : List (BitVec 32 × Instr)).all (fun p => reads p.1 p.2) = true := by decide +kernel

theorem test_words_of_chapters_10_to_12 : ([
    (0x9C442818#32, .vfma 2 4 5 0 0), (0x9C221A01#32, .vadd 1 2 3 2 1), (0x9C221880#32, .vcmpLt 1 2 3 0 0), (0x9CE328D8#32, .vmovToG 7 3 5 0),
    (0xA0642800#32, .vld 3 4 5 0 0 0), (0xA0640048#32, .vst 3 4 0 0 1 0), (0xA4220808#32, .vcvt 1 2 1 0 1 0), (0xA4C00880#32, .vquantInt4x 6 0 1),
    (0xA8220000#32, .vredSum 1 2 0 0), (0xA8821818#32, .vtopk 2 2 3 0 0), (0xA8040028#32, .vopt 4), (0xAC042800#32, .mctx 4 5), (0xAC242983#32, .mfetch 4 5 6 0 0 3),
    (0xAC272A34#32, .mfetch 7 5 8 1 1 4), (0xAC40CA40#32, .mma 3 20 1 0 0), (0xAC600000#32, .mzero 0), (0xAC895044#32, .mrd 9 10 1 1 0), (0xACC00003#32, .mrel 3),
    (0xACEB0000#32, .mstat 11), (0xAC283251#32, .mfetch 8 6 9 0 1 1), (0xAC400080#32, .mma 0 1 0 0 0), (0x69AAA000#32, .ld 13 10 5 0)] :
    List (BitVec 32 × Instr)).all (fun p => reads p.1 p.2) = true := by decide +kernel

theorem test_words_of_chapters_13_to_17 : ([
    (0x90040143#32, .send 4 5 0 3), (0x90244943#32, .sendn 4 9 5 0 3), (0x90643802#32, .recv 4 7 0 0 2), (0x90A00003#32, .cmask 3), (0x90E42886#32, .pst 4 5 2 6),
    (0x91042881#32, .pst4 4 5 2 1), (0x940000C2#32, .capld 3 2), (0x94240980#32, .caprs 4 1 6), (0x94400180#32, .caprv 6), (0x94870180#32, .capq 7 6 0),
    (0x98042981#32, .cpy 4 5 6 1), (0x984429B2#32, .cput 4 5 6 1 1 2), (0x98853101#32, .cbindIn 5 6 4), (0x8C040140#32, .garr 4 5), (0x8C242800#32, .gwait 4 5),
    (0x8C440180#32, .gquery 4 6), (0x8C642800#32, .gwdog 4 5), (0x88000002#32, .fence 2), (0x88200000#32, .fenceAcks), (0x8844015E#32, .lda 4 5 3 6),
    (0x8864301E#32, .stl 4 6 3 6), (0x88840000#32, .watch 4), (0x88A801C2#32, .doze 8 7 0 1 0), (0x80A43202#32, .amoSwap 5 4 6 0 1 0)] :
    List (BitVec 32 × Instr)).all (fun p => reads p.1 p.2) = true := by decide +kernel

theorem test_words_of_chapters_18_to_22 : ([
    (0xB00428C0#32, .xdef 4 5 3), (0xB0242800#32, .xsend 4 5 0 0), (0xB0242803#32, .xsend 4 5 1 1), (0xB04400C0#32, .xrep 4 3), (0xB06428C0#32, .xret 4 5 3),
    (0xB08428C2#32, .xown 4 5 3 2), (0xB0A42802#32, .xjoin 4 5 1 0), (0xB0C428C0#32, .xupd 4 5 3), (0xB0E42800#32, .xcnt 4 5), (0xB10401C8#32, .xq 4 7 8),
    (0xB4042800#32, .gpush 4 5), (0xB42401C0#32, .gpop 4 7 0), (0xB42401C1#32, .gpop 4 7 1), (0xB44400C0#32, .remit 4 3), (0xB4640000#32, .rsort 4),
    (0xB4840001#32, .rmap 4 1), (0xB4A40001#32, .rclose 4 1), (0x9C420885#32, .vcmpLt 2 2 1 0 5), (0x9C841A08#32, .vsub 4 4 3 2 0), (0xA9A10025#32, .vargmax 13 1 0 5),
    (0xB8040001#32, .rput 4 1), (0xB82400C2#32, .rcfg 4 3 2), (0xB84401C2#32, .rstat 4 7 2), (0xB84001D0#32, .rstatSum 7)] :
    List (BitVec 32 × Instr)).all (fun p => reads p.1 p.2) = true := by decide +kernel

theorem test_frame_reads_two_words : (match decode (bytesOfWord 0x58602000#32 ++ bytesOfWord 0xFC001C00#32 ++ [9]) with | .ok (i, r) => i == .frame 3 0 2 7 0 && r == [9] | _ => false) = true ∧
    encode (.frame 3 0 2 7 0) = [0x58602000#32, 0xFC001C00#32] := by decide +kernel

theorem test_refused_words : [0x00000000#32, 0xFFFFFFFF#32, 0xBC000000#32].all (fun w => refuses w .undefinedEncoding) = true ∧
    refuses 0x40610002#32 .reservedField = true := by decide +kernel

/-- Each operand value outside its table (Instr.defined) makes an instruction ill formed and its word an undefined encoding. -/
theorem test_ill_formed_operands : ([
    .loop 1 1, .loop 1 0, .lee 0, .lee 33, .ld 1 2 7 0, .st 1 2 7 0, .ldx 1 2 3 0 7, .stx 1 2 3 0 7, .carve 0, .carve 9, .wret 1 2 3 5, .fence 5, .lda 1 2 5 6,
    .lda 1 2 0 7, .stl 1 2 5 6, .stl 1 2 0 7, .send 1 2 0 9, .sendG 1 2 3 0 7, .sendn 1 2 3 0 9, .sendo 1 2 0 9, .sendoG 1 2 3 0 7, .pst 1 2 3 7] : List Instr).all
    (fun i => !WellFormed i && (encode i).all fun w => refuses w .undefinedEncoding) = true := by decide +kernel

theorem test_ill_formed_vector_operands : ([
    .vadd 1 2 3 0 3, .vsub 1 2 3 0 4, .vmul 1 2 3 0 3, .vfma 1 2 3 0 4, .vfms 1 2 3 0 3, .vmin 1 2 3 0 3, .vmax 1 2 3 0 4, .vabs 1 2 0 3, .vneg 1 2 0 4,
    .vcmpEq 1 2 3 0 3, .vcmpNe 1 2 3 0 4, .vcmpLt 1 2 3 0 3, .vcmpLe 1 2 3 0 4, .vshl 1 2 3 0 2, .vshr 1 2 3 0 0, .vmovToG 1 2 16 0, .vgat 1 2 3 0 0 1, .vsca 1 2 3 0 0 6,
    .vcvt 1 2 0 0 0 0, .vcvt 1 2 2 0 1 0, .vcvtFromFp4 1 2 4 0 1, .vdeqFp4 1 2 0 0 17 2, .vdeqInt4x 1 2 0 0 2, .vredSum 1 2 0 3, .vredMax 1 2 0 4,
    .vredMin 1 2 0 3, .vtopk 1 2 3 0 1, .vargmax 1 2 0 4] : List Instr).all
    (fun i => !WellFormed i && (encode i).all fun w => refuses w .undefinedEncoding) = true := by decide +kernel

theorem test_ill_formed_unit_operands : ([
    .mrd 1 0 0 1 2, .mrd 1 0 0 0 3, .xsend 1 2 1 0, .xq 1 2 9, .rdsr 1 0x24, .wrsr 1 0x217] : List Instr).all
    (fun i => !WellFormed i && (encode i).all fun w => refuses w .undefinedEncoding) = true ∧
    WellFormed (.vcvt 1 2 0 0 9 0) = false ∧ WellFormed (.vquantFp4 1 2 3 9) = false ∧ WellFormed (.vdeqFp4 1 2 0 0 16 0) = false := by decide +kernel

/-- A reserved field that depends on another one (Instr.reservedZero) makes an instruction ill formed and its word refused as such. -/
theorem test_ill_formed_reserved : ([.vdeqFp4 1 2 1 0 17 1, .vdeqInt4x 1 2 1 0 1, .mrd 1 2 0 0 2] : List Instr).all
    (fun i => !WellFormed i && (encode i).all fun w => refuses w .reservedField) = true ∧
    WellFormed (.frame 3 1 2 7 0) = false ∧
    (match decode (encodeBytes (.frame 3 1 2 7 0)) with | .error .reservedField => true | _ => false) = true := by decide +kernel

/-- The events of the opcode table have no word. -/
theorem test_events_have_no_word : WellFormed (.taskStart 0) = false ∧ WellFormed .deviceReset = false ∧ encode (.taskStart 0) = [] := by decide

/-! Words written field by field from the tables' layouts, one for every encoded instruction. -/

theorem test_decode_alu : ([
    (0b000001_01010_11110_00100_00000000000#32, .add 0xA 0x1E 4),
    (0b000001_11100_11010_01010_00001000000#32, .sub 0x1C 0x1A 0xA),
    (0b000001_01100_01100_01100_00010000000#32, .mul 0xC 0xC 0xC),
    (0b000001_00000_11001_01000_00011000000#32, .mulh 0 0x19 8),
    (0b000001_01000_10001_01101_00100000000#32, .mulhz 8 0x11 0xD),
    (0b000001_00100_11110_10110_00101000000#32, .div 4 0x1E 0x16),
    (0b000001_01000_10011_00100_00110000000#32, .divz 8 0x13 4),
    (0b000001_01001_00110_01011_00111000000#32, .rem 9 6 0xB),
    (0b000001_10101_10000_00010_01000000000#32, .remz 0x15 0x10 2),
    (0b000001_00000_11110_01111_01001000000#32, .and 0 0x1E 0xF),
    (0b000001_00101_10100_00101_01010000000#32, .or 5 0x14 5),
    (0b000001_01110_00010_10001_01011000000#32, .xor 0xE 2 0x11),
    (0b000001_10101_00001_11110_01100000000#32, .andn 0x15 1 0x1E),
    (0b000001_01010_11101_01000_01101000000#32, .orn 0xA 0x1D 8),
    (0b000001_00100_01001_11100_01110000000#32, .shl 4 9 0x1C),
    (0b000001_01001_10111_10010_01111000000#32, .shr 9 0x17 0x12),
    (0b000001_00001_11100_10001_10000000000#32, .sha 1 0x1C 0x11),
    (0b000001_11010_01110_00100_10001000000#32, .rol 0x1A 0xE 4),
    (0b000001_00111_01101_10010_10010000000#32, .ror 7 0xD 0x12),
    (0b000001_10110_11110_11011_10011000000#32, .slt 0x16 0x1E 0x1B),
    (0b000001_11101_10110_11110_10100000000#32, .sltz 0x1D 0x16 0x1E),
    (0b000001_00010_01111_11001_10101000000#32, .seq 2 0xF 0x19),
    (0b000001_00110_00011_10100_10110000000#32, .min 6 3 0x14),
    (0b000001_10000_00000_10100_10111000000#32, .max 0x10 0 0x14)] : List (BitVec 32 × Instr)).all (fun p => reads p.1 p.2) = true := by decide +kernel

theorem test_decode_alu_2 : ([
    (0b000001_01101_10011_10100_11000000000#32, .minz 0xD 0x13 0x14),
    (0b000001_11110_10101_00010_11001000000#32, .maxz 0x1E 0x15 2),
    (0b000001_10101_00010_0000011010000000#32, .clz 0x15 2),
    (0b000001_00100_10100_0000011011000000#32, .ctz 4 0x14),
    (0b000001_01110_01111_0000011100000000#32, .popc 0xE 0xF),
    (0b000001_11001_11100_0000011101000000#32, .bswap 0x19 0x1C)] : List (BitVec 32 × Instr)).all (fun p => reads p.1 p.2) = true := by decide +kernel

theorem test_decode_immediate : ([
    (0b000010_01100_11000_1000010001101000#32, .addi 0xC 0x18 0x8468),
    (0b000011_11001_10000_1011010110101000#32, .andi 0x19 0x10 0xB5A8),
    (0b000100_00001_10100_1110010100100001#32, .ori 1 0x14 0xE521),
    (0b000101_11011_10101_0100010000101001#32, .xori 0x1B 0x15 0x4429),
    (0b000110_11010_00000_1111000000000101#32, .slti 0x1A 0 0xF005),
    (0b000111_10001_11101_0010010111111110#32, .sltiz 0x11 0x1D 0x25FE),
    (0b001000_11001_10100_0000000000_101101#32, .shli 0x19 0x14 0x2D),
    (0b001000_00011_01101_0000000001_010111#32, .shri 3 0xD 0x17),
    (0b001000_00011_00010_0000000010_001010#32, .shai 3 2 0xA),
    (0b001000_01011_10001_0000000011_001111#32, .roli 0xB 0x11 0xF),
    (0b001001_00100_110100010001101111010#32, .lhi 4 0x1A237A),
    (0b001010_01101_101010111000110111100#32, .ldl 0xD 0x1571BC),
    (0b001011_10110_11010_11001_0000_1_010000#32, .ext 0x16 0x1A 0x19 1 0x10),
    (0b001011_01111_01101_01111_0001_1_001010#32, .extz 0xF 0xD 0xF 1 0xA),
    (0b001011_11110_00110_10010_0010_0_110001#32, .ins 0x1E 6 0x12 0 0x31)] : List (BitVec 32 × Instr)).all (fun p => reads p.1 p.2) = true := by decide +kernel

theorem test_decode_control : ([
    (0b001100_01000_01011_1001000110100111#32, .beq 8 0xB 0x91A7),
    (0b001101_00010_11010_0111110000001001#32, .bne 2 0x1A 0x7C09),
    (0b001110_10001_10101_1001011010100111#32, .blt 0x11 0x15 0x96A7),
    (0b001111_01101_11101_1110101101001100#32, .bge 0xD 0x1D 0xEB4C),
    (0b010000_10110_00000_0000001111101110#32, .bltz 0x16 0x3EE),
    (0b010001_10001_00000_0100100000111010#32, .bgez 0x11 0x483A),
    (0b010010_00111100000000111110011100#32, .j 0xF00F9C),
    (0b010011_00111000101000100010001100#32, .call 0xE2888C),
    (0b010101_00000_01011_1110101110100111#32, .loop 0xB 0xEBA7)] : List (BitVec 32 × Instr)).all (fun p => reads p.1 p.2) = true := by decide +kernel

theorem test_decode_jump : ([
    (0b010100_00100_10110_0000000000000000#32, .jr 4 0x16)] : List (BitVec 32 × Instr)).all (fun p => reads p.1 p.2) = true := by decide +kernel

theorem test_decode_queue : ([
    (0b010111_00000_01100_00_100_00000000000#32, .qget 0xC 4),
    (0b010111_00001_11011_00_011_00000000000#32, .qset 0x1B 3),
    (0b010111_00010_11101_00_101_00000000000#32, .qlen 0x1D 5),
    (0b010111_00011_01100_0000000000000000#32, .bqp 0xC),
    (0b010111_0010000000_1110111000001001#32, .bqb 0xEE09)] : List (BitVec 32 × Instr)).all (fun p => reads p.1 p.2) = true := by decide +kernel

theorem test_decode_split : ([
    (0b011000_00000_010101010100100001011#32, .split 0xAA90B),
    (0b011000_00001000000000000000000000#32, .aend)] : List (BitVec 32 × Instr)).all (fun p => reads p.1 p.2) = true := by decide +kernel

theorem test_decode_task : ([
    (0b011001_00000_01011_0000000000000000#32, .spawn 0xB),
    (0b011001_00001_10000_0100000110011000#32, .fork 0x10 0x4198),
    (0b011001_00010_11001_1100001001010111#32, .join 0x19 0xC257),
    (0b011001_00011000000000000000000000#32, .done),
    (0b011001_00100000000000000000000000#32, .yield),
    (0b011001_00101000000000000000_000011#32, .lee 3),
    (0b011001_00110_01110_0000000000000_100#32, .areg 0xE 4),
    (0b011001_00111_00011_000000_0011_101011#32, .lnch 3 3 0x2B)] : List (BitVec 32 × Instr)).all (fun p => reads p.1 p.2) = true := by decide +kernel

theorem test_decode_memory : ([
    (0b011010_01010_01111_001_0000000111001#32, .ld 0xA 0xF 1 0x39),
    (0b011011_01000_11111_001_1110001011001#32, .st 8 0x1F 1 0x1C59),
    (0b011100_00001_10001_11010_0_0_000_000000#32, .ldx 1 0x11 0x1A 0 0),
    (0b011101_10111_10111_01100_0_0_110_000000#32, .stx 0x17 0x17 0xC 0 6)] : List (BitVec 32 × Instr)).all (fun p => reads p.1 p.2) = true := by decide +kernel

theorem test_decode_local : ([
    (0b011110_0000000000000000000000_0011#32, .carve 3),
    (0b011110_00001_11000_0000000000000000#32, .pool 0x18),
    (0b011110_00010_10110_000000000_1_000001#32, .pref 0x16 1 1),
    (0b011110_00011_00101_0000000000000000#32, .l1fl 5),
    (0b011110_00011000000000000001000000#32, .l1flAll)] : List (BitVec 32 × Instr)).all (fun p => reads p.1 p.2) = true := by decide +kernel

theorem test_decode_page : ([
    (0b011111_00000_00010_10001_00000_000000#32, .tlbw 2 0x11 0),
    (0b011111_00001_11000_00000_00000000000#32, .tlbiVa 0x18 0),
    (0b011111_0000100000_00111_00000000001#32, .tlbiAsid 7),
    (0b011111_00001000000000000000000010#32, .tlbiAll),
    (0b011111_00010_10011_00100_10100_000_010#32, .wret 0x13 4 0x14 2),
    (0b011111_00011_11110_10111_01000_000000#32, .regdone 0x1E 0x17 8)] : List (BitVec 32 × Instr)).all (fun p => reads p.1 p.2) = true := by decide +kernel

theorem test_decode_atomic : ([
    (0b100000_10101_01111_11000_00000000_0_0_1#32, .amoAdd 0x15 0xF 0x18 0 0 1),
    (0b100000_11000_01010_11010_00001000_1_1_1#32, .amoMin 0x18 0xA 0x1A 1 1 1),
    (0b100000_01011_10011_01011_00010000_0_0_0#32, .amoMax 0xB 0x13 0xB 0 0 0),
    (0b100000_01011_00001_11101_00011000_0_0_1#32, .amoMinz 0xB 1 0x1D 0 0 1),
    (0b100000_01011_10000_11100_00100000_0_0_1#32, .amoMaxz 0xB 0x10 0x1C 0 0 1),
    (0b100000_01000_11001_10011_00101000_0_0_1#32, .amoAnd 8 0x19 0x13 0 0 1),
    (0b100000_11110_00011_11111_00110000_1_0_0#32, .amoOr 0x1E 3 0x1F 1 0 0),
    (0b100000_00010_01010_10100_00111000_0_0_1#32, .amoXor 2 0xA 0x14 0 0 1),
    (0b100000_10000_00000_01101_01000000_0_1_1#32, .amoSwap 0x10 0 0xD 0 1 1),
    (0b100000_01000_01111_11000_01001000_1_0_0#32, .amoCas 8 0xF 0x18 1 0 0),
    (0b100000_01110_00010_11010_01010000_1_1_0#32, .amoFadd 0xE 2 0x1A 1 1 0)] : List (BitVec 32 × Instr)).all (fun p => reads p.1 p.2) = true := by decide +kernel

theorem test_decode_l2 : ([
    (0b100001_00000_10001_000000000000000_0#32, .l2fl 0x11 0),
    (0b100001_00001_00001_000000000000000_0#32, .l2inv 1 0),
    (0b100001_00010_10101_0000000000000000#32, .rgrel 0x15),
    (0b100001_00011_01011_10110_00000000000#32, .home 0xB 0x16)] : List (BitVec 32 × Instr)).all (fun p => reads p.1 p.2) = true := by decide +kernel

theorem test_decode_sync : ([
    (0b100010_00000000000000000000000_000#32, .fence 0),
    (0b100010_00001000000000000000000000#32, .fenceAcks),
    (0b100010_00010_01000_00000_10010_001_010#32, .lda 8 0x12 1 2),
    (0b100010_00011_11010_00010_00000_001_101#32, .stl 0x1A 2 1 5),
    (0b100010_00100_10100_0000000000000000#32, .watch 0x14),
    (0b100010_00100000000000000000000001#32, .watchOff),
    (0b100010_00101_01110_00000_01111_000_1_0_1#32, .doze 0xE 0xF 1 0 1)] : List (BitVec 32 × Instr)).all (fun p => reads p.1 p.2) = true := by decide +kernel

theorem test_decode_group : ([
    (0b100011_00000_01010_00000_10011_000000#32, .garr 0xA 0x13),
    (0b100011_00001_00000_00001_00000000000#32, .gwait 0 1),
    (0b100011_00010_00010_00000_11101_000000#32, .gquery 2 0x1D),
    (0b100011_00011_00101_10000_00000000000#32, .gwdog 5 0x10)] : List (BitVec 32 × Instr)).all (fun p => reads p.1 p.2) = true := by decide +kernel

theorem test_decode_message : ([
    (0b100100_00000_11111_000000_1111_0_0_0100#32, .send 0x1F 0xF 0 4),
    (0b100100_00000_00111_10011_0_1101_1_0_0000#32, .sendG 7 0x13 0xD 0 0),
    (0b100100_00001_01111_01111_0_0101_0_1_0010#32, .sendn 0xF 0xF 5 1 2),
    (0b100100_00010_00001_000000_0110_0_1_0010#32, .sendo 1 6 1 2),
    (0b100100_00010_00000_01010_0_1011_1_0_0110#32, .sendoG 0 0xA 0xB 0 6),
    (0b100100_00011_01100_11111_000000_0_1_001#32, .recv 0xC 0x1F 0 1 1),
    (0b100100_0010000000_10101_0000000_0_010#32, .peek 0x15 0 2),
    (0b100100_00101000000000000000000_111#32, .cmask 7),
    (0b100100_00110000000000000000000_110#32, .cunmask 6),
    (0b100100_00111_10101_10011_0_0111_000_001#32, .pst 0x15 0x13 7 1),
    (0b100100_01000_00011_11110_0_1101_00_1110#32, .pst4 3 0x1E 0xD 0xE)] : List (BitVec 32 × Instr)).all (fun p => reads p.1 p.2) = true := by decide +kernel

theorem test_decode_capability : ([
    (0b100101_0000000000000000_0100_00_0111#32, .capld 4 7),
    (0b100101_0000000000000000_1100_010000#32, .capldG 0xC),
    (0b100101_00001_11110_0_0111_0_0110_000000#32, .caprs 0x1E 7 6),
    (0b100101_0001000000000000_0101_000000#32, .caprv 5),
    (0b100101_00011_11011_00111_0_0001_000000#32, .capmint 0x1B 7 1),
    (0b100101_00100_10000_000000_0111_00000_0#32, .capq 0x10 7 0)] : List (BitVec 32 × Instr)).all (fun p => reads p.1 p.2) = true := by decide +kernel

theorem test_decode_copy : ([
    (0b100110_00000_00101_01110_01011_00000_0#32, .cpy 5 0xE 0xB 0),
    (0b100110_00001_01111_000000000000000_0#32, .cpy2 0xF 0),
    (0b100110_00010_00010_11100_10111_0_0_0110#32, .cput 2 0x1C 0x17 0 0 6),
    (0b100110_00011_11111_00111_10011_0_0_0001#32, .cget 0x1F 7 0x13 0 1),
    (0b100110_00100_10000_10001_00_011_000001#32, .cbindIn 0x10 0x11 3),
    (0b100110_00100_01010_01000_00_101_000010#32, .cbindOut 0xA 8 5),
    (0b100110_00100000000000000_111_000000#32, .cbindOff 7)] : List (BitVec 32 × Instr)).all (fun p => reads p.1 p.2) = true := by decide +kernel

theorem test_decode_vector : ([
    (0b100111_00011_11110_01110_110_00000_001#32, .vadd 3 0x1E 0xE 6 1),
    (0b100111_00110_01010_10001_100_00001_000#32, .vsub 6 0xA 0x11 4 0),
    (0b100111_10000_10001_00001_011_00010_111#32, .vmul 0x10 0x11 1 3 7),
    (0b100111_11011_01111_00101_001_00011_010#32, .vfma 0x1B 0xF 5 1 2),
    (0b100111_11000_01011_10010_111_00100_110#32, .vfms 0x18 0xB 0x12 7 6),
    (0b100111_00011_00010_11010_110_00101_001#32, .vmin 3 2 0x1A 6 1),
    (0b100111_00111_00100_11101_110_00110_110#32, .vmax 7 4 0x1D 6 6),
    (0b100111_11111_00111_00000_101_00111_110#32, .vabs 0x1F 7 5 6),
    (0b100111_01100_11011_00000_111_01000_010#32, .vneg 0xC 0x1B 7 2),
    (0b100111_00010_11010_01101_001_01001000#32, .vdiv 2 0x1A 0xD 1),
    (0b100111_10110_00001_00000_100_01010000#32, .vsqrt 0x16 1 4),
    (0b100111_00011_00110_00000_101_01011000#32, .vrsq 3 6 5),
    (0b100111_01000_01110_00000_010_01100000#32, .vexp2 8 0xE 2),
    (0b100111_01010_01000_00000_111_01101000#32, .vlog2 0xA 8 7),
    (0b100111_00_101_01111_11111_010_01110_000#32, .vcmpEq 5 0xF 0x1F 2 0),
    (0b100111_00_011_10010_01111_101_01111_101#32, .vcmpNe 3 0x12 0xF 5 5),
    (0b100111_00_011_00110_00001_100_10000_110#32, .vcmpLt 3 6 1 4 6),
    (0b100111_00_100_01100_11001_111_10001_101#32, .vcmpLe 4 0xC 0x19 7 5),
    (0b100111_01000_10011_00001_101_10010_111#32, .vsel 8 0x13 1 5 7),
    (0b100111_01011_00010_00101_101_10011_011#32, .vand 0xB 2 5 5 3),
    (0b100111_01110_01010_10010_010_10100_110#32, .vor 0xE 0xA 0x12 2 6),
    (0b100111_10010_00111_11101_010_10101_001#32, .vxor 0x12 7 0x1D 2 1),
    (0b100111_11101_11010_10110_001_10110_110#32, .vshl 0x1D 0x1A 0x16 1 6),
    (0b100111_10111_10001_01100_001_10111_101#32, .vshr 0x17 0x11 0xC 1 5)] : List (BitVec 32 × Instr)).all (fun p => reads p.1 p.2) = true := by decide +kernel

theorem test_decode_vector_2 : ([
    (0b100111_01101_01010_11010_101_11000_100#32, .vperm 0xD 0xA 0x1A 5 4),
    (0b100111_01000_01100_00000_011_11001_011#32, .vbcast 8 0xC 3 3),
    (0b100111_01001_10110_00000_000_11010_000#32, .vmov 9 0x16 0 0),
    (0b100111_00011_00010_10011_00011011_100#32, .vmovToG 3 2 0x13 4)] : List (BitVec 32 × Instr)).all (fun p => reads p.1 p.2) = true := by decide +kernel

theorem test_decode_vector_memory : ([
    (0b101000_01011_00010_10001_001_0_0_000_110#32, .vld 0xB 2 0x11 1 0 6),
    (0b101000_10001_11110_01001_010_0_0_001_101#32, .vst 0x11 0x1E 9 2 0 5),
    (0b101000_10010_11100_00000_100_0_0_010_011#32, .vlds 0x12 0x1C 0 4 0 3),
    (0b101000_00110_11101_10011_010_0_1_011_101#32, .vgat 6 0x1D 0x13 2 1 5),
    (0b101000_10001_01000_00110_100_0_0_100_000#32, .vsca 0x11 8 6 4 0 0)] : List (BitVec 32 × Instr)).all (fun p => reads p.1 p.2) = true := by decide +kernel

theorem test_decode_vector_conversion : ([
    (0b101001_00011_00100_00_001_010_00001_000#32, .vcvt 3 4 1 2 1 0),
    (0b101001_00011_00100_00_011_010_00000_011#32, .vcvt 3 4 3 2 0 3),
    (0b101001_00011_00100_0000_1_010_10001_000#32, .vdeqFp4 3 4 1 2 17 0),
    (0b101001_00011_00100_0000_0_010_10110_001#32, .vdeqFp4 3 4 0 2 22 1),
    (0b101001_00101_00001_00_100_111_01001_000#32, .vcvtFromFp4 5 1 4 7 0),
    (0b101001_10111_00101_10100_000_01111_000#32, .vquantFp4 0x17 5 0x14 0xF),
    (0b101001_11001_00010_00111_00010000000#32, .vquantInt4x 0x19 2 7),
    (0b101001_10010_10111_0000_1_100_10111_000#32, .vdeqInt4x 0x12 0x17 1 4 0)] : List (BitVec 32 × Instr)).all (fun p => reads p.1 p.2) = true := by decide +kernel

theorem test_decode_vector_reduction : ([
    (0b101010_00111_11100_00000_011_00000_000#32, .vredSum 7 0x1C 3 0),
    (0b101010_10011_01110_00000_110_00001_101#32, .vredMax 0x13 0xE 6 5),
    (0b101010_11101_10101_00000_011_00010_101#32, .vredMin 0x1D 0x15 3 5),
    (0b101010_1000_0_00000_0_1111_101_00011_000#32, .vtopk 8 0 0xF 5 0),
    (0b101010_00101_11100_00000_011_00100_000#32, .vargmax 5 0x1C 3 0),
    (0b101010_00000_00001_0000000000101000#32, .vopt 1)] : List (BitVec 32 × Instr)).all (fun p => reads p.1 p.2) = true := by decide +kernel

theorem test_decode_matrix : ([
    (0b101011_00000_01001_11000_00000000000#32, .mctx 9 0x18),
    (0b101011_00001_01011_00101_10110_1_0_0110#32, .mfetch 0xB 5 0x16 1 0 6),
    (0b101011_00010_1111111_1010010_1_1_1_0000#32, .mma 0x7F 0x52 1 1 1),
    (0b101011_000110000_1_0000000000000000#32, .mzero 1),
    (0b101011_00100_00000_11100_0000_0_000_0_01#32, .mrd 0 0x1C 0 0 1),
    (0b101011_00101_01111_000000000_0_000000#32, .mwr 0xF 0),
    (0b101011_0011000000000000000000_1111#32, .mrel 0xF),
    (0b101011_00110000000000000000010000#32, .mrelAll),
    (0b101011_00111_00110_0000000000000000#32, .mstat 6)] : List (BitVec 32 × Instr)).all (fun p => reads p.1 p.2) = true := by decide +kernel

theorem test_decode_expert : ([
    (0b101100_00000_10110_01011_00000_000000#32, .xdef 0x16 0xB 0),
    (0b101100_00001_10110_01100_000000000_0_0#32, .xsend 0x16 0xC 0 0),
    (0b101100_00010_10001_00000_01000_000000#32, .xrep 0x11 8),
    (0b101100_00011_01000_01101_01111_000000#32, .xret 8 0xD 0xF),
    (0b101100_00100_01010_11110_00110_000_001#32, .xown 0xA 0x1E 6 1),
    (0b101100_00101_11001_01010_000000000_1_0#32, .xjoin 0x19 0xA 1 0),
    (0b101100_00110_10001_01001_10011_000000#32, .xupd 0x11 9 0x13),
    (0b101100_00111_10011_01011_00000000000#32, .xcnt 0x13 0xB),
    (0b101100_01000_10110_00000_01011_00_0101#32, .xq 0x16 0xB 5)] : List (BitVec 32 × Instr)).all (fun p => reads p.1 p.2) = true := by decide +kernel

theorem test_decode_routing : ([
    (0b101101_00000_11011_00010_00000000000#32, .gpush 0x1B 2),
    (0b101101_00001_11110_00000_00101_00000_0#32, .gpop 0x1E 5 0),
    (0b101101_00010_11010_00000_10001_000000#32, .remit 0x1A 0x11),
    (0b101101_00011_10100_0000000000000000#32, .rsort 0x14),
    (0b101101_00100_11101_000000000000000_0#32, .rmap 0x1D 0),
    (0b101101_00101_00100_000000000000000_0#32, .rclose 4 0)] : List (BitVec 32 × Instr)).all (fun p => reads p.1 p.2) = true := by decide +kernel

theorem test_decode_reduce : ([
    (0b101110_00000_01001_000000000000000_1#32, .rput 9 1),
    (0b101110_00001_01101_00000_01110_00_1000#32, .rcfg 0xD 0xE 8),
    (0b101110_00010_00100_00000_10011_00_0111#32, .rstat 4 0x13 7),
    (0b101110_000100000000000_01110_010000#32, .rstatSum 0xE)] : List (BitVec 32 × Instr)).all (fun p => reads p.1 p.2) = true := by decide +kernel

theorem test_decode_system : ([
    (0b000000_00001000000000000000_001010#32, .trap 0xA),
    (0b000000_00010000000000000000_010000#32, .sys 0x10),
    (0b000000_00011000000000000000_100010#32, .brk 0x22),
    (0b000000_00100_00000_0000000000000000#32, .rdsr 0 0),
    (0b000000_00101_00000_0000000000000000#32, .wrsr 0 0)] : List (BitVec 32 × Instr)).all (fun p => reads p.1 p.2) = true := by decide +kernel

/-- An operation succeeds, with a result and a state of which a test holds: a statement's hypothesis `op s = .ok a u`, with what else
it asks of them. -/
def succeeds {α : Type} (r : EStateM.Result Stop State α) (p : α → State → Bool) : Bool :=
  match r with | .ok a u => p a u | .error _ _ => false

/-- The state after an operation. -/
def after {α : Type} (r : EStateM.Result Stop State α) : State := match r with | .ok _ u => u | .error _ u => u

/-- A state right after reset, but for a task that runs in bank 0 of core 0, with the registers listed. -/
def running (g : List (Nat × Word)) (f : Task → Task := id) : State :=
  State.reset.modCore 0 fun k => { k with
    b0 := f { status := .running, tid := 1, pc := 0x10000, g := g.foldl (fun v p => v.setIfInBounds p.1 p.2) (Vector.replicate 32 0) } }

/-- The same task with a supervisor's view, over a core changed by `h`. -/
def ruling (g : List (Nat × Word)) (h : Core → Core := id) : State := (running g fun t => { t with priv := true }).modCore 0 h

/-- The address of a byte of the local scratchpad. -/
def spmAt (off : Nat) : Word := 0x8000000000000000#64 + BitVec.ofNat 64 off

/-- A translation of the first page for everyone. -/
def mapped (s : State) : State := s.modCove 0 fun v => { v with tlb := [programEntry] }

theorem witness_TwoSourceAluWritesItsRow : (running []).task.stepping = false := by decide
theorem witness_OneSourceAluCountsAndSwaps : (running [(1, 0)]).task.stepping = false := by decide
theorem witness_ImmediateFormsWriteTheirRow : (running [(1, -1)]).task.stepping = false := by decide
theorem witness_BranchesGoWhereTheirRowSays : (running [(1, -1), (2, 1)]).task.stepping = false := by decide
theorem witness_DivisionsWriteQuotientAndRemainder :
    (running [(2, 3)]).task.stepping = false ∧ (running [(2, 3)]).rg 2 ≠ 0 := by decide
theorem witness_DivisionByZeroTakesItsTrap : (running [(2, 3)]).rg 1 = 0 := by decide
theorem witness_LoopsRunTheirBody :
    ((running [(1, 0), (2, 5)]).task.stepping = false ∧ (running [(1, 0), (2, 5)]).loopRegs.1 = 0 ∧ 2 ≤ (2#16).toNat ∧
      (running [(1, 0), (2, 5)]).Straight ∧ (running [(1, 0), (2, 5)]).rg 1 = 0 ∧ (running [(1, 0), (2, 5)]).rg 2 ≠ 0) ∧
    (running [] fun t => { t with lc := 1 }).loopRegs.1 ≠ 0 ∧
    ∃ s : State, s = (running [] fun t => { t with lc := 1, ls := 0x10000, le := 0x10000 }) ∧ s.task.stepping = false ∧
      s.cur.a = false ∧ s.task.frame.act = false ∧ s.task.lcNext = none ∧ s.task.lc ≠ 0 ∧ s.pc = s.task.le :=
  ⟨⟨rfl, rfl, by decide, .inr rfl, rfl, by decide⟩, by decide, _, rfl, rfl, rfl, rfl, rfl, by decide, rfl⟩

/-- A task inside a frame of two body words, before body word `i`, with `l` passes left. -/
def inFrame (i : Nat) (l : Word) : State :=
  running [] fun t => { t with frame := { act := true, base := 0x10000, idx := i, len := 1, left := l, body := [0x04000000, 0x04000000] } }

theorem witness_FramesRunTheirPasses :
    succeeds (captureBody ((mapped (running [(1, 3)])).pc + 8) 1
      { (mapped (running [(1, 3)])) with mem := cellsSet [] 0x10008 [0x00, 0x28, 0x64, 0x04] })
        (fun _ u => !u.task.stepping && !u.cur.a && u.rg 1 ≠ 0 && u.rg 2 = 0) = true ∧
    ∀ x ∈ [(0, 2#64), (1, 2#64), (1, 1#64)], (inFrame x.1 x.2).task.stepping = false ∧ (inFrame x.1 x.2).cur.a = false ∧
      (inFrame x.1 x.2).task.frame.act = true ∧ (inFrame x.1 x.2).task.lc = 0 ∧
      (x.1 = 0 → (inFrame x.1 x.2).task.frame.idx < (inFrame x.1 x.2).task.frame.len) ∧
      (x.1 = 1 → ¬ (inFrame x.1 x.2).task.frame.idx < (inFrame x.1 x.2).task.frame.len) ∧
      (inFrame x.1 x.2).task.frame.left = x.2 := by decide

/-- A task with an entry in q0, an inbound stream at q4, an outbound one at q5, and an outcome in bq. -/
def queued : State := running [] fun t => { t with
  q := t.q.set 0 [7, 8], bq := [true]
  streams := [(4, { inward := true, base := 0, stride := 8, count := 1, queue := [9] }),
    (5, { inward := false, base := 0, stride := 8, count := 1 })] }

theorem witness_QueueInstructionsPushAndPop :
    queued.task.stepping = false ∧ queued.urgent = false ∧ queued.task.q[0] = 7 :: [8] ∧ (queued.task.q[3]).length < 8 ∧
      (∃ x, tabFind queued.task.streams 4 = some x ∧ x.inward = true ∧ x.queue = 9 :: []) ∧
      (∃ x, tabFind queued.task.streams 5 = some x ∧ x.inward = false ∧ x.fault = false ∧ x.queue.length < 32 ∧
        x.handed < x.count) ∧ queued.task.bq.length < 16 ∧ queued.task.bq = true :: [] :=
  ⟨rfl, rfl, rfl, by decide, ⟨_, rfl, rfl, rfl⟩, ⟨_, rfl, rfl, rfl, by decide, by decide⟩, by decide, rfl⟩

/-- The A sequencer of a task issues. -/
def onA : State := { (running [] fun t => { t with a := { active := true } }) with cur := { core := 0, a := true } }

theorem witness_SplitStartsAAndAendEndsIt :
    (running []).urgent = false ∧ (running []).task.stepping = false ∧ (running []).cur.a = false ∧
      (running []).task.a.active = false ∧ onA.urgent = false ∧ onA.cur.a = true := by decide

/-- An urgent task runs in bank 1 of core 0. -/
def urgent : State := (running []).modCore 0 fun k => { k with b1 := { status := .running, tid := 2 } }

theorem witness_UrgentTaskMayUseNoQueue : urgent.urgent = true := rfl

/-- Core 0 in a block with its core alone, on a task whose joins count in its own scratchpad. -/
def blocked (g : List (Nat × Word)) (f : Task → Task := id) (h : Core → Core := id) : State :=
  let s := (running g f).modCore 0 fun k => h { k with block := some (0, 0) }
  { s with blocks := [(0, {
      launch := 0, index := 0, part := 0, queue := 0, asid := 0, priv := false, carve := 8, slice := 16, dies := 1,
      originDie := 0, originCrew := 0, originCores := [0], die := 0, crew := 0, cores := [0] })] }

theorem witness_SpawnAndForkPushTheirRecords :
    succeeds (drain (blocked [(1, spmAt 64)])) (fun _ s₁ => (s₁.rg 1).toNat % 64 = 0 &&
      succeeds (loadWords (s₁.rg 1) 8 s₁) fun w u => !bitOf (nth w 0 0) 56 && fieldOf (nth w 1 0) 15 12 ≤ 6 &&
        fieldOf (nth w 0 0) 1 0 = 0 && !bitOf (nth w 0 0) 63 && fieldOf (nth w 1 0) 63 26 = 0 &&
        (u.coreAt u.cur.core).deque.length < 16 && !u.task.stepping) = true ∧
    succeeds (drain (blocked [(1, spmAt 64)])) (fun _ u => succeeds (joinCounter (u.rg 1) u) (fun p v => p = (0, 64) && v = u) &&
      !u.task.forked && !u.task.stepping && (u.coreAt u.cur.core).deque.length < 16) = true := by decide +kernel

theorem witness_DoneAndJoinEndTasks :
    succeeds (drain (running [])) (fun _ u => u.task.streams.all fun x => x.2.inward || x.2.queue.isEmpty || x.2.fault) = true ∧
    ∀ v ∈ [(0 : Byte), 1, 2], succeeds (drain (blocked [(1, spmAt 64)] id fun k => { k with spm := cellsSet [] 64 [v] })) (fun _ u =>
      succeeds (joinCounter (u.rg 1) u) (fun p w => p = (0, 64) && w = u) && !u.task.stepping && u.task.streams.isEmpty &&
        wordOfList (cellsGet (u.coreAt 0).spm 64 8) = v.zeroExtend 64) = true := by decide +kernel

/-- A descriptor of an actor with one input in the scratchpad at 64, and a firing of entry 1 that is live: the task is its own. -/
def acting : State := blocked [(1, spmAt 64)] (fun t => { t with job := { record := {}, actor := some (1, []) } }) fun k => { k with
  spm := [(73, 0x80)], actors := [(1, { entry := 0, urg := false, ins := [], outs := [], args := [] })] }

theorem witness_YieldLeeAndAregAct :
    succeeds (drain (running [])) (fun _ u => !u.task.stepping && !(u.coreAt u.cur.core).otherReady u.urgent &&
      !(u.coreAt u.cur.core).firingLive 1) = true ∧
    succeeds (drain acting) (fun _ s₁ => (s₁.rg 1).toNat % 64 = 0 && succeeds (loadWords (s₁.rg 1) 8 s₁) fun w u =>
      !u.task.stepping && fieldOf (nth w 0 0) 63 57 = 0 && fieldOf (nth w 0 0) 1 0 = 0 &&
      (List.range 4).all (fun i => fieldOf (nth w 1 0) (16 * i + 14) (16 * i + 13) = 0 &&
        fieldOf (nth w 2 0) (16 * i + 14) (16 * i + 9) = 0) && !(actorOf w).ins.all (·.isNone) &&
      (u.coreAt u.cur.core).firingLive 1) = true := by decide

/-- Loads of the last word of the scratchpad, with a store that ends just before it still in the buffer. -/
def lastWord : State := running [(1, spmAt 262136)] (fun t => { t with pc := spmAt 262136 }) |>.modCore 0 fun k => { k with
  sb := [{ isLocal := true, addr := 262128, bytes := [1, 2, 3, 4, 5, 6, 7, 8] }] }

theorem witness_LoadsWriteWhatTheyRead :
    ((loadForms lastWord 3 1 2 6 0 0 0).all fun f => f.2.1.toNat % szBytes f.2.2 = 0 &&
      succeeds (placeOf f.2.1 (szBytes f.2.2) false lastWord) fun p u =>
        succeeds (readPlace f.2.1 (szBytes f.2.2) p u) fun _ v => !v.task.stepping) = true ∧
    succeeds (placeOf 0x10000 8 false (mapped (running []))) (fun p u => p matches .phys .. &&
      succeeds (readPlace 0x10000 8 p u) fun _ v => !v.task.stepping) = true ∧
    lastWord.task.stepping = false ∧
    ((loadForms lastWord 3 1 2 6 0 0 0).all fun f =>
      let n := szBytes f.2.2; let k := lastWord.coreAt lastWord.cur.core; let off := f.2.1.toNat % 2 ^ 18
      f.2.1.toNat % n = 0 && bitOf f.2.1 63 && fieldOf f.2.1 62 18 = 0 && off + n ≤ k.spmSize &&
        k.sb.all (fun e => !e.isLocal || e.addr + e.bytes.length ≤ off || off + n ≤ e.addr) && !k.spmBad off n) = true := by decide

/-- A core whose buffer holds a store to the scratchpad, or one to the first page. -/
def storing (isLocal : Bool) : State :=
  ruling [] fun k => { k with sb := [{ isLocal := isLocal, addr := 0x10000, bytes := [1] }] }

theorem witness_StoresEnterAndLeaveTheBuffer :
    ((storeForms (ruling [(1, spmAt 262136)]) 3 1 2 6 0 0).all fun f => f.2.1.toNat % szBytes f.2.2.1 = 0 &&
      succeeds (storePlace f.2.1 (szBytes f.2.2.1) (ruling [(1, spmAt 262136)])) fun _ u =>
        (u.coreAt u.cur.core).sb.length < 16 && !u.task.stepping) = true ∧
    succeeds (storePlace 0x10000 8 (mapped (running []))) (fun _ u => (u.coreAt u.cur.core).sb.length < 16 && !u.task.stepping) = true ∧
    ((storing true).coreAt 0).sb = { isLocal := true, addr := 0x10000, bytes := [1] } :: [] ∧
    ((storing true).coreAt 0).memoryBusy = false ∧ ((storing false).coreAt 0).memoryBusy = false ∧
    ((storing false).coreAt 0).sb = { isLocal := false, addr := 0x10000, bytes := [1] } :: [] ∧
    succeeds (acquire 0 0 0 0x10000 false false true (storing false)) (fun _ _ => true) = true := by decide

theorem witness_LoadAfterStoreReadsTheStore :
    ∃ s : State, s = ruling [(1, spmAt 262136)] ∧ s.task.stepping = false ∧ (s.rg 1 + 0).toNat % 8 = 0 ∧ bitOf (s.rg 1) 63 = true ∧
      fieldOf (s.rg 1) 62 18 = 0 ∧ (s.rg 1).toNat % 2 ^ 18 + 8 ≤ (s.coreAt s.cur.core).spmSize ∧ s.task.priv = true ∧
      (s.coreAt s.cur.core).sb = [] := ⟨_, rfl, by decide⟩

theorem witness_MisalignedAccessTakesItsTrap :
    (∀ f ∈ loadForms (running [(1, 1), (2, 0)] fun t => { t with pc := 4 }) 3 1 2 6 0 0 0, f.2.1.toNat % szBytes f.2.2 ≠ 0) ∧
    ∀ f ∈ storeForms (running [(1, 1), (2, 0)]) 3 1 2 6 0 0, f.2.1.toNat % szBytes f.2.2.1 ≠ 0 := by decide

theorem witness_ScratchpadAndCachesAreControlled :
    succeeds (drain (running [] ) ) (fun _ u => (u.coreAt u.cur.core).enginesIdle && !u.task.stepping &&
      (u.coreAt u.cur.core).carveBase ≤ 8 && 8 ≤ (u.coreAt u.cur.core).carveLimit) = true ∧
    (running []).task.stepping = false ∧
    succeeds (placeOf ((running [(1, spmAt 0)]).rg 1) 1 false (running [(1, spmAt 0)])) (fun p _ => p matches .spm _) = true ∧
    succeeds (placeOf 0x10000 1 false (mapped (running []))) (fun p u => p matches .phys .. && !u.task.stepping) = true := by decide

theorem witness_AtomicsReadModifyWrite :
    ∀ w ∈ [(0 : BitVec 1), 1], let s := mapped (running [(1, 0x10000), (2, 5)]); let ea := s.rg 1
      let n := if w = 1 then 4 else 8
      bitOf ea 63 = false ∧ ea.toNat % n = 0 ∧ isVirtual ea = true ∧ succeeds (translate ea true s) (fun x u => !x.2.nc &&
        succeeds (drain u) fun _ w' =>
          let v := dropCopies w'.cur.core (x.1 / 128) w'; let line := x.1 / 128 * 128
          succeeds (acquire (if isHostPa x.1 then dieOf v.cur.core else homeDie x.1) (coveOf v.cur.core) v.cur.core x.1 false x.2.sq
            true v) fun _ h => !(v.uncorrectable line 128 && !h.uncorrectable line 128) && !v.poisoned line 128 && !h.task.stepping) = true := by
  decide

theorem witness_L2ControlActsOnItsLines :
    bitOf ((running [(1, spmAt 0)]).rg 1) 63 = true ∧
    ∀ r ∈ [(0 : BitVec 1), 1], let s := after (acquire 0 0 0 0x10000 false false false (mapped (running [(1, 0x10000)])))
      s.task.stepping = false ∧ bitOf (s.rg 1) 63 = false ∧ isVirtual (s.rg 1) = true ∧
      succeeds (translate (s.rg 1) false s) (fun x u => !u.task.stepping && (u.dieAt 0).region.length < 16384 &&
        (tabFind (u.dieAt 0).region (x.1 / 65536)).isSome && succeeds (drain u) fun _ v => !v.task.stepping &&
          unitsAt 0 x.1 x.2.sq (r = 1) v = [512] &&
          (match v.l2Line 0 512 with | some l => l.state ≠ .m && v.quiet 512 | none => false)) = true := by decide

/-- A walk in slot 31 of cove 0 and the ticket 63 open. -/
def walking (g : List (Nat × Word)) : State :=
  (ruling g).modCove 0 fun v => { v with
    walks := [(31, { va := 0, asid := 0, kind := 0, priv := false, rg := false, rix := 0, core := 0, waiters := [] })]
    tickets := [(63, { host := false, va := 0, asid := 0, engines := [] })] }

theorem witness_PageInstructionsAct :
    (ruling []).task.stepping = false ∧ (ruling []).task.priv = true ∧
    ({ w0 := (ruling [(1, 1), (2, 0x1F000000001)]).rg 1, w1 := (ruling [(1, 1), (2, 0x1F000000001)]).rg 2 } : TlbEntry).acceptable = true ∧
    ({ w0 := 1, w1 := 0xFFFFFFFFFFFFFFFF } : TlbEntry).acceptable = false ∧
    succeeds (each (fun c => drainN c 16) ((ruling []).partCores ((ruling []).partOf 0)) (ruling [])) (fun _ u =>
      !u.task.stepping && bitOf (nth (u.partAt 0).pmap 0 0) 0) = true ∧
    fieldOf ((ruling [(1, 32)]).rg 1) 63 5 ≠ 0 ∧
    (∀ x ∈ [(0x11, true), (0x12, true), (0x13, true), (0x19, true), (0x27, true), (0x10, false)],
      (fieldOf (BitVec.ofNat 64 x.1) 7 0 ∈ [0x11, 0x12, 0x13, 0x19, 0x27]) = (x.2 = true)) ∧
    (∃ w, tabFind ((walking [(1, 31)]).coveAt 0).walks (fieldOf ((walking [(1, 31)]).rg 1) 4 0) = some w ∧ w.waiters = []) ∧
    tabFind ((walking [(1, 30)]).coveAt 0).walks (fieldOf ((walking [(1, 30)]).rg 1) 4 0) = none ∧
    tabFree ((walking []).coveAt 0).tickets 64 0 = some 0 ∧
    fieldOf ((walking [(1, 64)]).rg 1) 63 6 ≠ 0 ∧
    (∃ x, tabFind ((walking [(1, 63)]).coveAt 0).tickets (fieldOf ((walking [(1, 63)]).rg 1) 5 0) = some x ∧ x.engines = [] ∧
      (walking []).ticketWaited 63 x = false) ∧
    tabFind ((walking [(1, 62)]).coveAt 0).tickets (fieldOf ((walking [(1, 62)]).rg 1) 5 0) = none :=
  ⟨rfl, rfl, by decide, by decide, by decide, by decide, by simp; decide, ⟨_, rfl, rfl⟩, by decide, by decide, by decide, ⟨_, rfl, rfl, by decide⟩,
    by decide⟩

theorem witness_SupervisorOnlyInstructionsTrapForUsers : (running []).task.priv = false := rfl

/-- A task with a watch, written or not, and a message of class 2 in the inbox. -/
def watching (w : Bool) (message : Bool) : State :=
  (running [(1, 5)] fun t => { t with watch := some { isLocal := true, line := 3, written := w } }).modCore 0 fun k => { k with
    inbox := if message then [{ id := 1, h0 := 0x40000000, h1 := 0, payload := [0, 0, 0, 0, 0, 0, 0, 0] }] else [] }

/-- A task that dozes for ten cycles from a time on. -/
def dozing (since : Nat) : Machine.Task :=
  { tid := 2, doze := some { group := false, message := false, trap := false, dest := 0, limit := 10, since := since } }
/-- It stands in a park slot. -/
def dozer (since : Nat) : Parked :=
  { task := dozing since, v := Vector.replicate 32 0, vPoison := Vector.replicate 32 0, m := Vector.replicate 8 0
    causes := [{ why := .doze, since := since }], since := since }

theorem witness_SyncInstructionsOrderAndWait :
    succeeds (drain (running [])) (fun _ u => !u.task.stepping && u.cur = (running []).cur && (u.coreAt u.cur.core).journal.isEmpty &&
      (u.coreAt u.cur.core).outTide = 0 && !u.inTransit u.cur.core) = true ∧
    ((running []).coreAt 0).sb.any (·.release) = false ∧
    (∃ s : State, s = ruling [] (fun k => { k with sb := [{ isLocal := true, addr := 0, bytes := [1], release := true }] }) ∧
      (s.coreAt 0).sb.any (·.release) = true ∧ succeeds (drain s) (fun _ _ => true) = true) ∧
    succeeds (placeOf (spmAt 0) 8 false (running [])) (fun x u => succeeds (readPlace (spmAt 0) 8 x u) fun _ v => !v.task.stepping) = true ∧
    succeeds (storePlace (spmAt 0) 8 (ruling [])) (fun _ u => (u.coreAt u.cur.core).sb.length < 16 && !u.task.stepping) = true ∧
    succeeds (placeOf (spmAt 0) 1 false (running [])) (fun p u => p matches .spm _ && !u.task.stepping) = true ∧
    succeeds (placeOf 0x10000 1 false (mapped (running []))) (fun p u => p matches .phys .. && !u.task.stepping) = true ∧
    (match (watching true false).task.watch with | some w => w.written | none => false) = true ∧
    (((watching false true).coreAt 0).selected (watching false true).task true 0).isSome = true ∧
    ((running []).task.watch = none ∧ (running []).rg 1 = 0) ∧
    (((watching false false).coreAt 0).freeSlot = some 0 ∧ ((watching false false).coreAt 0).vectorDone 1 = true ∧
      (match (watching false false).task.watch with | some w => w.written | none => false) = false ∧
      (((watching false false).coreAt 0).selected (watching false false).task true 0).isSome = false) ∧
    (((watching false false).modCore 0 fun k => { k with vq := [{ instr := .done, tid := 1 }] }).coreAt 0).vectorDone 1 = false ∧
    ({ parks := [(3, dozer 0)] } : Core).firstDoze = some (dozing 0) ∧
    ({ b0 := { dozing 0 with status := .held, heldFor := [{ why := .doze }] } } : Core).firstDoze.isSome = true ∧
    (∃ s : State, s = { ((watching false false).modCore 0 fun k => { k with parks := [(3, dozer 0)] }) with now := 5 } ∧
      s.coreGoes 0 = true ∧ (dozing 0).dozeEnd ≤ 2 * (s.now + Config.elapsed s.tick)) := by
  refine ⟨by decide, by decide, ⟨_, rfl, by decide⟩, by decide, by decide, by decide, by decide, by decide, by decide, by decide,
    by decide, by decide, by decide, by decide, ⟨_, rfl, by decide, Nat.mul_le_mul_left 2 (Nat.le_add_right 5 _)⟩⟩

/-- Group 3 with its one member, core 0, which is `n` arrivals ahead. -/
def grouped (n : Nat) (lim : Nat := 0) : State :=
  { (running [(1, 3), (2, 4294967295)]) with groups := [(3, { members := [{ core := 0, count := n }], limit := lim, since := some 0 })] }

theorem witness_GroupsArriveWaitAndChange :
    (∀ n ∈ [0, 1], let s := grouped n; let g := fieldOf (s.rg 1) 7 0
      (s.groupAt g).memberOf 0 = some { core := 0, count := n } ∧ (s.groupAt g).ahead { core := 0, count := n } ≠ 2 ∧
      succeeds (drain s) (fun _ u => u.cur = s.cur && !(u.coreAt u.cur.core).postedHere u.device && !u.fence.getLsbD (dieOf 0) && !u.task.stepping &&
        (u.groupAt g).members.all (fun y => !y.absent) && (arrived (u.groupAt g) 0).full) = true) ∧
    (arrived { members := [{ core := 0, count := 0 }, { core := 1, count := 0 }] } 0).full = false ∧
    (grouped 0).task.stepping = false ∧ ({ grouped 0 with fence := 1 }).fence.getLsbD (dieOf 0) = true ∧
    ((grouped 2).groupAt 3).ahead { core := 0, count := 2 } = 2 ∧ (State.reset.groups.map (·.1)).Nodup ∧
    (((grouped 0).groupAt 3).phase + 2 * 2 ^ 32 - fieldOf ((grouped 0).rg 2) 31 0 - 1) % 2 ^ 32 < 2 ^ 31 ∧
    ((grouped 0).groupAt 4).memberOf 0 = none ∧
    (0 < 8 ∧ 3 < (State.reset.partAt 0).gown.length) ∧
    joinCause ((({ State.reset with parts := [(0, { rootPart with gown := [1, 0, 0, 0] })] } : State)).partOf 0) 0 0 false
      { State.reset with parts := [(0, { rootPart with gown := [1, 0, 0, 0] })] } = none ∧
    (∃ s : State, s = { (grouped 0 1) with parts := [(0, { rootPart with gown := [8, 0, 0, 0] })], now := 5000 } ∧
      joinCause (s.partOf 0) 3 0 true s = none ∧ (s.groupAt 3).since = some 0 ∧ (s.groupAt 3).limit ≠ 0 ∧
      (s.groupAt 3).raised = false ∧ s.groupPaused 3 = false ∧ 0 + (s.groupAt 3).limit * 1000 < s.now + Config.elapsed s.tick ∧
      (s.groupOwner 3).isSome = true) :=
  ⟨by decide, by decide, rfl, by decide, by decide, by decide, by decide, by decide, by decide, by decide,
    ⟨_, rfl, by decide, by decide, by decide, by decide, by decide, Nat.lt_of_lt_of_le (by decide) (Nat.le_add_right _ _), by decide⟩⟩

/-- Core 0 in a block, whose table holds a send entry in c1, a window of 64 bytes in c2, a send entry with no allowance left in c3,
one with no rights in c4; the registers 1 to 3 as listed. -/
def chan (g : List (Nat × Word)) (f : Task → Task := id) (h : Core → Core := id) : State :=
  let cells := [(16, 0x4FF1#64), (32, 0x0FF2#64), (48, 0x204FF1#64), (64, 0x4001#64)].foldl
    (fun m p => cellsSet m (98048 + p.1) (bytesOf p.2)) []
  blocked g f fun k => h { k with spm := cells }

/-- A task may send or post under an entry. -/
def starts (s : State) (c kind : Nat) (right : Nat) : Bool :=
  capKind (s.cap0 0 c) = kind && !(s.coreAt 0).revoking.contains c && capRight (s.cap0 0 c) right &&
    succeeds (reachable (capEp (s.cap0 0 c)) s) fun _ u => u = s

theorem witness_SendsMoveAMessage :
    (chan [(1, spmAt 0), (2, 3)]).task.sendWait = none ∧ ((chan [(1, spmAt 0)]).rg 1).toNat % 8 = 0 ∧
    succeeds (loadWords ((chan [(1, spmAt 0), (2, 2)]).rg 1) 8 (unwait (chan [(1, spmAt 0), (2, 2)]))) (fun _ u =>
      succeeds (drain u) fun _ v => u.cur = { core := 0, a := false } && v.cur = { core := 0, a := false } && !v.task.stepping &&
        capKind (u.cap0 0 (fieldOf (u.rg 2) 3 0)) ≠ 0 && capRight (u.cap0 0 2) 10 && capUsed (u.cap0 0 2) = 0 &&
        !(u.coreAt 0).revoking.contains 2 && epDevice (capEp (u.cap0 0 1)) = v.device) = true ∧
    starts (unwait (chan [(1, spmAt 0)])) 1 1 4 = true ∧ starts (unwait (chan [(1, spmAt 0)])) 1 1 5 = true ∧
    starts (unwait (chan [(1, spmAt 0)])) 1 1 6 = true ∧ starts (unwait (chan [(1, spmAt 0)])) 3 1 4 = true ∧
    capUsed ((chan []).cap0 0 1) ≠ capAllow ((chan []).cap0 0 1) ∧ capUsed ((chan []).cap0 0 3) = capAllow ((chan []).cap0 0 3) ∧
    capKind ((chan []).cap0 0 2) ≠ 1 ∧ capRight ((chan []).cap0 0 4) 4 = false ∧ capRight ((chan []).cap0 0 4) 6 = false ∧
    ((chan [] id fun k => { k with revoking := [1] }).coreAt 0).revoking.contains 1 = true := by decide +kernel

theorem witness_ReceivesTakeMessages :
    ((watching false true).coreAt 0).selected (watching false true).task true 2 =
      some { id := 1, h0 := 0x40000000, h1 := 0, payload := [0, 0, 0, 0, 0, 0, 0, 0] } ∧
    (∃ s : State, s = (watching false true).modTask (fun t => { t with priv := true, g := t.g.set 2 (spmAt 16) }) ∧
      (s.rg 2).toNat % 16 = 0 ∧ succeeds (checkStores (storePieces (s.rg 2) (List.replicate 80 0) 11) s) (fun ps w =>
        succeeds (enterStores ps w) fun _ u => u.cur = s.cur && !u.task.stepping) = true) ∧
    (((running []).coreAt 0).selected (running []).task true 0 = none ∧ (running []).task.stepping = false) ∧
    ((running [(1, 8)]).rg 1).toNat % 16 ≠ 0 := by
  refine ⟨by decide, ⟨_, rfl, by decide, by decide⟩, by decide, by decide⟩

theorem witness_PostedStoresTakeAJournalEntry :
    capKind ((chan []).cap0 0 1) ≠ 2 ∧ ((chan [] id fun k => { k with revoking := [2] }).coreAt 0).revoking.contains 2 = true ∧
    (∀ f ∈ postForms 1 3 2 15 6, let e := (chan []).cap0 0 2; let w1 := (chan []).cap1 0 2; let per := if f.2.2.1 then 2 else 1
      let s := chan [(1, BitVec.ofNat 64 (64 * per - f.2.2.2))]; let x := s.rg 1
      capKind e = 2 ∧ capRight e f.2.1 = true ∧ x.toNat + f.2.2.2 ≤ winLen w1 * per ∧
      (if f.2.2.1 then x.toNat % 16 + f.2.2.2 ≤ 16 else x.toNat % f.2.2.2 = 0) ∧ starts s 2 2 f.2.1 = true ∧
      winLen w1 * per < x.toNat + 1 + f.2.2.2 ∧
      succeeds (drain s) (fun _ u => tabFree (u.coreAt u.cur.core).journal 32 0 = some 0 && u.cur = s.cur && !u.task.stepping) =
        true) := by decide +kernel

/-- As `chan`, with a template of one send entry for the queue, a grant pending, and a child c5 of c1. -/
def caps (g : List (Nat × Word)) (f : Task → Task := id) : State :=
  let s := chan g (fun t => f { t with grant := some (0x4FF1, 0) }) fun k => { k with
    spm := cellsSet k.spm (98048 + 80) (bytesOf 0x44000FF1#64) }
  let p := s.partAt 0
  { s with mem := cellsSet [] 0x10000 (bytesOf 0x4FF1#64), parts := [(0, { p with queues := [(0, { tmpl := 0x10001 })] })] }

theorem witness_CapabilityInstructionsAct :
    (capKind ((caps []).cap0 0 1) ≠ 0 ∧ capKind ((caps []).cap0 0 0) = 0 ∧ (running []).task.grant = none ∧
      (running []).templateQueue 0 = none ∧ (caps []).templateQueue 0 = some (0, 0) ∧ (caps []).templateEntry 0 0 0 = (0x4FF1, 0) ∧
      capKind ((caps []).templateEntry 0 0 1).1 = 0 ∧ (caps []).task.grant = some (0x4FF1, 0) ∧ (caps []).task.stepping = false) ∧
    (capRight ((caps []).cap0 0 1) 10 = true ∧ capRight ((caps []).cap0 0 4) 10 = false ∧ fieldOf (0x8000000000#64) 63 39 ≠ 0 ∧
      (capAllow ((caps []).cap0 0 1) = 4 ∧ capUsed ((caps []).cap0 0 1) = 0 ∧ fieldOf (0x5FF#64) 14 8 = 5 ∧ fieldOf (0x4FF#64) 14 8 = 4) ∧
      (capKind ((caps []).cap0 0 2) = 2 ∧ fieldOf (0xFF#64) 14 8 = 0 ∧ fieldOf (0xFF#64) 26 15 + fieldOf (0xFF#64) 38 27 + 1 ≤
        fieldOf ((caps []).cap1 0 2) 23 12 + 1)) ∧
    (Memory.wf ((caps []).coreAt 0).spm = true ∧ (caps []).descends 0 1 16 5 = true ∧ capUsed ((caps []).cap0 0 1) = 0 ∧
      capUsed ((caps []).cap0 0 5) = 0 ∧ bitOf ((caps []).cap0 0 5) 30 = true ∧ fieldOf ((caps []).cap0 0 5) 29 26 = 1) ∧
    (((caps []).modTask fun t => { t with priv := true }).task.priv = true ∧ mintable 0x4471 0 = true ∧ mintable 0x80000000 0 = false ∧
      ((caps []).blockNamed (capEp 0x4FF1)).isSome = true ∧ (caps []).blockNamed (capEp (0x4FF1 + 0x800000000#64)) = none ∧
      epDevice (capEp (0x4FF1 + 0x800000000#64)) = (caps []).device ∧ (caps []).partOf 0 = 0) := by decide +kernel

theorem witness_CopyInstructionsQueueCommands :
    2 ^ 24 ≤ ((running [(3, 16777216)]).rg 3).toNat ∧ ((running [(3, 16777215)]).rg 3).toNat < 2 ^ 24 ∧
    (∃ s : State, s = blocked [(1, spmAt 0), (2, spmAt 64), (3, 64)] ∧ succeeds (localRange (s.rg 1) 64 s) (fun _ u => u = s) = true ∧
      succeeds (localRange (s.rg 2) 64 s) (fun _ u => u = s) = true ∧ (s.coreAt 0).cq.length < 3 ∧
      succeeds (drain s) (fun _ u => u.cur = s.cur && !u.task.stepping) = true) ∧
    ((running [(1, 32)]).rg 1).toNat % 64 ≠ 0 ∧
    (∀ x ∈ [(1, 1, true), (16777215, 65536, true), (16777216, 1, false), (1, 65537, false), (0, 1, false), (1, 0, false)],
      (0 < x.1 ∧ x.1 < 2 ^ 24 ∧ 0 < x.2.1 ∧ x.2.1 ≤ 65536) = (x.2.2 = true)) ∧
    (∃ s : State, s = (blocked [(1, spmAt 0)] id fun k => { k with
        spm := cellsSet [] 0 (bytesOf (spmAt 64) ++ bytesOf (spmAt 96) ++ bytesOf 0x100000001 ++ bytesOf 32 ++ bytesOf 32) }) ∧
      (s.rg 1).toNat % 64 = 0 ∧ succeeds (loadWords (s.rg 1) 8 s) (fun w r => r.cur = s.cur && nth w 5 0 = 0 && nth w 6 0 = 0 &&
        nth w 7 0 = 0 && fieldOf (nth w 2 0) 31 0 = 1 && fieldOf (nth w 2 0) 63 32 = 1 &&
        succeeds (localRange (nth w 0 0) 1 r) (fun _ u => u = r) && succeeds (localRange (nth w 1 0) 1 r) (fun _ u => u = r) &&
        (r.coreAt 0).cq.length < 3 && succeeds (drain r) fun _ u => u.cur = s.cur && !u.task.stepping) = true) ∧
    (starts (chan []) 2 2 7 = true ∧ starts (chan []) 2 2 9 = true ∧ starts (chan []) 2 2 6 = true ∧
      winLen ((chan []).cap1 0 2) = 64 ∧ capKind ((chan []).cap0 0 1) ≠ 2) ∧
    (urgent.urgent = true ∧ (running []).urgent = false ∧ tabFind queued.task.streams 4 ≠ none ∧ tabFind queued.task.streams 6 = none ∧
      fieldOf (0x800000001#64) 31 0 ≠ 0 ∧ fieldOf (0x800000001#64) 63 32 % 8 = 0 ∧ fieldOf (0x400000001#64) 63 32 % 8 ≠ 0) := by
  refine ⟨by decide, by decide, ⟨_, rfl, by decide +kernel, by decide +kernel, by decide, by decide⟩, by decide, by simp, ⟨_, rfl, by decide, by decide +kernel⟩, by decide +kernel, by decide⟩

/-- Core 0, outside any block, whose copy engine holds one command. -/
def copying (k : CopyKind) (dst src : Word) (row status : Nat := 0) : State :=
  ruling [] fun c => { c with cq := [{
    id := 0, kind := k, dst := dst, src := src, rowBytes := 32, rows := 1, dstStride := 0, srcStride := 0, notify := true, tid := 1,
    pc := 0, asid := 0, priv := true, row := row, status := status }] }

/-- The head of core 0's copy engine. -/
def headCopy (s : State) : CopyCommand :=
  (s.coreAt 0).cq.headD {
    id := 0, kind := .copy, dst := 0, src := 0, rowBytes := 0, rows := 0, dstStride := 0, srcStride := 0, notify := false, tid := 0,
    pc := 0, asid := 0, priv := false }

/-- What lets it go on (CopyGoes). -/
def goes (s : State) : Bool :=
  let c := headCopy s
  (s.coreAt 0).cq = c :: [] && !(s.coreAt 0).completionWaits 2 && (s.coreAt 0).inOrder c.id && c.status = 0 && !c.revoked &&
    c.row < c.rows && c.done < c.rowBytes

/-- Core 0 has an inbound stream at q4 and an outbound one at q5 of one element. -/
def streaming : State := running [] fun t => { t with
  streams := [(4, { inward := true, base := spmAt 0, stride := 8, count := 1 }),
    (5, { inward := false, base := spmAt 1024, stride := 8, count := 1, queue := [9] })] }

theorem witness_CopyEngineMovesItsBytes :
    (∃ s : State, s = copying .copy 0x10020 0x10000 ∧ goes (mapped s) = true ∧ (headCopy (mapped s)).kind = .copy ∧
      succeeds (copyRead 0 (headCopy s) (headCopy s).srcAt 32 (mapped s)) (fun x u => match x with
        | .ok bytes => succeeds (copyWrite 0 (headCopy s) (headCopy s).dstAt bytes u) fun y v =>
            (match y with | .ok _ => true | .error _ => false) && (v.coreAt 0).cq = headCopy s :: []
        | .error _ => false) = true) ∧
    (∃ s : State, s = copying .copy (spmAt 262112) (spmAt 0) ∧ goes s = true ∧ bitOf (headCopy s).srcAt 63 = true ∧
      bitOf (headCopy s).dstAt 63 = true ∧ fieldOf (headCopy s).srcAt 62 18 = 0 ∧ fieldOf (headCopy s).dstAt 62 18 = 0 ∧
      (headCopy s).srcAt.toNat % 32 = (headCopy s).dstAt.toNat % 32 ∧ (headCopy s).dstAt.toNat % 2 ^ 18 + 32 ≤ (s.coreAt 0).spmSize ∧
      (s.coreAt 0).spmBad 0 32 = false ∧ s.tableAt 0 + 256 ≤ (headCopy s).dstAt.toNat % 2 ^ 18) ∧
    (∀ x ∈ [(1, 0), (0, 5)], let s := copying .copy 0 0 x.1 x.2
      (s.coreAt 0).completionWaits 2 = false ∧ (s.coreAt 0).inOrder (headCopy s).id = true ∧ (headCopy s).acked = (headCopy s).sent ∧
      ((headCopy s).status ≠ 0 ∨ (headCopy s).row = (headCopy s).rows ∧ (headCopy s).revoked = false)) ∧
    (∃ s : State, s = copying (.put 0 0 2 false) 0 (spmAt 0) ∧ goes s = true ∧ epDevice 0 = s.device ∧
      succeeds (readPieces 0 (headCopy s) (if (0 : BitVec 29) = s.endpointOf 0 then some (headCopy s).dstAt.toNat else none) []
        (headCopy s).srcAt (sectors (headCopy s).dstAt 32 10) s) (fun x u =>
        x.2 = none && x.1.length = 32 && (u.coreAt 0).cq = headCopy s :: []) = true) ∧
    (∃ s : State, s = copying (.get 0 0 2) (spmAt 0) 0 ∧ goes s = true ∧ (headCopy s).data = [] ∧ (headCopy s).acked = (headCopy s).sent) ∧
    ((streaming.coreAt 0).b0.status ≠ .empty ∧
      succeeds (engineLoad (coreTag 0 4) 0 0 false (spmAt 0) 8 streaming) (fun x _ => match x with | .ok (_, bad) => !bad | _ => false) = true ∧
      streaming.engineTable 0 (spmAt 1024) 8 = false ∧
      succeeds (engineStore (coreTag 0 5) 0 0 false (spmAt 1024) (bytesOf 9) streaming) (fun x _ => match x with | .ok _ => true | _ => false) =
        true) ∧
    (∀ tid ∈ [1, 2], ∃ s : State, s = ruling [] (fun k => { k with completions := [{ core := 0, tid := tid, payload := [1] }] }) ∧
      (s.coreAt 0).completions = { core := 0, tid := tid, payload := [1] } :: [] ∧
      ((s.coreAt 0).tasks.any fun t => t.tid == tid) = decide (tid = 1) ∧ (s.coreAt 0).inboxRoom 7 = true) := by
  refine ⟨⟨_, rfl, by decide +kernel, rfl, by decide +kernel⟩, ⟨_, rfl, by decide +kernel, by decide +kernel⟩, by decide +kernel,
    ⟨_, rfl, by decide +kernel, rfl, by decide +kernel⟩, ⟨_, rfl, by decide +kernel, by decide +kernel⟩, by decide +kernel, fun tid h => ⟨_, rfl, ?_⟩⟩
  simp only [List.mem_cons, List.not_mem_nil, or_false] at h
  obtain rfl | rfl := h <;> decide +kernel

/-- Core 0 whose vector engine holds one command. -/
def lanes (i : Instr) (x y : Word := 0) (desc : List Byte := []) : State :=
  mapped (ruling [(1, spmAt 0)] fun k => { k with vq := [{ instr := i, vd := 3, va := 1, vb := 2, x := x, y := y, notify := true, tid := 1, priv := true, desc := desc }] })

/-- The head of core 0's vector engine. -/
def headVector (s : State) : VecCommand := (s.coreAt 0).vq.headD { instr := .done }

/-- The engine performs its first command, which keeps the order of the core (VectorFirst). -/
def first (s : State) : Bool := (s.coreAt 0).vq = headVector s :: [] && !(s.coreAt 0).completionWaits 1 && (s.coreAt 0).inOrder (headVector s).id

theorem witness_VectorInstructionsQueueCommands :
    (((running []).coreAt 0).vq.length < 3 ∧ (running []).task.stepping = false) ∧
    succeeds (drain (running [(1, spmAt 262080), (3, spmAt 1)])) (fun _ u => u.cur = (running []).cur && !u.task.stepping) = true ∧
    (∀ f ∈ vectorMemoryForms (ruling [(1, spmAt 262080)]) 3 1 2 0 0 0, ∀ i < 16,
      (f.2.2 i).toNat % 4 = 0 ∧ (bitOf (f.2.2 i) 63 = true → localBad ((ruling []).coreAt 0) (f.2.2 i) 4 = false)) ∧
    ((running [(1, spmAt 128)]).rg 1).toNat % 128 = 0 ∧ ((running [(1, spmAt 64)]).rg 1).toNat % 128 ≠ 0 ∧
    (((running []).coreAt 0).vq = [] ∧ ((running []).coreAt 0).completionWaits 1 = false ∧
      ((running []).coreAt 0).elemPoison 1 32 15 = false) ∧
    ({ ({} : Core) with vPoison := Vector.replicate 32 0x8000 }).elemPoison 1 32 15 = true := by decide +kernel

theorem witness_VectorLanesFollowTheirRow :
    ∀ e ∈ [(5 : BitVec 3), 7], ∀ f ∈ laneRows ((lanes .done).coreAt 0) (headVector (lanes .done)) 3 1 2 0 e,
      first (lanes f.1) = true ∧ (headVector (lanes f.1)).vd < 32 ∧ (headVector (lanes f.1)).instr = f.1 := by decide +kernel

theorem witness_VectorFloatsRoundOnce :
    (∀ e ∈ [(0 : BitVec 3), 1, 2], (elFormat e.toNat).isSome = true ∧
      ∀ g ∈ floatRows false 3 1 2 0 e (.zero false) (.zero false) (.zero false), first (lanes g.1) = true ∧ (headVector (lanes g.1)).instr = g.1) ∧
    (∀ i ∈ [Instr.vcmpEq 1 1 2 0 0, .vcmpNe 0 1 2 0 0, .vcmpLt 7 1 2 0 5, .vcmpLe 1 1 2 0 7], first (lanes i) = true) ∧
    ∀ f ∈ [fp32, bf16, fp16, e4m3, e5m2, fp4], 1 < 2 ^ f.width ∧ (f.decode false 1) matches .fin .. := by decide +kernel

theorem witness_VectorMemoryCommandsAct :
    (∃ s : State, s = lanes (.vld 3 1 0 0 0 0) (spmAt 0) ∧ first s = true ∧ vmemShape (headVector s).instr = some (0, 0, false, false) ∧
      (((s.coreAt 0).vmemElems (headVector s) 0 0).all fun x => (vmemCheck 0 (headVector s) 4 false x.2 s).isNone) = true ∧
      succeeds (placeElems 0 (headVector s) 4 false ((s.coreAt 0).vmemElems (headVector s) 0 0) s) (fun l u => match l with
        | .ok l => succeeds (readElems 0 4 l u) fun v _ => match v with | .ok _ => true | _ => false
        | _ => false) = true) ∧
    (∃ s : State, s = lanes (.vst 3 1 0 0 0 0) (spmAt 0) ∧ first s = true ∧ vmemShape (headVector s).instr = some (0, 0, true, false) ∧
      (((s.coreAt 0).vmemElems (headVector s) 0 0).all fun x => (vmemCheck 0 (headVector s) 4 true x.2 s).isNone) = true ∧
      succeeds (placeElems 0 (headVector s) 4 true ((s.coreAt 0).vmemElems (headVector s) 0 0) s) (fun l u => match l with
        | .ok l => succeeds (writeElems 0 4 (fun i => ((s.coreAt 0).elem 3 32 i, (s.coreAt 0).elemPoison 3 32 i)) l u) fun v _ =>
            match v with | .ok _ => true | _ => false
        | _ => false) = true) ∧
    (∃ s : State, s = lanes (.vld 3 1 0 0 0 0) (spmAt 1) ∧ first s = true ∧
      ((s.coreAt 0).vmemElems (headVector s) 0 0).findSome? (fun x => (vmemCheck 0 (headVector s) 4 false x.2 s).map fun y => (y, x.2)) =
        some (0x10, spmAt 1)) ∧
    (∃ s : State, s = lanes (.vopt 1) (spmAt 0) 0 ((List.replicate 5 (spmAt 1024) ++ [16]).flatMap bytesOf) ∧ first s = true ∧
      (headVector s).instr = .vopt 1 ∧ (headVector s).desc ≠ [] ∧ (headVector s).fault = none ∧
      16 * (headVector s).pos < optCount (headVector s).desc ∧
      succeeds (optRead 0 (headVector s) (optAddr (headVector s).desc 0) s) (fun x r => match x with
        | .ok (_, bad) => !bad && (r.coreAt 0).vq = headVector s :: [] &&
          succeeds (optPlaces 0 (headVector s) (optAddr (headVector s).desc 0) 64 r) fun l p => match l with
            | .ok l => succeeds (writePlaces 0 l (List.replicate 64 0) p) fun _ w => (w.coreAt 0).vq = headVector s :: []
            | _ => false
        | _ => false) = true) := by
  refine ⟨⟨_, rfl, by decide +kernel, rfl, by decide +kernel, by decide +kernel⟩, ⟨_, rfl, by decide +kernel, rfl, by decide +kernel, by decide +kernel⟩,
    ⟨_, rfl, by decide +kernel, by decide +kernel⟩, ⟨_, rfl, by decide +kernel, by decide +kernel⟩⟩

/-- Core 0 with a context of unscaled INT8 operands, and the commands `q` in its port queue. -/
def matrix (g : List (Nat × Word)) (q : List MatCommand := []) (h : Core → Core := id) : State :=
  mapped (ruling g fun k => h { k with mctx0 := 0x44, mctxVal := true, mq := q })

/-- A full slot of INT8 elements of one, of a role. -/
def ones (b : Bool) : OperandSlot := { state := 2, roleB := b, fmt := 4, depth := 64, data := List.replicate 2048 1 }

/-- A command of the matrix port, with the context of `matrix`. -/
def mat (i : Instr) (granted : Bool := false) (pos : Nat := 0) : MatCommand :=
  { instr := i, x := spmAt 0, w0 := 0x44, granted := granted, pos := pos }

theorem witness_MatrixInstructionsQueueCommands :
    (ctxValid 0x44 0 = true ∧ ctxValid 0x100044 0 = false ∧ slotOf (running []).cur.core < 8 ∧ slotOf 7 < 8 ∧ ¬ slotOf 8 < 8 ∧
      ((running []).coreAt 0).mq = [] ∧ ((running []).coreAt 0).mret = [] ∧ (running []).task.stepping = false ∧
      ((running []).coreAt 0).mctxVal = false ∧ ((matrix []).coreAt 0).mctxVal = true) ∧
    (∀ x ∈ (matrix []).mates 0, ((matrix []).coreAt x).mq = [] ∧ ((matrix []).coreAt x).mret = []) ∧
    (∃ s : State, s = matrix [(1, spmAt 0), (2, 64)] ∧ ¬ (ctxFmt 0x44 true = 1 ∧ (1 : BitVec 1) = 1) ∧ ctxScale 0x44 true = 0 ∧
      (s.rg 1).toNat % 16 = 0 ∧ fieldOf (s.rg 2) 31 0 % 16 = 0 ∧
      succeeds (matEntries false 17 (tilePieces 0x44 (s.rg 1) (s.rg 2) (s.rg 0) true false) s) (fun x r => r.cur = s.cur &&
        (r.coreAt 0).mq.isEmpty && (match x with
          | .ok _ => succeeds (drain r) fun _ u => u.cur = s.cur && !u.task.stepping && (u.coreAt 0).mq.isEmpty
          | _ => false)) = true ∧
      succeeds (matEntries false 17 (tilePieces 0x44 (spmAt 262128) (s.rg 2) (s.rg 0) true false) s) (fun x r => r.cur = s.cur &&
        (match x with | .error (0x14, _) => true | _ => false)) = true ∧
      ctxFmt 0x211 false = 1 ∧ (ctxScale 0x100 false ≠ 0 ∧ ctxFmt 0x100 false ≠ 1) ∧
      (spmAt 8).toNat % 16 ≠ 0) ∧
    (∃ s : State, s = matrix [(1, spmAt 64), (2, 128), (3, 32)] ∧ (s.rg 1).toNat % 64 = 0 ∧ (s.rg 2).toNat % 64 = 0 ∧
      (s.rg 3).toNat % 64 ≠ 0 ∧
      (∀ p ∈ [(true, (List.range 32).map fun j => (s.rg 1 + BitVec.ofNat 64 j * s.rg 2, 128)),
          (false, (List.range 35).map fun j => (s.rg 1 + BitVec.ofNat 64 (512 * j), min 512 (17472 - 512 * j)))],
        succeeds (matEntries p.1 0 (p.2.flatMap fun p => sectors p.1 p.2 (p.2 / 32 + 2)) s) (fun x r => (match x with
          | .ok _ => succeeds (drain r) fun _ u => r.cur = s.cur && u.cur = s.cur && !u.task.stepping && (r.coreAt 0).mq.isEmpty &&
              (u.coreAt 0).mq.isEmpty
          | _ => false)) = true)) := by
  refine ⟨by decide +kernel, by decide +kernel, ⟨_, rfl, by decide +kernel, rfl, by decide +kernel, by decide +kernel, by decide +kernel, by decide +kernel, by decide +kernel, by decide +kernel, by decide⟩,
    ⟨_, rfl, by decide +kernel⟩⟩

/-- The arbiter of cove 0 grants core 0 its head command (Granted). -/
def granted (s : State) (fetch : Bool) (ready : Nat → Bool) : Bool :=
  let order := (List.range 8).map fun i => (0 + i) % 8
  (order.find? (s.inProgress fetch)).isNone && order.find? ready = some 0 && (s.coreAt 0).mq.length = 1

theorem witness_MatrixUnitPerformsItsCommands :
    granted (matrix [] [mat (.mzero 1)]) false (matrix [] [mat (.mzero 1)]).arrayReady = true ∧
    (∃ s : State, s = matrix [] [mat (.mma 0 1 0 0 0)] ∧ granted s false s.arrayReady = true ∧
      (s.slotOfRank 0 (0, 0)).suits 0x44 false = false) ∧
    (∃ s : State, s = matrix [] [mat (.mma 0 1 0 0 0)] (fun k => { k with slots := [(0, ones false), (1, ones true)] }) ∧
      granted s false s.arrayReady = true ∧ fieldOf (0x44#64) 17 0 = 4 + 4 * 16 ∧ (s.slotOfRank 0 (0, 0)).suits 0x44 false = true ∧
      (s.slotOfRank 0 (0, 1)).suits 0x44 true = true ∧ ((s.coreAt 0).acc 0).float = false ∧ (s.slotOfRank 0 (0, 0)).poison = [] ∧
      (s.slotOfRank 0 (0, 1)).poison = [] ∧ ((s.coreAt 0).acc 0).cells = []) ∧
    (∀ o ∈ [(0 : BitVec 1), 1], ∃ s : State, s = matrix [] [mat (.mfetch 1 2 0 o 1 15)] ∧ granted s true s.fetchReady = true ∧
      (let line := fetchLine (spmAt 0) 0 4 (o = 1) 64 0; (matPieces line.1 line.2).all fun p => bitOf p.1 63) = true) ∧
    (∃ s : State, s = matrix [] [mat (.mfetch 1 2 0 0 1 15) true 31] (fun k => { k with slots := [(15, { state := 1 })] }) ∧
      (((List.range 8).map fun i => (0 + i) % 8).find? (s.inProgress true)) = some 0 ∧
      succeeds (fetchPieces 0 15 (mat (.mfetch 1 2 0 0 1 15) true 31) (matPieces (spmAt 0) 64) s) (fun _ _ => true) = true) ∧
    (∃ s : State, s = matrix [] [mat (.mfetch 1 2 0 0 1 15) true 32] ∧ ctxScale 0x44 true = 0 ∧
      (((List.range 8).map fun i => (0 + i) % 8).find? (s.inProgress true)) = some 0) ∧
    (((matrix [] [] fun k => { k with mret := [mat (.mma 0 1 0 1 0)] }).coreAt 0).mret = mat (.mma 0 1 0 1 0) :: [] ∧
      (matrix []).mates 0 = [0] ∧ ((matrix []).coreAt 0).mq = []) ∧
    (∀ e ∈ [0, 1023], (tabGet ({ cells := [(1023, { value := 1, cls := 3 })] } : AccTile).cells e {}).cls < 4) := by
  refine ⟨by decide +kernel, ⟨_, rfl, by decide +kernel, by decide +kernel⟩,
    ⟨_, rfl, by decide +kernel, rfl, by decide +kernel, by decide +kernel, rfl, by decide +kernel, by decide +kernel, rfl⟩,
    fun o h => ⟨_, rfl, ?_⟩, ⟨_, rfl, by decide +kernel, by decide +kernel⟩, ⟨_, rfl, by decide +kernel, by decide +kernel⟩, by decide +kernel, by decide⟩
  simp only [List.mem_cons, List.not_mem_nil, or_false] at h
  obtain rfl | rfl := h <;> decide +kernel

/-- Name 4, of two slices: its descriptor's words, its owner live at index 0, and what `f` changes. -/
def expertWords : List Word :=
  [0x10000, 0x10400, 0x10800, 0x10C00, 0, 0x40000001, 64, 0, 0x8000000000000000, 0x11000, 0, 0, 0, 0, 0, 0]

/-- A live replica with its weights at an address. -/
def live (a : Word) (f : Replica → Replica := id) : Replica := f { state := .live, record := [0x8000000000000000, a, 0, 0] }

/-- A supervisor's task with the first page mapped, name 4 defined, and the requests that have arrived at die 0. -/
def expert (g : List (Nat × Word)) (f : Name → Name := id) (r : List ExpertRequest := []) (m : List Host.Cell := []) : State :=
  let s := (mapped (ruling g)).modDie 0 fun d => { d with requests := r }
  { s with names := [(4, f { defined := true, words := expertWords, optd := 0x10000, replicas := [(0, live 0x11000)] })], mem := m }

/-- The name of such a state. -/
def theName (s : State) : Name := (s.nameAt 4).getD {}

theorem witness_ExpertInstructionsAct :
    (∃ s : State, s = expert [(1, spmAt 64), (2, 4), (3, 0x2004)] ∧ (s.partAt (s.partOf s.cur.core)).holdsName 4 = true ∧
      s.nameAt 4 = some (theName s) ∧ succeeds (drain s) (fun _ u => u.cur = s.cur && !u.task.stepping && (u.coreAt 0).xsends < 8) = true ∧
      fieldOf (s.rg 2) 63 49 = 0 ∧ fieldOf (s.rg 2) 31 12 / (theName s).width < (theName s).nslice ∧
      (theName s).nslice ≤ fieldOf (s.rg 3) 31 12 / (theName s).width ∧ fieldOf (s.rg 2) 63 28 = 0 ∧ (s.rg 1).toNat % 64 = 0 ∧
      (spmAt 8).toNat % 64 ≠ 0 ∧ s.nameAt 5 = none ∧ s.task.begunOf s.cur.a < 4 ∧ (s.partAt 1).holdsName 4 = false ∧
      (theName s).idle = true ∧ MayReach s 4 false) ∧
    (∃ s : State, s = (expert [(1, spmAt 64), (2, 4)]).modCore 0 (fun k => { k with xsends := 8 }) ∧ 8 ≤ (s.coreAt 0).xsends) ∧
    ((expert [] fun x => { x with entries := [{ step := 0, slice := 0, replica := 0, addr := 0, notify := false, core := 0, tid := 1, pc := 0 }] }).nameAt 4).elim
      false (fun x => !x.idle) = true ∧
    (∃ s : State, s = { (mapped (ruling [(1, 0x10080), (2, 4)])) with
        mem := cellsSet (cellsSet [] 0x10080 (expertWords.flatMap bytesOf)) 0x10000 (bytesOf 0x11000) } ∧
      succeeds (loadWords (s.rg 1) 16 s) (fun w r => (s.rg 1).toNat % 64 = 0 && (nth w 0 0).toNat % 128 = 0 &&
        [1, 2, 3, 9].all (fun i => (nth w i 0).toNat % 64 = 0) && !descriptorBad w && succeeds (loadWords (nth w 0 0) 16 r) fun v o =>
          nth w 9 0 = nth v 0 0 && o.cur = s.cur && (tabFind o.names 4).isNone && succeeds (nameWrite 4 o.ownWork (nth w 1 0)
            (clean (List.replicate 4 0)) (({ o with names := tabPut o.names 4 { words := w, priv := true } } : State).begin 3))
              fun _ u => !u.task.stepping) = true) ∧
    (∃ s : State, s = expert [(1, 4), (2, 2)] (fun x => { x with
        replicas := [(0, live 0x11000), (1, live 0x11100 fun r => { r with state := .filling }), (2, live 0x11200)] }) ∧
      MayReach s 4 true ∧ (theName s).deferred = false ∧
      s.nameAt 4 = some (theName s) ∧ ((theName s).rep 1).state = .filling ∧ (theName s).owner ≠ 2 ∧ ((theName s).rep 2).state = .live ∧
      ((theName s).rep 3).state = .gone ∧ fieldOf (s.rg 2) 63 3 = 0) ∧
    (∃ x : Name, x = { replicas := (List.range 8).map fun q => (q, live 0 fun r => { r with state := if q = 7 then .draining else .live }) } ∧
      ∀ q < 8, (x.rep q).state ≠ .filling ∧ (x.rep q).state ≠ .gone) ∧
    (∃ s : State, s = expert [(1, 4)] id [] (cellsSet [] 0x10C00 (bytesOf 0x8000000000000000)) ∧
      (∀ q < 8, ((theName s).rep q).state ≠ .filling) ∧ (∃ q < 8, ((theName s).rep q).state = .gone) ∧ MayReach s 4 false ∧
      succeeds (createReplica 4 s.ownWork (s.begin 3)) (fun i u => i = some 1 && !u.task.stepping) = true) ∧
    (∃ s : State, s = expert [(1, 4)] (fun x => { x with deferred := true }) ∧ (∀ q < 8, ((theName s).rep q).state ≠ .filling) ∧
      (theName s).deferred = true ∧ MayReach s 4 false) ∧
    (∃ s : State, s = expert [(1, 4)] ∧ succeeds (createReplica 4 s.ownWork (s.begin 3)) (fun i _ => i.isNone) = true) ∧
    (∃ s : State, s = expert [(1, 4), (2, 0x10080)] (fun x => { x with replicas := [(0, live 0x11000), (1, live 0x11100)], joinStep := 7 }) [] (cellsSet [] 0x10080 (bytesOf 0x11100)) ∧
      MayReach s 4 false ∧ ((theName s).rep 1).state = .live ∧ 1 ≠ (theName s).owner ∧ (s.rg 2).toNat % 128 = 0 ∧ (s.rg 1).toNat % 128 ≠ 0 ∧
      succeeds (nameRead 4 s.ownWork (s.rg 2) 8 (s.begin 3)) (fun b u => !u.task.stepping && u.nameAt 4 = some (theName s) &&
        wordOfList (b.map (·.1)) = ((theName s).rep 1).wad) = true ∧ (theName s).joined = false ∧ (theName s).joinStep ≠ (theName s).version ∧
      ((theName s).rep 1).version = (theName s).version ∧ (theName s).copies = [] ∧ wordOfList [0] ≠ ((theName s).rep 1).wad) ∧
    (∀ m ∈ [1, 4096], ∀ f ∈ [(0, true), (1, m == 1)], (rootPart.holdsNames f.1 m) = f.2) ∧
    (∃ s : State, s = ruling [(1, spmAt 0), (2, 0x1004)] ∧ fieldOf (s.rg 2) 24 12 = 1 ∧ fieldOf (s.rg 2) 63 25 = 0 ∧ (s.rg 1).toNat % 16 = 0 ∧
      bitOf (s.rg 1) 63 = true ∧ fieldOf (s.rg 1) 62 18 = 0 ∧ (s.rg 1).toNat % 2 ^ 18 + 16 ≤ min (s.coreAt 0).spmSize (2 ^ 18) ∧
      s.task.priv = true ∧ (s.coreAt 0).sb = [] ∧ (s.coreAt 0).memoryBusy = false ∧ s.task.stepping = false ∧
      succeeds (checkStores (storePieces (s.rg 1) (bytesOfNat 16 0) 3) s) (fun ps p => succeeds (drain p) fun _ u => u.cur = s.cur &&
        !(u.coreAt u.cur.core).memoryBusy && succeeds (ownStores ps u) fun _ v => succeeds (enterStores ps v) fun _ t => !t.task.stepping) = true) := by
  unfold MayReach RequestsArrived
  refine ⟨⟨_, rfl, by decide +kernel⟩, ⟨_, rfl, by decide +kernel⟩, by decide +kernel, ⟨_, rfl, by decide +kernel⟩, ⟨_, rfl, by decide +kernel⟩,
    ⟨_, rfl, by decide +kernel⟩, ⟨_, rfl, by decide +kernel⟩, ⟨_, rfl, by decide +kernel⟩, ⟨_, rfl, by decide +kernel⟩, ⟨_, rfl, by decide +kernel⟩,
    by decide +kernel, ⟨_, rfl, by decide +kernel⟩⟩

/-- What xupd asks of the state (R352): its join done or not, its copies to make or none, and those of an accepted one. -/
theorem witness_ExpertInstructionsAct_updates :
    (∀ r ∈ [[(0, live 0x11000)], [(0, live 0x11000), (1, live 0x11100)]], ∃ s : State,
      s = expert [(1, 4), (2, 0x10080)] (fun x => { x with replicas := r }) ∧ s.task.begunOf s.cur.a < 4 ∧
      succeeds (drain s) (fun _ u => !u.task.stepping && u.nameOpen 4 u.ownWork && !u.requestsAhead 4 1 && !u.closing 4 &&
        u.nameAt 4 = some (theName s) && succeeds (nameRead 4 s.ownWork (s.rg 2) 1 (u.begin 3)) fun _ v =>
          !v.task.stepping && v.nameAt 4 = some (theName s)) = true ∧ (s.rg 2).toNat % 64 = 0 ∧ (theName s).joined = true ∧
      (theName s).copies = [] ∧ ((∀ k < 8, k ≠ (theName s).owner → ((theName s).rep k).state ≠ .live) ↔ r.length = 1)) ∧
    (∃ s : State, s = expert [(1, 4)] (fun x => { x with joinStep := 7 }) ∧ (theName s).joined = false) ∧
    (∀ c ∈ [[], [{ replica := 1, version := 1, fill := false : ExpertCopy }]], ∃ s : State,
      s = (expert [(1, 4)] (fun x => { x with copies := c })).begin 4 ∧ 4 ≤ s.task.begunOf s.cur.a ∧ s.task.stepping = false ∧
        s.updating 4 = !c.isEmpty) := by
  refine ⟨fun r h => ?_, ⟨_, rfl, by decide +kernel⟩, fun c h => ?_⟩
  all_goals simp only [List.mem_cons, List.not_mem_nil, or_false] at h
  all_goals obtain rfl | rfl := h <;> exact ⟨_, rfl, by decide +kernel⟩

/-- The hypotheses about a core's earlier requests (R421): none on its way, and one on its way for the name. -/
theorem witness_RequestsArrived :
    (∃ s : State, s = expert [(1, 4), (2, 2)] ∧ RequestsArrived s 4 1 ∧ RequestsArrived s 0 4096) ∧
    (∃ s : State, s = expert [(1, 4), (2, 2)] id [.token 4 0 1 4 0 0 1 0 []] ∧ ¬ RequestsArrived s 4 1 ∧ RequestsArrived s 5 1 ∧
      ¬ MayReach s 4 true ∧ MayReach s 4 false) := by
  unfold MayReach RequestsArrived
  exact ⟨⟨_, rfl, by decide +kernel, by decide +kernel⟩,
    ⟨_, rfl, by decide +kernel, by decide +kernel, by decide +kernel, by decide +kernel⟩⟩

theorem witness_ExpertUnitsServeTheirNames :
    (∃ r ∈ [ExpertRequest.token 5 0 1 5 0 0 1 0 []], ∃ s : State, s = expert [] id [r] ∧ (s.arriving 0).filter (·.isToken) = [r] ∧ s.nameAt 5 = none) ∧
    (∃ r ∈ [ExpertRequest.token 4 0 1 0x2004 0 0 1 0 []], ∃ s : State, s = expert [] id [r] ∧ (s.arriving 0).filter (·.isToken) = [r] ∧
      (theName s).nslice ≤ fieldOf 0x2004 31 12 / (theName s).width) ∧
    (∃ r ∈ [ExpertRequest.token 4 0 1 4 0 0 1 0 []], ∃ s : State, s = expert [] id [r] (cellsSet [] 0x10400 [128]) ∧
      (s.arriving 0).filter (·.isToken) = [r] ∧
      fieldOf 4 31 12 / (theName s).width = 0 ∧ 0 < (theName s).nslice ∧
      succeeds (nameRead 4 (.request r) ((theName s).pinAt 0 0) 1 (ticked s)) (fun b u => u.nameAt 4 = some (theName s) &&
        natOfBytes (b.map (·.1)) = 128 + 0 && epDevice (BitVec.ofNat 29 (fieldOf (nth ((theName s).rep 0).record 0 0) 28 0)) = u.device) = true ∧ ((theName s).rep 0).held = [] ∧ (theName s).mayForward 0 false 0 = true ∧
      (theName s).grow ≠ ((theName s).rep 0).pending + 1) ∧
    (∃ r ∈ [ExpertRequest.token 4 0 1 4 0 0 1 0 []], ∃ s : State, s = expert [] (fun x => { x with replicas := [(0, live 0x11000 fun q => { q with held := [r] })] }) ∧
      s.nameAt 4 = some (theName s) ∧ s.nameOpen 4 (.release 0) = true ∧ ((theName s).rep 0).held = r :: [] ∧ (theName s).mayForward 0 false 0 = true ∧
      (theName s).grow ≠ ((theName s).rep 0).pending + 1) ∧
    (∃ s : State, s = expert [] (fun x => { x with closes := 1 }) ∧ s.nameAt 4 = some (theName s) ∧ (theName s).closes ≠ 0 ∧
      (theName s).joinDone = true ∧ s.nameOpen 4 .close = true ∧
      succeeds (nameWrite 4 .close ((theName s).pinAt 65535 0) (clean (List.replicate (theName s).nslice 0)) s) (fun _ u =>
        succeeds (pinsOf 4 (theName s).step .close u) fun _ v => (v.nameAt 4).isSome) = true) ∧
    (∀ x ∈ [(0, 0), (64, 0), (64, 1)], ∃ s : State, s = expert [] (fun y => { y with
        version := x.2, replicas := [(0, live 0x11000), (1, live 0x11100)], copies := [{ replica := 1, version := 0, fill := true, pos := x.1 }] }) ∧
      (theName s).copies = [{ replica := 1, version := 0, fill := true, pos := x.1 }] ∧ s.nameAt 4 = some (theName s) ∧ s.nameOpen 4 (.copy 1) = true ∧ (theName s).deferred = false ∧
      (x.1 < (theName s).wlen ∨ (theName s).wlen ≤ x.1) ∧ succeeds (copySector 4 1 0 s) (fun _ u => u.nameAt 4 = some (theName s)) = true) ∧
    (∃ s : State, s = expert [] (fun y => { y with deferred := true }) ∧ (theName s).copies = [] ∧ (theName s).deferred = true ∧
      s.nameOpen 4 .growth = true ∧ succeeds (decideDeferred 4 s) (fun _ _ => true) = true) ∧
    (∀ p ∈ [0, 64], ∃ s : State, s = expert [] (fun y => { y with copies := [{ replica := 1, version := 1, fill := false, pos := p, withheld := [1] }] }) ∧
      (theName s).copies = [{ replica := 1, version := 1, fill := false, pos := p, withheld := [1] }] ∧
      s.nameOpen 4 (.copy 1) = true ∧
      (p = 0 → p < (theName s).wlen ∧ (nth ([1] : List Byte) (p / 64 / 8) 0).getLsbD (p / 64 % 8) = true) ∧ (p = 64 → (theName s).wlen ≤ p)) ∧
    (∃ r ∈ [ExpertRequest.join 4 1 1 (spmAt 0) false 0 1 0 0 []], ∃ s : State, s = expert [] (fun x => { x with
        replicas := [(0, live 0x11000 fun r => { r with record := [0x8000000000000000, 0x11000, 0, 0] })] }) [r] (cellsSet [] 0x10403 [128]) ∧
      (s.arriving 0).filter (fun q => q.isToken == false) = [r] ∧ 1 < (theName s).nslice ∧ 1 ≠ (theName s).joinStep ∧ (theName s).entries = [] ∧
      fieldOf (nth ((theName s).rep 0).record 0 0) 28 0 = 0 ∧
      succeeds (nameRead 4 (.request r) ((theName s).pinAt 1 1) 1 (ticked s)) (fun b u => u.nameAt 4 = some (theName s) &&
        natOfBytes (b.map (·.1)) / 128 = 1 && natOfBytes (b.map (·.1)) % 8 = 0) = true) := by
  refine ⟨⟨_, .head _, _, rfl, by decide +kernel⟩, ⟨_, .head _, _, rfl, by decide +kernel⟩, ⟨_, .head _, _, rfl, by decide +kernel⟩,
    ⟨_, .head _, _, rfl, by decide +kernel⟩, ⟨_, rfl, by decide +kernel⟩, fun x h => ?_, ⟨_, rfl, by decide +kernel⟩, fun p h => ?_, ⟨_, .head _, _, rfl, by decide +kernel⟩⟩
  all_goals simp only [List.mem_cons, List.not_mem_nil, or_false] at h
  · obtain rfl | rfl | rfl := h <;> exact ⟨_, rfl, by decide +kernel⟩
  · obtain rfl | rfl := h <;> exact ⟨_, rfl, by decide +kernel⟩

/-- A join of name 4 that awaits slice 1, and holds its partial. -/
def joining (f : Name → Name := id) : State :=
  expert [] (fun x => f { x with
    joinDone := false, joinSet := [1]
    entries := [{ step := 0, slice := 1, replica := 0, addr := 0x11000, notify := false, core := 0, tid := 1, pc := 0 }] }) []
    (cellsSet [] 0x10018 (bytesOf 0x12000))

theorem witness_ExpertUnitsServeTheirNames_joins :
    ((joining fun x => { x with joinZeroed := false, joinPos := 64 }).nameAt 4).any (fun x => !x.joinDone && x.version = x.joinStep && !x.joinZeroed &&
      x.wlen ≤ x.joinPos) = true ∧
    ((joining fun x => { x with joinNext := 1 }).nameAt 4).any (fun x => x.joinZeroed && x.joinSet[x.joinNext]? = none) = true ∧
    ((joining fun x => { x with joinPos := 64 }).nameAt 4).any (fun x => x.joinZeroed && x.joinSet[x.joinNext]? = some 1 && x.wlen ≤ x.joinPos &&
      (x.entries.find? fun e => e.step == x.joinStep && e.slice == 1).isSome) = true ∧
    (∃ s : State, s = joining (fun x => { x with joinZeroed := false }) ∧ succeeds (gradAddr 4 s) (fun g u =>
      succeeds (nameWrite 4 .join (g + 0) (clean (List.replicate 32 0)) u) fun _ v => (v.nameAt 4).isSome) = true) ∧
    (∃ s : State, s = joining ∧ s.nameOpen 4 .join = true ∧ (theName s).joinPos < (theName s).wlen ∧ succeeds (gradAddr 4 s) (fun g u =>
      succeeds (nameRead 4 .join (g + 0) 32 u) fun o v => succeeds (nameRead 4 .join 0x11000 32 v) fun p w =>
        succeeds (nameWrite 4 .join (g + 0) (addSector o p) w) fun _ z => (z.nameAt 4).isSome) = true) ∧
    (∃ s : State, s = expert [] (fun x => { x with replicas := [(0, live 0x11000), (1, live 0x11100 fun r => { r with state := .draining })] }) ∧
      ((theName s).rep 1).state = .draining ∧ ((theName s).rep 1).pending = 0 ∧ ((theName s).rep 1).held = [] ∧ s.nameOpen 4 (.gone 1) = true ∧
      succeeds (pinsOf 4 0 (.gone 1) s) (fun a u => a.all (fun p => p.2 ≠ 1) && succeeds (pinsOf 4 65535 (.gone 1) u) fun b v => b.all (fun p => p.2 ≠ 1) &&
        (v.nameAt 4).isSome) = true) ∧
    (∃ s : State, s = { expert [] (fun x => { x with walkFault := true }) with now := 100000 } ∧ (theName s).walkFault = true ∧
      (theName s).faultSince + 100000 ≤ s.now + Config.elapsed s.tick) :=
  ⟨by decide +kernel, by decide +kernel, by decide +kernel, ⟨_, rfl, by decide +kernel⟩, ⟨_, rfl, by decide +kernel⟩, ⟨_, rfl, by decide +kernel⟩,
    ⟨_, rfl, by decide +kernel, Nat.le_add_right _ _⟩⟩

/-- The state after an instruction; the reset state where it does not complete. -/
def next (i : Instr) (s : State) : State := match Machine.exec i s with | .next t => t | _ => State.reset

/-- A gate entry of one inline score: of the half `tent`, for name 4 and token 0. -/
def gateEntry (tent : Bool) (tok : Nat := 0) : List Word :=
  [BitVec.ofNat 64 (tok + 4 * 2 ^ 20 + 2 ^ 40 + (if tent then 2 ^ 45 else 0)), 0, 0x3F800000, 0, 0, 0, 0, 0, 0, 0]

/-- A privileged task with the words `w` in its scratchpad and a routing buffer of two slots at 0x10000, whose bytes are `m`. -/
def routing (g : List (Nat × Word)) (w : List Word := []) (m : List Host.Cell := []) (f : Die → Die := id) : State :=
  let s := (mapped (ruling g fun k => { k with spm := cellsSet [] 0 (w.flatMap bytesOf) })).modDie 0 fun d => f { d with rbuf := 0x10001 }
  { s with mem := m }

/-- A half of name 4 that is valid. -/
def halfFour : List Byte := ({ v := true, names := [4], wts := [0x3F80] } : RouteHalf).bytes

/-- What RemitReads asks, by tests: the entry, its scores and the slot. -/
def remits (s : State) (e : List Word) (scores : List Machine.Num) (half : List Byte → Bool) : Bool :=
  (s.rg 1).toNat % 16 = 0 && succeeds (loadWords (s.rg 1) 10 s) fun x v => x = e && succeeds (gateCheck e v) fun _ r => r = v &&
    v.cur = s.cur && (v.dieAt 0).tbase ≤ gateTok (nth e 0 0) && gateTok (nth e 0 0) - (v.dieAt 0).tbase ≤ (v.dieAt 0).slotCap &&
    succeeds (gateScores e v) fun y w => y = scores && succeeds (loadWords ((v.dieAt 0).slotAddr (gateTok (nth e 0 0) - (v.dieAt 0).tbase)) 8 w)
      fun z u => half (z.flatMap bytesOf) && u.cur = s.cur && !u.task.stepping

theorem witness_GateEntriesBecomeRoutingRecords :
    (∃ s : State, s = routing [(1, spmAt 0), (2, 3)] (gateEntry true) ∧ (s.rg 2).toNat < 4 ∧ s.partOf (routingCore 3) = s.partOf s.cur.core ∧
      (s.rg 1).toNat % 16 = 0 ∧ (spmAt 8).toNat % 16 ≠ 0 ∧ s.partOf (routingCore 3) ≠ (s.modPart 0 fun p => { p with pmap := [0xFFFF, 0, 0, 0] }).partOf (routingCore 3) ∧
      succeeds (loadWords (s.rg 1) 10 s) (fun e u => succeeds (gateCheck e u) fun _ w => succeeds (drain w) fun _ v => v.cur = s.cur &&
        !v.task.stepping && (v.dieAt 3).gate.length < 512 && (tabGet v.ports (portKey 0 3) []).isEmpty) = true) ∧
    (∃ s : State, s = next (.gpush 1 2) (routing [(1, spmAt 0), (2, 0)] (gateEntry true)) ∧
      ((s.dieAt 0).gate.length < 512 && (s.dieAt 0).ring.findIdx? (fun f => match f.packet.kind with | .gate .. => true | _ => false) == some 0 &&
        ((s.dieAt 0).ring[0]?).any (fun f => match f.packet.kind with | .gate e _ => e == gateEntry true | _ => false)) = true) ∧
    (∃ s : State, s = routing [(1, spmAt 0)] [] [] (fun d => { d with gate := [gateEntry true] }) ∧ (s.rg 1).toNat % 16 = 0 ∧
      (s.dieAt 0).gate = gateEntry true :: [] ∧ (gateEntry true).length = 10 ∧
      succeeds (checkStores (storePieces (s.rg 1) ((gateEntry true).flatMap bytesOf) 10) s) (fun ps p => (p.coreAt 0).sb.length ≤ 6 &&
        succeeds (enterStores ps (p.modDie 0 fun d => { d with gate := [] })) fun _ v => !v.task.stepping) = true) ∧
    (∃ s : State, s = routing [(1, spmAt 0)] ∧ (s.dieAt 0).gate = [] ∧
      succeeds (checkStores (storePieces (s.rg 1) (List.replicate 80 0) 10) s) (fun _ p => !p.task.stepping) = true) ∧
    remits (routing [(1, spmAt 0)] (gateEntry true) (cellsSet [] 0x10000 halfFour)) (gateEntry true) [fp32.decode false 0x3F800000]
      (fun b => (halfOf (b.take 32)).v) = true ∧
    remits (routing [(1, spmAt 0)] (gateEntry true) (cellsSet [] 0x10020 halfFour)) (gateEntry true) [fp32.decode false 0x3F800000]
      (fun b => !(halfOf (b.take 32)).v && (halfOf (b.drop 32)).v) = true ∧
    (∃ s : State, s = routing [(1, spmAt 0)] (gateEntry false 1) (cellsSet [] 0x10040 halfFour) ∧
      remits s (gateEntry false 1) [fp32.decode false 0x3F800000] (fun b => !(halfOf (b.drop 32)).v && (halfOf (b.take 32)).v) = true ∧
      succeeds (checkStores (storePieces 0x10060 halfFour 4) s) (fun ps p => succeeds (checkStores [(0x10040, bytesOfNat 4 24)] p) fun qs q =>
        succeeds (drain q) fun _ v => succeeds (ownStores (ps ++ qs) v) fun _ x => succeeds (enterStores (ps ++ qs) x) fun _ y =>
          succeeds (drain y) fun _ z => !z.task.stepping) = true) ∧
    (∃ s : State, s = routing [(1, spmAt 0)] (gateEntry true 2) ∧ (s.rg 1).toNat % 16 = 0 ∧
      succeeds (loadWords (s.rg 1) 10 s) (fun e u => e = gateEntry true 2 && succeeds (gateCheck e u) fun _ w => w = u && u.cur = s.cur &&
        (u.dieAt 0).tbase + (u.dieAt 0).slotCap < gateTok (nth e 0 0)) = true) := by
  refine ⟨⟨_, rfl, by decide +kernel⟩, ⟨_, rfl, by decide +kernel⟩, ⟨_, rfl, by decide +kernel⟩, ⟨_, rfl, by decide +kernel⟩,
    by decide +kernel, by decide +kernel, ⟨_, rfl, by decide +kernel⟩, ⟨_, rfl, by decide +kernel⟩⟩

/-- An rsort descriptor: tokens 0 and on, `n` of them, names 4 and on, `nn` of them. -/
def sortWords (n nn : Nat) : List Word := [0x10400, 0x10800, 0x10C00, BitVec.ofNat 64 (n * 2 ^ 32), BitVec.ofNat 64 (4 + nn * 2 ^ 16), 0, 0, 0]

/-- An rmap descriptor: one token, rows of 32 bytes. -/
def mapWords : List Word := [0x10400, 0x10800, 0x10C00, 1, 32 + 32 * 2 ^ 32, 32, 0, 0]

/-- The sort engine of die 0 holds one command of the task of core 0. -/
def sorting (i : Instr) (w : List Word) (pos : Nat) (m : List Host.Cell := []) : State :=
  routing [] [] m fun d => { d with sort := [{ instr := i, words := w, core := 0, tid := 1, pc := 0x10000, asid := 0, priv := true, pos := pos }] }

/-- The head of die 0's sort engine. -/
def headSort (s : State) : SortCommand :=
  (s.dieAt 0).sort.headD { instr := .done, words := [], core := 0, tid := 0, pc := 0, asid := 0, priv := false }

/-- A read that succeeds with its value. -/
def good {α : Type} (x : Except (Nat × Word) α) (p : α → Bool) : Bool := match x with | .ok a => p a | .error _ => false

/-- A task that closes the step of name 4, with the commands `l` in its die's sort engine. -/
def closing (l : List SortCommand) : State :=
  { routing [(1, 0x1004)] [] [] (fun d => { d with sort := l }) with names := [(4, { defined := true }), (5, {})] }

theorem witness_SortEngineOrdersAndMovesRows :
    (∃ s : State, s = routing [(1, spmAt 0)] (sortWords 2 4096 |>.set 4 (BitVec.ofNat 64 (4096 * 2 ^ 16))) ∧ (s.rg 1).toNat % 64 = 0 ∧
      (spmAt 32).toNat % 64 ≠ 0 ∧ succeeds (loadWords (s.rg 1) 8 s) (fun w u => u.cur = s.cur && (w.take 3).all (fun x => x.toNat % 64 = 0) &&
        (w.drop 5).all (· = 0) && half32 w 28 = 2 && fieldOf (nth w 4 0) 31 16 = 4096 && half32 w 24 - (u.dieAt 0).tbase + 2 = (u.dieAt 0).slotCap + 1 &&
        (u.partAt 0).holdsNames 0 4096 && !(u.partAt 0).holdsNames 1 4096 && succeeds (drain u) fun _ v => v.cur = s.cur && !v.task.stepping &&
        (v.dieAt 0).sort.length < 16) = true ∧ ¬ (half32 (sortWords 8193 1) 28 ≤ 8192) ∧ half32 (sortWords 8192 1) 28 ≤ 8192 ∧
      (s.dieAt 0).slotCap + 1 < half32 (sortWords 3 1) 24 - (s.dieAt 0).tbase + 3) ∧
    (∃ s : State, s = routing [(1, spmAt 0)] mapWords ∧ (s.rg 1).toNat % 64 = 0 ∧ succeeds (loadWords (s.rg 1) 8 s) (fun w u => u.cur = s.cur &&
      w = mapWords && half32 w 24 = 1 && half32 w 32 = 32 && half32 w 36 % 32 = 0 && half32 w 40 % 32 = 0 &&
      succeeds (drain u) fun _ v => v.cur = s.cur && !v.task.stepping && (v.dieAt 0).sort.length < 16) = true ∧
      (nth mapWords 0 0).toNat % 32 = 0 ∧ (nth mapWords 1 0).toNat % 32 = 0 ∧ (nth mapWords 2 0).toNat % 32 = 0) ∧
    (∃ s : State, s = sorting (.rsort 1) (sortWords 2 1) 1 (cellsSet [] 0x10040 halfFour) ∧ SortFirst 0 (headSort s) [] s ∧
      (headSort s).instr = .rsort 1 ∧ (headSort s).pos < half32 (headSort s).words 28 ∧
      succeeds (readSlot 0 ((s.dieAt 0).slotAddr (0 + 1 - (s.dieAt 0).tbase)) s) (fun x u => good x (fun y => y.1.v && y.1.names = [4]) && (u.dieAt 0).sort = [headSort s]) = true) ∧
    (∃ s : State, s = (sorting (.rsort 1) (sortWords 2 1) 2).modDie 0 (fun d => { d with rstep := withField 0 36 20 65536, sort := d.sort.map fun c => { c with pairs := [4] } }) ∧
      SortFirst 0 (headSort s) [] s ∧ half32 (headSort s).words 28 ≤ (headSort s).pos ∧ 65536 < fieldOf (s.dieAt 0).rstep 36 20 + (headSort s).pairs.length) ∧
    (∃ s : State, s = (sorting (.rsort 1) (sortWords 2 1) 2).modDie 0 (fun d => { d with rstep := withField 0 36 20 65535, sort := d.sort.map fun c => { c with pairs := [4] } }) ∧
      SortFirst 0 (headSort s) [] s ∧ fieldOf (s.dieAt 0).rstep 36 20 + (headSort s).pairs.length = 65536 ∧
      (let l := sortPairs 4 1 (headSort s).pairs
       succeeds (sortPlaces 0 (headSort s) (rangePieces 0x10400 (8 * l.length) ++ rangePieces 0x10C00 8 ++ rangePieces 0x10800 64) s) (fun x u =>
        good x fun places => succeeds (sortWrite 0 places (l.flatMap bytesOf ++ sortOffsets 4 1 l ++ returnMap 0 2 l) u) fun _ v =>
          (v.dieAt 0).sort = [headSort s]) = true)) ∧
    ([(4 : Word), 5, 4].all fun w => 4 ≤ pairName w && pairName w < 4 + 2) = true ∧
    (∀ x ∈ [(Instr.rmap 1 0, 0, (0xFFFFFFFF#64)), (.rmap 1 0, 7, 0), (.rmap 1 1, 0, 0)], ∃ s : State, s = sorting x.1 mapWords x.2.1 (cellsSet [] 0x10400 (bytesOf x.2.2)) ∧
      SortFirst 0 (headSort s) [] s ∧ (let d := x.1 = .rmap 1 1
        x.2.1 < (if d then 1 else 8) ∧ succeeds (rowSource 0 (headSort s) d x.2.1 s) (fun y u => good y fun source =>
          succeeds ((match source with | none => pure (.ok ([], false)) | some ea => sortRead (headSort s) 0 [(ea, 32)] : M (Except (Nat × Word) (List Byte × Bool))) u) (fun z v =>
            good z fun b => !b.2 && succeeds (sortPlaces 0 (headSort s) [(0x10C00 + BitVec.ofNat 64 (32 * x.2.1), 32)] v) fun p w =>
              good p fun places => succeeds (sortWrite 0 places (List.replicate 32 0) w) fun _ t => (t.dieAt 0).sort = [headSort s])) = true)) ∧
    (∀ x ∈ [(Instr.rmap 1 0, 8), (.rmap 1 1, 1)], SortFirst 0 (headSort (sorting x.1 mapWords x.2)) [] (sorting x.1 mapWords x.2)) ∧
    (∃ s : State, s = closing [] ∧ fieldOf (s.rg 1) 63 25 = 0 ∧ fieldOf (s.rg 1) 24 12 = 1 ∧ s.task.begunOf s.cur.a < 5 ∧
      (s.partAt (s.partOf s.cur.core)).holdsNames 4 1 = true ∧ s.requestsAhead 4 1 = false ∧
      succeeds (drain s) (fun _ u => u.cur = s.cur && !u.task.stepping) = true ∧
      succeeds (clearSlots 0 false [0, 1] s) (fun _ o => o.cur = s.cur && !o.requestsAhead 4 1 && succeeds (drain o) fun _ u =>
        succeeds (clearSlots 0 false [0, 1] ((closeRange 4 1 u).begin (5 + u.nextUid))) fun _ v => succeeds (clearSlots 0 true [0, 1] v) fun _ w =>
          !w.task.stepping) = true ∧ fieldOf (0x1001000#64) 24 12 = 4097 ∧ fieldOf (0x1000000#64) 24 12 = 4096) ∧
    (∀ n ∈ [0, 9], ∃ s : State, s = (closing [{ id := n, instr := .rsort 1, words := [], core := 0, tid := 1, pc := 0, asid := 0, priv := true }]).begin 10 ∧
      5 ≤ s.task.begunOf s.cur.a ∧ ((∃ c ∈ (s.dieAt 0).sort, c.id + 5 < s.task.begunOf s.cur.a) ↔ n = 0) ∧
      (n = 9 → (∀ c ∈ (s.dieAt 0).sort, s.task.begunOf s.cur.a ≤ c.id + 5))) := by
  refine ⟨⟨_, rfl, by decide +kernel⟩, ⟨_, rfl, by decide +kernel⟩, ⟨_, rfl, ⟨rfl, by decide +kernel⟩, by decide +kernel⟩,
    ⟨_, rfl, ⟨rfl, by decide +kernel⟩, by decide +kernel⟩, ⟨_, rfl, ⟨rfl, by decide +kernel⟩, by decide +kernel⟩, by decide +kernel, fun x h => ?_, fun x h => ?_,
    ⟨_, rfl, by decide +kernel⟩, fun x h => ?_⟩
  all_goals simp only [List.mem_cons, List.not_mem_nil, or_false] at h
  · obtain rfl | rfl | rfl := h <;> exact ⟨_, rfl, ⟨rfl, by decide +kernel⟩, by decide +kernel⟩
  · obtain rfl | rfl := h <;> exact ⟨rfl, by decide +kernel⟩
  · obtain rfl | rfl := h <;> exact ⟨_, rfl, by decide +kernel⟩

/-- An rput descriptor of one chunk: bid 5, ring 2, the role, and `x` more in its word 5. -/
def putWords (backup : Bool) (x : Nat := 0) : List Word :=
  [0x10080, 0x10100, 0, 0, 0, BitVec.ofNat 64 (5 + 2 * 2 ^ 32 + (if backup then 2 ^ 36 else 0) + x), 0, 0]

/-- The ring entry of position `pos` of two, whose next position is on die 1. -/
def ringWord (pos : Nat) : Word := BitVec.ofNat 64 (1 + pos * 2 ^ 14 + 1 * 2 ^ 40 + 2 ^ 63)

/-- An rput of core 0's task that a bucket holds. -/
def aPut (backup : Bool := false) : ReducePut :=
  { id := 1, backup := backup, src := 0x10080, dst := 0x10100, res := 0, scl := 0x10200, notify := false, core := 0, tid := 1, pc := 0x10000,
    asid := 0, priv := true }

/-- Bucket 5 of ring 2 of partition 0, of one chunk. -/
def aBucket (f : Bucket → Bucket := id) : Bucket :=
  f { part := 0, ring := 2, bid := 5, nch := 1, fmt := 0, tk := 0, bk := false, deadline := 0, core := 0, tid := 1 }

/-- A privileged task with the words `w` in its scratchpad, at a position of ring 2, with the buckets `b` on its die. -/
def reducing (w : List Word) (pos : Nat) (b : List Bucket) (g : List (Nat × Word) := [(1, spmAt 0)]) : State :=
  (mapped (ruling g fun k => { k with spm := cellsSet [] 0 (w.flatMap bytesOf), rputs := [1] })).modDie 0 fun d => { d with
    rings := [(2, ringWord pos)], buckets := b }

/-- A chunk packet of bucket 5 before die 0. -/
def aChunk (final : Bool) : ChunkPacket :=
  { device := 0, die := 0, part := 0, ring := 2, bid := 5, index := 0, final := final, backups := 0, lowest := none,
    chunk := { codes := List.replicate 32 0x38, scale := 127 } }

/-- The descriptor reads, the stores drain, the bucket is as `f` has it. -/
def putReads (s : State) (w : List Word) (f : Option Bucket → State → Bool) : Bool :=
  (s.rg 1).toNat % 64 = 0 && succeeds (loadWords (s.rg 1) 8 s) fun x u => x = w && u.cur = s.cur && (w.take 3).all (fun y => y.toNat % 64 = 0) &&
    fieldOf (nth w 5 0) 31 28 = 0 && !bitOf (nth w 5 0) 38 && fieldOf (nth w 5 0) 63 45 = 0 && f (u.bucketOf 0 0 2 5) u &&
    succeeds (drain u) fun _ v => v.cur = s.cur && !v.task.stepping && v.coreOfTask v.task.tid = some 0 && v.bucketOf 0 0 2 5 = u.bucketOf 0 0 2 5

theorem witness_ReduceInstructionsAct :
    putReads (reducing (putWords false) 0 []) (putWords false) (fun b u => b.isNone && ringOn (u.ringOf 0 0 2) && (u.dieAt 0).buckets.length < 256) = true ∧
    putReads ((reducing (putWords false) 0 []).modDie 0 fun d => { d with rings := [] }) (putWords false) (fun _ u => !ringOn (u.ringOf 0 0 2)) = true ∧
    putReads (reducing (putWords false) 0 [aBucket fun b => { b with puts := [aPut] }]) (putWords false)
      (fun b _ => b.any fun b => b.puts.any fun p => p.backup = false) = true ∧
    putReads (reducing (putWords true) 0 [aBucket fun b => { b with puts := [aPut] }]) (putWords true)
      (fun b u => ringOn (u.ringOf 0 0 2) && b.any fun b => b.puts.all (fun p => p.backup ≠ true) && b.nch = 1 && b.fmt = 0 && b.tk = 0 && b.bk = false) = true ∧
    putReads (reducing (putWords true (2 ^ 16)) 0 [aBucket fun b => { b with puts := [aPut] }]) (putWords true (2 ^ 16))
      (fun b u => ringOn (u.ringOf 0 0 2) && b.any fun b => b.puts.all (fun p => p.backup ≠ true) && b.nch ≠ 2) = true ∧
    (fieldOf (ringWord 1) 62 42 = 0 ∧ ringPos (ringWord 1) < ringCount (ringWord 1) ∧ ringCount (ringWord 2) ≤ ringPos (ringWord 2) ∧
      ringOn (ringWord 0) = true ∧ ringDevice (ringWord 0) = (reducing [] 0 []).device ∧ ringDie (ringWord 0) ≠ 0 ∧ ringCount (ringWord 0) ≠ 1 ∧
      ringDevice 0x8000000010000001 ≠ (reducing [] 0 []).device ∧ (reducing [] 0 []).noRoute (ringDevice 0x8000000010000001) = true ∧
      (reducing [] 0 []).task.stepping = false ∧ (∃ b ∈ ((reducing [] 0 [aBucket]).dieAt 0).buckets, b.part = 0 ∧ b.ring = 2) ∧
      (∀ b ∈ ((reducing [] 0 [aBucket]).dieAt 0).buckets, ¬ (b.part = 0 ∧ b.ring = 3))) ∧
    (fieldOf (0xFFFF#64) 63 16 = 0 ∧ fieldOf (0x10000#64) 63 16 ≠ 0 ∧ (reducing [] 0 []).bucketOf 0 0 2 5 = none ∧
      (reducing [] 0 [aBucket]).bucketOf 0 0 2 5 = some aBucket) := by
  refine ⟨by decide +kernel, by decide +kernel, by decide +kernel, by decide +kernel, by decide +kernel,
    ⟨by decide, by decide, by decide, by decide, by decide, by decide, by decide, by decide, by decide, by decide, ⟨aBucket, .head _, rfl, rfl⟩, ?_⟩, by decide, by decide, rfl, rfl⟩
  intro b hb
  rw [show ((reducing [] 0 [aBucket]).dieAt 0).buckets = [aBucket] from rfl] at hb
  obtain rfl : b = aBucket := by simpa using hb
  simp [aBucket]

/-- The contribution read next is the one put of bucket 5 (PutNext). -/
def putNext (s : State) (b : Bucket) : Bool :=
  (((s.dieAt 0).buckets.flatMap fun b => b.puts.map fun p => (b, p)).filter fun x =>
      !x.2.arrived && (match s.rputHolder x.2.id with | some k => k.inOrder x.2.id | none => true)).foldl firstPut none == b.puts.head?.map fun p => (b, p)

theorem witness_ReduceEngineSumsAndWrites :
    ((reduceChunk none 255 [] false).1.nan = true ∧ (reduceChunk (some { codes := [], scale := 0, nan := true }) 0 [] false).1.nan = true ∧
      (reduceChunk none 0 (List.replicate 32 0x3F800000) false).1.nan = false ∧ (reduceChunk none 254 [0x7F800000] false).1.nan = true) ∧
    (∀ n ∈ [1, 2], ∀ s ∈ [reducing [] 1 [aBucket fun b => { b with nch := n, puts := [aPut] }]],
      putNext s (aBucket fun b => { b with nch := n, puts := [aPut] }) = true ∧ s.coreOfTask 1 = some 0 ∧
      succeeds (readChunk 0 (aBucket fun b => { b with nch := n, puts := [aPut] }) aPut s) (fun x u => good x fun q =>
        (if n = 2 then q.pos < 2 else n ≤ q.pos && !q.backup) && (u.bucketOf 0 0 2 5).any (fun x => x.deadline = 0 && x.writing.isNone &&
          x.taken.isNone && x.partials.isEmpty) && ringPos (u.ringOf 0 0 2) ≠ 0) = true) ∧
    (∃ s : State, s = reducing [] 1 [aBucket fun b => { b with puts := [{ aPut with src := spmAt (2 ^ 18) }] }] ∧
      putNext s (aBucket fun b => { b with puts := [{ aPut with src := spmAt (2 ^ 18) }] }) = true ∧
      succeeds (readChunk 0 (aBucket) { aPut with src := spmAt (2 ^ 18) } s) (fun x u => !(good x fun _ => true) &&
        (u.bucketOf 0 0 2 5).any fun x => !x.written) = true) ∧
    (∃ s : State, ∃ b : Bucket, b = aBucket (fun b => { b with
        puts := [{ aPut with src := spmAt (2 ^ 18) }, { aPut true with id := 2, arrived := true }], roles := [true], seen := [true] }) ∧
      s = reducing [] 1 [b] ∧ putNext s b = true ∧ succeeds (readChunk 0 b { aPut with src := spmAt (2 ^ 18) } s) (fun x u =>
        !(good x fun _ => true) && (u.bucketOf 0 0 2 5).any (fun x => !x.written && x.taken.isNone && x.deadline = 0 && !x.seen.contains false &&
          x.partials.isEmpty && ((x.puts.filter fun y => y.id ≠ 1).find? fun y => y.arrived && y.backup).isSome) &&
        ringPos (u.ringOf 0 0 2) ≠ 0) = true) ∧
    (∃ s : State, s = { reducing [] 1 [aBucket fun b => { b with deadline := 1, puts := [{ aPut true with arrived := true }] }] with now := 2 } ∧
      ((s.dieAt 0).buckets[0]?).any (fun b => s.bucketOf 0 b.part b.ring b.bid = some b && b.deadline ≠ 0 && b.taken.isNone && !b.deadlineMissed &&
        b.partials.isEmpty && (b.puts.find? fun p => p.arrived && p.backup).isSome) = true ∧ ringPos (s.ringOf 0 0 2) ≠ 0 ∧
      1 < s.now + Config.elapsed s.tick) ∧
    (∃ s : State, s = reducing [] 1 [aBucket fun b => { b with deadline := 1, puts := [aPut true] }] ∧
      ((s.dieAt 0).buckets[0]?).any (fun b => (b.puts.find? fun p => p.arrived && p.backup).isNone && b.deadline ≠ 0 && b.taken.isNone) = true) ∧
    (∀ x ∈ [(false, 0, false), (false, 0, true), (true, 1, false), (true, 0, false)], ∃ s : State, s = { reducing [] x.2.1 [aBucket fun b => { b with
          taken := if x.2.2 then some aPut else none }] with chunks := [aChunk x.1] } ∧
      (s.dieAt 0).buckets.find? Bucket.complete = none ∧ (s.bucketOf 0 0 2 5).any (fun b => b.accepts (aChunk x.1) && b.taken.isSome = x.2.2) = true ∧
      (s.chunks.filter fun q => q.device == s.device && q.die == 0 &&
        (match s.bucketOf 0 q.part q.ring q.bid with | some b => b.accepts q | none => false)) = [aChunk x.1] ∧
      (x.2.2 = true → ringPos (s.ringOf 0 0 2) + 1 ≠ ringCount (s.ringOf 0 0 2)) ∧ ringDevice (s.ringOf 0 0 2) = s.device ∧
      (x.1 = true → ((ringPos (s.ringOf 0 0 2) + 1) % ringCount (s.ringOf 0 0 2) = ringCount (s.ringOf 0 0 2) - 1) = (x.2.1 = 0))) ∧
    (∃ b : Bucket, b = aBucket (fun b => { b with finals := [(0, aChunk true)], puts := [{ aPut with arrived := true }] }) ∧
      ∃ s : State, s = reducing [] 1 [b] ∧ (s.dieAt 0).buckets.find? Bucket.complete = some b ∧ b.writing = none ∧
      b.puts.find? (·.arrived) = some { aPut with arrived := true } ∧ b.tk = 0 ∧ (b.finals.all fun c => !c.2.chunk.poisoned) = true ∧
      (let u := modBucket 0 0 2 5 (fun b => { b with writing := some 7 }) s
       u.coreOfTask 1 = some 0 ∧
       succeeds (issuerPlaces (dieTag 0 1) 0 0 true (rangePieces 0x10100 (b.header 7 ++ b.data).length ++ rangePieces 0 0) u) (fun x v =>
        good x fun places => succeeds (sortWrite 0 places (b.header 7 ++ b.data) v) fun _ w =>
          (w.bucketOf 0 0 2 5).any fun x => !x.written) = true)) ∧
    (∃ s : State, s = reducing [] 1 [aBucket fun b => { b with finals := [(0, aChunk true)] }] ∧
      ((s.dieAt 0).buckets.find? Bucket.complete).any (fun b => b.writing.isNone && (b.puts.find? (·.arrived)).isNone) = true) := by
  refine ⟨by decide +kernel, ?_, ⟨_, rfl, by decide +kernel⟩, ⟨_, _, rfl, rfl, by decide +kernel⟩, ⟨_, rfl, by decide +kernel, by decide +kernel, Nat.lt_of_lt_of_le (by decide) (Nat.le_add_right _ _)⟩,
    ⟨_, rfl, by decide +kernel⟩, fun x h => ?_, ⟨_, rfl, _, rfl, by decide +kernel⟩, ⟨_, rfl, by decide +kernel⟩⟩
  · intro n hn s hs
    simp only [List.mem_cons, List.not_mem_nil, or_false] at hn hs
    subst hs
    obtain rfl | rfl := hn <;> decide +kernel
  · simp only [List.mem_cons, List.not_mem_nil, or_false] at h
    obtain rfl | rfl | rfl | rfl := h <;> exact ⟨_, rfl, by decide +kernel⟩

/-- The action table of partition 0 with the entry of every code `e`. -/
def acting2 (e : Nat) (s : State) : State := s.modPart 0 fun p => { p with act := List.replicate 12 (BitVec.ofNat 64 (e * 0x0101010101010101)) }

/-- The site of a cause against core 0's task, with one copy where the entry reports. -/
def siteOf (s : State) (c : Cause) : TrapSite :=
  let e := (s.partAt 0).actionOf c.code
  { core := 0, urg := false, cause := c, task := (s.coreAt 0).b0, part := 0, entry := e, copies := if e / 4 % 2 = 1 then 1 else 0 }

/-- There is room on die 0 for the record of a cause. -/
def room (s : State) (n : Nat) : Bool := (s.dieAt 0).recordsOf 0 < 64 && (s.dieAt 0).roomFor 0 n

/-- Die 0 holds `n` copies for the supervisor of partition 0. -/
def recorded (n : Nat) (s : State) (r : RecordCopy := { part := 0, core := 0, words := List.replicate 8 0 }) : State :=
  s.modDie 0 fun d => { d with records := List.replicate n r }

theorem witness_TrapsMakeARecordAndApplyTheirAction :
    (∀ e ∈ [0, 1, 3, 4, 5, 7], ∃ s x, s = acting2 e (running []) ∧ x = siteOf s { code := 0x10, kind := .p } ∧ TrapSite.At x s ∧ x.entry % 4 = e % 4 ∧
      room s x.copies = true) ∧
    (∃ s x, s = recorded 64 (acting2 5 (running [])) ∧ x = siteOf s { code := 0x10, kind := .p } ∧ TrapSite.At x s ∧ ¬ (s.dieAt 0).recordsOf 0 < 64) ∧
    (∃ s x, s = recorded 63 (acting2 5 (running [])) ∧ x = siteOf s { code := 0x10, kind := .p } ∧ TrapSite.At x s ∧ (s.dieAt 0).recordsOf 0 < 64) ∧
    (∃ s x, s = acting2 0 (chan [] id fun k => { k with journal := [(3, { ep := 0, cls := 0, cap := 2, nibble := false, off := 0, size := 1, data := 0, tid := 1 })] }) ∧
      x = siteOf s { code := 0x25, kind := .a, jix := some 3 } ∧ TrapSite.At x s ∧ x.entry % 4 = 0 ∧ room s x.copies = true ∧
      (tabFind (s.coreAt 0).journal 3).isSome = true) ∧
    ((running []).coreAt 0).freeSlot = some 0 ∧ ((running []).coreAt 0).vectorDone 1 = true ∧
    (0xFF < 256 ∧ 7 < 8 ∧ 2047 < 2048 ∧ 4095 < 4096) ∧
    (∀ b ∈ [(0, false), (1, true)], ∃ s : State, s = (running []).modCore 0 (fun k => k.setBank b.2 { (k.bank b.2) with
        status := .waitsRecord, raising := [{ code := 0x10, kind := .p }] }) ∧ isCore 0 = true ∧ b.1 < 2 ∧
      ((s.coreAt 0).bank (b.1 == 1)).status = .waitsRecord ∧ ((s.coreAt 0).bank (b.1 == 1)).raising = [{ code := 0x10, kind := .p }]) ∧
    (∃ s : State, s = recorded 1 ((chan []).modPart 0 fun p => { p with supep := 0x10000000000#64 }) ∧
      (s.dieAt 0).records = { part := 0, core := 0, words := List.replicate 8 0 } :: [] ∧ bitOf (s.partAt 0).supep 40 = true ∧
      s.recordRoom (BitVec.ofNat 29 (fieldOf (s.partAt 0).supep 28 0)) (fieldOf (s.partAt 0).supep 31 29) = true ∧ s.fence = 0) ∧
    (∃ s : State, s = recorded 1 (chan []) { part := 0, core := 0, words := List.replicate 8 0, forward := some 1 } ∧ s.sendable 0 1 = true ∧
      capUsed (s.cap0 0 1) < capAllow (s.cap0 0 1) ∧ s.recordRoom (capEp (s.cap0 0 1)) (capClass (s.cap0 0 1)) = true) := by
  refine ⟨fun e h => ?_, ⟨_, _, rfl, rfl, ⟨rfl, rfl, rfl, by decide +kernel, rfl⟩, by decide +kernel⟩, ⟨_, _, rfl, rfl, ⟨rfl, rfl, rfl, by decide +kernel, rfl⟩, by decide +kernel⟩,
    ⟨_, _, rfl, rfl, ⟨rfl, rfl, rfl, by decide +kernel, rfl⟩, by decide +kernel⟩, by decide, by decide, by decide, fun b h => ?_,
    ⟨_, rfl, by decide +kernel⟩, ⟨_, rfl, by decide +kernel⟩⟩
  all_goals simp only [List.mem_cons, List.not_mem_nil, or_false] at h
  · obtain rfl | rfl | rfl | rfl | rfl | rfl := h <;> exact ⟨_, _, rfl, rfl, ⟨rfl, rfl, rfl, by decide +kernel, rfl⟩, by decide +kernel⟩
  · obtain rfl | rfl := h <;> exact ⟨_, rfl, by decide, by decide, rfl, rfl⟩

theorem witness_SystemRegistersFollowTheirMaps :
    (regMap (0xFFFF#16).toNat = none ∧ ((regMap 0x100).any fun m => m.allS) = true ∧ (running []).task.priv = false ∧
      ((regMap 0x0A).any fun m => !m.allS) = true ∧ ((regMap 0x23).any fun m => !m.allS) = true ∧ (regMap 0x118).isSome = true ∧
      (running []).task.stepping = false ∧ ((running []).coreAt 0).vq = [] ∧ ((running []).coreAt 0).mq = [] ∧
      ((running []).coreAt 0).mret = [] ∧ (ruling []).task.priv = true) ∧
    (∀ i ∈ [0, 63], ∃ m : RegMap, m = { rw := [(0, 0)], w1c := [(63, 63)], sup := [], allS := false } ∧ (∀ f ∈ m.rw ++ m.w1c ++ m.sup, f.2 ≤ f.1 ∧ f.1 < 64) ∧ i < 64 ∧
      (i = 0 → ∃ f ∈ m.rw, f.2 ≤ i ∧ i ≤ f.1) ∧ (i = 63 → (∃ f ∈ m.w1c, f.2 ≤ i ∧ i ≤ f.1) ∧ ¬ ∃ f ∈ m.rw, f.2 ≤ i ∧ i ≤ f.1)) ∧
    (∀ n ∈ [0x00, 0x0A, 0x0B, 0x102, 0x216], ∃ s m, s = ruling [(1, 7)] ∧ regMap n = some m ∧ s.task.priv = true ∧
      succeeds (writeReg { core := 0, urg := false, priv := true } n m (s.rg 1) s) (fun _ u => !u.task.stepping) = true) ∧
    ((regMap 0x01).isSome = true ∧ (running [] fun t => { t with lc := 1 }).task.lc ≠ 0 ∧ (running []).cur.a = false ∧
      (running []).task.frame.act = false ∧ (running []).pc ≠ (running []).task.le ∧
      fieldOf ((running [(1, 0x100000000)]).rg 1) 31 0 = 0 ∧ fieldOf ((running [(1, 1)]).rg 1) 31 0 ≠ 0) ∧
    ((regMap 0x200).isSome = true ∧ (((ruling []).modPart 1 fun p => { p with pmap := [1, 0, 0, 0] }).modPart 0 fun p => { p with pmap := [0, 0, 0, 0] }).partOf 0 ≠ 0) ∧
    (∃ s : State, s = (ruling []).modDie 0 (fun d => { d with eh := [0, 3, 0, 0, 0, 0] }) ∧ ∃ v : Word, v = withField (-1) 31 16 3 ∧
      reasonOf 1 = some 2 ∧ thresholdOf (withField v 63 56 0) 2 ≤ nth (s.inHour.dieAt 0).eh 1 0 ∧
      nth (s.inHour.dieAt 0).eh 1 0 < thresholdOf s.host.thr 2) ∧
    (∀ n ∈ [0x05, 0x216], ∃ s m, s = running [] ∧ isCore 2039 = true ∧ plainReg n = true ∧ regMap n = some m ∧
      succeeds (writeReg { core := 2039, urg := (s.coreAt 2039).b1.status == .running, priv := true } n m 1 s) (fun _ _ => true) = true) := by
  refine ⟨by decide +kernel, fun i h => ⟨_, rfl, ?_⟩, fun n h => ?_, by decide +kernel, ⟨by decide +kernel, by decide +kernel⟩,
    ⟨_, rfl, _, rfl, by decide +kernel⟩, fun n h => ?_⟩
  all_goals simp only [List.mem_cons, List.not_mem_nil, or_false] at h
  · obtain rfl | rfl := h <;> decide
  · obtain rfl | rfl | rfl | rfl | rfl := h <;> exact ⟨_, _, rfl, rfl, rfl, by decide +kernel⟩
  · obtain rfl | rfl := h <;> exact ⟨_, _, rfl, by decide +kernel, by decide +kernel, rfl, by decide +kernel⟩

/-- A launch record of `nblk` blocks of one core, carve 8 and slices of 16, with no group, dependence, status or image. -/
def launchWords (nblk : Nat := 1) (slice : Nat := 16) : List Word :=
  [0x10000, BitVec.ofNat 64 (nblk - 1 + 8 * 2 ^ 19 + slice * 2 ^ 23), 0, 0, 0, 0, 0, 9]

/-- Queue 3 of partition 0 holds `l` and may place them, of the boot state `b`. -/
def launching (l : List Launch) (b : Nat := 4) : State :=
  let s := (ruling [(1, spmAt 512)] fun k => { k with
    spm := cellsSet (cellsSet [] 512 ((launchWords).flatMap bytesOf)) (16 * 5) (bytesOf 0x803 ++ bytesOf 0) }).modQueue 0 3 fun q => { q with cfg := 0x10000, held := l }
  { s with host := { s.host with boot := b }, services := [(7, { part := 0, queue := 3, words := launchWords 2 })] }

theorem witness_LaunchesPlaceTheirBlocks :
    ([(25, none), (26, some 1), (0, some 1)].all fun x => launchReason State.reset 0 (launchWords 1 x.1) == x.2) = true ∧
    (launchReason State.reset 0 ((launchWords).set 2 0x100000000#64) = some 2 ∧ launchReason State.reset 1 launchWords = some 3 ∧
      launchReason State.reset 0 ((launchWords).set 0 (0x100000000000000#64)) = some 4 ∧ launchReason State.reset 0 ((launchWords).set 0 2#64) = some 4 ∧
      launchReason State.reset 0 ((launchWords).set 2 0x8000000000000000#64) = some 5) ∧
    (nth launchWords 5 0 = 0 ∧ nth launchWords 3 0 = 0 ∧ fieldOf (nth launchWords 1 0) 47 32 = 0) ∧
    (∃ s : State, s = launching (List.replicate 15 { words := launchWords }) ∧ s.task.priv = true ∧ succeeds (drain s) (fun _ u => (u.rg 1).toNat % 64 = 0 &&
      succeeds (loadWords (u.rg 1) 8 u) fun w v => w = launchWords && capKind (v.cap0 0 5) = 3 && bitOf (v.cap0 0 5) 11 &&
        (v.queueAt 0 3).held.length < 16 && succeeds (enterLaunch 0 3 w v) fun _ t => !t.task.stepping) = true ∧ capKind (s.cap0 0 6) ≠ 3 ∧
      (spmAt 32).toNat % 64 ≠ 0) ∧
    (∀ x ∈ [(4, 15, true), (4, 16, false), (3, 0, false)], ∃ s : State, s = launching (List.replicate x.2.1 { words := launchWords }) x.1 ∧
      (s.host.boot = 4 ∧ s.covesOf 0 ≠ [] ∧ (s.queueAt 0 3).held.length < 16) = (x.2.2 = true) ∧ s.covesOf 7 = [] ∧ 7 < 8 ∧ 63 < 64 ∧
      succeeds (enterLaunch 0 3 launchWords s) (fun _ _ => true) = true) ∧
    (∃ s : State, s = launching [{ words := launchWords }] ∧ (s.partAt 0).swState = 0 ∧ nth launchWords 5 0 = 0 ∧
      succeeds (nextPlacement 0 0 8 s) (fun x u => x == some (.new 3 launchWords none 0) && 1 ≤ (u.freeCores 0).length &&
        (u.freeCrew 0).isSome) = true) ∧
    (∃ s : State, s = (launching [{ words := launchWords }]).modPart 0 (fun p => { p with swState := 1 }) ∧ (s.partAt 0).swState ≠ 0) ∧
    ((512 / 4096 = 0 ∧ 512 % 4096 / 64 = 8) ∧ (4096 * 7 + 63 * 64) / 4096 < 8 ∧ ¬ 4096 * 8 / 4096 < 8) ∧
    (∃ s : State, s = launching [{ words := launchWords 2, started := some 7 }] ∧ (s.partAt 0).swState = 0 ∧
      succeeds (nextPlacement 0 0 8 s) (fun x u => x == some (.new 3 (launchWords 2) (some 7) 0) &&
        (tabFind u.services 7).isSome && 1 ≤ (u.freeCores 0).length) = true ∧ (∀ k < 4, bitOf (nth (launchWords 2) 2 0) (32 + k) = false)) ∧
    (∀ x ∈ [(2, 0, false), (2, 1, true), (1, 0, true)], ∃ s : State, s = { (blocked []).modCore 0 (fun k => { k with b0 := {} }) with
        services := [(0, { part := 0, queue := 0, words := launchWords x.1, ended := x.2.1 })] } ∧
      (tabFind s.blocks 0).any (fun b => !b.absent && b.cores.all fun c => (s.coreAt c).idle) = true ∧ s.ships = [] ∧
      (x.2.1 + 1 = fieldOf (nth (launchWords x.1) 1 0) 15 0 + 1) = (x.2.2 = true) ∧ succeeds (writeStatus 0 0 0 3 s) (fun _ _ => true) = true) := by
  refine ⟨by decide +kernel, by decide +kernel, by decide +kernel, ⟨_, rfl, by decide +kernel⟩, fun x h => ?_, ⟨_, rfl, by decide +kernel⟩, ⟨_, rfl, by decide +kernel⟩, by decide,
    ⟨_, rfl, by decide +kernel⟩, fun x h => ?_⟩
  all_goals simp only [List.mem_cons, List.not_mem_nil, or_false] at h
  · obtain rfl | rfl | rfl := h <;> exact ⟨_, rfl, by simp only [eq_iff_iff]; decide +kernel, by decide +kernel⟩
  · obtain rfl | rfl | rfl := h <;> exact ⟨_, rfl, by decide +kernel, rfl, by simp only [eq_iff_iff]; decide +kernel, by decide +kernel⟩

theorem witness_CoresStartAndStopTheirTasks :
    (∀ j ∈ [({ record := { entry := 0x10000 } } : Job)], ∃ s : State, s = (blocked []).modCore 0 (fun k => { k with b0 := {}, runN := [j] }) ∧
      isCore 0 = true ∧ s.coreGoes 0 = true ∧ (s.coreAt 0).b0.status = .empty ∧ (s.coreAt 0).b1.status = .empty ∧
      (s.coreAt 0).firstReady true = none ∧ (s.coreAt 0).runU = [] ∧ (s.coreAt 0).inbox = [] ∧ (s.coreAt 0).firstReady false = none ∧
      (s.coreAt 0).runN = j :: [] ∧ j.message = none ∧ j.shipped = none) ∧
    (∃ p, p = ({ task := { tid := 3, pc := 0x10000 }, v := Vector.replicate 32 0, vPoison := Vector.replicate 32 0, m := Vector.replicate 8 0, causes := [] } : Parked) ∧
      ∃ s : State, s = (blocked []).modCore 0 (fun k => { k with b0 := {}, parks := [(7, p)] }) ∧ (s.coreAt 0).firstReady false = some 7 ∧
        tabFind (s.coreAt 0).parks 7 = some p ∧ p.task.job.record.urg = false ∧ p.task.doze = none ∧ p.task.raising = [] ∧ p.task.heldFor = []) ∧
    (∀ j ∈ [({ record := { entry := 0x10000, urg := true } } : Job)], ∃ s : State, s = (blocked []).modCore 0 (fun k => { k with runU := [j], streak := 31 }) ∧
      (s.coreAt 0).b0.status = .running ∧ (s.coreAt 0).b0.begins = false ∧ (s.coreAt 0).b1.status = .empty ∧ (s.coreAt 0).b0.lee = 0 ∧ (s.coreAt 0).streak < 32 ∧
      (s.coreAt 0).firstReady true = none ∧ (s.coreAt 0).runU = j :: [] ∧ (s.coreAt 0).inbox = [] ∧ isPilot 0 = false ∧ (s.coreAt 0).b0.watch = none) ∧
    (((running []).modCore 0 fun k => { k with streak := 32 }).coreAt 0).streak = 32 ∧
    ((running [] fun t => { t with lee := 64 }).coreAt 0).b0.lee ≠ 0 ∧
    (∀ u ∈ [true, false], ∃ x, x = ({ entry := 0x10000, urg := u, ins := [some (5, 2)], outs := [], args := [1, 2, 3, 4, 5], counts := [2, 0, 0, 0] } : Actor) ∧
      ∃ s : State, s = (blocked []).modCore 0 (fun k => { k with actors := [(2, x)] }) ∧ isWork 0 = true ∧
        (s.coreAt 0).actors.find? (fun x => s.canFire 0 x.1 x.2) = some (2, x) ∧ (s.blockOf 0).isSome = true) ∧
    (∃ s : State, s = ((running [] fun t => { t with spin := { count := 64 } }).modPart 0 fun p => { p with act := List.replicate 12 0x0101010101010101 }) ∧ s.coreGoes 0 = true ∧
      (s.coreAt 0).slackDue true = false ∧ (s.coreAt 0).slackDue false = true ∧ (s.partAt (s.partOf 0)).actionOf 0x4F = 1 ∧
      (s.coreAt 0).freeSlot = some 0 ∧ (s.coreAt 0).vectorDone 1 = true ∧ room s 0 = true) ∧
    (∀ x ∈ [(true, 7, 24), (false, 8, 23)], ∃ j : Job, j = { record := { urg := x.1 } } ∧ ∃ s : State, s = { (blocked []).modCore 0 (fun k => { k with
        runU := List.replicate x.2.1 j, runN := List.replicate x.2.2 j }) with ships := [(0, j)] } ∧ s.ships.find? (fun x => x.1 == 0) = some (0, j) ∧
      (j.record.urg = true → (s.coreAt 0).runU.length < 8) ∧ (j.record.urg = false → (s.coreAt 0).runN.length < 24)) := by
  refine ⟨fun j h => ?_, ⟨_, rfl, _, rfl, by decide +kernel⟩, fun j h => ?_, by decide, by decide, fun u h => ?_, ⟨_, rfl, by decide +kernel⟩, fun x h => ?_⟩
  all_goals simp only [List.mem_cons, List.not_mem_nil, or_false] at h
  · subst h; exact ⟨_, rfl, by decide +kernel⟩
  · subst h; exact ⟨_, rfl, by decide +kernel⟩
  · obtain rfl | rfl := h <;> exact ⟨_, rfl, _, rfl, by decide +kernel⟩
  · obtain rfl | rfl := h <;> exact ⟨_, rfl, _, rfl, by decide +kernel⟩

/-- The block of core 0 has a memory park, the count trigger of one park, and an ebb area of `n` frames. -/
def ebbing (n : Nat) : State :=
  ((blocked []).modPart 0 fun p => { p with ebbCount := 1, ebbarea := BitVec.ofNat 64 (4 * 2 ^ 22 + n) }).modCore 0 fun k => { k with
    parks := [(0, { task := { tid := 3 }, v := Vector.replicate 32 0, vPoison := Vector.replicate 32 0, m := Vector.replicate 8 0
                    causes := [{ why := .regeneration }] })] }

theorem witness_BlocksEbbAndFlood :
    ((tabFind (ebbing 0).blocks 0).any (fun b => !b.absent && !b.ebbNoted && (ebbing 0).countTrigger b) = true ∧ ((ebbing 0).partAt 0).swState = 0 ∧ ((ebbing 0).partAt 0).switchAt = 0 ∧
      (List.range (fieldOf ((ebbing 0).partAt 0).ebbarea 15 0)).find? (fun i => !(ebbing 0).frames.contains (0, i)) = none) ∧
    ((tabFind (ebbing 1).blocks 0).any (fun b => !b.absent && (ebbing 1).countTrigger b && b.cores.all fun c => (ebbing 1).coreStopped c && !((ebbing 1).coreAt c).begun) = true ∧
      (List.range (fieldOf ((ebbing 1).partAt 0).ebbarea 15 0)).find? (fun i => !(ebbing 1).frames.contains (0, i)) = some 0 ∧
      succeeds (drainCores [0] (ebbing 1)) (fun _ u => succeeds (writeHeader 0 ((u.partAt 0).frameAt 0) [(0, 1), (1, 0), (2, 0), (3, 1), (4, 0), (5, 0), (6, 0), (7, 0)] u)
        fun _ _ => true) = true) ∧
    (∃ s : State, s = (let e := next (.ebb 0) (ebbing 1); { e with blocks := e.blocks.map fun b => (b.1, { b.2 with saved := b.2.saved.map fun k => { k with parks := [] } }) }) ∧
      (tabFind s.blocks 0).any (fun b => b.absent && b.gang.isNone && b.frame = some 0) = true ∧ (s.partAt 0).swState = 0 ∧ s.coveFor 0 1 1 = some 0 ∧
      succeeds (nextPlacement 0 0 8 s) (fun x u => x == some (.flood 0 0) && succeeds (writeHeader 0 ((s.partAt 0).frameAt 0) [(0, 0)] u) fun _ w =>
        1 ≤ (w.freeCores 0).length) = true) := by
  refine ⟨by decide +kernel, by decide +kernel, ⟨_, rfl, by decide +kernel⟩⟩

/-- A coherence message of line 9, whose home is die 0, alone on its pair, with the entry of the line and the copy that die 1 holds. -/
def coherent (src dst : Nat) (k : CohKind) (e : Option DirEntry := none) (l : Option LineState := none) (since : Nat := 0) : State :=
  let s : State := { State.reset with coh := [{ src := src, dst := dst, line := 9, kind := k }], now := since }
  let s := match e with | some e => s.modDie 0 fun d => { d with dir := [(9, e)] } | none => s
  match l with | some x => s.setL2 1 9 { state := x, slice := 9 } | none => s

/-- Its message, and that it comes first. -/
def cohIs (s : State) (src dst : Nat) (k : CohKind) : Prop :=
  ∀ m, s.coh = [m] → CohFirst s src dst 9 k m

/-- What a test of an entry's state says of a state. -/
def dirIs (s : State) (f : Option DirState → Bool) : Bool := f ((dirEntry s 9).map (·.state))

theorem witness_DirectoryKeepsItsTable :
    isHbmLine 9 = true ∧ homeDie (9 * 128) = 0 ∧
    (∀ own ∈ [false, true], ∀ e ∈ ([none, some { state := .s 0x1 }, some { state := .s 0x12 }, some { state := .s 0x2 }, some { state := .x 4 },
        some { state := .p 0 true false 0 [4] }, some { state := .r [4] 0 false }] : List (Option DirEntry)),
      ∃ s : State, s = coherent 1 0 (if own then .rdx false else .rds) e ∧ (∃ m, CohFirst s 1 0 9 (if own then .rdx false else .rds) m) ∧
        s.setFull 9 = false ∧ dirEntry s 9 = e ∧
        (match e with | some { state := .r .., .. } => True | _ => s.recallOf 9 = none)) ∧
    (∀ e ∈ ([none, some { state := .x 1 }, some { state := .s 0x2 }] : List (Option DirEntry)), ∀ k ∈ [CohKind.wb, .ce],
      ∃ s : State, s = coherent 1 0 k e ∧ (∃ m, CohFirst s 1 0 9 k m) ∧ dirEntry s 9 = e) ∧
    (∀ st ∈ [LineState.m, .e, .s], ∃ s : State, s = { coherent 1 0 .wb none (some st) with coh := [] } ∧ (s.l2Line 1 9).any (fun l => l.state = st && !l.nc) = true ∧
      isHostPa (9 * 128) = false ∧ 9 ∉ s.pinned 1 ∧ s.nextCoh 1 9 .wb = false ∧ s.nextCoh 1 9 .ce = false ∧ s.host.linkUp = true) ∧
    (∀ k ∈ [CohKind.gone, .invAck, .ownerAck, .ownerWb], ∀ w ∈ [[1], [1, 4]], ∃ s : State, s = coherent 1 0 k (some { state := .p 2 true false 0 w }) ∧
      (∃ m, CohFirst s 1 0 9 k m) ∧ dirIs s (fun e => e == some (.p 2 true false 0 w)) = true ∧ (w.erase 1 ≠ [] ↔ w = [1, 4])) ∧
    (∀ k ∈ [CohKind.fwds 3, .fwdx 3, .recall, .inv], ∀ l ∈ [none, some LineState.m, some .e], ∃ s : State, s = coherent 0 1 k none l ∧
      (∃ m, CohFirst s 0 1 9 k m) ∧ (s.l2Line 1 9).map (·.state) = l) ∧
    (∃ s : State, s = coherent 0 1 .inv (some { state := .r [4] 0 false }) none 20001 ∧ dirIs s (fun e => e == some (.r [4] 0 false)) = true ∧
      0 + 20000 < s.now + Config.elapsed s.tick) ∧
    (∀ h ∈ [([] : Tab Bool), [(9, false)]], ∃ s : State, s = { State.reset with hostLines := h } ∧ s.host.linkUp = true ∧ s.cohUnit 9 = 9 ∧ s.coh = [] ∧
      (s.dieAt (homeDie (9 * 128))).dir = [] ∧ (tabFind s.hostLines 9 = none ∨ tabFind s.hostLines 9 = some false)) ∧
    (isHostPa (2 ^ 44 * 128) = true ∧ State.reset.host.linkUp = true) := by
  refine ⟨by decide, by decide, fun own h e he => ⟨_, rfl, ?_⟩, fun e he k hk => ⟨_, rfl, ?_⟩, fun st h => ⟨_, rfl, ?_⟩, fun k hk w hw => ⟨_, rfl, ?_⟩,
    fun k hk l hl => ⟨_, rfl, ?_⟩, ⟨_, rfl, by decide, ?_⟩, fun h hh => ⟨_, rfl, ?_⟩, by decide⟩
  · simp only [List.mem_cons, List.not_mem_nil, or_false] at h he
    obtain rfl | rfl := h <;> obtain rfl | rfl | rfl | rfl | rfl | rfl | rfl := he <;>
      exact ⟨⟨_, rfl, rfl, rfl⟩, by decide +kernel, by decide +kernel, by first | trivial | decide +kernel⟩
  · simp only [List.mem_cons, List.not_mem_nil, or_false] at hk he
    obtain rfl | rfl := hk <;> obtain rfl | rfl | rfl := he <;> exact ⟨⟨_, rfl, rfl, rfl⟩, by decide +kernel⟩
  · simp only [List.mem_cons, List.not_mem_nil, or_false] at h
    obtain rfl | rfl | rfl := h <;> decide +kernel
  · simp only [List.mem_cons, List.not_mem_nil, or_false] at hk hw
    obtain rfl | rfl | rfl | rfl := hk <;> obtain rfl | rfl := hw <;> exact ⟨⟨_, rfl, rfl, rfl⟩, by decide +kernel⟩
  · simp only [List.mem_cons, List.not_mem_nil, or_false] at hk hl
    obtain rfl | rfl | rfl | rfl := hk <;> obtain rfl | rfl | rfl := hl <;> exact ⟨⟨_, rfl, rfl, rfl⟩, by decide +kernel⟩
  · exact Nat.lt_of_lt_of_le (by decide) (Nat.le_add_right _ _)
  · simp only [List.mem_cons, List.not_mem_nil, or_false] at hh
    obtain rfl | rfl := hh <;> decide +kernel

/-- A packet for the task of core 0's block, on the ring of die 0. -/
def arriving (k : PacketKind) (f : Core → Core := id) (p : Packet → Packet := id) : State :=
  (chan [] id f).modDie 0 fun d => { d with ring := [{ loop := 0, packet := p { kind := k, ep := 0, src := 0, tid := 1 } }] }

/-- A message header of class `c`, of kind `k`. -/
def header (c : Nat) (k : Nat := 0) : Word := BitVec.ofNat 64 (c * 2 ^ 29 + k * 2 ^ 50 + 2 ^ 34)

/-- The packet of such a state may act, and its target is core 0. -/
def arrives (s : State) : Bool :=
  ((s.dieAt 0).ring[0]?).any fun f => s.target 0 f.packet == .core 0 && f.packet.tide.isNone && (s.dieAt 0).ring.length = 1

theorem witness_PacketsActWhereTheyArrive :
    (∀ x ∈ [(7, 0, 0), (6, 0, 0), (6, 0x10000, 0x40), (0, 0x10000, 0)], ∃ s : State, s = arriving (.message (header x.1) 0 (List.replicate 8 0) true)
        (fun k => { k with hand := Vector.replicate 7 (BitVec.ofNat 64 x.2.1), mask := BitVec.ofNat 7 x.2.2 }) (fun p => { p with cls := x.1 }) ∧ arrives s = true ∧
      fieldOf (header x.1) 51 50 = 0 ∧ fieldOf (header x.1) 31 29 = x.1 ∧ (s.coreAt 0).inboxRoom x.1 = true ∧ (s.coreAt 0).actors = [] ∧ (s.coreAt 0).parks = [] ∧
      (s.coreAt 0).inbox = [] ∧ tabGet (s.dieAt 0).spill (stopOf 0) [] = [] ∧
      ((x.1 = 7 ∨ nth (s.coreAt 0).hand.toList x.1 0 &&& 0x00FFFFFFFFFFFFFC#64 = 0 ∨ (s.coreAt 0).mask.getLsbD x.1 = true) ↔ x.1 ≠ 0) ∧
      bitOf (header x.1) 32 = false ∧ (s.coreAt 0).runN.length < 24) ∧
    (∃ s : State, s = arriving (.message (header 3) 0 (List.replicate 8 0) true) (fun k => { k with
        inbox := (List.range 56).map fun i => { id := i, h0 := 0, h1 := 0, payload := [] } }) (fun p => { p with cls := 3 }) ∧ arrives s = true ∧
      (s.coreAt 0).inboxRoom 3 = false ∧ (tabGet (s.dieAt 0).spill (stopOf 0) []).length < 32) ∧
    (∃ s : State, s = (let s := arriving (.message (header 3) 0 (List.replicate 8 0) true) id (fun p => { p with cls := 3 })
        { s with blocks := s.blocks.map fun b => (b.1, { b.2 with absent := true, saved := [s.coreAt 0] }) }) ∧
      (match (s.dieAt 0).ring[0]? with | some f => s.target 0 f.packet == .saved 0 0 | none => false) = true ∧
      (tabFind s.blocks 0).any (fun b => (b.saved[0]?).any fun k => k.inboxRoom 3 && k.actors.isEmpty && k.parks.isEmpty) = true) ∧
    (∃ s : State, s = arriving (.message (header 3) 0 (List.replicate 8 0) true) id (fun p => { p with ep := 0x1000 }) ∧
      ((s.dieAt 0).ring[0]?).any (fun f => s.target 0 f.packet == .gone && f.packet.notice.isNone && f.packet.token.isNone && epDevice f.packet.ep = s.device) = true) ∧
    (∃ s : State, s = arriving (.bounceBack (header 3 2) 0 (List.replicate 8 0) 0 0 true none) ∧ arrives s = true ∧ s.killed.contains 1 = false ∧
      (s.coreAt 0).inboxRoom 7 = true ∧ fieldOf (header 3 2) 51 50 = 2 ∧ (s.coreAt 0).parks = [] ∧ capKind (s.cap0 0 (fieldOf (header 3 2) 37 34)) = 1) ∧
    (∀ x ∈ [(98040, 8, 0), (98041, 8, 0x24), (98303, 1, 0x24), (98304, 1, 0), (262143, 1, 0), (262144, 1, 0x25)], ∃ s : State,
      s = arriving (.pst 0 x.1 x.2.1 0) ∧ arrives s = true ∧ refusalOf (s.coreAt 0) (s.tableAt 0) x.1 x.2.1 = x.2.2) ∧
    (∀ x ∈ [(524287, 0), (524288, 0x25)], ∃ s : State, s = arriving (.pst4 0 x.1 1 0) ∧ arrives s = true ∧
      refusalOf (s.coreAt 0) (s.tableAt 0) (x.1 / 16 * 8) 8 = x.2) ∧
    (∃ s : State, s = arriving (.getRequest 0 0 32) ∧ arrives s = true ∧ (s.partAt 0).quiesce = false ∧
      ((s.dieAt 0).ring[0]?).any (fun f => epDevice f.packet.src = s.device && (f.packet.senderHome s).isNone) = true) ∧
    (∀ k ∈ [PacketKind.credit 3, .ack 2, .refusal 2 0x25], ∃ s : State, s = arriving k (fun k => { k with
        journal := [(2, { ep := 0, cls := 0, cap := 2, nibble := false, off := 0, size := 1, data := 0, tid := 1 })] }) ∧ arrives s = true ∧
      capKind (s.cap0 0 3) = 1 ∧ capUsed (s.cap0 0 3) ≠ 0 ∧ (tabFind (s.coreAt 0).journal 2).isSome = true) ∧
    (∃ s : State, s = { chan [] id fun k => { k with journal := [(2, { ep := 0, cls := 0, cap := 2, nibble := false, off := 0, size := 1, data := 0, tid := 1 })] }
        with now := 1000001 } ∧ (tabFind (s.coreAt 0).journal 2).any (fun x => !x.late && !x.kept && x.since = 0) = true ∧
      fieldOf (s.partAt (s.partOf 0)).acktmo 31 0 = 1000 ∧ 0 + 1000 * 1000 < s.now + Config.elapsed s.tick) ∧
    (∃ s : State, s = (chan []).modDie 0 (fun d => { d with spill := [(stopOf 0, [{ loop := 0, packet :=
        { kind := .message (header 3) 0 (List.replicate 8 0) true, ep := 0, src := 0 } }])] }) ∧
      (tabGet (s.dieAt 0).spill (stopOf 0) []).any (fun f => s.target 0 f.packet == .core 0 && (s.coreAt 0).inboxRoom f.packet.cls) = true ∧
      (s.coreAt 0).actors = [] ∧ (s.coreAt 0).parks = []) := by
  refine ⟨fun x h => ⟨_, rfl, ?_⟩, ⟨_, rfl, by decide +kernel⟩, ⟨_, rfl, by decide +kernel, by decide +kernel⟩, ⟨_, rfl, by decide +kernel⟩, ⟨_, rfl, by decide +kernel⟩,
    fun x h => ⟨_, rfl, ?_⟩, fun x h => ⟨_, rfl, ?_⟩, ⟨_, rfl, by decide +kernel⟩, fun k h => ⟨_, rfl, ?_⟩,
    ⟨_, rfl, by decide +kernel, by decide +kernel, Nat.lt_of_lt_of_le (by decide) (Nat.le_add_right _ _)⟩, ⟨_, rfl, by decide +kernel⟩⟩
  all_goals simp only [List.mem_cons, List.not_mem_nil, or_false] at h
  · obtain rfl | rfl | rfl | rfl := h <;> decide +kernel
  · obtain rfl | rfl | rfl | rfl | rfl | rfl := h <;> decide +kernel
  · obtain rfl | rfl := h <;> decide +kernel
  · obtain rfl | rfl | rfl := h <;> decide +kernel

/-- A message packet of partition 0 for the block of core 0. -/
def aPacket (f : Packet → Packet := id) : Packet :=
  f { kind := .message (header 3) 0 (List.replicate 8 0) true, ep := 0, src := 0, tid := 1 }

/-- The link from die 1 to die 0 carries one packet. -/
def linked (p : Packet) (f : Die → Die := id) (now : Nat := 0) : State :=
  { (chan []).modDie 0 f with links := [(portKey 1 0, [p])], now := now }

/-- A stamp of epoch `e` whose count for the pair of dies 1 and 0 is `n`. -/
def stamped (n : Nat) (e : Nat := 0) : Packet := aPacket fun p => { p with stamp := some { cnt := [0, 0, 0, n, 0, 0, 0, 0, 0, 0, 0, 0], epoch := e } }

theorem witness_LinlosDeliversInCausalOrder :
    (∃ s : State, s = linked (aPacket) ∧ (tabGet s.links (portKey 1 0) []).head?.any (fun p => p.tide.isNone && p.stamp.isNone && !p.isFree) = true ∧
      s.linkChoices 1 0 (tabGet s.links (portKey 1 0) []) = [0]) ∧
    State.reset.linkChoices 1 0 (tabGet State.reset.links (portKey 1 0) []) = [] ∧ (aPacket fun p => { p with kind := .ack 0 }).isFree = true ∧
    (∀ x ∈ [(1, 1, true), (2, 2, false), (2047, 2047, false), (2048, 2048, false)], ∃ s : State, s = linked (stamped x.1) ∧ pairIndex 1 0 = 3 ∧ (s.causalAt 0 0).epoch = 0 ∧
      (x.1 + 4096 - nth (s.causalAt 0 0).d 1 0) % 4096 = x.2.1 ∧ s.deliverable 1 0 (stamped x.1) = x.2.2 ∧ tabGet s.ports (portKey 1 0) [] = [] ∧
      (s.dieAt 0).pool = [] ∧ (s.dieAt 0).poolUsed 0 1 < 512 / max s.liveParts 1) ∧
    (∃ s : State, s = linked (stamped 2) (fun d => { d with pool := List.replicate 512 (1, aPacket) }) ∧ s.deliverable 1 0 (stamped 2) = false ∧
      512 / max s.liveParts 1 ≤ (s.dieAt 0).poolUsed 0 1) ∧
    (∃ s : State, s = linked (stamped 1 1) ∧ (s.causalAt 0 0).epoch ≠ 1 ∧ (stamped 1 1).notice = none ∧ (stamped 1 1).token = none ∧ s.fence = 0) ∧
    (22 < 23 ∧ (State.reset.dieAt 0).eh.length = 6 ∧ linkDies 0 ≠ [] ∧ ({ State.reset with host := { State.reset.host with repl := 0x10 } }).host.repl.getLsbD 4 = true) ∧
    (∃ s : State, s = linked (aPacket) (fun d => { d with pool := [(1, aPacket)] }) 100001 ∧ (s.dieAt 0).pool[0]? = some (1, aPacket) ∧ (aPacket).paged = false ∧
      fieldOf (s.partAt 0).tpage 31 0 = 100 ∧ (aPacket).since + 100 * 1000 < s.now + Config.elapsed s.tick) ∧
    (({ State.reset with fence := 1 }).fenced 0 1 = true ∧ ({ State.reset with fence := 1 }).fenced 1 0 = true ∧ State.reset.fenced 0 1 = false) ∧
    (State.reset.drained 0 = false ∧ ((State.reset.modPart 0 fun p => { p with drained := true, quiesce := true }).drained 0 = true) ∧
      (State.reset.partAt 0).cleared = false ∧ ((State.reset.modPart 0 fun p => { p with cleared := true }).partAt 0).cleared = true ∧ 7 < 8) := by
  refine ⟨⟨_, rfl, by decide +kernel⟩, by decide +kernel, by decide +kernel, fun x h => ⟨_, rfl, ?_⟩, ⟨_, rfl, by decide +kernel⟩, ⟨_, rfl, by decide +kernel⟩, by decide +kernel,
    ⟨_, rfl, rfl, by decide, by decide, Nat.lt_of_lt_of_le (by decide) (Nat.le_add_right _ _)⟩, by decide, by decide +kernel⟩
  simp only [List.mem_cons, List.not_mem_nil, or_false] at h
  obtain rfl | rfl | rfl | rfl := h <;> decide +kernel

/-- Device 1 is reached over port 2 by path 0, whose entry is valid; every port is enabled. -/
def tidal (f : State → State := id) : State :=
  f { chan [] with mem := cellsSet [] 0x20020 [0x12], rtbase := 0x20000, tidecfg := 0xFFFF000 }

/-- A packet from device 1. -/
def fromFar (ep : BitVec 29) (cs : Option (List Nat) := none) : Packet :=
  aPacket fun p => { p with ep := ep, src := endpoint 0 0 0 1, tide := some { device := 1, path := 0, ordered := cs } }

theorem witness_TidesCarryPackets :
    (∀ x ∈ [(endpoint 0 0 0 0, 0), (endpoint 0 0 1 0, 1), (endpoint 0 0 0 1, 2), (endpoint 0 0 0 2, 3)], ∃ s : State,
      s = tidal (fun s => { s with tideIn := [(2, [fromFar x.1])] }) ∧ tabGet s.tideIn 2 [] = fromFar x.1 :: [] ∧ 15 < 16 ∧
      (fromFar x.1).home = none ∧ (x.2 ≤ 1 ↔ epDevice x.1 = s.device) ∧ (x.2 ≤ 1 → (x.2 = 1 ↔ epDie x.1 ≠ 2 / 4)) ∧ (x.2 = 2 → s.pathValid 1 0 = true ∧ s.pathPort 1 0 / 4 = 0) ∧
      (x.2 = 3 → s.pathValid 2 0 = false) ∧ s.fenced 0 1 = false ∧ (s.partAt 0).quiesce = false ∧ s.ports = [] ∧ s.fence = 0) ∧
    ((tidal).pathValid 1 0 = true ∧ nth ((tidal).peerAt 1).up 0 true = true ∧ 3 < 4 ∧ 0 < ((tidal).peerAt 1).up.length ∧ bitOf (tidal).tidecfg (12 + (tidal).pathPort 1 0) = true ∧
      (tidal fun s => s.modPeer 1 fun x => { x with up := [false, true, true, true] }).pathUp 1 0 = false ∧
      (∀ k < 4, (tidal fun s => s.modPeer 1 fun x => { x with up := [false, true, true, true] }).pathUp 1 k = false) ∧
      (tidal fun s => s.modPeer 1 fun x => { x with down := true }).pathUp 1 0 = true ∧ ((tidal).peerAt 1).down = false ∧ (tidal).noRoute 1 = false ∧ 1 ≠ (tidal).device ∧
      ((tidal fun s => s.modPeer 1 fun x => { x with sent := [1, 0, 0, 0] }).peerAt 1).sent ≠ ((tidal fun s => s.modPeer 1 fun x => { x with sent := [1, 0, 0, 0] }).peerAt 1).acked) ∧
    (∀ x ∈ [(0, true), (32768, false), (32769, true)], (tidal).countsMet (fromFar 0 (some [x.1, 0, 0, 0])) = x.2) ∧
    (∃ s : State, s = tidal (fun s => s.modDie 0 fun d => { d with ring := [{ loop := 0, packet := fromFar 0 (some [1, 0, 0, 0]) }] }) ∧
      (s.dieAt 0).ring[0]? = some { loop := 0, packet := fromFar 0 (some [1, 0, 0, 0]) } ∧ epDevice (0 : BitVec 29) = s.device ∧
      s.countsMet (fromFar 0 (some [1, 0, 0, 0])) = false ∧ s.target 0 (fromFar 0 (some [1, 0, 0, 0])) = .core 0) ∧
    (∃ s : State, s = tidal (fun s => s.modDie 0 fun d => { d with flags := [fromFar 0 (some [0, 0, 0, 0])] }) ∧
      (s.dieAt 0).flags = fromFar 0 (some [0, 0, 0, 0]) :: [] ∧ s.countsMet (fromFar 0 (some [0, 0, 0, 0])) = true ∧
      s.target 0 (fromFar 0 (some [0, 0, 0, 0])) = .core 0 ∧ (s.coreAt 0).inboxRoom 0 = true) ∧
    (∀ x ∈ [aPacket fun p => { p with ep := endpoint 0 0 0 1, tide := some { device := 1, path := 0 } }, aPacket fun p => { p with ep := endpoint 0 0 1 0 }, fromFar (endpoint 0 0 1 0)],
      ∃ s : State, s = tidal (fun s => s.modDie 0 fun d => { d with ring := [{ loop := 0, packet := x }] }) ∧
        FlightReady s 0 0 { loop := 0, packet := x } ∧ (s.peerAt 1).down = false ∧
        (s.target 0 x = .port 2 ∨ s.target 0 x = .away 1 ∧ tabGet s.ports (portKey 0 1) [] = [] ∧ s.fenced 0 1 = false ∧
          s.quiets x = false ∧ tabGet s.unacked (x.part * 16 + portKey 0 1) 0 < 2047)) ∧
    (∃ s : State, s = tidal (fun s => s.modPeer 1 fun x => { x with
        up := [false, true, true, true], flags := [aPacket fun p => { p with ep := endpoint 0 0 0 1 }] }) ∧ s.stranded = [] ∧
      (∀ k < 4, s.pathUp 1 k = false) ∧ s.noRoute 1 = false ∧ ∀ p ∈ (s.peerAt 1).flags, p.notice = none ∧ p.token = none ∧
        epDevice p.src = s.device ∧ epDevice p.ep = 1) := by
  unfold FlightReady
  refine ⟨fun x h => ⟨_, rfl, ?_⟩, by decide +kernel, by decide +kernel, ⟨_, rfl, by decide +kernel⟩, ⟨_, rfl, by decide +kernel⟩,
    fun x h => ⟨_, rfl, ?_⟩, ⟨_, rfl, by decide +kernel⟩⟩
  all_goals simp only [List.mem_cons, List.not_mem_nil, or_false] at h
  · obtain rfl | rfl | rfl | rfl := h <;> decide +kernel
  · obtain rfl | rfl | rfl := h <;> decide +kernel

/-- Partition 0 selects a place of core 0, whose slot 3 holds a task parked for a cause, cleared or not, for a debugger or not. -/
def steering (place : Nat) (cleared debug : Bool := false) : State :=
  ((mapped (ruling [])).modPart 0 fun p => { p with tsel := BitVec.ofNat 64 (place * 2 ^ 11) }).modCore 0 fun k => { k with
    parks := [(3, { task := { tid := 3, pc := 0x10000 }, v := Vector.replicate 32 0, vPoison := Vector.replicate 32 0, m := Vector.replicate 8 0, debug := debug
                    causes := [{ why := .cause 0x10 .p, cleared := cleared }] })] }

theorem witness_SupervisorsSteerTasksAndPartitions :
    (∀ x ∈ [(9, true), (10, false)], isCore 0 = true ∧ (running []).partOf 0 < 8 ∧ fieldOf (BitVec.ofNat 64 (x.1 * 2 ^ 11)) 10 0 = 0 ∧
      (fieldOf (BitVec.ofNat 64 (x.1 * 2 ^ 11)) 14 11 < 10) = (x.2 = true)) ∧
    (∀ x ∈ [(3, false, false, 3), (3, false, true, 5), (3, true, false, 4), (8, false, false, 1), (9, false, false, 0)],
      ((steering x.1 x.2.1 x.2.2.1).partAt 0).selected = (0, x.1) ∧ ((steering x.1 x.2.1 x.2.2.1).coreAt 0).taskState x.1 = x.2.2.2) ∧
    (((steering 8).modCore 0 fun k => { k with b0 := { k.b0 with status := .preempted } }).coreAt 0).taskState 8 = 2 ∧
    ((tabFind ((steering 3).coreAt 0).parks 3).any fun p => !p.task.frame.act && p.causes.all (fun x => !x.aSeq) && p.task.job.actor.isNone &&
      ((steering 3).wordAt 0 p.task.pc).isSome) = true ∧
    (∀ n ∈ [0, 1], ((((steering 8).modCore 0 fun k => { k with b0 := { k.b0 with begun := n } }).coreAt 0).bank false).begins = (n == 1)) ∧
    (∃ s : State, s = steering 3 ∧ (s.modCove 0 fun v => { v with tlb := [] }).wordAt 0 0x10000 = none) ∧
    (∀ x ∈ [(fieldOf (0x1000 : Word) 24 12, true), (0, false)], ∃ s : State, s = State.reset.modPart 1 (fun p => { p with
        pasid := withField 100 24 12 x.1 }) ∧
      ((∃ a ∈ List.range 4096, fieldOf (s.partAt 1).pasid 11 0 ≤ a ∧ a < fieldOf (s.partAt 1).pasid 11 0 + fieldOf (s.partAt 1).pasid 24 12) ↔ x.2 = true)) ∧
    (((steering 8).coreAt 0).vectorDone 1 = true ∧ ((steering 8).coreAt 0).freeSlot = some 0 ∧ ((steering 8).coreAt 0).b0.status ≠ .held) ∧
    (∃ s : State, s = (running []).modPart 0 (fun p => { p with cwdog := 1 }) ∧ fieldOf (s.partAt (s.partOf 0)).cwdog 31 0 ≠ 0 ∧
      ((s.coreAt 0).bank ((s.coreAt 0).b1.status == .running)).status = .running ∧ s.coreOfTask 1 = some 0) ∧
    (∃ s : State, s = State.reset ∧ 3 < (s.partAt 0).pmap.length ∧ (∀ k < 32, ∀ p < 8, p ≠ 0 → bitOf (nth (s.partAt p).pmap 3 0) k = false) ∧
      s.coveFree 127 = true ∧ (blocked []).coveFree 0 = false ∧ bitOf (nth (s.partAt 0).pmap 0 0) 0 = true) ∧
    ([(0x1000000, true), (0x1000001, false)].all fun (x : Word × Bool) => (fieldOf x.1 11 0 + fieldOf x.1 24 12 ≤ 4096) == x.2) = true ∧
    (∃ s : State, s = State.reset ∧ s.routingIdle 3 = true ∧ (s.coreAt (routingCore 3)).block = none ∧ Memory.wf (s.coreAt (routingCore 3)).spm = true ∧
      (after (.ok () (s.modCore (routingCore 3) fun k => { k with b0 := { k.b0 with status := .running } }) : EStateM.Result Stop State Unit)).routingIdle 3 = false) := by
  refine ⟨fun x h => ?_, fun x h => ?_, by decide +kernel, by decide +kernel, by decide +kernel, ⟨_, rfl, by decide +kernel⟩, fun x h => ⟨_, rfl, ?_⟩,
    by decide +kernel, ⟨_, rfl, by decide +kernel⟩, ⟨_, rfl, by decide +kernel⟩, by decide +kernel, ⟨_, rfl, by decide +kernel⟩⟩
  all_goals simp only [List.mem_cons, List.not_mem_nil, or_false] at h
  · obtain rfl | rfl := h <;> simp only [eq_iff_iff] <;> decide +kernel
  · obtain rfl | rfl | rfl | rfl | rfl := h <;> decide +kernel
  · obtain rfl | rfl := h
    · exact ⟨fun _ => rfl, fun _ => ⟨100, by simp, by decide +kernel⟩⟩
    · exact ⟨fun ⟨a, _, h, k⟩ => absurd (Nat.lt_of_le_of_lt h k) (by decide), nofun⟩

/-- Partition 0 stops, or saves and loads, with the areas named. -/
def switching (out inn : Word) (st : Nat := 1) : State := (ruling []).modPart 0 fun p => { p with swState := st, swout := out, swin := inn }

theorem witness_GangsSwitchAtTheirTime :
    (∃ s : State, s = { (running []).modPart 0 (fun p => { p with switchAt := 5 }) with now := 5 } ∧ (s.partAt 0).swState ≠ 1 ∧ (s.partAt 0).swState ≠ 2 ∧ (s.partAt 0).switchAt ≠ 0 ∧
      (s.partAt 0).switchAt.toNat ≤ s.now + Config.elapsed s.tick) ∧
    ((running []).partAt 0).switchAt = 0 ∧
    (∀ out ∈ [(0 : Word), 0x100001], ∀ inn ∈ [(0 : Word), 0x200001], ∃ s : State, s = switching out inn 2 ∧ (switching out inn).stopped 0 = true ∧
      (s.partAt 0).swState = 2 ∧ s.stopped 0 = true ∧
      succeeds (drainCores [0] s) (fun _ u => (out = 0x100001) = (imageArea (u.partAt 0).swout).isSome && (inn = 0x200001) = (imageArea (u.partAt 0).swin).isSome &&
        u.firstCove 0 = some 0 && succeeds (writeHeader 0 0x100000 (imageHeader 7 (u.residentOf 0).length) u) fun _ w =>
          ((imageArea (u.partAt 0).swin).bind w.gangIn).isNone) = true) ∧
    (∃ s : State, s = { switching 0 0 with now := 20001 } ∧ fieldOf (s.partAt 0).swlim 31 0 = 20000 ∧ (s.partAt 0).swNoted = false ∧
      (s.partAt 0).switchedAt + 20000 < s.now + Config.elapsed s.tick) := by
  refine ⟨⟨_, rfl, by decide, by decide, by decide, Nat.le_add_right _ _⟩, by decide, fun o h i k => ⟨_, rfl, ?_⟩,
    ⟨_, rfl, by decide, by decide, Nat.lt_of_lt_of_le (by decide) (Nat.le_add_right _ _)⟩⟩
  simp only [List.mem_cons, List.not_mem_nil, or_false] at h k
  obtain rfl | rfl := h <;> obtain rfl | rfl := k <;> decide +kernel

/-- The host unit after a change, over a state. -/
def hosting (f : HostUnit → HostUnit) (s : State := State.reset) : State := { s with host := f s.host }

theorem witness_HostAndHealthEventsAct :
    (State.reset.host.linkUp = true ∧ (hosting fun h => { h with linkUp := false }).host.linkUp = false ∧ (∀ d < 4, (State.reset.dieAt d).l2 = [])) ∧
    (∃ s : State, s = (hosting fun h => { h with pageRequests := [(127, 7)] }).modCove 127 (fun v => { v with tickets := [(7, { host := true, va := 0, asid := 0, engines := [] })] }) ∧
      s.host.pageRequests.contains (127, 7) = true ∧ (tabFind (s.coveAt 127).tickets 7).isSome = true ∧ (s.coreAt (pilotOf 127)).inboxRoom 0 = true) ∧
    (∃ g : Gang, g = { part := {}, coves := [(3, { tickets := [(7, { host := true, va := 0, asid := 0, engines := [] })] })] } ∧
      ∃ s : State, s = { State.reset with gangs := [(0x100000, g)] } ∧ s.host.pageRequests.contains (3, 7) = false ∧
        s.gangs.find? (fun x => x.2.awaits 3 7) = some (0x100000, g) ∧ tabFind s.gangs 0x100000 = some g) ∧
    (∀ b ∈ [0, 5], (hosting fun h => { h with boot := b }).host.boot = 0 ∨ (hosting fun h => { h with boot := b }).host.boot = 5) ∧
    (∀ x ∈ [((1 : BitVec 32), true), (0x4000000, true), (0x4000001, false), (0, false)], ∃ h, h = (hosting fun h => { h with boot := 1, fwlen := x.1 }).host ∧ h.boot = 1 ∧
      (h.fwlen ≠ 0 ∧ h.fwlen.toNat ≤ 64 * 2 ^ 20) = (x.2 = true)) ∧
    (∃ s : State, s = hosting (fun h => { h with boot := 1, fwlen := 1 }) ∧
      (Config.imageLength s.hostImage = s.host.fwlen.toNat ∨ Config.imageLength s.hostImage ≠ s.host.fwlen.toNat)) ∧
    (∀ v ∈ [(4 : BitVec 32), 5], ∃ s : State, s = hosting (fun h => { h with boot := 2, ver := v, floor := 5 }) ∧ s.host.boot = 2 ∧
      (Config.imageValid s.host.image = true ∨ Config.imageValid s.host.image = false) ∧ (s.host.floor.toNat ≤ s.host.ver.toNat ↔ v = 5)) ∧
    (∀ n ∈ [0, 1], ∃ s : State, s = hosting (fun h => { h with boot := 3, leaves := n }) ∧ s.host.boot = 3 ∧ (s.host.leaves = 0 ↔ n = 0)) ∧
    (State.reset.host.boot < 16 ∧ State.reset.host.why < 256 ∧ State.reset.host.idl < 2 ^ 21 ∧ State.reset.host.atl < 2 ^ 11 ∧
      State.reset.host.bcnt < 2 ^ 32 ∧ State.reset.host.ast < 4) ∧
    ((hosting fun h => { h with ast := 1, atl := 52 }).host.ast = 1 ∧ (hosting fun h => { h with ast := 1, atl := 52 }).host.atl ≠ 0 ∧ State.reset.host.ast ≠ 1) ∧
    (∃ s : State, s = ((hosting (fun h => { h with repl := 0x08 }) (running [])).modCore 0 fun k => { k with icache := [(0x4000, 0)] }).setL2 0 9 { state := .m, slice := 9 } ∧
      (s.dieAt 0).eh.length = 6 ∧ (∃ l ∈ (s.dieAt 0).l2, 1152 / 128 ∈ unitLines l.1 l.2.sq) ∧ isCore 0 = true ∧ (tabFind (s.coreAt 0).icache (0x10000 / 4)).isSome = true ∧
      s.host.repl.getLsbD 3 = true ∧ 0 < hbmEnd ∧ 262143 < 262144) ∧
    (∃ s : State, s = { State.reset with now := 3600000000001 } ∧ s.host.hour < (s.now + Config.elapsed s.tick - 1) / 3600000000000) ∧
    (∃ h, h = (hosting fun h => { h with power := 3201 }).host ∧ (if h.cap = 0 then 3200 else h.cap) < h.power ∧ h.throttled = false) ∧
    (∃ h, h = (hosting fun h => { h with temp := 105 }).host ∧ h.tlim ≤ h.temp) ∧
    (∃ s : State, s = { hosting (fun h => { h with throttled := true, power := 3200, temp := 104 }) with now := 1000000 } ∧
      ¬ ((if s.host.cap = 0 then 3200 else s.host.cap) < s.host.power ∨ s.host.tlim ≤ s.host.temp) ∧ s.host.throttled = true ∧
      s.host.hotAt + 1000000 ≤ s.now + Config.elapsed s.tick) := by
  refine ⟨⟨by decide, by decide, fun d _ => rfl⟩, ⟨_, rfl, by decide +kernel⟩, ⟨_, rfl, _, rfl, by decide +kernel⟩, fun b h => ?_, fun x h => ⟨_, rfl, ?_⟩,
    ⟨_, rfl, Decidable.em _⟩, fun v h => ?_, fun n h => ⟨_, rfl, ?_⟩, by decide, by decide, ⟨_, rfl, by decide +kernel⟩,
    ⟨_, rfl, Nat.div_pos (Nat.le_sub_one_of_lt (Nat.lt_of_lt_of_le (by decide) (Nat.le_add_right _ _))) (by decide)⟩, ⟨_, rfl, by decide⟩, ⟨_, rfl, by decide⟩, ⟨_, rfl, by decide, by decide, Nat.le_add_right _ _⟩⟩
  all_goals simp only [List.mem_cons, List.not_mem_nil, or_false] at h
  · obtain rfl | rfl := h <;> decide
  · obtain rfl | rfl | rfl | rfl := h <;> simp only [eq_iff_iff] <;> decide +kernel
  · obtain rfl | rfl := h <;> exact ⟨_, rfl, rfl, by simp, by decide⟩
  · obtain rfl | rfl := h <;> decide

/-- A word stands at the program's base of a mapped task. -/
def fetching (w w' : BitVec 32) (f : Task → Task := id) : State :=
  { mapped (running [] f) with mem := cellsSet [] 0x10000 (bytesOfWord w ++ bytesOfWord w') }

/-- The state that a fetch at the PC leaves, of the word expected. -/
def fetches (s : State) (p : Word) (via : Option Word) (w : BitVec 32) (f : State → Bool) : Bool :=
  succeeds (fetchWord p via s) fun x u => x == w && u.cur = s.cur && f u

theorem witness_StepRunsTheDecodedInstruction :
    (∀ a ∈ [false, true], ∃ s : State, s = fetching 0x04611000 0 (fun t => { t with a := { active := true, pc := 0x10000 } }) ∧
      TurnOf { s with sched := [.issue 0 a] } { s with cur := { core := 0, a := a } } 0 a ∧ Issues { s with cur := { core := 0, a := a } } 0 a) ∧
    (∃ s : State, s = fetching 0x04611000 0 (fun t => { t with begun := 1, halting := true }) ∧ Issues s 0 false) ∧
    (∀ x ∈ [((0x04611001 : BitVec 32), 1), (0, 0), (0x04611000, 2)], let s := fetching x.1 0; s.sched = [] ∧ s.cur = { core := 0 } ∧ Issues s 0 false ∧
      fetches s s.pc none x.1 (fun u => u.cur = s.cur) = true ∧ isFrameWord x.1 = false ∧ (x.2 = 0 → decode (bytesOfWord x.1) = .error .undefinedEncoding) ∧
      (x.2 = 1 → (decodeWords x.1 0).any (fun i => i.2 = false) = true) ∧ (x.2 = 2 → ∃ i, decode (bytesOfWord x.1) = .ok (i, []) ∧ allowedHere 0 false i = true)) ∧
    (∃ w w' : BitVec 32, w = 0b010110_00011_00000_0010_000000000000#32 ∧ w' = 0b111111_0000000000000111_00001_00000#32 ∧ let s := fetching w w'; Issues s 0 false ∧
      isFrameWord w = true ∧ fetches s s.pc none w (fun u => fetches u (s.pc + 4) (some (s.pc + 4)) w' fun v => v.cur = s.cur) = true) ∧
    (∃ s : State, s = running [] (fun t => { t with frame := { act := true, len := 0, left := 1, body := [0x04611000] } }) ∧ Issues s 0 false ∧
      s.task.frame.act = true ∧ s.task.frame.recheck = false ∧ (decode (bytesOfWord (nth s.task.frame.body s.task.frame.idx 0))) = .ok (.add 3 1 2, [])) ∧
    (∃ s : State, s = fetching 0x04611000 0 ∧ isVirtual 0x10000 = true ∧ succeeds (tlbSearch 0 0 0x10000 true s) (fun e t => e.any (fun e => e.x && e.u) &&
      t.cur = s.cur && (tabFind (t.coreAt 0).icache (0x10000 / 4)).isNone &&
      succeeds (acquire 0 0 0 0x10000 false false false t) fun _ u => u.cur = s.cur && !u.uncorrectable 0x10000 4 && !u.poisoned 0x10000 4) = true) ∧
    ((Instr.taskStart 0).encoded = false ∧ State.reset.mayIssue 0 false = false) := by
  refine ⟨fun a h => ⟨_, rfl, ?_⟩, ⟨_, rfl, by decide, .inl (by decide)⟩, fun x h => ?_, ⟨_, _, rfl, rfl, ⟨by decide, .inr ⟨fun _ => by decide, by decide, by decide⟩⟩, by decide, by decide +kernel⟩,
    ⟨_, rfl, ⟨by decide, .inr ⟨fun _ => by decide, by decide, by decide⟩⟩, by decide, by decide, by rfl⟩, ⟨_, rfl, by decide, by decide +kernel⟩, by decide⟩
  all_goals simp only [List.mem_cons, List.not_mem_nil, or_false] at h
  · obtain rfl | rfl := h
    · exact ⟨.inr ⟨[], rfl, rfl⟩, by decide, .inr ⟨fun _ => by decide, by decide, by decide⟩⟩
    · exact ⟨.inr ⟨[], rfl, rfl⟩, by decide, .inr ⟨(fun h => nomatch h), by decide, by decide⟩⟩
  · obtain rfl | rfl | rfl := h
    · exact ⟨rfl, rfl, ⟨by decide, .inr ⟨fun _ => by decide, by decide, by decide⟩⟩, by decide +kernel, by decide, nofun, fun _ => by decide +kernel, nofun⟩
    · exact ⟨rfl, rfl, ⟨by decide, .inr ⟨fun _ => by decide, by decide, by decide⟩⟩, by decide +kernel, by decide, fun _ => by rfl, nofun, nofun⟩
    · exact ⟨rfl, rfl, ⟨by decide, .inr ⟨fun _ => by decide, by decide, by decide⟩⟩, by decide +kernel, by decide, nofun, nofun, fun _ => ⟨.add 3 1 2, by rfl, by decide⟩⟩

theorem witness_DecodeOfEncodeIsTheInstruction : WellFormed (.frame 31 0 15 0xFFFF 31) = true ∧ WellFormed (.add 31 31 31) = true := by decide

theorem witness_StepKeepsMemoryCanonical : ∃ s t : State, s = fetching 0x04611000 0 ∧ s.Canonical ∧ step s = .next t := by
  have h : (match step (fetching 0x04611000 0) with | .next _ => true | _ => false) = true := by decide +kernel
  cases e : step (fetching 0x04611000 0) with
  | next t => exact ⟨_, t, rfl, show Memory.wf _ = true by decide +kernel, e⟩
  | fault f => rw [e] at h; cases h
  | refused f => rw [e] at h; cases h

/-! Values that the spec works out itself; each comment names the place. -/

/-- Register 3 after one instruction, with registers 1 and 2 given. -/
def result (i : Instr) (x : Word) (y : Word := 0) : Word := (next i (running [(1, x), (2, y)])).rg 3

/-- The worked values after R44. -/
theorem test_worked_division : (result (.div 3 1 2) (-7) 2 == -3 && result (.rem 3 1 2) (-7) 2 == -1 &&
    result (.divz 3 1 2) 0xFFFFFFFFFFFFFFF9 2 == 0x7FFFFFFFFFFFFFFC && result (.remz 3 1 2) 0xFFFFFFFFFFFFFFF9 2 == 1 &&
    result (.div 3 1 2) 0x8000000000000000 (-1) == 0x8000000000000000 && result (.rem 3 1 2) 0x8000000000000000 (-1) == 0) = true := by
  decide +kernel
theorem test_worked_arithmetic : (result (.mulh 3 1 2) (-1) (-1) == 0 && result (.mulhz 3 1 2) (-1) (-1) == 0xFFFFFFFFFFFFFFFE &&
    result (.mul 3 1 2) (-1) (-1) == 1 && result (.sltz 3 1 2) (-1) 1 == 0 && result (.slt 3 1 2) (-1) 1 == 1 &&
    result (.clz 3 1) 0x10000 == 47 && result (.bswap 3 1) 0x0102030405060708 == 0x0807060504030201) = true := by decide +kernel
/-- The worked pair after R49. -/
theorem test_worked_pair : result (.lhi 3 0xABCDE) 0 = 0xABCDE0000 ∧ result (.ori 3 1 0x1234) 0xABCDE0000 = 0xABCDE1234 := by
  decide +kernel
/-- Shifts read bits [5:0] of the amount (R42): 64 shifts by nothing; an arithmetic shift fills with the sign; 1 << 63 wraps out. -/
theorem test_shift_amounts : (result (.shl 3 1 2) 5 64 == 5 && result (.sha 3 1 2) 0x8000000000000000 127 == -1 &&
    result (.shr 3 1 2) 0x8000000000000000 63 == 1 && result (.rol 3 1 2) 0x8000000000000001 1 == 3 &&
    result (.ror 3 1 2) 3 1 == 0x8000000000000001) = true := by decide +kernel
/-- Sums and differences wrap (R41); an immediate extends its sign in addi and not in ori (R46). -/
theorem test_wraps_and_immediates : (result (.add 3 1 2) (-1) 2 == 1 && result (.sub 3 1 2) 1 2 == -1 &&
    result (.addi 3 1 0xFFFF) 1 == 0 && result (.ori 3 1 0xFFFF) 0 == 0xFFFF && result (.sltiz 3 1 0x8000) 0x8000 == 0 &&
    result (.slti 3 1 0x8000) (-32769) == 1) = true := by decide +kernel
/-- Register 0 discards a write (R31). -/
theorem test_register_zero : (next (.addi 0 1 5) (running [(1, 7)])).rg 0 = 0 := by decide +kernel
/-- A shift by 8 and a field of 8 bits at 16 with its sign (R51). -/
theorem test_fields : (result (.ext 3 1 16 0 7) 0x800000 == (-128) && result (.extz 3 1 16 0 7) 0x800000 == 0x80 &&
    (next (.ins 3 1 16 0 7) (running [(1, 0x56), (3, 0x0505050505050505)])).rg 3 == 0x0505050505560505) = true := by decide +kernel
/-- A branch is taken to p + 4 × off16, and falls through to p + 4 (R56); a link is p + 4. -/
theorem test_branches : ((next (.blt 1 2 0xFFFF) (running [(1, -1), (2, 1)])).pc == 0xFFFC &&
    (next (.bgez 1 16) (running [(1, -1), (2, 1)])).pc == 0x10004 && (next (.j 0x3FFFFFF) (running [])).pc == 0xFFFC &&
    (next (.jr 31 9) (running [(9, 0x20000)])).pc == 0x20000 && (next (.jr 31 9) (running [(9, 0x20000)])).rg 31 == 0x10004) = true := by
  decide +kernel

/-- The example after R261: word 0 and word 1 of c6 after `caprs c6, c1, g4`. -/
theorem test_capability_of_a_window :
    ((caps [(4, 0x78200048)] |>.setCap 0 1 0x0000002800000782 0x00000000003FF000) |> next (.caprs 4 1 6) |> fun s =>
      s.cap0 0 6 == 0x0000002844000482 && s.cap1 0 6 == 0x000000000000F040) = true := by decide +kernel

/-- Word 0 of the trap record in the trace of chapter 23: core 0x453, crew 9, cause 0x3A, action 2 (park). -/
theorem test_trap_record_word : (recordWords { code := 0x3A, kind := .p } false false 0 0x453 0 2 false 9 0x10000040 0 0 1).head? =
    some 0x128453003A := by decide +kernel

/-- The line of the trace at the end of chapter 8: its home die, its directory set, its home slice. -/
theorem test_home_of_a_line : homeDie 0x2480310080 = 1 ∧ dirSet (unitOf 0x2480310080 false) = 0x6201 ∧
    interleaved (unitOf 0x2480310080 false) = 1 := by decide +kernel

/-- The worked draw of chapter 9: three conversions to FP4 from seed 1. -/
theorem test_worked_draw : draws 3 1 = [0x80200003, 0xC0300002, 0x60180001] ∧
    ([0x3FA00000, 0x40300000, 0x3E4CCCCD].zip (draws 3 1)).map (fun p => (fp4.round 4 false (some p.2) (fp32.decode false p.1)).1) =
      [2, 4, 1] := by decide +kernel

/-- The sixteen FP4 codes, as chapter 12 lists them in its block 0: 0, 0.5, 1, 1.5, 2, 3, 4, 6, then their negatives; the values times 2. -/
theorem test_fp4_codes : ((List.range 16).map fun c => rne32 (fp4.decode false c)) = [0, 0x3F000000, 0x3F800000, 0x3FC00000,
    0x40000000, 0x40400000, 0x40800000, 0x40C00000, 0x80000000, 0xBF000000, 0xBF800000, 0xBFC00000, 0xC0000000, 0xC0400000,
    0xC0800000, 0xC0C00000] := by decide +kernel

/-- One block of FP4 elements with E8M0 scales. -/
def fp4Segment (x y : List Nat) (p q : Nat) : Machine.Num :=
  segmentSum ((x.zip y).map fun c => ((fp4.decode false c.1, e8m0 p), (fp4.decode false c.2, e8m0 q)))

/-- The worked accumulator value of chapter 9: from a zeroed element the value becomes 5 × 2^64, and the readout is 1.25. -/
theorem test_worked_accumulator :
    accumulate {} (fp4Segment [3, 12, 7, 1, 0, 5, 10, 6] [4, 4, 1, 15, 2, 2, 3, 1] 0x7D 0x82) = ({ value := 5 * 2 ^ 64 }, false, false) ∧
    (readCell { id := 0, instr := .mrd 0 0 0 0 0, x := 0, y := 0, w0 := 0x40000, w1 := 0x3F80000000003E80, mode := 0xA0, tid := 1, pc := 0, asid := 0 }
      { cells := [(0, { value := 5 * 2 ^ 64 })] } fp32 0).1 = 0x3FA00000 := by decide +kernel
/-- The three further blocks of that chapter, at the edges of the window, and the NaN scale. -/
theorem test_window_edges :
    accumulate {} (.fin false 1 1 (-67)) = ({}, true, false) ∧ accumulate {} (.fin false 3 1 (-66)) = ({ value := 1 }, true, false) ∧
    accumulate {} (.fin false 1 1 254) = ({ value := 0x7FFFFFFFFFFFFFFFFFFFFFFFFFFFFFFF#128, ovf := true }, false, true) ∧
    (accumulate {} (fp4Segment [1] [0] 0xFF 0x7F)).1.cls = 3 := by decide +kernel
/-- The contributions of blocks 0 to 5 of element (0, 0) of chapter 12: −34.25, 22.5, −96, 24, 2^−30 and 12 give −71.75 + 2^−30. -/
theorem test_dot_product : (([.fin true 137 4 0, .fin false 45 2 0, .fin true 96 1 0, .fin false 24 1 0, .fin false 1 1 (-30), .fin false 12 1 0] :
    List Machine.Num).foldl (fun a c => (accumulate a c).1) ({} : AccCell)).value = 0xFFFFFFFFFFFFFFB84000000400000000#128 := by decide +kernel

/-- A register of lanes from a list of 32-bit elements. -/
def lanes32 (l : List Nat) : BitVec 512 := BitVec.ofNat 512 (digits (2 ^ 32) l)

/-- The worked block after R202. -/
theorem test_worked_block :
    (let x := lanes32 ([0x3F800000, 0xC0200000, 0x42200000, 0x3F400000] ++ List.replicate 12 0x3F000000)
    let y := lanes32 (List.replicate 14 0x3F000000 ++ [0xC2C00000, 0x40400000])
    let r := ({ v := ((Vector.replicate 32 0).setIfInBounds 0 x).setIfInBounds 1 y } : Core).quantise 6 0 1 quantInt4x
    r.1.image 6 == [0xB2, 0x28] ++ List.replicate 13 0x11 ++ [0x68, 0x7E, 0x6A, 0xF4, 0] && r.2 == flInexact) = true := by decide +kernel

/-- The counts of chapter 20 in v1, and 64 in each lane of v2. -/
def counted : Core :=
  let c := lanes32 [64, 40, 188, 64, 30, 72, 96, 50, 64, 20, 110, 58, 44, 64, 30, 30]
  { v := ((Vector.replicate 32 0).setIfInBounds 1 c).setIfInBounds 2 (lanes32 (List.replicate 16 64)) }

/-- The masks, the greatest count, and the sum of chapter 20. -/
theorem test_load_balance : ((counted.compareMask 5 2 1 2 0).1 == 0xFF0FF0F0F00F00F0 && (counted.compareMask 5 2 2 1 0).1 == 0x00000F000FF00F00 &&
    counted.argmax 5 1 0 == 2 && (counted.reduce 1 5 1 0).1 == 188 && (counted.reduce 0 5 1 0).1 == 1024) = true := by decide +kernel
/-- The loss of chapter 20: 90,728 converts exactly and times 2^−16 is 0x3FB13400. -/
theorem test_loss : convertEl 0xA0 0 none (valueEl 0xA0 5 90728) = (0x47B13400, 0) ∧
    roundEl 0xA0 fp32 ((fp32.decode false 0x47B13400).mul (fp32.decode false 0x37800000)) = (0x3FB13400, 0) := by decide +kernel

/-- A task whose stream q4 has met a fault. -/
def streamless : State := running [] fun t => { t with
  streams := [(4, { inward := true, base := 0, stride := 8, count := 2, queue := [9], fault := true })] }

theorem witness_QueuesRefuse :
    (∀ x, tabFind streamless.task.streams (4#3).toNat = some x → x.fault = true) ∧
    (∀ x, tabFind streamless.task.streams (6#3).toNat = some x → x.fault = true) ∧
    streamless.task.stepping = false ∧ streamless.urgent = false := by
  refine ⟨fun x h => ?_, fun x h => ?_, rfl, rfl⟩
  · cases h; rfl
  · cases h

theorem witness_AendOnA : onA.urgent = false ∧ onA.task.stepping = false ∧ onA.cur.a = true := by decide

theorem witness_YieldParks :
    ∃ s : State, s = ruling [] (fun k => { k with runN := [{ record := {} }] }) ∧ succeeds (drain s) (fun _ u => u.task.stepping = false &&
      (u.coreAt u.cur.core).otherReady u.urgent && (u.coreAt u.cur.core).freeSlot = some 0 &&
      (u.coreAt u.cur.core).vectorDone u.task.tid && !u.cur.a && u.task.status == .running) = true := ⟨_, rfl, by decide⟩

/-- A supervisor's core whose matrix unit holds a memory command that was translated at its issue. -/
def matFetching : State := ruling [(1, 0x10000), (2, 0)] fun k => { k with
  mq := [{ tid := 1, pc := 0, instr := .mfetch 0 0 0 0 0 0, tlb := [{ w0 := 2, w1 := 0x1F000000001 }] }] }

theorem witness_TlbiCompletes :
    (∀ s ∈ [ruling [], matFetching], s.task.priv = true ∧ s.task.stepping = false ∧ (∀ c ∈ s.partCores (s.partOf 0), (s.coreAt c).sb = []) ∧
      succeeds (each (fun c => drainN c 16) (s.partCores (s.partOf 0)) s) (fun _ u => !u.task.stepping) = true) ∧
    (∀ f ∈ tlbiForms (ruling []) 1 2, MatrixDone f.2 ((ruling []).partCores 0) (ruling [])) ∧
    ∀ f ∈ (tlbiForms matFetching 1 2).take 1, MatrixDone f.2 (matFetching.partCores 0) matFetching := by
  unfold MatrixDone; decide

theorem witness_WretAnswers :
    (fieldOf ((walking [(2, 0x10)]).rg 2) 7 0 ∉ [0x11, 0x12, 0x13, 0x19, 0x27]) ∧
    (∃ w, tabFind ((walking [(1, 31)]).coveAt 0).walks (fieldOf ((walking [(1, 31)]).rg 1) 4 0) = some w ∧
      succeeds (drainWaiters w (walking [(1, 31)])) (fun _ _ => true) = true ∧
      fieldOf ((walking [(1, 31), (2, 0x27)]).rg 2) 7 0 ∈ [0x11, 0x12, 0x13, 0x19, 0x27]) ∧
    (∃ s : State, s = (walking [(1, 31)]).modCove 0 (fun v => { v with
        tickets := (List.range 64).map fun i => (i, { host := false, va := 0, asid := 0, engines := [] }) }) ∧
      tabFree (s.coveAt 0).tickets 64 0 = none ∧ s.task.stepping = false ∧ s.task.priv = true) := by
  refine ⟨by decide, ⟨_, rfl, by decide, by decide⟩, ⟨_, rfl, by decide, rfl, rfl⟩⟩

theorem witness_RegdoneRefuses : (walking [(2, 1)]).rg 2 = 1 ∧ ((walking [(2, 1)]).rg 2).toNat ∉ [0x00, 0x15, 0x16, 0x27] ∧
    (∀ n ∈ [(0 : Nat), 0x15, 0x16, 0x27], ((walking [(2, BitVec.ofNat 64 n)]).rg 2).toNat ∈ [0x00, 0x15, 0x16, 0x27]) := by decide

theorem witness_GroupsWait :
    (∀ n ∈ [0, 2], let s := grouped n; let g := fieldOf (s.rg 1) 7 0; ∃ m : Member, m = { core := 0, count := n } ∧
      (s.groupAt g).memberOf 0 = some m ∧ Drained s s ∧ ((s.groupAt g).ahead m = 2) = (n = 2) ∧
      (s.coreAt 0).postedHere s.device = false ∧ s.task.stepping = false) ∧
    (∃ s : State, s = (grouped 0).modTask (fun t => { t with g := t.g.set 2 0 }) ∧
      ¬ ((s.groupAt 3).phase + 2 * 2 ^ 32 - fieldOf (s.rg 2) 31 0 - 1) % 2 ^ 32 < 2 ^ 31 ∧
      (s.groupAt (fieldOf (s.rg 1) 7 0)).memberOf 0 = some { core := 0, count := 0 } ∧ (s.groupAt 3).phase < 2 ^ 32) ∧
    ((grouped 0).groups.map (·.1)).Nodup := by
  refine ⟨fun n h => ⟨_, rfl, ?_⟩, ⟨_, rfl, by decide⟩, by decide⟩
  rcases List.mem_cons.mp h with rfl | h
  · exact ⟨rfl, .inl ⟨rfl, rfl⟩, by decide, rfl, rfl⟩
  · rw [List.mem_singleton] at h; subst h; exact ⟨rfl, .inl ⟨rfl, rfl⟩, by decide, rfl, rfl⟩

theorem witness_SendsComplete :
    ∀ c ∈ [(1 : BitVec 4), 3], let s := chan [(1, spmAt 0), (2, 2)]; let v := unwait s; let e := v.cap0 0 c.toNat
      s.task.sendWait = none ∧ (s.coreAt 0).sb = [] ∧ (s.coreAt 0).engineReads = false ∧ s.task.stepping = false ∧
      LocalPayload v (s.rg 1) 1 [0] ∧ LocalPayload v (s.rg 1) 0 [] ∧ ((capUsed e ≠ capAllow e) ↔ c = 1) ∧
      (∀ x ∈ [false, true], SendMayStart c.toNat true x v) ∧ epDevice (capEp e) = v.device ∧
      Grantable 0 c.toNat (fieldOf (s.rg 2) 3 0) (v.cap0 0 2) v ∧ capUsed (v.cap0 0 2) = 0 := by
  intro c h
  refine ⟨rfl, rfl, by decide, rfl, .inr (by decide +kernel), .inl ⟨rfl, rfl⟩, ?_, fun x _ => ?_, ?_, ?_, by decide +kernel⟩
  all_goals
    simp only [List.mem_cons, List.not_mem_nil, or_false] at h
    obtain rfl | rfl := h
  any_goals decide +kernel
  any_goals (unfold Grantable; decide +kernel)
  all_goals unfold SendMayStart CanReach; cases x <;> decide +kernel

theorem witness_SendsMeetARevoke :
    ∀ l : List Nat, ∃ s : State, s = (chan [] fun t => { t with sendWait := some (0x10000, l, true) }) ∧ s.task.sendWait = some (s.pc, l, true) :=
  fun _ => ⟨_, rfl, rfl⟩

theorem witness_RecvStores :
    ∃ s : State, s = (watching false true).modTask (fun t => { t with g := t.g.set 2 (spmAt 16), priv := true }) ∧
      (∃ e, (s.coreAt 0).selected s.task true (2#3).toNat = some e ∧ e.payload.length = 8) ∧ (s.coreAt 0).sb = [] ∧ s.task.stepping = false ∧
      (s.rg 2).toNat % 16 = 0 ∧ bitOf (s.rg 2) 63 = true ∧ fieldOf (s.rg 2) 62 18 = 0 ∧
      (s.rg 2).toNat % 2 ^ 18 + 80 ≤ min (s.coreAt 0).spmSize (2 ^ 18) := ⟨_, rfl, ⟨_, rfl, rfl⟩, by decide⟩

theorem witness_PostedStoresWait :
    (∃ s : State, s = chan [] id (fun k => { k with journal := (List.range 32).map fun j =>
        (j, { ep := 0, cls := 0, cap := 2, nibble := false, off := 0, size := 1, data := 0, tid := 1 }) }) ∧
      tabFree (s.coreAt 0).journal 32 0 = none ∧ Drained s s ∧ CanReach (capEp (s.cap0 0 2)) s) ∧
    NotRevoked (chan []) ∧ capKind ((chan []).cap0 0 2) = 2 ∧ capRight ((chan []).cap0 0 2) 7 = true ∧
    capKind ((chan []).cap0 0 4) ≠ 2 := by
  refine ⟨⟨_, rfl, by decide +kernel, .inl ⟨rfl, rfl⟩, .inl (by decide +kernel)⟩, nofun, by decide +kernel⟩

theorem witness_CapabilitiesAreNarrowed :
    ([(0x4FF#64, true), (0x5FF#64, false)].all fun x => capKind ((caps []).cap0 0 1) == 1 &&
      decide (capUsed ((caps []).cap0 0 1) + fieldOf x.1 14 8 ≤ capAllow ((caps []).cap0 0 1)) == x.2) = true ∧
    (capRight ((caps []).cap0 0 2) 10 = true ∧ fieldOf (0x40000FF#64) 26 15 + 1 > fieldOf ((caps []).cap1 0 2) 23 12 + 1 ∧
      fieldOf (0x1FF#64) 14 8 ≠ 0) ∧
    (∃ s : State, s = (caps []).modCore 0 (fun k => { k with spm := cellsSet k.spm (98048 + 16) (bytesOf 0x84FF1#64) }) ∧
      (capKind (s.cap0 0 1) ≠ 0 ∧ s.descends 0 1 16 1 = true) ∧ capKind (s.cap0 0 1) = 1 ∧ capUsed (s.cap0 0 1) ≠ 0) := by
  refine ⟨by decide +kernel, by decide +kernel, ⟨_, rfl, by decide +kernel⟩⟩

/-- A copy command that waits. -/
def queuedCopy : CopyCommand :=
  { id := 0, kind := .copy, dst := 0, src := 0, rowBytes := 0, rows := 0, dstStride := 0, srcStride := 0, notify := false, tid := 0
    pc := 0, asid := 0, priv := false }

theorem witness_CopiesAreQueued :
    (∃ s : State, s = blocked [(1, spmAt 0), (2, spmAt 64), (3, 64)] ∧ (s.rg 3).toNat < 2 ^ 24 ∧ RangeOk s (s.rg 1) 64 ∧
      RangeOk s (s.rg 2) 64 ∧ RangeOk s 0x10000 64 ∧ (s.coreAt 0).cq.length < 3 ∧ Drained s s ∧ s.task.stepping = false) ∧
    3 ≤ ((blocked [] id fun k => { k with cq := [queuedCopy, queuedCopy, queuedCopy] }).coreAt 0).cq.length ∧
    (∃ s : State, s = (blocked [(1, spmAt 0)] id fun k => { k with
        spm := cellsSet [] 0 (bytesOf (spmAt 64) ++ bytesOf (spmAt 96) ++ bytesOf 0x100000001 ++ bytesOf 32 ++ bytesOf 32) }) ∧
      (s.rg 1).toNat % 64 = 0 ∧ Descriptor s s (s.rg 1) 8 [spmAt 64, spmAt 96, 0x100000001, 32, 32, 0, 0, 0] ∧
      (∀ i ∈ List.range 1, RangeOk s (spmAt 64 + wordOfInt (32 * i)) 1 ∧ RangeOk s (spmAt 96 + wordOfInt (32 * i)) 1) ∧
      (s.coreAt 0).cq.length < 3 ∧ Drained s s ∧ s.task.stepping = false) ∧
    (∃ s : State, s = chan [(1, 0), (2, 0), (3, 64)] ∧ NotRevoked s ∧ capKind (s.cap0 0 2) = 2 ∧
      (s.coreAt 0).revoking.contains 2 = false ∧ CanReach (capEp (s.cap0 0 2)) s ∧ capRight (s.cap0 0 2) 7 = true ∧
      capRight (s.cap0 0 2) 6 = true ∧ capRight (s.cap0 0 2) 9 = true ∧ (s.rg 1).toNat + (s.rg 3).toNat ≤ winLen (s.cap1 0 2) ∧
      ¬ (s.rg 3).toNat + 1 ≤ winLen (s.cap1 0 2) ∧ Drained (unwait s) (unwait s)) ∧
    (∃ s : State, s = (running [] fun t => { t with
        streams := [(5, { inward := false, base := 0, stride := 8, count := 1, queue := [1] })] }) ∧
      ∃ x, tabFind s.task.streams (5#3).toNat = some x ∧ x.inward = false ∧ x.queue ≠ [] ∧ x.fault = false) := by
  refine ⟨⟨_, rfl, by decide, ?_⟩, by decide, ⟨_, rfl, by decide, .inl ⟨rfl, .inr (by decide +kernel), rfl⟩, ?_⟩,
    ⟨_, rfl, nofun, by decide +kernel, rfl, .inl (by decide +kernel), by decide +kernel, by decide +kernel, by decide +kernel, by decide +kernel,
      by decide +kernel, .inl ⟨rfl, rfl⟩⟩, ⟨_, rfl, _, rfl, rfl, by decide, rfl⟩⟩
  · exact ⟨by unfold RangeOk; decide, by unfold RangeOk; decide, by unfold RangeOk; decide, by decide, .inl ⟨rfl, rfl⟩, rfl⟩
  · exact ⟨by unfold RangeOk; decide +kernel, by decide, .inl ⟨rfl, rfl⟩, rfl⟩

theorem witness_CopiesEnd :
    (∃ c : CopyCommand, c.rowBytes = 0 ∧ c = queuedCopy ∧ c.acked = c.sent ∧ c.data = []) ∧
    (headCopy (copying (.put 0 0 2 false) 0 (spmAt 0))).acked = (headCopy (copying (.put 0 0 2 false) 0 (spmAt 0))).sent :=
  ⟨⟨_, rfl, rfl, rfl, rfl⟩, rfl⟩

theorem witness_VectorMemoryIsQueued :
    ∃ s : State, s = ruling [(1, spmAt 262016)] ∧ (s.coreAt 0).vq.length < 3 ∧ Drained s s ∧ s.task.stepping = false ∧
      ∀ f ∈ vectorMemoryForms s 3 1 2 0 0 0, ∀ i < 512 / elWidth 0, ElementAccepted s f.2.1 (elWidth 0 / 8) (f.2.2 i) := by
  refine ⟨_, rfl, by decide, .inl ⟨rfl, rfl⟩, rfl, ?_⟩
  unfold ElementAccepted; decide +kernel

theorem witness_NoTaskIsHeld :
    NoneHeld ((lanes .done).coreAt 0) ∧ memoryVector .done = false ∧ VectorFirst 0 (headVector (lanes .done)) [] (lanes .done) := by
  unfold NoneHeld VectorFirst; decide +kernel

theorem witness_MatrixMemoryIsQueued :
    (∃ s : State, s = matrix [(1, spmAt 0), (2, 64)] ∧ HasPort s ∧
      PiecesPass false 17 (tilePieces 0x44 (s.rg 1) (s.rg 2) (s.rg 0) true false) s s [] ∧ Drained s s ∧ (s.coreAt 0).mq = []) ∧
    (∃ s : State, s = matrix [(1, spmAt 64), (2, 128)] ∧ HasPort s ∧ ∀ p ∈ [(true, (List.range 32).map fun j => (s.rg 1 + BitVec.ofNat 64 j * s.rg 2, 128)),
          (false, (List.range 35).map fun j => (s.rg 1 + BitVec.ofNat 64 (512 * j), min 512 (17472 - 512 * j)))],
      PiecesPass p.1 0 (p.2.flatMap fun p => sectors p.1 p.2 (p.2 / 32 + 2)) s s []) := by
  refine ⟨⟨_, rfl, ⟨by decide, rfl⟩, .inl ⟨by decide +kernel, rfl, rfl⟩, .inl ⟨rfl, rfl⟩, rfl⟩, ⟨_, rfl, ⟨by decide, rfl⟩, fun p h => .inl ⟨?_, rfl, rfl⟩⟩⟩
  rcases List.mem_cons.mp h with rfl | h
  · decide +kernel
  · rw [List.mem_singleton] at h; subst h; decide +kernel

theorem witness_ExpertsWaitAndReach :
    (∃ s : State, s = (expert [(1, spmAt 64), (2, 4)]).modCore 0 (fun k => { k with xsends := 8 }) ∧ 8 ≤ (s.coreAt 0).xsends ∧
      Named s 4 (theName s) ∧ Drained s s ∧ s.task.stepping = false ∧ fieldOf (s.rg 2) 63 49 = 0) ∧
    (∃ s : State, s = expert [(1, 4), (2, 0x10080)] ∧ (s.rg 2).toNat % 64 = 0 ∧ (2 : BitVec 5) ≠ 0 ∧ (theName s).joined = true ∧
      succeeds (nameRead 4 s.ownWork (s.rg 2) (((theName s).wlen / 64 + 7) / 8) (s.begin 3)) (fun _ v => v.nameAt 4 = some (theName s) && !v.task.stepping) = true) ∧
    (∃ s : State, s = ruling [(1, spmAt 0), (2, 0x1004)] ∧ bitOf (s.rg 1) 63 = true ∧ fieldOf (s.rg 1) 62 18 = 0 ∧
      (s.rg 1).toNat % 2 ^ 18 + 16 * 1 ≤ min (s.coreAt 0).spmSize (2 ^ 18) ∧ s.task.priv = true ∧ (s.coreAt 0).sb = [] ∧
      (s.coreAt 0).memoryBusy = false ∧ s.task.stepping = false) ∧
    ReplicaReached (live 0x11000) (expert []) := by
  refine ⟨⟨_, rfl, by decide, ⟨by decide +kernel, by decide +kernel⟩, .inl ⟨rfl, rfl⟩, rfl, by decide⟩, ⟨_, rfl, by decide +kernel⟩,
    ⟨_, rfl, by decide⟩, .inl (by decide)⟩

theorem witness_GateEntriesWaitAndEnter :
    (∃ s : State, s = routing [(1, spmAt 0), (2, 0)] (gateEntry true) [] (fun d => { d with gate := List.replicate 512 [] }) ∧
      512 ≤ (s.dieAt 0).gate.length ∧ Drained s s ∧ succeeds (loadWords (s.rg 1) 10 s) (fun e u => u.cur = s.cur && succeeds (gateCheck e u) fun _ w => w = u) = true) ∧
    (∃ s : State, s = next (.gpush 1 2) (routing [(1, spmAt 0), (2, 0)] (gateEntry true)) ∧ s.flightFree 0 0 = true) ∧
    (∃ s : State, s = routing [(1, spmAt 0)] [] [] (fun d => { d with gate := [gateEntry true] }) ∧ (s.dieAt 0).gate = gateEntry true :: [] ∧
      (s.coreAt 0).sb = [] ∧ (s.rg 1).toNat % 16 = 0 ∧ bitOf (s.rg 1) 63 = true ∧ fieldOf (s.rg 1) 62 18 = 0 ∧ s.task.priv = true ∧
      (s.rg 1).toNat % 2 ^ 18 + 80 ≤ min (s.coreAt 0).spmSize (2 ^ 18) ∧ s.task.stepping = false) := by
  refine ⟨⟨_, rfl, by decide +kernel, .inl ⟨rfl, rfl⟩, by decide +kernel⟩, ⟨_, rfl, by decide +kernel⟩, ⟨_, rfl, by decide +kernel⟩⟩

theorem witness_UnitsAreFull :
    (∃ s : State, s = sorting (.rmap 1 0) mapWords 0 (cellsSet [] 0x10400 (bytesOf 0)) ∧
      succeeds (currentRow 0 (headSort s) false 0 s) (fun y u => good y (fun x => x.isSome) && (u.dieAt 0).sort = [headSort s]) = true) ∧
    16 ≤ ((sorting (.rmap 1 0) mapWords 0).modDie 0 (fun d => { d with sort := List.replicate 16 (headSort (sorting (.rmap 1 0) mapWords 0)) })
      |>.dieAt 0).sort.length ∧
    (∃ s : State, s = reducing (putWords false) 0 (List.replicate 256 { aBucket with bid := 6 }) ∧ 256 ≤ (s.dieAt 0).buckets.length ∧
      s.bucketOf 0 0 2 5 = none ∧ succeeds (loadWords (s.rg 1) 8 s) (fun w u => w = putWords false && u = s) = true) ∧
    (∃ s : State, s = reducing (putWords false) 0 [aBucket fun b => { b with roles := [false] }] ∧
      ∃ b, s.bucketOf 0 0 2 5 = some b ∧ bitOf (nth (putWords false) 5 0) 36 ∈ b.roles) ∧
    ((reducing [] 0 []).dieAt 0).rings.map (·.1) = [2] := by
  refine ⟨⟨_, rfl, by decide +kernel⟩, by decide, ⟨_, rfl, by decide +kernel, by decide +kernel, by decide +kernel⟩, ⟨_, rfl, _, rfl, by decide⟩, rfl⟩

/-- A cause that a task's place raises, and one of a refused store. -/
def aCause : Cause := { code := 0x10, kind := .p }

/-- Core 0 with every park slot taken, and a task in bank 0 that is held for one cause. -/
def full (f : Task → Task := id) : State := acting2 1 ((running [] f).modCore 0 fun k => { k with
  parks := (List.range 8).map fun i => (i, { task := { tid := 9 + i }, v := Vector.replicate 32 0, vPoison := Vector.replicate 32 0
                                             m := Vector.replicate 8 0, causes := [{ why := .regeneration }] }) })

theorem witness_TrapsWaitAndHold :
    (∃ s x, s = acting2 0 (urgent.modCore 0 fun k => { k with b0 := { k.b0 with status := .preempted } }) ∧ x = siteOf s aCause ∧
      TrapSite.At x s ∧ ¬ x.Room s) ∧
    (∃ s x, s = recorded 63 (acting2 5 (running [])) ∧ x = siteOf s aCause ∧ TrapSite.At x s ∧ x.Room s ∧ x.entry / 4 % 2 = 1) ∧
    (∃ s x, s = full ∧ x = siteOf s aCause ∧ TrapSite.At x s ∧ x.Room s ∧ x.entry % 4 = 1 ∧ (s.coreAt 0).freeSlot = none) ∧
    (∃ s x, s = acting2 4 (running []) ∧ x = siteOf s { aCause with ticket := some 3 } ∧ TrapSite.At x s ∧ x.Room s ∧ x.entry % 4 = 0 ∧
      x.cause.ticket ≠ none ∧ x.cause.cleared = false) ∧
    (∀ b ∈ [0, 9], ∃ s : State, s = (full fun t => { t with status := .held, raising := [aCause, aCause] }).modCore 0 (fun k => k.modTaskAt 7 fun t =>
        { t with raising := [aCause] }) ∧ isCore 0 = true ∧ b < 10 ∧ (∃ r, ((s.coreAt 0).taskAt (placeOfBank b)).raising = aCause :: r) ∧
      (b < 2 → ((s.coreAt 0).taskAt (placeOfBank b)).status = .held) ∧ ((s.coreAt 0).taskAt (placeOfBank b)).status ≠ .preempted ∧
      (s.dieAt 0).recordsOf (s.partOf 0) < 64 ∧ (s.dieAt 0).roomFor (s.partOf 0) 2 = true) := by
  refine ⟨⟨_, _, rfl, rfl, ⟨rfl, rfl, rfl, by decide +kernel, rfl⟩, fun h => h.1 rfl⟩, ⟨_, _, rfl, rfl, ⟨rfl, rfl, rfl, by decide +kernel, rfl⟩, ⟨by decide, by decide +kernel, by decide +kernel⟩, by decide +kernel⟩,
    ⟨_, _, rfl, rfl, ⟨rfl, rfl, rfl, by decide +kernel, rfl⟩, ⟨by decide, by decide +kernel, by decide +kernel⟩, by decide +kernel⟩,
    ⟨_, _, rfl, rfl, ⟨rfl, rfl, rfl, by decide +kernel, rfl⟩, ⟨by decide, by decide +kernel, by decide +kernel⟩, by decide +kernel⟩, fun b h => ?_⟩
  simp only [List.mem_cons, List.not_mem_nil, or_false] at h
  obtain rfl | rfl := h
  · exact ⟨_, rfl, rfl, by decide, ⟨[aCause], rfl⟩, fun _ => rfl, by decide, by decide +kernel, by decide +kernel⟩
  · exact ⟨_, rfl, rfl, by decide, ⟨[], rfl⟩, fun h => by omega, by decide, by decide +kernel, by decide +kernel⟩

theorem witness_LaunchesComplete :
    (∃ s : State, s = launching [] ∧ s.task.priv = true ∧ s.task.stepping = false ∧ (s.coreAt 0).sb = [] ∧ (s.rg 1).toNat % 64 = 0 ∧
      LocalPayload s (s.rg 1) 8 launchWords ∧ capKind (s.cap0 0 5) = 3 ∧ bitOf (s.cap0 0 5) 11 = true ∧ (s.queueAt 0 3).held.length < 16 ∧
      nth launchWords 5 0 = 0 ∧ launchReason s 0 launchWords = none ∧ nth launchWords 3 0 = 0 ∧ fieldOf (nth launchWords 1 0) 47 32 = 0) ∧
    launchReason (launching []) 0 (launchWords 1 26) = some 1 ∧
    (∃ s : State, s = launching [{ words := launchWords 2, started := some 7 }] ∧ (s.partAt 0).swState = 0 ∧
      succeeds (nextPlacement 0 0 8 s) (fun x u => x == some (.new 3 (launchWords 2) (some 7) 0) && (u.freeCrew 0).isSome) = true) ∧
    (∃ s : State, s = (running []).modCore 0 (fun k => { k with b0 := {}, streak := 32 }) ∧ (s.coreAt 0).streak = 32 ∧ (s.coreAt 0).b0.status = .empty ∧
      (s.coreAt 0).normalWaits = false) := by
  refine ⟨⟨_, rfl, by decide +kernel, by decide +kernel, by decide +kernel, by decide +kernel, ?_, by decide +kernel⟩, by decide +kernel,
    ⟨_, rfl, by decide +kernel⟩, ⟨_, rfl, by decide⟩⟩
  unfold LocalPayload; decide +kernel

theorem witness_DirectoryWaitsAndAcknowledges :
    (∀ own ∈ [false, true], ∀ sq ∈ [false, true], SetRoom (coherent 1 0 (if own then .rdx false else .rds)) 1 9 sq) ∧
    (∃ s : State, s = { coherent 1 0 .rds with coh := [{ src := 1, dst := 0, line := 8, kind := .ack }, { src := 1, dst := 0, line := 9, kind := .rds }] } ∧
      CohFirst s 1 0 9 .rds { src := 1, dst := 0, line := 9, kind := .rds } ∧ cohTaken s { src := 1, dst := 0, line := 9, kind := .rds } 1 0 = []) ∧
    (∃ s : State, s = (coherent 1 0 .rds).modDie 0 (fun d => { d with dir := [(9 + 131072 * 8, { state := .r [4] 0 false })] }) ∧
      dirEntry s 9 = none ∧ homeDie ((9 + 131072 * 8) * 128) = 0 ∧ s.recallOf 9 = some (9 + 131072 * 8) ∧
      dirEntry s (9 + 131072 * 8) = some { state := .r [4] 0 false }) ∧
    (∀ k ∈ [CohKind.wb, .ce], ∀ w ∈ [[1], [1, 4]], ∃ s : State, s = coherent 1 0 k (some { state := .p 2 true false 0 w }) ∧
      (∃ m, CohFirst s 1 0 9 k m) ∧ dirEntry s 9 = some { state := .p 2 true false 0 w } ∧ 1 ∈ w ∧ (w.erase 1 ≠ [] ↔ w = [1, 4]) ∧ SetRoom s 2 9 false) ∧
    ((∀ shared ∈ [false, true], ∃ s : State, s = State.reset.setL2 1 (2 ^ 44) { state := .m, slice := 9 } ∧ hostUnits (2 ^ 44) s 1 = [2 ^ 44] ∧
      ((s.dieAt 1).l2.map (·.1)).Pairwise (· < ·)) ∧ (State.reset.dieAt 0).dir = []) := by
  refine ⟨fun own h sq k => ?_, ⟨_, rfl, ⟨rfl, rfl, rfl⟩, by decide⟩, ⟨_, rfl, by decide +kernel, by decide, by decide +kernel, by decide +kernel⟩, fun k hk w hw => ⟨_, rfl, ?_⟩,
    fun b _ => ⟨_, rfl, by decide +kernel, by decide +kernel⟩, rfl⟩
  · simp only [List.mem_cons, List.not_mem_nil, or_false] at h k
    obtain rfl | rfl := h <;> obtain rfl | rfl := k <;> exact fun _ => by decide +kernel
  · simp only [List.mem_cons, List.not_mem_nil, or_false] at hk hw
    obtain rfl | rfl := hk <;> obtain rfl | rfl := hw <;> exact ⟨⟨_, rfl, rfl, rfl⟩, by decide +kernel, by decide, by decide, fun _ => by decide +kernel⟩

/-- The packet of such a state, on the ring at index 0. -/
def itsFlight (s : State) : Flight := nth (s.dieAt 0).ring 0 { loop := 0, packet := aPacket }

theorem witness_PacketsAreAnswered :
    (∀ k ∈ [PacketKind.pst 0 98040 8 0, .pst4 0 524287 1 0, .put 0 98016 (List.replicate 64 7) [] false, .getRequest 0 98016 64], ∃ s : State, s = arriving k ∧
      FlightReady s 0 0 (itsFlight s) ∧ s.target 0 (itsFlight s).packet = .core 0 ∧ (itsFlight s).packet.senderHome (offRing 0 0 s) = none ∧
      epDevice (itsFlight s).packet.src = s.device ∧ (itsFlight s).packet.tide = none) ∧
    (acceptedBytes ((arriving (.getRequest 0 98016 64)).coreAt 0) ((arriving (.getRequest 0 98016 64)).tableAt 0) 98016 64 10).1 < 64 ∧
    (∃ s : State, s = (arriving (.message (header 3) 0 (List.replicate 8 0) true) id (fun p => { p with cls := 3 })).modDie 0 (fun d => { d with
        spill := [(stopOf 0, [{ loop := 0, packet := aPacket fun p => { p with cls := 3 } }])] }) ∧ FlightReady s 0 0 (itsFlight s) ∧
      ∃ g ∈ tabGet (s.dieAt 0).spill (stopOf 0) [], g.packet.ep = (itsFlight s).packet.ep ∧ g.packet.src = (itsFlight s).packet.src) ∧
    (∃ s : State, s = (chan []).modDie 0 (fun d => { d with spill := [(stopOf 0, [{ loop := 0, packet := aPacket fun p => { p with ep := 0x1000 } }])] }) ∧
      s.target 0 (aPacket fun p => { p with ep := 0x1000 }) = .gone) ∧
    (∃ s : State, s = arriving (.ack 5) (fun k => { k with
        journal := [(2, { ep := 0, cls := 0, cap := 2, nibble := false, off := 0, size := 1, data := 0, tid := 1, id := 6 })] }) ∧
      FlightReady s 0 0 (itsFlight s) ∧ (s.coreAt 0).entryOf 5 = none ∧ ((s.coreAt 0).entryOf 6).isSome = true) := by
  refine ⟨fun k h => ⟨_, rfl, ?_⟩, by decide +kernel, ⟨_, rfl, ⟨by decide +kernel, by decide +kernel⟩, _, .head _, by decide, by decide +kernel⟩, ⟨_, rfl, by decide +kernel⟩,
    ⟨_, rfl, ⟨by decide +kernel, by decide +kernel⟩, by decide +kernel, by decide +kernel⟩⟩
  simp only [List.mem_cons, List.not_mem_nil, or_false] at h
  obtain rfl | rfl | rfl | rfl := h <;> exact ⟨⟨by decide +kernel, by decide +kernel⟩, by decide +kernel, by decide +kernel, by decide +kernel, by decide +kernel⟩

/-- A die whose pool holds every packet that one source may have there. -/
def poolFull (d : Die) : Die := { d with pool := List.replicate 512 (1, aPacket) }

theorem witness_LinksHoldAndReplay :
    (∃ s : State, s = linked (stamped 2) poolFull ∧ (∀ q ∈ ([] : List Packet), q.stamp ≠ none ∧ q.part = (stamped 2).part) ∧
      s.deliverable 1 0 (stamped 2) = false ∧ 512 / max s.liveParts 1 ≤ (s.dieAt 0).poolUsed 0 1) ∧
    (∃ s : State, s = { linked (stamped 2) poolFull with links := [(portKey 1 0, [stamped 2, aPacket])] } ∧
      tabGet s.links (portKey 1 0) [] = stamped 2 :: aPacket :: [] ∧ (aPacket).stamp = none ∧ (aPacket).tide = none) ∧
    (∀ n ∈ [0, 16, 17], ∃ s : State, s = { State.reset with replays := tabPut [] 22 n } ∧ tabGet s.replays 22 0 = n ∧ (n < 17 ↔ n ≠ 17) ∧ 22 < 23) ∧
    (∃ s : State, s = { (tidal fun s => s.modPeer 1 fun x => { x with sent := [1, 0, 0, 0] }) with now := 1000001 } ∧ (s.peerAt 1).down = false ∧ s.noRoute 1 = false ∧
      (s.peerAt 1).sent ≠ (s.peerAt 1).acked ∧ fieldOf (s.partAt 0).acktmo 31 0 = 1000 ∧ (s.peerAt 1).ackedAt + 1000 * 1000 < s.now + Config.elapsed s.tick) ∧
    (∃ s : State, s = tidal (fun s => { s with tideIn := [(2, [fromFar (endpoint 0 0 0 2)])] }) ∧ (s.bestPath (epDevice (fromFar (endpoint 0 0 0 2)).src)).isSome = true) := by
  refine ⟨⟨_, rfl, fun q h => absurd h List.not_mem_nil, by decide +kernel⟩, ⟨_, rfl, by decide +kernel, by decide, by decide⟩, fun n h => ⟨_, rfl, ?_⟩,
    ⟨_, rfl, by decide +kernel, by decide +kernel, by decide +kernel, by decide +kernel, Nat.lt_of_lt_of_le (by decide) (Nat.le_add_right _ _)⟩, ⟨_, rfl, by decide +kernel⟩⟩
  simp only [List.mem_cons, List.not_mem_nil, or_false] at h
  obtain rfl | rfl | rfl := h <;> decide

theorem witness_HaltsHoldAndWordsAreCaptured :
    (∃ s : State, s = (full.modPart 0 fun p => { p with tsel := BitVec.ofNat 64 (8 * 2 ^ 11) }) ∧ (s.partAt 0).selected = (0, 8) ∧
      (s.coreAt 0).taskState 8 = 1 ∧ (s.coreAt 0).freeSlot = none) ∧
    (∃ s : State, s = fetching 0x04611000 0 ∧ s.task.shipTo = none ∧ s.oldWord 0 (0x10000 / 4) = none) ∧
    (∃ s : State, s = (fetching 0x04611000 0).modCore 0 (fun k => { k with icache := [(0x10000 / 4, 0)] }) ∧
      succeeds (tlbSearch 0 0 0x10000 true s) (fun e t => e.any (fun e => e.x && e.u && e.paOf 0x10000 == 0x10000) && t.cur = s.cur &&
        tabFind (t.coreAt 0).icache (0x10000 / 4) == some 0 && !(t.coreAt 0).icacheBad.contains (0x10000 / 4)) = true) ∧
    (∀ b ∈ State.reset.blocks, b.2.frame = none) := by
  refine ⟨⟨_, rfl, by decide +kernel⟩, ⟨_, rfl, by decide +kernel⟩, ⟨_, rfl, by decide +kernel⟩, by decide⟩

/-- States for the clauses of the trap, record and reduce statements: a stepped trap, a record that waits for its forward, one whose
entry is no send entry, a ring that is cleared, and one whose next die is another device's. -/
theorem witness_RecordsAndRings :
    (running [] fun t => { t with stepping := true }).task.stepping = true ∧
    (∀ x ∈ [(none, false), (some 3, true)], ∃ r, r = ({ words := [1, 2], part := 0, core := 0, forward := x.1 } : RecordCopy) ∧
      r.follows [{ words := [1, 2], part := 0, core := 0, forward := some 3 }] = (x.1 == none) ∧ r.follows [] = false) ∧
    (State.reset.sendable 0 3 = false ∧ bitOf ((State.reset.modPart 0 fun p => { p with supep := atBit 1 40 }).partAt 0).supep 40 = true) ∧
    ((tidal).noRoute 1 = false ∧ (tidal).noRoute 2 = true ∧ 1 ≠ (tidal).device ∧ (tidal).deviceDown 1 = false ∧ (tidal).bestPath 1 = some 0 ∧
      (tidal fun s => s.modPeer 1 fun x => { x with down := true }).deviceDown 1 = true) := by
  refine ⟨rfl, fun x h => ⟨_, rfl, ?_⟩, by decide +kernel, by decide +kernel⟩
  simp only [List.mem_cons, List.not_mem_nil, or_false] at h
  obtain rfl | rfl := h <;> decide +kernel

/-- A gate entry on its way through die 0, and one that is at its die. -/
theorem witness_GateEntriesGoOn : ∀ x ∈ [(1, true), (0, false)], ∃ s : State, s = tidal (fun s => s.modDie 0 fun d => { d with
      ring := [{ loop := 0, packet := { kind := .gate (gateEntry true) x.1, ep := endpoint 0 0 x.1 0, home := some (routingCore x.1), src := 0 } }] }) ∧
    s.flightFree 0 0 = true ∧ ((s.dieAt 0).ring[0]?).any (fun f => (s.target 0 f.packet).goesOn == x.2 && s.target 0 f.packet != .gone) = true := by
  intro x h
  simp only [List.mem_cons, List.not_mem_nil, or_false] at h
  obtain rfl | rfl := h <;> exact ⟨_, rfl, by decide +kernel⟩

/-- The arrivals whose clauses turn on what stands elsewhere: a message behind one of its source at its stop, or at another die's; a bounce
with a cause; a credit of a token. -/
theorem witness_ArrivalsBehindOthers :
    (∀ x ∈ [0, 1], ∃ s : State, s = (arriving (.message (header 3) 0 (List.replicate 8 0) true) id fun p => { p with cls := 3 }).modDie x
        (fun d => { d with spill := [(stopOf 0, [{ loop := 0, packet := { kind := .ack 0, ep := 0, src := 0 } }])] }) ∧ s.flightFree 0 0 = true ∧
      ((s.dieAt 0).ring[0]?).any (fun f => f.packet.home.isNone && s.dies.any fun y => y.2.spill.any fun q => q.2.any fun g =>
        g.packet.ep == f.packet.ep && g.packet.src == f.packet.src) = true ∧ (tabGet (s.dieAt 0).spill (stopOf 0) [] = [] ↔ x = 1)) ∧
    (∃ s : State, s = arriving (.bounceBack (header 3 2) 0 (List.replicate 8 0) 0x2A 0 true none) ∧ arrives s = true ∧ s.coreOfTask 1 = some 0 ∧
      (s.coreAt 0).inboxRoom 7 = true ∧ ((s.dieAt 0).ring[0]?).any (fun f => !s.flagLate f.packet) = true) ∧
    (∃ s : State, s = { arriving (.credit 0) id (fun p => { p with token := some (4, 1) }) with names := [(4, {})] } ∧ arrives s = true ∧
      (tabFind s.names 4).isSome = true) ∧
    (∃ s : State, s = arriving (.message (header 3) 0 (List.replicate 8 0) true) id (fun p => { p with cls := 3 }) ∧ s.behindSpilled (aPacket) = false) := by
  refine ⟨fun x h => ?_, ⟨_, rfl, by decide +kernel⟩, ⟨_, rfl, by decide +kernel⟩, ⟨_, rfl, by decide +kernel⟩⟩
  simp only [List.mem_cons, List.not_mem_nil, or_false] at h
  obtain rfl | rfl := h <;> exact ⟨_, rfl, by decide +kernel⟩

/-- The lines of the directory statements: a line that owes its access or none, the owner that asks again, the committed decoder. -/
theorem witness_LinesOweTheirAccess :
    (∀ st ∈ [LineState.m, .e, .s], ∃ s : State, s = { coherent 1 0 .wb none (some st) with coh := [] } ∧
      (s.l2Line 1 9).any (fun l => !s.owes 9 l) = true ∧ s.lineOwed 1 9 = false) ∧
    (∃ s : State, s = (running []).setL2 1 9 { state := .m, slice := 9, owed := some { core := 0, tid := 1, pc := 0x10000, first := none } } ∧ s.lineOwed 1 9 = true) ∧
    (∃ s : State, s = coherent 1 0 .rds (some { state := .x 1 }) ∧ (∃ m, CohFirst s 1 0 9 .rds m) ∧ dirEntry s 9 = some { state := .x 1 }) ∧
    (hosting fun h => { h with hdm := true }).host.hdm = true := by
  refine ⟨fun st h => ?_, ⟨_, rfl, by decide +kernel⟩, ⟨_, rfl, ⟨_, rfl, rfl, rfl⟩, by decide +kernel⟩, by decide⟩
  simp only [List.mem_cons, List.not_mem_nil, or_false] at h
  obtain rfl | rfl | rfl := h <;> exact ⟨_, rfl, by decide +kernel⟩

/-- A put's packet to another device, with room for an ordered one, and the sends of a core with no engine reading its scratchpad. -/
theorem witness_CopiesReachOtherDevices :
    (tidal).deviceDown (epDevice (endpoint 0 0 0 1)) = false ∧ (tidal).orderedRoom 1 = true ∧ epDevice (endpoint 0 0 0 1) ≠ (tidal).device ∧
      ((chan []).coreAt 0).engineReads = false := by decide +kernel

end Sys2Proof.Tests
end

section
/-! The rows of R41 to R51 state each result as a number or an integer; the model computes it with the operations of bit vectors.
First, each such operation as the row states it; then, once for each shape of meaning, an instruction that writes one register
completes as its row says; last the two tables, row by row. -/

namespace Sys2Proof.Proofs.ScalarRegisters

open Sys2Proof Sys2Proof.Machine

section Results

variable (x y : Word) (n : Nat)

theorem shiftLeft_eq_ofNat_mul : x <<< n = BitVec.ofNat 64 (x.toNat * 2 ^ n) := by
  rw [← Nat.shiftLeft_eq]; rfl

theorem ushiftRight_eq_ofNat_div : x >>> n = BitVec.ofNat 64 (x.toNat / 2 ^ n) := by
  rw [← Nat.shiftRight_eq_div_pow, ← BitVec.toNat_ushiftRight, BitVec.ofNat_toNat, BitVec.setWidth_eq]

/-- The arithmetic shift floors, as R41 has it of sha: `/` on the integers with a positive divisor is the floor. -/
theorem sshiftRight_eq_ofInt_div : x.sshiftRight n = BitVec.ofInt 64 (x.toInt / 2 ^ n) := by
  rw [BitVec.sshiftRight_eq, Int.shiftRight_eq_div_pow, Nat.cast_pow, Nat.cast_ofNat]

theorem rotateLeft_eq_or (h : n < 64) : x.rotateLeft n = (x <<< n) ||| (x >>> (64 - n)) := by
  rw [BitVec.rotateLeft_def, Nat.mod_eq_of_lt h]

theorem rotateRight_eq_or (h : n < 64) : x.rotateRight n = (x >>> n) ||| (x <<< (64 - n)) := by
  rw [BitVec.rotateRight_def, Nat.mod_eq_of_lt h]

/-- R42: the amount of a shift or a rotation is below 64. -/
theorem amount_lt : amount y < 64 := Nat.mod_lt _ (by decide)

theorem ofBool_eq_ite {b : Bool} {p : Prop} [Decidable p] (h : b = true ↔ p) : Word.ofBool b = if p then 1 else 0 :=
  if_congr h rfl rfl

theorem minS_eq_ite : minS x y = if x.toInt ≤ y.toInt then x else y :=
  if_congr BitVec.sle_iff_toInt_le rfl rfl

theorem maxS_eq_ite : maxS x y = if x.toInt ≥ y.toInt then x else y :=
  if_congr BitVec.sle_iff_toInt_le rfl rfl

/-- R46: slti compares with the immediate's own signed value. -/
theorem slt_simm_iff (i : BitVec 16) : x.slt (simm i) = true ↔ x.toInt < i.toInt := by
  rw [BitVec.slt_iff_toInt_lt, simm, BitVec.toInt_signExtend_of_le (by decide)]

/-- R46: sltiz compares with the immediate's own unsigned value. -/
theorem ult_zimm_iff (i : BitVec 16) : x.ult (zimm i) = true ↔ x.toNat < i.toNat := by
  rw [BitVec.ult_iff_toNat_lt, zimm, BitVec.toNat_setWidth_of_le (by decide)]

/-- R48: the constant of lhi. -/
theorem simm_shiftLeft_sixteen (l : BitVec 21) : simm l <<< 16 = BitVec.ofInt 64 (l.toInt * 2 ^ 16) := by
  rw [BitVec.shiftLeft_eq_mul_twoPow, BitVec.ofInt_mul]; rfl

end Results

section BitFields

variable (x z : Word) (p : BitVec 5) (q : BitVec 1) (l : BitVec 6)

/-- R50: a field begins within the word. -/
theorem fieldPos_lt : fieldPos p q < 64 := by
  have hp := p.isLt
  have hq := q.isLt
  unfold fieldPos
  omega

/-- R51: a field, shortened or not, has at least one bit. -/
theorem fieldLen_pos : 0 < fieldLen (fieldPos p q) l := by
  have h := fieldPos_lt p q
  unfold fieldLen
  omega

/-- R51: ext reads the field as a number of `len` bits in two's complement. -/
theorem sextNat_fieldAt (pos len : Nat) :
    sextNat (fieldAt x pos len) len =
      if fieldAt x pos len < 2 ^ (len - 1) then (fieldAt x pos len : Int) else (fieldAt x pos len : Int) - 2 ^ len := by
  have hf : fieldAt x pos len < 2 ^ len := Nat.mod_lt _ (Nat.two_pow_pos len)
  rw [sextNat, Nat.mod_eq_of_lt hf, Nat.cast_pow, Nat.cast_ofNat]

/-- R51: ins takes the old field out of `z` and puts the low `len` bits of `x` in its place. -/
theorem insertField_eq_ofNat {pos len : Nat} (h : 0 < len) :
    insertField z x pos len =
      BitVec.ofNat 64 (z.toNat - z.toNat / 2 ^ pos % 2 ^ len * 2 ^ pos + x.toNat % 2 ^ len * 2 ^ pos) := by
  have hlen : pos + len - 1 + 1 - pos = len := by omega
  rw [insertField, withField, fieldOf, hlen, Nat.mod_mod]

end BitFields

section Shapes

variable {s : State} {i : Instr} {d a b : BitVec 5} {v w : Word}

/-- R38, R52: an instruction whose whole effect is to write one general register completes in sequence and changes nothing else. -/
theorem goesOnWith_of_write (hs : s.task.stepping = false) (he : exec i s = .next (complete .plain 4 .seq (s.wg d w)))
    (hw : w = v) : GoesOnWith i s s d v (ComputeFrame s) := by
  subst hw
  exact ⟨_, he, wrote .plain 4 d w hs⟩

theorem goesOnWith_of_alu2 {f : Word → Word → Word} (hs : s.task.stepping = false) (he : exec i s = alu2 f d a b s)
    (hf : f (s.rg a) (s.rg b) = v) : GoesOnWith i s s d v (ComputeFrame s) :=
  goesOnWith_of_write hs he hf

theorem goesOnWith_of_alu1 {f : Word → Word} (hs : s.task.stepping = false) (he : exec i s = alu1 f d a s)
    (hf : f (s.rg a) = v) : GoesOnWith i s s d v (ComputeFrame s) :=
  goesOnWith_of_write hs he hf

end Shapes

/-- Settles O1, row by row: each meaning is `alu2` of the operation named in its line, and that operation gives the row's result. -/
theorem twoSourceAluWritesItsRow : Obligations.TwoSourceAluWritesItsRow := by
  intro s d a b hs
  have row (i : Instr) (f : Word → Word → Word) {v : Word} (he : exec i s = alu2 f d a b s) (hf : f (s.rg a) (s.rg b) = v) :
      GoesOnWith i s s d v (ComputeFrame s) := goesOnWith_of_alu2 hs he hf
  simp only [twoSourceRows, List.forall_mem_cons]
  exact ⟨
    row (.add d a b) (· + ·) rfl rfl,
    row (.sub d a b) (· - ·) rfl rfl,
    row (.mul d a b) (· * ·) rfl rfl,
    row (.mulh d a b) mulHigh rfl rfl,
    row (.mulhz d a b) mulHighZ rfl rfl,
    row (.and d a b) (· &&& ·) rfl rfl,
    row (.or d a b) (· ||| ·) rfl rfl,
    row (.xor d a b) (· ^^^ ·) rfl rfl,
    row (.andn d a b) (· &&& ~~~·) rfl rfl,
    row (.orn d a b) (· ||| ~~~·) rfl rfl,
    row (.shl d a b) (fun x y => x <<< amount y) rfl (shiftLeft_eq_ofNat_mul _ _),
    row (.shr d a b) (fun x y => x >>> amount y) rfl (ushiftRight_eq_ofNat_div _ _),
    row (.sha d a b) (fun x y => x.sshiftRight (amount y)) rfl (sshiftRight_eq_ofInt_div _ _),
    row (.rol d a b) (fun x y => x.rotateLeft (amount y)) rfl (rotateLeft_eq_or _ _ (amount_lt _)),
    row (.ror d a b) (fun x y => x.rotateRight (amount y)) rfl (rotateRight_eq_or _ _ (amount_lt _)),
    row (.slt d a b) (fun x y => Word.ofBool (x.slt y)) rfl (ofBool_eq_ite BitVec.slt_iff_toInt_lt),
    row (.sltz d a b) (fun x y => Word.ofBool (x.ult y)) rfl (ofBool_eq_ite BitVec.ult_iff_toNat_lt),
    row (.seq d a b) (fun x y => Word.ofBool (x == y)) rfl (ofBool_eq_ite beq_iff_eq),
    row (.min d a b) minS rfl (minS_eq_ite _ _),
    row (.max d a b) maxS rfl (maxS_eq_ite _ _),
    row (.minz d a b) minU rfl rfl,
    row (.maxz d a b) maxU rfl rfl,
    List.forall_mem_nil _⟩

/-- Settles O5, row by row: the immediate forms, ext and extz are `alu1` of the operation named in their line; lhi, which reads no
register, and ins, which reads its destination too, write their register directly. -/
theorem immediateFormsWriteTheirRow : Obligations.ImmediateFormsWriteTheirRow := by
  intro s d a p q i n l hs
  have row (i : Instr) (f : Word → Word) {v : Word} (he : exec i s = alu1 f d a s) (hf : f (s.rg a) = v) :
      GoesOnWith i s s d v (ComputeFrame s) := goesOnWith_of_alu1 hs he hf
  let pos := fieldPos p q
  let len := fieldLen pos n
  simp only [immediateRows, List.forall_mem_cons]
  exact ⟨
    row (.addi d a i) (· + simm i) rfl rfl,
    row (.andi d a i) (· &&& zimm i) rfl rfl,
    row (.ori d a i) (· ||| zimm i) rfl rfl,
    row (.xori d a i) (· ^^^ zimm i) rfl rfl,
    row (.slti d a i) (fun x => Word.ofBool (x.slt (simm i))) rfl (ofBool_eq_ite (slt_simm_iff _ _)),
    row (.sltiz d a i) (fun x => Word.ofBool (x.ult (zimm i))) rfl (ofBool_eq_ite (ult_zimm_iff _ _)),
    row (.shli d a n) (· <<< n.toNat) rfl (shiftLeft_eq_ofNat_mul _ _),
    row (.shri d a n) (· >>> n.toNat) rfl (ushiftRight_eq_ofNat_div _ _),
    row (.shai d a n) (·.sshiftRight n.toNat) rfl (sshiftRight_eq_ofInt_div _ _),
    row (.roli d a n) (·.rotateLeft n.toNat) rfl (rotateLeft_eq_or _ _ n.isLt),
    goesOnWith_of_write (i := .lhi d l) hs rfl (simm_shiftLeft_sixteen l),
    row (.ext d a p q n) (fun x => wordOfInt (sextNat (fieldAt x pos len) len)) rfl
      (congrArg wordOfInt (sextNat_fieldAt _ _ _)),
    row (.extz d a p q n) (fun x => BitVec.ofNat 64 (fieldAt x pos len)) rfl rfl,
    goesOnWith_of_write (i := .ins d a p q n) hs rfl (insertField_eq_ofNat _ _ (fieldLen_pos p q n)),
    List.forall_mem_nil _⟩

end Sys2Proof.Proofs.ScalarRegisters
end

section
/-! R61: an urgent task may use no queue. Each instruction that R61 names begins with `queueBank`, so its trap is proved once, from
that shape of its meaning. -/

namespace Sys2Proof.Proofs.SequencersAndLoops

open Sys2Proof Sys2Proof.Machine

variable {s : State} {i : Instr}

/-- The check of R61 stops an urgent task on the state as it was. -/
theorem run_queueBank_of_urgent (h : s.urgent = true) :
    queueBank s = .error (.trap { code := 0x0B, kind := .p }) s := by
  rw [queueBank, run_bind_ok s s (run_get s), h, run_check_true]

/-- R61: an instruction that begins with the check of the queues' bank has no effect when an urgent task executes it. -/
theorem takesTrap_of_queueBank {cls : SpinClass} {len : Nat} {rest : Unit → M Ctl} (h : s.urgent = true)
    (he : exec i s = issue cls len (queueBank >>= rest) s) : TakesTrap i s s 0x0B 0 := by
  rw [TakesTrap, he, issue_trap (run_bind_error s s (run_queueBank_of_urgent h))]

/-- Settles O11, form by form: the meaning of each form begins with `queueBank`. -/
theorem urgentTaskMayUseNoQueue : Obligations.UrgentTaskMayUseNoQueue := by
  intro s a q o l hu
  simp only [List.forall_mem_cons]
  exact ⟨
    takesTrap_of_queueBank (i := .split l) hu rfl,
    takesTrap_of_queueBank (i := .aend) hu rfl,
    takesTrap_of_queueBank (i := .qget a q) hu rfl,
    takesTrap_of_queueBank (i := .qset a q) hu rfl,
    takesTrap_of_queueBank (i := .qlen a q) hu rfl,
    takesTrap_of_queueBank (i := .bqp a) hu rfl,
    takesTrap_of_queueBank (i := .bqb o) hu rfl,
    List.forall_mem_nil _⟩

end Sys2Proof.Proofs.SequencersAndLoops
end
